-- ==== Sys2Proof/Word.lean ====
section
/-! DEFINITION. The machine's word types and their plainest readings (00 R9, R11). -/

namespace Sys2Proof

/-- A scalar register's width (R16). -/
abbrev Word := BitVec 64

/-- The smallest unit of every memory (R9). -/
abbrev Byte := BitVec 8

/-- The internal word into which every instruction is expanded (R59). -/
abbrev IWord := BitVec 96

/-- `bits(x, lo + w - 1, lo)` of R11, on an unbounded natural. -/
def bitsN (x lo w : Nat) : Nat := x / 2 ^ lo % 2 ^ w

/-- `sext(x, w)` of R11, on a natural below `2 ^ w`. -/
def sextN (x w : Nat) : Int := if x < 2 ^ (w - 1) then (x : Int) else (x : Int) - (2 ^ w : Nat)

/-- `sat(x, lo, hi)` of R11. -/
def satI (x lo hi : Int) : Int := if x < lo then lo else if x > hi then hi else x

/-- Two's complement of an integer in `w` bits, as a natural. -/
def wrapN (x : Int) (w : Nat) : Nat := (x % ((2 ^ w : Nat) : Int)).toNat

end Sys2Proof
end

