-- ==== Sys2Proof/Config.lean ====
section
/-! DEFINITION. What the part fixes, and the values its spec leaves to the implementation. -/

namespace Sys2Proof.Config

/-- The architecture level of the part (R496). -/
def archLevel : Nat := 1
/-- Contexts of one sequencer (R13). -/
def contextsPerPan : Nat := 8
/-- Pans of a field, fields of a die, dies of a package (R3, R275). -/
def pansPerField : Nat := 16
def fieldsPerDie : Nat := 6
def dies : Nat := 8
/-- Bytes of node space, of field space, of one reservoir (R21, R300). -/
def nodeSize : Nat := 0x100000
def fieldSize : Nat := 0x800000
def reservoirSize : Nat := 0x8000000
/-- Bytes of text a context can hold (R40). -/
def textMax : Nat := 0x8000
/-- LPBs in a launch queue (R278); entries of an engine queue (R347). -/
def launchQueue : Nat := 64
def engineQueue : Nat := 64
/-- Invariant line buffers of an M-die (R325); ordered fadd entries of an owner (R462). -/
def lineBuffers : Nat := 1024
def faddEntries : Nat := 4096
/-- Sluice positions of an M-die (R450). -/
def sluicePositions : Nat := 16384
/-- Lower bound on the cycles of an access that is not static (R6, R307). -/
def minLatency : Nat := 40
/-- Defaults and bounds of GRACE and KILL in microseconds (R286, R409). -/
def graceDefault : Nat := 200
def killDefault : Nat := 1000
/-- Module power limit and default floor in watts (R491). -/
def powerMax : Nat := 1750
def powerMin : Nat := 400
def floorDefault : Nat := 1050

/-- FREE VALUE. A byte string the spec does not fix (a signature, a measurement digest, a firmware-defined answer body),
for the n-th such draw; nothing constrains it (log 6). -/
opaque freeBytes : Nat → List Byte

/-- FREE VALUE. A number the spec leaves to the part. -/
opaque freeNat : Nat → Nat

/-- FREE VALUE. V(k) of a die in mV, which fuses give (R485; log 6). -/
opaque voltage : Nat → Nat → BitVec 10

/-- FREE VALUE. The calibrated one-way latency of the sideband path between two dies, from bring-up (R495; log 6). -/
opaque sideband : Nat → Nat → Nat

/-- FREE VALUE. The check code of a CID over its low byte, whose code the spec does not give (R418; log 6). -/
opaque cidCheck : BitVec 8 → BitVec 8

/-- FREE VALUES. Whether a signature verifies over a digest under the key of a digest: ECDSA P-384 and LMS, which the spec names and does
not define (R431; log 6). -/
opaque ecdsaOk : BitVec 384 → BitVec 384 → List Byte → Bool
opaque lmsOk : BitVec 384 → BitVec 384 → List Byte → Bool

/-- FREE VALUE. SHA-384, which the spec names and does not define (R432; log 6). -/
opaque sha384 : List Byte → BitVec 384

end Sys2Proof.Config
end

