-- ==== Sys2Proof/Syntax.lean ====
section
/-! DEFINITION. The syntax of every row of spec/opcode_table.json: sequencer words (R59, R64), the rows that elements
issue (R234), and the events, the indivisible steps that hardware, firmware and the outside world take. -/

namespace Sys2Proof

abbrev Reg := BitVec 5
abbrev LReg := BitVec 3
abbrev GStream := BitVec 2
abbrev HReg := BitVec 4

/-- Spaces of LD and ST (R61, R110). -/
inductive LSpace where | node | field
  deriving DecidableEq, Repr

/-- Spaces of the global accesses (R61, R113). -/
inductive GSpace where | res | virt
  deriving DecidableEq, Repr

/-- Operations of AMO (R118). -/
inductive AmoOp where | add | and | or | xor | min | max | minu | maxu | swap | fadd
  deriving DecidableEq, Repr

/-- Forms of FENCE (R122). -/
inductive FenceForm where | full | acq | rel
  deriving DecidableEq, Repr

/-- Scopes (R122, R329). -/
inductive Scope where | pan | field | die | pkg | sys
  deriving DecidableEq, Repr

/-- Which part of the port routing a ROUTE writes (R216). -/
inductive RoutePart where | lo | hi | dly
  deriving DecidableEq, Repr

/-- Directions of a binding (R220). -/
inductive Dir where | inn | out | both
  deriving DecidableEq, Repr

/-- The payload of BIND in its four forms (R220). Sizes and depths are held as the fields hold them: less one. -/
inductive BindSpec where
  | node (k : BitVec 4) (b : BitVec 3) (base : BitVec 16) (size1 : BitVec 12) (depth1 : BitVec 8)
      (ctr : BitVec 16) (dir : Dir) (clr : Bool)
  | conc (c : BitVec 4) (base : BitVec 19) (size1 : BitVec 12) (depth1 : BitVec 10)
      (ctr : BitVec 16) (dir : Dir) (clr : Bool)
  | stream (q : BitVec 4) (recv : Bool) (depth1 : BitVec 10) (side : Bool) (g : BitVec 16) (first : BitVec 16)
  | expectNode (k : BitVec 4) (b : BitVec 3) (ctr : BitVec 16)
  | expectConc (c : BitVec 4) (ctr : BitVec 16)
  deriving DecidableEq, Repr

/-- The payload of NEST in its two forms (R222). -/
inductive NestSpec where
  | counts (w : BitVec 64)
  | stage (rows : BitVec 32) (sigma : BitVec 3)
  deriving DecidableEq, Repr

/-- One row entry of a plane: OP, MOD and bits [46:0] of an E word (R161, R223). -/
structure RowEntry where
  op : BitVec 8
  mod : BitVec 4
  bits : BitVec 47
  deriving DecidableEq, Repr

/-- A row word as a body carries it: the entry, the element set and the row index (R59, R223). -/
structure RowWord where
  ent : RowEntry
  cols : BitVec 16
  rows : BitVec 16
  idx : BitVec 5
  deriving DecidableEq, Repr

/-- Element ports (R62, R162). -/
inductive Port where | n | e | s | w
  deriving DecidableEq, Repr

/-- Source operands of a row (R62). -/
inductive Src where
  | e (k : BitVec 5) | lane (k : BitVec 3) | port (p : Port) | imm | zero
  deriving DecidableEq, Repr

/-- Destinations of a row (R62). -/
inductive Dst where
  | e (k : BitVec 5) | lane (k : BitVec 3) | port (p : Port) | none
  deriving DecidableEq, Repr

/-- IMM12 and IS of a row whose source is an immediate; zero when no source is (R60, R62). -/
structure Imm where
  v : BitVec 12
  s : Bool
  deriving DecidableEq, Repr

/-- Formats of the floating-point rows (R236). -/
inductive FFmt where | f32 | f16 | bf16
  deriving DecidableEq, Repr

/-- Rounding modes (R190). -/
inductive RM where | rne | rtz | rup | rdn | rna
  deriving DecidableEq, Repr

/-- Conditions of ICMP and FCMP (R235, R237). -/
inductive ICond where | eq | ne | lt | ge | ltu | geu
  deriving DecidableEq, Repr
inductive FCond where | eq | lt | le | un
  deriving DecidableEq, Repr

/-- Formats of FCVT (R241). -/
inductive CvtFmt where | f32 | f16 | bf16 | i32 | u32 | e4m3 | e5m2
  deriving DecidableEq, Repr

/-- Widths of MOV, NLD, NST, SEND and RECV (R243 to R245). -/
inductive Wid where | w32 | w64 | w128
  deriving DecidableEq, Repr

/-- Forms of TRDL (R264) and SETQ (R261). -/
inductive TrdlForm where | lo | hi | st | l64
  deriving DecidableEq, Repr
inductive SetqForm where | load | loadSwap | swap
  deriving DecidableEq, Repr

/-- Key formats of RANK (R269). -/
inductive KeyFmt where | i8 | i16 | i32 | bf16 | f32
  deriving DecidableEq, Repr

/-- Where a RANK packet goes and a RACC or RVAL packet comes from (R269, R271). -/
structure PktPort where
  stream : Bool
  idx : BitVec 4
  deriving DecidableEq, Repr

/-- The fields every engine word has (R344): release form, shapes, completion register. -/
structure EngHdr where
  rel : Bool
  ha : HReg
  hb : HReg
  rc : Reg
  deriving DecidableEq, Repr

/-- An end of a copy: a space, or a binding's slot (R367). -/
structure EngEnd where
  sp : BitVec 2
  bnd : Bool
  n : BitVec 4
  deriving DecidableEq, Repr

/-- Kinds and operations of COLL (R470). -/
inductive CollKind where | ar | ag | rs
  deriving DecidableEq, Repr
inductive CollOp where | add | min | max | and | or | xor
  deriving DecidableEq, Repr

/-- What a header of a COLL says of its participant (R472): KIND, OP, FMT, the element count of A, STATUS.ORD, the flush bits of MODEFP for
the FMT's class, and the failed mark. -/
structure CollHeader where
  kind : CollKind
  op : CollOp
  fmt : BitVec 5
  count : Nat
  ord : Bool
  flush : BitVec 2
  failed : Bool
  deriving DecidableEq, Repr

/-- One step of an update of a completion object (R350): a report, a subtraction or arming of the count, CPLARM's own arming, an arrival, a
barrier's start, a task's start and exit, and what RESULT takes. -/
inductive ObjStep where
  | report (code eadr : Nat) | less (n : Nat) | arm (n : Nat) | hold (clr : Bool) (n : Nat) | signal (n : Nat) | barrier (n : Nat)
  | arrive | init (n : Nat) | exit (code : Nat) | result (add : Bool) (n : Nat)
  deriving DecidableEq, Repr

/-- What a forwarded request from another device asks for (R468). An atomic names the task that asks, whose exit is told too (R462, R469);
an update of a completion object brings its steps (R350). -/
inductive RemoteOp where
  | load | store (data : List Byte) | amo (op : AmoOp) (v : List Byte) (ord : Bool) (fin fres : Bool) (task : BitVec 32 := 0)
  | cas (cmp new : List Byte) | taskExit (task : BitVec 32) | update (steps : List ObjStep)
  deriving DecidableEq, Repr

/-- The response of another device: its bytes, and the offsets of the poisoned ones among them (R422). -/
structure Answer where
  bytes : List Byte
  bad : List Nat := []
  deriving DecidableEq, Repr

/-- A flit of a device link or of the Wolas port (R464). -/
structure Flit where
  seq : BitVec 12
  type : BitVec 4
  ack : BitVec 12
  nak : Bool
  vc : BitVec 2
  dst : BitVec 12
  src : BitVec 12
  tenant : BitVec 16
  payload : List Byte
  crc : BitVec 32
  /-- Reserved bits of bytes 3, 5, 7 and 11, which are sent as zero. -/
  rsv : BitVec 32
  deriving DecidableEq, Repr

/-- A task as firmware names it: each partition counts its own identifiers (R280). -/
structure TaskRef where
  pid : Nat
  id : BitVec 32
  deriving DecidableEq, Repr

/-- A bind record as firmware writes it (R286), without the read-only bytes 60 to 63. -/
structure BindRec where
  task : BitVec 32
  tenant : BitVec 16
  slots : BitVec 8
  prio : BitVec 2
  v : Bool
  res : Bool
  ifirst : BitVec 24
  ilast : BitVec 24
  start : BitVec 64
  extp : BitVec 48
  mapp : BitVec 48
  rpan : BitVec 16
  rfield : BitVec 16
  rdie : BitVec 16
  src : BitVec 48
  grace : BitVec 14
  kill : BitVec 14
  deriving DecidableEq, Repr

/-- Structures that serve more than one partition (R419). -/
inductive SharedUnit where
  | generator | sieve | merge | sluice | lineBuffer | linkQueue | hbmQueue | launchQueue
  deriving DecidableEq, Repr

/-- What kind of state an error strikes (R419): data bytes under the CID of the access that meets them; state private to a partition,
in its registers or in a slot of its shadow banks; a structure of a die, with the CID that the struck transaction carries; the extent
table of a context; a transfer over the die-to-die link of a die (R422). `index` is the place in the array. -/
inductive Struck where
  | data (addr n : Nat) (cid : BitVec 16)
  | priv (pid : BitVec 7) (bank : Bool) (index : Nat)
  | shared (u : SharedUnit) (die : BitVec 3) (index : Nat) (cid : BitVec 16)
  | table (ctx : Nat)
  | ring (die : BitVec 3) (index : Nat) (cid : BitVec 16)
  deriving DecidableEq, Repr

/-- An image or token with its signatures (R431): its SHA-384 digest, the digests of the two public keys, the two signatures, and its
security version. -/
structure Signed where
  digest : BitVec 384
  ecdsaKey : BitVec 384
  lmsKey : BitVec 384
  ecdsa : List Byte
  lms : List Byte
  version : BitVec 32
  deriving DecidableEq, Repr

/-- What bring-up verifies (R431, R494): the images of the management firmware and of the remap table, and those that the firmware loads
then; and the dies whose UCIe link cannot be trained. -/
structure BootImages where
  fw : Signed
  remap : Signed
  later : List Signed
  lost : List (BitVec 3) := []
  deriving DecidableEq, Repr

/-- A pan that firmware retires, with the signed table that says so (R417, R431). -/
structure Retired where
  pan : BitVec 5
  table : Signed
  deriving DecidableEq, Repr

/-- What authorises a move of the life cycle (R426). -/
inductive Auth where
  | manufacturingKey (x : Signed) | ownerToken (x : Signed) | manufacturingToken (x : Signed)
  deriving DecidableEq, Repr

/-- Registers without behaviour of their own that firmware writes (R10, R307, R313, R416, R466, R486, R491). -/
inductive FwReg where
  | partition (pid : BitVec 7) | route (mdie : BitVec 3) (dev : BitVec 12) | tenantRoot (tenant : BitVec 16)
  | ownDevice | floorW | scrub (line : Nat) | dbg (ctx : Nat) | linkUp (link : BitVec 4) | resMap (pid : BitVec 7)
  deriving DecidableEq, Repr

/-- Life-cycle states (R426). -/
inductive LifeCycle where | blank | provisioned | deployed | returned
  deriving DecidableEq, Repr

/-- One constructor for each row of spec/opcode_table.json. -/
inductive Instr where
  -- scalar group, R99 to R132
  | nop
  | add (rd ra rb : Reg) | sub (rd ra rb : Reg) | and (rd ra rb : Reg) | or (rd ra rb : Reg) | xor (rd ra rb : Reg)
  | shl (rd ra rb : Reg) | shr (rd ra rb : Reg) | sar (rd ra rb : Reg)
  | mul (rd ra rb : Reg) | mulh (rd ra rb : Reg) | mulhu (rd ra rb : Reg)
  | div (rd ra rb : Reg) | divu (rd ra rb : Reg) | rem (rd ra rb : Reg) | remu (rd ra rb : Reg)
  | min (rd ra rb : Reg) | max (rd ra rb : Reg) | minu (rd ra rb : Reg) | maxu (rd ra rb : Reg)
  | slt (rd ra rb : Reg) | sltu (rd ra rb : Reg) | seq (rd ra rb : Reg) | sel (rd ra rb rc : Reg)
  | addi (rd ra : Reg) (imm : Word) | andi (rd ra : Reg) (imm : Word) | ori (rd ra : Reg) (imm : Word)
  | xori (rd ra : Reg) (imm : Word) | shli (rd ra : Reg) (n : BitVec 6) | shri (rd ra : Reg) (n : BitVec 6)
  | sari (rd ra : Reg) (n : BitVec 6) | slti (rd ra : Reg) (imm : Word) | sltui (rd ra : Reg) (imm : Word)
  | li (rd : Reg) (imm : Word)
  | clz (rd ra : Reg) | ctz (rd ra : Reg) | popc (rd ra : Reg) | brev (rd ra : Reg)
  | bext (sx : Bool) (rd ra rb : Reg) | bins (rd ra rb rc : Reg)
  | j (disp : Word) | jal (rd : Reg) (disp : Word) | jr (ra : Reg) (disp : Word)
  | beq (ra rb : Reg) (disp : Word) | bne (ra rb : Reg) (disp : Word) | blt (ra rb : Reg) (disp : Word)
  | bge (ra rb : Reg) (disp : Word) | bltu (ra rb : Reg) (disp : Word) | bgeu (ra rb : Reg) (disp : Word)
  | loop (ra : Reg) (disp : Word) | loopi (n : BitVec 16) (disp : Word) | lbrk
  | ld (sp : LSpace) (sz : BitVec 2) (zx : Bool) (rd base : Reg) (off : Word)
  | st (sp : LSpace) (sz : BitVec 2) (rs base : Reg) (off : Word)
  | push (rs : Reg) | pop (ln : LReg)
  | gld (sp : GSpace) (sz : BitVec 2) (zx acq : Bool) (ln : LReg) (base : Reg) (off : Word) (g : GStream)
  | gst (sp : GSpace) (sz : BitVec 2) (rel : Bool) (ln : LReg) (rs base : Reg) (off : Word) (g : GStream)
  | gldi (sp : GSpace) (sz : BitVec 2) (zx : Bool) (ln : LReg) (base : Reg) (off : Word) (g : GStream)
  | mvl (rd : Reg) (ln : LReg) | tstl (rd : Reg) (ln : LReg)
  | amo (sp : GSpace) (op : AmoOp) (w64 : Bool) (ord : BitVec 2) (ln : LReg) (rd base : Reg) (off : BitVec 56)
      (g : GStream)
  | cas (sp : GSpace) (w64 : Bool) (ord : BitVec 2) (ln : LReg) (rd base : Reg) (off : Word) (g : GStream)
  | fence (form : FenceForm) (scope : Scope) (mask : BitVec 4) | sbar (scope : Scope) (mask : BitVec 4)
  | hld (sp : GSpace) (h : HReg) (ln : LReg) (base : Reg) (off : Word) (g : GStream)
  | hst (sp : GSpace) (h : HReg) (ln : LReg) (base : Reg) (off : Word) (g : GStream)
  | hset (rd ra rb : Reg) | hget (rd ra : Reg)
  | mdld (sp : GSpace) (m : BitVec 4) (ln : LReg) (base : Reg) (off : Word) (g : GStream)
  | launch (rd ra : Reg) | msg (ra rb rc : Reg) | msgDelivery (id : Nat)
  -- configuration group, R207 to R233
  | blk (clr : Bool) (m : BitVec 8) (id : BitVec 12) (ewin : BitVec 32) (twin : BitVec 8) (ii : BitVec 6)
      (f : BitVec 5)
  | fuse (m : BitVec 8) (id : BitVec 12) (cols rows : BitVec 16) (fcw : BitVec 32)
  | fuseLive (m : BitVec 8) (id : BitVec 12) (em : BitVec 32) (tm : BitVec 8) (idx : BitVec 5)
  | route (part : RoutePart) (m : BitVec 8) (id : BitVec 12) (cols rows : BitVec 16) (v : BitVec 32)
  | bind (m : BitVec 8) (id : BitVec 12) (b : BindSpec)
  | nest (m : BitVec 8) (id : BitVec 12) (n : NestSpec)
  | bodyRowWord (w : RowWord)
  | bend (m : BitVec 8) (id : BitVec 12) (crc : BitVec 32)
  | bstamp (m : BitVec 8) (id : BitVec 12) (n : BitVec 6) (base step ostep : BitVec 16)
  | bgo (m : BitVec 8) (id : BitVec 12) (off : BitVec 24) | bdrain (m : BitVec 8) | brel (m : BitVec 8)
  | gtab (addr : BitVec 20) | vtab (i16 : Bool) (addr : BitVec 20)
  | trd (m : BitVec 8) (k : BitVec 3) (desc : BitVec 20) | tdisc (m : BitVec 8) (tm : BitVec 8)
  -- rows, issued by an element of a block, R234 to R274
  | iadd (d : Dst) (a b : Src) (i : Imm) | isub (d : Dst) (a b : Src) (i : Imm)
  | imul (d : Dst) (a b : Src) (i : Imm) | imac (d : Dst) (a b c : Src) (i : Imm)
  | iand (d : Dst) (a b : Src) (i : Imm) | ior (d : Dst) (a b : Src) (i : Imm) | ixor (d : Dst) (a b : Src) (i : Imm)
  | ishl (d : Dst) (a b : Src) (i : Imm) | ishr (d : Dst) (a b : Src) (i : Imm) | isar (d : Dst) (a b : Src) (i : Imm)
  | imin (u : Bool) (d : Dst) (a b : Src) (i : Imm) | imax (u : Bool) (d : Dst) (a b : Src) (i : Imm)
  | icmp (c : ICond) (d : Dst) (a b : Src) (i : Imm) | isel (d : Dst) (a b c : Src) (i : Imm)
  | iabs (d : Dst) (a : Src) (i : Imm) | iclz (d : Dst) (a : Src) (i : Imm)
  | fadd (f : FFmt) (rm : RM) (d : Dst) (a b : Src) | fsub (f : FFmt) (rm : RM) (d : Dst) (a b : Src)
  | fmul (f : FFmt) (rm : RM) (d : Dst) (a b : Src) | ffma (f : FFmt) (rm : RM) (d : Dst) (a b c : Src)
  | fmin (f : FFmt) (d : Dst) (a b : Src) | fmax (f : FFmt) (d : Dst) (a b : Src)
  | fcmp (f : FFmt) (c : FCond) (d : Dst) (a b : Src) | fabs (f : FFmt) (d : Dst) (a : Src)
  | frint (f : FFmt) (rm : RM) (d : Dst) (a : Src) | fexpf (d : Dst) (a : Src)
  | fexpins (rm : RM) (d : Dst) (a b : Src) | frcp (f : FFmt) (rm : RM) (d : Dst) (a : Src)
  | frsq (f : FFmt) (rm : RM) (d : Dst) (a : Src) | fcvt (rm : RM) (sf df : CvtFmt) (d : Dst) (a : Src)
  | fclass (f : FFmt) (d : Dst) (a : Src) | fdot2 (bf : Bool) (rm : RM) (d : Dst) (a b c : Src)
  | mov (w : Wid) (delay : BitVec 5) (d : Dst) (a : Src) (i : Imm)
  | nld (w : Wid) (adv : Bool) (b : BitVec 3) (d : Dst) (off : Src) (i : Imm)
  | nst (w : Wid) (adv : Bool) (b : BitVec 3) (val off : Src) (i : Imm)
  | send (w : Wid) (adv : Bool) (q u : BitVec 4) (a : Src) | recv (w : Wid) (adv : Bool) (q u : BitVec 4) (d : Dst)
  | hdr (d : Dst) (a b : Src) (i : Imm) | iter (d : Dst) (sel : BitVec 3)
  | tstep (tfa tfb : BitVec 4) (t bA bB bSA bSB : BitVec 3) (re : BitVec 10) (rep1 : BitVec 12) (z : Bool)
  | tstepStepRead (id : Nat) | tstepContribution (id r x y : Nat)
  | macf (wr : Bool) (d : Dst) (a : Src) (b : Option Src) | dmac (wr : Bool) (d : Dst) (a : Src) (b : Option Src)
  | spmx (tfa tfb : BitVec 4) (t bA bB : BitVec 3) (mf nm1 : BitVec 4) (mc nc : BitVec 2) (rep1 : BitVec 12) (z : Bool)
  | rq (uns rna : Bool) (sh : BitVec 6) (wd : BitVec 3) (d : Dst) (x m bias : Src)
  | bq (fin : FFmt) (fout : BitVec 3) (bD bS : BitVec 3) (a : Src) | bqBlockWrite (pan row : Nat)
  | tacc (t : BitVec 3) (a : Src) (k : BitVec 7) | trdl (form : TrdlForm) (d : Dst) (t : BitVec 3)
  | rank (bI : BitVec 3) (g : BitVec 2) (kf : KeyFmt) (c1 : BitVec 6) (out : PktPort) | rankPacketWrite (pan : Nat)
  | racc (n z adv : Bool) (b : BitVec 3) (t : BitVec 3) (w : Src) (src : PktPort)
  | rval (adv : Bool) (d : Dst) (a : Src) (src : PktPort)
  | rnop | setq (form : SetqForm) (a : Option Src)
  | elementResultLanding (elem : Nat) | portDelayExit (elem : Nat) | edgeFeed (elem : Nat) (p : Port)
  -- engines, R266, R344 to R384, R470 to R476
  | tcopy (h : EngHdr) (s d : EngEnd) | tcopyc (h : EngHdr) (s d : EngEnd) (rm : RM) (xr : Reg)
  | tfill (h : EngHdr) (d : EngEnd) (rv : Reg)
  | sgath (h : EngHdr) (tsp rsp : BitVec 2) (ir : Reg) (isp : BitVec 2)
  | sscat (h : EngHdr) (tsp rsp : BitVec 2) (ir : Reg) (isp : BitVec 2)
  | sscata (h : EngHdr) (tsp rsp : BitVec 2) (ir : Reg) (isp : BitVec 2)
  | sisect (h : EngHdr) (emit : Bool) (asp bsp : BitVec 2) (ro : Reg) (osp : BitVec 2)
  | prune (h : EngHdr) (asp bsp : BitVec 2) (mr : Reg) (msp mc nc : BitVec 2)
  | chain (h : EngHdr) (start : BitVec 24) (desc : BitVec 20) (m : BitVec 8) (y : BitVec 4) (n1 : BitVec 3)
      (tau1 : BitVec 2) | chainToken (id k : Nat)
  | cplarm (rel clr : Bool) (rc ra : Reg) | cplwait (rel : Bool) (rc : Reg) | cplwaitEnd (ctx : Nat)
  | cpltest (rel : Bool) (ln : LReg) (rc : Reg) | barinit (rel : Bool) (rc ra : Reg)
  | bararr (rel : Bool) (ln : LReg) (rc : Reg) | barwait (rel : Bool) (rc ra : Reg) | barwaitEnd (ctx : Nat)
  | cplsig (rel : Bool) (rc ra : Reg)
  | coll (h : EngHdr) (kind : CollKind) (op : CollOp) (asp bsp : BitVec 2) (gr : Reg)
  | collHeaderMatch (id : Nat) (headers : List (Option CollHeader)) (peer : Nat) (data : List (List Byte))
  | rput (rel : Bool) (rc rr : Reg) (fld : Bool) (ar : Reg) (asp : BitVec 2) (lr : Reg) (type : BitVec 16)
  | rget (rel : Bool) (rc rr : Reg) (fld : Bool) (ar : Reg) (asp : BitVec 2) (lr : Reg)
  | rpeek (rel : Bool) (rc rr : Reg) (fld : Bool) (ar : Reg) (asp : BitVec 2) (lr : Reg)
  | evict (rel : Bool) (rc br : Reg) (fld : Bool) (mr : Reg) (res : Bool) (nr : Reg)
  | pref (rel : Bool) (rc br : Reg) (fld : Bool) (mr : Reg) (res : Bool) (nr : Reg)
  | queueEntryFree (pan : Nat) | engineAccept (id : Nat) | engineBindingSlotReady (id : Nat)
  | engineWritePerformed (id units : Nat) | engineComplete (id : Nat)
  -- system group, R133 to R143, and its events
  | trap (imm : Word) | brk (imm : Word) | rft | replayLanding (ctx : Nat) | resultLanding (ctx : Nat)
  | landingArrival (id : Nat) (remote : Option Answer)
  | sysr (rd : Reg) (n : BitVec 12) | sysw (n : BitVec 12) (ra : Reg)
  | halt | haltResume (ctx : Nat) (resume : Bool) | waite (rd ra : Reg) (mask : BitVec 10) | waiteEnd (ctx : Nat)
  | dictld (ra : Reg) (off : Word)
  | tider (rd : Reg) | tiderRaw (rd : Reg) | tidew (rd : Reg) (m : Word)
  | domainStall (dom : Nat) | markRelease (dom : Nat)
  | phase (n : BitVec 8) | yield (rd : Reg) | exit (ra : Reg)
  | ckpt (tag : BitVec 32) | flushi | ecall (rd ra : Reg) (svc : BitVec 16) | ecallAnswer (ctx : Nat) (v : Word)
  -- dispatch, translation, pre-emption
  | bindRecordWrite (pan : Nat) (idx : BitVec 4) (r : BindRec) | dispatchTake (pan : Nat) (idx : BitVec 4)
  | contextStart (ctx : Nat) | lateStart (pan : Nat) (idx : BitVec 4) | nextInstanceLoad (pan : Nat) (idx : BitVec 4)
  | translatorBuild (task : TaskRef) (die : BitVec 3) (extp : BitVec 48)
  | haltRequest (ctx : Nat) (tauH : Option (BitVec 64)) | haltPoint (ctx : Nat) | haltComplete (ctx : Nat)
  | save (task : TaskRef) (inst : BitVec 24) (addr : BitVec 48)
  | swap (task : TaskRef) (inst : BitVec 24) (addr : BitVec 48) (pan : Nat) (idx : BitVec 4)
  | resumption (pan : Nat) (idx : BitVec 4)
  | softRequest (task : TaskRef) (inst : BitVec 24) | graceExpiry (task : TaskRef) (inst : BitVec 24)
  | killExpiry (ctx : Nat) | thermalEmergency | hardTrip
  -- integrity, life cycle, memory side
  | uncorrectableError (s : Struck) (injected : Bool) | correctableError (s : Struck) (wrong : Nat) (injected : Bool)
  | tenantChangeWipe (field : Nat) | scrubLine (stack : BitVec 3) | patrolScrub (addr : Nat)
  | dlogRoundEnd (pid : BitVec 7) | einjWrite (array : Nat) (v : BitVec 64) | errorLogClear (array entry : Nat)
  | pwrdomWrite (dom : Nat) (v : BitVec 64) | registerWrite (r : FwReg) (v : List (BitVec 64))
  | lifeCycleChange (lc : LifeCycle) (auth : Auth)
  | replicaCommit (id : Nat) | replicaUnlock (id : Nat) (die : BitVec 3)
  | mergeGroupSend (ids : List Nat) | orderedFadd (id : Nat)
  | tideSample (src dst : Nat) | sluiceSlotArrival (id : Nat) | stageMove (mdie q : Nat) | sluicePositionFree (id : Nat)
  | flitReceive (link : BitVec 5) (f : Flit) | flitReplay (link : BitVec 5) (ack : BitVec 12)
  | remoteRequest (tenant : BitVec 16) (src : BitVec 12) (addr : BitVec 48) (n : Nat) (rep : Bool) (op : RemoteOp)
  | linkTimeout (link : BitVec 4)
  | imgld (seq : BitVec 64) (pid : BitVec 7) (va : BitVec 64) (body : List Byte)
  | start (seq : BitVec 64) (pid : BitVec 7) (va : BitVec 64)
  | cap (cseq : BitVec 64) (lease capw : BitVec 32) | leaseExpiry
  | attreq (seq : BitVec 64) (nonce : List Byte) | debug (seq : BitVec 64) (body : List Byte)
  | fllStep (dom : Nat) | voltageMoveEnd (dom : Nat) | powerWindow (load : Nat) (share : List (Nat × Nat))
  | byteBudgetWindow | powerOnReset (boot : BootImages) | linkRetrain (die : BitVec 3) (lat : Option Nat)
  | instanceEnd (task : TaskRef) (inst : BitVec 24)
  | managementCoreAccess (addr : BitVec 48) (n : Nat) (data : Option (List Byte))
  | remapTableChange (die : BitVec 3) (field : BitVec 3) (pan : Retired)
  | endpointDirectoryUpdate (tenant : BitVec 16) (gid : BitVec 32) (rank : BitVec 6) (dev : BitVec 12)
  | dictldComplete (ctx : Nat) | flushiComplete (ctx : Nat)
  deriving DecidableEq, Repr

end Sys2Proof
end

