-- ==== Sys2Proof/Decode.lean ====
section
/-! DEFINITION. Bytes to words to instructions (chapter 02): the byte classes and their expansion, the fields of the
seven formats, the decoder, and the encoder written from the same tables. -/

namespace Sys2Proof

/-- Why a word stands for no instruction. All of them raise the decode fault (R60 to R62). -/
inductive DecErr where
  /-- an OP that R63 reserves -/
  | reservedOp
  /-- a field that is not used, or marked zero, does not hold what R60 asks -/
  | field
  /-- a space that is reserved or not listed (R61) -/
  | space
  /-- a reserved or unlisted MOD, form, condition, format or mode -/
  | mode
  /-- a reserved or unfit operand code (R62) -/
  | operand
  deriving DecidableEq, Repr

abbrev Dec := Except DecErr Instr

/-- Answers the instruction when the entry's demands on its fields hold. -/
def need (c : Bool) (e : DecErr) (i : Instr) : Dec := if c then .ok i else .error e

/-! ### Fields of the formats (R59) -/

/-- S3, SI and B words. -/
structure FR where
  mod : BitVec 4
  rd : Reg
  ra : Reg
  rb : Reg
  rc : Reg
  imm : Word

def fR (w : IWord) : FR :=
  ⟨w.extractLsb' 84 4, w.extractLsb' 79 5, w.extractLsb' 74 5, w.extractLsb' 69 5, w.extractLsb' 64 5, w.extractLsb' 0 64⟩

def FR.m0 (f : FR) : Bool := f.mod == 0
def FR.noRegs (f : FR) : Bool := f.rd == 0 && f.ra == 0 && f.rb == 0 && f.rc == 0
def FR.noImm (f : FR) : Bool := f.imm == 0

/-- M words. -/
structure FM where
  mod : BitVec 4
  d : Reg
  base : Reg
  g : GStream
  ln : LReg
  sp : BitVec 3
  z : BitVec 2
  off : Word

def fM (w : IWord) : FM :=
  ⟨w.extractLsb' 84 4, w.extractLsb' 79 5, w.extractLsb' 74 5, w.extractLsb' 72 2, w.extractLsb' 69 3, w.extractLsb' 66 3,
    w.extractLsb' 64 2, w.extractLsb' 0 64⟩

/-- C words. -/
structure FC where
  mod : BitVec 4
  m : BitVec 8
  id : BitVec 12
  p : BitVec 64

def fC (w : IWord) : FC := ⟨w.extractLsb' 84 4, w.extractLsb' 76 8, w.extractLsb' 64 12, w.extractLsb' 0 64⟩

/-- G words. MOD[3] is the release form (R344). -/
structure FG where
  rel : Bool
  mod : BitVec 3
  ha : HReg
  hb : HReg
  rc : Reg
  z : BitVec 7
  st : BitVec 24
  p : BitVec 40

def fG (w : IWord) : FG :=
  ⟨w.getLsbD 87, w.extractLsb' 84 3, w.extractLsb' 80 4, w.extractLsb' 76 4, w.extractLsb' 71 5, w.extractLsb' 64 7,
    w.extractLsb' 40 24, w.extractLsb' 0 40⟩

def FG.m0 (g : FG) : Bool := g.mod == 0

/-- What an E word carries (R59, R223). -/
def rowWord (w : IWord) : RowWord :=
  ⟨⟨w.extractLsb' 88 8, w.extractLsb' 84 4, w.extractLsb' 0 47⟩, w.extractLsb' 68 16, w.extractLsb' 52 16, w.extractLsb' 47 5⟩

/-- The fields of a row entry (R59). -/
structure FE where
  mod : BitVec 4
  d : BitVec 6
  a : BitVec 7
  b : BitVec 7
  c : BitVec 7
  dl : BitVec 5
  i : Imm
  z : BitVec 2

def fE (e : RowEntry) : FE :=
  ⟨e.mod, e.bits.extractLsb' 41 6, e.bits.extractLsb' 34 7, e.bits.extractLsb' 27 7, e.bits.extractLsb' 20 7,
    e.bits.extractLsb' 15 5, ⟨e.bits.extractLsb' 3 12, e.bits.getLsbD 2⟩, e.bits.extractLsb' 0 2⟩

/-! ### Words from fields -/

def wR (op : BitVec 8) (mod : BitVec 4) (rd ra rb rc : Reg) (imm : Word) : IWord :=
  op ++ mod ++ rd ++ ra ++ rb ++ rc ++ imm
def wM (op : BitVec 8) (mod : BitVec 4) (d base : Reg) (g : GStream) (ln : LReg) (sp : BitVec 3) (off : Word) : IWord :=
  op ++ mod ++ d ++ base ++ g ++ ln ++ sp ++ (0 : BitVec 2) ++ off
def wC (op : BitVec 8) (mod : BitVec 4) (m : BitVec 8) (id : BitVec 12) (p : BitVec 64) : IWord := op ++ mod ++ m ++ id ++ p
def wG (op : BitVec 8) (rel : Bool) (mod : BitVec 3) (ha hb : HReg) (rc : Reg) (st : BitVec 24) (p : BitVec 40) : IWord :=
  op ++ BitVec.ofBool rel ++ mod ++ ha ++ hb ++ rc ++ (0 : BitVec 7) ++ st ++ p
def wRow (op : BitVec 8) (mod : BitVec 4) (d : BitVec 6) (a b c : BitVec 7) (dl : BitVec 5) (i : Imm) : RowEntry :=
  ⟨op, mod, d ++ a ++ b ++ c ++ dl ++ i.v ++ BitVec.ofBool i.s ++ (0 : BitVec 2)⟩

/-! ### Codes of the operand kinds: each reader rejects what its table reserves, each code is its inverse -/

/-- Spaces of LD and ST (R61). -/
def lspace (c : BitVec 3) (k : LSpace → Dec) : Dec :=
  match c.toNat with
  | 0 => k .node | 1 => k .field | _ => .error .space
def lspaceCode : LSpace → BitVec 3 | .node => 0 | .field => 1

/-- Spaces of the global accesses (R61). -/
def gspace (c : BitVec 3) (k : GSpace → Dec) : Dec :=
  match c.toNat with
  | 2 => k .res | 3 => k .virt | _ => .error .space
def gspaceCode : GSpace → BitVec 3 | .res => 2 | .virt => 3

/-- Operations of AMO in IMM64[63:56] (R118). -/
def amoOp (c : BitVec 8) (k : AmoOp → Dec) : Dec :=
  match c.toNat with
  | 0 => k .add | 1 => k .and | 2 => k .or | 3 => k .xor | 4 => k .min | 5 => k .max | 6 => k .minu | 7 => k .maxu
  | 8 => k .swap | 9 => k .fadd | _ => .error .mode
def amoCode : AmoOp → BitVec 8
  | .add => 0 | .and => 1 | .or => 2 | .xor => 3 | .min => 4 | .max => 5 | .minu => 6 | .maxu => 7 | .swap => 8 | .fadd => 9

/-- Forms of FENCE in MOD (R122). -/
def fenceForm (c : BitVec 4) (k : FenceForm → Dec) : Dec :=
  match c.toNat with
  | 0 => k .full | 1 => k .acq | 2 => k .rel | _ => .error .mode
def fenceCode : FenceForm → BitVec 4 | .full => 0 | .acq => 1 | .rel => 2

/-- Scopes (R122). -/
def scope (c : BitVec 3) (k : Scope → Dec) : Dec :=
  match c.toNat with
  | 0 => k .pan | 1 => k .field | 2 => k .die | 3 => k .pkg | 4 => k .sys | _ => .error .mode
def scopeCode : Scope → BitVec 3 | .pan => 0 | .field => 1 | .die => 2 | .pkg => 3 | .sys => 4

/-- Parts of ROUTE (R216). -/
def routePart (c : BitVec 4) (k : RoutePart → Dec) : Dec :=
  match c.toNat with
  | 0 => k .lo | 1 => k .hi | 2 => k .dly | _ => .error .mode
def routeCode : RoutePart → BitVec 4 | .lo => 0 | .hi => 1 | .dly => 2

/-- A route field: KIND, BUF under KIND 1 only, the rest zero (R216). -/
def routeFieldOk (f : BitVec 16) : Bool :=
  f.extractLsb' 5 11 == 0 && (f.extractLsb' 0 2 == 1 || f.extractLsb' 2 3 == 0)
def routeOk (part : RoutePart) (v : BitVec 32) : Bool :=
  match part with
  | .dly => v.extractLsb' 16 16 == 0
  | _ => routeFieldOk (v.extractLsb' 0 16) && routeFieldOk (v.extractLsb' 16 16)

/-- Directions of a binding (R220). -/
def dirOf (c : BitVec 2) : Option Dir :=
  match c.toNat with
  | 0 => some .inn | 1 => some .out | 2 => some .both | _ => none
def dirCode : Dir → BitVec 2 | .inn => 0 | .out => 1 | .both => 2

/-- The four forms of BIND (R220). -/
def decodeBind (mod : BitVec 4) (p : BitVec 64) (k : BindSpec → Dec) : Dec :=
  match mod.toNat with
  | 0 => match dirOf (p.extractLsb' 60 2) with
    | some d =>
      if p.getLsbD 7 || p.getLsbD 63 then .error .field
      else k (.node (p.extractLsb' 0 4) (p.extractLsb' 4 3) (p.extractLsb' 8 16) (p.extractLsb' 24 12) (p.extractLsb' 36 8)
        (p.extractLsb' 44 16) d (p.getLsbD 62))
    | none => .error .mode
  | 1 => match dirOf (p.extractLsb' 61 2) with
    | some d => k (.conc (p.extractLsb' 0 4) (p.extractLsb' 4 19) (p.extractLsb' 23 12) (p.extractLsb' 35 10)
        (p.extractLsb' 45 16) d (p.getLsbD 63))
    | none => .error .mode
  | 2 =>
    if p.extractLsb' 48 16 == 0 then
      k (.stream (p.extractLsb' 0 4) (p.getLsbD 4) (p.extractLsb' 5 10) (p.getLsbD 15) (p.extractLsb' 16 16)
        (p.extractLsb' 32 16))
    else .error .field
  | 3 =>
    if p.extractLsb' 24 40 != 0 then .error .field
    else if p.getLsbD 0 then
      if p.extractLsb' 5 3 == 0 then k (.expectConc (p.extractLsb' 1 4) (p.extractLsb' 8 16)) else .error .field
    else k (.expectNode (p.extractLsb' 1 4) (p.extractLsb' 5 3) (p.extractLsb' 8 16))
  | _ => .error .mode

def bindMod : BindSpec → BitVec 4
  | .node .. => 0 | .conc .. => 1 | .stream .. => 2 | .expectNode .. => 3 | .expectConc .. => 3

def bindPayload : BindSpec → BitVec 64
  | .node k b base size depth ctr d clr =>
    (0 : BitVec 1) ++ BitVec.ofBool clr ++ dirCode d ++ ctr ++ depth ++ size ++ base ++ (0 : BitVec 1) ++ b ++ k
  | .conc c base size depth ctr d clr => BitVec.ofBool clr ++ dirCode d ++ ctr ++ depth ++ size ++ base ++ c
  | .stream q rc depth side g first =>
    (0 : BitVec 16) ++ first ++ g ++ BitVec.ofBool side ++ depth ++ BitVec.ofBool rc ++ q
  | .expectNode k b ctr => (0 : BitVec 40) ++ ctr ++ b ++ k ++ (0 : BitVec 1)
  | .expectConc c ctr => (0 : BitVec 40) ++ ctr ++ (0 : BitVec 3) ++ c ++ (1 : BitVec 1)

/-- An end of a copy is sound when a binding names node or field space, and a node buffer is 0 to 7 (R367); without a
binding its number is unused. -/
def engEndOk (e : EngEnd) : Bool :=
  if e.bnd then decide (e.sp.toNat ≤ 1) && (e.sp != 0 || decide (e.n.toNat ≤ 7)) else e.n == 0

/-- The source and destination ends in [15:0] of the parameters (R367). -/
def engEnds (p : BitVec 40) (k : EngEnd → EngEnd → Dec) : Dec :=
  let s : EngEnd := ⟨p.extractLsb' 0 2, p.getLsbD 6, p.extractLsb' 8 4⟩
  let d : EngEnd := ⟨p.extractLsb' 3 2, p.getLsbD 7, p.extractLsb' 12 4⟩
  if p.getLsbD 2 || p.getLsbD 5 then .error .space
  else if engEndOk s && engEndOk d then k s d else .error .field
def endsCode (s d : EngEnd) : BitVec 16 :=
  d.n ++ s.n ++ BitVec.ofBool d.bnd ++ BitVec.ofBool s.bnd ++ (0 : BitVec 1) ++ d.sp ++ (0 : BitVec 1) ++ s.sp

/-- Rounding modes (R190). -/
def rmOf (c : BitVec 3) (k : RM → Dec) : Dec :=
  match c.toNat with
  | 0 => k .rne | 1 => k .rtz | 2 => k .rup | 3 => k .rdn | 4 => k .rna | _ => .error .mode
def rmCode : RM → BitVec 3 | .rne => 0 | .rtz => 1 | .rup => 2 | .rdn => 3 | .rna => 4

/-- M codes 0 to 2 stand for 4, 8 and 16 and N codes 0 to 2 for 1, 2 and 4; code 3 is reserved and N < M (R258, R375). -/
def nmOk (mc nc : BitVec 2) : Bool := mc != 3 && nc != 3 && decide (2 ^ nc.toNat < 4 * 2 ^ mc.toNat)

/-- Kinds and operations of COLL (R470). -/
def collKind (c : BitVec 2) (k : CollKind → Dec) : Dec :=
  match c.toNat with
  | 0 => k .ar | 1 => k .ag | 2 => k .rs | _ => .error .mode
def collKindCode : CollKind → BitVec 2 | .ar => 0 | .ag => 1 | .rs => 2
def collOp (c : BitVec 3) (k : CollOp → Dec) : Dec :=
  match c.toNat with
  | 0 => k .add | 1 => k .min | 2 => k .max | 3 => k .and | 4 => k .or | 5 => k .xor | _ => .error .mode
def collOpCode : CollOp → BitVec 3 | .add => 0 | .min => 1 | .max => 2 | .and => 3 | .or => 4 | .xor => 5

def portOf (c : BitVec 2) : Port :=
  match c.toNat with
  | 0 => .n | 1 => .e | 2 => .s | _ => .w
def portCode : Port → BitVec 2 | .n => 0 | .e => 1 | .s => 2 | .w => 3

/-- Destination operands (R62). The node path stands only where NLD and NST hold it implicitly (R234, R244). -/
def dst (c : BitVec 6) (k : Dst → Dec) : Dec :=
  if c.extractLsb' 5 1 == 0 then k (.e (c.extractLsb' 0 5))
  else if c.extractLsb' 3 3 == 4 then k (.lane (c.extractLsb' 0 3))
  else if c.extractLsb' 2 4 == 10 then k (.port (portOf (c.extractLsb' 0 2)))
  else if c == 0x3F then k .none
  else .error .operand
def dstCode : Dst → BitVec 6
  | .e n => (0 : BitVec 1) ++ n
  | .lane n => (4 : BitVec 3) ++ n
  | .port p => (10 : BitVec 4) ++ portCode p
  | .none => 0x3F

/-- Source operands (R62). -/
def src (c : BitVec 7) (k : Src → Dec) : Dec :=
  if c.extractLsb' 5 2 == 0 then k (.e (c.extractLsb' 0 5))
  else if c.extractLsb' 3 4 == 4 then k (.lane (c.extractLsb' 0 3))
  else if c.extractLsb' 2 5 == 10 then k (.port (portOf (c.extractLsb' 0 2)))
  else if c == 0x2D then k .imm
  else if c == 0x2E then k .zero
  else .error .operand
def srcCode : Src → BitVec 7
  | .e n => (0 : BitVec 2) ++ n
  | .lane n => (4 : BitVec 4) ++ n
  | .port p => (10 : BitVec 5) ++ portCode p
  | .imm => 0x2D
  | .zero => 0x2E

/-- A source of a row whose IMM12 holds something else: code 0x2D is refused (R236). -/
def fsrc (c : BitVec 7) (k : Src → Dec) : Dec := src c fun s => if s == .imm then .error .operand else k s

/-- A source that is a port, a lane or an e register (R258, R259, R261, R263). -/
def wsrc (c : BitVec 7) (k : Src → Dec) : Dec :=
  src c fun s => if s == .imm || s == .zero then .error .operand else k s

/-- The same, or 0x7F for none. -/
def wsrcO (c : BitVec 7) (k : Option Src → Dec) : Dec := if c == 0x7F then k none else wsrc c fun s => k (some s)
def srcCodeO : Option Src → BitVec 7 | some s => srcCode s | none => 0x7F

/-- A lane in a destination field, and in a source field. -/
def lane (c : BitVec 6) (k : BitVec 3 → Dec) : Dec :=
  if c.extractLsb' 3 3 == 4 then k (c.extractLsb' 0 3) else .error .operand
def lane7 (c : BitVec 7) (k : BitVec 3 → Dec) : Dec :=
  if c.extractLsb' 3 4 == 4 then k (c.extractLsb' 0 3) else .error .operand
def laneCode (t : BitVec 3) : BitVec 6 := (4 : BitVec 3) ++ t

/-- Conditions of ICMP (R235). -/
def icond (c : BitVec 4) (k : ICond → Dec) : Dec :=
  match c.toNat with
  | 0 => k .eq | 1 => k .ne | 2 => k .lt | 3 => k .ge | 4 => k .ltu | 5 => k .geu | _ => .error .mode
def icondCode : ICond → BitVec 4 | .eq => 0 | .ne => 1 | .lt => 2 | .ge => 3 | .ltu => 4 | .geu => 5

/-- Formats in MOD[1:0] with MOD[3:2] zero (R236). -/
def ffmt (c : BitVec 4) (k : FFmt → Dec) : Dec :=
  match c.toNat with
  | 0 => k .f32 | 1 => k .f16 | 2 => k .bf16 | _ => .error .mode
def ffmtCode : FFmt → BitVec 4 | .f32 => 0 | .f16 => 1 | .bf16 => 2

/-- Conditions of FCMP (R237). -/
def fcondOf (c : BitVec 2) : FCond :=
  match c.toNat with
  | 0 => .eq | 1 => .lt | 2 => .le | _ => .un
def fcondCode : FCond → BitVec 2 | .eq => 0 | .lt => 1 | .le => 2 | .un => 3

/-- Formats of FCVT (R241). -/
def cvtFmt (c : BitVec 3) (k : CvtFmt → Dec) : Dec :=
  match c.toNat with
  | 0 => k .f32 | 1 => k .f16 | 2 => k .bf16 | 3 => k .i32 | 4 => k .u32 | 5 => k .e4m3 | 6 => k .e5m2 | _ => .error .mode
def cvtCode : CvtFmt → BitVec 3 | .f32 => 0 | .f16 => 1 | .bf16 => 2 | .i32 => 3 | .u32 => 4 | .e4m3 => 5 | .e5m2 => 6

/-- Widths (R243 to R245). -/
def wid (c : BitVec 4) (k : Wid → Dec) : Dec :=
  match c.toNat with
  | 0 => k .w32 | 1 => k .w64 | 2 => k .w128 | _ => .error .mode
def widCode : Wid → BitVec 4 | .w32 => 0 | .w64 => 1 | .w128 => 2

/-- Forms of TRDL (R264), SETQ (R261) and key formats of RANK (R269). -/
def trdlForm (c : BitVec 4) (k : TrdlForm → Dec) : Dec :=
  match c.toNat with
  | 0 => k .lo | 1 => k .hi | 2 => k .st | 3 => k .l64 | _ => .error .mode
def trdlCode : TrdlForm → BitVec 4 | .lo => 0 | .hi => 1 | .st => 2 | .l64 => 3
def setqForm (c : BitVec 4) (k : SetqForm → Dec) : Dec :=
  match c.toNat with
  | 0 => k .load | 1 => k .loadSwap | 2 => k .swap | _ => .error .mode
def setqCode : SetqForm → BitVec 4 | .load => 0 | .loadSwap => 1 | .swap => 2
def keyFmt (c : BitVec 3) (k : KeyFmt → Dec) : Dec :=
  match c.toNat with
  | 0 => k .i8 | 1 => k .i16 | 2 => k .i32 | 3 => k .bf16 | 4 => k .f32 | _ => .error .mode
def keyCode : KeyFmt → BitVec 3 | .i8 => 0 | .i16 => 1 | .i32 => 2 | .bf16 => 3 | .f32 => 4

def isE : Src → Bool | .e _ => true | _ => false
def isLane : Src → Bool | .lane _ => true | _ => false
def isPort : Src → Bool | .port _ => true | _ => false

/-- IMM12 and IS are used only when some source is the immediate (R60, R62). -/
def immOk (l : List Src) (i : Imm) : Bool := l.contains .imm || (i.v == 0 && !i.s)

/-- Pairings of MOV (R243): the 128-bit form moves a port and cannot reach an e register or a lane; the 64-bit form reads
a lane, a port or an e register. -/
def movOk (w : Wid) (d : Dst) (a : Src) : Bool :=
  match w with
  | .w32 => true
  | .w64 => true
  | .w128 => isPort a && (match d with | .port _ => true | .none => true | _ => false)

/-- Pairings of NLD and NST (R244). -/
def nldOk (w : Wid) (d : Dst) : Bool :=
  match w, d with
  | .w32, .e _ => true | .w64, .lane _ => true | .w128, .port _ => true | _, _ => false
def nstOk (w : Wid) (v : Src) : Bool :=
  match w with
  | .w32 => isE v || v == .imm || v == .zero
  | .w64 => isLane v
  | .w128 => isPort v

/-- Operands of RQ (R262). -/
def rqOk (x m bias : Src) : Bool := (isLane x || isE x) && isE m && (isE bias || bias == .zero)

/-- Operands of TRDL (R264). -/
def trdlOk (fm : TrdlForm) (d : Dst) : Bool :=
  d != .none && !(fm == .l64 && (match d with | .e _ => true | _ => false))

/-- Tile formats that carry scales (R249). -/
def hasScale (f : BitVec 4) : Bool := decide (5 ≤ f.toNat) && decide (f.toNat ≤ 11)

/-- The row a plane's entry stands for (R223, R234 to R274), or why it is none. -/
def decodeRow (ent : RowEntry) : Except DecErr Instr :=
  let r := fE ent
  match ent.op.toNat with
  | 0x80 => dst r.d fun d => src r.a fun a => src r.b fun b => need (r.mod == 0 && r.c == 0x7F && r.dl == 0 && r.z == 0 && immOk [a, b] r.i) .field (.iadd d a b r.i)
  | 0x81 => dst r.d fun d => src r.a fun a => src r.b fun b => need (r.mod == 0 && r.c == 0x7F && r.dl == 0 && r.z == 0 && immOk [a, b] r.i) .field (.isub d a b r.i)
  | 0x82 => dst r.d fun d => src r.a fun a => src r.b fun b => need (r.mod == 0 && r.c == 0x7F && r.dl == 0 && r.z == 0 && immOk [a, b] r.i) .field (.imul d a b r.i)
  | 0x84 => dst r.d fun d => src r.a fun a => src r.b fun b => need (r.mod == 0 && r.c == 0x7F && r.dl == 0 && r.z == 0 && immOk [a, b] r.i) .field (.iand d a b r.i)
  | 0x85 => dst r.d fun d => src r.a fun a => src r.b fun b => need (r.mod == 0 && r.c == 0x7F && r.dl == 0 && r.z == 0 && immOk [a, b] r.i) .field (.ior d a b r.i)
  | 0x86 => dst r.d fun d => src r.a fun a => src r.b fun b => need (r.mod == 0 && r.c == 0x7F && r.dl == 0 && r.z == 0 && immOk [a, b] r.i) .field (.ixor d a b r.i)
  | 0x87 => dst r.d fun d => src r.a fun a => src r.b fun b => need (r.mod == 0 && r.c == 0x7F && r.dl == 0 && r.z == 0 && immOk [a, b] r.i) .field (.ishl d a b r.i)
  | 0x88 => dst r.d fun d => src r.a fun a => src r.b fun b => need (r.mod == 0 && r.c == 0x7F && r.dl == 0 && r.z == 0 && immOk [a, b] r.i) .field (.ishr d a b r.i)
  | 0x89 => dst r.d fun d => src r.a fun a => src r.b fun b => need (r.mod == 0 && r.c == 0x7F && r.dl == 0 && r.z == 0 && immOk [a, b] r.i) .field (.isar d a b r.i)
  | 0x83 => dst r.d fun d => src r.a fun a => src r.b fun b => src r.c fun c => need (r.mod == 0 && r.dl == 0 && r.z == 0 && immOk [a, b, c] r.i) .field (.imac d a b c r.i)
  | 0x8D => dst r.d fun d => src r.a fun a => src r.b fun b => src r.c fun c => need (r.mod == 0 && r.dl == 0 && r.z == 0 && immOk [a, b, c] r.i) .field (.isel d a b c r.i)
  | 0x8A => dst r.d fun d => src r.a fun a => src r.b fun b => need (r.mod.extractLsb' 1 3 == 0 && r.c == 0x7F && r.dl == 0 && r.z == 0 && immOk [a, b] r.i) .field (.imin (r.mod.getLsbD 0) d a b r.i)
  | 0x8B => dst r.d fun d => src r.a fun a => src r.b fun b => need (r.mod.extractLsb' 1 3 == 0 && r.c == 0x7F && r.dl == 0 && r.z == 0 && immOk [a, b] r.i) .field (.imax (r.mod.getLsbD 0) d a b r.i)
  | 0x8C => icond r.mod fun cd => dst r.d fun d => src r.a fun a => src r.b fun b => need (r.c == 0x7F && r.dl == 0 && r.z == 0 && immOk [a, b] r.i) .field (.icmp cd d a b r.i)
  | 0x8E => dst r.d fun d => src r.a fun a => need (r.mod == 0 && r.b == 0x7F && r.c == 0x7F && r.dl == 0 && r.z == 0 && immOk [a] r.i) .field (.iabs d a r.i)
  | 0x8F => dst r.d fun d => src r.a fun a => need (r.mod == 0 && r.b == 0x7F && r.c == 0x7F && r.dl == 0 && r.z == 0 && immOk [a] r.i) .field (.iclz d a r.i)
  | 0x90 => ffmt r.mod fun f => rmOf (r.i.v.extractLsb' 0 3) fun rm => dst r.d fun d => fsrc r.a fun a => fsrc r.b fun b => need (r.c == 0x7F && r.dl == 0 && r.z == 0 && !r.i.s && r.i.v.extractLsb' 3 9 == 0) .field (.fadd f rm d a b)
  | 0x91 => ffmt r.mod fun f => rmOf (r.i.v.extractLsb' 0 3) fun rm => dst r.d fun d => fsrc r.a fun a => fsrc r.b fun b => need (r.c == 0x7F && r.dl == 0 && r.z == 0 && !r.i.s && r.i.v.extractLsb' 3 9 == 0) .field (.fsub f rm d a b)
  | 0x92 => ffmt r.mod fun f => rmOf (r.i.v.extractLsb' 0 3) fun rm => dst r.d fun d => fsrc r.a fun a => fsrc r.b fun b => need (r.c == 0x7F && r.dl == 0 && r.z == 0 && !r.i.s && r.i.v.extractLsb' 3 9 == 0) .field (.fmul f rm d a b)
  | 0x93 => ffmt r.mod fun f => rmOf (r.i.v.extractLsb' 0 3) fun rm => dst r.d fun d => fsrc r.a fun a => fsrc r.b fun b => fsrc r.c fun c => need (r.dl == 0 && r.z == 0 && !r.i.s && r.i.v.extractLsb' 3 9 == 0) .field (.ffma f rm d a b c)
  | 0x98 => ffmt r.mod fun f => rmOf (r.i.v.extractLsb' 0 3) fun rm => dst r.d fun d => fsrc r.a fun a => need (r.b == 0x7F && r.c == 0x7F && r.dl == 0 && r.z == 0 && !r.i.s && r.i.v.extractLsb' 3 9 == 0) .field (.frint f rm d a)
  | 0x9B => ffmt r.mod fun f => rmOf (r.i.v.extractLsb' 0 3) fun rm => dst r.d fun d => fsrc r.a fun a => need (r.b == 0x7F && r.c == 0x7F && r.dl == 0 && r.z == 0 && !r.i.s && r.i.v.extractLsb' 3 9 == 0) .field (.frcp f rm d a)
  | 0x9C => ffmt r.mod fun f => rmOf (r.i.v.extractLsb' 0 3) fun rm => dst r.d fun d => fsrc r.a fun a => need (r.b == 0x7F && r.c == 0x7F && r.dl == 0 && r.z == 0 && !r.i.s && r.i.v.extractLsb' 3 9 == 0) .field (.frsq f rm d a)
  | 0x94 => ffmt r.mod fun f => dst r.d fun d => fsrc r.a fun a => fsrc r.b fun b => need (r.c == 0x7F && r.dl == 0 && r.z == 0 && !r.i.s && r.i.v == 0) .field (.fmin f d a b)
  | 0x95 => ffmt r.mod fun f => dst r.d fun d => fsrc r.a fun a => fsrc r.b fun b => need (r.c == 0x7F && r.dl == 0 && r.z == 0 && !r.i.s && r.i.v == 0) .field (.fmax f d a b)
  | 0x97 => ffmt r.mod fun f => dst r.d fun d => fsrc r.a fun a => need (r.b == 0x7F && r.c == 0x7F && r.dl == 0 && r.z == 0 && !r.i.s && r.i.v == 0) .field (.fabs f d a)
  | 0x9E => ffmt r.mod fun f => dst r.d fun d => fsrc r.a fun a => need (r.b == 0x7F && r.c == 0x7F && r.dl == 0 && r.z == 0 && !r.i.s && r.i.v == 0) .field (.fclass f d a)
  | 0x96 => ffmt r.mod fun f => dst r.d fun d => fsrc r.a fun a => fsrc r.b fun b => need (r.c == 0x7F && r.dl == 0 && r.z == 0 && !r.i.s && r.i.v.extractLsb' 0 3 == 0 && r.i.v.extractLsb' 5 7 == 0) .field (.fcmp f (fcondOf (r.i.v.extractLsb' 3 2)) d a b)
  | 0x99 => dst r.d fun d => fsrc r.a fun a => need (r.mod == 0 && r.b == 0x7F && r.c == 0x7F && r.dl == 0 && r.z == 0 && !r.i.s && r.i.v == 0) .field (.fexpf d a)
  | 0x9A => rmOf (r.i.v.extractLsb' 0 3) fun rm => dst r.d fun d => fsrc r.a fun a => fsrc r.b fun b => need (r.mod == 0 && r.c == 0x7F && r.dl == 0 && r.z == 0 && !r.i.s && r.i.v.extractLsb' 3 9 == 0) .field (.fexpins rm d a b)
  | 0x9D => rmOf (r.i.v.extractLsb' 0 3) fun rm => cvtFmt (r.i.v.extractLsb' 3 3) fun sf => cvtFmt (r.i.v.extractLsb' 6 3) fun df => dst r.d fun d => fsrc r.a fun a => need (r.mod == 0 && r.b == 0x7F && r.c == 0x7F && r.dl == 0 && r.z == 0 && !r.i.s && r.i.v.extractLsb' 9 3 == 0) .field (.fcvt rm sf df d a)
  | 0x9F => rmOf (r.i.v.extractLsb' 0 3) fun rm => dst r.d fun d => fsrc r.a fun a => fsrc r.b fun b => fsrc r.c fun c => need ((r.mod == 1 || r.mod == 2) && r.dl == 0 && r.z == 0 && !r.i.s && r.i.v.extractLsb' 3 9 == 0) .field (.fdot2 (r.mod == 2) rm d a b c)
  | 0xA0 => wid r.mod fun w => dst r.d fun d => src r.a fun a => need (r.b == 0x7F && r.c == 0x7F && r.z == 0 && immOk [a] r.i && movOk w d a) .field (.mov w r.dl d a r.i)
  | 0xA1 => wid r.mod fun w => dst r.d fun d => src r.a fun a => need (r.b == 0x7F && r.c == 0x7F && r.z == 0 && r.dl.extractLsb' 4 1 == 0 && immOk [a] r.i && nldOk w d) .field (.nld w (r.dl.getLsbD 3) (r.dl.extractLsb' 0 3) d a r.i)
  | 0xA2 => wid r.mod fun w => src r.a fun a => src r.b fun b => need (r.d == 0x3F && r.c == 0x7F && r.z == 0 && r.dl.extractLsb' 4 1 == 0 && immOk [a, b] r.i && nstOk w a) .field (.nst w (r.dl.getLsbD 3) (r.dl.extractLsb' 0 3) a b r.i)
  | 0xA3 => wid r.mod fun w => fsrc r.a fun a => need (r.d == 0x3F && r.b == 0x7F && r.c == 0x7F && r.dl == 0 && r.z == 0 && !r.i.s && r.i.v.extractLsb' 9 3 == 0) .field (.send w (r.i.v.getLsbD 8) (r.i.v.extractLsb' 0 4) (r.i.v.extractLsb' 4 4) a)
  | 0xA4 => wid r.mod fun w => dst r.d fun d => need (r.a == 0x7F && r.b == 0x7F && r.c == 0x7F && r.dl == 0 && r.z == 0 && !r.i.s && r.i.v.extractLsb' 9 3 == 0) .field (.recv w (r.i.v.getLsbD 8) (r.i.v.extractLsb' 0 4) (r.i.v.extractLsb' 4 4) d)
  | 0xA5 => dst r.d fun d => src r.a fun a => src r.b fun b => need (r.mod == 0 && r.c == 0x7F && r.dl == 0 && r.z == 0 && immOk [a, b] r.i) .field (.hdr d a b r.i)
  | 0xA6 => dst r.d fun d => need (r.mod == 0 && r.a == 0x7F && r.b == 0x7F && r.c == 0x7F && r.dl == 0 && r.z == 0 && !r.i.s && r.i.v.extractLsb' 3 9 == 0 && r.i.v != 7) .field (.iter d (r.i.v.extractLsb' 0 3))
  | 0xA8 => lane (ent.bits.extractLsb' 41 6) fun t => need (ent.mod != 15 && (ent.bits.extractLsb' 37 4) != 15 && (ent.bits.extractLsb' 0 2) == 0 && (hasScale ent.mod || (ent.bits.extractLsb' 28 3) == 0) && (hasScale (ent.bits.extractLsb' 37 4) || (ent.bits.extractLsb' 25 3) == 0)) .field (.tstep ent.mod (ent.bits.extractLsb' 37 4) t (ent.bits.extractLsb' 34 3) (ent.bits.extractLsb' 31 3) (ent.bits.extractLsb' 28 3) (ent.bits.extractLsb' 25 3) (ent.bits.extractLsb' 15 10) (ent.bits.extractLsb' 3 12) (ent.bits.getLsbD 2))
  | 0xA9 => dst r.d fun d => wsrc r.a fun a => wsrcO r.b fun b => need (r.mod.extractLsb' 1 3 == 0 && r.c == 0x7F && r.dl == 0 && r.z == 0 && !r.i.s && r.i.v == 0) .field (.macf (r.mod.getLsbD 0) d a b)
  | 0xAA => dst r.d fun d => wsrc r.a fun a => wsrcO r.b fun b => need (r.mod.extractLsb' 1 3 == 0 && r.c == 0x7F && r.dl == 0 && r.z == 0 && !r.i.s && r.i.v == 0) .field (.dmac (r.mod.getLsbD 0) d a b)
  | 0xAB => lane (ent.bits.extractLsb' 41 6) fun t => need (decide (ent.mod.toNat ≤ 4) && decide ((ent.bits.extractLsb' 37 4).toNat ≤ 4) && nmOk (ent.bits.extractLsb' 21 2) (ent.bits.extractLsb' 19 2) && (ent.bits.extractLsb' 15 4) == 0 && (ent.bits.extractLsb' 0 2) == 0) .field (.spmx ent.mod (ent.bits.extractLsb' 37 4) t (ent.bits.extractLsb' 34 3) (ent.bits.extractLsb' 31 3) (ent.bits.extractLsb' 27 4) (ent.bits.extractLsb' 23 4) (ent.bits.extractLsb' 21 2) (ent.bits.extractLsb' 19 2) (ent.bits.extractLsb' 3 12) (ent.bits.getLsbD 2))
  | 0xAC => dst r.d fun d => src r.a fun x => src r.b fun m => src r.c fun bi => need (r.mod.extractLsb' 2 2 == 0 && r.dl == 0 && r.z == 0 && !r.i.s && r.i.v.extractLsb' 9 3 == 0 && decide ((r.i.v.extractLsb' 6 3).toNat ≤ 5) && rqOk x m bi) .field (.rq (r.mod.getLsbD 0) (r.mod.getLsbD 1) (r.i.v.extractLsb' 0 6) (r.i.v.extractLsb' 6 3) d x m bi)
  | 0xAD => fsrc r.a fun a => ffmt ((0 : BitVec 2) ++ r.i.v.extractLsb' 0 2) fun fi => need (r.mod == 0 && r.d == 0x3F && r.b == 0x7F && r.c == 0x7F && r.dl == 0 && r.z == 0 && !r.i.s && r.i.v.extractLsb' 2 3 != 7 && r.i.v.extractLsb' 11 1 == 0) .field (.bq fi (r.i.v.extractLsb' 2 3) (r.i.v.extractLsb' 5 3) (r.i.v.extractLsb' 8 3) a)
  | 0xAE => lane r.d fun t => wsrc r.a fun a => need (r.mod == 0 && r.b == 0x7F && r.c == 0x7F && r.dl == 0 && r.z == 0 && !r.i.s && r.i.v.extractLsb' 7 5 == 0) .field (.tacc t a (r.i.v.extractLsb' 0 7))
  | 0xAF => trdlForm r.mod fun fm => dst r.d fun d => lane7 r.a fun t => need (r.b == 0x7F && r.c == 0x7F && r.dl == 0 && r.z == 0 && !r.i.s && r.i.v == 0 && trdlOk fm d) .field (.trdl fm d t)
  | 0xB0 => keyFmt (r.i.v.extractLsb' 2 3) fun kf => need (r.mod == 0 && r.d == 0x3F && r.a.extractLsb' 3 4 == 0 && r.b == 0x7F && r.c == 0x7F && r.z == 0 && !r.i.s && r.i.v.extractLsb' 11 1 == 0 && decide ((r.i.v.extractLsb' 5 6).toNat < 8 * 2 ^ (r.i.v.extractLsb' 0 2).toNat)) .field (.rank (r.a.extractLsb' 0 3) (r.i.v.extractLsb' 0 2) kf (r.i.v.extractLsb' 5 6) ⟨r.dl.getLsbD 4, r.dl.extractLsb' 0 4⟩)
  | 0xB1 => lane r.d fun t => fsrc r.a fun a => need (r.mod.extractLsb' 2 2 == 0 && r.b == 0x7F && r.c == 0x7F && r.z == 0 && !r.i.s && r.i.v.extractLsb' 4 8 == 0 && (r.mod.getLsbD 0 || (isE a && r.i.v.extractLsb' 1 3 == 0))) .field (.racc (r.mod.getLsbD 0) (r.mod.getLsbD 1) (r.i.v.getLsbD 0) (r.i.v.extractLsb' 1 3) t a ⟨r.dl.getLsbD 4, r.dl.extractLsb' 0 4⟩)
  | 0xB2 => dst r.d fun d => fsrc r.a fun a => need (r.mod == 0 && d != .none && r.b == 0x7F && r.c == 0x7F && r.z == 0 && !r.i.s && r.i.v.extractLsb' 1 11 == 0) .field (.rval (r.i.v.getLsbD 0) d a ⟨r.dl.getLsbD 4, r.dl.extractLsb' 0 4⟩)
  | 0xB8 => need (ent.mod == 0 && ent.bits == 0) .field .rnop
  | 0xB9 => setqForm r.mod fun fm => wsrcO r.a fun a => need (r.d == 0x3F && r.b == 0x7F && r.c == 0x7F && r.dl == 0 && r.z == 0 && !r.i.s && r.i.v == 0 && (a.isSome == (fm != .swap))) .field (.setq fm a)
  | _ => .error .reservedOp

/-- The entry that holds a row, and none for what is not a row. -/
def encodeRow : Instr → Option RowEntry
  | .iadd d a b i => some (wRow 0x80 0 (dstCode d) (srcCode a) (srcCode b) 0x7F 0 i)
  | .isub d a b i => some (wRow 0x81 0 (dstCode d) (srcCode a) (srcCode b) 0x7F 0 i)
  | .imul d a b i => some (wRow 0x82 0 (dstCode d) (srcCode a) (srcCode b) 0x7F 0 i)
  | .iand d a b i => some (wRow 0x84 0 (dstCode d) (srcCode a) (srcCode b) 0x7F 0 i)
  | .ior d a b i => some (wRow 0x85 0 (dstCode d) (srcCode a) (srcCode b) 0x7F 0 i)
  | .ixor d a b i => some (wRow 0x86 0 (dstCode d) (srcCode a) (srcCode b) 0x7F 0 i)
  | .ishl d a b i => some (wRow 0x87 0 (dstCode d) (srcCode a) (srcCode b) 0x7F 0 i)
  | .ishr d a b i => some (wRow 0x88 0 (dstCode d) (srcCode a) (srcCode b) 0x7F 0 i)
  | .isar d a b i => some (wRow 0x89 0 (dstCode d) (srcCode a) (srcCode b) 0x7F 0 i)
  | .imac d a b c i => some (wRow 0x83 0 (dstCode d) (srcCode a) (srcCode b) (srcCode c) 0 i)
  | .isel d a b c i => some (wRow 0x8D 0 (dstCode d) (srcCode a) (srcCode b) (srcCode c) 0 i)
  | .imin u d a b i => some (wRow 0x8A ((0 : BitVec 3) ++ BitVec.ofBool u) (dstCode d) (srcCode a) (srcCode b) 0x7F 0 i)
  | .imax u d a b i => some (wRow 0x8B ((0 : BitVec 3) ++ BitVec.ofBool u) (dstCode d) (srcCode a) (srcCode b) 0x7F 0 i)
  | .icmp cd d a b i => some (wRow 0x8C (icondCode cd) (dstCode d) (srcCode a) (srcCode b) 0x7F 0 i)
  | .iabs d a i => some (wRow 0x8E 0 (dstCode d) (srcCode a) 0x7F 0x7F 0 i)
  | .iclz d a i => some (wRow 0x8F 0 (dstCode d) (srcCode a) 0x7F 0x7F 0 i)
  | .fadd f rm d a b => some (wRow 0x90 (ffmtCode f) (dstCode d) (srcCode a) (srcCode b) 0x7F 0 ⟨(0 : BitVec 9) ++ rmCode rm, false⟩)
  | .fsub f rm d a b => some (wRow 0x91 (ffmtCode f) (dstCode d) (srcCode a) (srcCode b) 0x7F 0 ⟨(0 : BitVec 9) ++ rmCode rm, false⟩)
  | .fmul f rm d a b => some (wRow 0x92 (ffmtCode f) (dstCode d) (srcCode a) (srcCode b) 0x7F 0 ⟨(0 : BitVec 9) ++ rmCode rm, false⟩)
  | .ffma f rm d a b c => some (wRow 0x93 (ffmtCode f) (dstCode d) (srcCode a) (srcCode b) (srcCode c) 0 ⟨(0 : BitVec 9) ++ rmCode rm, false⟩)
  | .frint f rm d a => some (wRow 0x98 (ffmtCode f) (dstCode d) (srcCode a) 0x7F 0x7F 0 ⟨(0 : BitVec 9) ++ rmCode rm, false⟩)
  | .frcp f rm d a => some (wRow 0x9B (ffmtCode f) (dstCode d) (srcCode a) 0x7F 0x7F 0 ⟨(0 : BitVec 9) ++ rmCode rm, false⟩)
  | .frsq f rm d a => some (wRow 0x9C (ffmtCode f) (dstCode d) (srcCode a) 0x7F 0x7F 0 ⟨(0 : BitVec 9) ++ rmCode rm, false⟩)
  | .fmin f d a b => some (wRow 0x94 (ffmtCode f) (dstCode d) (srcCode a) (srcCode b) 0x7F 0 ⟨0, false⟩)
  | .fmax f d a b => some (wRow 0x95 (ffmtCode f) (dstCode d) (srcCode a) (srcCode b) 0x7F 0 ⟨0, false⟩)
  | .fabs f d a => some (wRow 0x97 (ffmtCode f) (dstCode d) (srcCode a) 0x7F 0x7F 0 ⟨0, false⟩)
  | .fclass f d a => some (wRow 0x9E (ffmtCode f) (dstCode d) (srcCode a) 0x7F 0x7F 0 ⟨0, false⟩)
  | .fcmp f cd d a b => some (wRow 0x96 (ffmtCode f) (dstCode d) (srcCode a) (srcCode b) 0x7F 0 ⟨(0 : BitVec 7) ++ fcondCode cd ++ (0 : BitVec 3), false⟩)
  | .fexpf d a => some (wRow 0x99 0 (dstCode d) (srcCode a) 0x7F 0x7F 0 ⟨0, false⟩)
  | .fexpins rm d a b => some (wRow 0x9A 0 (dstCode d) (srcCode a) (srcCode b) 0x7F 0 ⟨(0 : BitVec 9) ++ rmCode rm, false⟩)
  | .fcvt rm sf df d a => some (wRow 0x9D 0 (dstCode d) (srcCode a) 0x7F 0x7F 0 ⟨(0 : BitVec 3) ++ cvtCode df ++ cvtCode sf ++ rmCode rm, false⟩)
  | .fdot2 bf rm d a b c => some (wRow 0x9F (if bf then 2 else 1) (dstCode d) (srcCode a) (srcCode b) (srcCode c) 0 ⟨(0 : BitVec 9) ++ rmCode rm, false⟩)
  | .mov w dl d a i => some (wRow 0xA0 (widCode w) (dstCode d) (srcCode a) 0x7F 0x7F dl i)
  | .nld w adv b d a i => some (wRow 0xA1 (widCode w) (dstCode d) (srcCode a) 0x7F 0x7F ((0 : BitVec 1) ++ BitVec.ofBool adv ++ b) i)
  | .nst w adv b v o i => some (wRow 0xA2 (widCode w) 0x3F (srcCode v) (srcCode o) 0x7F ((0 : BitVec 1) ++ BitVec.ofBool adv ++ b) i)
  | .send w adv q u a => some (wRow 0xA3 (widCode w) 0x3F (srcCode a) 0x7F 0x7F 0 ⟨(0 : BitVec 3) ++ BitVec.ofBool adv ++ u ++ q, false⟩)
  | .recv w adv q u d => some (wRow 0xA4 (widCode w) (dstCode d) 0x7F 0x7F 0x7F 0 ⟨(0 : BitVec 3) ++ BitVec.ofBool adv ++ u ++ q, false⟩)
  | .hdr d a b i => some (wRow 0xA5 0 (dstCode d) (srcCode a) (srcCode b) 0x7F 0 i)
  | .iter d s => some (wRow 0xA6 0 (dstCode d) 0x7F 0x7F 0x7F 0 ⟨(0 : BitVec 9) ++ s, false⟩)
  | .tstep ta tb t bA bB bSA bSB re rep z => some ⟨0xA8, ta, laneCode t ++ tb ++ bA ++ bB ++ bSA ++ bSB ++ re ++ rep ++ BitVec.ofBool z ++ (0 : BitVec 2)⟩
  | .macf wr d a b => some (wRow 0xA9 ((0 : BitVec 3) ++ BitVec.ofBool wr) (dstCode d) (srcCode a) (srcCodeO b) 0x7F 0 ⟨0, false⟩)
  | .dmac wr d a b => some (wRow 0xAA ((0 : BitVec 3) ++ BitVec.ofBool wr) (dstCode d) (srcCode a) (srcCodeO b) 0x7F 0 ⟨0, false⟩)
  | .spmx ta tb t bA bB mf nm mc nc rep z => some ⟨0xAB, ta, laneCode t ++ tb ++ bA ++ bB ++ mf ++ nm ++ mc ++ nc ++ (0 : BitVec 4) ++ rep ++ BitVec.ofBool z ++ (0 : BitVec 2)⟩
  | .rq u rna sh wd d x m bi => some (wRow 0xAC ((0 : BitVec 2) ++ BitVec.ofBool rna ++ BitVec.ofBool u) (dstCode d) (srcCode x) (srcCode m) (srcCode bi) 0 ⟨(0 : BitVec 3) ++ wd ++ sh, false⟩)
  | .bq fi fo bD bS a => some (wRow 0xAD 0 0x3F (srcCode a) 0x7F 0x7F 0 ⟨(0 : BitVec 1) ++ bS ++ bD ++ fo ++ (ffmtCode fi).extractLsb' 0 2, false⟩)
  | .tacc t a k => some (wRow 0xAE 0 (laneCode t) (srcCode a) 0x7F 0x7F 0 ⟨(0 : BitVec 5) ++ k, false⟩)
  | .trdl fm d t => some (wRow 0xAF (trdlCode fm) (dstCode d) (srcCode (.lane t)) 0x7F 0x7F 0 ⟨0, false⟩)
  | .rank bI g kf c1 o => some (wRow 0xB0 0 0x3F ((0 : BitVec 4) ++ bI) 0x7F 0x7F (BitVec.ofBool o.stream ++ o.idx) ⟨(0 : BitVec 1) ++ c1 ++ keyCode kf ++ g, false⟩)
  | .racc n z adv b t a o => some (wRow 0xB1 ((0 : BitVec 2) ++ BitVec.ofBool z ++ BitVec.ofBool n) (laneCode t) (srcCode a) 0x7F 0x7F (BitVec.ofBool o.stream ++ o.idx) ⟨(0 : BitVec 8) ++ b ++ BitVec.ofBool adv, false⟩)
  | .rval adv d a o => some (wRow 0xB2 0 (dstCode d) (srcCode a) 0x7F 0x7F (BitVec.ofBool o.stream ++ o.idx) ⟨(0 : BitVec 11) ++ BitVec.ofBool adv, false⟩)
  | .rnop => some ⟨0xB8, 0, 0⟩
  | .setq fm a => some (wRow 0xB9 (setqCode fm) 0x3F (srcCodeO a) 0x7F 0x7F 0 ⟨0, false⟩)
  | _ => none


/-- The instruction an expanded word stands for (R59 to R64), or why it is none. Row words decode to BODY_ROW_WORD, which
is what the sequencer does with them (R223). -/
def decodeWord (w : IWord) : Except DecErr Instr :=
  let f := fR w
  let m := fM w
  let c := fC w
  let g := fG w
  match (w.extractLsb' 88 8).toNat with
  | 0x00 => need (f.m0 && f.noRegs && f.noImm) .field .nop
  | 0x01 => need (f.m0 && f.rc == 0 && f.noImm) .field (.add f.rd f.ra f.rb)
  | 0x02 => need (f.m0 && f.rc == 0 && f.noImm) .field (.sub f.rd f.ra f.rb)
  | 0x03 => need (f.m0 && f.rc == 0 && f.noImm) .field (.and f.rd f.ra f.rb)
  | 0x04 => need (f.m0 && f.rc == 0 && f.noImm) .field (.or f.rd f.ra f.rb)
  | 0x05 => need (f.m0 && f.rc == 0 && f.noImm) .field (.xor f.rd f.ra f.rb)
  | 0x06 => need (f.m0 && f.rc == 0 && f.noImm) .field (.shl f.rd f.ra f.rb)
  | 0x07 => need (f.m0 && f.rc == 0 && f.noImm) .field (.shr f.rd f.ra f.rb)
  | 0x08 => need (f.m0 && f.rc == 0 && f.noImm) .field (.sar f.rd f.ra f.rb)
  | 0x09 => need (f.m0 && f.rc == 0 && f.noImm) .field (.mul f.rd f.ra f.rb)
  | 0x0A => need (f.m0 && f.rc == 0 && f.noImm) .field (.mulh f.rd f.ra f.rb)
  | 0x0B => need (f.m0 && f.rc == 0 && f.noImm) .field (.mulhu f.rd f.ra f.rb)
  | 0x0C => need (f.m0 && f.rc == 0 && f.noImm) .field (.div f.rd f.ra f.rb)
  | 0x0D => need (f.m0 && f.rc == 0 && f.noImm) .field (.divu f.rd f.ra f.rb)
  | 0x0E => need (f.m0 && f.rc == 0 && f.noImm) .field (.rem f.rd f.ra f.rb)
  | 0x0F => need (f.m0 && f.rc == 0 && f.noImm) .field (.remu f.rd f.ra f.rb)
  | 0x10 => need (f.m0 && f.rc == 0 && f.noImm) .field (.min f.rd f.ra f.rb)
  | 0x11 => need (f.m0 && f.rc == 0 && f.noImm) .field (.max f.rd f.ra f.rb)
  | 0x12 => need (f.m0 && f.rc == 0 && f.noImm) .field (.minu f.rd f.ra f.rb)
  | 0x13 => need (f.m0 && f.rc == 0 && f.noImm) .field (.maxu f.rd f.ra f.rb)
  | 0x14 => need (f.m0 && f.rc == 0 && f.noImm) .field (.slt f.rd f.ra f.rb)
  | 0x15 => need (f.m0 && f.rc == 0 && f.noImm) .field (.sltu f.rd f.ra f.rb)
  | 0x16 => need (f.m0 && f.rc == 0 && f.noImm) .field (.seq f.rd f.ra f.rb)
  | 0x17 => need (f.m0 && f.noImm) .field (.sel f.rd f.ra f.rb f.rc)
  | 0x18 => need (f.m0 && f.rb == 0 && f.rc == 0) .field (.addi f.rd f.ra f.imm)
  | 0x19 => need (f.m0 && f.rb == 0 && f.rc == 0) .field (.andi f.rd f.ra f.imm)
  | 0x1A => need (f.m0 && f.rb == 0 && f.rc == 0) .field (.ori f.rd f.ra f.imm)
  | 0x1B => need (f.m0 && f.rb == 0 && f.rc == 0) .field (.xori f.rd f.ra f.imm)
  | 0x1F => need (f.m0 && f.rb == 0 && f.rc == 0) .field (.slti f.rd f.ra f.imm)
  | 0x20 => need (f.m0 && f.rb == 0 && f.rc == 0) .field (.sltui f.rd f.ra f.imm)
  | 0x1C => need (f.m0 && f.rb == 0 && f.rc == 0 && f.imm.extractLsb' 6 58 == 0) .field (.shli f.rd f.ra (f.imm.extractLsb' 0 6))
  | 0x1D => need (f.m0 && f.rb == 0 && f.rc == 0 && f.imm.extractLsb' 6 58 == 0) .field (.shri f.rd f.ra (f.imm.extractLsb' 0 6))
  | 0x1E => need (f.m0 && f.rb == 0 && f.rc == 0 && f.imm.extractLsb' 6 58 == 0) .field (.sari f.rd f.ra (f.imm.extractLsb' 0 6))
  | 0x21 => need (f.m0 && f.ra == 0 && f.rb == 0 && f.rc == 0) .field (.li f.rd f.imm)
  | 0x22 => need (f.m0 && f.rb == 0 && f.rc == 0 && f.noImm) .field (.clz f.rd f.ra)
  | 0x23 => need (f.m0 && f.rb == 0 && f.rc == 0 && f.noImm) .field (.ctz f.rd f.ra)
  | 0x24 => need (f.m0 && f.rb == 0 && f.rc == 0 && f.noImm) .field (.popc f.rd f.ra)
  | 0x25 => need (f.m0 && f.rb == 0 && f.rc == 0 && f.noImm) .field (.brev f.rd f.ra)
  | 0x26 => need (f.mod.extractLsb' 1 3 == 0 && f.rc == 0 && f.noImm) .field (.bext (f.mod == 1) f.rd f.ra f.rb)
  | 0x27 => need (f.m0 && f.noImm) .field (.bins f.rd f.ra f.rb f.rc)
  | 0x28 => need (f.m0 && f.noRegs) .field (.j f.imm)
  | 0x29 => need (f.m0 && f.rd == 0 && f.rb == 0 && f.rc == 0) .field (.jal f.ra f.imm)
  | 0x2A => need (f.m0 && f.rd == 0 && f.rb == 0 && f.rc == 0) .field (.jr f.ra f.imm)
  | 0x2B => need (f.m0 && f.rd == 0 && f.rc == 0) .field (.beq f.ra f.rb f.imm)
  | 0x2C => need (f.m0 && f.rd == 0 && f.rc == 0) .field (.bne f.ra f.rb f.imm)
  | 0x2D => need (f.m0 && f.rd == 0 && f.rc == 0) .field (.blt f.ra f.rb f.imm)
  | 0x2E => need (f.m0 && f.rd == 0 && f.rc == 0) .field (.bge f.ra f.rb f.imm)
  | 0x2F => need (f.m0 && f.rd == 0 && f.rc == 0) .field (.bltu f.ra f.rb f.imm)
  | 0x30 => need (f.m0 && f.rd == 0 && f.rc == 0) .field (.bgeu f.ra f.rb f.imm)
  | 0x31 => need (f.m0 && f.rd == 0 && f.rb == 0 && f.rc == 0) .field (.loop f.ra f.imm)
  | 0x32 => need (f.m0 && w.extractLsb' 64 4 == 0) .field (.loopi (w.extractLsb' 68 16) f.imm)
  | 0x33 => need (f.m0 && f.noRegs && f.noImm) .field .lbrk
  | 0x34 => lspace m.sp fun sp => need (m.mod != 7 && m.mod.extractLsb' 3 1 == 0 && m.g == 0 && m.ln == 0 && m.z == 0) .field (.ld sp (m.mod.extractLsb' 0 2) (m.mod.getLsbD 2) m.d m.base m.off)
  | 0x35 => lspace m.sp fun sp => need (m.mod.extractLsb' 2 2 == 0 && m.g == 0 && m.ln == 0 && m.z == 0) .field (.st sp (m.mod.extractLsb' 0 2) m.d m.base m.off)
  | 0x36 => need (m.mod == 0 && m.base == 0 && m.g == 0 && m.ln == 0 && m.sp == 0 && m.z == 0 && m.off == 0) .field (.push m.d)
  | 0x37 => need (m.mod == 0 && m.d == 0 && m.base == 0 && m.g == 0 && m.sp == 0 && m.z == 0 && m.off == 0) .field (.pop m.ln)
  | 0x38 => gspace m.sp fun sp => need (m.mod.extractLsb' 0 3 != 7 && m.d == 0 && m.z == 0) .field (.gld sp (m.mod.extractLsb' 0 2) (m.mod.getLsbD 2) (m.mod.getLsbD 3) m.ln m.base m.off m.g)
  | 0x39 => gspace m.sp fun sp => need (m.mod.extractLsb' 2 1 == 0 && m.z == 0) .field (.gst sp (m.mod.extractLsb' 0 2) (m.mod.getLsbD 3) m.ln m.d m.base m.off m.g)
  | 0x3A => gspace m.sp fun sp => need (m.mod != 7 && m.mod.extractLsb' 3 1 == 0 && m.d == 0 && m.z == 0) .field (.gldi sp (m.mod.extractLsb' 0 2) (m.mod.getLsbD 2) m.ln m.base m.off m.g)
  | 0x3B => need (m.mod == 0 && m.base == 0 && m.g == 0 && m.sp == 0 && m.z == 0 && m.off == 0) .field (.mvl m.d m.ln)
  | 0x3C => need (m.mod == 0 && m.base == 0 && m.g == 0 && m.sp == 0 && m.z == 0 && m.off == 0) .field (.tstl m.d m.ln)
  | 0x3D => gspace m.sp fun sp => amoOp (m.off.extractLsb' 56 8) fun op => need (m.mod.extractLsb' 1 1 == 0 && m.z == 0 && !(op == .fadd && m.mod.getLsbD 0)) .field (.amo sp op (m.mod.getLsbD 0) (m.mod.extractLsb' 2 2) m.ln m.d m.base (m.off.extractLsb' 0 56) m.g)
  | 0x3E => gspace m.sp fun sp => need (m.mod.extractLsb' 1 1 == 0 && m.z == 0 && m.d != 31) .field (.cas sp (m.mod.getLsbD 0) (m.mod.extractLsb' 2 2) m.ln m.d m.base m.off m.g)
  | 0x3F => fenceForm f.mod fun fm => scope (f.imm.extractLsb' 0 3) fun sc => need (f.noRegs && f.imm.extractLsb' 3 1 == 0 && f.imm.extractLsb' 8 56 == 0) .field (.fence fm sc (f.imm.extractLsb' 4 4))
  | 0x40 => scope (f.imm.extractLsb' 0 3) fun sc => need (f.m0 && f.noRegs && f.imm.extractLsb' 3 1 == 0 && f.imm.extractLsb' 8 56 == 0) .field (.sbar sc (f.imm.extractLsb' 4 4))
  | 0x41 => gspace m.sp fun sp => need (m.mod == 0 && m.d.extractLsb' 4 1 == 0 && m.z == 0) .field (.hld sp (m.d.extractLsb' 0 4) m.ln m.base m.off m.g)
  | 0x42 => gspace m.sp fun sp => need (m.mod == 0 && m.d.extractLsb' 4 1 == 0 && m.z == 0) .field (.hst sp (m.d.extractLsb' 0 4) m.ln m.base m.off m.g)
  | 0x45 => gspace m.sp fun sp => need (m.mod == 0 && m.d.extractLsb' 4 1 == 0 && m.z == 0) .field (.mdld sp (m.d.extractLsb' 0 4) m.ln m.base m.off m.g)
  | 0x43 => need (f.m0 && f.rc == 0 && f.noImm) .field (.hset f.rd f.ra f.rb)
  | 0x44 => need (f.m0 && f.rb == 0 && f.rc == 0 && f.noImm) .field (.hget f.rd f.ra)
  | 0x46 => need (f.m0 && f.rb == 0 && f.rc == 0 && f.noImm) .field (.launch f.rd f.ra)
  | 0x47 => need (f.m0 && f.rd == 0 && f.noImm) .field (.msg f.ra f.rb f.rc)
  | 0x60 => need (c.mod.extractLsb' 1 3 == 0 && (c.p.extractLsb' 51 13) == 0) .field (.blk (c.mod.getLsbD 0) c.m c.id (c.p.extractLsb' 0 32) (c.p.extractLsb' 32 8) (c.p.extractLsb' 40 6) (c.p.extractLsb' 46 5))
  | 0x61 => if c.mod == 0 then need ((c.p.extractLsb' 20 12) == 0) .field (.fuse c.m c.id (c.p.extractLsb' 48 16) (c.p.extractLsb' 32 16) (c.p.extractLsb' 0 32)) else need (c.mod == 1 && (c.p.extractLsb' 45 19) == 0) .field (.fuseLive c.m c.id (c.p.extractLsb' 0 32) (c.p.extractLsb' 32 8) (c.p.extractLsb' 40 5))
  | 0x62 => routePart c.mod fun part => need (routeOk part (c.p.extractLsb' 0 32)) .field (.route part c.m c.id (c.p.extractLsb' 48 16) (c.p.extractLsb' 32 16) (c.p.extractLsb' 0 32))
  | 0x63 => decodeBind c.mod c.p fun b => .ok (.bind c.m c.id b)
  | 0x64 => if c.mod == 0 then .ok (.nest c.m c.id (.counts c.p)) else need (c.mod == 1 && (c.p.extractLsb' 35 29) == 0) .field (.nest c.m c.id (.stage (c.p.extractLsb' 0 32) (c.p.extractLsb' 32 3)))
  | 0x65 => need (c.mod == 0 && (c.p.extractLsb' 32 32) == 0) .field (.bend c.m c.id (c.p.extractLsb' 0 32))
  | 0x66 => need (c.mod == 0 && (c.p.extractLsb' 6 2) == 0 && (c.p.extractLsb' 56 8) == 0 && decide (1 ≤ (c.p.extractLsb' 0 6).toNat) && decide ((c.p.extractLsb' 0 6).toNat ≤ 32)) .field (.bstamp c.m c.id (c.p.extractLsb' 0 6) (c.p.extractLsb' 8 16) (c.p.extractLsb' 24 16) (c.p.extractLsb' 40 16))
  | 0x67 => need (c.mod == 0 && (c.p.extractLsb' 24 40) == 0) .field (.bgo c.m c.id (c.p.extractLsb' 0 24))
  | 0x68 => need (c.mod == 0 && c.id == 0 && c.p == 0) .field (.bdrain c.m)
  | 0x69 => need (c.mod == 0 && c.id == 0 && c.p == 0) .field (.brel c.m)
  | 0x6A => need (c.mod == 0 && c.m == 0 && c.id == 0 && (c.p.extractLsb' 20 44) == 0) .field (.gtab (c.p.extractLsb' 0 20))
  | 0x6B => need (c.mod.extractLsb' 1 3 == 0 && c.m == 0 && c.id == 0 && (c.p.extractLsb' 20 44) == 0) .field (.vtab (c.mod.getLsbD 0) (c.p.extractLsb' 0 20))
  | 0x6C => need (c.mod == 0 && c.id == 0 && (c.p.extractLsb' 3 1) == 0 && (c.p.extractLsb' 24 40) == 0) .field (.trd c.m (c.p.extractLsb' 0 3) (c.p.extractLsb' 4 20))
  | 0x6D => need (c.mod == 0 && c.id == 0 && (c.p.extractLsb' 8 56) == 0) .field (.tdisc c.m (c.p.extractLsb' 0 8))
  | 0xC0 => engEnds g.p fun s d => need (g.m0 && g.st == 0 && g.z == 0 && (g.p.extractLsb' 16 8) == 0 && (g.p.extractLsb' 24 16) == 0) .field (.tcopy ⟨g.rel, g.ha, g.hb, g.rc⟩ s d)
  | 0xC1 => engEnds g.p fun s d => rmOf (g.p.extractLsb' 16 3) fun rm => need (g.m0 && g.st == 0 && g.z == 0 && (g.p.extractLsb' 24 16) == 0) .field (.tcopyc ⟨g.rel, g.ha, g.hb, g.rc⟩ s d rm (g.p.extractLsb' 19 5))
  | 0xD4 => engEnds g.p fun s d => need (g.m0 && g.st == 0 && g.z == 0 && g.ha == 0 && s == ⟨0, false, 0⟩ && (g.p.extractLsb' 16 3) == 0 && (g.p.extractLsb' 24 16) == 0) .field (.tfill ⟨g.rel, g.ha, g.hb, g.rc⟩ d (g.p.extractLsb' 19 5))
  | 0xC2 => need (g.m0 && g.st == 0 && g.z == 0 && (g.p.extractLsb' 1 2) == 1 && (g.p.extractLsb' 5 1) == 0 && (g.p.extractLsb' 13 1) == 0 && (g.p.extractLsb' 14 26) == 0) .field (.sgath ⟨g.rel, g.ha, g.hb, g.rc⟩ (g.p.extractLsb' 0 2) (g.p.extractLsb' 3 2) (g.p.extractLsb' 6 5) (g.p.extractLsb' 11 2))
  | 0xC3 => need (g.m0 && g.st == 0 && g.z == 0 && (g.p.extractLsb' 1 2) == 1 && (g.p.extractLsb' 5 1) == 0 && (g.p.extractLsb' 13 1) == 0 && (g.p.extractLsb' 14 26) == 0) .field (.sscat ⟨g.rel, g.ha, g.hb, g.rc⟩ (g.p.extractLsb' 0 2) (g.p.extractLsb' 3 2) (g.p.extractLsb' 6 5) (g.p.extractLsb' 11 2))
  | 0xD3 => need (g.m0 && g.st == 0 && g.z == 0 && (g.p.extractLsb' 1 2) == 1 && (g.p.extractLsb' 5 1) == 0 && (g.p.extractLsb' 13 1) == 0 && (g.p.extractLsb' 14 26) == 0) .field (.sscata ⟨g.rel, g.ha, g.hb, g.rc⟩ (g.p.extractLsb' 0 2) (g.p.extractLsb' 3 2) (g.p.extractLsb' 6 5) (g.p.extractLsb' 11 2))
  | 0xC4 => need (g.mod.extractLsb' 1 2 == 0 && g.st == 0 && g.z == 0 && (g.p.extractLsb' 2 1) == 0 && (g.p.extractLsb' 5 1) == 0 && (g.p.extractLsb' 13 1) == 0 && (g.p.extractLsb' 14 26) == 0 && (g.mod.getLsbD 0 || ((g.p.extractLsb' 6 5) == 0 && (g.p.extractLsb' 11 2) == 0))) .field (.sisect ⟨g.rel, g.ha, g.hb, g.rc⟩ (g.mod.getLsbD 0) (g.p.extractLsb' 0 2) (g.p.extractLsb' 3 2) (g.p.extractLsb' 6 5) (g.p.extractLsb' 11 2))
  | 0xC5 => need (g.m0 && g.st == 0 && g.z == 0 && (g.p.extractLsb' 2 1) == 0 && (g.p.extractLsb' 5 1) == 0 && (g.p.extractLsb' 13 1) == 0 && (g.p.extractLsb' 18 22) == 0 && nmOk (g.p.extractLsb' 14 2) (g.p.extractLsb' 16 2)) .field (.prune ⟨g.rel, g.ha, g.hb, g.rc⟩ (g.p.extractLsb' 0 2) (g.p.extractLsb' 3 2) (g.p.extractLsb' 6 5) (g.p.extractLsb' 11 2) (g.p.extractLsb' 14 2) (g.p.extractLsb' 16 2))
  | 0xC6 => need (g.m0 && g.z == 0 && (g.p.extractLsb' 37 3) == 0) .field (.chain ⟨g.rel, g.ha, g.hb, g.rc⟩ g.st (g.p.extractLsb' 0 20) (g.p.extractLsb' 20 8) (g.p.extractLsb' 28 4) (g.p.extractLsb' 32 3) (g.p.extractLsb' 35 2))
  | 0xC7 => need (g.mod.extractLsb' 1 2 == 0 && g.ha == 0 && g.hb == 0 && g.st == 0 && g.z == 0 && (g.p.extractLsb' 5 35) == 0) .field (.cplarm g.rel (g.mod.getLsbD 0) g.rc (g.p.extractLsb' 0 5))
  | 0xC8 => need (g.m0 && g.ha == 0 && g.hb == 0 && g.st == 0 && g.z == 0 && g.p == 0) .field (.cplwait g.rel g.rc)
  | 0xC9 => need (g.m0 && g.ha == 0 && g.hb == 0 && g.st == 0 && g.z == 0 && (g.p.extractLsb' 3 37) == 0) .field (.cpltest g.rel (g.p.extractLsb' 0 3) g.rc)
  | 0xCB => need (g.m0 && g.ha == 0 && g.hb == 0 && g.st == 0 && g.z == 0 && (g.p.extractLsb' 3 37) == 0) .field (.bararr g.rel (g.p.extractLsb' 0 3) g.rc)
  | 0xCA => need (g.m0 && g.ha == 0 && g.hb == 0 && g.st == 0 && g.z == 0 && (g.p.extractLsb' 5 35) == 0) .field (.barinit g.rel g.rc (g.p.extractLsb' 0 5))
  | 0xCC => need (g.m0 && g.ha == 0 && g.hb == 0 && g.st == 0 && g.z == 0 && (g.p.extractLsb' 5 35) == 0) .field (.barwait g.rel g.rc (g.p.extractLsb' 0 5))
  | 0xD2 => need (g.m0 && g.ha == 0 && g.hb == 0 && g.st == 0 && g.z == 0 && (g.p.extractLsb' 5 35) == 0) .field (.cplsig g.rel g.rc (g.p.extractLsb' 0 5))
  | 0xCD => collKind (g.p.extractLsb' 0 2) fun kd => collOp (g.p.extractLsb' 2 3) fun op => need (g.m0 && g.st == 0 && g.z == 0 && (g.p.extractLsb' 7 1) == 0 && (g.p.extractLsb' 10 1) == 0 && (g.p.extractLsb' 16 24) == 0 && (kd != .ag || op == .add)) .field (.coll ⟨g.rel, g.ha, g.hb, g.rc⟩ kd op (g.p.extractLsb' 5 2) (g.p.extractLsb' 8 2) (g.p.extractLsb' 11 5))
  | 0xCE => need (g.m0 && g.ha == 0 && g.hb == 0 && g.st == 0 && g.z == 0 && (g.p.extractLsb' 13 1) == 0 && (g.p.extractLsb' 35 5) == 0) .field (.rput g.rel g.rc (g.p.extractLsb' 0 5) (g.p.getLsbD 5) (g.p.extractLsb' 6 5) (g.p.extractLsb' 11 2) (g.p.extractLsb' 14 5) (g.p.extractLsb' 19 16))
  | 0xCF => need (g.m0 && g.ha == 0 && g.hb == 0 && g.st == 0 && g.z == 0 && (g.p.extractLsb' 13 1) == 0 && (g.p.extractLsb' 19 21) == 0) .field (.rget g.rel g.rc (g.p.extractLsb' 0 5) (g.p.getLsbD 5) (g.p.extractLsb' 6 5) (g.p.extractLsb' 11 2) (g.p.extractLsb' 14 5))
  | 0xD5 => need (g.m0 && g.ha == 0 && g.hb == 0 && g.st == 0 && g.z == 0 && (g.p.extractLsb' 13 1) == 0 && (g.p.extractLsb' 19 21) == 0) .field (.rpeek g.rel g.rc (g.p.extractLsb' 0 5) (g.p.getLsbD 5) (g.p.extractLsb' 6 5) (g.p.extractLsb' 11 2) (g.p.extractLsb' 14 5))
  | 0xD0 => need (g.m0 && g.ha == 0 && g.hb == 0 && g.st == 0 && g.z == 0 && (g.p.extractLsb' 17 23) == 0) .field (.evict g.rel g.rc (g.p.extractLsb' 0 5) (g.p.getLsbD 5) (g.p.extractLsb' 6 5) (g.p.getLsbD 11) (g.p.extractLsb' 12 5))
  | 0xD1 => need (g.m0 && g.ha == 0 && g.hb == 0 && g.st == 0 && g.z == 0 && (g.p.extractLsb' 17 23) == 0) .field (.pref g.rel g.rc (g.p.extractLsb' 0 5) (g.p.getLsbD 5) (g.p.extractLsb' 6 5) (g.p.getLsbD 11) (g.p.extractLsb' 12 5))
  | 0xE0 => need (f.m0 && f.noRegs) .field (.trap f.imm)
  | 0xEE => need (f.m0 && f.noRegs) .field (.brk f.imm)
  | 0xE1 => need (f.m0 && f.noRegs && f.noImm) .field .rft
  | 0xE4 => need (f.m0 && f.noRegs && f.noImm) .field .halt
  | 0xED => need (f.m0 && f.noRegs && f.noImm) .field .flushi
  | 0xE2 => need (f.m0 && f.ra == 0 && f.rb == 0 && f.rc == 0 && f.imm.extractLsb' 12 52 == 0) .field (.sysr f.rd (f.imm.extractLsb' 0 12))
  | 0xE3 => need (f.m0 && f.rd == 0 && f.rb == 0 && f.rc == 0 && f.imm.extractLsb' 12 52 == 0) .field (.sysw (f.imm.extractLsb' 0 12) f.ra)
  | 0xE5 => need (f.m0 && f.rb == 0 && f.rc == 0 && f.imm.extractLsb' 10 54 == 0 && !(f.imm == 0 && f.ra == 0)) .field (.waite f.rd f.ra (f.imm.extractLsb' 0 10))
  | 0xE6 => need (f.m0 && f.rd == 0 && f.rb == 0 && f.rc == 0) .field (.dictld f.ra f.imm)
  | 0xE7 => if f.mod == 0 then need (f.ra == 0 && f.rb == 0 && f.rc == 0 && f.noImm) .field (.tider f.rd) else need (f.mod == 1 && f.ra == 0 && f.rb == 0 && f.rc == 0 && f.noImm) .field (.tiderRaw f.rd)
  | 0xE8 => need (f.m0 && f.ra == 0 && f.rb == 0 && f.rc == 0) .field (.tidew f.rd f.imm)
  | 0xE9 => need (f.m0 && f.noRegs && f.imm.extractLsb' 8 56 == 0) .field (.phase (f.imm.extractLsb' 0 8))
  | 0xEA => need (f.m0 && f.ra == 0 && f.rb == 0 && f.rc == 0 && f.noImm) .field (.yield f.rd)
  | 0xEB => need (f.m0 && f.rd == 0 && f.rb == 0 && f.rc == 0 && f.noImm) .field (.exit f.ra)
  | 0xEC => need (f.m0 && f.noRegs && f.imm.extractLsb' 32 32 == 0) .field (.ckpt (f.imm.extractLsb' 0 32))
  | 0xEF => need (f.m0 && f.rb == 0 && f.rc == 0 && f.imm.extractLsb' 16 48 == 0) .field (.ecall f.rd f.ra (f.imm.extractLsb' 0 16))
  | o => if 0x80 ≤ o ∧ o ≤ 0xB9 then
      match decodeRow (rowWord w).ent with
      | .ok _ => .ok (.bodyRowWord (rowWord w))
      | .error e => .error e
    else .error .reservedOp

/-- The 96-bit word of an instruction (R59 to R64), and none for a row or an event, which no word stands for. -/
def encodeWord : Instr → Option IWord
  | .nop => some (wR 0x00 0 0 0 0 0 0)
  | .add rd ra rb => some (wR 0x01 0 rd ra rb 0 0)
  | .sub rd ra rb => some (wR 0x02 0 rd ra rb 0 0)
  | .and rd ra rb => some (wR 0x03 0 rd ra rb 0 0)
  | .or rd ra rb => some (wR 0x04 0 rd ra rb 0 0)
  | .xor rd ra rb => some (wR 0x05 0 rd ra rb 0 0)
  | .shl rd ra rb => some (wR 0x06 0 rd ra rb 0 0)
  | .shr rd ra rb => some (wR 0x07 0 rd ra rb 0 0)
  | .sar rd ra rb => some (wR 0x08 0 rd ra rb 0 0)
  | .mul rd ra rb => some (wR 0x09 0 rd ra rb 0 0)
  | .mulh rd ra rb => some (wR 0x0A 0 rd ra rb 0 0)
  | .mulhu rd ra rb => some (wR 0x0B 0 rd ra rb 0 0)
  | .div rd ra rb => some (wR 0x0C 0 rd ra rb 0 0)
  | .divu rd ra rb => some (wR 0x0D 0 rd ra rb 0 0)
  | .rem rd ra rb => some (wR 0x0E 0 rd ra rb 0 0)
  | .remu rd ra rb => some (wR 0x0F 0 rd ra rb 0 0)
  | .min rd ra rb => some (wR 0x10 0 rd ra rb 0 0)
  | .max rd ra rb => some (wR 0x11 0 rd ra rb 0 0)
  | .minu rd ra rb => some (wR 0x12 0 rd ra rb 0 0)
  | .maxu rd ra rb => some (wR 0x13 0 rd ra rb 0 0)
  | .slt rd ra rb => some (wR 0x14 0 rd ra rb 0 0)
  | .sltu rd ra rb => some (wR 0x15 0 rd ra rb 0 0)
  | .seq rd ra rb => some (wR 0x16 0 rd ra rb 0 0)
  | .sel rd ra rb rc => some (wR 0x17 0 rd ra rb rc 0)
  | .addi rd ra imm => some (wR 0x18 0 rd ra 0 0 imm)
  | .andi rd ra imm => some (wR 0x19 0 rd ra 0 0 imm)
  | .ori rd ra imm => some (wR 0x1A 0 rd ra 0 0 imm)
  | .xori rd ra imm => some (wR 0x1B 0 rd ra 0 0 imm)
  | .slti rd ra imm => some (wR 0x1F 0 rd ra 0 0 imm)
  | .sltui rd ra imm => some (wR 0x20 0 rd ra 0 0 imm)
  | .shli rd ra n => some (wR 0x1C 0 rd ra 0 0 ((0 : BitVec 58) ++ n))
  | .shri rd ra n => some (wR 0x1D 0 rd ra 0 0 ((0 : BitVec 58) ++ n))
  | .sari rd ra n => some (wR 0x1E 0 rd ra 0 0 ((0 : BitVec 58) ++ n))
  | .li rd imm => some (wR 0x21 0 rd 0 0 0 imm)
  | .clz rd ra => some (wR 0x22 0 rd ra 0 0 0)
  | .ctz rd ra => some (wR 0x23 0 rd ra 0 0 0)
  | .popc rd ra => some (wR 0x24 0 rd ra 0 0 0)
  | .brev rd ra => some (wR 0x25 0 rd ra 0 0 0)
  | .bext sx rd ra rb => some (wR 0x26 ((0 : BitVec 3) ++ BitVec.ofBool sx) rd ra rb 0 0)
  | .bins rd ra rb rc => some (wR 0x27 0 rd ra rb rc 0)
  | .j d => some (wR 0x28 0 0 0 0 0 d)
  | .jal rd d => some (wR 0x29 0 0 rd 0 0 d)
  | .jr ra d => some (wR 0x2A 0 0 ra 0 0 d)
  | .beq ra rb d => some (wR 0x2B 0 0 ra rb 0 d)
  | .bne ra rb d => some (wR 0x2C 0 0 ra rb 0 d)
  | .blt ra rb d => some (wR 0x2D 0 0 ra rb 0 d)
  | .bge ra rb d => some (wR 0x2E 0 0 ra rb 0 d)
  | .bltu ra rb d => some (wR 0x2F 0 0 ra rb 0 d)
  | .bgeu ra rb d => some (wR 0x30 0 0 ra rb 0 d)
  | .loop ra d => some (wR 0x31 0 0 ra 0 0 d)
  | .loopi n d => some ((0x32 : BitVec 8) ++ (0 : BitVec 4) ++ n ++ (0 : BitVec 4) ++ d)
  | .lbrk => some (wR 0x33 0 0 0 0 0 0)
  | .ld sp sz zx rd b off => some (wM 0x34 ((0 : BitVec 1) ++ BitVec.ofBool zx ++ sz) rd b 0 0 (lspaceCode sp) off)
  | .st sp sz rs b off => some (wM 0x35 ((0 : BitVec 2) ++ sz) rs b 0 0 (lspaceCode sp) off)
  | .push rs => some (wM 0x36 0 rs 0 0 0 0 0)
  | .pop ln => some (wM 0x37 0 0 0 0 ln 0 0)
  | .gld sp sz zx acq ln b off g => some (wM 0x38 (BitVec.ofBool acq ++ BitVec.ofBool zx ++ sz) 0 b g ln (gspaceCode sp) off)
  | .gst sp sz rel ln rs b off g => some (wM 0x39 (BitVec.ofBool rel ++ (0 : BitVec 1) ++ sz) rs b g ln (gspaceCode sp) off)
  | .gldi sp sz zx ln b off g => some (wM 0x3A ((0 : BitVec 1) ++ BitVec.ofBool zx ++ sz) 0 b g ln (gspaceCode sp) off)
  | .mvl rd ln => some (wM 0x3B 0 rd 0 0 ln 0 0)
  | .tstl rd ln => some (wM 0x3C 0 rd 0 0 ln 0 0)
  | .amo sp op w64 ord ln rd b off g => some (wM 0x3D (ord ++ (0 : BitVec 1) ++ BitVec.ofBool w64) rd b g ln (gspaceCode sp) (amoCode op ++ off))
  | .cas sp w64 ord ln rd b off g => some (wM 0x3E (ord ++ (0 : BitVec 1) ++ BitVec.ofBool w64) rd b g ln (gspaceCode sp) off)
  | .fence fm sc k => some (wR 0x3F (fenceCode fm) 0 0 0 0 ((0 : BitVec 56) ++ k ++ (0 : BitVec 1) ++ scopeCode sc))
  | .sbar sc k => some (wR 0x40 0 0 0 0 0 ((0 : BitVec 56) ++ k ++ (0 : BitVec 1) ++ scopeCode sc))
  | .hld sp r ln b off g => some (wM 0x41 0 ((0 : BitVec 1) ++ r) b g ln (gspaceCode sp) off)
  | .hst sp r ln b off g => some (wM 0x42 0 ((0 : BitVec 1) ++ r) b g ln (gspaceCode sp) off)
  | .mdld sp r ln b off g => some (wM 0x45 0 ((0 : BitVec 1) ++ r) b g ln (gspaceCode sp) off)
  | .hset rd ra rb => some (wR 0x43 0 rd ra rb 0 0)
  | .hget rd ra => some (wR 0x44 0 rd ra 0 0 0)
  | .launch rd ra => some (wR 0x46 0 rd ra 0 0 0)
  | .msg ra rb rc => some (wR 0x47 0 0 ra rb rc 0)
  | .blk clr m id ew tw ii fr => some (wC 0x60 ((0 : BitVec 3) ++ BitVec.ofBool clr) m id ((0 : BitVec 13) ++ fr ++ ii ++ tw ++ ew))
  | .fuse m id cols rows fcw => some (wC 0x61 0 m id (cols ++ rows ++ fcw))
  | .fuseLive m id em tm ix => some (wC 0x61 1 m id ((0 : BitVec 19) ++ ix ++ tm ++ em))
  | .route part m id cols rows v => some (wC 0x62 (routeCode part) m id (cols ++ rows ++ v))
  | .bind m id b => some (wC 0x63 (bindMod b) m id (bindPayload b))
  | .nest m id (.counts v) => some (wC 0x64 0 m id v)
  | .nest m id (.stage rows sg) => some (wC 0x64 1 m id ((0 : BitVec 29) ++ sg ++ rows))
  | .bend m id crc => some (wC 0x65 0 m id ((0 : BitVec 32) ++ crc))
  | .bstamp m id n base step os => some (wC 0x66 0 m id ((0 : BitVec 8) ++ os ++ step ++ base ++ (0 : BitVec 2) ++ n))
  | .bgo m id off => some (wC 0x67 0 m id ((0 : BitVec 40) ++ off))
  | .bdrain m => some (wC 0x68 0 m 0 0)
  | .brel m => some (wC 0x69 0 m 0 0)
  | .gtab a => some (wC 0x6A 0 0 0 ((0 : BitVec 44) ++ a))
  | .vtab i16 a => some (wC 0x6B ((0 : BitVec 3) ++ BitVec.ofBool i16) 0 0 ((0 : BitVec 44) ++ a))
  | .trd m k d => some (wC 0x6C 0 m 0 ((0 : BitVec 40) ++ d ++ (0 : BitVec 1) ++ k))
  | .tdisc m t => some (wC 0x6D 0 m 0 ((0 : BitVec 56) ++ t))
  | .tcopy h s d => some (wG 0xC0 h.rel 0 h.ha h.hb h.rc 0 ((0 : BitVec 24) ++ endsCode s d))
  | .tcopyc h s d rm xr => some (wG 0xC1 h.rel 0 h.ha h.hb h.rc 0 ((0 : BitVec 16) ++ xr ++ rmCode rm ++ endsCode s d))
  | .tfill h d rv => some (wG 0xD4 h.rel 0 h.ha h.hb h.rc 0 ((0 : BitVec 16) ++ rv ++ (0 : BitVec 3) ++ endsCode ⟨0, false, 0⟩ d))
  | .sgath h tsp rsp ir isp => some (wG 0xC2 h.rel 0 h.ha h.hb h.rc 0 ((0 : BitVec 26) ++ (0 : BitVec 1) ++ isp ++ ir ++ (0 : BitVec 1) ++ rsp ++ (0 : BitVec 1) ++ tsp))
  | .sscat h tsp rsp ir isp => some (wG 0xC3 h.rel 0 h.ha h.hb h.rc 0 ((0 : BitVec 26) ++ (0 : BitVec 1) ++ isp ++ ir ++ (0 : BitVec 1) ++ rsp ++ (0 : BitVec 1) ++ tsp))
  | .sscata h tsp rsp ir isp => some (wG 0xD3 h.rel 0 h.ha h.hb h.rc 0 ((0 : BitVec 26) ++ (0 : BitVec 1) ++ isp ++ ir ++ (0 : BitVec 1) ++ rsp ++ (0 : BitVec 1) ++ tsp))
  | .sisect h em a b ro osp => some (wG 0xC4 h.rel ((0 : BitVec 2) ++ BitVec.ofBool em) h.ha h.hb h.rc 0 ((0 : BitVec 26) ++ (0 : BitVec 1) ++ osp ++ ro ++ (0 : BitVec 1) ++ b ++ (0 : BitVec 1) ++ a))
  | .prune h a b mr msp mc nc => some (wG 0xC5 h.rel 0 h.ha h.hb h.rc 0 ((0 : BitVec 22) ++ nc ++ mc ++ (0 : BitVec 1) ++ msp ++ mr ++ (0 : BitVec 1) ++ b ++ (0 : BitVec 1) ++ a))
  | .chain h st desc m y n1 tau => some (wG 0xC6 h.rel 0 h.ha h.hb h.rc st ((0 : BitVec 3) ++ tau ++ n1 ++ y ++ m ++ desc))
  | .cplarm rel clr rc ra => some (wG 0xC7 rel ((0 : BitVec 2) ++ BitVec.ofBool clr) 0 0 rc 0 ((0 : BitVec 35) ++ ra))
  | .cplwait rel rc => some (wG 0xC8 rel 0 0 0 rc 0 0)
  | .cpltest rel ln rc => some (wG 0xC9 rel 0 0 0 rc 0 ((0 : BitVec 37) ++ ln))
  | .bararr rel ln rc => some (wG 0xCB rel 0 0 0 rc 0 ((0 : BitVec 37) ++ ln))
  | .barinit rel rc ra => some (wG 0xCA rel 0 0 0 rc 0 ((0 : BitVec 35) ++ ra))
  | .barwait rel rc ra => some (wG 0xCC rel 0 0 0 rc 0 ((0 : BitVec 35) ++ ra))
  | .cplsig rel rc ra => some (wG 0xD2 rel 0 0 0 rc 0 ((0 : BitVec 35) ++ ra))
  | .coll h kd op a b gr => some (wG 0xCD h.rel 0 h.ha h.hb h.rc 0 ((0 : BitVec 24) ++ gr ++ (0 : BitVec 1) ++ b ++ (0 : BitVec 1) ++ a ++ collOpCode op ++ collKindCode kd))
  | .rput rel rc rr fl ar asp lr ty => some (wG 0xCE rel 0 0 0 rc 0 ((0 : BitVec 5) ++ ty ++ lr ++ (0 : BitVec 1) ++ asp ++ ar ++ BitVec.ofBool fl ++ rr))
  | .rget rel rc rr fl ar asp lr => some (wG 0xCF rel 0 0 0 rc 0 ((0 : BitVec 21) ++ lr ++ (0 : BitVec 1) ++ asp ++ ar ++ BitVec.ofBool fl ++ rr))
  | .rpeek rel rc rr fl ar asp lr => some (wG 0xD5 rel 0 0 0 rc 0 ((0 : BitVec 21) ++ lr ++ (0 : BitVec 1) ++ asp ++ ar ++ BitVec.ofBool fl ++ rr))
  | .evict rel rc br fl mr rs nr => some (wG 0xD0 rel 0 0 0 rc 0 ((0 : BitVec 23) ++ nr ++ BitVec.ofBool rs ++ mr ++ BitVec.ofBool fl ++ br))
  | .pref rel rc br fl mr rs nr => some (wG 0xD1 rel 0 0 0 rc 0 ((0 : BitVec 23) ++ nr ++ BitVec.ofBool rs ++ mr ++ BitVec.ofBool fl ++ br))
  | .trap i => some (wR 0xE0 0 0 0 0 0 i)
  | .brk i => some (wR 0xEE 0 0 0 0 0 i)
  | .rft => some (wR 0xE1 0 0 0 0 0 0)
  | .halt => some (wR 0xE4 0 0 0 0 0 0)
  | .flushi => some (wR 0xED 0 0 0 0 0 0)
  | .sysr rd n => some (wR 0xE2 0 rd 0 0 0 ((0 : BitVec 52) ++ n))
  | .sysw n ra => some (wR 0xE3 0 0 ra 0 0 ((0 : BitVec 52) ++ n))
  | .waite rd ra k => some (wR 0xE5 0 rd ra 0 0 ((0 : BitVec 54) ++ k))
  | .dictld ra off => some (wR 0xE6 0 0 ra 0 0 off)
  | .tider rd => some (wR 0xE7 0 rd 0 0 0 0)
  | .tiderRaw rd => some (wR 0xE7 1 rd 0 0 0 0)
  | .tidew rd k => some (wR 0xE8 0 rd 0 0 0 k)
  | .phase n => some (wR 0xE9 0 0 0 0 0 ((0 : BitVec 56) ++ n))
  | .yield rd => some (wR 0xEA 0 rd 0 0 0 0)
  | .exit ra => some (wR 0xEB 0 0 ra 0 0 0)
  | .ckpt t => some (wR 0xEC 0 0 0 0 0 ((0 : BitVec 32) ++ t))
  | .ecall rd ra k => some (wR 0xEF 0 rd ra 0 0 ((0 : BitVec 48) ++ k))
  | .bodyRowWord w => some ((w.ent.op ++ w.ent.mod ++ w.cols ++ w.rows ++ w.idx ++ w.ent.bits : BitVec 96))
  | _ => none

/-! ### Byte classes and expansion (R43 to R57) -/

/-- What the expanded-instruction store holds at a start: a word, or the fill-fault marker (R56). -/
inductive TextCell where
  | word (w : IWord)
  | fill
  deriving DecidableEq, Repr

/-- An expanded instruction: its address as an offset in the text, its length in bytes, and its word. -/
structure Expanded where
  off : Nat
  len : Nat
  cell : TextCell
  deriving DecidableEq, Repr

/-- A little-endian number from bytes (R9). -/
def leNat : List Byte → Nat
  | [] => 0
  | b :: bs => b.toNat + 256 * leNat bs

/-- The low `n` bytes of a number, least significant first (R9). -/
def natLe : Nat → Nat → List Byte
  | 0, _ => []
  | n + 1, v => BitVec.ofNat 8 v :: natLe n (v / 256)

/-- Length of the instruction that byte0 opens (R43). P1 and the invalid bytes are 1 byte. -/
def classLen (b : Byte) : Nat :=
  let v := b.toNat
  if v < 0x80 then 2 else if v < 0xC0 then 4 else if v < 0xE0 then 6 else if v < 0xF0 then 8
  else if v = 0xF0 then 2 else if v = 0xFE then 13 else 1

/-- Bytes whose class is invalid (R43). -/
def invalidByte (b : Byte) : Bool := decide (0xF1 ≤ b.toNat) && decide (b.toNat ≤ 0xFD)

/-- The payload of a class with `k` prefix bits (R44). -/
def payload (w k : Nat) : Nat := w / 256 * 2 ^ (8 - k) + w % 2 ^ (8 - k)

/-- The opcode of a 7-bit opcode index (R45). -/
def opOf (u : Nat) : Nat := if u ≤ 0x6F then u else 0xE0 + (u - 0x70)

/-- Whether X goes to RA and Y to RB: the branch and loop opcodes (R46). -/
def placesLow (op : Nat) : Bool := decide (0x28 ≤ op) && decide (op ≤ 0x31)

/-- The register fields X and Y placed by R46. -/
def placeXY (op x y : Nat) : Nat := if placesLow op then x * 2 ^ 74 + y * 2 ^ 69 else x * 2 ^ 79 + y * 2 ^ 74

/-- A signed immediate of `w` bits, extended into [63:0] (R47). -/
def immTo64 (v w : Nat) : Nat := wrapN (sextN v w) 64

/-- The malformed word (R60). -/
def malformed : IWord := 0x5FF000000000000000000000

/-- The opcode of a K2 function, and its fields RD, RA and RB from D and A (R48). -/
def k2Op (f : Nat) : Nat :=
  match f with
  | 0 => 0x01 | 1 => 0x02 | 2 => 0x03 | 3 => 0x04 | 4 => 0x05 | 5 => 0x06 | 6 => 0x07 | 7 => 0x08 | 8 => 0x09
  | 9 => 0x10 | 10 => 0x11 | 11 => 0x12 | 12 => 0x13 | 13 => 0x16 | 14 => 0x04 | _ => 0x02

def expandK2 (q : Nat) : IWord :=
  if bitsN q 14 1 = 1 then malformed
  else
    let f := bitsN q 0 4
    let d := bitsN q 4 5
    let a := bitsN q 9 5
    let ra := if f = 14 then a else if f = 15 then 0 else d
    let rb := if f = 14 then 0 else a
    BitVec.ofNat 96 (k2Op f * 2 ^ 88 + d * 2 ^ 79 + ra * 2 ^ 74 + rb * 2 ^ 69)

/-- The two forms of K4 (R49). -/
def expandK4 (q : Nat) : IWord :=
  let op := opOf (bitsN q 1 7)
  if q % 2 = 0 then BitVec.ofNat 96 (op * 2 ^ 88 + bitsN q 8 4 * 2 ^ 84 + bitsN q 12 18 * 2 ^ 66)
  else BitVec.ofNat 96 (op * 2 ^ 88 + placeXY op (bitsN q 8 5) (bitsN q 13 5) + immTo64 (bitsN q 18 12) 12)

/-- K6 (R50). -/
def expandK6 (q : Nat) : IWord :=
  let op := opOf (bitsN q 0 7)
  BitVec.ofNat 96 (op * 2 ^ 88 + bitsN q 7 4 * 2 ^ 84 + placeXY op (bitsN q 11 5) (bitsN q 16 5)
    + immTo64 (bitsN q 21 24) 24)

/-- The two forms of K8 (R51). -/
def expandK8 (q : Nat) : IWord :=
  let op := opOf (bitsN q 1 7)
  if q % 2 = 0 then
    BitVec.ofNat 96 (op * 2 ^ 88 + bitsN q 8 4 * 2 ^ 84 + bitsN q 12 18 * 2 ^ 66 + immTo64 (bitsN q 30 30) 30)
  else
    BitVec.ofNat 96 (op * 2 ^ 88 + bitsN q 58 2 * 2 ^ 84 + placeXY op (bitsN q 8 5) (bitsN q 13 5)
      + immTo64 (bitsN q 18 40) 40)

/-- A dictionary entry of sixteen bytes as the word it expands to (R67). -/
def dictWord (e : List Byte) : IWord :=
  if leNat (e.drop 12) = 0 then BitVec.ofNat 96 (leNat (e.take 12)) else malformed

/-- The word of one whole instruction, whose bytes start with byte0 (R47 to R53). `dict` holds the dictionary's entries as
numbers of 128 bits; an entry not listed is zero. -/
def expandBytes (dict : List Nat) (bs : List Byte) : IWord :=
  let w := leNat bs
  match classLen (bs.headD 0), bs.headD 0 with
  | 2, b => if b = 0xF0 then dictWord (natLe 16 (dict.getD (w / 256) 0)) else expandK2 (payload w 1)
  | 4, _ => expandK4 (payload w 2)
  | 6, _ => expandK6 (payload w 3)
  | 8, _ => expandK8 (payload w 4)
  | _, _ => BitVec.ofNat 96 (w / 256)

/-- One line, from offset `o` of its bytes on (R55). `base` is the line's offset in the text; the fuel is the bytes left. -/
def expandFrom (dict : List Nat) (base : Nat) (line : List Byte) : Nat → Nat → List Expanded
  | 0, _ => []
  | fuel + 1, o =>
    match line.drop o with
    | [] => []
    | b :: rest =>
      let n := classLen b
      if b = 0xFF then expandFrom dict base line fuel (o + 1)
      else if invalidByte b then ⟨base + o, 1, .fill⟩ :: expandFrom dict base line fuel (o + 1)
      else if 64 < o + n then [⟨base + o, n, .fill⟩]
      else ⟨base + o, n, .word (expandBytes dict ((b :: rest).take n))⟩ :: expandFrom dict base line fuel (o + n)

/-- The instruction starts of one line (R55). -/
def expandLine (dict : List Nat) (base : Nat) (line : List Byte) : List Expanded := expandFrom dict base line 64 0

/-- The instruction starts of a text of `n` lines (R40, R55). -/
def expandText (dict : List Nat) : Nat → Nat → List Byte → List Expanded
  | 0, _, _ => []
  | n + 1, base, bs => expandLine dict base (bs.take 64) ++ expandText dict n (base + 64) (bs.drop 64)

/-! ### The encoder, and the word numbering of the opcode table -/

/-- The X13 bytes of a word (R53). -/
def x13 (w : IWord) : List Byte := 0xFE :: natLe 12 w.toNat

/-- The bytes of an instruction in its X13 form, and none for a row or an event, which no word stands for. -/
def encode (i : Instr) : List Byte :=
  match encodeWord i with
  | some w => x13 w
  | none => []

/-- The instruction at the start of a byte stream, under a dictionary of zeros; a row word answers what the sequencer does
with it. -/
def decodeBytes (bs : List Byte) : Option Instr :=
  match bs with
  | [] => none
  | b :: rest =>
    if b = 0xFF || invalidByte b then none
    else
      match decodeWord (expandBytes [] ((b :: rest).take (classLen b))) with
      | .ok i => some i
      | .error _ => none

/-- The instruction whose first bits are `w`: bit 0 is the least significant bit of the first byte, and the bits above
`nbits` are zero. -/
def decodeTableWord (nbits w : Nat) : Option Instr := decodeBytes (natLe 13 (w % 2 ^ nbits))

end Sys2Proof
end

