-- ==== Sys2Proof/Machine/Kv.lean ====
section
/-! DEFINITION. Sparse tables: lists of key and value in one canonical form, keys strictly rising and no value equal to
the table's default, so that equal tables are equal data. -/

namespace Sys2Proof.Machine

/-- A table from keys to values; a key that is not listed has the table's default. -/
abbrev Kv (α : Type) := List (Nat × α)

namespace Kv

/-- What the table holds at a key, `d` being its default. -/
def get {α : Type} (d : α) : Kv α → Nat → α
  | [], _ => d
  | (a, v) :: rest, k => if a = k then v else if k < a then d else get d rest k

/-- Removes a key. -/
def erase {α : Type} : Kv α → Nat → Kv α
  | [], _ => []
  | (a, v) :: rest, k => if a = k then rest else if k < a then (a, v) :: rest else (a, v) :: erase rest k

/-- Lists a value under a key. -/
def insert {α : Type} : Kv α → Nat → α → Kv α
  | [], k, x => [(k, x)]
  | (a, v) :: rest, k, x =>
    if a = k then (k, x) :: rest else if k < a then (k, x) :: (a, v) :: rest else (a, v) :: insert rest k x

/-- Writes a key; writing the default removes the entry. -/
def set {α : Type} [DecidableEq α] (d : α) (m : Kv α) (k : Nat) (x : α) : Kv α :=
  if x = d then erase m k else insert m k x

/-- Every listed key is above `lo`, the keys rise strictly, and no value is the default. -/
def wfFrom {α : Type} [DecidableEq α] (d : α) : Nat → Kv α → Bool
  | _, [] => true
  | lo, (a, v) :: rest => decide (lo ≤ a) && decide (v ≠ d) && wfFrom d (a + 1) rest

/-- The canonical form. -/
def wf {α : Type} [DecidableEq α] (d : α) (m : Kv α) : Bool := wfFrom d 0 m

/-- The keys of the entries that satisfy a test. -/
def keysWhere {α : Type} (p : Nat → α → Bool) (m : Kv α) : List Nat :=
  (m.filter fun e => p e.1 e.2).map (·.1)

end Kv

end Sys2Proof.Machine
end

