-- ==== Sys2Proof/Machine/State.lean ====
section
/-! DEFINITION. The machine's state as plain data: every piece of state the spec gives the TQ-H8, and beside it the
model's own scheduling data (log 1). Pans are numbered 96·die + 16·field + pan by their logical numbers, contexts
8·pan + index, elements 256·pan + 16·y + x, blocks 256·pan + slot mask. -/

namespace Sys2Proof.Machine

/-! ### One context of a sequencer -/

/-- A replay register (R39). `due` is the context cycle of its landing, while its count runs (R38); `poison` is the address of
corrupt data that it carries (R392). `seq` is the context cycle in which its result was issued, which orders landings of one
cycle (R24, R38). `held` is the value that lands from a running count although a SYSW has written YVAL since (R136). -/
structure Replay where
  v : Bool := false
  dst : Reg := 0
  cnt : BitVec 5 := 0
  hlt : Bool := false
  val : Word := 0
  due : Option Nat := none
  poison : Option Nat := none
  seq : Nat := 0
  held : Option Word := none
  deriving DecidableEq, Repr

/-- Where a result of a context lands: an s register, or a landing register for the access `id` (POP from the carve-out). -/
inductive FlightDst where
  | s (r : Reg)
  | l (n : LReg) (id : Nat)
  deriving DecidableEq, Repr

/-- A result in flight (R23, R24): `due` is the context cycle from which it is visible; `long` says that its latency is
above 1, so that it counts in R25; `poison` is the address of corrupt data that it carries (R392); `seq` is the context cycle of
its issue (R24). -/
structure Flight where
  dst : FlightDst
  val : Word
  due : Nat
  long : Bool
  poison : Option Nat
  seq : Nat := 0
  deriving DecidableEq, Repr

/-- A landing register (R16, R26). `poison` is the address of the access whose data are corrupt (R392); `acc` is the
access whose data the register awaits (R27). -/
structure Landing where
  val : Word := 0
  full : Bool := false
  pending : Bool := false
  poison : Option Word := none
  acc : Nat := 0
  deriving DecidableEq, Repr

/-- An entry of the loop stack (R29). -/
structure LoopEntry where
  start : BitVec 56 := 0
  stop : BitVec 56 := 0
  count : BitVec 32 := 0
  deriving DecidableEq, Repr

/-- The state of a body that a BLK has opened (R66, R209): where its BLK stands, the TVAL of its first defect of reason
0x0C, and the elements of its last row word (R215). -/
structure OpenBody where
  mask : BitVec 8
  id : BitVec 12
  pc : BitVec 56
  defect : Option Nat
  last : Option (BitVec 16 × BitVec 16)
  /-- entries that a MOD 3 BIND of the body names: 8·node + buffer, or 128 + c (R221) -/
  named : List Nat
  deriving DecidableEq, Repr

/-- An instruction that holds its context: the context cycle of its issue, the fabric cycle of its issue (R347), the
stage that its wait has reached and the cycle in which a fixed hold ends, a value that it has taken, and for a TRD the bytes
that it will write and the lanes whose dirty bit it has cleared, as 8·element key + tile register (R210, R232). -/
structure Hold where
  since : Nat := 0
  fab : Nat := 0
  stage : Nat := 0
  upto : Nat := 0
  val : Word := 0
  data : List Byte := []
  lanes : List Nat := []
  deriving DecidableEq, Repr

/-- Why a context stands halted (R389, R393, R294, R391). -/
inductive HaltWhy where
  | request | yield | nested (cause : BitVec 8) | debug
  deriving DecidableEq, Repr

/-- Where a context stands: unbound; taken and loading (R288); running; waiting for firmware after HALT (R137); between
its halt point and the end of capture (R393); halted; retired on this pan and waiting for the instance (R295). -/
inductive Run where
  | free | loading | running | stop | halting | halted (why : HaltWhy) | exited
  deriving DecidableEq, Repr

/-- A run of an extent (R315); `prim` is the stack of the primary replica (R318). -/
structure XRun where
  voff : Nat
  len : Nat
  pa : Nat
  dev : Nat
  swz : BitVec 4
  rep : Bool
  prim : Nat
  deriving DecidableEq, Repr

/-- An extent of an instance (R277, R315). -/
structure Extent where
  slot : Nat
  vbase : Nat
  vend : Nat
  w : Bool
  runs : List XRun
  /-- the CID of the table that holds it (R418, R419) -/
  cid : BitVec 16 := 0
  deriving DecidableEq, Repr

/-- A block fault that waits to be taken (R178, R179): its cause, its TVAL and its rank; for corrupt data also the physical address of
the read that met them (R424). -/
structure BlockFault where
  cause : Nat
  tval : Nat
  rank : List Nat
  pa : Option Nat := none
  deriving DecidableEq, Repr

/-- One thread context of a sequencer (R13, R16, R18). -/
structure Ctx where
  run : Run := .free
  pc : BitVec 56 := 0
  /-- s0 to s31; s0 is never listed (R17) -/
  s : Kv Word := []
  flight : List Flight := []
  l : Kv Landing := []
  /-- shape registers as 512-bit numbers, and the access that each pending one awaits (R125, R128) -/
  h : Kv Nat := []
  hpend : Kv Nat := []
  y0 : Replay := {}
  y1 : Replay := {}
  y2 : Replay := {}
  y3 : Replay := {}
  /-- landings whose count runs on although a SYSW has written YCTLk since (R38, R136) -/
  loose : List Replay := []
  /-- the loop stack, LS0 first (R29) -/
  ls : List LoopEntry := []
  lss0 : LoopEntry := {}
  lss1 : LoopEntry := {}
  lss2 : LoopEntry := {}
  lss3 : LoopEntry := {}
  /-- STATUS (R19) -/
  hnd : Bool := false
  yreq : Bool := false
  ord : Bool := false
  dgen : BitVec 8 := 0
  spd : BitVec 32 := 0
  tvec : BitVec 56 := 0
  tcode : BitVec 8 := 0
  slsd : BitVec 3 := 0
  tpc : BitVec 56 := 0
  tval : Word := 0
  modefp : BitVec 6 := 0
  spillBase : Nat := 0
  spillLim : Nat := 0
  ovfPtr : BitVec 56 := 0
  /-- identity (R18, R286) -/
  task : BitVec 32 := 0
  inst : BitVec 24 := 0
  tenant : BitVec 16 := 0
  pid : Nat := 127
  ridxPan : BitVec 16 := 0
  ridxField : BitVec 16 := 0
  ridxDie : BitVec 16 := 0
  grace : BitVec 14 := 0
  kill : BitVec 14 := 0
  prio : BitVec 2 := 0
  slots : BitVec 8 := 0
  /-- the record it was taken from, its extents, the sizes of its region and its pans in dense order (R277, R286, R315) -/
  recIdx : Nat := 0
  pans : Nat := 1
  fields : Nat := 1
  dies : Nat := 1
  ext : List Extent := []
  map : List Nat := []
  /-- text, expansion and dictionary (R40, R67, R71) -/
  textBase : Nat := 0
  textLines : Nat := 0
  store : List Expanded := []
  storeGen : BitVec 8 := 0
  /-- the bytes of the text as they were last read from memory, from which DICTLD expands it again (R41, R69) -/
  text : List Byte := []
  dict : List Nat := []
  dictAt : Word := 0
  /-- a fault that loading has met, raised before the first instruction (R58, R497): cause, TVAL -/
  loadFault : Option (Nat × Word) := none
  /-- the context cycle, and what holds or delays it -/
  cyc : Nat := 0
  bubble : Bool := false
  hold : Option Hold := none
  body : Option OpenBody := none
  bfault : Option BlockFault := none
  /-- the address of corrupt data that this context cycle finds landed (R392); one whose fault has given way to a block fault of
  the same cycle, until RFT (R179) -/
  struck : Option Nat := none
  struckLate : Option Nat := none
  /-- fabric cycle at which loading ends, and the start tide in force (R288 to R291) -/
  readyAt : Nat := 0
  startAt : Option Word := none
  /-- tide base (R438), and the mark that a TIDEW waits for (R444) -/
  tb : Word := 0
  mark : Option Word := none
  markStall : Nat := 0
  markDone : Bool := false
  /-- accesses and commands that hold back later ones (R123, R333): all later accesses; stores and engine commands only;
  engine commands only -/
  heldAll : List Nat := []
  heldStores : List Nat := []
  /-- a halt request: the fabric cycle in which it came, and the halt tide that it names and that is still to come (R393, R458) -/
  haltReq : Option (Nat × Option Word) := none
  dbg : Bool := false
  ckpt : BitVec 32 := 0
  phase : BitVec 8 := 0
  occ : Word := 0
  phases : Nat := 0
  occIssue : Word := 0
  occWait : Word := 0
  occOther : Word := 0
  occRows : Word := 0
  exitCode : BitVec 16 := 0
  haltCount : Nat := 0
  tauH : Word := 0
  /-- MODEFP as it stood before the instruction of a fabric cycle, and that cycle: the rows of the cycle sample it (R196) -/
  rowMode : BitVec 6 := 0
  rowAt : Option Nat := none
  deriving DecidableEq, Repr

/-! ### Accesses and engine commands -/

/-- Where the bytes of an access lie: the device, the device address (after the swizzle), whether the run is replicated
and which stack holds its primary (R309, R311, R318, R319). -/
structure Loc where
  dev : Nat
  pa : Nat
  rep : Bool
  prim : Nat
  deriving DecidableEq, Repr

/-- What an access does when it is performed. -/
inductive AccKind where
  | load (zx : Bool) | inv (zx : Bool) | store (v : List Byte)
  | amo (op : AmoOp) (v : Nat) (fin fres ord : Bool)
  | cas (cmp new : Nat)
  | hload (h : HReg) | mload (m : BitVec 4)
  | msg (task : BitVec 32) (cpl : Loc)
  | occ (v : List Word)
  deriving DecidableEq, Repr

/-- An access of a context that is not performed yet (R26, R115, R333). -/
structure Acc where
  id : Nat
  ctx : Nat
  kind : AccKind
  addr : Word
  n : Nat
  virt : Bool
  loc : Loc
  stream : GStream
  acq : Bool
  rel : Bool
  ln : Option LReg
  /-- accesses and commands that come before it in the order (R333) -/
  deps : List Nat
  /-- the fabric cycle before which it is not performed -/
  ready : Nat
  /-- dies whose replica is still locked for it (R323), once it has committed, with the bytes that each will write -/
  locked : List Nat
  committed : Bool
  bytes : List Byte
  /-- the bytes that a committed access read, and whether they were corrupt -/
  got : List Byte
  bad : Bool
  /-- whether its request has left for the device that owns the place (R320), the fabric cycle of its issue (R460), and the CID that
  it carries (R418) -/
  sent : Bool := false
  issued : Nat := 0
  cid : BitVec 16 := 0
  deriving DecidableEq, Repr

/-- States of an engine command (R348), its wait for a binding slot (R366) or for the headers of a COLL (R472), and its stop at
a halt or, for a CHAIN, at a fault (R268, R396). -/
inductive CmdState where
  | issued | waiting | running | stopped
  deriving DecidableEq, Repr

/-- A command that holds an entry of its pan's engine queue, or a completion instruction whose update waits for earlier
accesses (R338, R347, R348, R397): its shapes and operands as read at issue, and the units P, Q and W of its progress. -/
structure Cmd where
  id : Nat
  pan : Nat
  ctx : Nat
  instr : Instr
  st : CmdState
  obj : Word
  loc : Loc
  a : Nat
  b : Nat
  ops : List Word
  modefp : BitVec 6
  ord : Bool
  /-- the count still to subtract from PEND (R353) -/
  left : Nat
  p : Nat
  q : Nat
  w : Nat
  deps : List Nat
  ready : Nat
  /-- kernel cycle of its mask at issue, for CHAIN (R267) -/
  kc : Nat
  /-- the code of a COLL's local checks, with its EADR (R472) -/
  code : Nat
  eadr : Nat
  /-- tokens of a CHAIN between its stages: the chain input and the outputs so far, and in a BQ its MODEFP (R267) -/
  toks : List (Nat × List Nat)
  /-- bytes that a CHAIN has written while its object may not be updated yet (R333), and the CID that the command carries (R418) -/
  owed : Nat := 0
  cid : BitVec 16 := 0
  /-- whether an engine has accepted it (R397) -/
  started : Bool := false
  deriving DecidableEq, Repr

/-- A context that holds for an engine queue entry (R347): the fabric cycle in which its hold began. -/
structure Holder where
  ctx : Nat
  since : Nat
  granted : Bool
  deriving DecidableEq, Repr

/-! ### Blocks -/

/-- A row entry of a plane with its liveness masks (R161). -/
structure RowCfg where
  ent : RowEntry := ⟨0xB8, 0, 0⟩
  elive : BitVec 32 := 0
  tlive : BitVec 8 := 0
  deriving DecidableEq, Repr

/-- One element's part of a block (R161): delays, FCW, route word and rows by row index. -/
structure ElemCfg where
  dly : BitVec 16 := 0
  fcw : BitVec 32 := 0
  route : BitVec 64 := 0
  rows : Kv RowCfg := []
  deriving DecidableEq, Repr

/-- A block as a plane and the pan block record hold it (R161, R213): `live` says that one stands there. -/
structure Block where
  live : Bool := false
  id : BitVec 12 := 0
  clr : Bool := false
  ewin : BitVec 32 := 0
  twin : BitVec 8 := 0
  ii : BitVec 6 := 0
  f : BitVec 5 := 0
  nest : BitVec 64 := 0
  stages : Kv Nat := []
  /-- binding entries as their payloads with bit 0 set (R213), and expected counters -/
  nodeB : Kv Nat := []
  nodeX : Kv Nat := []
  concB : Kv Nat := []
  concX : Kv Nat := []
  strB : Kv Nat := []
  elems : Kv ElemCfg := []
  /-- stamped copies of the loaded block (R173, R225): count, base, step and start-offset step; zero for none -/
  stampN : Nat := 0
  stampBase : BitVec 16 := 0
  stampStep : BitVec 16 := 0
  stampOstep : BitVec 16 := 0
  /-- the context that loads it, its copy index, and the address of its BLK (R169, R173) -/
  owner : Nat := 0
  copy : Nat := 0
  blkPc : BitVec 56 := 0
  deriving DecidableEq, Repr

/-- A block that runs on a pan (R157, R222, R403): the context that started it, its issuing pan and copy index, the
iteration offset, the kernel cycle of its mask in which its first row issues, whether a block fault or a halt has stopped
it, and when it flipped. -/
structure BlkRun where
  live : Bool := false
  ctx : Nat := 0
  home : Nat := 0
  copy : Nat := 0
  iter : BitVec 32 := 0
  start : Nat := 0
  stopped : Bool := false
  /-- a block fault has stopped it, until RFT (R178) -/
  faulted : Bool := false
  /-- the fabric cycle of its flip -/
  flip : Nat := 0
  deriving DecidableEq, Repr

/-! ### Elements, units and bindings -/

/-- A lane of a tile register (R144, R229). -/
structure Lane where
  l : BitVec 64 := 0
  ovf : Bool := false
  nan : Bool := false
  valid : Bool := false
  dirty : Bool := false
  re : BitVec 10 := 0
  deriving DecidableEq, Repr

/-- What a result does when it lands: the bits it writes; a lane set or added to, exactly. -/
inductive EVal where
  | bits (v : BitVec 128)
  | setLane (v : Int)
  | addLane (v : Int) (nan : Bool)
  deriving DecidableEq, Repr

/-- A result of an element in flight, by kernel cycle of its block's mask (R158). `left` is used while it stands captured
in an element replay entry (R178): the kernel cycles that remain. `blk` is the kernel cycle in which the block of its row started,
which tells the resident block's results from those of an earlier one (R170, R172). -/
structure EFlight where
  mask : BitVec 8
  due : Nat
  dst : Dst
  val : EVal
  long : Bool
  blk : Nat
  deriving DecidableEq, Repr

/-- A captured result in a replay entry ye0 to ye3 (R144, R178, R400). -/
structure EReplay where
  mask : BitVec 8
  left : Nat
  dst : Dst
  val : EVal
  hlt : Bool
  blk : Nat
  /-- the context of its block, whose RFT or resumption lets it land (R172, R178) -/
  ctx : Nat := 0
  deriving DecidableEq, Repr

/-- A stage of a delay line (R162): the port, the mask and kernel cycle at which its value leaves. With `fab`, it leaves
at that fabric cycle instead, because no block of the mask was resident. -/
structure DelayStage where
  port : Port
  mask : BitVec 8
  due : Nat
  fab : Option Nat
  val : BitVec 128
  deriving DecidableEq, Repr

/-- A contribution of step `r` of a tile step that has not landed (R253, R254, R400). -/
structure Contrib where
  id : Nat
  r : Nat
  mask : BitVec 8
  due : Nat
  t : BitVec 3
  val : Int
  nan : Bool
  re : BitVec 10
  /-- the start of the block of its tile step -/
  blk : Nat
  deriving DecidableEq, Repr

/-- What a port holds, and the fabric cycle in which it came (R162). -/
structure PortVal where
  v : BitVec 128 := 0
  since : Nat := 0
  deriving DecidableEq, Repr

/-- One element (R144). Ports not listed are unreached and read zero. -/
structure Elem where
  e : Kv (BitVec 32) := []
  t : Kv Lane := []
  flight : List EFlight := []
  ye : List EReplay := []
  latchActive : BitVec 128 := 0
  latchLoad : BitVec 128 := 0
  ports : Kv PortVal := []
  delay : List DelayStage := []
  contrib : List Contrib := []
  deriving DecidableEq, Repr

/-- The control bits of one slot (R304). -/
structure SlotCtl where
  full : Bool := false
  tag : BitVec 16 := 0
  chk : Bool := false
  deriving DecidableEq, Repr

/-- A binding control entry (R304), with the positions that units keep in its current slots: the units that edge feeds
have taken (R219), the bytes that a RANK has read (R269), the bytes or packets written into the open slot (R265, R270),
the packet position that RACC and RVAL have reached and the two packet counters (R270, R271, R404). -/
structure BindCtl where
  base : Nat := 0
  size : Nat := 0
  depth : Nat := 0
  dir : BitVec 2 := 0
  rp : Nat := 0
  wp : Nat := 0
  pctr : BitVec 16 := 0
  xctr : BitVec 16 := 0
  slots : Kv SlotCtl := []
  units : Nat := 0
  rankPos : Nat := 0
  wpos : Nat := 0
  rpos : Nat := 0
  pktW : BitVec 16 := 0
  pktX : BitVec 16 := 0
  deriving DecidableEq, Repr

/-- A tile step under way (R253, R258): its block and row, the kernel cycle of its issue, the tile, and the next step. -/
structure TileRun where
  id : Nat
  pan : Nat
  mask : BitVec 8
  ent : RowEntry
  row : Nat
  copy : Nat
  ctx : Nat
  c : Nat
  x0 : Nat
  nx : Nat
  y0 : Nat
  ny : Nat
  r : Nat
  deriving DecidableEq, Repr

/-- A write that a static unit still owes at a kernel cycle of a mask: a RANK packet (R269), a BQ block (R265), an NST's
bytes (R244) or a chain's element (R267). -/
structure UnitWrite where
  pan : Nat
  mask : BitVec 8
  due : Nat
  /-- 0 rake, 1 block-quantise, 2 a row's node store, 3 a chain: `off` is then a bit address, `skey` a width, `slot` the bytes
  that its object counts, `key` the command and `adv` its last write -/
  unit : Nat
  /-- pan row of a BQ unit; copy and element of an NST, in the order of R342 -/
  ord : Nat
  /-- the control entry, or for a RANK to a stream the stream -/
  key : Nat
  stream : Bool
  /-- the slot and offset of an NST; the block number of a BQ -/
  slot : Nat
  off : Nat
  bytes : List Byte
  adv : Bool
  /-- the scale part of a BQ block: control entry and byte -/
  skey : Nat
  sbyte : Byte
  /-- the start of the block that owes it -/
  blk : Nat := 0
  deriving DecidableEq, Repr

/-- A block-quantise element (R265): tokens of the open block as exact words with their flush bits, and the block count. -/
structure BqUnit where
  toks : List (BitVec 32 × BitVec 6) := []
  beta : Nat := 0
  deriving DecidableEq, Repr

/-- Tables of a pan (R230, R403): graduation and value tables, active and shadow, as numbers of 512 and 2,080 bits. -/
structure Tables where
  gA : Nat := 0
  gS : Nat := 0
  vA : Nat := 0
  vS : Nat := 0
  gNew : Bool := false
  vNew : Bool := false
  i16A : Bool := false
  i16S : Bool := false
  deriving DecidableEq, Repr

/-- A metadata register (R257), and the access that it awaits (R127); `was` is the fabric cycle of its last change with what it
held before that cycle, which rows of the cycle still read (R257). -/
structure Meta where
  v : Nat := 0
  valid : Bool := false
  acc : Nat := 0
  was : Option (Nat × Nat × Bool) := none
  deriving DecidableEq, Repr

/-! ### Streams and tide -/

/-- A slot of a stream, in the sluice or in a stage (R451, R452, R482). -/
structure Place where
  k : Nat := 0
  sTau : Word := 0
  data : Nat := 0
  np : Nat := 0
  refused : Bool := false
  /-- whether a slot stands here, and whether its sender has completed it -/
  used : Bool := false
  full : Bool := false
  /-- the CID that it carries (R418) -/
  cid : BitVec 16 := 0
  deriving DecidableEq, Repr

/-- What travels between a die and a sluice (R451 to R453), with the fabric cycle of its arrival. -/
inductive Transit where
  | bytes (k off : Nat) (bs : List Byte)
  | done (k : Nat) (sTau : Word) (np : Nat)
  | toStage (k : Nat)
  | free (k : Nat)
  deriving DecidableEq, Repr

/-- A cross-die stream, known by its partition, M-die and q (R436, R450 to R457): its ends as block keys, depth, first
position and guard band in force, the next slot of each end and the next one to move to the stage, the packets in the open
slot and the packet position of the reader, the slot being refused and the refused marks that wait, the stage, what is in
transit by fabric cycle of arrival and identifier, and the two packet counters. -/
structure Stream where
  send : Option Nat := none
  recv : Option Nat := none
  depth : Nat := 0
  first : Nat := 0
  g : Nat := 0
  kS : Nat := 0
  kR : Nat := 0
  kStage : Nat := 0
  npk : Nat := 0
  pos : Nat := 0
  refusing : Option Nat := none
  marks : List Place := []
  stage : List Place := []
  transit : List (Nat × Nat × Transit) := []
  pktW : BitVec 16 := 0
  pktX : BitVec 16 := 0
  /-- units that SEND rows and packets have written into the open slot (R457) -/
  units : BitVec 16 := 0
  deriving DecidableEq, Repr

/-- An arrival that a domain has received: the sender, the instance, its mark, and the cycle in which the sender reached it (R445). -/
structure Arrival where
  dom : Nat
  task : BitVec 32
  inst : BitVec 24
  m : Word
  reached : Nat
  deriving DecidableEq, Repr

/-- A sample that a domain has sent: its T, the cycle of the sample, the latency of its path, the receiver's T in that cycle less the
sender's, and whether it has come (R439). -/
structure Sample where
  t : Word
  when : Nat
  lat : Nat
  gap : Word
  came : Bool
  deriving DecidableEq, Repr

/-- One tide domain (R437 to R449): T; the T of a stall under way, its length so far and the cycle that it counts as having
reached its mark; the arrivals, and the samples of each domain of its partition, newest first; and for each of them the cycle of the
last release that both belonged to, with the offset to it then. -/
structure Domain where
  t : Word := 0
  stallAt : Option Word := none
  stallCyc : Nat := 0
  reachedAt : Nat := 0
  arrived : List Arrival := []
  samples : Kv (List Sample) := []
  rels : Kv (Option (Nat × Word)) := []
  deriving DecidableEq, Repr

/-! ### The device -/

/-- A slot table record (R286) with its STAT and CTX bytes, and the instance of its range that runs (R291). -/
structure SlotRec where
  r : BindRec
  taken : Bool := false
  late : Bool := false
  done : Bool := false
  bad : Bool := false
  ctx : BitVec 3 := 0
  cur : BitVec 24 := 0
  deriving DecidableEq, Repr

/-- A bind record that firmware has not written. -/
def noRec : BindRec := ⟨0, 0, 0, 0, false, false, 0, 0, 0, 0, 0, 0, 0, 0, 0, 0, 0⟩

inductive TaskState where | unplaced | running | swapped | exited
  deriving DecidableEq, Repr

/-- An instance of a task: the contexts that have executed EXIT, by dense region index with their codes, whether it has retired (R295,
R498), whether pre-emption has evicted it (R283), and for each tide domain the cycle in which its last context left (R445). -/
structure Inst where
  exits : Kv Nat := []
  code : Nat := 0
  retired : Bool := false
  evicted : Bool := false
  left : Kv Nat := []
  deriving DecidableEq, Repr

/-- A task (R280 to R284, R295): its partition and tenant, its state, the instances still to retire, its LPB copy, the
resolved places of its completion object and of the granules of its inbox, its instances, and the extent tables built for
it: die, address and extents with their primaries (R318). -/
structure Task where
  pid : Nat := 0
  tenant : BitVec 16 := 0
  state : TaskState := .unplaced
  count : Nat := 0
  lpb : List Byte := []
  cpl : Loc := ⟨0, 0, false, 0⟩
  inbox : List XRun := []
  insts : Kv Inst := []
  /-- the CID of its entry in the launch queue (R418) -/
  cid : BitVec 16 := 0
  built : List (Nat × Nat × List Extent) := []
  deriving DecidableEq, Repr

/-- A partition record (R416), its launch queue as task identifiers (R278), and the last identifier assigned (R280). -/
structure Part where
  fset : BitVec 96 := 0
  tenant : BitVec 16 := 0
  v : Bool := false
  rst : Bool := false
  dlog : Bool := false
  z : Nat := 0
  rmap : Nat := 0
  nfoot : Nat := 0
  ffoot : Nat := 0
  sluice : Nat := 0
  budget : Nat := 0
  dlogp : Nat := 0
  queue : List Nat := []
  /-- the last task identifier that it has assigned (R280) -/
  lastTask : BitVec 32 := 0
  /-- the log entry that its reset under way comes from: array and place, if it has one (R420) -/
  cause : Nat × Option Nat := (0, none)
  deriving DecidableEq, Repr

/-- An entry of an error log (R424). -/
structure LogEntry where
  addr : BitVec 48
  cid : BitVec 16
  syn : BitVec 16
  kind : BitVec 4
  code : BitVec 4
  inj : Bool
  valid : Bool
  tide : BitVec 32
  deriving DecidableEq, Repr

/-- An array's error log and lost count (R424) and injection register (R425). Arrays are numbered: 0 to 7 the HBM stacks, 8 to 15 the
reservoirs, 16 to 783 the nodes of a pan, 1,024 to 1,071 the concentrators, 2,048 and up the private registers of a partition, 2,176
and up its shadow banks, 3,072 and up its extent tables, 4,096 and up the shared structures of each die, 8,192 and up the device
links (log 66). -/
structure ErrArray where
  log : List LogEntry := []
  lost : BitVec 32 := 0
  einj : BitVec 64 := 0
  deriving DecidableEq, Repr

/-- An invariant line buffer (R325), most recently used first in its die's list. -/
structure LineBuf where
  mdie : Nat
  task : BitVec 32
  tenant : BitVec 16
  dev : Nat
  line : Nat
  bytes : List Byte
  /-- the CID of the access that filled it (R418), the partition of its task (R280), and the offsets of its poisoned bytes (R422) -/
  cid : BitVec 16 := 0
  pid : Nat := 127
  bad : List Nat := []
  deriving DecidableEq, Repr

/-- An exact sum of ordered fadds (R462): the location, the task, the sum in units of 2^−149, its special states, the instance that has
opened it and the CID that it carries (R418). A task of another device stands under partition 128 + device (R469). -/
structure FaddEntry where
  dev : Nat
  pa : Nat
  task : TaskRef
  sum : Int
  negz : Bool
  nan : Bool
  pinf : Bool
  ninf : Bool
  inst : BitVec 24 := 0
  cid : BitVec 16 := 0
  deriving DecidableEq, Repr

/-- A device link, or the Wolas port (R463 to R465, R477, R494): up once it is trained, next SEQ to send, last SEQ accepted, the flits kept for replay, the last SEQ that the other
side has acknowledged, resends of the flit after it, and whether a NAK was the last answer. -/
structure Link where
  up : Bool := true
  txSeq : BitVec 12 := 0
  rxSeq : BitVec 12 := 0xFFF
  replay : List Flit := []
  acked : BitVec 12 := 0xFFF
  resends : Nat := 0
  nak : Bool := false
  deriving DecidableEq, Repr

/-- An endpoint of collectives that is open on the device (R471): the task that opened it and the COLLs issued on it. -/
structure Endpoint where
  tenant : BitVec 16
  gid : BitVec 32
  rank : BitVec 6
  task : TaskRef
  k : Nat
  deriving DecidableEq, Repr

/-- A message on the Wolas port (R477, R478). -/
structure WolasMsg where
  type : BitVec 8
  pid : BitVec 7
  seq : BitVec 64
  body : List Byte
  deriving DecidableEq, Repr

/-- Events that management firmware receives. -/
inductive FwEvent where
  | halt (ctx : Nat) (task : BitVec 32) (inst : BitVec 24) | haltComplete (ctx : Nat) | nested (ctx : Nat) (cause : BitVec 8) | ckpt (ctx : Nat) (tag : BitVec 32)
  | ecall (ctx : Nat) (svc : BitVec 16) (arg : Word) | debug (ctx : Nat) | lateStart (pan : Nat) (idx : BitVec 4)
  | soft (ctx : Nat) | drift (a b : Nat) | reset (pid : BitVec 7) (array : Nat) (entry : Option Nat) | translation (task : TaskRef) (ext : Nat)
    (va : Word) | thermal | linkDown (link : BitVec 5) | taskExit (task : TaskRef) | graceEnd (task : TaskRef)
    (inst : BitVec 24) | wolasDebug (seq : BitVec 64) (body : List Byte)
  | coreRead (addr : BitVec 48) (bytes : List Byte)
  deriving DecidableEq, Repr

/-- PWRDOM of one tide domain (R486), the effective target that its ramps follow (R489), and the step or voltage move under way (R487,
R488); a VCUR of none is V(0). -/
structure Pwr where
  ftgt : BitVec 6 := 0
  fcur : BitVec 6 := 0
  ramp : Bool := false
  hold : Bool := false
  fceil : BitVec 6 := 60
  aim : BitVec 6 := 0
  vcur : Option (BitVec 10) := none
  /-- the index that a started FLL step will lock at, and the voltage that a started move will reach -/
  stepTo : Option (BitVec 6) := none
  moveTo : Option (BitVec 10) := none
  /-- the number of the write that gave FTGT, for the most recent one of a set (R489) -/
  written : Nat := 0
  deriving DecidableEq, Repr

/-- What a context image holds of one context on one pan (R398 to R404): the context's dense region index and the pan's, which
differ for the copies that the context has stamped (R398); the context; and of the pan, by numbers that do not name it, the
elements, blocks, block runs and kernel counts by mask, units, tables, metadata, binding control entries, streams by 2·q + SIDE and
their sluice positions by 65,536·(2·q + SIDE) + position, and the buffer bytes of the pan and its field. -/
structure Section where
  r : Nat
  p : Nat
  ctx : Ctx
  elems : Kv Elem
  active : Kv Block
  shadow : Kv Block
  runs : Kv BlkRun
  kcnt : Kv Nat
  tiles : List TileRun
  writes : List UnitWrite
  bq : Kv BqUnit
  tables : Tables
  metas : Kv Meta
  nodeCtl : Kv BindCtl
  concCtl : Kv BindCtl
  streams : Kv Stream
  sluice : Kv Place
  deriving DecidableEq, Repr

/-- Bytes of a buffer footprint: the listed ones, and the offsets of the poisoned ones (R398, R422). -/
structure Foot where
  cells : List Host.Cell := []
  bad : List Nat := []
  deriving DecidableEq, Repr

/-- The key store (R426, R431, R432): SHA-384 digests of the public keys, of the manufacturing and the owner's ones among them, the security version, and the
certificate chain of the device identity key. -/
structure KeyStore where
  keys : List (BitVec 384) := [0]
  made : List (BitVec 384) := [0]
  owner : List (BitVec 384) := [0]
  version : BitVec 32 := 0
  certs : List Byte := []
  deriving DecidableEq, Repr

/-- A slot of a shadow bank in use (R406, R407): the instance whose state it holds, the image's address, the fabric cycle in which
firmware's copy to HBM ends, the sections of a pan's slot, and the bytes of a field's. -/
structure BankSlot where
  addr : Nat
  task : TaskRef
  inst : BitVec 24
  upto : Nat
  secs : List Section
  bytes : List Byte
  deriving DecidableEq, Repr

/-- The configuration part of an instance that has left a pan, which stays in the pan's mirror until firmware's copy to HBM has ended
(R406 to R408). -/
structure MirrorPart where
  task : TaskRef
  inst : BitVec 24
  upto : Nat
  bytes : List Byte
  deriving DecidableEq, Repr

/-- A context image (R398, R405). -/
structure Image where
  level : Nat
  tenant : BitVec 16
  pans : Nat
  fields : Nat
  dies : Nat
  slots : BitVec 8
  note : Bool
  soft : Bool
  nested : Bool
  nestedCause : BitVec 8
  task : BitVec 32
  inst : BitVec 24
  haltCount : Nat
  sections : List Section
  cmds : List Cmd
  fadds : List FaddEntry
  tauH : Word
  /-- the buffer footprints of the region's pans and fields, by dense index, and their sizes (R398, R416) -/
  nodes : Kv Foot
  concs : Kv Foot
  nodeFoot : Nat
  fieldFoot : Nat
  deriving DecidableEq, Repr

/-- A slot or packet that a row completes or releases at the end of its kernel cycle, once for the row (R245, R271): 0 a
packet of a concentrator binding, 1 a packet or slot of a receive stream, 2 a slot of a send stream; its key, pan, row and
entry, and whether a RECV releases the whole slot. -/
structure Adv where
  kind : Nat
  key : Nat
  pan : Nat
  row : Nat
  ent : RowEntry
  whole : Bool
  deriving DecidableEq, Repr

/-- Where a row stands when an element issues it: the pan, the block's mask, the row index, the element 16·y + x, the
kernel cycle of the mask, the window, the level indices, and the copy. -/
structure Site where
  pan : Nat := 0
  mask : BitVec 8 := 0
  row : Nat := 0
  elem : Nat := 0
  kc : Nat := 0
  window : Nat := 0
  iter : Nat := 0
  copy : Nat := 0
  ctx : Nat := 0
  modefp : BitVec 6 := 0
  ent : RowEntry := ⟨0xB8, 0, 0⟩
  deriving DecidableEq, Repr

/-- The whole machine. -/
structure State where
  /-- model's own (log 1): fabric cycle, event queue, inputs by cycle, whether the cycle's start has run, contexts still to
  issue in this cycle, the context
  that issues, the site of a row, faults met by this kernel cycle, fresh identifiers, free-value counter, latencies -/
  cycle : Nat := 0
  agenda : List Instr := []
  inputs : List (Nat × Instr) := []
  begun : Bool := false
  turn : List Nat := []
  /-- keys of the masks whose kernel cycle this fabric cycle is, from its start on (R155, R178) -/
  clocked : List Nat := []
  cur : Nat := 0
  site : Site := {}
  bfaults : List BlockFault := []
  advs : List Adv := []
  nextId : Nat := 1
  freeCtr : Nat := 0
  latencies : List Nat := []
  /-- contexts (R13) -/
  ctxs : Kv Ctx := []
  /-- every byte of every memory (Ops gives the places), and the poisoned bytes (R419) -/
  mem : List Host.Cell := []
  poison : Kv Bool := []
  /-- sequencer stores to node and field space (R22, R342): of the last fabric cycle, visible in this one; and of this one,
  visible to their context, by context, address and bytes -/
  stores : List (Nat × Nat × List Byte) := []
  fresh : List (Nat × Nat × List Byte) := []
  /-- the tenant whose data a field's nodes and concentrator hold, plus 1; 0 after a wipe (R427) -/
  fieldTenant : Kv Nat := []
  /-- accesses and engine commands under way -/
  accs : List Acc := []
  cmds : List Cmd := []
  holders : List Holder := []
  /-- blocks: active and shadow planes, runs, kernel cycles per mask (R159) -/
  active : Kv Block := []
  shadow : Kv Block := []
  runs : Kv BlkRun := []
  kcnt : Kv Nat := []
  /-- elements and units (R144, R175) -/
  elems : Kv Elem := []
  nodeCtl : Kv BindCtl := []
  concCtl : Kv BindCtl := []
  tiles : List TileRun := []
  writes : List UnitWrite := []
  /-- slots that engine commands have made full or empty in this cycle, which rows see from the next one on (R366): 0 for a node
  entry and 1 for a concentrator one, its key, and whether it is completed rather than released -/
  slotEnds : List (Nat × Nat × Bool) := []
  bq : Kv BqUnit := []
  tables : Kv Tables := []
  metas : Kv Meta := []
  /-- streams, sluice positions (R450), tide domains (R437), sideband latencies (R495) -/
  streams : Kv Stream := []
  sluice : Kv Place := []
  domains : Kv Domain := []
  sideband : Kv Nat := []
  /-- links i of dies i and i + 1 that are retrained and not yet calibrated (R495) -/
  uncal : List Nat := []
  /-- the configuration die (R278 to R286, R312, R416, R417) -/
  slotTab : Kv SlotRec := []
  tasks : Kv Task := []
  parts : Kv Part := []
  remap : Kv Nat := []
  tenantRoot : Kv Nat := []
  ownDev : BitVec 12 := 0
  directory : List (BitVec 16 × BitVec 32 × BitVec 6 × BitVec 12) := []
  /-- the images that this machine has made, as what their bytes in memory mean (log 30) -/
  images : List Image := []
  /-- shadow banks of the pans and of the fields, two image slots each (R406); the configuration parts in a pan's mirror besides those of
  its resident blocks, which stand there as in their planes; and the 4 KiB for control of each, as 4,096·pan + offset, to which no rule
  writes -/
  shadowBank : Kv (List BankSlot) := []
  fieldBank : Kv (List BankSlot) := []
  mirror : Kv (List MirrorPart) := []
  bankControl : Kv Byte := []
  /-- the memory side (R322, R325, R428, R429, R462, R466) -/
  home : Kv Nat := []
  away : Kv Nat := []
  tags : Kv Nat := []
  scrub : Kv Bool := []
  dirty : Kv Bool := []
  lineBufs : List LineBuf := []
  fadds : List FaddEntry := []
  routes : Kv Nat := []
  links : Kv Link := []
  endpoints : List Endpoint := []
  /-- integrity and trust (R424 to R426, R431, R432) -/
  errs : Kv ErrArray := []
  life : LifeCycle := .blank
  measure : BitVec 384 := 0
  keyStore : KeyStore := {}
  fuseVersion : BitVec 32 := 0
  /-- pans that manufacturing fuses record as harvested: 32·(6·die + physical field) + physical pan (R417) -/
  fuses : Kv Bool := []
  recovery : Bool := false
  /-- dies whose UCIe link has failed in bring-up (R494), and the bytes of a firmware image as IMGLD has brought them (R478) -/
  lostDies : List Nat := []
  staged : List (Word × List Byte) := []
  bringUp : Nat := 7
  /-- power (R485 to R493) -/
  pwr : Kv Pwr := []
  wact : Kv Nat := []
  cap : Nat := 1050
  floorW : Nat := 1050
  lastCseq : Option (BitVec 64) := none
  lease : Option Nat := none
  budgets : Kv Nat := []
  /-- the shares of fields that the cap allows, in bytes and plus 1 (R492) -/
  shares : Kv Nat := []
  budgetUsed : Kv Nat := []
  thermal : Bool := false
  poweredOff : Bool := false
  /-- what leaves the machine: firmware events; the messages of the Wolas port, the first of which leaves flit by flit, with the bytes of
  it that have left; and the flits sent on links, 16 being the Wolas port (R477). Of a message that comes in, what has come -/
  fw : List FwEvent := []
  /-- firmware events that the control node has been told of where they concern it (R478) -/
  fwTold : Nat := 0
  wolas : List WolasMsg := []
  portAt : Nat := 0
  portIn : Option WolasMsg := none
  sent : List (BitVec 5 × Flit) := []
  /-- the first address that a write of the engine unit under way could not reach on another device (R468) -/
  unreached : Option Nat := none
  /-- collective flits that have come back and wait for the directory (R471) -/
  returned : List Flit := []
  deriving DecidableEq, Repr

/-- Why the machine stops where the spec gives no effect. -/
inductive Fault where
  /-- MANAGEMENT_CORE_ACCESS to a physical address that R309 reserves. Safe: the model stops where the hardware's answer is
  not given. -/
  | reservedPhysical (addr : BitVec 48)
  deriving DecidableEq, Repr

/-- Why the model refuses an instruction. -/
inductive Refusal where
  /-- An arm of exec that has no meaning yet. Safe: nothing is claimed of such an instruction. -/
  | notModelled (mnemonic : String)
  deriving DecidableEq, Repr

/-- The machine at the end of bring-up (R494): everything wiped to zero (R426), every T zero, no partition valid, nothing
bound. WACT is 40 ns and the cap is the floor (R490, R491), which their tables' readers supply. -/
def State.reset : State := {}

end Sys2Proof.Machine
end

