-- ==== Sys2Proof/Machine/Ops.lean ====
section
/-! DEFINITION. The named operations over memory, registers and contexts: bytes, results in flight, the end of a context
cycle, the next pc, taking a trap and returning from one, and the halt of a context. -/

namespace Sys2Proof.Machine

/-! ### Memory. One list holds every byte: physical addresses below 2^48 (R309), node spaces from 2^48 on, 1 MiB a pan
(R21), field spaces from 2^49 on, 8 MiB a field. A byte that nothing has written is 0, as the wipe leaves it (R426). -/

/-- The one canonical form of memory: addresses strictly rising, no byte listed that reads as 0 anyway. -/
def Memory.wf (m : List Host.Cell) : Bool := Kv.wf (0 : Byte) m

def nodeBase (pan : Nat) : Nat := 2 ^ 48 + pan * Config.nodeSize
def fieldBase (field : Nat) : Nat := 2 ^ 49 + field * Config.fieldSize
/-- The first byte of the reservoir of Mk (R309). -/
def reservoirBase (k : Nat) : Nat := 0x8000000000 + k * Config.reservoirSize

/-- The field of a pan, its die, and its place in the field. -/
def fieldOf (pan : Nat) : Nat := pan / 16
def dieOf (pan : Nat) : Nat := pan / 96
def panOf (ctx : Nat) : Nat := ctx / 8

def State.readByte (s : State) (a : Nat) : Byte := Kv.get 0 s.mem a

/-- Writing a byte makes it whole: its poison mark goes (R419). -/
def State.writeByte (s : State) (a : Nat) (b : Byte) : State :=
  { s with mem := Kv.set 0 s.mem a b, poison := Kv.set false s.poison a false }

def State.readBytes (s : State) : Nat → Nat → List Byte
  | _, 0 => []
  | a, n + 1 => s.readByte a :: s.readBytes (a + 1) n

def State.writeBytes (s : State) : Nat → List Byte → State
  | _, [] => s
  | a, b :: bs => (s.writeByte a b).writeBytes (a + 1) bs

/-- `n` bytes as a little-endian number (R9). -/
def State.readNat (s : State) (a n : Nat) : Nat := leNat (s.readBytes a n)
def State.writeNat (s : State) (a n v : Nat) : State := s.writeBytes a (natLe n v)

/-- The first poisoned byte of `n` bytes (R392, R419). -/
def State.poisoned (s : State) : Nat → Nat → Option Nat
  | _, 0 => none
  | a, n + 1 => if Kv.get false s.poison a then some a else s.poisoned (a + 1) n

/-- Poisons `n` bytes (R419). -/
def State.poisonBytes (s : State) : Nat → Nat → State
  | _, 0 => s
  | a, n + 1 => { s with poison := Kv.set false s.poison a true }.poisonBytes (a + 1) n

/-- Zeroes `n` bytes by dropping what is listed there: a wipe (R426). Sequencer stores that are not visible yet go with them, so
that none lands on the wiped bytes (R421, R427). -/
def State.wipe (s : State) (a n : Nat) : State :=
  let keep := fun (p : Nat) => !(decide (a ≤ p) && decide (p < a + n))
  { s with mem := s.mem.filter fun e => keep e.1, poison := s.poison.filter fun e => keep e.1,
           stores := s.stores.filter fun e => keep e.2.1, fresh := s.fresh.filter fun e => keep e.2.1 }

/-! ### Contexts and elements -/

def State.ctx (s : State) (c : Nat) : Ctx := Kv.get {} s.ctxs c
def State.setCtx (s : State) (c : Nat) (x : Ctx) : State := { s with ctxs := Kv.set {} s.ctxs c x }
/-- The context that issues. -/
def State.self (s : State) : Ctx := s.ctx s.cur
def State.setSelf (s : State) (x : Ctx) : State := s.setCtx s.cur x
/-- Its pan. -/
def State.pan (s : State) : Nat := panOf s.cur

def elemKey (pan e : Nat) : Nat := 256 * pan + e
def State.elem (s : State) (pan e : Nat) : Elem := Kv.get {} s.elems (elemKey pan e)
def State.setElem (s : State) (pan e : Nat) (x : Elem) : State := { s with elems := Kv.set {} s.elems (elemKey pan e) x }

def blkKey (pan : Nat) (mask : BitVec 8) : Nat := 256 * pan + mask.toNat
def State.activeBlk (s : State) (pan : Nat) (mask : BitVec 8) : Block := Kv.get {} s.active (blkKey pan mask)
def State.shadowBlk (s : State) (pan : Nat) (mask : BitVec 8) : Block := Kv.get {} s.shadow (blkKey pan mask)
def State.setActive (s : State) (pan : Nat) (mask : BitVec 8) (b : Block) : State :=
  { s with active := Kv.set {} s.active (blkKey pan mask) b }
def State.setShadow (s : State) (pan : Nat) (mask : BitVec 8) (b : Block) : State :=
  { s with shadow := Kv.set {} s.shadow (blkKey pan mask) b }
def State.runOf (s : State) (pan : Nat) (mask : BitVec 8) : BlkRun := Kv.get {} s.runs (blkKey pan mask)
def State.setRun (s : State) (pan : Nat) (mask : BitVec 8) (r : BlkRun) : State :=
  { s with runs := Kv.set {} s.runs (blkKey pan mask) r }
/-- The kernel cycle that the mask's clock shows on a pan. -/
def State.kc (s : State) (pan : Nat) (mask : BitVec 8) : Nat := Kv.get 0 s.kcnt (blkKey pan mask)

/-- The pan and mask of a block key. -/
def keyPan (k : Nat) : Nat := k / 256
def keyMask (k : Nat) : BitVec 8 := BitVec.ofNat 8 (k % 256)

/-! ### Partitions, tide domains and the wheel (R154, R416, R437) -/

/-- The partition of a field, or 127 for none (R416). -/
def State.owner (s : State) (field : Nat) : Nat :=
  match s.parts.find? fun e => e.2.v && e.2.fset.getLsbD field with
  | some e => e.1
  | none => 127

def domKey (pid die : Nat) : Nat := 8 * pid + die
/-- The tide domain that holds a pan (R437). -/
def State.domOf (s : State) (pan : Nat) : Nat := domKey (s.owner (fieldOf pan)) (dieOf pan)
def State.domain (s : State) (d : Nat) : Domain := Kv.get {} s.domains d
def State.setDomain (s : State) (d : Nat) (x : Domain) : State := { s with domains := Kv.set {} s.domains d x }
/-- T of a pan's domain. -/
def State.tide (s : State) (pan : Nat) : Word := (s.domain (s.domOf pan)).t
/-- The wheel position (R154). -/
def State.wheel (s : State) (pan : Nat) : Nat := (s.tide pan).toNat % 8
/-- The program tide of the issuing context (R438). -/
def State.tau (s : State) (c : Nat) : Word := s.tide (panOf c) - (s.ctx c).tb

/-! ### Fresh identifiers and open latencies (log 1, log 4) -/

/-- The latency of the next access that is not static: the next one of the list, at least the bound of R6 and R307. -/
def State.nextLatency (s : State) : Nat := max Config.minLatency (s.latencies.headD Config.minLatency)
def State.takeLatency (s : State) : State := { s with latencies := s.latencies.tail }

/-! ### Registers and results (R17, R23 to R25) -/

/-- The value of an s register; s0 reads as zero (R17). -/
def Ctx.reg (x : Ctx) (r : Reg) : Word := if r = 0 then 0 else Kv.get 0 x.s r.toNat
/-- A write of an s register; s0 discards it (R17). -/
def Ctx.setReg (x : Ctx) (r : Reg) (v : Word) : Ctx := if r = 0 then x else { x with s := Kv.set 0 x.s r.toNat v }
def State.reg (s : State) (r : Reg) : Word := s.self.reg r

def Ctx.landing (x : Ctx) (n : LReg) : Landing := Kv.get {} x.l n.toNat
def Ctx.setLanding (x : Ctx) (n : LReg) (v : Landing) : Ctx := { x with l := Kv.set {} x.l n.toNat v }

/-- A result with latency `lat` issued in the current context cycle (R23). -/
def Ctx.issueResult (x : Ctx) (dst : FlightDst) (v : Word) (lat : Nat) (poison : Option Nat) : Ctx :=
  { x with flight := x.flight ++ [⟨dst, v, x.cyc + lat, decide (1 < lat), poison, x.cyc⟩] }

def Ctx.write (x : Ctx) (r : Reg) (v : Word) (lat : Nat) : Ctx := x.issueResult (.s r) v lat none

/-- Whether a flight counts towards the limit of R25: it goes to an s register with a latency above 1. -/
def Flight.counts (f : Flight) : Bool := f.long && (match f.dst with | .s _ => true | .l _ _ => false)

def Ctx.replays (x : Ctx) : List Replay := [x.y0, x.y1, x.y2, x.y3]

/-- Results of latency above 1 in flight to s registers, every valid replay register counted (R25). -/
def Ctx.inFlight (x : Ctx) : Nat := (x.flight.filter Flight.counts).length + (x.replays.filter (·.v)).length + x.loose.length

/-- Every result to an s register issued before has landed (R131, R137). -/
def Ctx.drained (x : Ctx) : Bool :=
  (x.flight.all fun f => match f.dst with | .s _ => false | .l _ _ => true) && (x.replays.all fun y => !y.due.isSome) && x.loose.isEmpty

/-- Landed corrupt data are noted in their landing cycle, the first one (R392). -/
def Ctx.noteCorrupt (x : Ctx) (p : Option Nat) : Ctx :=
  match p with
  | some a => if x.struck.isNone then { x with struck := some a } else x
  | none => x

/-- Corrupt data that landed in the context cycle that ends raise their fault before the next one (R392). -/
def Ctx.strike (x : Ctx) : Ctx :=
  match x.struck with
  | some a => { x with struck := none, bfault := if x.bfault.isNone then some ⟨0x12, a, [], none⟩ else x.bfault }
  | none => x

/-- A result lands (R24, R26). -/
def Ctx.land (x : Ctx) (f : Flight) : Ctx :=
  let x := match f.dst with
    | .s r => x.setReg r f.val
    | .l n id =>
      let l := x.landing n
      if l.pending && l.acc == id then x.setLanding n { val := f.val, full := true, pending := false, poison := none, acc := 0 }
      else x
  x.noteCorrupt f.poison

/-- The results due by context cycle `c` land, in issue order; the others stay in flight. -/
def Ctx.landDue (x : Ctx) (c : Nat) : Ctx :=
  let later := x.flight.filter fun f => decide (c < f.due)
  { (x.flight.filter fun f => decide (f.due ≤ c)).foldl Ctx.land x with flight := later }

/-- The value that a replay register lands. -/
def Replay.out (y : Replay) : Word := y.held.getD y.val
/-- Whether the count of a replay register has run out by context cycle `c` (R38). -/
def Replay.isDue (c : Nat) (y : Replay) : Bool :=
  match y.due with | some d => y.v && decide (d ≤ c) | none => false
/-- What a replay register holds once it has landed: its V is clear (R38). -/
def Replay.landed (y : Replay) : Replay := { y with v := false, due := none, cnt := 0, poison := none, held := none }
def Replay.settle (c : Nat) (y : Replay) : Replay := if y.isDue c then y.landed else y

/-- Replay registers in the order in which their results were issued, equal ones by index (R24, R38). -/
def insertReplay (y : Replay) : List Replay → List Replay
  | [] => [y]
  | z :: r => if y.seq < z.seq then y :: z :: r else z :: insertReplay y r
def Ctx.replayOrder (x : Ctx) : List Replay := (x.replays ++ x.loose).foldl (fun l y => insertReplay y l) []

/-- The value of a replay register whose count has run out becomes visible (R38). -/
def Ctx.landReplay (c : Nat) (x : Ctx) (y : Replay) : Ctx :=
  if y.isDue c then (x.setReg y.dst y.out).noteCorrupt y.poison else x

/-- The replay registers due by context cycle `c` land, in the order in which their results were issued, and their V bits clear
(R24, R38). -/
def Ctx.landReplays (x : Ctx) (c : Nat) : Ctx :=
  { x.replayOrder.foldl (Ctx.landReplay c) x with
    y0 := x.y0.settle c, y1 := x.y1.settle c, y2 := x.y2.settle c, y3 := x.y3.settle c,
    loose := x.loose.filter fun y => !y.isDue c }

/-- How the occupancy counters count a context cycle (R296). -/
inductive Spent where | issue | wait | other
  deriving DecidableEq, Repr

def Ctx.count (x : Ctx) (k : Spent) : Ctx :=
  if x.occ = 0 then x
  else match k with
    | .issue => { x with occIssue := x.occIssue + 1 }
    | .wait => { x with occWait := x.occWait + 1 }
    | .other => { x with occOther := x.occOther + 1 }

/-- The context cycle ends: the count advances, and what is visible from the next cycle on lands, replayed results before
the others (R24, R38); corrupt data that this cycle found landed strike (R392). -/
def Ctx.endCycle (x : Ctx) (k : Spent) : Ctx :=
  let c := x.cyc + 1
  let x := ((({ x with cyc := c } : Ctx).strike.count k).landReplays c).landDue c
  x

/-! ### Text and the next pc (R30, R42, R57, R58) -/

def Ctx.textEnd (x : Ctx) : Nat := x.textBase + 64 * x.textLines
/-- The expanded instruction that starts at an address. -/
def Ctx.startAtPc (x : Ctx) (a : Nat) : Option Expanded :=
  if a < x.textBase then none else x.store.find? fun e => e.off == a - x.textBase
/-- The first instruction start above an address, or the end of the text when none remains (R57). -/
def Ctx.nextStart (x : Ctx) (a : Nat) : Nat :=
  match x.store.find? fun e => decide (a < x.textBase + e.off) with
  | some e => x.textBase + e.off
  | none => x.textEnd
/-- `next` of R97. -/
def Ctx.next (x : Ctx) : Nat := x.nextStart x.pc.toNat

/-- The check of a target: outside the text gives the range fault, no start the misaligned-target fault (R42, R58). -/
def Ctx.badTarget (x : Ctx) (t : Nat) : Option Nat :=
  if t < x.textBase ∨ x.textEnd ≤ t then some 0x09
  else if (x.startAtPc t).isNone then some 0x03 else none

/-- The fall-through part of R30: a body whose end is reached returns to its start or ends, and an outer one may too. -/
def fallThrough (nxt : BitVec 56) : List LoopEntry → BitVec 56 × List LoopEntry
  | [] => (nxt, [])
  | e :: r =>
    if nxt = e.stop then
      if 1 < e.count.toNat then (e.start, { e with count := e.count - 1 } :: r) else fallThrough nxt r
    else (nxt, e :: r)

/-- The taken-branch part of R30: bodies that do not hold the target end. -/
def popsFor (t : BitVec 56) : List LoopEntry → List LoopEntry
  | [] => []
  | e :: r => if e.start.toNat ≤ t.toNat ∧ t.toNat < e.stop.toNat then e :: r else popsFor t r

def Ctx.goNext (x : Ctx) (nxt : Nat) : Ctx :=
  let (p, ls) := fallThrough (BitVec.ofNat 56 nxt) x.ls
  { x with pc := p, ls := ls }
def Ctx.goBranch (x : Ctx) (t : Nat) : Ctx :=
  let p := BitVec.ofNat 56 t
  { x with pc := p, ls := popsFor p x.ls, bubble := true }

/-! ### How an instruction's context cycle ends -/

abbrev Out := Host.Outcome State Fault Refusal

/-- The context after an instruction that has changed it to `x` and lets its context cycle pass (R97). -/
def Ctx.passed (x : Ctx) : Ctx := { x.goNext x.next with hold := none }.endCycle .issue

/-- The instruction has issued; the context goes on at the next one. -/
def State.retire (s : State) (x : Ctx) : State := s.setSelf x.passed

/-- The same for a wait that ends in this cycle and has counted as WAIT until now. -/
def State.done (s : State) (x : Ctx) : Out := .next (s.retire x)

/-- A register result of the given latency, after which the context goes on. -/
def State.result (s : State) (r : Reg) (v : Word) (lat : Nat) : Out := s.done (s.self.write r v lat)

/-- The branch is taken (R30, R106). -/
def State.branchTo (s : State) (x : Ctx) (t : Nat) : Out := .next (s.setSelf ({ x.goBranch t with hold := none }.endCycle .issue))

/-- The instruction holds its context through this context cycle (R14). -/
def State.holdOn (s : State) (x : Ctx) (h : Hold) (k : Spent) : Out := .next (s.setSelf ({ x with hold := some h }.endCycle k))

/-- The hold in force, or a fresh one that begins now. -/
def State.holdNow (s : State) : Hold := s.self.hold.getD { since := s.self.cyc, fab := s.cycle }

/-! ### Capture, traps and their return (R37, R38, R178, R209, R389 to R391) -/

/-- Fills a free replay register with a result of remaining count `r` (R37). -/
def Replay.fill (f : Flight) (c : Nat) (hlt : Bool) : Replay :=
  match f.dst with
  | .s r => { v := true, dst := r, cnt := BitVec.ofNat 5 (f.due - c), hlt := hlt, val := f.val, poison := f.poison, seq := f.seq }
  | .l _ _ => {}

/-- Captures one result into the lowest free replay register (R37). R25 keeps one free; without one the result would land. -/
def Ctx.captureOne (c : Nat) (hlt : Bool) (x : Ctx) (f : Flight) : Ctx :=
  let y := Replay.fill f c hlt
  if !x.y0.v then { x with y0 := y } else if !x.y1.v then { x with y1 := y }
  else if !x.y2.v then { x with y2 := y } else if !x.y3.v then { x with y3 := y } else x.land f

/-- A replay register that counts down is captured again in place (R37). -/
def Replay.recapture (c : Nat) (hlt : Bool) (y : Replay) : Replay :=
  match y.due with
  | some d => if y.v then { y with cnt := BitVec.ofNat 5 (d - c), hlt := hlt, due := none, val := y.out, held := none } else y
  | none => y

def Flight.toS (f : Flight) : Bool := match f.dst with | .s _ => true | .l _ _ => false

/-- The landing of a replay register whose count runs, as a result in flight under its own issue (R37, R38). -/
def Replay.toFlight (y : Replay) : Flight := ⟨.s y.dst, y.out, y.due.getD 0, true, y.poison, y.seq⟩

/-- Captures every result to an s register that would land after cycle `c`, the current one, in issue order; those that a SYSW has set
loose come before all others (R37). -/
def Ctx.capture (x : Ctx) (hlt : Bool) : Ctx :=
  let c := x.cyc
  let x := { x with y0 := x.y0.recapture c hlt, y1 := x.y1.recapture c hlt, y2 := x.y2.recapture c hlt,
                    y3 := x.y3.recapture c hlt }
  let loose := (x.loose.foldl (fun l y => insertReplay y l) []).map Replay.toFlight
  let x' := (loose ++ x.flight.filter Flight.toS).foldl (Ctx.captureOne c hlt) x
  { x' with flight := x.flight.filter fun f => !f.toS, loose := [] }

/-- Lets the captured results with this HLT bit count down from context cycle `c` on (R38, R412). -/
def Replay.start (c : Nat) (hlt : Bool) (y : Replay) : Replay :=
  if y.v && y.hlt == hlt && y.due.isNone then { y with due := some (c + y.cnt.toNat) } else y
def Ctx.startReplays (x : Ctx) (c : Nat) (hlt : Bool) : Ctx :=
  { x with y0 := x.y0.start c hlt, y1 := x.y1.start c hlt, y2 := x.y2.start c hlt, y3 := x.y3.start c hlt }

/-- Blocks of a context: their keys among the runs. -/
def State.runsOf (s : State) (c : Nat) : List Nat := Kv.keysWhere (fun _ r => r.live && r.ctx == c) s.runs

/-- The shadow parts of a mask return to a copy of the active parts (R169, R209). -/
def State.dropShadow (s : State) (pan : Nat) (mask : BitVec 8) : State :=
  s.setShadow pan mask { s.activeBlk pan mask with live := false }

/-- An open body is abandoned (R209). -/
def State.abandonBody (s : State) (c : Nat) : State :=
  match (s.ctx c).body with
  | some b => (s.dropShadow (panOf c) b.mask).setCtx c { s.ctx c with body := none }
  | none => s

/-- Captured results of an element as flights again, counted from kernel cycle `kc` of their mask (R178). -/
def EReplay.toFlight (kc : Nat) (y : EReplay) : EFlight := ⟨y.mask, kc + y.left, y.dst, y.val, true, y.blk⟩
def EFlight.toReplay (kc : Nat) (hlt : Bool) (c : Nat) (f : EFlight) : EReplay := ⟨f.mask, f.due - kc, f.dst, f.val, hlt, f.blk, c⟩

def EFlight.captured (f : EFlight) (mask : BitVec 8) : Bool :=
  f.mask == mask && (match f.dst with | .e _ => true | .lane _ => true | _ => false)

/-- Results of a mask to e registers and lanes go into the element replay entries of a context (R178). -/
def Elem.capture (x : Elem) (mask : BitVec 8) (kc : Nat) (hlt : Bool) (c : Nat) : Elem :=
  { x with ye := x.ye ++ (x.flight.filter (·.captured mask)).map (EFlight.toReplay kc hlt c),
           flight := x.flight.filter fun f => !f.captured mask }

/-- Replay entries of a mask become results in flight again (R178). -/
def Elem.replay (x : Elem) (mask : BitVec 8) (kc : Nat) (hlt : Bool) : Elem :=
  { x with flight := (x.ye.filter fun y => y.mask == mask && y.hlt == hlt).map (EReplay.toFlight kc) ++ x.flight,
           ye := x.ye.filter fun y => !(y.mask == mask && y.hlt == hlt) }

/-- Applies a change to every listed element of a pan. -/
def State.mapElems (s : State) (pan : Nat) (f : Elem → Elem) : State :=
  { s with elems := s.elems.filterMap fun e =>
      if e.1 / 256 = pan then
        let x := f e.2
        if x = {} then none else some (e.1, x)
      else some e }

/-- Stops the block of a key: its kernel cycles wait, and its results are captured (R178, R393). -/
def State.stopRun (hlt : Bool) (s : State) (key : Nat) : State :=
  let pan := keyPan key
  let mask := keyMask key
  let r := s.runOf pan mask
  let s := s.setRun pan mask { r with stopped := true, faulted := r.faulted || !hlt }
  s.mapElems pan fun x => x.capture mask (s.kc pan mask) hlt r.ctx

/-- Lets a stopped block run on, its captured results landing at their remaining counts (R178, R412). One that a block fault
has stopped waits for RFT, on resumption too (R294). -/
def State.resumeRun (hlt : Bool) (s : State) (key : Nat) : State :=
  let pan := keyPan key
  let mask := keyMask key
  let r := s.runOf pan mask
  let s := s.setRun pan mask { r with stopped := hlt && r.faulted, faulted := hlt && r.faulted }
  s.mapElems pan fun x => x.replay mask (s.kc pan mask) hlt

/-- Kernel cycles that this fabric cycle has counted but that do not take place are counted again later (R178, R393, R412). -/
def State.uncount (s : State) (keys : List Nat) : State :=
  { (s.clocked.filter keys.contains).foldl (fun (t : State) k => { t with kcnt := Kv.set 0 t.kcnt k (Kv.get 0 t.kcnt k - 1) }) s with
    clocked := s.clocked.filter fun k => !keys.contains k }

/-- Captured results of a context whose run has gone: those of stamped copies that a BGO has ended since. They land at their remaining
counts all the same (R172). -/
def State.replayGone (s : State) (c : Nat) (hlt : Bool) : State :=
  let lost := fun (pan : Nat) (y : EReplay) => y.ctx == c && y.hlt == hlt && !((s.runOf pan y.mask).live && (s.runOf pan y.mask).ctx == c)
  { s with elems := s.elems.map fun e =>
      let pan := e.1 / 256
      (e.1, { e.2 with flight := (e.2.ye.filter (lost pan)).map (fun y => y.toFlight (s.kc pan y.mask)) ++ e.2.flight,
                       ye := e.2.ye.filter fun y => !lost pan y }) }

/-- Entries that POPs are taking from the carve-out land at a halt (R395). -/
def Ctx.landPops (x : Ctx) : Ctx :=
  { (x.flight.filter fun f => !f.toS).foldl Ctx.land x with flight := x.flight.filter Flight.toS }

/-- Whether a command takes an entry of the queue (R347); completion commands take none. -/
def hasEntry : Instr → Bool
  | .cplarm .. => false | .cpltest .. => false | .barinit .. => false | .bararr .. => false | .cplsig .. => false
  | _ => true
def isChain : Instr → Bool | .chain .. => true | _ => false
def isRing : Instr → Bool | .rput .. => true | .rget .. => true | .rpeek .. => true | _ => false
def isColl : Instr → Bool | .coll .. => true | _ => false

/-- Commands that run to completion at a halt: completion commands, ring commands that an engine has accepted, and a COLL whose headers
have all arrived (R396, R476). -/
def Cmd.runsOn (k : Cmd) : Bool := !hasEntry k.instr || ((isRing k.instr || isColl k.instr) && k.st == .running)

/-- The fields of a CHAIN word. -/
structure ChainWord where
  start : Nat
  desc : Nat
  mask : BitVec 8
  y : Nat
  n : Nat
  tau : Nat
  deriving DecidableEq, Repr

def chainWord : Instr → ChainWord
  | .chain _ st d m y n1 t => ⟨st.toNat, d.toNat, m, y.toNat, n1.toNat + 1, t.toNat + 1⟩
  | _ => ⟨0, 0, 0, 0, 0, 1⟩

/-- Keys that a fault or a halt of a context stops: its blocks, its owed writes and its chains. -/
def State.keysOf (s : State) (c : Nat) : List Nat :=
  let mine := fun (pan : Nat) (m : BitVec 8) => if (s.runOf pan m).live then (s.runOf pan m).ctx == c else panOf c == pan && m &&& ~~~(s.ctx c).slots == 0
  ((s.runsOf c) ++ ((s.writes.filter fun w => mine w.pan w.mask).map fun w => blkKey w.pan w.mask)
    ++ ((s.cmds.filter fun k => k.ctx == c && isChain k.instr && (k.st == .issued || k.st == .running)).map fun k =>
      blkKey k.pan (chainWord k.instr).mask)).dedup

/-- The chains of a context stop and resume with its blocks (R268); one that was accepted has `w = 1`, and one that waits for RFT
`code = 1`. -/
def State.stopChains (s : State) (c : Nat) : State :=
  { s with cmds := s.cmds.map fun k =>
      if k.ctx == c && isChain k.instr && k.st != .waiting then { k with st := .stopped, code := 1 } else k }
def Cmd.resumed (k : Cmd) : Cmd := { k with st := if isChain k.instr && k.w == 1 then .running else .issued, code := 0 }
def State.resumeChains (s : State) (c : Nat) : State :=
  { s with cmds := s.cmds.map fun k => if k.ctx == c && isChain k.instr && k.st == .stopped then k.resumed else k }
/-- At a halt the commands of a context stop between units (R396); a resumed one is queued again (R397). -/
def State.haltCmds (s : State) (c : Nat) : State :=
  { s with cmds := s.cmds.map fun k => if k.ctx == c && !k.runsOn then { k with st := .stopped } else k }
def State.resumeCmds (s : State) (c : Nat) : State :=
  { s with cmds := s.cmds.map fun k => if k.ctx == c && k.st == .stopped && !(isChain k.instr && k.code == 1) then k.resumed else k }

/-- Takes a context out of the wait for a queue entry (R347). -/
def State.leaveQueue (s : State) (c : Nat) : State := { s with holders := s.holders.filter fun h => h.ctx != c }

/-- What a held instruction has done already is undone when it is left unissued: a TRD's lanes are dirty again (R210). -/
def State.undoHold (s : State) (c : Nat) : State :=
  match (s.ctx c).hold with
  | some h => h.lanes.foldl (fun s k =>
      let x := s.elem (k / 2048) (k / 8 % 256)
      s.setElem (k / 2048) (k / 8 % 256) { x with t := Kv.set {} x.t (k % 8) { Kv.get {} x.t (k % 8) with dirty := true } }) s
  | none => s

/-- An instruction-level halt of a context at this context cycle: an open body is abandoned and its BLK becomes the PC
(R209), results are captured with HLT = 1, its blocks stop (R393) and its engine commands too (R396). A kernel cycle that has been counted
but whose rows are still to issue does not take place, and is the first one after resumption (R412). -/
def State.haltCtx (s : State) (c : Nat) (run : Run) : State :=
  let x := s.ctx c
  let keys := s.keysOf c
  let pc := match x.body with | some b => b.pc | none => x.pc
  let s := (((s.undoHold c).abandonBody c).haltCmds c).leaveQueue c
  let x := ({ s.ctx c with pc := pc, hold := none, bubble := false, mark := none, markDone := false }.landPops.capture true)
  let s := (s.setCtx c { x with run := run, haltReq := none, tauH := s.tau c }).uncount keys
  (s.runsOf c).foldl (State.stopRun true) s

/-- A nested fault: nothing of the trap registers is written, the context halts, and firmware is told (R391). -/
def State.nestedFault (s : State) (c : Nat) (cause : Nat) : State :=
  let s := s.haltCtx c (.halted (.nested (BitVec.ofNat 8 cause)))
  { s with fw := s.fw ++ [.nested c (BitVec.ofNat 8 cause)] }

/-- TAKING A TRAP (R390): the results in flight are captured, TCAUSE, TVAL, TPC and the loop stack are saved, HND is set and
the pc goes to TVEC, which is checked. With HND already set, the fault is nested (R391). `tpc` is where RFT resumes. An LSSk at or
above the saved depth takes an empty entry, the model's choice (DESIGN CHOICE, log 51). -/
def State.enterTrap (s : State) (c : Nat) (cause tval tpc : Nat) : State :=
  let x := s.ctx c
  if x.hnd then s.nestedFault c cause
  else
    let s := ((s.undoHold c).abandonBody c).leaveQueue c
    let x := (s.ctx c).capture false
    let g := fun n => x.ls.getD n {}
    let x := { x with tcode := BitVec.ofNat 8 cause, slsd := BitVec.ofNat 3 x.ls.length, tval := BitVec.ofNat 64 tval,
                      tpc := BitVec.ofNat 56 tpc, lss0 := g 0, lss1 := g 1, lss2 := g 2, lss3 := g 3, ls := [],
                      hnd := true, pc := x.tvec, hold := none, bubble := false, mark := none, markDone := false }
    match x.badTarget x.tvec.toNat with
    | some k => (s.setCtx c x).nestedFault c k
    | none => s.setCtx c (x.endCycle .other)

/-- Where RFT resumes after a fault of the current instruction: itself, or the BLK of the open body (R209, R390). -/
def Ctx.faultPc (x : Ctx) : Nat := match x.body with | some b => b.pc.toNat | none => x.pc.toNat

/-- The current instruction faults: it has no other effect (R390). -/
def State.trap (s : State) (cause tval : Nat) : Out := .next (s.enterTrap s.cur cause tval s.self.faultPc)

/-- The loop stack that RFT restores; a depth above 4 is taken as 4 (R33). -/
def Ctx.savedLoops (x : Ctx) : List LoopEntry := [x.lss0, x.lss1, x.lss2, x.lss3].take (min 4 x.slsd.toNat)

/-- RETURN FROM THE HANDLER (R135): the loop stack comes back, HND clears, the pc becomes TPC, captured results of the trap
count down from the next context cycle, and stopped blocks run on (R38, R178). Corrupt data whose fault gave way to a block fault
strike now (R179, R392). A TPC that fails its check is a nested fault that changes nothing. -/
def State.returnTrap (s : State) (c : Nat) : State :=
  let x := s.ctx c
  match x.badTarget x.tpc.toNat with
  | some k => s.nestedFault c k
  | none =>
    let x := { x with hnd := false, ls := x.savedLoops, pc := x.tpc, hold := none, struck := x.struck.orElse fun _ => x.struckLate,
                      struckLate := none }
    let s := (s.setCtx c ((x.startReplays (x.cyc + 1) false).endCycle .issue)).resumeChains c
    ((s.runsOf c).foldl (State.resumeRun false) s).replayGone c false

/-! ### Agents' fresh identifiers, the agenda, and events to firmware -/

def State.emit (s : State) (e : FwEvent) : State := { s with fw := s.fw ++ [e] }
/-- A free value of the model (log 6). -/
def State.freshBytes (s : State) : List Byte := Config.freeBytes s.freeCtr
def State.freshNat (s : State) : Nat := Config.freeNat s.freeCtr
def State.takeFree (s : State) : State := { s with freeCtr := s.freeCtr + 1 }

end Sys2Proof.Machine
end

