-- ==== Sys2Proof/Machine/ErrLog.lean ====
section
/-! DEFINITION. Context identifiers, the codes that protect data, error logs and injection (R418, R422, R424, R425). -/

namespace Sys2Proof.Machine

/-! ### Error logs (R418, R424, R425) -/

/-- A CID of a partition (R418). -/
def cidOf (pid : BitVec 8) : BitVec 16 := Config.cidCheck pid ++ pid
/-- Whether a CID is corrupt (R418). -/
def State.cidBad (s : State) (cid : BitVec 16) : Bool :=
  cid.getLsbD 7 || cid.extractLsb' 8 8 != Config.cidCheck (cid.extractLsb' 0 8)
    || !(Kv.get {} s.parts (cid.extractLsb' 0 7).toNat : Part).v

/-- The array that holds an address (R424). -/
def arrayOf (a : Nat) : Nat :=
  if a < 0x8000000000 then a / 2 ^ 36
  else if a < 0x8040000000 then 8 + (a - 0x8000000000) / Config.reservoirSize
  else if a < 2 ^ 49 then 16 + (a - 2 ^ 48) / Config.nodeSize
  else 1024 + (a - 2 ^ 49) / Config.fieldSize
def arrayPrivate (pid : Nat) (bank : Bool) : Nat := (if bank then 2176 else 2048) + pid
def arrayTables (pid : Nat) : Nat := 3072 + pid
def unitNumber : SharedUnit → Nat
  | .generator => 0 | .sieve => 1 | .merge => 2 | .sluice => 3 | .lineBuffer => 4 | .linkQueue => 5 | .hbmQueue => 6 | .launchQueue => 7
def arrayShared (u : SharedUnit) (die : Nat) : Nat := 4096 + 8 * unitNumber u + die
def arrayLink (link : BitVec 5) : Nat := 8192 + link.toNat
/-- The die-to-die links of a die (R422). -/
def arrayRing (die : Nat) : Nat := 8256 + die
/-- Whether an array holds state that belongs to a partition's fields, whose entries name the owning PID (R419, R424). -/
def ownedArray (n : Nat) : Bool := decide (16 ≤ n) && decide (n < 3072)
/-- The field whose memory an array is, if it is a field's. -/
def fieldOfArray (n : Nat) : Option Nat :=
  if 16 ≤ n ∧ n < 784 then some ((n - 16) / 16) else if 1024 ≤ n ∧ n < 1072 then some (n - 1024) else none

def State.err (s : State) (n : Nat) : ErrArray := Kv.get {} s.errs n
def State.setErr (s : State) (n : Nat) (x : ErrArray) : State := { s with errs := Kv.set {} s.errs n x }

/-- Entries of a log ring (R424). -/
def logEntries : Nat := 16
/-- The place that the next entry of a log takes, if one is free. -/
def ErrArray.place (x : ErrArray) : Option Nat :=
  match x.log.findIdx? fun f => !f.valid with
  | some i => some i
  | none => if x.log.length < logEntries then some x.log.length else none
/-- An entry takes the first free place of a log; a full ring counts it as lost. -/
def ErrArray.add (x : ErrArray) (e : LogEntry) : ErrArray :=
  match x.place with
  | some i => { x with log := if i < x.log.length then x.log.set i e else x.log ++ [e] }
  | none => { x with lost := x.lost + 1 }

/-- Logs an error; its syndrome is a free value. An array of private state names the owning PID and no CID (R424). -/
def State.logError (s : State) (array die : Nat) (addr : BitVec 48) (cid : BitVec 16) (kind code : BitVec 4) (inj : Bool) : State :=
  let e : LogEntry := ⟨addr, if ownedArray array then cid &&& 0x7F else cid, BitVec.ofNat 16 s.freshNat, kind, code, inj, true, (s.tide (96 * die)).setWidth 32⟩
  s.takeFree.setErr array ((s.err array).add e)

/-- KIND of the log entry for an event whose KIND R424 does not give: a free value (log 6). -/
def State.anyKind (s : State) : BitVec 4 := BitVec.ofNat 4 s.freshNat

/-- A request to another device is not performed, which both devices log (R468). -/
def State.logRequest (s : State) (die p : Nat) (cid : BitVec 16) : State :=
  s.logError (arrayShared .linkQueue die) die (BitVec.ofNat 48 p) cid s.anyKind 4 false

/-! ### The codes that protect data (R422) -/

/-- The domains of R422; R422 names no code for extent tables, delay lines, latches, control entries and edge-strip units: the model takes
parity for a partition's private registers and SECDED for the rest (DEDUCED, log 66). -/
inductive CodeDomain where
  | symbols | secded | parity | ucie | flit
  deriving DecidableEq, Repr
def CodeDomain.code : CodeDomain → BitVec 4
  | .symbols => 0 | .secded => 1 | .parity => 2 | .ucie => 3 | .flit => 4
/-- The domain of an array. -/
def arrayDomain (n : Nat) : CodeDomain :=
  if n < 8 then .symbols else if 2048 ≤ n ∧ n < 2176 then .parity else if 8256 ≤ n then .ucie else if 8192 ≤ n then .flit else .secded

/-- What the check of a code makes of wrong units, symbols in HBM and bits elsewhere: it corrects them, by retry on a link; it detects
them; or nothing is promised. -/
inductive Verdict where
  | corrected | detected | missed
  deriving DecidableEq, Repr
def CodeDomain.verdict (d : CodeDomain) (wrong : Nat) : Verdict :=
  match d with
  | .symbols => if wrong ≤ 1 then .corrected else if wrong = 2 then .detected else .missed
  | .secded => if wrong ≤ 1 then .corrected else if wrong = 2 then .detected else .missed
  | .parity => if wrong = 0 then .corrected else if wrong = 1 then .detected else .missed
  | .ucie => .corrected
  | .flit => .corrected

/-- Data on the other side of a boundary between domains, and their poison mark there (R422): the new code covers them as received, unless
the old check has corrected them; what it cannot correct is marked. -/
def crossing (v : Verdict) (received fixed : List Byte) (mark : Bool) : List Byte × Bool :=
  match v with
  | .corrected => (fixed, mark)
  | .detected => (received, true)
  | .missed => (received, mark)

/-- The code of the domain that an array lies in (R422, R424). -/
def arrayCode (n : Nat) : BitVec 4 := (arrayDomain n).code
/-- The die of an array. -/
def arrayDie (n : Nat) : Nat := match fieldOfArray n with | some f => f / 6 | none => n % 8

/-- Poisoned bytes have been read: the log of their array records the consumption (R392, R424). -/
def State.logPoison (s : State) (p : Nat) (cid : BitVec 16) : State :=
  s.logError (arrayOf p) (arrayDie (arrayOf p)) (BitVec.ofNat 48 p) cid 2 (arrayCode (arrayOf p)) false

/-! ### Injection (R425) -/

/-- The fields of EINJ. -/
def einjWhat (v : BitVec 64) : Nat := (v.extractLsb' 1 2).toNat
def einjB1 (v : BitVec 64) : Nat := (v.extractLsb' 3 8).toNat
def einjB2 (v : BitVec 64) : Nat := (v.extractLsb' 11 8).toNat
def einjMatch (v : BitVec 64) : Nat := (v.extractLsb' 20 44).toNat

def State.disarm (s : State) (array : Nat) : State :=
  let x := s.err array
  s.setErr array { x with einj := x.einj &&& ~~~1 }

/-- Wrong units that an EINJ makes in one code word of its array: two bits of one symbol are one wrong symbol. -/
def einjWrong (d : CodeDomain) (v : BitVec 64) : Nat :=
  match d with
  | .symbols => if einjB1 v / 8 = einjB2 v / 8 then 1 else 2
  | _ => if einjB1 v = einjB2 v then 1 else 2

/-- A bit of some bytes inverted. -/
def flipBit (bs : List Byte) (k : Nat) : List Byte := bs.modify (k / 8) fun b => b ^^^ BitVec.ofNat 8 (2 ^ (k % 8))

/-- A write of `n` bytes at `p` meets an armed EINJ whose MATCH names one of its 16-byte units (R425): the injection is made and ARM
clears. The error is found as a real one of its pattern would be (R419, R422): one that the code corrects leaves the data and is logged,
one that it detects poisons its code word, a sector of 32 bytes in HBM and 8 bytes elsewhere: the one in which the matching bytes of the
write begin. Memory carries no CID, and WHAT = 3
is reserved: both invert nothing (log 67). -/
def State.inject (s : State) (cid : BitVec 16) (p n : Nat) : State :=
  let k := arrayOf p
  let v := (s.err k).einj
  let m := einjMatch v
  if n = 0 ∨ v.getLsbD 0 = false ∨ m < p / 16 % 2 ^ 44 ∨ (p + n - 1) / 16 % 2 ^ 44 < m then s
  else
    let s := s.disarm k
    if 2 ≤ einjWhat v then s
    else
      let d := arrayDomain k
      let w := if d = .symbols then 32 else 8
      let a := max p (p / 2 ^ 48 * 2 ^ 48 + 16 * m) / w * w
      let right := s.readBytes a w
      let wrong := if einjWhat v = 1 then right
        else if einjB1 v = einjB2 v then flipBit right (einjB1 v % (8 * w)) else flipBit (flipBit right (einjB1 v % (8 * w))) (einjB2 v % (8 * w))
      let verdict := d.verdict (einjWrong d v)
      let (bs, bad) := crossing verdict wrong right false
      let s := s.logError k (arrayDie k) (BitVec.ofNat 48 a) cid (if bad then 1 else 0) (arrayCode k) true
      if bad then (s.writeBytes a bs).poisonBytes a w else s

/-- A write of `n` bytes from an index on into an array of die or partition structures meets an armed EINJ (R425): the error is made as one
of its pattern, with an inverted bit of the CID's check code if WHAT = 2, and acts as an event in the same cycle (R419). -/
def State.injectIndex (s : State) (array i n : Nat) (cid : BitVec 16) (x : Nat → BitVec 16 → Struck) : State :=
  let v := (s.err array).einj
  let m := einjMatch v
  if n = 0 ∨ v.getLsbD 0 = false ∨ m < i / 16 % 2 ^ 44 ∨ (i + n - 1) / 16 % 2 ^ 44 < m then s
  else
    let bad := einjWhat v == 2 || (arrayDomain array).verdict (einjWrong (arrayDomain array) v) == .detected
    let y := x (16 * m) (if einjWhat v = 2 then cid ^^^ 0x0100 else cid)
    { s with agenda := s.agenda ++ [if bad then .uncorrectableError y true else .correctableError y 1 true] }

/-- An injected error that is no write to memory needs an armed register whose MATCH names the place, and a pattern that gives the error:
one that the code corrects or not, or a corrupt CID (R425). -/
def State.injectable (s : State) (array addr : Nat) (want : Verdict) (cid : Bool) : Bool :=
  let v := (s.err array).einj
  v.getLsbD 0 && decide (einjMatch v = addr / 16 % 2 ^ 44)
    && (if cid then einjWhat v == 2 else decide (einjWhat v < 2) && (arrayDomain array).verdict (einjWrong (arrayDomain array) v) == want)

end Sys2Proof.Machine
end

