-- ==== Sys2Proof/Machine/Flits.lean ====
section
/-! DEFINITION. Flits and how they leave on a device link (R320, R464 to R467). -/

namespace Sys2Proof.Machine

/-! ### Flits (R464, R465) -/

/-- CRC-32 of R464: reflected, polynomial 0x04C11DB7. -/
def flitCrcBits : Nat → Nat → Nat
  | 0, c => c
  | n + 1, c => flitCrcBits n (if c % 2 = 1 then (c / 2) ^^^ 0xEDB88320 else c / 2)
def flitCrc (bs : List Byte) : BitVec 32 :=
  BitVec.ofNat 32 (bs.foldl (fun c b => flitCrcBits 8 (c ^^^ b.toNat)) 0xFFFFFFFF ^^^ 0xFFFFFFFF)

/-- The reserved bits of a flit as they stand in bytes 3, 5, 7 and 11. -/
def flitReserved (f : Flit) : Nat × Nat × Nat × Nat :=
  (f.rsv.toNat % 256 / 128 * 128, f.rsv.toNat / 256 % 256 / 16 * 16, f.rsv.toNat / 65536 % 256 / 16 * 16, f.rsv.toNat / 2 ^ 24)

/-- Bytes 0 to 251 of a flit (R464). -/
def flitBytes (f : Flit) : List Byte :=
  let (r3, r5, r7, r11) := flitReserved f
  natLe 2 (f.seq.toNat + 4096 * f.type.toNat) ++ natLe 2 (f.ack.toNat + (if f.nak then 4096 else 0) + 8192 * f.vc.toNat + 256 * r3)
    ++ natLe 2 (f.dst.toNat + 256 * r5) ++ natLe 2 (f.src.toNat + 256 * r7) ++ natLe 2 f.tenant.toNat
    ++ natLe 1 f.payload.length ++ natLe 1 r11 ++ (f.payload ++ List.replicate 240 0).take 240

/-- Whether a receiver takes a flit as undamaged: its CRC, its reserved bits and its TYPE. -/
def flitWhole (f : Flit) : Bool :=
  f.crc == flitCrc (flitBytes f) && flitReserved f == (0, 0, 0, 0) && decide (f.type.toNat ≤ 5) && decide (f.payload.length ≤ 240)

def flitRequest : BitVec 4 := 1
def flitResponse : BitVec 4 := 2
def flitCollective : BitVec 4 := 3
def flitControl : BitVec 4 := 4
def flitWolas : BitVec 4 := 5

/-- The Wolas port among the links (R477). -/
def wolasPort : BitVec 5 := 16

def State.link (s : State) (link : BitVec 5) : Link := Kv.get {} s.links link.toNat
def State.setLink (s : State) (link : BitVec 5) (l : Link) : State := { s with links := Kv.set {} s.links link.toNat l }

/-- Flits that a sender keeps (R465), and how often one is resent before the link goes down. -/
def replayDepth : Nat := 512
def maxResends : Nat := 16

/-- Sends a flit on a link under its next SEQ, and keeps it. -/
def State.sendFlit (s : State) (link : BitVec 5) (f : Flit) : State :=
  let l := s.link link
  if l.up then
    let f := { f with seq := l.txSeq, ack := l.rxSeq, rsv := 0 }
    let f := { f with crc := flitCrc (flitBytes f) }
    let all := l.replay ++ [f]
    { s.setLink link { l with txSeq := l.txSeq + 1, replay := all.drop (all.length - replayDepth) } with sent := s.sent ++ [(link, f)] }
  else s

/-- A flit of a type and virtual channel, with no fields of the link filled in. -/
def flitOf (type : BitVec 4) (vc : BitVec 2) (dst src : BitVec 12) (tenant : BitVec 16) (payload : List Byte) : Flit :=
  ⟨0, type, 0, false, vc, dst, src, tenant, payload, 0, 0⟩

/-- The link that an M-die uses for a device (R466). -/
def State.linkTo (s : State) (mdie dev : Nat) : Option (BitVec 5) :=
  match Kv.get 0 s.routes (4096 * mdie + dev) with
  | 0 => none
  | n + 1 => some (BitVec.ofNat 5 n)

/-- What a request asks of the owner (R320, R467): a line; a store of bytes; an AMO by its number, with its ordering and its flush bits, and
the task that asks; a CAS; an update of a completion object; that a task has exited (R462). -/
inductive Ask where
  | load | store | amo (op : Nat) (fin fres ord : Bool) (task : BitVec 32) | cas | update | taskExit (task : BitVec 32)
  deriving DecidableEq, Repr
/-- Its eight bytes: the operation, the number of an AMO, its bits, and a task. -/
def Ask.bytes : Ask → List Byte
  | .load => natLe 8 0
  | .store => natLe 8 1
  | .amo op fin fres ord task => [2] ++ natLe 1 op ++ natLe 2 ((if fin then 1 else 0) + (if fres then 2 else 0) + (if ord then 4 else 0)) ++ natLe 4 task.toNat
  | .cas => natLe 8 3
  | .update => natLe 8 4
  | .taskExit task => natLe 4 5 ++ natLe 4 task.toNat

/-- What a request flit says of an access: what it asks, the physical address, its size, and the bytes that it brings (log 34). -/
def requestBytes (ask : Ask) (pa n : Nat) (data : List Byte) : List Byte := ask.bytes ++ natLe 6 pa ++ natLe 2 n ++ data
/-- A request for the aligned line that holds an address (R320). -/
def lineRequest (pa : Nat) : List Byte := requestBytes .load (pa / 128 * 128) 128 []

/-- Whether the link that an M-die uses for a device is up. -/
def State.linkReady (s : State) (mdie dev : Nat) : Bool := match s.linkTo mdie dev with | some l => (s.link l).up | none => false

/-- A request to another device leaves over the M-die's link for it (R320, R467); with no link nothing leaves (R468). -/
def State.forward (s : State) (mdie dev : Nat) (tenant : BitVec 16) (payload : List Byte) : State :=
  match s.linkTo mdie dev with
  | some link => s.sendFlit link (flitOf flitRequest 0 (BitVec.ofNat 12 dev) s.ownDev tenant payload)
  | none => s

end Sys2Proof.Machine
end

