-- ==== Sys2Proof/Machine/Access.lean ====
section
/-! DEFINITION. Accesses to reservoir space and device virtual memory: their checks (R114), translation (R311, R319), order
(R333), and what performing one does (R115 to R121, R322 to R326, R392, R428, R429, R462). -/

namespace Sys2Proof.Machine

/-! ### Reading memory (R428) -/

/-- A byte of this device's memory as any reader gets it: a line whose scrub bit is set reads as zero (R428). -/
def State.peek (s : State) (p : Nat) : Byte := if Kv.get false s.scrub (p / 128) then 0 else s.readByte p
def State.peeks (s : State) : Nat → Nat → List Byte
  | _, 0 => []
  | p, n + 1 => s.peek p :: s.peeks (p + 1) n
def State.peekNat (s : State) (p n : Nat) : Nat := leNat (s.peeks p n)

/-- A line whose scrub bit is set is zeroed, and the bit clears (R428). -/
def State.scrubOne (s : State) (line : Nat) : State :=
  if Kv.get false s.scrub line then { s.wipe (line * 128) 128 with scrub := Kv.set false s.scrub line false } else s
def State.scrubLines (s : State) (line : Nat) : Nat → State
  | 0 => s
  | n + 1 => (s.scrubOne line).scrubLines (line + 1) n
/-- The scrub rule for the lines of an access (R428). -/
def State.scrubFor (s : State) (p n : Nat) : State := s.scrubLines (p / 128) ((p + n - 1) / 128 - p / 128 + 1)

/-! ### Translation (R307, R311, R319) -/

/-- An `n`-bit number rotated left by `k` (R311). -/
def rotl (n v k : Nat) : Nat := (v * 2 ^ (k % n) + v / 2 ^ (n - k % n)) % 2 ^ n

/-- Eight bits reversed. -/
def rev8 (v : Nat) : Nat :=
  (List.range 8).foldl (fun a i => a + (if v.testBit i then 2 ^ (7 - i) else 0)) 0

/-- The device address under a swizzle: bits [15:8] of the physical address are replaced (R311). -/
def swizzle (swz : Nat) (p : Nat) : Nat :=
  let u := bitsN p 8 8
  let u' := if swz = 0 then u
    else if swz ≤ 7 then (u / 16) * 16 + (u % 16) ^^^ rotl 4 (u / 16) (swz - 1)
    else if swz ≤ 14 then rotl 8 u (swz - 7)
    else rev8 u
  p / 65536 * 65536 + u' % 256 * 256 + p % 256

/-- The extent of an instance that holds a virtual address (R319). -/
def Ctx.extentOf (x : Ctx) (a : Nat) : Option Extent := x.ext.find? fun e => decide (e.vbase ≤ a) && decide (a < e.vend)

/-- The run of an extent that holds a granule (R319). -/
def Extent.runOf (e : Extent) (gi : Nat) : Option XRun := e.runs.find? fun r => decide (r.voff ≤ gi) && decide (gi < r.voff + r.len)

/-- Where a byte of a run lies, by its granule in the extent and its offset in the granule (R319). -/
def XRun.locAt (r : XRun) (gi off : Nat) : Loc :=
  ⟨r.dev, swizzle r.swz.toNat (r.pa + (gi - r.voff) * 65536 + off), r.rep, r.prim⟩

/-- Where a virtual address of an extent lies (R319). A store to a replicated page goes to its primary (R318, R323). -/
def Extent.locOf (e : Extent) (a : Nat) : Loc :=
  let gi := (a - e.vbase) / 65536
  match e.runOf gi with
  | some r => r.locAt gi (a % 65536)
  | none => ⟨0, 0, false, 0⟩

/-- The partition record of a context (R416). -/
def State.part (s : State) (pid : Nat) : Part := Kv.get {} s.parts pid
/-- Size of the reservoir space of a context (R307). -/
def State.resSize (s : State) (x : Ctx) : Nat := (s.part x.pid).z
/-- The physical address of unit `u` of a partition's reservoir space: its map at RMAP holds four bytes a unit, the number of the 2 MiB
unit among those of all reservoirs (R307, R416; the form of an entry is a DESIGN CHOICE, log 62). -/
def State.resUnit (s : State) (p : Part) (u : Nat) : Nat :=
  reservoirBase 0 + s.peekNat (p.rmap + 4 * u) 4 % (8 * Config.reservoirSize / 0x200000) * 0x200000
/-- The map entry of a reservoir address is read, under the scrub rule (R307, R428). -/
def State.touchMap (s : State) (p : Part) (a : Nat) : State := s.scrubFor (p.rmap + 4 * (a / 0x200000)) 4
/-- Where a reservoir address lies: the unit the partition's map gives it (R307). -/
def State.resLoc (s : State) (x : Ctx) (a : Nat) : Loc :=
  ⟨s.ownDev.toNat, s.resUnit (s.part x.pid) (a / 0x200000) + a % 0x200000, false, 0⟩

/-- Where an address that has passed its checks lies. -/
def State.locate (s : State) (x : Ctx) (virt : Bool) (a : Nat) : Loc :=
  if virt then
    match x.extentOf a with
    | some e => e.locOf a
    | none => ⟨0, 0, false, 0⟩
  else s.resLoc x a

/-- The stack bits of a physical address replaced (R318). -/
def atStack (p k : Nat) : Nat := p / 2 ^ 39 * 2 ^ 39 + k * 2 ^ 36 + p % 2 ^ 36
/-- The location whose owner performs writes: the primary replica of a replicated page (R323). -/
def Loc.owner (l : Loc) : Loc := if l.rep then { l with pa := atStack l.pa l.prim } else l

/-- The checks of R114 for an access of `n` bytes. -/
def State.accessFault (s : State) (x : Ctx) (virt store : Bool) (a n : Nat) : Option Nat :=
  if a % n ≠ 0 then some 0x0A
  else if virt then
    match (if a < 2 ^ 56 then x.extentOf a else none) with
    | none => some 0x09
    | some e => if store && !e.w then some 0x09 else none
  else if s.resSize x ≤ a then some 0x09 else none

/-! ### Order (R123, R333) -/

/-- What an access reads and writes, for the kinds that FENCE names (R123). -/
def AccKind.loads : AccKind → Bool
  | .store _ => false | .occ _ => false | _ => true
def AccKind.stores : AccKind → Bool
  | .store _ => true | .amo .. => true | .cas .. => true | .occ _ => true | _ => false

/-- Whether two accesses touch a byte in common (R333, location). -/
def Acc.overlaps (b : Acc) (l : Loc) (n : Nat) : Bool :=
  let l := l.owner
  let m := b.loc.owner
  m.dev == l.dev && decide (m.pa < l.pa + n) && decide (l.pa < m.pa + b.n)

/-- The accesses and commands that a new access of context `c` comes after: its stream, overlapping bytes, acquire
accesses, and for a release every earlier access (R333); what fences and barriers hold back is kept in the context. -/
def State.depsOf (s : State) (c : Nat) (g : GStream) (rel : Bool) (l : Loc) (n : Nat) (stores : Bool) : List Nat :=
  let mine := s.accs.filter fun b => b.ctx == c
  let x := s.ctx c
  ((mine.filter fun b => rel || b.stream == g || b.acq || b.overlaps l n).map (·.id)) ++ x.heldAll
    ++ (if stores then x.heldStores else [])

/-- Whether everything that must come before has been performed. -/
def State.free (s : State) (deps : List Nat) : Bool :=
  deps.all fun d => s.accs.all (fun a => a.id != d) && s.cmds.all fun k => k.id != d

/-- An access named in a landing register clears both bits and sets pending (R26). -/
def Ctx.await (x : Ctx) (ln : Option LReg) (id : Nat) : Ctx :=
  match ln with
  | some n => x.setLanding n { pending := true, acc := id }
  | none => x

/-- Issues an access of the issuing context: it joins the accesses under way, and its landing register waits for it. The
caller goes on with the context `x`. -/
def State.issue (s : State) (x : Ctx) (kind : AccKind) (virt : Bool) (a n : Nat) (g : GStream) (acq rel : Bool)
    (ln : Option LReg) : State × Ctx :=
  let id := s.nextId
  let l := s.locate x virt a
  let acc : Acc := { id := id, ctx := s.cur, kind := kind, addr := BitVec.ofNat 64 a, n := n, virt := virt, loc := l,
                     stream := g, acq := acq, rel := rel, ln := ln,
                     deps := s.depsOf s.cur g rel l n kind.stores, ready := s.cycle + s.nextLatency,
                     locked := [], committed := false, bytes := [], got := [], bad := false, sent := false, issued := s.cycle,
                     cid := cidOf (BitVec.ofNat 8 x.pid) }
  ({ s with nextId := id + 1, accs := s.accs ++ [acc] }.takeLatency, x.await ln id)

/-! ### What the memory side does at an access -/

/-- The stack of a physical address, or none outside HBM (R309). -/
def stackOf (p : Nat) : Option Nat := if p < 0x8000000000 then some (p / 2 ^ 36) else none

/-- Counts the lines of a request in HOME or AWAY of their granule (R322). -/
def State.countAccess (s : State) (die p n : Nat) : State :=
  match stackOf p with
  | none => s
  | some k =>
    let g := p / 65536
    let lines := (p + n - 1) / 128 - p / 128 + 1
    if k = die then { s with home := Kv.set 0 s.home g (min 0xFFFF (Kv.get 0 s.home g + lines)) }
    else { s with away := Kv.set 0 s.away g (min 0xFFFF (Kv.get 0 s.away g + lines)) }

/-- The dirty bit of a granule, under the partition whose page it is (R429). -/
def dirtyKey (pid g : Nat) : Nat := 2 ^ 32 * pid + g

/-- Records a write in the dirty-page log of a partition (R429): the first write to a granule sets its bit and appends its
address, or sets OVF when the ring is full. -/
def State.markDirty (s : State) (pid p : Nat) : State :=
  let part := s.part pid
  let g := p / 65536
  let key := dirtyKey pid g
  if !part.dlog || (stackOf p).isNone || Kv.get false s.dirty key then s
  else
    let s := { s with dirty := Kv.set false s.dirty key true }
    let s := s.scrubFor part.dlogp 64
    let cap := s.readNat (part.dlogp + 8) 4
    let widx := s.readNat (part.dlogp + 12) 4
    if cap ≤ widx then s.writeNat (part.dlogp + 16) 1 (s.readNat (part.dlogp + 16) 1 ||| 1)
    else
      let at' := s.readNat part.dlogp 8 + 8 * widx
      ((s.scrubFor at' 8).writeNat at' 8 (g * 65536)).writeNat (part.dlogp + 12) 4 (widx + 1)

/-- A write closes the exact sums of ordered fadds that it overlaps (R462). -/
def State.closeFadds (s : State) (p n : Nat) : State :=
  { s with fadds := s.fadds.filter fun f => !(decide (f.pa < p + n) && decide (p < f.pa + 4)) }

/-- A write to this device's memory: scrub, exact sums and the bytes. -/
def State.plainWrite (s : State) (p : Nat) (bs : List Byte) : State :=
  ((s.scrubFor p bs.length).closeFadds p bs.length).writeBytes p bs

/-- The same for a partition, meeting an armed injection (R425). -/
def State.putWrite (s : State) (pid p : Nat) (bs : List Byte) : State :=
  (s.plainWrite p bs).inject (cidOf (BitVec.ofNat 8 pid)) p bs.length

/-- A write at its owner, which records it in the dirty-page log (R429). -/
def State.memWrite (s : State) (pid p : Nat) (bs : List Byte) : State := (s.markDirty pid p).putWrite pid p bs

/-- A write at a location of this device; a replicated page takes it in all eight stacks and counts it at its primary (R323,
R429). -/
def State.writeLoc (s : State) (pid : Nat) (l : Loc) (bs : List Byte) : State :=
  if l.rep then (List.range 8).foldl (fun s k => s.putWrite pid (atStack l.pa k) bs) (s.markDirty pid l.owner.pa)
  else s.memWrite pid l.pa bs

/-- Whether an M-die has a link for traffic to a device (R466). Entries hold the link plus 1. -/
def State.reaches (s : State) (mdie dev : Nat) : Bool := dev == s.ownDev.toNat || Kv.get 0 s.routes (4096 * mdie + dev) != 0

/-! ### Values and landing -/

/-- `n` bytes sign- or zero-extended to 64 bits. -/
def extend (zx : Bool) (v n : Nat) : Word := if zx then BitVec.ofNat 64 v else BitVec.ofInt 64 (sextN v (8 * n))

/-! ### Shape and metadata registers (R125, R257) -/

def Ctx.shape (x : Ctx) (h : HReg) : Nat := Kv.get 0 x.h h.toNat
/-- Bits [483:480] read as 0 (R125). -/
def shapeMask (v : Nat) : Nat := v % 2 ^ 480 + v / 2 ^ 484 % 2 ^ 28 * 2 ^ 484
def Ctx.setShape (x : Ctx) (h : HReg) (v : Nat) : Ctx := { x with h := Kv.set 0 x.h h.toNat (shapeMask v) }
/-- A metadata register changes in fabric cycle `c`: rows of the cycle still read what it held before (R257). -/
def Meta.change (m : Meta) (c : Nat) (new : Meta) : Meta :=
  { new with was := match m.was with
      | some (d, v, ok) => if d = c then some (d, v, ok) else some (c, m.v, m.valid)
      | none => some (c, m.v, m.valid) }
def metaKey (pan m : Nat) : Nat := 16 * pan + m

/-- Lands a value in the register that awaits access `id` (R26, R27). -/
def State.landIn (s : State) (c : Nat) (ln : Option LReg) (id : Nat) (v : Word) (poison : Option Word) : State :=
  match ln with
  | none => s
  | some n =>
    let x := s.ctx c
    let l := x.landing n
    if l.pending && l.acc == id then
      s.setCtx c (x.setLanding n { val := v, full := true, pending := false, poison := poison, acc := 0 })
    else s

/-- The reader's copy of a location: its own home stack for a replicated page (R318, R323). -/
def Loc.forReader (l : Loc) (die : Nat) : Loc := if l.rep then { l with pa := atStack l.pa die } else l

/-- An access is done: it leaves the list. -/
def State.dropAcc (s : State) (id : Nat) : State := { s with accs := s.accs.filter fun a => a.id != id }

def State.acc (s : State) (id : Nat) : Option Acc := s.accs.find? fun a => a.id == id

/-- Whether an access may be performed now: its time has come and everything before it in the order has been performed. -/
def State.accReady (s : State) (a : Acc) : Bool := decide (a.ready ≤ s.cycle) && s.free a.deps

/-- Whether the line of an address is locked for some committed access (R323, R324). -/
def State.lineLocked (s : State) (die p n : Nat) : Bool :=
  s.accs.any fun a => a.committed && a.locked.contains die
    && decide ((atStack a.loc.pa die) / 128 ≤ (p + n - 1) / 128) && decide (p / 128 ≤ (atStack a.loc.pa die + a.n - 1) / 128)

/-- What an access lands when it is performed (of two MDLDs of one metadata register under way with different landing registers only the later
one's data stand in the register, the model's choice: DESIGN CHOICE, log 70): its own value, a copy in a shape or metadata register and 0, or 0 as a store's
acknowledgement (R26, R115, R119, R127). -/
def State.arrive (s : State) (a : Acc) (bs : List Byte) (bad : Bool) : State :=
  let poison := if bad then some a.addr else none
  let n := a.n
  match a.kind with
  | .load zx => s.landIn a.ctx a.ln a.id (extend zx (leNat bs) n) poison
  | .inv zx => s.landIn a.ctx a.ln a.id (extend zx (leNat bs) n) poison
  | .store _ => s.landIn a.ctx a.ln a.id 0 none
  | .amo .. => s.landIn a.ctx a.ln a.id (extend false (leNat bs) n) poison
  | .cas .. => s.landIn a.ctx a.ln a.id (extend false (leNat bs) n) poison
  | .hload h =>
    let x := s.ctx a.ctx
    let s := if Kv.get 0 x.hpend h.toNat = a.id then
        s.setCtx a.ctx { x.setShape h (leNat bs) with hpend := Kv.set 0 x.hpend h.toNat 0 } else s
    s.landIn a.ctx a.ln a.id 0 poison
  | .mload m =>
    let key := metaKey (panOf a.ctx) m.toNat
    let o := Kv.get {} s.metas key
    let s := if o.acc = a.id then
        { s with metas := Kv.set {} s.metas key (o.change s.cycle { v := leNat bs, valid := true, acc := 0 }) } else s
    s.landIn a.ctx a.ln a.id 0 poison
  | .msg .. => s
  | .occ _ => s

/-! ### Writes to replicated pages (R318, R323, R324) -/

/-- The lines of a write are counted for an F-die, at each replica that it writes (R322); other agents' are not. -/
def State.countWrite (s : State) (die : Nat) (l : Loc) (n : Nat) : State :=
  if l.rep then (List.range 8).foldl (fun s k => s.countAccess die (atStack l.pa k) n) s else s.countAccess die l.pa n

/-- One replica takes the bytes of a committed write and unlocks the line (R323, step 4). -/
def State.unlockOne (s : State) (a : Acc) (k : Nat) : State :=
  let p := atStack a.loc.pa k
  if a.bytes = [] ∨ p = a.loc.owner.pa then s else (s.countAccess (dieOf (panOf a.ctx)) p a.n).putWrite (s.ctx a.ctx).pid p a.bytes

/-- A committed write is performed, and lands (R323, step 5). -/
def State.committedEnd (s : State) (a : Acc) : State := (s.arrive a a.got (a.bad && a.kind.loads)).dropAcc a.id

/-- The rest of a commit under way: every replica that is still locked takes the new bytes, and the access is performed. -/
def State.finishCommit (s : State) (a : Acc) : State := (a.locked.foldl (fun s k => s.unlockOne a k) s).committedEnd a

/-- Whether a committed access keeps a line of a place locked in some replica (R323). -/
def Acc.locks (a : Acc) (l : Loc) (n : Nat) : Bool :=
  let p := atStack a.loc.pa 0
  let q := atStack l.pa 0
  a.committed && a.locked != [] && a.loc.dev == l.dev && decide (q / 128 ≤ (p + a.n - 1) / 128) && decide (p / 128 ≤ (q + n - 1) / 128)

/-- An agent that meets a locked line is held until it is unlocked, and goes on with the new bytes (R323, R324). Where the model makes
a read or a write at one point, that hold is the rest of the commit, which ends before it. -/
def State.settleAt (s : State) (l : Loc) (n : Nat) : State := (s.accs.filter fun a => a.locks l n).foldl State.finishCommit s
/-- The same for reads of many places. -/
def State.settleAll (s : State) : State := (s.accs.filter fun a => a.committed && a.locked != []).foldl State.finishCommit s

/-! ### The byte budget of a field (R383) -/

/-- Bytes of HBM and reservoirs count against the budget of the context's field (R383). -/
def State.spend (s : State) (c sp n : Nat) : State :=
  if sp < 2 then s
  else
    let f := fieldOf (panOf c)
    { s with budgetUsed := Kv.set 0 s.budgetUsed f (Kv.get 0 s.budgetUsed f + n) }

/-! ### Elements of parts of bytes -/

/-- Of the `n` bytes that hold `w` bits from bit `sh` on, the ones that they cover only in part. -/
def partBytes (sh w n : Nat) : List Nat :=
  (List.range n).filter fun i => (i == 0 && sh != 0) || (i + 1 == n && (sh + w) % 8 != 0)
/-- Marks bytes as poisoned: part of a byte does not write it whole (R419). -/
def State.poisonEach (s : State) (ps : List Nat) : State := ps.foldl (fun s p => s.poisonBytes p 1) s
/-- Those of some bytes that are poisoned. -/
def State.poisonedOf (s : State) (ps : List Nat) : List Nat := ps.filter fun p => Kv.get false s.poison p

/-! ### Places on other devices (R320, R467) -/

/-- Whether the owner of a place on another device does not perform a request for it: its tenant tags say so, which this machine does not
see, so it is a free value (R468; log 18). -/
def State.refusedAfar (s : State) (l : Loc) : Bool :=
  l.dev != s.ownDev.toNat && Config.freeNat (s.freeCtr + 2 ^ 64 + l.pa / 65536) % 2 == 1

/-- The M-die that asks another device for a place on behalf of the configuration die: the one whose stack the place names (DEDUCED,
log 34). -/
def Loc.mdie (l : Loc) : Nat := bitsN l.pa 36 3

/-- A write at a location; one of another device leaves as a request, to the primary replica of its page (R320, R467). -/
def State.writeAt (s : State) (pid : Nat) (l : Loc) (bs : List Byte) : State :=
  if l.dev = s.ownDev.toNat then (s.settleAt l bs.length).writeLoc pid l bs
  else s.forward l.owner.mdie l.dev (s.part pid).tenant (requestBytes .store l.owner.pa bs.length bs)
/-- The line of a location of another device is asked for (R320, R467). -/
def State.askLine (s : State) (mdie : Nat) (tenant : BitVec 16) (l : Loc) : State :=
  s.forward mdie l.dev tenant (lineRequest l.owner.pa)
/-- A number read at a location: a line whose scrub bit is set reads as zero (R428), and another device's is a free value (log 18). -/
def State.readAt (s : State) (l : Loc) (n : Nat) : Nat :=
  if l.dev = s.ownDev.toNat then s.peekNat l.owner.pa n else Config.freeNat (s.freeCtr + l.pa) % 2 ^ (8 * n)

end Sys2Proof.Machine
end

