-- ==== Sys2Proof/Machine/Float.lean ====
section
/-! DEFINITION. Floating-point values, formats and rounding (R183 to R185, R190 to R195), and the operations of the
floating-point rows on exact values (R236 to R242). -/

namespace Sys2Proof.Machine

/-- A value: a NaN, an infinity, or ±m·2^e exactly; zero keeps its sign. -/
inductive Val where
  | nan
  | inf (neg : Bool)
  | fin (neg : Bool) (m : Nat) (e : Int)
  deriving DecidableEq, Repr

/-- Which special values a format has: infinities and NaNs (IEEE formats, BF16, E5M2), the one NaN of E4M3, or none (MX
elements) (R183, R184, R187). -/
inductive Specials where | ieee | e4m3 | none
  deriving DecidableEq, Repr

/-- A floating-point format (R183, R184, R187); `inBit` and `outBit` are its class's bits of MODEFP (R193). -/
structure FloatFmt where
  ebits : Nat
  mbits : Nat
  bias : Int
  sp : Specials
  inBit : Nat
  outBit : Nat
  deriving DecidableEq, Repr

def binary32 : FloatFmt := ⟨8, 23, 127, .ieee, 0, 1⟩
def binary16 : FloatFmt := ⟨5, 10, 15, .ieee, 2, 3⟩
def bfloat16 : FloatFmt := ⟨8, 7, 127, .ieee, 2, 3⟩
def fp8e4m3 : FloatFmt := ⟨4, 3, 7, .e4m3, 4, 5⟩
def fp8e5m2 : FloatFmt := ⟨5, 2, 15, .ieee, 4, 5⟩
def mxe2m3 : FloatFmt := ⟨2, 3, 1, .none, 4, 5⟩
def mxe3m2 : FloatFmt := ⟨3, 2, 3, .none, 4, 5⟩
def mxe2m1 : FloatFmt := ⟨2, 1, 1, .none, 4, 5⟩

def FloatFmt.width (f : FloatFmt) : Nat := 1 + f.ebits + f.mbits
/-- The code of the largest finite magnitude (R183, R184, R187). -/
def FloatFmt.maxCode (f : FloatFmt) : Nat :=
  match f.sp with
  | .ieee => (2 ^ f.ebits - 1) * 2 ^ f.mbits - 1
  | .e4m3 => 2 ^ (f.ebits + f.mbits) - 2
  | .none => 2 ^ (f.ebits + f.mbits) - 1
/-- The canonical NaN (R183, R184). -/
def FloatFmt.nanCode (f : FloatFmt) : Nat :=
  match f.sp with
  | .ieee => (2 ^ f.ebits - 1) * 2 ^ f.mbits + 2 ^ (f.mbits - 1)
  | .e4m3 => 2 ^ (f.ebits + f.mbits) - 1
  | .none => 0

def FloatFmt.expField (f : FloatFmt) (c : Nat) : Nat := bitsN c f.mbits f.ebits
def FloatFmt.frac (f : FloatFmt) (c : Nat) : Nat := bitsN c 0 f.mbits
def FloatFmt.sign (f : FloatFmt) (c : Nat) : Bool := c.testBit (f.ebits + f.mbits)

/-- A bit of MODEFP. -/
def modeBit (mode : BitVec 6) (k : Nat) : Bool := mode.getLsbD k

/-- Whether a code is a denormal of its format. -/
def FloatFmt.isDenormal (f : FloatFmt) (c : Nat) : Bool := f.expField c == 0 && f.frac c != 0

/-- The value of a code, without flushing (R183, R184, R187). -/
def FloatFmt.decodeRaw (f : FloatFmt) (c : Nat) : Val :=
  let ef := f.expField c
  let m := f.frac c
  let neg := f.sign c
  if ef = 2 ^ f.ebits - 1 ∧ f.sp = .ieee then (if m = 0 then .inf neg else .nan)
  else if ef = 2 ^ f.ebits - 1 ∧ f.sp = .e4m3 ∧ m = 2 ^ f.mbits - 1 then .nan
  else if ef = 0 then .fin neg m (1 - f.bias - f.mbits)
  else .fin neg (2 ^ f.mbits + m) (ef - f.bias - f.mbits)

/-- The value of an operand: a denormal reads as zero of its sign under the input bit of its class (R194). -/
def FloatFmt.decode (f : FloatFmt) (mode : BitVec 6) (c : Nat) : Val :=
  if modeBit mode f.inBit && f.isDenormal c then .fin (f.sign c) 0 0 else f.decodeRaw c

/-- ⌊log2⌋ of a positive value m·2^e. -/
def log2V (m : Nat) (e : Int) : Int := (Nat.log2 m : Int) + e

/-- `m / 2^k` rounded to an integer in a mode; `neg` is the sign of the value (R190). -/
def roundShift (rm : RM) (neg : Bool) (m k : Nat) : Nat :=
  let q := m / 2 ^ k
  let r := m % 2 ^ k
  let up := match rm with
    | .rne => decide (2 ^ k < 2 * r) || (2 * r == 2 ^ k && q % 2 == 1)
    | .rtz => false
    | .rup => !neg && r != 0
    | .rdn => neg && r != 0
    | .rna => decide (2 ^ k ≤ 2 * r) && r != 0
  if up then q + 1 else q

/-- m·2^e rounded to a multiple of 2^q, in units of 2^q. -/
def roundAt (rm : RM) (neg : Bool) (m : Nat) (e q : Int) : Nat :=
  if q ≤ e then m * 2 ^ (e - q).toNat else roundShift rm neg m (q - e).toNat

/-- Rounded to the format's precision with an unbounded exponent, does the magnitude stay below the smallest normal value
(R195)? -/
def FloatFmt.belowNormal (f : FloatFmt) (rm : RM) (neg : Bool) (m : Nat) (e : Int) : Bool :=
  let q := log2V m e - f.mbits
  let n := roundAt rm neg m e q
  decide (log2V n q < 1 - f.bias)

/-- The magnitude code of n·2^q, where q is the quantum of its binade or of the denormals. -/
def FloatFmt.magnitude (f : FloatFmt) (n : Nat) (q : Int) : Nat :=
  if n < 2 ^ f.mbits then n
  else if n < 2 ^ (f.mbits + 1) then (q + f.mbits + f.bias).toNat * 2 ^ f.mbits + (n - 2 ^ f.mbits)
  else (q + 1 + f.mbits + f.bias).toNat * 2 ^ f.mbits

def FloatFmt.signBit (f : FloatFmt) (neg : Bool) : Nat := if neg then 2 ^ (f.ebits + f.mbits) else 0

/-- What an overflow gives (R191). -/
def FloatFmt.overflow (f : FloatFmt) (rm : RM) (neg : Bool) : Nat :=
  let toInf := match rm with | .rne => true | .rna => true | .rtz => false | .rup => !neg | .rdn => neg
  f.signBit neg + (if f.sp == .ieee && toInf then f.maxCode + 1 else f.maxCode)

/-- The code of an exact value rounded once (R191), the result bit of the class applied (R195). -/
def FloatFmt.encode (f : FloatFmt) (mode : BitVec 6) (rm : RM) (v : Val) : Nat :=
  match v with
  | .nan => f.nanCode
  | .inf neg => f.signBit neg + (if f.sp == .ieee then f.maxCode + 1 else f.maxCode)
  | .fin neg m e =>
    if m = 0 then f.signBit neg
    else if modeBit mode f.outBit && f.belowNormal rm neg m e then f.signBit neg
    else
      let q := max (log2V m e - f.mbits) (1 - f.bias - f.mbits)
      let c := f.magnitude (roundAt rm neg m e q) q
      if f.maxCode < c then f.overflow rm neg else f.signBit neg + c

/-! ### Exact arithmetic -/

/-- The value as an integer in units of 2^q, where q is at most its exponent. -/
def scaled (neg : Bool) (m : Nat) (e q : Int) : Int :=
  let n : Int := m * 2 ^ (e - q).toNat
  if neg then -n else n

/-- An integer in units of 2^q as a value; a zero takes the sign given. -/
def ofInt (z : Int) (q : Int) (zneg : Bool) : Val := if z = 0 then .fin zneg 0 0 else .fin (decide (z < 0)) z.natAbs q

/-- The exact sum; an exact zero is +0, or −0 in RDN, and two zeros of one sign keep it (R185). -/
def Val.add (rm : RM) (a b : Val) : Val :=
  match a, b with
  | .nan, _ => .nan
  | _, .nan => .nan
  | .inf x, .inf y => if x = y then .inf x else .nan
  | .inf x, .fin .. => .inf x
  | .fin .., .inf y => .inf y
  | .fin x m e, .fin y n f =>
    if m = 0 ∧ n = 0 ∧ x = y then .fin x 0 0
    else if m = 0 ∧ n ≠ 0 then .fin y n f
    else if n = 0 ∧ m ≠ 0 then .fin x m e
    else
      let q := min e f
      ofInt (scaled x m e q + scaled y n f q) q (rm == .rdn)

def Val.neg : Val → Val
  | .nan => .nan | .inf x => .inf (!x) | .fin x m e => .fin (!x) m e
def Val.abs : Val → Val
  | .nan => .nan | .inf _ => .inf false | .fin _ m e => .fin false m e

/-- The exact product; an infinity times zero is a NaN. -/
def Val.mul (a b : Val) : Val :=
  match a, b with
  | .nan, _ => .nan
  | _, .nan => .nan
  | .inf x, .inf y => .inf (x != y)
  | .inf x, .fin y n _ => if n = 0 then .nan else .inf (x != y)
  | .fin x m _, .inf y => if m = 0 then .nan else .inf (x != y)
  | .fin x m e, .fin y n f => .fin (x != y) (m * n) (if m * n = 0 then 0 else e + f)

/-- The integer square root, by bits from `2^k` down. -/
def isqrtFrom (n : Nat) : Nat → Nat → Nat
  | 0, acc => if (acc + 1) * (acc + 1) ≤ n then acc + 1 else acc
  | k + 1, acc =>
    let t := acc + 2 ^ (k + 1)
    isqrtFrom n k (if t * t ≤ n then t else acc)
def isqrt (n : Nat) : Nat := isqrtFrom n (Nat.log2 n / 2 + 1) 0

/-- 1/a to more bits than any format keeps, the last one saying that something was cut off. -/
def Val.recip : Val → Val
  | .nan => .nan
  | .inf x => .fin x 0 0
  | .fin x m e =>
    if m = 0 then .inf x
    else
      let k := Nat.log2 m + 66
      let q := 2 ^ k / m
      .fin x (2 * q + (if q * m = 2 ^ k then 0 else 1)) (-(k : Int) - e - 1)

/-- 1/√a in the same way; +0 gives +∞, −0 gives −∞, a negative value a NaN (R236). -/
def Val.rsqrt : Val → Val
  | .nan => .nan
  | .inf x => if x then .nan else .fin false 0 0
  | .fin x m e =>
    if m = 0 then .inf x
    else if x then .nan
    else
      let m' := if e % 2 = 0 then m else 2 * m
      let e' := if e % 2 = 0 then e else e - 1
      let k := Nat.log2 m' + 70
      let r := isqrt (2 ^ (2 * k) / m')
      .fin false (2 * r + (if r * r * m' = 2 ^ (2 * k) then 0 else 1)) (-(e' / 2) - (k : Int) - 1)

/-- Order of two values that are no NaN; −0 equals +0. -/
def Val.lt (a b : Val) : Bool :=
  match a, b with
  | .nan, _ => false
  | _, .nan => false
  | .inf x, .inf y => x && !y
  | .inf x, .fin .. => x
  | .fin .., .inf y => !y
  | .fin x m e, .fin y n f =>
    let q := min e f
    decide (scaled x m e q < scaled y n f q)
def Val.isNan : Val → Bool | .nan => true | _ => false
def Val.isInf : Val → Bool | .inf _ => true | _ => false
def Val.negative : Val → Bool | .nan => false | .inf x => x | .fin x _ _ => x
def Val.isZero : Val → Bool | .fin _ m _ => m == 0 | _ => false
/-- Equality of two values that are no NaN. -/
def Val.eqv (a b : Val) : Bool := !a.isNan && !b.isNan && !a.lt b && !b.lt a

/-- The smaller and the larger operand (R237): −0 lies below +0, and one NaN gives the other operand. -/
def Val.min2 (a b : Val) : Val :=
  if a.isNan then b else if b.isNan then a
  else if a.lt b || (a.eqv b && a.negative) then a else b
def Val.max2 (a b : Val) : Val :=
  if a.isNan then b else if b.isNan then a
  else if b.lt a || (a.eqv b && !a.negative) then a else b

/-- An integral value nearest to a value in a mode; the sign stays (R236). -/
def Val.rint (rm : RM) : Val → Val
  | .nan => .nan
  | .inf x => .inf x
  | .fin x m e => .fin x (roundAt rm x m e 0) 0

/-- Rounded to an integer and saturated; a NaN gives 0 (R192). -/
def Val.toInt (rm : RM) (lo hi : Int) : Val → Int
  | .nan => 0
  | .inf x => if x then lo else hi
  | .fin x m e =>
    let n : Int := if 200 < e then 2 ^ 200 * m else roundAt rm x m e 0
    satI (if x then -n else n) lo hi

/-! ### The exponential rows (R239, R240) -/

/-- ⌊ln 2 · 2^200⌋. -/
def ln2Fixed : Int := 1113844574712631719546256151097547306333272293549090750737802

/-- Terms k to k + n of Σ y^k/k! in units of 2^−200. -/
def expTerms (y : Int) : Nat → Nat → Int → Int
  | 0, _, t => t
  | n + 1, k, t => t + expTerms y n (k + 1) (t * y / 2 ^ 200 / ((k : Int) + 1))

/-- 2^f for |f| ≤ 1/2, to 200 bits, the last bit saying that the value is no multiple of its unit (R239). -/
def exp2Small (neg : Bool) (m : Nat) (e : Int) : Val :=
  if m = 0 then .fin false 1 0
  else
    let f := scaled neg m 0 0
    let y := f * ln2Fixed / 2 ^ (-e).toNat
    .fin false (2 * (expTerms y 48 0 (2 ^ 200)).natAbs + 1) (-201)

/-- FEXPF's exact value: the operand clamped to ±1/2, then 2 to its power (R239). -/
def Val.expf : Val → Val
  | .nan => .nan
  | .inf x => exp2Small x 1 (-1)
  | .fin x m e =>
    if m ≠ 0 ∧ 0 ≤ log2V m e + 1 then exp2Small x 1 (-1) else exp2Small x m e

/-- FEXPINS (R240). -/
def expins (mode : BitVec 6) (rm : RM) (a b : Val) : Nat :=
  match b with
  | .inf false => binary32.signBit false + binary32.maxCode + 1
  | .inf true => 0
  | _ =>
    match a, b with
    | .nan, _ => binary32.nanCode
    | _, .nan => binary32.nanCode
    | .inf x, _ => binary32.encode mode rm (.inf x)
    | .fin x m e, b =>
      let n := b.toInt .rtz (-1024) 1024
      if m = 0 ∨ log2V m (e + n) < -149 then 0
      else if 128 ≤ log2V m (e + n) then binary32.encode mode .rne (.inf x)
      else binary32.encode mode rm (.fin x m (e + n))

/-! ### Rows on codes -/

def fmtOf : FFmt → FloatFmt | .f32 => binary32 | .f16 => binary16 | .bf16 => bfloat16

/-- FCLASS's mask (R238). -/
def classMask (f : FloatFmt) (mode : BitVec 6) (c : Nat) : Nat :=
  let neg := f.sign c
  if f.isDenormal c && modeBit mode f.inBit then (if neg then 8 else 16)
  else match f.decodeRaw c with
    | .nan => if c.testBit (f.mbits - 1) then 2 ^ 9 else 2 ^ 8
    | .inf x => if x then 1 else 2 ^ 7
    | .fin x m _ =>
      if m = 0 then (if x then 8 else 16)
      else if f.isDenormal c then (if x then 4 else 32) else (if x then 2 else 64)

/-- FCMP's answer (R237). -/
def fcompare (c : FCond) (a b : Val) : Bool :=
  match c with
  | .eq => a.eqv b
  | .lt => a.lt b
  | .le => a.lt b || a.eqv b
  | .un => a.isNan || b.isNan

/-- FDOT2: the exact sum of two products and a third term (R242). -/
def dot2 (rm : RM) (a0 b0 a1 b1 c : Val) : Val :=
  let p := a0.mul b0
  let q := a1.mul b1
  let s := p.add rm q
  let allNeg := p.isZero && q.isZero && c.isZero && p.negative && q.negative && c.negative
  let allPos := p.isZero && q.isZero && c.isZero && !p.negative && !q.negative && !c.negative
  match s.add rm c with
  | .fin _ 0 e => .fin (if allNeg then true else if allPos then false else rm == .rdn) 0 e
  | v => v

/-- binary32 addition to nearest even, as fadd of AMO and SSCATA makes it (R120). -/
def fadd32 (fin fres : Bool) (a b : Nat) : Nat :=
  let mode : BitVec 6 := (0 : BitVec 4) ++ BitVec.ofBool fres ++ BitVec.ofBool fin
  binary32.encode mode .rne ((binary32.decode mode a).add .rne (binary32.decode mode b))

end Sys2Proof.Machine
end

