-- ==== Sys2Proof/Machine/Formats.lean ====
section
/-! DEFINITION. The formats of memory (R126, R180 to R189), packing (R181), conversion to and from block-scaled formats (R197,
R204), and requantisation (R202, R203). -/

namespace Sys2Proof.Machine

/-! ### Bytes of registers and packed arrays -/

/-- Element `i` of width `w` bits of a packed bit string (R181). -/
def packedAt (bits i w : Nat) : Nat := bits / 2 ^ (i * w) % 2 ^ w
/-- The bit string of a packed array (R181). -/
def packList (w : Nat) : List Nat → Nat
  | [] => 0
  | v :: r => v % 2 ^ w + 2 ^ w * packList w r

/-- A D8 byte's value in units of 2^−6 (R182). -/
def d8Term (t : Nat) : Int :=
  let c := t % 8
  if c = 7 then 0 else if t / 8 = 1 then -(2 ^ (6 - c) : Int) else (2 ^ (6 - c) : Int)
def d8Value (b : Nat) : Int := d8Term (b / 16 % 16) + d8Term (b % 16)

/-! ### FMT codes (R126) -/

/-- What a format code stands for. -/
inductive MemFmt where
  | int (w : Nat) (sgn : Bool)
  | flt (f : FloatFmt)
  | mxInt8
  | mx (f : FloatFmt)
  | d8
  | scale
  deriving DecidableEq, Repr

def memFmt (c : Nat) : Option MemFmt :=
  match c with
  | 0x00 => some (.int 8 false)
  | 0x01 => some (.int 8 true) | 0x02 => some (.int 8 false)
  | 0x03 => some (.int 16 true) | 0x04 => some (.int 16 false)
  | 0x05 => some (.int 32 true) | 0x06 => some (.int 32 false)
  | 0x07 => some (.int 64 true)
  | 0x08 => some (.flt bfloat16) | 0x09 => some (.flt binary16) | 0x0A => some (.flt binary32)
  | 0x0B => some (.flt fp8e4m3) | 0x0C => some (.flt fp8e5m2)
  | 0x10 => some (.int 2 true) | 0x11 => some (.int 2 false)
  | 0x12 => some (.int 4 true) | 0x13 => some (.int 4 false)
  | 0x14 => some (.int 6 true) | 0x15 => some (.int 6 false)
  | 0x18 => some .mxInt8
  | 0x19 => some (.mx mxe2m3) | 0x1A => some (.mx mxe3m2) | 0x1B => some (.mx mxe2m1)
  | 0x1C => some .d8 | 0x1D => some .scale
  | _ => none

/-- Width of an element in bits (R126, R362). -/
def MemFmt.width : MemFmt → Nat
  | .int w _ => w
  | .flt f => f.width
  | .mxInt8 => 8
  | .mx f => f.width
  | .d8 => 8
  | .scale => 8

def intMin (w : Nat) (sgn : Bool) : Int := if sgn then -(2 ^ (w - 1) : Int) else 0
def intMax (w : Nat) (sgn : Bool) : Int := if sgn then 2 ^ (w - 1) - 1 else 2 ^ w - 1
/-- The value of an integer code (R180). -/
def intValue (w : Nat) (sgn : Bool) (c : Nat) : Int := if sgn then sextN c w else (c : Int)

/-- An integer as an exact value; zero is +0. -/
def intVal (z : Int) : Val := Machine.ofInt z 0 false

/-! ### Conversions of FCVT and TCOPYC (R191, R192, R241) -/

/-- An element read as an exact value under the flush bits; an integer's zero is +0. -/
def MemFmt.read (f : MemFmt) (mode : BitVec 6) (c : Nat) : Val :=
  match f with
  | .int w s => intVal (intValue w s c)
  | .flt f => f.decode mode c
  | .mxInt8 => Machine.ofInt (sextN c 8) (-6) false
  | .mx f => f.decode mode c
  | .d8 => Machine.ofInt (d8Value c) (-6) false
  | .scale => if c = 0xFF then .nan else .fin false 1 ((c : Int) - 127)

/-- A value written as an element, rounded once or saturated (R191, R192). -/
def MemFmt.write (f : MemFmt) (mode : BitVec 6) (rm : RM) (v : Val) : Nat :=
  match f with
  | .int w s => wrapN (v.toInt rm (intMin w s) (intMax w s)) w
  | .flt f => f.encode mode rm v
  | .mx f => f.encode mode rm v
  | _ => 0

/-- The format a FCVT code names (R241). -/
def cvtMem : CvtFmt → MemFmt
  | .f32 => .flt binary32 | .f16 => .flt binary16 | .bf16 => .flt bfloat16 | .i32 => .int 32 true | .u32 => .int 32 false
  | .e4m3 => .flt fp8e4m3 | .e5m2 => .flt fp8e5m2

/-- A conversion between two formats (R241). -/
def convert (sf df : MemFmt) (mode : BitVec 6) (rm : RM) (c : Nat) : Nat :=
  df.write mode rm (sf.read mode (c % 2 ^ sf.width))

/-! ### Blocks of 32 -/

/-- Whether a group holds a NaN or an infinity, which makes a NaN block (R197, R204). -/
def groupBad (xs : List Val) : Bool := xs.any fun v => v.isNan || v.isInf

/-- ⌊log2⌋ of the largest magnitude of a group, none when every value is zero. -/
def groupLog (xs : List Val) : Option Int :=
  xs.foldl (fun a v => match v with
    | .fin _ m e => if m = 0 then a else match a with
      | none => some (log2V m e)
      | some b => some (max b (log2V m e))
    | _ => a) none

/-- rne(x·2^k) saturated (R197, R204). -/
def Val.intAt (v : Val) (k : Int) (lo hi : Int) : Int :=
  match v with
  | .fin x m e => (Val.fin x m (e + k)).toInt .rne lo hi
  | _ => 0

/-- A group of FP8 or BF16 values as an MXINT8 block: scale code and element codes (R197). -/
def toMxInt8 (xs : List Val) : Nat × List Nat :=
  if groupBad xs then (0xFF, xs.map fun _ => 0)
  else match groupLog xs with
    | none => (0, xs.map fun _ => 0)
    | some l =>
      let e := max l (-127)
      ((e + 127).toNat, xs.map fun v => wrapN (v.intAt (6 - e) (-127) 127) 8)

/-- The output formats of block quantisation (R204, R265). -/
inductive BlkFmt where | mxInt8 | mx (f : FloatFmt) | int (w : Nat)
  deriving DecidableEq, Repr

def BlkFmt.width : BlkFmt → Nat | .mxInt8 => 8 | .mx f => f.width | .int w => w
def BlkFmt.emax : BlkFmt → Int
  | .mxInt8 => 0
  | .mx f => if f = mxe3m2 then 4 else 2
  | .int w => (w : Int) - 2

/-- One element of a block under exponent `e` (R204). -/
def BlkFmt.elem (f : BlkFmt) (mode : BitVec 6) (e : Int) (v : Val) : Nat :=
  match f with
  | .mxInt8 => wrapN (v.intAt (6 - e) (-127) 127) 8
  | .int w => wrapN (v.intAt (-e) (intMin w true) (intMax w true)) w
  | .mx f => match v with
    | .fin x m k => f.encode mode .rne (.fin x m (k - e))
    | _ => 0

/-- Block quantisation of a group: scale code and element codes (R204). -/
def quantise (f : BlkFmt) (mode : BitVec 6) (xs : List Val) : Nat × List Nat :=
  if groupBad xs then (0xFF, xs.map fun _ => 0)
  else match groupLog xs with
    | none => (0, xs.map fun _ => 0)
    | some l =>
      let e := satI (l - f.emax) (-127) 127
      ((e + 127).toNat, xs.map (f.elem mode e))

/-- A scaled element as a value: X times the element's value; a NaN block is NaN (R187, R369). -/
def scaledVal (x : Nat) (v : Val) : Val :=
  if x = 0xFF then .nan
  else match v with
    | .fin s m e => .fin s m (if m = 0 then 0 else e + ((x : Int) - 127))
    | v => v

/-! ### Requantisation (R202, R203) -/

/-- The integer output form: x·M + bias shifted, rounded to nearest and saturated; NAN gives 0 (R202). -/
def requantInt (rna : Bool) (x m bias : Int) (s w : Nat) (sgn : Bool) (nan : Bool) : Int :=
  if nan then 0
  else
    let t := x * m + bias
    let v : Val := .fin (decide (t < 0)) t.natAbs (-(s : Int))
    v.toInt (if rna then .rna else .rne) (intMin w sgn) (intMax w sgn)

/-- The floating-point output form (R203): an exact zero is +0 except in RDN. -/
def requantFlt (f : FloatFmt) (mode : BitVec 6) (rm : RM) (x m bias : Int) (s : Nat) (re : Int) (nan : Bool) : Nat :=
  if nan then f.nanCode
  else f.encode mode rm (Machine.ofInt (x * m + bias) (re - s) (rm == .rdn))

end Sys2Proof.Machine
end

