-- ==== Sys2Proof/Machine/Completion.lean ====
section
/-! DEFINITION. Completion objects (R349 to R354): their fields, updates, reports and the test after every update. -/

namespace Sys2Proof.Machine

/-- Bytes 0 to 31 of a completion object (R349). -/
structure Obj where
  pend : Nat
  st : Nat
  err : Bool
  bar : Bool
  exp : Nat
  arr : Nat
  code : Nat
  gen : Nat
  result : Nat
  eadr : Nat
  deriving DecidableEq, Repr

/-- The object that 32 bytes hold; an ST of 3 is treated as 2 (R349). -/
def Obj.ofNat (v : Nat) : Obj :=
  { pend := bitsN v 0 56, st := min (bitsN v 56 2) 2, err := v.testBit 58, bar := v.testBit 59, exp := bitsN v 64 16,
    arr := bitsN v 80 16, code := bitsN v 96 16, gen := bitsN v 112 16, result := bitsN v 128 64, eadr := bitsN v 192 64 }

/-- Byte 7 as an object shows it. -/
def Obj.status (o : Obj) : Nat := o.st + (if o.err then 4 else 0) + (if o.bar then 8 else 0)

/-- The 32 bytes of an object; its reserved bits are written 0. -/
def Obj.toNat (o : Obj) : Nat :=
  o.pend % 2 ^ 56 + o.status * 2 ^ 56 + o.exp % 2 ^ 16 * 2 ^ 64 + o.arr % 2 ^ 16 * 2 ^ 80 + o.code % 2 ^ 16 * 2 ^ 96
    + o.gen % 2 ^ 16 * 2 ^ 112 + o.result % 2 ^ 64 * 2 ^ 128 + o.eadr % 2 ^ 64 * 2 ^ 192

/-- The largest pending count. -/
def pendMax : Nat := 2 ^ 56 - 1

/-- A report (R352): the larger code stands; a code of 0x0100 or above sets ERR; EADR is set when ERR was clear. -/
def Obj.report (o : Obj) (code eadr : Nat) : Obj :=
  { o with code := max o.code code, err := o.err || decide (0x100 ≤ code), eadr := if o.err || code == 0 then o.eadr else eadr }

/-- The completion test that ends every update (R351). -/
def Obj.test (o : Obj) : Obj :=
  if o.st = 1 ∧ o.pend = 0 ∧ o.exp ≤ o.arr then
    if o.bar then { o with gen := (o.gen + 1) % 2 ^ 16, arr := 0 } else { o with gen := (o.gen + 1) % 2 ^ 16, st := 2 }
  else o

/-- Arming for `n` more: an object that is not pending starts anew; a count that does not fit is reported (R354, R356). -/
def Obj.arm (o : Obj) (n : Nat) : Obj :=
  if pendMax < o.pend + n then o.report 0x0209 0
  else
    let o := if o.st = 1 then o else { o with st := 1, err := false, code := 0, eadr := 0 }
    { o with pend := o.pend + n }

/-- A subtraction by an engine stops at 0 (R353, R358). -/
def Obj.less (o : Obj) (n : Nat) : Obj := { o with pend := o.pend - n }

/-- The 32 bytes of the object at a place, a line whose scrub bit is set reading as zero (R428). A place on another device is not this
machine's memory: what its owner answers is a free value (log 18). -/
def State.objNat (s : State) (l : Loc) : Nat := if l.dev = s.ownDev.toNat then s.peekNat l.owner.pa 32 else s.freshNat % 2 ^ 256
/-- The object at a place. -/
def State.obj (s : State) (l : Loc) : Obj := Obj.ofNat (s.objNat l)
/-- What CPLTEST lands of the object at a place: its byte 7 as it stands, CODE and GEN (R357). -/
def State.objWord (s : State) (l : Loc) : Word :=
  let v := s.objNat l
  BitVec.ofNat 64 (bitsN v 56 8 + 2 ^ 8 * bitsN v 96 16 + 2 ^ 24 * bitsN v 112 16)

/-- What the memory side does as the object at a place is read for an F-die: its line is counted and scrubbed (R322, R428), and that of
another device is asked for (R320). -/
def State.touchObj (s : State) (die : Nat) (tenant : BitVec 16) (l : Loc) : State :=
  if l.dev = s.ownDev.toNat then ((s.settleAt l 32).countAccess die (l.forReader die).pa 32).scrubFor l.owner.pa 32
  else s.askLine die tenant l

/-- One atomic update of an object, with the completion test (R350, R351); `pid` is the partition that its write is logged
for (R429). An update whose bytes hold poison writes nothing, as an atomic (R419; DEDUCED, log 58), and is logged (R424). An update of an
object on another device leaves as a request. -/
def State.updateObj (s : State) (pid : Nat) (l : Loc) (f : Obj → Obj) : State :=
  if l.dev = s.ownDev.toNat then
    let s := (s.settleAt l 32).scrubFor l.owner.pa 32
    match s.poisoned l.owner.pa 32 with
    | some q => s.logPoison q (cidOf (BitVec.ofNat 8 pid))
    | none => s.writeLoc pid l (natLe 32 (f (s.obj l)).test.toNat)
  else s.forward l.owner.mdie l.dev (s.part pid).tenant (requestBytes .update l.owner.pa 32 (natLe 32 (f (s.obj l)).test.toNat))

/-- The same for an agent of an F-die, whose request counts (R322). -/
def State.updateFor (s : State) (die pid : Nat) (l : Loc) (f : Obj → Obj) : State :=
  (if l.dev = s.ownDev.toNat then s.countWrite die l 32 else s).updateObj pid l f

end Sys2Proof.Machine
end

