-- ==== Sys2Proof/Machine/MemInstr.lean ====
section
/-! DEFINITION. The memory instructions of the sequencer (R21, R22, R26 to R28, R34 to R36, R110 to R130, R132). -/

namespace Sys2Proof.Machine

/-! ### Node space and field space (R21, R22, R111) -/

/-- The size of LD and ST's space, and where its first byte lies for the issuing pan. -/
def spaceSize : LSpace → Nat | .node => Config.nodeSize | .field => Config.fieldSize
def State.spaceBase (s : State) : LSpace → Nat
  | .node => nodeBase s.pan
  | .field => fieldBase (fieldOf s.pan)
/-- The latency of LD (R21). -/
def spaceLatency : LSpace → Nat | .node => 4 | .field => 18

/-- The checks of R21, alignment before range. -/
def spaceFault (sp : LSpace) (a n : Nat) : Option Nat :=
  if a % n ≠ 0 then some 0x0A else if spaceSize sp < a + n then some 0x09 else none

/-- The address of a byte of a control entry's slot: a node buffer's entry is `128·pan + 8·node + buffer`, a concentrator
binding's `16·field + c` (R220, R304). -/
def nodeSlotAddr (key : Nat) (c : BindCtl) (slot off : Nat) : Nat :=
  nodeBase (key / 128) + key % 128 / 8 * 65536 + c.base + slot * c.size + off
def concSlotAddr (key : Nat) (c : BindCtl) (slot off : Nat) : Nat := fieldBase (key / 16) + c.base + slot * c.size + off
def State.nodeEntry (s : State) (key : Nat) : BindCtl := Kv.get {} s.nodeCtl key
def State.concEntry (s : State) (key : Nat) : BindCtl := Kv.get {} s.concCtl key
def State.setNodeEntry (s : State) (key : Nat) (c : BindCtl) : State := { s with nodeCtl := Kv.set {} s.nodeCtl key c }
def State.setConcEntry (s : State) (key : Nat) (c : BindCtl) : State := { s with concCtl := Kv.set {} s.concCtl key c }

/-- Bytes of a packet slot (R270). -/
def packetBytes (cut : Nat) : Nat := 4 * ((4 + cut + 3) / 4)

/-- A number with bits `lo … lo + w − 1` replaced. -/
def setBits (old lo w v : Nat) : Nat := old / 2 ^ (lo + w) * 2 ^ (lo + w) + v % 2 ^ w * 2 ^ lo + old % 2 ^ lo

/-- Where a unit's owed write goes, if it goes to memory (R244, R265, R270); the packet that fills a slot zeroes the rest. A
packet longer than its slot is cut (log 21). -/
def State.unitBytes (s : State) (w : UnitWrite) : List (Nat × List Byte) :=
  match w.unit with
  | 3 =>
    let a := nodeBase w.pan + w.off / 8
    let sh := w.off % 8
    let n := (sh + w.skey + 7) / 8
    [(a, natLe n (setBits (s.readNat a n) sh w.skey (leNat w.bytes)))]
  | 2 => let c := s.nodeEntry w.key; [(nodeSlotAddr w.key c w.slot w.off, w.bytes)]
  | 1 =>
    let c := s.nodeEntry w.key
    let d := s.nodeEntry w.skey
    [(nodeSlotAddr w.key c c.wp (w.slot * w.bytes.length % max 1 c.size), w.bytes),
      (nodeSlotAddr w.skey d d.wp (w.slot % max 1 d.size), [w.sbyte])]
  | _ =>
    if w.stream then []
    else
      let c := s.concEntry w.key
      let n := max 1 (c.size / w.bytes.length)
      let rest := if n ≤ c.wpos + 1 then List.replicate (c.size - n * w.bytes.length) (0 : Byte) else []
      [(concSlotAddr w.key c c.wp (c.wpos * w.bytes.length), (w.bytes ++ rest).take c.size)]

/-- The kernel cycle that a mask's clock shows in this fabric cycle: before the start of the cycle it has still to count it, unless it
stands still (R155, R178, R437). -/
def State.kcNow (s : State) (pan : Nat) (mask : BitVec 8) : Nat :=
  let counts := !s.begun && (s.domain (s.domOf pan)).stallAt.isNone && mask.getLsbD (s.wheel pan)
    && s.cmds.all fun k => !(k.st == .stopped && k.pan == pan && (match k.instr with | .chain _ _ _ m _ _ _ => m == mask | _ => false))
  s.kc pan mask + (if counts then 1 else 0)

/-- Whether a unit makes its owed write in this fabric cycle (R269, R265, R244). -/
def State.unitDue (s : State) (w : UnitWrite) : Bool :=
  decide (w.due ≤ s.kcNow w.pan w.mask) && !(s.runOf w.pan w.mask).stopped

/-- Order among writes that become visible in one cycle: the static engines, then rows by copy and element (R342). -/
def UnitWrite.order (w : UnitWrite) : Nat := if w.unit = 2 then w.ord + 1 else 0
def insertWrite (w : UnitWrite) : List UnitWrite → List UnitWrite
  | [] => [w]
  | v :: r => if w.order < v.order then w :: v :: r else v :: insertWrite w r
def sortWrites (l : List UnitWrite) : List UnitWrite := l.foldl (fun a w => insertWrite w a) []

def State.writeAll (s : State) (l : List (Nat × List Byte)) : State := l.foldl (fun s e => s.writeBytes e.1 e.2) s
/-- Writes that are made meet the armed injections of their arrays (R425), under the CID of the partition that owns a pan. -/
def State.injectAll (s : State) (cid : BitVec 16) (l : List (Nat × List Byte)) : State := l.foldl (fun s e => s.inject cid e.1 e.2.length) s
def State.ownerCid (s : State) (pan : Nat) : BitVec 16 := cidOf (BitVec.ofNat 8 (s.owner (fieldOf pan)))

/-- Node space and field space as a reader of this cycle sees them: the units' writes of the cycle, and the sequencer stores
of the last one, are in them (R342). -/
def State.seen (s : State) : State :=
  let s' := (sortWrites (s.writes.filter s.unitDue)).foldl (fun t w => t.writeAll (t.unitBytes w)) s
  s'.writeAll (s.stores.map (·.2))

/-- The same for the issuing context, which sees its own earlier stores (R22). -/
def State.ownView (s : State) : State := s.seen.writeAll ((s.fresh.filter fun e => e.1 == s.cur).map (·.2))

/-- A store of the issuing context, visible to the others from the next cycle on (R22, R342). -/
def State.store (s : State) (a : Nat) (bs : List Byte) : State := { s with fresh := s.fresh ++ [(s.cur, a, bs)] }

/-- The address of a base register and an offset (R111, R114). -/
def State.addr (s : State) (base : Reg) (off : Word) : Nat := (s.reg base + off).toNat

/-- The access size of a size field. -/
def sizeOf2 (sz : BitVec 2) : Nat := 2 ^ sz.toNat

/-- A read of node or field space by the issuing context that meets poison is logged (R424); `v` is the memory as it sees it. -/
def State.notePoison (s : State) (p n : Nat) (v : State) : State :=
  match v.poisoned p n with
  | some q => s.logPoison q (cidOf (BitVec.ofNat 8 s.self.pid))
  | none => s

def execLd (sp : LSpace) (sz : BitVec 2) (zx : Bool) (rd base : Reg) (off : Word) (s : State) : Out :=
  let a := s.addr base off
  let n := sizeOf2 sz
  match spaceFault sp a n with
  | some k => s.trap k a
  | none =>
    if 4 ≤ s.self.inFlight then s.trap 0x07 4
    else
      let v := s.ownView
      let p := s.spaceBase sp + a
      let poison := if (v.poisoned p n).isSome then some a else none
      (s.notePoison p n v).done (s.self.issueResult (.s rd) (extend zx (v.readNat p n) n) (spaceLatency sp) poison)

def execSt (sp : LSpace) (sz : BitVec 2) (rs base : Reg) (off : Word) (s : State) : Out :=
  let a := s.addr base off
  let n := sizeOf2 sz
  match spaceFault sp a n with
  | some k => s.trap k a
  | none => (s.store (s.spaceBase sp + a) (natLe n (s.reg rs).toNat)).done s.self

/-! ### The spill stack (R34 to R36) -/

/-- Entries that the carve-out holds. -/
def Ctx.carveOut (x : Ctx) : Nat := (x.spillLim - x.spillBase) / 8

/-- PUSH (R34 to R36, R112). An overflow address in a read-only extent raises the range fault of R114 with that address (DEDUCED,
log 54). -/
def execPush (rs : Reg) (s : State) : Out :=
  let x := s.self
  let n := x.spd.toNat
  let v := natLe 8 (s.reg rs).toNat
  if n = 2 ^ 32 - 1 then s.trap 0x0F n
  else if n < x.carveOut then
    (s.store (nodeBase s.pan + x.spillBase + 8 * n) v).done { x with spd := x.spd + 1 }
  else
    let a := x.ovfPtr.toNat
    match x.extentOf a with
    | none => s.trap 0x0F n
    | some e =>
      if !e.w then s.trap 0x09 a
      else
        let (s, x) := s.issue x (.store v) true a 8 3 false false none
        s.done { x with spd := x.spd + 1, ovfPtr := x.ovfPtr + 8 }

/-- POP (R34 to R36, R112). An overflow address that is misaligned or in no extent raises the fault of R114 with that address
(DEDUCED, log 54). -/
def execPop (ln : LReg) (s : State) : Out :=
  let x := s.self
  let n := x.spd.toNat
  if n = 0 then s.trap 0x0F n
  else if x.carveOut ≤ n - 1 then
    let a := (x.ovfPtr - 8).toNat
    match s.accessFault x true false a 8 with
    | some k => s.trap k a
    | none =>
      let (s, x) := s.issue x (.load true) true a 8 3 false false (some ln)
      s.done { x with spd := x.spd - 1, ovfPtr := x.ovfPtr - 8 }
  else
    let id := s.nextId
    let v := s.ownView
    let off := x.spillBase + 8 * (n - 1)
    let p := nodeBase s.pan + off
    let poison := if (v.poisoned p 8).isSome then some off else none
    let x := (x.await (some ln) id).issueResult (.l ln id) (BitVec.ofNat 64 (v.readNat p 8)) 4 poison
    { s.notePoison p 8 v with nextId := id + 1 }.done { x with spd := x.spd - 1 }

/-! ### Global accesses (R113 to R121) -/

def isVirt : GSpace → Bool | .virt => true | .res => false

/-- Checks an access as R114 gives and issues it. -/
def State.access (s : State) (sp : GSpace) (kind : AccKind) (base : Reg) (off : Word) (n : Nat) (g : GStream)
    (acq rel : Bool) (ln : LReg) : Out :=
  let a := s.addr base off
  match s.accessFault s.self (isVirt sp) kind.stores a n with
  | some k => s.trap k a
  | none =>
    let (s, x) := s.issue s.self kind (isVirt sp) a n g acq rel (some ln)
    s.done x

def execGld (sp : GSpace) (sz : BitVec 2) (zx acq : Bool) (ln : LReg) (base : Reg) (off : Word) (g : GStream)
    (s : State) : Out :=
  s.access sp (.load zx) base off (sizeOf2 sz) g acq false ln

def execGst (sp : GSpace) (sz : BitVec 2) (rel : Bool) (ln : LReg) (rs base : Reg) (off : Word) (g : GStream)
    (s : State) : Out :=
  s.access sp (.store (natLe (sizeOf2 sz) (s.reg rs).toNat)) base off (sizeOf2 sz) g false rel ln

def execGldi (sp : GSpace) (sz : BitVec 2) (zx : Bool) (ln : LReg) (base : Reg) (off : Word) (g : GStream)
    (s : State) : Out :=
  s.access sp (.inv zx) base off (sizeOf2 sz) g false false ln

/-- Size and ordering form of AMO and CAS (R118). -/
def amoSize (w64 : Bool) : Nat := if w64 then 8 else 4
def ordAcq (ord : BitVec 2) : Bool := ord.getLsbD 0
def ordRel (ord : BitVec 2) : Bool := ord.getLsbD 1

def execAmo (sp : GSpace) (op : AmoOp) (w64 : Bool) (ord : BitVec 2) (ln : LReg) (rd base : Reg) (off : BitVec 56)
    (g : GStream) (s : State) : Out :=
  let n := amoSize w64
  let x := s.self
  s.access sp (.amo op ((s.reg rd).toNat % 2 ^ (8 * n)) (x.modefp.getLsbD 0) (x.modefp.getLsbD 1) x.ord)
    base (off.signExtend 64) n g (ordAcq ord) (ordRel ord) ln

def execCas (sp : GSpace) (w64 : Bool) (ord : BitVec 2) (ln : LReg) (rd base : Reg) (off : Word) (g : GStream)
    (s : State) : Out :=
  let n := amoSize w64
  s.access sp (.cas ((s.reg rd).toNat % 2 ^ (8 * n)) ((s.reg (rd + 1)).toNat % 2 ^ (8 * n)))
    base off n g (ordAcq ord) (ordRel ord) ln

/-- MVL (R28): a full register is taken, a pending one stalls, an empty one faults; corrupt data fault (R392). -/
def execMvl (rd : Reg) (ln : LReg) (s : State) : Out :=
  let x := s.self
  let l := x.landing ln
  if l.full then
    match l.poison with
    | some a => s.trap 0x12 a.toNat
    | none => s.done ((x.setLanding ln { l with full := false }).write rd l.val 1)
  else if l.pending then s.holdOn x s.holdNow .wait
  else s.trap 0x07 ln.toNat

/-- 1 for a set bit. -/
def bitOf (b : Bool) : Word := if b then 1 else 0

def execTstl (rd : Reg) (ln : LReg) (s : State) : Out :=
  let l := s.self.landing ln
  s.result rd (bitOf l.full + (bitOf l.pending <<< 1)) 1

/-! ### Ordering at one sequencer (R122 to R124) -/

/-- Accesses of the issuing context under way on the masked streams. -/
def State.masked (s : State) (mask : BitVec 4) : List Acc :=
  s.accs.filter fun a => a.ctx == s.cur && mask.getLsbD a.stream.toNat

/-- FENCE (R123): the named earlier accesses come before what its form holds back. Its scope narrows towards other agents
only (R335), which one serial order of performed accesses satisfies at every scope (log 5). -/
def execFence (form : FenceForm) (_scope : Scope) (mask : BitVec 4) (s : State) : Out :=
  let x := s.self
  let m := s.masked mask
  let ids := fun (l : List Acc) => l.map (·.id)
  match form with
  | .full => s.done { x with heldAll := x.heldAll ++ ids m }
  | .acq => s.done { x with heldAll := x.heldAll ++ ids (m.filter fun a => a.kind.loads) }
  | .rel => s.done { x with heldStores := x.heldStores ++ ids m }

/-- SBAR (R124) holds until every earlier access of the masked streams is performed. -/
def execSbar (_scope : Scope) (mask : BitVec 4) (s : State) : Out :=
  let h := s.holdNow
  if (s.masked mask).any fun a => decide (a.id < s.nextId) then s.holdOn s.self h .other else s.done s.self

/-! ### Shape and metadata registers (R125 to R130) -/

def Ctx.shapePending (x : Ctx) (h : HReg) : Bool := Kv.get 0 x.hpend h.toNat != 0

def execHld (sp : GSpace) (h : HReg) (ln : LReg) (base : Reg) (off : Word) (g : GStream) (s : State) : Out :=
  let a := s.addr base off
  match s.accessFault s.self (isVirt sp) false a 64 with
  | some k => s.trap k a
  | none =>
    let id := s.nextId
    let (s, x) := s.issue s.self (.hload h) (isVirt sp) a 64 g false false (some ln)
    s.done { x with hpend := Kv.set 0 x.hpend h.toNat id }

/-- HST (R127, R128). The checks of R114 come before the timing fault of a pending register (DESIGN CHOICE, log 55). -/
def execHst (sp : GSpace) (h : HReg) (ln : LReg) (base : Reg) (off : Word) (g : GStream) (s : State) : Out :=
  let a := s.addr base off
  match s.accessFault s.self (isVirt sp) true a 64 with
  | some k => s.trap k a
  | none =>
    if s.self.shapePending h then s.trap 0x07 h.toNat
    else
      let (s, x) := s.issue s.self (.store (natLe 64 (s.self.shape h))) (isVirt sp) a 64 g false false (some ln)
      s.done x

def execMdld (sp : GSpace) (m : BitVec 4) (ln : LReg) (base : Reg) (off : Word) (g : GStream) (s : State) : Out :=
  let a := s.addr base off
  match s.accessFault s.self (isVirt sp) false a 128 with
  | some k => s.trap k a
  | none =>
    let key := metaKey s.pan m.toNat
    let old := Kv.get {} s.metas key
    let id := s.nextId
    let (s, x) := s.issue s.self (.mload m) (isVirt sp) a 128 g false false (some ln)
    { s with metas := Kv.set {} s.metas key (old.change s.cycle { old with valid := false, acc := id }) }.done x

/-- A shape field of a selector: its lowest bit, its width, and whether it is signed (R125, R130). -/
def shapeField (sel : Nat) : Option (Nat × Nat × Bool) :=
  match sel with
  | 0 => some (508, 4, false) | 1 => some (502, 6, false) | 2 => some (498, 4, false) | 3 => some (492, 6, false)
  | 4 => some (488, 4, false) | 5 => some (484, 4, false) | 6 => some (432, 48, false) | 7 => none
  | k => if k % 2 = 0 then some (36 * ((k - 8) / 2), 16, false) else some (36 * ((k - 9) / 2) + 16, 20, true)

/-- The value of a field, extended as HGET writes it (R129). -/
def fieldValue (v lo w : Nat) (sgn : Bool) : Word :=
  if sgn then BitVec.ofInt 64 (sextN (bitsN v lo w) w) else BitVec.ofNat 64 (bitsN v lo w)
/-- Whether a value fits a field (R129). -/
def fieldFits (b : Word) (w : Nat) (sgn : Bool) : Bool :=
  if sgn then decide (-(2 ^ (w - 1) : Int) ≤ b.toInt) && decide (b.toInt < 2 ^ (w - 1)) else decide (b.toNat < 2 ^ w)
/-- HGET (R129). The timing fault of a pending register comes before the shape overflow fault, the model's choice (DESIGN CHOICE, log 55). -/
def execHget (rd ra : Reg) (s : State) : Out :=
  let a := s.reg ra
  let h : HReg := a.extractLsb' 0 4
  if s.self.shapePending h then s.trap 0x07 h.toNat
  else match shapeField (a.extractLsb' 8 5).toNat with
    | none => s.trap 0x0B a.toNat
    | some (lo, w, sgn) => s.result rd (fieldValue (s.self.shape h) lo w sgn) 1

/-- HSET (R129), with the same order of its faults (DESIGN CHOICE, log 55). -/
def execHset (rd ra rb : Reg) (s : State) : Out :=
  let a := s.reg ra
  let b := s.reg rb
  let h : HReg := a.extractLsb' 0 4
  if s.self.shapePending h then s.trap 0x07 h.toNat
  else match shapeField (a.extractLsb' 8 5).toNat with
    | none => s.trap 0x0B a.toNat
    | some (lo, w, sgn) =>
      if fieldFits b w sgn then
        let v := s.self.shape h
        s.done ((s.self.setShape h (setBits v lo w b.toNat)).write rd (fieldValue v lo w sgn) 1)
      else s.trap 0x0B b.toNat

/-! ### Messages (R132) -/

/-- MSG (R132): its checks, the arming of the sender's object, and the message's read as a release access, after which
MSG_DELIVERY hands it over. An arming that does not fit leaves the message unread. Two points are the model's choice (DESIGN CHOICE, log
71): the read stands on stream g0, and the checks of b come before those of c. -/
def execMsg (ra rb rc : Reg) (s : State) : Out :=
  let x := s.self
  let b := (s.reg rb).toNat
  let c := (s.reg rc).toNat
  match s.accessFault x true false b 64 with
  | some k => s.trap k b
  | none =>
    match s.accessFault x true true c 64 with
    | some k => s.trap k c
    | none =>
      let l := s.locate x true c
      let fits := decide ((s.obj l).pend + 1 ≤ pendMax)
      let s := s.updateFor (dieOf s.pan) x.pid l (fun o => o.arm 1)
      if fits then
        let (s, x) := s.issue x (.msg ((s.reg ra).extractLsb' 0 32) l) true b 64 0 false true none
        s.done x
      else s.done x

/-! ### Performing an access: landing and the memory side -/

/-- The value that an AMO writes (R118 to R120). -/
def amoValue (op : AmoOp) (n old v : Nat) (fin fres : Bool) : Nat :=
  let w := 8 * n
  match op with
  | .add => (old + v) % 2 ^ w
  | .and => old &&& v
  | .or => old ||| v
  | .xor => old ^^^ v
  | .min => if sextN old w < sextN v w then old else v
  | .max => if sextN old w < sextN v w then v else old
  | .minu => min old v
  | .maxu => max old v
  | .swap => v
  | .fadd => fadd32 fin fres old v

/-- An access reads its bytes at a physical address of this device, after the scrub rule, the count and the budget (R322, R383,
R428); poison that a read meets is logged (R424). -/
def State.serveAt (s : State) (a : Acc) (p : Nat) : State × List Byte × Bool :=
  let s := if a.virt then s else s.touchMap (s.part (s.ctx a.ctx).pid) a.addr.toNat
  let s := ((s.countAccess (dieOf (panOf a.ctx)) p a.n).spend a.ctx 3 a.n).scrubFor p a.n
  match s.poisoned p a.n with
  | some q => (if a.kind.loads then s.logPoison q a.cid else s, s.readBytes p a.n, true)
  | none => (s, s.readBytes p a.n, false)

/-- The bytes that a load gets on this device: those of its reader's copy (R318). -/
def State.serve (s : State) (a : Acc) : State × List Byte × Bool := s.serveAt a (a.loc.forReader (dieOf (panOf a.ctx))).pa

/-- Whether a line buffer answers an access (R325): partition and task (R280), tenant, and line. -/
def LineBuf.holds (b : LineBuf) (mdie pid : Nat) (task : BitVec 32) (tenant : BitVec 16) (dev line : Nat) : Bool :=
  b.mdie == mdie && b.pid == pid && b.task == task && b.tenant == tenant && b.dev == dev && b.line == line

/-- Places a line in a die's buffers, which hold at most 1,024; the least recently used one goes (R325). -/
def placeLine (bufs : List LineBuf) (b : LineBuf) : List LineBuf :=
  let mine := (b :: bufs.filter fun o => o.mdie == b.mdie && !o.holds b.mdie b.pid b.task b.tenant b.dev b.line).take Config.lineBuffers
  mine ++ bufs.filter fun o => o.mdie != b.mdie

/-- The buffer that answers a GLDI, if one does. -/
def State.bufferOf (s : State) (a : Acc) : Option LineBuf :=
  let x := s.ctx a.ctx
  let die := dieOf (panOf a.ctx)
  let l := a.loc.forReader die
  match a.kind with
  | .inv _ => s.lineBufs.find? fun b => b.holds die x.pid x.task x.tenant l.dev (l.pa / 128)
  | _ => none
/-- The bytes that a line gives a load, and whether one of them is poisoned. -/
def Acc.ofLine (a : Acc) (line : List Byte) : List Byte := (line.drop (a.loc.pa % 128)).take a.n
def Acc.badIn (a : Acc) (bad : List Nat) : Bool := bad.any fun i => decide (a.loc.pa % 128 ≤ i) && decide (i < a.loc.pa % 128 + a.n)
/-- The line that a GLDI has read is placed in a buffer of its die, with the poison marks of its bytes (R422); the write meets the injection
of the buffers (R425). -/
def State.fillBuffer (s : State) (a : Acc) (bytes : List Byte) (bad : List Nat) : State :=
  let x := s.ctx a.ctx
  let die := dieOf (panOf a.ctx)
  let l := a.loc.forReader die
  ({ s with lineBufs := placeLine s.lineBufs ⟨die, x.task, x.tenant, l.dev, l.pa / 128, bytes, a.cid, x.pid, bad⟩ }).injectIndex
    (arrayShared .lineBuffer die) (l.pa / 128 * 128) 128 a.cid (.shared .lineBuffer (BitVec.ofNat 3 die))

/-- A GLDI (R116, R325, R326): a buffer with the task's tag answers it, or the line is read and placed. A poisoned byte of a buffer is
corrupt data as in memory (R392, R422). -/
def State.serveInv (s : State) (a : Acc) : State × List Byte × Bool :=
  match s.bufferOf a with
  | some b =>
    let s := { s with lineBufs := placeLine s.lineBufs b }
    (if a.badIn b.bad then s.logPoison (b.line * 128) a.cid else s, a.ofLine b.bytes, a.badIn b.bad)
  | none =>
    let (s, bs, bad) := s.serve a
    let line := (a.loc.forReader (dieOf (panOf a.ctx))).pa / 128 * 128
    let s := s.scrubFor line 128
    (s.fillBuffer a (s.readBytes line 128) ((List.range 128).filter fun i => Kv.get false s.poison (line + i)), bs, bad)

/-- The write of an atomic, for the bytes it read: none when they are poisoned or a comparison fails (R121, R392). -/
def AccKind.newBytes (k : AccKind) (n : Nat) (old : List Byte) (bad : Bool) : Option (List Byte) :=
  if bad then (match k with | .store v => some v | _ => none)
  else match k with
    | .store v => some v
    | .amo op v fin fres _ => some (natLe n (amoValue op n (leNat old) v fin fres))
    | .cas cmp new => if leNat old = cmp then some (natLe n new) else none
    | _ => none

/-- Performs an access on this device's memory, and lands it (R26, R115 to R121). -/
def State.performLocal (s : State) (a : Acc) : State :=
  let (s, old, bad) := match a.kind with | .inv _ => s.serveInv a | _ => s.serve a
  let s := match a.kind.newBytes a.n old bad with
    | some bs => s.memWrite (s.ctx a.ctx).pid a.loc.owner.pa bs
    | none => s
  (s.arrive a old (bad && a.kind.loads)).dropAcc a.id

/-- Whether an access needs more than one step at its owner: a write to a replicated page, an ordered fadd, a message. -/
def Acc.special (a : Acc) : Bool :=
  (a.loc.rep && a.kind.stores) || (match a.kind with | .amo .fadd _ _ _ o => o | .msg .. => true | _ => false)

/-- A 64-byte unit of a task's inbox: unit 0 is its header, unit j + 1 its slot j (R284). -/
def Task.inboxLoc (t : Task) (unit : Nat) : Loc :=
  let va := leNat ((t.lpb.drop 64).take 8)
  let off := va % 65536 + 64 * unit
  match t.inbox[off / 65536]? with
  | some r => r.locAt r.voff (off % 65536)
  | none => ⟨0, 0, false, 0⟩
/-- Slots of a task's inbox (R276). -/
def Task.inboxSlots (t : Task) : Nat := leNat ((t.lpb.drop 72).take 4)

/-- The key of a task: its partition and its identifier there (R280). -/
def taskKey (r : TaskRef) : Nat := 2 ^ 32 * r.pid + r.id.toNat
/-- The task of a context. -/
def Ctx.ref (x : Ctx) : TaskRef := ⟨x.pid, x.task⟩
/-- The task of an identifier of a partition, if one was ever assigned and is still known. -/
def State.task? (s : State) (r : TaskRef) : Option Task := (s.tasks.find? fun e => e.1 == taskKey r).map (·.2)

/-! #### Accesses that another device owns (R320, R467, R468) -/

/-- The number of an AMO as its word has it (R118). -/
def amoNumber : AmoOp → Nat
  | .add => 0 | .and => 1 | .or => 2 | .xor => 3 | .min => 4 | .max => 5 | .minu => 6 | .maxu => 7 | .swap => 8 | .fadd => 9

/-- What an access asks of the owner of its place: a load the line that holds it, a store or an atomic its operation on the bytes that it
names, at the primary of a replicated page (R320, R467; the layout is log 34). -/
def Acc.request (a : Acc) (task : BitVec 32) : List Byte :=
  let p := a.loc.owner.pa
  match a.kind with
  | .store v => requestBytes .store p a.n v
  | .amo op v fin fres ord => requestBytes (.amo (amoNumber op) fin fres ord task) p a.n (natLe a.n v)
  | .cas cmp new => requestBytes .cas p a.n (natLe a.n cmp ++ natLe a.n new)
  | _ => lineRequest p

/-- The request of an access leaves for the device that owns its place, and meets the injection of the link's queue (R425); nothing leaves
while the link is down. -/
def State.sendAcc (s : State) (a : Acc) : State :=
  let die := dieOf (panOf a.ctx)
  if s.linkReady die a.loc.dev then
    let x := s.ctx a.ctx
    let s := (s.forward die a.loc.dev x.tenant (a.request x.task)).injectIndex (arrayShared .linkQueue die) a.loc.owner.pa a.n a.cid
      (.shared .linkQueue (BitVec.ofNat 3 die))
    { s with accs := s.accs.map fun b => if b.id == a.id then { b with sent := true } else b }
  else s

/-- The outcome of a delivery and its effect on the inbox (R285). The bytes at the offsets of `bad` arrive with their poison marks
(R422). -/
def State.deliver (s : State) (task : TaskRef) (bs : List Byte) (bad : List Nat) : State × Nat :=
  match s.task? task with
  | none => (s, 0x0101)
  | some t =>
    if t.state = .exited then (s, 0x0101)
    else
      let h := t.inboxLoc 0
      let s := (s.settleAt h 32).scrubFor h.owner.pa 32
      let wcnt := s.readAt h 8
      let rcnt := s.readAt { h with pa := h.pa + 8 } 8
      let n := t.inboxSlots
      if wcnt < rcnt + n then
        let l := t.inboxLoc (wcnt % n + 1)
        let marks := if l.dev = s.ownDev.toNat then bad else []
        let s := marks.foldl (fun (s : State) i => s.poisonBytes (l.owner.pa + i) 1) (s.writeAt t.pid l bs)
        (s.writeAt t.pid h (natLe 8 (wcnt + 1)), 0)
      else
        let r := { h with pa := h.pa + 20 }
        (s.writeAt t.pid r (natLe 4 (min 0xFFFFFFFF (s.readAt r 4 + 1))), 0x0102)

/-- A message that has been read is delivered, and its outcome written to the sender's completion object in one update (R132). -/
def State.handOver (s : State) (a : Acc) (task : BitVec 32) (cpl : Loc) (bs : List Byte) (bad : List Nat) : State :=
  let (s, code) := s.deliver ⟨(s.ctx a.ctx).pid, task⟩ bs bad
  (s.updateObj (s.ctx a.ctx).pid cpl fun o => (o.report code 0).less 1).dropAcc a.id

/-- An access that is not performed is logged, and lands poisoned data, a store a poisoned acknowledgement (R468); a message is
delivered as poisoned bytes. -/
def State.lose (s : State) (a : Acc) : State :=
  let s := s.logRequest (dieOf (panOf a.ctx)) a.loc.pa a.cid
  match a.kind with
  | .msg task cpl => s.handOver a task cpl (List.replicate 64 0) (List.range 64)
  | .store _ => (s.landIn a.ctx a.ln a.id 0 (some a.addr)).dropAcc a.id
  | _ => (s.arrive a (List.replicate a.n 0) true).dropAcc a.id

/-- The answer of the owning device lands. A load's brings the line that holds it, which a GLDI places in a buffer (R320, R325), and an
atomic's the bytes that it names; poison marks stay (R422). -/
def State.answered (s : State) (a : Acc) (r : Answer) : State :=
  let line := (r.bytes ++ List.replicate 128 0).take 128
  match a.kind with
  | .msg task cpl =>
    s.handOver a task cpl (a.ofLine line) ((List.range 64).filter fun i => r.bad.contains (a.loc.pa % 128 + i))
  | .inv _ => ((s.fillBuffer a line r.bad).arrive a (a.ofLine line) (a.badIn r.bad)).dropAcc a.id
  | .store _ => (s.arrive a [] false).dropAcc a.id
  | .amo .. => (s.arrive a (line.take a.n) (r.bad.any (· < a.n))).dropAcc a.id
  | .cas .. => (s.arrive a (line.take a.n) (r.bad.any (· < a.n))).dropAcc a.id
  | _ => (s.arrive a (a.ofLine line) (a.badIn r.bad)).dropAcc a.id

/-- LANDING_ARRIVAL (R26, R115): a pending access is performed and lands. For a place of another device its request leaves first
(R320); it lands the bytes that the event then brings, or, when it was not performed there, poisoned data (R467, R468). -/
def execLandingArrival (id : Nat) (remote : Option Answer) (s : State) : Out :=
  match s.acc id with
  | none => .next s
  | some a =>
    if !s.accReady a then .next s
    else if a.loc.dev = s.ownDev.toNat ∨ (s.bufferOf a).isSome = true then
      if a.special || s.lineLocked (dieOf (panOf a.ctx)) (a.loc.forReader (dieOf (panOf a.ctx))).pa a.n then .next s
      else .next (s.performLocal a)
    else if !s.reaches (dieOf (panOf a.ctx)) a.loc.dev then .next (s.lose a)
    else match remote with
      | some r => .next (s.answered a r)
      | none => .next (if a.sent then s.lose a else s.sendAcc a)

/-- Whether two accesses share a 128-byte line of the primary replica. -/
def Acc.sameLine (a b : Acc) : Bool :=
  let p := a.loc.owner.pa
  let q := b.loc.owner.pa
  decide (q / 128 ≤ (p + a.n - 1) / 128) && decide (p / 128 ≤ (q + b.n - 1) / 128)

/-- The commit of a write to a replicated line (R323, steps 1 to 3): all eight replicas are locked, the primary's copy takes
the new bytes, and what is to land and to be sent is kept with the access. -/
def State.commit (s : State) (a : Acc) (old : List Byte) (bad : Bool) (new : Option (List Byte)) : State :=
  let s := match new with
    | some bs => s.memWrite (s.ctx a.ctx).pid a.loc.owner.pa bs
    | none => s
  let a := { a with committed := true, locked := List.range 8, bytes := new.getD [], got := old, bad := bad }
  { s with accs := s.accs.map fun b => if b.id == a.id then a else b }

/-- REPLICA_COMMIT (R323, steps 1 to 3): a write to a line of a replicated page commits at its primary; a CAS that fails, or
corrupt data, write nothing. -/
def execReplicaCommit (id : Nat) (s : State) : Out :=
  match s.acc id with
  | none => .next s
  | some a =>
    let p := a.loc.owner.pa
    let taken := s.accs.any fun b => b.committed && b.loc.rep && a.sameLine b
    let ordered := match a.kind with | .amo .fadd _ _ _ o => o | _ => false
    if s.accReady a && !a.committed && a.loc.rep && a.kind.stores && !ordered && a.loc.dev == s.ownDev.toNat && !taken then
      let (s, old, bad) := s.serveAt a p
      .next (s.commit a old bad (a.kind.newBytes a.n old bad))
    else .next s

/-- REPLICA_UNLOCK (R323, steps 4 and 5): one replica writes the new bytes and unlocks the line; with the last one the access
is performed and lands. -/
def execReplicaUnlock (id : Nat) (die : BitVec 3) (s : State) : Out :=
  match s.acc id with
  | none => .next s
  | some a =>
    let k := die.toNat
    if a.committed && a.locked.contains k then
      let s := s.unlockOne a k
      let left := a.locked.filter fun d => d != k
      if left = [] then .next (s.committedEnd a)
      else .next { s with accs := s.accs.map fun b => if b.id == id then { a with locked := left } else b }
    else .next s

/-! ### Ordered fadd (R462) -/

/-- One term of an exact sum: its value in units of 2^−149 and its special states (R462). -/
def FaddEntry.plus (f : FaddEntry) (v : Val) : FaddEntry :=
  match v with
  | .nan => { f with nan := true }
  | .inf neg => if neg then { f with ninf := true } else { f with pinf := true }
  | .fin neg m e => { f with sum := f.sum + scaled neg m (if m = 0 then 0 else e) (-149), negz := f.negz && m == 0 && neg }

/-- The value of an exact sum (R462). -/
def FaddEntry.value (f : FaddEntry) : Val :=
  if f.nan || (f.pinf && f.ninf) then .nan
  else if f.pinf then .inf false
  else if f.ninf then .inf true
  else ofInt f.sum (-149) f.negz

/-- The MODEFP value of two binary32 flush bits. -/
def flush32 (fin fres : Bool) : BitVec 6 := (0 : BitVec 4) ++ BitVec.ofBool fres ++ BitVec.ofBool fin

/-- The entry of a location that ordered fadds have opened (R462). -/
def State.faddAt (s : State) (dev p : Nat) : Option FaddEntry := s.fadds.find? fun f => f.dev == dev && f.pa == p
/-- Whether an ordered fadd to a location must wait for an entry (R462). -/
def State.faddFull (s : State) (dev p : Nat) : Bool := (s.faddAt dev p).isNone && decide (Config.faddEntries ≤ s.fadds.length)
/-- The entry of a location, opened with its value, after one more term; and the bytes that it gives the location (R462). -/
def State.faddNext (s : State) (dev p : Nat) (task : TaskRef) (inst : BitVec 24) (cid : BitVec 16) (old : List Byte) (mode : BitVec 6)
    (v : Nat) : FaddEntry × List Byte :=
  let f0 := (s.faddAt dev p).getD
    (FaddEntry.plus ⟨dev, p, task, 0, true, false, false, false, inst, cid⟩ (binary32.decode mode (leNat old)))
  let f := f0.plus (binary32.decode mode v)
  (f, natLe 4 (binary32.encode mode .rne f.value))
/-- Keeps an entry. -/
def State.keepFadd (s : State) (f : FaddEntry) : State :=
  { s with fadds := (s.fadds.filter fun g => !(g.dev == f.dev && g.pa == f.pa)) ++ [f] }

/-- ORDERED_FADD (R462): the owner adds the operand exactly to the location's entry, which its first ordered fadd opens, and
writes the rounded sum; when the table is full the access waits. On a replicated page the write is the commit of R323. -/
def execOrderedFadd (id : Nat) (s : State) : Out :=
  match s.acc id with
  | none => .next s
  | some a =>
    match a.kind with
    | .amo .fadd v fin fres true =>
      let p := a.loc.owner.pa
      let taken := s.accs.any fun b => b.committed && b.loc.rep && a.loc.rep && a.sameLine b
      if !s.accReady a || a.committed || a.loc.dev != s.ownDev.toNat || taken || s.faddFull a.loc.dev p then .next s
      else
        let (s, old, bad) := s.serveAt a p
        if bad then (if a.loc.rep then .next (s.commit a old bad none) else .next ((s.arrive a old bad).dropAcc id))
        else
          let (f, bs) := s.faddNext a.loc.dev p (s.ctx a.ctx).ref (s.ctx a.ctx).inst a.cid old (flush32 fin fres) v
          let s := if a.loc.rep then s.commit a old bad (some bs)
            else ((s.memWrite (s.ctx a.ctx).pid p bs).arrive a old false).dropAcc id
          .next (s.keepFadd f)
    | _ => .next s

/-! ### Message delivery (R132, R285) -/

/-- MSG_DELIVERY (R132, R285): the message is read once every earlier access of its context is performed, and delivered. A read that
meets a locked line is held (R324); corrupt bytes are delivered with their poison marks, which their first use reports (R392, R422). -/
def execMsgDelivery (id : Nat) (s : State) : Out :=
  match s.acc id with
  | none => .next s
  | some a =>
    match a.kind with
    | .msg task cpl =>
      let p := (a.loc.forReader (dieOf (panOf a.ctx))).pa
      if s.accReady a && a.loc.dev == s.ownDev.toNat && !s.lineLocked (dieOf (panOf a.ctx)) p a.n then
        let (s, bs, _) := s.serve a
        .next (s.handOver a task cpl bs ((List.range a.n).filter fun i => Kv.get false s.poison (p + i)))
      else .next s
    | _ => .next s

/-! ### The accesses of a context that ends (R295) -/

/-- The lines of a write at the replicas of its page besides the primary's (R322). -/
def State.countOthers (s : State) (die : Nat) (l : Loc) (n : Nat) : State :=
  if l.rep then (List.range 8).foldl (fun s k => if k = l.prim then s else s.countAccess die (atStack l.pa k) n) s else s

/-- An ordered fadd that meets a full table of entries waits at its owner (R462), also when its context ends: it stays behind as a request
of this device, with its die and its partition in place of a size. -/
def State.leaveFadd (s : State) (a : Acc) (v : Nat) (fin fres : Bool) : State :=
  let x := s.ctx a.ctx
  let op : RemoteOp := .amo .fadd (natLe 4 v) true fin fres x.task
  { s with inputs := s.inputs ++ [(s.cycle + 1, .remoteRequest x.tenant s.ownDev (BitVec.ofNat 48 a.loc.pa)
    (dieOf (panOf a.ctx) + 8 * x.pid) a.loc.rep op)] }

/-- An issued write or message of a context that ends is performed at system scope, without landing; its reads are discarded
(R295). -/
def State.performNow (s : State) (id : Nat) : State :=
  match s.acc id with
  | none => s
  | some a =>
    let own := a.loc.dev == s.ownDev.toNat
    let die := dieOf (panOf a.ctx)
    let pid := (s.ctx a.ctx).pid
    if a.committed then s.finishCommit a
    else match a.kind with
    | .msg task cpl =>
      if own then
        let (s, bs, _) := (s.settleAt a.loc a.n).serve a
        s.handOver a task cpl bs ((List.range a.n).filter fun i => Kv.get false s.poison ((a.loc.forReader die).pa + i))
      else s.lose a
    | k =>
      let p := a.loc.owner.pa
      match k, own && s.faddFull a.loc.dev p && (s.poisoned p a.n).isNone with
      | .amo .fadd v fin fres true, true => (s.leaveFadd a v fin fres).dropAcc id
      | _, _ =>
      if !k.stores then s.dropAcc id
      else if !own then (if a.sent then s else s.sendAcc a).dropAcc id
      else
        let (s, old, bad) := (s.settleAt a.loc a.n).serveAt a a.loc.owner.pa
        let s := s.countOthers die a.loc a.n
        let s := match k, bad with
          | .amo .fadd v fin fres true, false =>
            let (f, bs) := s.faddNext a.loc.dev p (s.ctx a.ctx).ref (s.ctx a.ctx).inst a.cid old (flush32 fin fres) v
            (s.writeLoc pid a.loc bs).keepFadd f
          | _, _ => match k.newBytes a.n old bad with | some bs => s.writeLoc pid a.loc bs | none => s
        s.dropAcc id

/-- What a context has issued to memory is performed, in its order. -/
def State.performIssued (s : State) (c : Nat) : State :=
  ((s.accs.filter fun a => a.ctx == c).map (·.id)).foldl State.performNow s

end Sys2Proof.Machine
end

