-- ==== Sys2Proof/Machine/Load.lean ====
section
/-! DEFINITION. Reading through an extent table, the expansion of a context's text and dictionary (R40, R55, R67 to R71,
R497), and the order of the reads that hold their context (R327, R333). -/

namespace Sys2Proof.Machine

/-- What a read through an extent table gives: bytes, the first address outside every extent, or the first corrupt one. -/
inductive VRead where
  | bytes (bs : List Byte)
  | range (a : Nat)
  | corrupt (a : Nat)
  deriving DecidableEq, Repr

/-- One byte; a byte of another device's memory is a free value (log 18). -/
def State.virtByte (s : State) (x : Ctx) (die a : Nat) : VRead :=
  match x.extentOf a with
  | none => .range a
  | some e =>
    let l := (e.locOf a).forReader die
    if l.dev = s.ownDev.toNat then
      if Kv.get false s.poison l.pa && !Kv.get false s.scrub (l.pa / 128) then .corrupt a else .bytes [s.peek l.pa]
    else .bytes [BitVec.ofNat 8 (Config.freeNat (s.freeCtr + a))]

/-- `n` bytes from a virtual address on, through the extents of a context on a die. -/
def State.readVirt (s : State) (x : Ctx) (die : Nat) : Nat → Nat → VRead
  | _, 0 => .bytes []
  | a, n + 1 =>
    match s.virtByte x die a with
    | .bytes b =>
      match s.readVirt x die (a + 1) n with
      | .bytes bs => .bytes (b ++ bs)
      | e => e
    | e => e

/-- The lines of `n` bytes of virtual memory, as their first addresses. -/
def linesOf (a n : Nat) : List Nat := if n = 0 then [] else (List.range ((a + n - 1) / 128 - a / 128 + 1)).map fun i => max a ((a / 128 + i) * 128)

/-- What the memory side does at a read through an extent table: each line is counted for the F-die that asks (R322) and scrubbed
(R428), and a line of another device is asked for over the link (R320). A commit under way on a replica ends first (R324). -/
def State.touchVirt (s : State) (x : Ctx) (by' : Option Nat) (a n : Nat) : State :=
  let die := by'.getD 0
  (linesOf a n).foldl (fun s v =>
    match x.extentOf v with
    | none => s
    | some e =>
      let l := (e.locOf v).forReader die
      if l.dev ≠ s.ownDev.toNat then s.askLine die x.tenant l
      else
        let s := s.settleAt l 1
        (if by'.isSome then s.countAccess die l.pa 1 else s).scrubFor l.pa 1) s

/-- A read that failed, as the fault it raises: cause and TVAL (R497). -/
def VRead.fault : VRead → Option (Nat × Word)
  | .bytes _ => none
  | .range a => some (0x09, BitVec.ofNat 64 a)
  | .corrupt a => some (0x12, BitVec.ofNat 64 a)

/-- The dictionary image as entries of 128 bits (R67). -/
def dictEntries : Nat → List Byte → List Nat
  | 0, _ => []
  | n + 1, bs => leNat (bs.take 16) :: dictEntries n (bs.drop 16)
/-- The entries of an image that cannot be read: each breaks R67 and expands as the malformed word (R497). -/
def badDict : List Nat := List.replicate 256 (2 ^ 96)

/-- The bytes of `n` lines of text; a line that cannot be read is 64 bytes with no valid class, each a fill-fault word (R56,
R497). The first failure comes with them. -/
def State.readLines (s : State) (x : Ctx) (die : Nat) : Nat → Nat → List Byte × Option (Nat × Word)
  | _, 0 => ([], none)
  | a, n + 1 =>
    let r := s.readVirt x die a 64
    let (rest, f) := s.readLines x die (a + 64) n
    match r with
    | .bytes bs => (bs ++ rest, f)
    | e => (List.replicate 64 0xF1 ++ rest, e.fault)

/-- Expands the text that a context has read under its dictionary and generation (R40, R68, R69). -/
def Ctx.expand (x : Ctx) : Ctx := { x with store := expandText x.dict x.textLines 0 x.text, storeGen := x.dgen }
/-- Reads a context's whole text from memory and expands it (R40, R41, R141). -/
def State.expandAll (s : State) (x : Ctx) (die : Nat) : Ctx × Option (Nat × Word) :=
  let (bs, f) := s.readLines x die x.textBase x.textLines
  ({ x with text := bs }.expand, f)

/-- The instruction at an expanded start, if its word decodes. -/
def Expanded.instr? (e : Expanded) : Option Instr :=
  match e.cell with
  | .fill => none
  | .word w => match decodeWord w with | .ok i => some i | .error _ => none
/-- The instruction that a context stands at. -/
def Ctx.instr? (x : Ctx) : Option Instr := (x.startAtPc x.pc.toNat).bind Expanded.instr?

/-- TVAL of a decode fault: bits [95:32] of the word (R60). -/
def wordTval (w : IWord) : Nat := w.toNat / 2 ^ 32
/-- The same for an instruction whose entry raises the decode fault. -/
def instrTval (i : Instr) : Nat := wordTval ((encodeWord i).getD 0)

/-- The accesses that must be performed before a read of the issuing context that holds it: everything a fence or an acquire
holds back, and the context's writes, which may overlap it; a release read comes after everything (R327, R333). -/
def State.readFree (s : State) (rel : Bool) : Bool :=
  s.free s.self.heldAll && !(s.accs.any fun a => a.ctx == s.cur && (rel || a.acq || a.kind.stores))
/-- No access of the issuing context under way touches the lines of `n` bytes at `v` (R333, location). -/
def State.linesFree (s : State) (v n : Nat) : Bool :=
  let mine := s.accs.filter fun a => a.ctx == s.cur
  mine.isEmpty || !((linesOf v n).any fun p => mine.any fun a => a.overlaps (s.locate s.self true (p / 128 * 128)) 128)

end Sys2Proof.Machine
end

