-- ==== Sys2Proof/Machine/Flags.lean ====
section
/-! DEFINITION. The status bits of a lane (R198, R229): how a result that sets a lane and one that adds to it leave L, OVF,
NAN, valid and dirty. -/

namespace Sys2Proof.Machine

def laneMin : Int := -(2 ^ 63)
def laneMax : Int := 2 ^ 63 - 1

/-- A row writes the lane without accumulating: L is set, OVF and NAN clear, valid and dirty set (R198, R229). -/
def Lane.put (x : Lane) (l : BitVec 64) : Lane := { x with l := l, ovf := false, nan := false, valid := true, dirty := true }

/-- A saturating addition: OVF sets on saturation, NAN sticks, valid and dirty set (R199, R229, R260, R263). -/
def Lane.plus (x : Lane) (v : Int) (nan : Bool) : Lane :=
  let t := x.l.toInt + v
  { x with l := BitVec.ofInt 64 (satI t laneMin laneMax), ovf := x.ovf || decide (t < laneMin) || decide (laneMax < t),
           nan := x.nan || nan, valid := true, dirty := true }

/-- The same with the reference exponent of a tile step (R254, R259). -/
def Lane.contribute (x : Lane) (v : Int) (nan : Bool) (re : BitVec 10) : Lane := { x.plus v nan with re := re }

/-- What TDISC and BREL clear; RE stays (R228, R233). -/
def Lane.discard (x : Lane) : Lane := { x with l := 0, ovf := false, nan := false, valid := false, dirty := false }

/-- What a tile step with Z clears in its first kernel cycle (R254). -/
def Lane.zero (x : Lane) : Lane := { x with l := 0, ovf := false, nan := false }

/-- The status word of TRDL (R264). -/
def Lane.statusWord (x : Lane) (inFlight : Bool) : BitVec 32 :=
  BitVec.ofNat 32 ((if x.ovf then 1 else 0) + (if x.nan then 2 else 0) + (if x.valid then 4 else 0)
    + (if x.dirty then 8 else 0) + (if inFlight then 16 else 0) + 2 ^ 16 * x.re.toNat)

end Sys2Proof.Machine
end

