-- ==== Sys2Proof/Machine/Operands.lean ====
section
/-! DEFINITION. The operands of rows (R234, R260), what each row reads and writes and with which latency, results in flight
and their landing (R158, R162, R229), sends between elements (R162, R163, R217, R218), and the faults of rows (R176 to
R179). -/

namespace Sys2Proof.Machine

/-! ### The element that issues -/

def State.focus (s : State) : Elem := s.elem s.site.pan s.site.elem
def State.setFocus (s : State) (x : Elem) : State := s.setElem s.site.pan s.site.elem x
def Elem.reg (x : Elem) (k : BitVec 5) : BitVec 32 := Kv.get 0 x.e k.toNat
def Elem.lane (x : Elem) (t : BitVec 3) : Lane := Kv.get {} x.t t.toNat
def Elem.setLane (x : Elem) (t : BitVec 3) (l : Lane) : Elem := { x with t := Kv.set {} x.t t.toNat l }
def elemX (e : Nat) : Nat := e % 16
def elemY (e : Nat) : Nat := e / 16
/-- The node that serves an element (R144). -/
def nodeOf (e : Nat) : Nat := elemX e / 4 + 4 * (elemY e / 4)
/-- The control entry of buffer `b` of an element's node. -/
def nodeKey (pan e b : Nat) : Nat := 128 * pan + 8 * nodeOf e + b
def concKey (pan c : Nat) : Nat := 16 * fieldOf pan + c

/-! ### Ports (R162, R216, R217) -/

def portIdx : Port → Nat | .n => 0 | .e => 1 | .s => 2 | .w => 3
def opposite : Port → Port | .n => .s | .e => .w | .s => .n | .w => .e
/-- Whether a port lies on the array's boundary (R217). -/
def onEdge (e : Nat) : Port → Bool
  | .n => elemY e == 0 | .e => elemX e == 15 | .s => elemY e == 15 | .w => elemX e == 0
def Block.elemCfg (b : Block) (e : Nat) : ElemCfg := Kv.get {} b.elems e
/-- KIND and BUF of a port's route field, and its delay (R216, R161). -/
def ElemCfg.kind (c : ElemCfg) (p : Port) : Nat := bitsN c.route.toNat (16 * portIdx p) 2
def ElemCfg.buf (c : ElemCfg) (p : Port) : Nat := bitsN c.route.toNat (16 * portIdx p + 2) 3
def ElemCfg.delay (c : ElemCfg) (p : Port) : Nat := bitsN c.dly.toNat (4 * portIdx p) 4

/-- What a row of a block reads at a port (R162, R217): KIND 3 and a boundary port of KIND 0 read zero, and so does a port
that nothing has reached since the block's flip. -/
def State.portVal (s : State) (p : Port) : BitVec 128 :=
  let c := (s.activeBlk s.site.pan s.site.mask).elemCfg s.site.elem
  let v := Kv.get {} s.focus.ports (portIdx p)
  if c.kind p = 3 ∨ (c.kind p = 0 ∧ onEdge s.site.elem p) then 0
  else if v.since ≤ (s.runOf s.site.pan s.site.mask).flip then 0 else v.v

/-! ### Sources (R62, R234, R260) -/

/-- An immediate extended by IS (R62). -/
def immVal (i : Imm) : BitVec 32 := if i.s then i.v.signExtend 32 else i.v.setWidth 32

/-- A source of 32 bits (R234). A lane that is not valid holds L = 0 (R229). -/
def State.src32 (s : State) (a : Src) (i : Imm) : BitVec 32 :=
  match a with
  | .e k => s.focus.reg k
  | .lane t => (s.focus.lane t).l.setWidth 32
  | .port p => (s.portVal p).setWidth 32
  | .imm => immVal i
  | .zero => 0

def noImm : Imm := ⟨0, false⟩

/-- A source of 64 bits (R243): an e register is zero-extended. -/
def State.src64 (s : State) (a : Src) (i : Imm) : BitVec 64 :=
  match a with
  | .lane t => (s.focus.lane t).l
  | .port p => (s.portVal p).setWidth 64
  | a => (s.src32 a i).setWidth 64

/-- A source of 128 bits (R260). -/
def State.src128 (s : State) (a : Src) : BitVec 128 :=
  match a with
  | .port p => s.portVal p
  | a => (s.src64 a noImm).setWidth 128

/-! ### Results in flight (R158, R234) -/

/-- The start of the block that issues. -/
def State.siteBlk (s : State) : Nat := (s.runOf s.site.pan s.site.mask).start

/-- A result of the issuing element with latency `lat`; destination 0x3F discards it. -/
def State.emitResult (s : State) (d : Dst) (v : EVal) (lat : Nat) : State :=
  match d with
  | .none => s
  | d =>
    let x := s.focus
    s.setFocus { x with flight := x.flight ++ [⟨s.site.mask, s.site.kc + lat, d, v, decide (1 < lat), s.siteBlk⟩] }

/-- A 32-bit result as its destination takes it: sign-extended to a lane when the row gives a signed integer (R234). -/
def bits32 (signed : Bool) (d : Dst) (v : BitVec 32) : EVal :=
  match d with
  | .lane _ => .bits ((if signed then v.signExtend 64 else v.setWidth 64).setWidth 128)
  | _ => .bits (v.setWidth 128)

/-- A row with a 32-bit result. -/
def State.row32 (s : State) (signed : Bool) (d : Dst) (v : BitVec 32) (lat : Nat) : Out :=
  .next (s.emitResult d (bits32 signed d v) lat)

/-! ### Sends (R162, R218) -/

/-- The neighbour of an element in a direction, inside the array. -/
def neighbour (e : Nat) : Port → Option Nat
  | .n => if elemY e = 0 then none else some (e - 16)
  | .s => if elemY e = 15 then none else some (e + 16)
  | .e => if elemX e = 15 then none else some (e + 1)
  | .w => if elemX e = 0 then none else some (e - 1)

/-- The logical pan next to one in its field, in a grid of four by four with row 0 to the north (R218). -/
def adjacentPan (pan : Nat) (p : Port) : Option Nat :=
  let q := pan % 16
  match p with
  | .n => if q / 4 = 0 then none else some (pan - 4)
  | .s => if q / 4 = 3 then none else some (pan + 4)
  | .e => if q % 4 = 3 then none else some (pan + 1)
  | .w => if q % 4 = 0 then none else some (pan - 1)
/-- The element of the adjacent pan that faces an element across the edge. -/
def facing (e : Nat) : Port → Nat
  | .n => 240 + elemX e | .s => elemX e | .e => 16 * elemY e | .w => 16 * elemY e + 15

/-- Puts a value into the delay line of a port, to leave at kernel cycle `due` of a mask or at a fabric cycle. -/
def State.enterDelay (s : State) (pan e : Nat) (p : Port) (mask : BitVec 8) (due : Nat) (fab : Option Nat)
    (v : BitVec 128) : State :=
  let x := s.elem pan e
  s.setElem pan e { x with delay := x.delay ++ [⟨p, mask, due, fab, v⟩] }

/-- Whether two contexts belong to one instance. -/
def State.sameInst (s : State) (c d : Nat) : Bool := (s.ctx c).pid == (s.ctx d).pid && (s.ctx c).task == (s.ctx d).task && (s.ctx c).inst == (s.ctx d).inst

/-- A value sent in direction `p` by an element under a mask (R162, R163, R217, R218). -/
def State.send (s : State) (pan e : Nat) (mask : BitVec 8) (p : Port) (v : BitVec 128) : State :=
  match neighbour e p with
  | some e' =>
    let b := s.activeBlk pan mask
    let q := opposite p
    if b.live then
      if (b.elemCfg e').kind q = 0 then s.enterDelay pan e' q mask (s.kc pan mask + 1 + (b.elemCfg e').delay q) none v else s
    else s.enterDelay pan e' q mask 0 (some (s.cycle + 1)) v
  | none =>
    match adjacentPan pan p with
    | none => s
    | some pan' =>
      let b := s.activeBlk pan' mask
      let e' := facing e p
      let q := opposite p
      if b.live && (b.elemCfg e').kind q == 2 && s.sameInst (s.runOf pan mask).ctx (s.runOf pan' mask).ctx then
        s.enterDelay pan' e' q mask (s.kc pan' mask + 3 + (b.elemCfg e').delay q) none v
      else s

/-! ### Landing (R158, R162, R229, R254) -/

/-- A result lands in its element, or is sent. -/
def State.landOne (pan e : Nat) (s : State) (f : EFlight) : State :=
  let x := s.elem pan e
  match f.dst, f.val with
  | .e k, .bits v => s.setElem pan e { x with e := Kv.set 0 x.e k.toNat (v.setWidth 32) }
  | .lane t, .bits v => s.setElem pan e (x.setLane t ((x.lane t).put (v.setWidth 64)))
  | .lane t, .setLane v => s.setElem pan e (x.setLane t ((x.lane t).put (BitVec.ofInt 64 v)))
  | .lane t, .addLane v nan => s.setElem pan e (x.setLane t ((x.lane t).plus v nan))
  | .port p, .bits v => s.send pan e f.mask p v
  | _, _ => s

/-- A contribution lands (R199, R254). -/
def State.landContrib (pan e : Nat) (s : State) (c : Contrib) : State :=
  let x := s.elem pan e
  s.setElem pan e (x.setLane c.t ((x.lane c.t).contribute c.val c.nan c.re))

/-- The contributions and results of an element that are due land: contributions first, and results in the order of their
issue (R158, R254; log 25). -/
def State.landElem (s : State) (key : Nat) : State :=
  let pan := key / 256
  let e := key % 256
  let x := s.elem pan e
  let due := fun (m : BitVec 8) (d : Nat) => decide (d ≤ s.kc pan m) && !(s.runOf pan m).stopped
  let s' := s.setElem pan e { x with flight := x.flight.filter fun f => !due f.mask f.due,
                                     contrib := x.contrib.filter fun c => !due c.mask c.due }
  let s' := (x.contrib.filter fun c => due c.mask c.due).foldl (State.landContrib pan e) s'
  (x.flight.filter fun f => due f.mask f.due).foldl (State.landOne pan e) s'

/-- The values that are due leave the delay lines of an element into its ports (R162). -/
def State.exitElem (s : State) (key : Nat) : State :=
  let pan := key / 256
  let e := key % 256
  let x := s.elem pan e
  let due := fun (d : DelayStage) => match d.fab with
    | some c => decide (c ≤ s.cycle)
    | none => decide (d.due ≤ s.kc pan d.mask) && !(s.runOf pan d.mask).stopped
  let put := fun (ps : Kv PortVal) (d : DelayStage) => Kv.set {} ps (portIdx d.port) ⟨d.val, s.cycle⟩
  if x.delay.any due then
    s.setElem pan e { x with delay := x.delay.filter fun d => !due d, ports := (x.delay.filter due).foldl put x.ports }
  else s

/-- ELEMENT_RESULT_LANDING (R158, R229). -/
def execElementResultLanding (elem : Nat) (s : State) : Out := .next (s.landElem elem)
/-- PORT_DELAY_EXIT (R162). -/
def execPortDelayExit (elem : Nat) (s : State) : Out := .next (s.exitElem elem)

/-- Whether a lane of an element has a result in flight, a captured one among them (R144, R158, R178, R254). -/
def State.laneBusy (s : State) (pan e : Nat) (t : BitVec 3) : Bool :=
  let x := s.elem pan e
  (x.flight.any fun f => f.dst == .lane t) || (x.ye.any fun y => y.dst == .lane t) || (x.contrib.any fun c => c.t == t)
    || (s.tiles.any fun r => r.pan == pan && r.ent.bits.extractLsb' 41 3 == t
        && decide (r.x0 ≤ elemX e) && decide (elemX e < r.x0 + r.nx) && decide (r.y0 ≤ elemY e) && decide (elemY e < r.y0 + r.ny))

/-! ### Kernel cycles (R155, R437) -/

/-- Whether a pan's tide domain is in a stall cycle (R437). -/
def State.stalled (s : State) (pan : Nat) : Bool := (s.domain (s.domOf pan)).stallAt.isSome
/-- Whether the wheel position of this fabric cycle lies in a mask, on a pan. -/
def State.inSlot (s : State) (pan : Nat) (mask : BitVec 8) : Bool := !s.stalled pan && mask.getLsbD (s.wheel pan)
/-- Whether this fabric cycle, once begun, is a kernel cycle of the block of a key: it has been counted as one at its start, so that a
block that RFT resumes in it goes on with the next (R178). -/
def State.counted (s : State) (key : Nat) : Bool :=
  let r := Kv.get {} s.runs key
  s.begun && r.live && !r.stopped && s.clocked.contains key

/-! ### Block faults (R178, R179) -/

/-- The rank of a cause (R179). -/
def causeRank (c : Nat) : Nat :=
  match c with | 0x07 => 0 | 0x0D => 1 | 0x0E => 2 | 0x08 => 3 | _ => 4

/-- TVAL of a block fault (R178). -/
def faultTval (x y row kind num copy unit found expected : Nat) : Nat :=
  x + 2 ^ 4 * y + 2 ^ 8 * row + 2 ^ 13 * kind + 2 ^ 16 * num + 2 ^ 21 * copy + 2 ^ 27 * unit + 2 ^ 32 * found + 2 ^ 48 * expected

/-- Records a fault of this kernel cycle; the one that ranks first is reported (R179). Corrupt data come with their physical address
in place of a tag found, and their TVAL has tags of 0 (R392). -/
def State.blockFault (s : State) (cause x y row kind num copy unit found expected : Nat) : State :=
  let tag := if cause = 0x12 then 0 else found
  { s with bfaults := s.bfaults ++ [{ cause := cause, tval := faultTval x y row kind num copy unit tag expected,
                                      rank := [causeRank cause, copy, unit, y, x], pa := if cause = 0x12 then some found else none }] }

/-- A fault of the issuing element. -/
def State.rowFault (s : State) (cause kind num found expected : Nat) : State :=
  s.blockFault cause (elemX s.site.elem) (elemY s.site.elem) s.site.row kind num s.site.copy 0 found expected

/-! ### Slots of bindings (R176, R177, R305) -/

def BindCtl.slot (c : BindCtl) (k : Nat) : SlotCtl := Kv.get {} c.slots k
def BindCtl.setSlot (c : BindCtl) (k : Nat) (v : SlotCtl) : BindCtl := { c with slots := Kv.set {} c.slots k v }
def BindCtl.readSlot (c : BindCtl) : SlotCtl := c.slot c.rp
/-- The read slot empties, and the read pointer advances (R305). -/
def BindCtl.release (c : BindCtl) : BindCtl :=
  let c := c.setSlot c.rp { c.readSlot with full := false }
  { c with rp := if c.depth = 0 then 0 else (c.rp + 1) % c.depth, rankPos := 0, rpos := 0 }
/-- A slot becomes full with the producer counter as its tag, and the write pointer advances (R305). -/
def BindCtl.complete (c : BindCtl) (k : Nat) : BindCtl :=
  let c := c.setSlot k { full := true, tag := c.pctr, chk := false }
  { c with pctr := c.pctr + 1, wp := if c.depth = 0 then 0 else (c.wp + 1) % c.depth, wpos := 0 }
/-- The first read of a full slot has compared its tag: the expected counter advances (R177). -/
def BindCtl.checked (c : BindCtl) : BindCtl :=
  if c.readSlot.chk then c else { c.setSlot c.rp { c.readSlot with chk := true } with xctr := c.xctr + 1 }
/-- Whether the read slot's tag, still to be compared, differs from the expected counter (R177). -/
def BindCtl.mismatch (c : BindCtl) : Bool := !c.readSlot.chk && c.readSlot.tag != c.xctr

end Sys2Proof.Machine
end

