-- ==== Sys2Proof/Machine/Streams.lean ====
section
/-! DEFINITION. Streams through the sluice (R436, R450 to R457, R482, R483): their ends, what travels, the stage, and the
steps in which units, moves and releases arrive. -/

namespace Sys2Proof.Machine

/-! ### Streams and positions (R436, R450) -/

/-- The stream that a die's end with SIDE and q names, in a partition: 128·partition + 16·M-die + q. -/
def streamAt (pid die q : Nat) (side : Bool) : Nat := 128 * pid + 16 * (if side then (die + 7) % 8 else die) + q
def State.stream (s : State) (k : Nat) : Stream := Kv.get {} s.streams k
def State.setStream (s : State) (k : Nat) (x : Stream) : State := { s with streams := Kv.set {} s.streams k x }

/-- The fields of a stream entry (R220): DIR, DEPTH, SIDE, g, FIRST. -/
def strRecv (p : Nat) : Bool := p.testBit 4
def strDepth (p : Nat) : Nat := bitsN p 5 10 + 1
def strSide (p : Nat) : Bool := p.testBit 15
def strG (p : Nat) : Nat := bitsN p 16 16
def strFirst (p : Nat) : Nat := bitsN p 32 16

/-- The stream that a block on a pan means by q. -/
def State.streamOf (s : State) (pan : Nat) (b : Block) (q : Nat) : Nat :=
  streamAt (s.owner (fieldOf pan)) (dieOf pan) q (strSide (Kv.get 0 b.strB q))

/-- The sluice position of a slot of a stream. -/
def Stream.place (st : Stream) (key k : Nat) : Nat := key / 16 * 16384 + st.first + k % max 1 st.depth
def State.position (s : State) (p : Nat) : Place := Kv.get {} s.sluice p
def State.setPosition (s : State) (p : Nat) (x : Place) : State := { s with sluice := Kv.set {} s.sluice p x }

/-- Something leaves for the sluice or the stage, to arrive 12 cycles later (R451 to R453). -/
def State.travel (s : State) (key : Nat) (t : Transit) : State :=
  let st := s.stream key
  { s.setStream key { st with transit := st.transit ++ [(s.cycle + 12, s.nextId, t)] } with nextId := s.nextId + 1 }

/-! ### The stage (R452) -/

def Transit.isMove : Transit → Bool | .toStage _ => true | _ => false

/-- Whether slot `k` is complete in the sluice, or a refused mark stands for it. -/
def State.slotReady (s : State) (key : Nat) (st : Stream) (k : Nat) : Bool :=
  let p := s.position (st.place key k)
  (st.marks.any fun m => m.k == k) || (p.used && p.full && p.k == k)

/-- The next slot in order leaves for a free place of the stage, if it is complete. -/
def State.startMove (s : State) (key : Nat) : State :=
  let st := s.stream key
  let busy := st.stage.length + (st.transit.filter fun t => t.2.2.isMove).length
  if st.recv.isSome && decide (busy < 2) && s.slotReady key st st.kStage then
    (s.setStream key { st with kStage := st.kStage + 1 }).travel key (.toStage st.kStage)
  else s

/-- Both places of the stage are offered. -/
def State.startMoves (s : State) (key : Nat) : State := (s.startMove key).startMove key

/-! ### The ends of a stream (R450, R483) -/

/-- The receive end numbers its slots from 0 anew at its flip (R452): its stage empties, moves under way end, and refused marks that stood
in the stage wait as before. -/
def Stream.restage (st : Stream) : Stream :=
  { st with stage := [], marks := (st.stage.filter fun p => p.refused) ++ st.marks, transit := st.transit.filter fun t => !t.2.2.isMove }

/-- The block at `blk` binds an end of a stream at its flip; the first end gives DEPTH and FIRST. -/
def State.openEnd (s : State) (key blk pay : Nat) : State :=
  let st := s.stream key
  let st := if st.send.isNone && st.recv.isNone then { ({} : Stream) with depth := strDepth pay, first := strFirst pay } else st
  let st := if strRecv pay then { st.restage with recv := some blk, kR := 0, kStage := 0, pos := 0, g := strG pay, pktX := 0 }
    else { st with send := some blk, kS := 0, npk := 0, pktW := 0, units := 0 }
  (s.setStream key st).startMoves key

/-- Positions of a stream go, with their contents. -/
def State.freePositions (s : State) (key : Nat) (st : Stream) : State :=
  let lo := key / 16 * 16384 + st.first
  { s with sluice := s.sluice.filter fun e => !(decide (lo ≤ e.1) && decide (e.1 < lo + st.depth)) }

/-- An end is released; with the second one the positions are freed. -/
def State.closeEnd (s : State) (key : Nat) (recv : Bool) : State :=
  let st := s.stream key
  let st := if recv then { st with recv := none } else { st with send := none }
  if st.send.isNone && st.recv.isNone then (s.freePositions key st).setStream key {} else s.setStream key st

/-! ### Sending (R451, R482) -/

/-- The program tide that a pan's rows of a context see (R438). -/
def State.rowTau (s : State) (pan c : Nat) : Word := s.tide pan - (s.ctx c).tb

/-- Bytes written into the open slot leave for the sluice. -/
def State.sendBytes (s : State) (key off : Nat) (bs : List Byte) : State := s.travel key (.bytes (s.stream key).kS off bs)

/-- The open slot is completed with the packets it holds, and the next one opens. -/
def State.sendDone (s : State) (key : Nat) (tau : Word) : State :=
  let st := s.stream key
  (s.setStream key { st with kS := st.kS + 1, npk := 0, units := 0 }).travel key (.done st.kS tau st.npk)

/-! ### Arrival (R451, R454) -/

/-- A number with `n` bytes from byte `off` on replaced. -/
def putBytes (v off : Nat) (bs : List Byte) : Nat :=
  v / 2 ^ (8 * (off + bs.length)) * 2 ^ (8 * (off + bs.length)) + leNat bs * 2 ^ (8 * off) + v % 2 ^ (8 * off)

/-- The CID of what stands in a sluice for a stream: its partition's (R418). -/
def streamCid (key : Nat) : BitVec 16 := cidOf (BitVec.ofNat 8 (key / 128))
/-- Bytes that a sluice takes meet its injection (R425): the index is the byte's, 256 to a position. -/
def State.injectSluice (s : State) (key place off n : Nat) : State :=
  let die := key / 16 % 8
  s.injectIndex (arrayShared .sluice die) (256 * (place % 16384) + off) n (streamCid key) (.shared .sluice (BitVec.ofNat 3 die))

/-- Bytes of slot `k` reach their position. A position that still holds another slot refuses slot `k` whole. -/
def State.arriveBytes (s : State) (key k off : Nat) (bs : List Byte) : State :=
  let st := s.stream key
  let p := st.place key k
  let x := s.position p
  if st.refusing = some k then s
  else if x.used && x.k != k then s.setStream key { st with refusing := some k }
  else (s.setPosition p { x with k := k, used := true, data := putBytes x.data off bs, cid := streamCid key }).injectSluice key p off bs.length

/-- The completion of slot `k` reaches the sluice, or its refused mark goes on in its place. -/
def State.arriveDone (s : State) (key k : Nat) (tau : Word) (np : Nat) : State :=
  let st := s.stream key
  let p := st.place key k
  let x := s.position p
  let s := if st.refusing = some k ∨ (x.used = true ∧ x.k ≠ k) then
      s.setStream key { st with refusing := none,
                                marks := st.marks ++ [{ k := k, sTau := tau, np := np, refused := true, used := true, full := true, cid := streamCid key }] }
    else s.setPosition p { x with k := k, used := true, full := true, sTau := tau, np := np, cid := streamCid key }
  s.startMoves key

/-- A slot or a refused mark comes to stand in the stage. -/
def State.arriveStage (s : State) (key k : Nat) : State :=
  let st := s.stream key
  match st.marks.find? fun m => m.k == k with
  | some m => s.setStream key { st with stage := st.stage ++ [m], marks := st.marks.filter fun m => m.k != k }
  | none => s.setStream key { st with stage := st.stage ++ [s.position (st.place key k)] }

/-- A release reaches the M-die: the position of slot `k` frees (R453). -/
def State.arriveFree (s : State) (key k : Nat) : State :=
  let p := (s.stream key).place key k
  if (s.position p).k = k then s.setPosition p {} else s

/-- The stream and the content of something in transit, by its identifier. -/
def State.inTransit (s : State) (id : Nat) : Option (Nat × Nat × Transit) :=
  s.streams.findSome? fun e => (e.2.transit.find? fun t => t.2.1 == id).map fun t => (e.1, t.1, t.2.2)
/-- It has arrived. -/
def State.landTransit (s : State) (key id : Nat) : State :=
  let st := s.stream key
  s.setStream key { st with transit := st.transit.filter fun t => t.2.1 != id }

/-- SLUICE_SLOT_ARRIVAL (R451, R454): a unit, a packet or a slot's completion reaches the sluice. -/
def execSluiceSlotArrival (id : Nat) (s : State) : Out :=
  match s.inTransit id with
  | some (key, due, .bytes k off bs) => if due ≤ s.cycle then .next ((s.landTransit key id).arriveBytes key k off bs) else .next s
  | some (key, due, .done k tau np) => if due ≤ s.cycle then .next ((s.landTransit key id).arriveDone key k tau np) else .next s
  | _ => .next s

/-- STAGE_MOVE (R452): the move of a slot of a stream from the sluice to the stage ends; the stream is the one of an M-die,
counted 8·partition + M-die, and q. -/
def execStageMove (mdie q : Nat) (s : State) : Out :=
  let key := 16 * mdie + q
  match (s.stream key).transit.find? fun t => t.2.2.isMove && decide (t.1 ≤ s.cycle) with
  | some (_, id, .toStage k) => .next ((s.landTransit key id).arriveStage key k)
  | _ => .next s

/-- SLUICE_POSITION_FREE (R453). -/
def execSluicePositionFree (id : Nat) (s : State) : Out :=
  match s.inTransit id with
  | some (key, due, .free k) => if due ≤ s.cycle then .next ((s.landTransit key id).arriveFree key k) else .next s
  | _ => .next s

/-! ### Receiving (R452 to R456) -/

/-- What a read of the lowest unreleased slot gives: the slot, or a fault's cause and reason (R455). -/
inductive SlotRead where
  | slot (p : Place)
  | fault (cause reason : Nat)
  deriving DecidableEq, Repr

def State.readStream (s : State) (key : Nat) (tau : Word) : SlotRead :=
  let st := s.stream key
  match st.stage.find? fun p => p.k == st.kR with
  | none => .fault 0x0D 0
  | some p =>
    if p.refused then .fault 0x0E 2
    else if tau.toNat < p.sTau.toNat + 24 + st.g then .fault 0x0D 1
    else .slot p

/-- The receive end releases its slot: the stage place frees at once, the position 12 cycles later (R453). -/
def State.releaseSlot (s : State) (key : Nat) : State :=
  let st := s.stream key
  let s := s.setStream key { st with kR := st.kR + 1, pos := 0, stage := st.stage.filter fun p => p.k != st.kR }
  (s.travel key (.free st.kR)).startMoves key

/-- A packet of a receive stream has been passed; the one before its slot's count NP releases the slot (R456, R482). -/
def State.passPacket (s : State) (key : Nat) : State :=
  let st := s.stream key
  let np := match st.stage.find? fun p => p.k == st.kR with | some p => p.np | none => 0
  let s := s.setStream key { st with pos := st.pos + 1, pktX := st.pktX + 1 }
  if np ≤ st.pos + 1 then s.releaseSlot key else s

end Sys2Proof.Machine
end

