-- ==== Sys2Proof/Machine/Moves.lean ====
section
/-! DEFINITION. The move, buffer and stream rows (R243 to R247), and the reads of buffer slots that they share with the units
(R176, R177, R392). -/

namespace Sys2Proof.Machine

/-- Bytes of a width (R243). -/
def widBytes : Wid → Nat | .w32 => 4 | .w64 => 8 | .w128 => 16

/-- The value of a source at a width (R243). -/
def State.srcAt (s : State) (w : Wid) (a : Src) (i : Imm) : BitVec 128 :=
  match w with
  | .w32 => (s.src32 a i).setWidth 128
  | .w64 => (s.src64 a i).setWidth 128
  | .w128 => s.src128 a

/-- A value at a width as its destination takes it: 32 bits go sign-extended into a lane (R243). -/
def movVal (w : Wid) (d : Dst) (v : BitVec 128) : EVal :=
  match w, d with
  | .w32, .lane _ => .bits (((v.setWidth 32).signExtend 64).setWidth 128)
  | _, _ => .bits v

def execMov (w : Wid) (delay : BitVec 5) (d : Dst) (a : Src) (i : Imm) (s : State) : Out :=
  .next (s.emitResult d (movVal w d (s.srcAt w a i)) (1 + delay.toNat))

/-! ### Slots as rows and units read them -/

/-- What stands in the way of a read of the read slot of a node entry: an empty slot, a tag that differs, or corrupt bytes,
as cause, kind, tag found and tag expected (R176, R177); for corrupt bytes their address stands in place of a tag (R392). -/
def State.slotFault (s : State) (c : BindCtl) (addr n : Nat) : Option (Nat × Nat × Nat × Nat) :=
  if !c.readSlot.full then some (0x07, 0, 0, 0)
  else if c.mismatch then some (0x08, 2, c.readSlot.tag.toNat, c.xctr.toNat)
  else (s.poisoned addr n).map fun p => (0x12, 0, p, 0)

/-- The issuing element's node entry for a buffer. -/
def State.bufKey (s : State) (b : BitVec 3) : Nat := nodeKey s.site.pan s.site.elem b.toNat

/-- The byte offset of R244: modulo the slot size, rounded down to a multiple of the width. -/
def slotOff (o size n : Nat) : Nat := o % max 1 size / n * n

def execNld (w : Wid) (adv : Bool) (b : BitVec 3) (d : Dst) (off : Src) (i : Imm) (s : State) : Out :=
  let key := s.bufKey b
  let c := s.nodeEntry key
  let n := widBytes w
  let p := nodeSlotAddr key c c.rp (slotOff (s.src32 off i).toNat c.size n)
  match s.slotFault c p n with
  | some (cause, kind, found, expected) => .next (s.rowFault cause kind b.toNat found expected)
  | none =>
    let c := if adv then c.checked.release else c.checked
    .next ((s.emitResult d (.bits (BitVec.ofNat 128 (s.readNat p n))) 2).setNodeEntry key c)

/-- NST (R244): the slot is the write slot at issue; the bytes, and ADV's completion of that slot, are there from kernel cycle
c + 2 on. -/
def execNst (w : Wid) (adv : Bool) (b : BitVec 3) (val off : Src) (i : Imm) (s : State) : Out :=
  let key := s.bufKey b
  let c := s.nodeEntry key
  let n := widBytes w
  let u : UnitWrite := { pan := s.site.pan, mask := s.site.mask, due := s.site.kc + 2, unit := 2,
                         ord := 256 * s.site.copy + s.site.elem, key := key, stream := false, slot := c.wp,
                         off := slotOff (s.src32 off i).toNat c.size n, bytes := natLe n (s.srcAt w val i).toNat, adv := adv,
                         skey := 0, sbyte := 0, blk := s.siteBlk }
  .next { s with writes := s.writes ++ [u] }

/-! ### Stream rows (R245) -/

/-- The stream that the issuing row means by q. -/
def State.rowStream (s : State) (q : BitVec 4) : Nat :=
  s.streamOf s.site.pan (s.activeBlk s.site.pan s.site.mask) q.toNat

/-- Notes what a row with ADV does once at the end of the kernel cycle (R245, R271). -/
def State.noteAdv (s : State) (kind key : Nat) (whole : Bool) : State :=
  let a : Adv := { kind := kind, key := key, pan := s.site.pan, row := s.site.row, ent := s.site.ent, whole := whole }
  if s.advs.contains a then s else { s with advs := s.advs ++ [a] }

def execSend (w : Wid) (adv : Bool) (q u : BitVec 4) (a : Src) (s : State) : Out :=
  let key := s.rowStream q
  let v := s.srcAt w a noImm
  let s := s.sendBytes key (16 * u.toNat) (natLe 16 v.toNat)
  let st := s.stream key
  let s := s.setStream key { st with units := st.units ||| BitVec.ofNat 16 (2 ^ u.toNat) }
  .next (if adv then s.noteAdv 2 key true else s)

/-- A fault of the sluice at the issuing element (R455). -/
def State.sluiceFault (s : State) (q : BitVec 4) (key cause reason : Nat) : State :=
  s.rowFault cause 5 q.toNat ((s.stream key).kR % 65536) reason

def execRecv (w : Wid) (adv : Bool) (q u : BitVec 4) (d : Dst) (s : State) : Out :=
  let key := s.rowStream q
  match s.readStream key (s.rowTau s.site.pan s.site.ctx) with
  | .fault cause reason => .next (s.sluiceFault q key cause reason)
  | .slot p =>
    let v := bitsN p.data (128 * u.toNat) (8 * widBytes w)
    let s := s.emitResult d (.bits (BitVec.ofNat 128 v)) 2
    .next (if adv then s.noteAdv 1 key true else s)

def execHdr (d : Dst) (a b : Src) (i : Imm) (s : State) : Out :=
  s.row32 false d ((s.src32 b i).setWidth 16 ++ (s.src32 a i).setWidth 16) 1

/-! ### ITER (R222, R247) -/

/-- The loop counts of a block's nest word (R222). -/
def Block.count (b : Block) (j : Nat) : Nat := bitsN b.nest.toNat (16 * j) 16 + 1
/-- Iterations before level `j`'s index moves on. -/
def Block.stride (b : Block) : Nat → Nat
  | 0 => 1
  | j + 1 => b.stride j * b.count j
/-- N of R222. -/
def Block.total (b : Block) : Nat := b.stride 4
/-- Level index `j` of an iteration. -/
def Block.index (b : Block) (i j : Nat) : Nat := i / b.stride j % b.count j

def execIter (d : Dst) (sel : BitVec 3) (s : State) : Out :=
  let b := s.activeBlk s.site.pan s.site.mask
  let v : BitVec 32 := match sel.toNat with
    | 0 => (s.runOf s.site.pan s.site.mask).iter
    | 1 => BitVec.ofNat 32 s.site.copy
    | 6 => BitVec.ofNat 32 s.site.window
    | k => BitVec.ofNat 32 (b.index s.site.iter (k - 2))
  s.row32 true d v 1

end Sys2Proof.Machine
end

