-- ==== Sys2Proof/Machine/RowInfo.lean ====
section
/-! DEFINITION. What the loader knows of a row before it runs: its sources, destinations and latencies (R164, R165, R234 to
R274), the fields of an FCW (R147), the tile formats (R249), and the rows of a block by index. -/

namespace Sys2Proof.Machine

/-- The row that an entry stands for; every entry that decodes to no row is RNOP (R157). -/
def rowOf (e : RowEntry) : Instr := match decodeRow e with | .ok i => i | .error _ => .rnop

/-! ### The fields of an FCW (R147) -/

def fcwW (w : BitVec 32) : Nat := 2 * ((w.extractLsb' 0 3).toNat + 1)
def fcwV (w : BitVec 32) : Nat := 2 * ((w.extractLsb' 3 3).toNat + 1)
def fcwAS (w : BitVec 32) : Bool := w.getLsbD 6
def fcwBS (w : BitVec 32) : Bool := w.getLsbD 7
def fcwNG (w : BitVec 32) : Nat := (w.extractLsb' 8 7).toNat
def fcwPL (w : BitVec 32) : Bool := w.getLsbD 15
def fcwRED (w : BitVec 32) : Nat := (w.extractLsb' 16 2).toNat
def fcwDY (w : BitVec 32) : Bool := w.getLsbD 18
def fcwBSEL (w : BitVec 32) : Bool := w.getLsbD 19

/-! ### Tile formats (R249, R251, R259) -/

/-- A tile format: operand width, stored bits, whether it has a scale plane, and whether it is converted. -/
structure TileFmt where
  width : Nat
  stored : Nat
  scaled : Bool
  converted : Bool
  deriving DecidableEq, Repr

def tileFmt (tf : BitVec 4) : TileFmt :=
  match tf.toNat with
  | 0 => ⟨2, 2, false, false⟩ | 1 => ⟨4, 4, false, false⟩ | 2 => ⟨6, 6, false, false⟩ | 3 => ⟨8, 8, false, false⟩
  | 4 => ⟨16, 16, false, false⟩ | 5 => ⟨8, 8, true, false⟩ | 6 => ⟨6, 6, true, false⟩ | 7 => ⟨6, 6, true, false⟩
  | 8 => ⟨4, 4, true, false⟩ | 9 => ⟨2, 2, true, false⟩ | 10 => ⟨4, 4, true, false⟩ | 11 => ⟨6, 6, true, false⟩
  | 12 => ⟨8, 8, false, true⟩ | 13 => ⟨8, 8, false, true⟩ | 14 => ⟨8, 16, false, true⟩ | _ => ⟨0, 0, false, false⟩
def TileFmt.blocks (f : TileFmt) : Bool := f.scaled || f.converted

/-- K values of a step of TSTEP (R251). -/
def tstepKv (a b : TileFmt) : Nat :=
  let kv := 384 / max a.width b.width
  if a.blocks || b.blocks then 32 * (kv / 32) else kv
def ceilDiv (a b : Nat) : Nat := if b = 0 then 0 else (a + b - 1) / b
/-- M, N and the dense B values of a step of SPMX (R258, R259). -/
def spM (mc : BitVec 2) : Nat := 4 * 2 ^ mc.toNat
def spN (nc : BitVec 2) : Nat := 2 ^ nc.toNat
def spKd (mc nc : BitVec 2) : Nat := 16 * spM mc / spN nc
/-- The interval and the repeat count of a tile step, under an FCW (R251, R259). -/
def tileI (i : Instr) (fcw : BitVec 32) : Nat :=
  match i with
  | .tstep ta tb .. => ceilDiv (tstepKv (tileFmt ta) (tileFmt tb)) (fcwNG fcw)
  | .spmx .. => ceilDiv 16 (fcwNG fcw)
  | _ => 0
def tileRep : Instr → Nat
  | .tstep _ _ _ _ _ _ _ _ rep1 _ => rep1.toNat + 1
  | .spmx _ _ _ _ _ _ _ _ _ rep1 _ => rep1.toNat + 1
  | _ => 0
def isTile : Instr → Bool | .tstep .. => true | .spmx .. => true | _ => false

/-! ### Sources, destinations and latencies -/

/-- The sixteen weight registers of a RACC (R272). -/
def raccWeights (b : BitVec 5) : List Nat := (List.range 16).map fun k => b.toNat + k

/-- What a row reads, a lane that it accumulates into among it (R165, R254). The weight registers of a RACC stand apart. -/
def rowReads : Instr → List Src
  | .iadd _ a b _ => [a, b] | .isub _ a b _ => [a, b] | .imul _ a b _ => [a, b] | .imac _ a b c _ => [a, b, c]
  | .iand _ a b _ => [a, b] | .ior _ a b _ => [a, b] | .ixor _ a b _ => [a, b]
  | .ishl _ a b _ => [a, b] | .ishr _ a b _ => [a, b] | .isar _ a b _ => [a, b]
  | .imin _ _ a b _ => [a, b] | .imax _ _ a b _ => [a, b] | .icmp _ _ a b _ => [a, b] | .isel _ a b c _ => [a, b, c]
  | .iabs _ a _ => [a] | .iclz _ a _ => [a]
  | .fadd _ _ _ a b => [a, b] | .fsub _ _ _ a b => [a, b] | .fmul _ _ _ a b => [a, b] | .ffma _ _ _ a b c => [a, b, c]
  | .fmin _ _ a b => [a, b] | .fmax _ _ a b => [a, b] | .fcmp _ _ _ a b => [a, b] | .fabs _ _ a => [a]
  | .frint _ _ _ a => [a] | .fexpf _ a => [a] | .fexpins _ _ a b => [a, b] | .frcp _ _ _ a => [a] | .frsq _ _ _ a => [a]
  | .fcvt _ _ _ _ a => [a] | .fclass _ _ a => [a] | .fdot2 _ _ _ a b c => [a, b, c]
  | .mov _ _ _ a _ => [a] | .nld _ _ _ _ o _ => [o] | .nst _ _ _ v o _ => [v, o] | .send _ _ _ _ a => [a]
  | .hdr _ a b _ => [a, b]
  | .tstep _ _ t _ _ _ _ _ _ z => if z then [] else [.lane t]
  | .spmx _ _ t _ _ _ _ _ _ _ z => if z then [] else [.lane t]
  | .macf wr d a b => (a :: b.toList) ++ (match wr, d with | false, .lane t => [.lane t] | _, _ => [])
  | .dmac wr d a b => (a :: b.toList) ++ (match wr, d with | false, .lane t => [.lane t] | _, _ => [])
  | .rq _ _ _ _ _ x m b => [x, m, b] | .bq _ _ _ _ a => [a] | .tacc t a _ => [a, .lane t] | .trdl _ _ t => [.lane t]
  | .racc n z _ _ t w _ => (if n then [w] else []) ++ (if z then [] else [.lane t])
  | .rval _ _ a _ => [a] | .setq _ a => a.toList
  | _ => []

/-- What a row writes, with its latency; a RACC counts as 7 (R272). Tile steps stand apart (R254). -/
def rowWrites : Instr → List (Dst × Nat)
  | .iadd d .. => [(d, 1)] | .isub d .. => [(d, 1)] | .imul d .. => [(d, 2)] | .imac d .. => [(d, 2)]
  | .iand d .. => [(d, 1)] | .ior d .. => [(d, 1)] | .ixor d .. => [(d, 1)]
  | .ishl d .. => [(d, 1)] | .ishr d .. => [(d, 1)] | .isar d .. => [(d, 1)]
  | .imin _ d .. => [(d, 1)] | .imax _ d .. => [(d, 1)] | .icmp _ d .. => [(d, 1)] | .isel d .. => [(d, 1)]
  | .iabs d .. => [(d, 1)] | .iclz d .. => [(d, 1)]
  | .fadd _ _ d .. => [(d, 3)] | .fsub _ _ d .. => [(d, 3)] | .fmul _ _ d .. => [(d, 5)] | .ffma _ _ d .. => [(d, 6)]
  | .fmin _ d .. => [(d, 1)] | .fmax _ d .. => [(d, 1)] | .fcmp _ _ d .. => [(d, 1)] | .fabs _ d .. => [(d, 1)]
  | .frint _ _ d _ => [(d, 2)] | .fexpf d _ => [(d, 6)] | .fexpins _ d .. => [(d, 2)] | .frcp _ _ d _ => [(d, 8)]
  | .frsq _ _ d _ => [(d, 8)] | .fcvt _ _ _ d _ => [(d, 2)] | .fclass _ d _ => [(d, 1)] | .fdot2 _ _ d .. => [(d, 6)]
  | .mov _ dl d _ _ => [(d, 1 + dl.toNat)] | .nld _ _ _ d _ _ => [(d, 2)] | .recv _ _ _ _ d => [(d, 2)]
  | .hdr d .. => [(d, 1)] | .iter d _ => [(d, 1)]
  | .macf _ d _ _ => [(d, 3)] | .dmac _ d _ _ => [(d, 3)] | .rq _ _ _ _ d .. => [(d, 2)] | .tacc t _ _ => [(.lane t, 2)]
  | .trdl _ d _ => [(d, 1)] | .racc _ _ _ _ t _ _ => [(.lane t, 7)] | .rval _ d _ _ => [(d, 3)]
  | _ => []

/-- The lane that a tile step writes. -/
def tileLane : Instr → Option (BitVec 3)
  | .tstep _ _ t .. => some t | .spmx _ _ t .. => some t | _ => none

/-! ### Rows and stages of a block (R157, R222) -/

def ElemCfg.row (c : ElemCfg) (j : Nat) : RowCfg := Kv.get {} c.rows j
/-- The row at an index of an element. -/
def Block.rowAt (b : Block) (e j : Nat) : Instr := rowOf ((b.elemCfg e).row j).ent
/-- Row indices f … f + II − 1. -/
def Block.indices (b : Block) : List Nat := (List.range b.ii.toNat).map fun k => b.f.toNat + k
def Block.stage (b : Block) (j : Nat) : Nat := Kv.get 0 b.stages j
/-- S of R222. -/
def Block.lastStage (b : Block) : Nat := b.indices.foldl (fun m j => max m (b.stage j)) 0
/-- Kernel cycles from the first row to the last one (R222). -/
def Block.length (b : Block) : Nat := (b.total + b.lastStage) * b.ii.toNat
/-- σp of R219: the lowest stage of the rows of an element that read a port; 0 when none does. -/
def Block.portStage (b : Block) (e : Nat) (p : Port) : Nat :=
  ((b.indices.filter fun j => (rowReads (b.rowAt e j)).contains (.port p)).map b.stage).min?.getD 0

/-- The elements of a pan. -/
def allElems : List Nat := List.range 256
/-- Whether an element holds an entry at a row index. -/
def Block.holds (b : Block) (j : Nat) (ent : RowEntry) (e : Nat) : Bool := ((b.elemCfg e).row j).ent == ent

end Sys2Proof.Machine
end

