-- ==== Sys2Proof/Machine/Units.lean ====
section
/-! DEFINITION. The matrix, quantise and rank rows, the units that they drive, and the edge feeds (R219, R249 to R274). -/

namespace Sys2Proof.Machine

/-- MODEFP as the rows of this fabric cycle sample it: the value before the context's own instruction of the cycle (R196). -/
def State.modeOf (s : State) (c : Nat) : BitVec 6 :=
  let x := s.ctx c
  if x.rowAt = some s.cycle then x.rowMode else x.modefp

/-! ### Tile steps: operands (R187, R189, R197, R199, R249) -/

/-- The quantum of a tile format (R199). -/
def tileQ (tf : BitVec 4) : Int :=
  match tf.toNat with | 5 => -6 | 6 => -3 | 7 => -4 | 8 => -1 | 12 => -6 | 13 => -6 | 14 => -6 | _ => 0

/-- The integer form of an element whose format is not converted (R187, R189). -/
def tileInt (tf : BitVec 4) (sgn : Bool) (mode : BitVec 6) (c : Nat) : Int :=
  let mx := fun (f : FloatFmt) (q : Int) => match f.decode mode c with | .fin n m e => scaled n m e q | _ => 0
  match tf.toNat with
  | 5 => sextN c 8 | 6 => mx mxe2m3 (-3) | 7 => mx mxe3m2 (-4) | 8 => mx mxe2m1 (-1)
  | _ => intValue (tileFmt tf).width sgn c

/-- A block of an operand: its scale code and integer forms. -/
abbrev TBlock := Nat × List Int

/-- The blocks of one row or column of a step: `nb` blocks of `bs` elements (R199, R252). -/
def tileBlocks (tf : BitVec 4) (sgn : Bool) (mode : BitVec 6) (data scales nb bs : Nat) : List TBlock :=
  (List.range nb).map fun b =>
    let codes := (List.range bs).map fun i => packedAt data (b * bs + i) (tileFmt tf).stored
    let conv := fun (f : FloatFmt) =>
      let (x, cs) := toMxInt8 (codes.map (f.decode mode))
      (x, cs.map fun c => sextN c 8)
    match tf.toNat with
    | 12 => conv fp8e4m3 | 13 => conv fp8e5m2 | 14 => conv bfloat16
    | _ => (if (tileFmt tf).scaled then packedAt scales b 8 else 127, codes.map (tileInt tf sgn mode))

def dotInt (a b : List Int) : Int := (List.zipWith (· * ·) a b).foldl (· + ·) 0

/-- The contribution of a block pair (R199): its value, and whether a NaN block took part. -/
def contribution (qa qb re : Int) (a b : TBlock) : Int × Bool :=
  if a.1 = 0xFF ∨ b.1 = 0xFF then (0, true)
  else
    let v := dotInt a.2 b.2
    let sh := ((a.1 : Int) - 127) + ((b.1 : Int) - 127) + qa + qb - re
    (if 0 ≤ sh then v * 2 ^ sh.toNat else v / 2 ^ (-sh).toNat, false)

/-! ### Tile steps: slots and steps (R252 to R259) -/

/-- A slot that a step reads: the element it is read for, the control entry, the buffer number, offset and bytes. -/
structure SlotUse where
  x : Nat
  y : Nat
  key : Nat
  buf : Nat
  off : Nat
  n : Nat
  deriving DecidableEq, Repr

/-- The rows or columns of a tile as elements: (x0, y) for the rows, (x, y0) for the columns. -/
def TileRun.rowsOf (t : TileRun) : List (Nat × Nat) := (List.range t.ny).map fun k => (t.x0, t.y0 + k)
def TileRun.colsOf (t : TileRun) : List (Nat × Nat) := (List.range t.nx).map fun k => (t.x0 + k, t.y0)

/-- The uses of one buffer: data at 64·(i mod 4), scales at 8·(i mod 4) (R252). -/
def slotUses (pan : Nat) (els : List (Nat × Nat)) (byRow : Bool) (b : BitVec 3) (unit n : Nat) : List SlotUse :=
  els.map fun p =>
    ⟨p.1, p.2, nodeKey pan (16 * p.2 + p.1) b.toNat, b.toNat, unit * ((if byRow then p.2 else p.1) % 4), n⟩

def State.useAddr (s : State) (u : SlotUse) : Nat :=
  let c := s.nodeEntry u.key
  nodeSlotAddr u.key c c.rp u.off
/-- The data of a use, as a number. -/
def State.useData (s : State) (u : SlotUse) : Nat := s.readNat (s.useAddr u) u.n

/-- The slots that a step of a tile reads. -/
def TileRun.uses (t : TileRun) : List SlotUse :=
  match rowOf t.ent with
  | .tstep ta tb _ bA bB bSA bSB _ _ _ =>
    let a := tileFmt ta
    let b := tileFmt tb
    let kv := tstepKv a b
    slotUses t.pan t.rowsOf true bA 64 (kv * a.stored / 8) ++ slotUses t.pan t.colsOf false bB 64 (kv * b.stored / 8)
      ++ (if a.scaled then slotUses t.pan t.rowsOf true bSA 8 (kv / 32) else [])
      ++ (if b.scaled then slotUses t.pan t.colsOf false bSB 8 (kv / 32) else [])
  | .spmx ta tb _ bA bB _ _ mc nc _ _ =>
    slotUses t.pan t.rowsOf true bA 64 (2 * (tileFmt ta).stored)
      ++ slotUses t.pan t.colsOf false bB 64 (spKd mc nc * (tileFmt tb).stored / 8)
  | _ => []

/-- What a row of fabric cycle `c` reads in a metadata register: its value and valid bit at the start of the cycle (R257). -/
def Meta.seen (m : Meta) (c : Nat) : Nat × Bool :=
  match m.was with
  | some (d, v, ok) => if d = c then (v, ok) else (m.v, m.valid)
  | none => (m.v, m.valid)

/-- The metadata register of a step of SPMX (R259). -/
def TileRun.metaReg (t : TileRun) : Option Nat :=
  match rowOf t.ent with
  | .spmx _ _ _ _ _ mf nm1 _ _ _ _ => some ((mf.toNat + t.r % (nm1.toNat + 1)) % 16)
  | _ => none

/-- The contributions of a step to element (x, y) of its tile, one for each block pair in ascending order (R199, R259). -/
def State.stepValues (s : State) (t : TileRun) (mode : BitVec 6) (fcw : BitVec 32) (x y : Nat) : List (Int × Bool) :=
  let data := fun (byRow : Bool) (b : BitVec 3) (unit n : Nat) =>
    ((slotUses t.pan [if byRow then (t.x0, y) else (x, t.y0)] byRow b unit n).map s.useData).headD 0
  match rowOf t.ent with
  | .tstep ta tb _ bA bB bSA bSB re _ _ =>
    let a := tileFmt ta
    let b := tileFmt tb
    let kv := tstepKv a b
    let (nb, bs) := if a.blocks || b.blocks then (kv / 32, 32) else (1, kv)
    let ab := tileBlocks ta (fcwAS fcw) mode (data true bA 64 (kv * a.stored / 8)) (data true bSA 8 (kv / 32)) nb bs
    let bb := tileBlocks tb (fcwBS fcw) mode (data false bB 64 (kv * b.stored / 8)) (data false bSB 8 (kv / 32)) nb bs
    List.zipWith (contribution (tileQ ta) (tileQ tb) re.toInt) ab bb
  | .spmx ta tb _ bA bB _ _ mc nc _ _ =>
    let a := data true bA 64 (2 * (tileFmt ta).stored)
    let b := data false bB 64 (spKd mc nc * (tileFmt tb).stored / 8)
    let m := ((Kv.get {} s.metas (metaKey t.pan (t.metaReg.getD 0))).seen s.cycle).1
    let v := (List.range 16).foldl (fun acc j =>
      let pos := j / spN nc * spM mc + bitsN m (64 * y + 4 * j) 4 % spM mc
      acc + tileInt ta (fcwAS fcw) mode (packedAt a j (tileFmt ta).stored)
        * tileInt tb (fcwBS fcw) mode (packedAt b pos (tileFmt tb).stored)) 0
    [(v, false)]
  | _ => []

/-- RE of a tile step (R250, R259). -/
def tileRe : Instr → BitVec 10 | .tstep _ _ _ _ _ _ _ re _ _ => re | _ => 0

/-- The fault of a use or of a metadata register that a step cannot read. -/
def State.tileFaults (s : State) (t : TileRun) : State :=
  let s' := t.uses.foldl (fun acc u =>
    match s.slotFault (s.nodeEntry u.key) (s.useAddr u) u.n with
    | some (cause, kind, found, expected) => acc.blockFault cause u.x u.y t.row kind u.buf t.copy 0 found expected
    | none => acc) s
  match t.metaReg with
  | some m =>
    if ((Kv.get {} s.metas (metaKey t.pan m)).seen s.cycle).2 then s' else s'.blockFault 0x07 t.x0 t.y0 t.row 1 m t.copy 0 0 0
  | none => s'

/-- A slot has been read and is released (R253). -/
def State.useSlot (s : State) (key : Nat) : State := s.setNodeEntry key (s.nodeEntry key).checked.release

/-- The FCW of an element of a tile (R147), and that of its first one, whose NG sets the interval (R251). -/
def State.fcwOf (s : State) (t : TileRun) (e : Nat) : BitVec 32 := ((s.activeBlk t.pan t.mask).elemCfg e).fcw
def State.tileFcw (s : State) (t : TileRun) : BitVec 32 := s.fcwOf t (16 * t.y0 + t.x0)

/-- The contributions of a step go to the elements of the tile, each formed under the element's own FCW, to land at the cycles of
R253. -/
def State.addContribs (s : State) (t : TileRun) (mode : BitVec 6) : State :=
  let i := rowOf t.ent
  let due := t.c + (t.r + 1) * tileI i (s.tileFcw t) + 5
  (List.range (t.nx * t.ny)).foldl (fun acc k =>
    let dx := k % t.nx
    let dy := k / t.nx
    let e := 16 * (t.y0 + dy) + t.x0 + dx
    let cs := (s.stepValues t mode (s.fcwOf t e) (t.x0 + dx) (t.y0 + dy)).map fun v =>
      (⟨t.id, t.r, t.mask, due + dx + dy, (tileLane i).getD 0, v.1, v.2, tileRe i, (s.runOf t.pan t.mask).start⟩ : Contrib)
    let x := acc.elem t.pan e
    acc.setElem t.pan e { x with contrib := x.contrib ++ cs }) s

/-- One step of a tile reads its slots (R253, R259): when one is absent, the fault is recorded and nothing else is done. -/
def State.tileRead (s : State) (t : TileRun) : State :=
  let s' := s.tileFaults t
  if s'.bfaults.length ≠ s.bfaults.length then s'
  else
    let s := s.addContribs t (s.modeOf t.ctx)
    let s := ((t.uses.map (·.key)).dedup).foldl State.useSlot s
    let rest := s.tiles.filter fun u => u.id != t.id
    if t.r + 1 < tileRep (rowOf t.ent) then { s with tiles := rest ++ [{ t with r := t.r + 1 }] } else { s with tiles := rest }

/-- Elements going on from `e` in steps of `d`, at most `n`, that hold the same entry. -/
def Block.extent (b : Block) (j : Nat) (ent : RowEntry) (e d : Nat) : Nat → Nat
  | 0 => 0
  | n + 1 => if b.holds j ent e then 1 + b.extent j ent (e + d) d n else 0

/-- A tile step issues in an element (R250, R254): with Z its lane is cleared; the tile's first element starts the tile, which
is the rectangle of elements that hold the same entry, and reads step 0. -/
def State.startTile (s : State) (t : BitVec 3) (z : Bool) : Out :=
  let b := s.activeBlk s.site.pan s.site.mask
  let e := s.site.elem
  let has := b.holds s.site.row s.site.ent
  let s := if z then s.setFocus (s.focus.setLane t (s.focus.lane t).zero) else s
  let first := (elemX e = 0 || !has (e - 1)) && (elemY e = 0 || !has (e - 16))
  if first then
    let run : TileRun :=
      { id := s.nextId, pan := s.site.pan, mask := s.site.mask, ent := s.site.ent, row := s.site.row, copy := s.site.copy,
        ctx := s.site.ctx, c := s.site.kc, x0 := elemX e, nx := max 1 (b.extent s.site.row s.site.ent e 1 (16 - elemX e)),
        y0 := elemY e, ny := max 1 (b.extent s.site.row s.site.ent e 16 (16 - elemY e)), r := 0 }
    .next ({ s with nextId := s.nextId + 1, tiles := s.tiles ++ [run] }.tileRead run)
  else .next s

def execTstep (_tfa _tfb : BitVec 4) (t _bA _bB _bSA _bSB : BitVec 3) (_re : BitVec 10) (_rep1 : BitVec 12) (z : Bool)
    (s : State) : Out := s.startTile t z
def execSpmx (_tfa _tfb : BitVec 4) (t _bA _bB : BitVec 3) (_mf _nm1 : BitVec 4) (_mc _nc : BitVec 2) (_rep1 : BitVec 12)
    (z : Bool) (s : State) : Out := s.startTile t z

/-- Whether a step of a tile is due: its kernel cycle has come in a block that runs. -/
def State.tileDue (s : State) (t : TileRun) : Bool :=
  decide (t.c + t.r * tileI (rowOf t.ent) (s.tileFcw t) ≤ s.kc t.pan t.mask) && !(s.runOf t.pan t.mask).stopped

/-- TSTEP_STEP_READ (R253). -/
def execTstepStepRead (id : Nat) (s : State) : Out :=
  match s.tiles.find? fun t => t.id == id with
  | some t => if s.tileDue t then .next (s.tileRead t) else .next s
  | none => .next s

/-- TSTEP_CONTRIBUTION (R199, R253): the contributions of a step that are due land in one element. -/
def execTstepContribution (id r x y : Nat) (s : State) : Out :=
  let e := 16 * y + x
  match s.elems.find? fun p => p.1 % 256 == e && p.2.contrib.any fun c => c.id == id && c.r == r with
  | none => .next s
  | some (key, el) =>
    let pan := key / 256
    let due := fun (c : Contrib) => c.id == id && c.r == r && decide (c.due ≤ s.kc pan c.mask) && !(s.runOf pan c.mask).stopped
    let s' := s.setElem pan e { el with contrib := el.contrib.filter fun c => !due c }
    .next ((el.contrib.filter due).foldl (State.landContrib pan e) s')

/-! ### Fused rows (R149, R150, R153, R260) -/

/-- Group `g` of a 128-bit operand. -/
def fuseGroup (v : Nat) (w : Nat) (sgn : Bool) (g : Nat) : Int := intValue w sgn (packedAt v g w)

/-- The B operand: the active latch bank, or the row's own; a row that names none where BSEL asks for one multiplies by a
free value (log 22). -/
def State.operandB (s : State) (fcw : BitVec 32) (b : Option Src) : BitVec 128 :=
  if fcwBSEL fcw then
    match b with
    | some a => s.src128 a
    | none => BitVec.ofNat 128 s.freshNat
  else s.focus.latchActive

/-- A free value has been drawn if the row needed one. -/
def State.drewB (s : State) (fcw : BitVec 32) (b : Option Src) : State := if fcwBSEL fcw && b.isNone then s.takeFree else s

/-- The FCW of the issuing element. -/
def State.fcw (s : State) : BitVec 32 := ((s.activeBlk s.site.pan s.site.mask).elemCfg s.site.elem).fcw

/-- A sum written to a lane, or added to it (R260). -/
def laneVal (wr : Bool) (v : Int) : EVal := if wr then .setLane v else .addLane v false

def execMacf (wr : Bool) (d : Dst) (a : Src) (b : Option Src) (s : State) : Out :=
  let w := s.fcw
  let av := (s.src128 a).toNat
  let bv := (s.operandB w b).toNat
  let p := fun g => fuseGroup av (fcwW w) (fcwAS w) g * fuseGroup bv (fcwV w) (fcwBS w) g
  let v := if fcwRED w = 1 then
      .bits (BitVec.ofNat 128 (packList (fcwW w + fcwV w) ((List.range (fcwNG w)).map fun g => wrapN (p g) (fcwW w + fcwV w))))
    else laneVal wr ((List.range (fcwNG w)).foldl (fun acc g => acc + p g) 0)
  .next ((s.emitResult d v 3).drewB w b)

def execDmac (wr : Bool) (d : Dst) (a : Src) (b : Option Src) (s : State) : Out :=
  let w := s.fcw
  let av := (s.src128 a).toNat
  let bv := (s.operandB w b).toNat
  let v := (List.range (fcwNG w)).foldl (fun acc g => acc + fuseGroup av (fcwW w) (fcwAS w) g * d8Value (packedAt bv g 8)) 0
  .next ((s.emitResult d (laneVal wr v) 3).drewB w b)

/-- SETQ (R261): the latches change for the rows of the next kernel cycle on. -/
def execSetq (form : SetqForm) (a : Option Src) (s : State) : Out :=
  let x := s.focus
  let v := match a with | some c => s.src128 c | none => 0
  match form with
  | .load => .next (s.setFocus { x with latchLoad := v })
  | .loadSwap => .next (s.setFocus { x with latchActive := v, latchLoad := x.latchActive })
  | .swap => .next (s.setFocus { x with latchActive := x.latchLoad, latchLoad := x.latchActive })

/-! ### Requantisation and lane access (R262 to R264) -/

/-- A lane's L and NAN, a port's low 64 bits or an e register, as a signed number (R262, R263). -/
def State.wide (s : State) (a : Src) : Int × Bool :=
  match a with
  | .lane t => ((s.focus.lane t).l.toInt, (s.focus.lane t).nan)
  | .port p => (((s.portVal p).setWidth 64).toInt, false)
  | a => ((s.src32 a noImm).toInt, false)

/-- The widths of RQ (R262). -/
def rqWidth (wd : BitVec 3) : Nat :=
  match wd.toNat with | 0 => 2 | 1 => 4 | 2 => 6 | 3 => 8 | 4 => 16 | _ => 32

def execRq (uns rna : Bool) (sh : BitVec 6) (wd : BitVec 3) (d : Dst) (x m bias : Src) (s : State) : Out :=
  let (v, nan) := s.wide x
  let y := requantInt rna v (s.src32 m noImm).toInt (s.src32 bias noImm).toInt sh.toNat (rqWidth wd) (!uns) nan
  s.row32 true d (BitVec.ofInt 32 y) 2

def execTacc (t : BitVec 3) (a : Src) (k : BitVec 7) (s : State) : Out :=
  let (v, nan) := s.wide a
  let n := k.toInt
  let c := if 0 ≤ n then v * 2 ^ n.toNat else v / 2 ^ (-n).toNat
  .next (s.emitResult (.lane t) (.addLane c nan) 2)

def execTrdl (form : TrdlForm) (d : Dst) (t : BitVec 3) (s : State) : Out :=
  let x := s.focus.lane t
  match form with
  | .lo => s.row32 true d (x.l.setWidth 32) 1
  | .hi => s.row32 true d (x.l.extractLsb' 32 32) 1
  | .st => s.row32 false d (x.statusWord (s.laneBusy s.site.pan s.site.elem t)) 1
  | .l64 => .next (s.emitResult d (.bits (x.l.setWidth 128)) 1)

/-! ### Block quantisation (R204, R265) -/

def bqFmt (fout : BitVec 3) : BlkFmt :=
  match fout.toNat with
  | 0 => .mxInt8 | 1 => .mx mxe2m3 | 2 => .mx mxe3m2 | 3 => .mx mxe2m1 | 4 => .int 2 | 5 => .int 4 | _ => .int 6
/-- Bytes of a block of 32 elements. -/
def bqBytes (fout : BitVec 3) : Nat := 4 * (bqFmt fout).width

/-- BQ (R265): a token enters its pan row's unit; the 32nd forms the block, to be written three kernel cycles later. Each token
is read under the MODEFP of its own issue, the block's results under the last one's (R196). -/
def execBq (fin : FFmt) (fout bD bS : BitVec 3) (a : Src) (s : State) : Out :=
  let key := 16 * s.site.pan + elemY s.site.elem
  let u := Kv.get {} s.bq key
  let toks := u.toks ++ [(s.src32 a noImm, s.site.modefp)]
  if toks.length < 32 then .next { s with bq := Kv.set {} s.bq key { u with toks := toks } }
  else
    let f := fmtOf fin
    let (x, cs) := quantise (bqFmt fout) s.site.modefp (toks.map fun t => f.decode t.2 (t.1.toNat % 2 ^ f.width))
    let w : UnitWrite := { pan := s.site.pan, mask := s.site.mask, due := s.site.kc + 3, unit := 1, ord := elemY s.site.elem,
                           key := s.bufKey bD, stream := false, slot := u.beta, off := 0,
                           bytes := natLe (bqBytes fout) (packList (bqFmt fout).width cs), adv := false,
                           skey := s.bufKey bS, sbyte := BitVec.ofNat 8 x, blk := s.siteBlk }
    .next { s with bq := Kv.set {} s.bq key { toks := [], beta := u.beta + 1 }, writes := s.writes ++ [w] }

/-! ### The rake (R269, R270) -/

/-- Whether the first of two keys comes before the second by rank alone: a NaN is below everything (R270). -/
def keyAbove (a b : Val) : Bool := !a.isNan && (b.isNan || b.lt a)
def insertRank (k : Val × Nat) : List (Val × Nat) → List (Val × Nat)
  | [] => [k]
  | j :: r => if keyAbove k.1 j.1 then k :: j :: r else j :: insertRank k r
/-- Keys from largest to smallest, equal ones in the order of their indices (R270). -/
def rankKeys (keys : List Val) : List (Val × Nat) := keys.zipIdx.foldl (fun l k => insertRank k l) []
/-- TIE (R270): a position below C whose key equals the next one's. -/
def rankTie : Nat → List (Val × Nat) → Bool
  | c + 1, a :: b :: r => (!keyAbove a.1 b.1 && !keyAbove b.1 a.1) || rankTie c (b :: r)
  | _, _ => false

def keyBytes : KeyFmt → Nat | .i8 => 1 | .i16 => 2 | .i32 => 4 | .bf16 => 2 | .f32 => 4
/-- A key's value, and whether it was flushed (R194, R270). -/
def keyVal (kf : KeyFmt) (mode : BitVec 6) (c : Nat) : Val × Bool :=
  match kf with
  | .bf16 => (bfloat16.decode mode c, bfloat16.isDenormal c && modeBit mode bfloat16.inBit)
  | .f32 => (binary32.decode mode c, binary32.isDenormal c && modeBit mode binary32.inBit)
  | kf => (intVal (sextN c (8 * keyBytes kf)), false)

/-- A packet (R270): its header with the counter as TAG, C index bytes, and zeros up to its slot size. -/
def rankPacket (tag : BitVec 16) (g : BitVec 2) (c : Nat) (keys : List (Val × Bool)) : List Byte :=
  let order := rankKeys (keys.map (·.1))
  let b := fun (x : Bool) => if x then 1 else 0
  let hdr := tag.toNat + 2 ^ 16 * (c - 1) + 2 ^ 22 * g.toNat + 2 ^ 24 * b (keys.any fun k => k.1.isNan)
    + 2 ^ 25 * b (rankTie c order) + 2 ^ 26 * b (keys.any (·.2))
  (natLe 4 hdr ++ (order.take c).map (fun k : Val × Nat => BitVec.ofNat 8 k.2) ++ List.replicate 4 0).take (packetBytes c)

/-- Kernel cycles of the rake (R269). -/
def rankStages (g : BitVec 2) : Nat := (3 + g.toNat) * (4 + g.toNat) / 2

/-- The next TAG of an output, which advances (R270). -/
def State.nextTag (s : State) (stream : Bool) (key : Nat) : BitVec 16 × State :=
  if stream then
    let st := s.stream key
    (st.pktW, s.setStream key { st with pktW := st.pktW + 1 })
  else
    let c := s.concEntry key
    (c.pktW, s.setConcEntry key { c with pktW := c.pktW + 1 })

/-- Where a RANK, a RACC or a RVAL sends its packet or finds it. -/
def State.pktKey (s : State) (p : PktPort) : Nat :=
  if p.stream then s.rowStream p.idx else concKey s.site.pan p.idx.toNat

def execRank (bI : BitVec 3) (g : BitVec 2) (kf : KeyFmt) (c1 : BitVec 6) (out : PktPort) (s : State) : Out :=
  let key := s.bufKey bI
  let c := s.nodeEntry key
  let n := keyBytes kf * (8 * 2 ^ g.toNat)
  let p := nodeSlotAddr key c c.rp c.rankPos
  match s.slotFault c p n with
  | some (cause, kind, found, expected) =>
    .next (s.blockFault cause 0 0 s.site.row kind bI.toNat s.site.copy 2 found expected)
  | none =>
    let data := s.readNat p n
    let keys := (List.range (8 * 2 ^ g.toNat)).map fun i => keyVal kf s.site.modefp (packedAt data i (8 * keyBytes kf))
    let c' := { c.checked with rankPos := c.rankPos + n }
    let s := s.setNodeEntry key (if c.size < c'.rankPos + n then c'.release else c')
    let o := s.pktKey out
    let (tag, s) := s.nextTag out.stream o
    let w : UnitWrite := { pan := s.site.pan, mask := s.site.mask, due := s.site.kc + rankStages g + 1, unit := 0, ord := 0,
                           key := o, stream := out.stream, slot := 0, off := 0, bytes := rankPacket tag g (c1.toNat + 1) keys,
                           adv := false, skey := 0, sbyte := 0, blk := s.siteBlk }
    .next { s with writes := s.writes ++ [w] }

/-! ### The owed writes of units and NST rows (R244, R265, R270, R305, R482) -/

/-- A packet goes into the open slot of a stream; the one that fills it completes it (R482). -/
def State.sendPacket (s : State) (key : Nat) (tau : Word) (bs : List Byte) : State :=
  let st := s.stream key
  let per := 256 / max 1 bs.length
  let off := st.npk % per * bs.length
  let touched := (List.range 16).foldl (fun v u => if decide (off < 16 * u + 16) && decide (16 * u < off + bs.length) then v ||| BitVec.ofNat 16 (2 ^ u) else v)
    (0 : BitVec 16)
  let s := s.sendBytes key off bs
  let s := s.setStream key { s.stream key with npk := st.npk + 1, units := st.units ||| touched }
  if per ≤ st.npk + 1 then s.sendDone key tau else s

/-- A write of a chain is performed: its object counts it, once everything that comes before the command's accesses has been performed
(R333); the last one leaves the command to its completing write (R267, R353). -/
def State.chainWrote (s : State) (w : UnitWrite) : State :=
  match s.cmds.find? fun k => k.id == w.key with
  | none => s
  | some k =>
    let n := k.owed + (if w.adv then 0 else w.slot)
    let now := s.free k.deps
    let s := if n = 0 || !now then s else (s.spend k.ctx 3 32).updateFor (dieOf k.pan) (s.ctx k.ctx).pid k.loc fun o => o.less n
    { s with cmds := s.cmds.map fun j =>
        if j.id == k.id then { j with left := if now then j.left - n else j.left, owed := if now then 0 else n,
                                      q := if w.adv then 1 else j.q } else j }

/-- An owed write is made: its bytes, and the slots that it completes. NST's ADV completes the slot that NST took at its issue
(R244; log 49). -/
def State.makeWrite (s : State) (w : UnitWrite) : State :=
  let s0 := (s.writeAll (s.unitBytes w)).injectAll (s.ownerCid w.pan) (s.unitBytes w)
  match w.unit with
  | 3 =>
    let a := nodeBase w.pan + w.off / 8
    let old := s.poisonedOf ((partBytes (w.off % 8) w.skey ((w.off % 8 + w.skey + 7) / 8)).map (a + ·))
    (s0.poisonEach old).chainWrote w
  | 2 => let c := s0.nodeEntry w.key; if w.adv then s0.setNodeEntry w.key (c.complete w.slot) else s0
  | 1 =>
    let c := s0.nodeEntry w.key
    let n := w.bytes.length
    let s1 := if w.slot * n % max 1 c.size + n = c.size then s0.setNodeEntry w.key (c.complete c.wp) else s0
    let d := s1.nodeEntry w.skey
    if w.slot % max 1 d.size + 1 = d.size then s1.setNodeEntry w.skey (d.complete d.wp) else s1
  | _ =>
    if w.stream then s0.sendPacket w.key (s.rowTau w.pan (s.runOf w.pan w.mask).ctx) w.bytes
    else
      let c := s0.concEntry w.key
      let n := max 1 (c.size / w.bytes.length)
      s0.setConcEntry w.key (if n ≤ c.wpos + 1 then c.complete c.wp else { c with wpos := c.wpos + 1 })

/-- The due writes that a test selects are made, in their order (R342). -/
def State.makeWrites (s : State) (p : UnitWrite → Bool) : State :=
  let sel := fun w => s.unitDue w && p w
  let s' := { s with writes := s.writes.filter fun w => !sel w }
  (sortWrites (s.writes.filter sel)).foldl State.makeWrite s'

/-- BQ_BLOCK_WRITE (R265): the block of a pan row that is due is written. -/
def execBqBlockWrite (pan row : Nat) (s : State) : Out :=
  .next (s.makeWrites fun w => w.unit == 1 && w.pan == pan && w.ord == row)
/-- RANK_PACKET_WRITE (R269, R270): the packet of a pan's rake that is due is written. -/
def execRankPacketWrite (pan : Nat) (s : State) : Out := .next (s.makeWrites fun w => w.unit == 0 && w.pan == pan)

/-! ### RACC and RVAL (R271 to R273) -/

/-- A packet as a row reads it, with the group size of its header (R270), or the fault of the read. -/
inductive PktRead where
  | packet (idx : List Nat) (group : Nat)
  | fault (cause kind num found expected : Nat)
  deriving DecidableEq, Repr

/-- The packet at position `pos` of a slot: packets stand by the size that the first one's header gives (R270). -/
def packetAt (slot pos : Nat) (expected : BitVec 16) (num : Nat) : PktRead :=
  let pb := packetBytes (bitsN slot 16 6 + 1)
  let v := slot / 2 ^ (8 * pb * pos)
  if bitsN v 0 16 = expected.toNat then
    .packet ((List.range (bitsN v 16 6 + 1)).map fun p => bitsN v (32 + 8 * p) 6) (8 * 2 ^ bitsN v 22 2)
  else .fault 0x08 2 num (bitsN v 0 16) expected.toNat

/-- The read of a packet (R271, R456). A position at or beyond NP is never read: the packet is missing from its stream (R271, R482). -/
def State.readPacket (s : State) (p : PktPort) : PktRead :=
  let key := s.pktKey p
  if p.stream then
    match s.readStream key (s.rowTau s.site.pan s.site.ctx) with
    | .fault cause reason => .fault cause 5 p.idx.toNat ((s.stream key).kR % 65536) reason
    | .slot x =>
      let st := s.stream key
      if x.np ≤ st.pos then .fault 0x0D 5 p.idx.toNat (st.kR % 65536) 0 else packetAt x.data st.pos st.pktX p.idx.toNat
  else
    let c := s.concEntry key
    let a := concSlotAddr key c c.rp 0
    let pb := packetBytes (bitsN (s.readNat a 4) 16 6 + 1)
    match s.slotFault c (a + pb * c.rpos) pb with
    | some (cause, kind, found, expected) => .fault cause kind p.idx.toNat found expected
    | none => packetAt (s.readNat a c.size) c.rpos c.pktX p.idx.toNat

/-- What a successful read of a packet leaves: the slot's tag compared, and ADV noted once for the row. -/
def State.tookPacket (s : State) (p : PktPort) (adv : Bool) : State :=
  let key := s.pktKey p
  let s := if p.stream then s else s.setConcEntry key (s.concEntry key).checked
  if adv then s.noteAdv (if p.stream then 1 else 0) key false else s

/-- A concentrator packet has been passed; the one that ends its slot releases it (R270, R271). -/
def State.passConc (s : State) (key : Nat) : State :=
  let c := s.concEntry key
  let pb := packetBytes (bitsN (s.readNat (concSlotAddr key c c.rp 0) 4) 16 6 + 1)
  let c := { c with pktX := c.pktX + 1 }
  s.setConcEntry key (if c.size / pb ≤ c.rpos + 1 then c.release else { c with rpos := c.rpos + 1 })

/-- What a row with ADV does at the end of its kernel cycle (R245, R271). -/
def State.advance (s : State) (a : Adv) : State :=
  match a.kind with
  | 0 => s.passConc a.key
  | 1 => if a.whole then s.releaseSlot a.key else s.passPacket a.key
  | _ => s.sendDone a.key (s.rowTau a.pan s.site.ctx)

/-- The weights of a RACC for index `i`: INT8 from e registers, or INT16 from a buffer's read slot (R272). -/
def State.raccWeight (s : State) (n : Bool) (b : BitVec 3) (w : Src) (i : Nat) : Int :=
  if n then
    let key := s.bufKey b
    let c := s.nodeEntry key
    sextN (s.readNat (nodeSlotAddr key c c.rp (slotOff ((s.src32 w noImm).toNat + 2 * i) c.size 2)) 2) 16
  else match w with
    | .e k => sextN (bitsN (Kv.get 0 s.focus.e (k.toNat + i / 4)).toNat (8 * (i % 4)) 8) 8
    | _ => 0

/-- The fault of a RACC's weight buffer (R272). -/
def State.raccFault (s : State) (n : Bool) (b : BitVec 3) (w : Src) (idx : List Nat) : Option (Nat × Nat × Nat × Nat) :=
  if n then
    let key := s.bufKey b
    let c := s.nodeEntry key
    idx.findSome? fun i =>
      s.slotFault c (nodeSlotAddr key c c.rp (slotOff ((s.src32 w noImm).toNat + 2 * i) c.size 2)) 2
  else none

/-- The fault of a weight slot that no packet's index has been read for: an empty slot or a tag that differs (R176, R177, R272). -/
def State.weightSlotFault (s : State) (n : Bool) (b : BitVec 3) : State :=
  let c := s.nodeEntry (s.bufKey b)
  match (if n then s.slotFault c (nodeSlotAddr (s.bufKey b) c c.rp 0) 0 else none) with
  | some (cause, kind, found, expected) => s.rowFault cause kind b.toNat found expected
  | none => s

/-- RACC (R271, R272). When its packet cannot be read, its weight slot is still an operand of the cycle, whose fault may rank first
(R176, R179). -/
def execRacc (n z adv : Bool) (b t : BitVec 3) (w : Src) (src : PktPort) (s : State) : Out :=
  match s.readPacket src with
  | .fault cause kind num found expected => .next ((s.rowFault cause kind num found expected).weightSlotFault n b)
  | .packet idx _ =>
    match s.raccFault n b w idx with
    | some (cause, kind, found, expected) => .next (s.rowFault cause kind b.toNat found expected)
    | none =>
      let g := (Kv.get {} s.tables s.site.pan).gA
      let v := idx.zipIdx.foldl (fun acc k => acc + s.raccWeight n b w k.1 * d8Value (bitsN g (8 * k.2) 8)) 0
      let s := if n then s.setNodeEntry (s.bufKey b) (s.nodeEntry (s.bufKey b)).checked else s
      .next ((s.emitResult (.lane t) (laneVal z v) (3 + (idx.length + 15) / 16)).tookPacket src adv)

/-- Entry `k` of the active value table, as 32 bits (R230, R273). -/
def Tables.value (x : Tables) (k : Nat) : BitVec 32 :=
  if x.i16A then BitVec.ofInt 32 (sextN (bitsN x.vA (16 * k) 16) 16) else BitVec.ofNat 32 (bitsN x.vA (32 * k) 32)

/-- RVAL (R273): an index at or above the packet's group size is never an arrival. -/
def execRval (adv : Bool) (d : Dst) (a : Src) (src : PktPort) (s : State) : Out :=
  match s.readPacket src with
  | .fault cause kind num found expected => .next (s.rowFault cause kind num found expected)
  | .packet idx group =>
    let i := (s.src32 a noImm).toNat % 64
    let x := Kv.get {} s.tables s.site.pan
    let k := if group ≤ i then 64 else match idx.findIdx? (· == i) with | some p => p | none => 64
    match s.row32 x.i16A d (x.value k) 3 with
    | .next s' => .next (s'.tookPacket src adv)
    | o => o

def execRnop (s : State) : Out := .next s

/-! ### Edge feeds (R219) -/

/-- The window that begins in this kernel cycle of a block, if one does. -/
def State.windowStart (s : State) (key : Nat) : Option Nat :=
  let r := Kv.get {} s.runs key
  let b := Kv.get {} s.active key
  let k := Kv.get 0 s.kcnt key
  if s.counted key && decide (r.start ≤ k) && (k - r.start) % max 1 b.ii.toNat == 0 then some ((k - r.start) / max 1 b.ii.toNat)
  else none

/-- A port of KIND 1 takes the next 16 bytes of its binding, if its block is at the start of a window that feeds it. -/
def State.feedPort (e : Nat) (p : Port) (s : State) (key : Nat) : State :=
  let pan := keyPan key
  let b := Kv.get {} s.active key
  let cfg := b.elemCfg e
  let sg := b.portStage e p
  match s.windowStart key with
  | none => s
  | some w =>
    if cfg.kind p ≠ 1 ∨ w < sg ∨ sg + b.total ≤ w then s
    else
      let k := nodeKey pan e (cfg.buf p)
      let c := s.nodeEntry k
      let per := max 1 (c.size / 16)
      let a := nodeSlotAddr k c c.rp (16 * (c.units % per))
      match s.slotFault c a 16 with
      | some (cause, kind, found, expected) =>
        s.blockFault cause (elemX e) (elemY e) b.f.toNat kind (cfg.buf p) (s.runOf pan (keyMask key)).copy 0 found expected
      | none =>
        let c' := { c.checked with units := c.units + 1 }
        let s := s.enterDelay pan e p (keyMask key) (Kv.get 0 s.kcnt key + 1 + cfg.delay p) none (BitVec.ofNat 128 (s.readNat a 16))
        s.setNodeEntry k (if (c.units + 1) % per = 0 then c'.release else c')

/-- EDGE_FEED (R219): a boundary port of an element is fed for the blocks of its pan whose window begins in this cycle. -/
def execEdgeFeed (elem : Nat) (p : Port) (s : State) : Out :=
  .next ((Kv.keysWhere (fun k r => r.live && k / 256 == elem / 256) s.runs).foldl (State.feedPort (elem % 256) p) s)

end Sys2Proof.Machine
end

