-- ==== Sys2Proof/Machine/BlockCheck.lean ====
section
/-! DEFINITION. What BEND and BSTAMP check of a block: its images and checksum (R161, R168, R213), and the refusals of R148, R155
to R165, R173, R217 to R224, R248, R402, R450 and R483 in their order. -/

namespace Sys2Proof.Machine

/-! ### CRC-32C (R168) -/

def crcBits : Nat → Nat → Nat
  | 0, c => c
  | n + 1, c => crcBits n (if c % 2 = 1 then (c / 2) ^^^ 0x82F63B78 else c / 2)
def crcByte (c : Nat) (b : Byte) : Nat := crcBits 8 (c ^^^ b.toNat)
/-- CRC-32C of a byte string: reflected, from all ones, complemented. -/
def crc32c (bs : List Byte) : Nat := bs.foldl crcByte 0xFFFFFFFF ^^^ 0xFFFFFFFF

/-! ### Images -/

/-- The block image of an element (R161). -/
def Block.image (b : Block) (mask : BitVec 8) (c : ElemCfg) : List Byte :=
  [mask, b.ii.setWidth 8, b.f.setWidth 8, 0] ++ natLe 4 b.ewin.toNat ++ [b.twin, 0] ++ natLe 2 c.dly.toNat
    ++ natLe 4 c.fcw.toNat ++ natLe 8 c.route.toNat
    ++ b.indices.flatMap fun j =>
      let r := c.row j
      natLe 6 r.ent.bits.toNat ++ [r.ent.op, r.ent.mod.setWidth 8] ++ natLe 4 r.elive.toNat ++ [r.tlive, 0, 0, 0]

/-- The pan block record (R213). -/
def Block.record (b : Block) (mask : BitVec 8) : List Byte :=
  let col := fun (n w : Nat) (t : Kv Nat) => (List.range n).flatMap fun k => natLe w (Kv.get 0 t k)
  natLe 2 b.id.toNat ++ [mask, if b.clr then 1 else 0] ++ natLe 8 b.nest.toNat
    ++ (List.range 16).map (fun k => BitVec.ofNat 8 (b.stage (2 * k) + 16 * b.stage (2 * k + 1)))
    ++ col 128 8 b.nodeB ++ col 128 2 b.nodeX ++ col 16 8 b.concB ++ col 16 2 b.concX ++ col 16 8 b.strB ++ [0, 0, 0, 0]

/-- The parts of an element that differ between elements of one block, rows outside f … f + II − 1 dropped. -/
def Block.trim (b : Block) (c : ElemCfg) : ElemCfg :=
  { c with rows := c.rows.filter fun r => decide (b.f.toNat ≤ r.1) && decide (r.1 < b.f.toNat + b.ii.toNat) }
/-- The distinct element configurations of a block. -/
def Block.kinds (b : Block) : List ElemCfg :=
  ((if b.elems.length < 256 then [({} : ElemCfg)] else []) ++ b.elems.map fun e => b.trim e.2).dedup

/-- The pan checksum (R168). -/
def Block.checksum (b : Block) (mask : BitVec 8) : Nat :=
  let sums := b.kinds.map fun c => (c, natLe 4 (crc32c (b.image mask c)))
  crc32c (b.record mask ++ allElems.flatMap fun e =>
    match sums.find? fun p => p.1 == b.trim (b.elemCfg e) with | some p => p.2 | none => [])

/-! ### Refusals (R166) -/

/-- TVAL of a refusal: reason, element, row index, operand code and copy. -/
def refusal (reason e row code copy : Nat) : Nat := reason + 2 ^ 8 * e + 2 ^ 16 * row + 2 ^ 21 * code + 2 ^ 27 * copy
/-- The same where no row, register or element is concerned. -/
def refusal0 (reason : Nat) : Nat := refusal reason 0 0 0x3F 0

/-- What a check finds first: element, row index and operand code. -/
abbrev Found := Option (Nat × Nat × Nat)

/-- The smallest power of two that is at least `n` (R151). -/
def nextPow (n : Nat) : Nat := if n ≤ 1 then 1 else 2 ^ (Nat.log2 (n - 1) + 1)
/-- An FCW that breaks R148. The bound of R4 for W×V products does not apply to a dyadic one, which has sixteen groups (R4, R153) and a
bound of its own (DEDUCED, log 57). -/
def fcwBad (w : BitVec 32) : Bool :=
  let n := fcwW w / 2 * (fcwV w / 2)
  let ng := fcwNG w
  ng == 0 || (!fcwDY w && decide (min (64 / n) (min (128 / fcwW w) (128 / fcwV w)) < ng))
    || (fcwPL w && decide (64 < (ng - 1) * nextPow n + n)) || decide (2 ≤ fcwRED w)
    || (fcwDY w && (fcwW w != 8 || fcwV w != 8 || fcwBS w || decide (16 < ng)))

/-- Registers as one number: e0 to e31 are 0 to 31, t0 to t7 are 32 to 39. -/
def srcRegs : Src → List Nat | .e k => [k.toNat] | .lane t => [32 + t.toNat] | _ => []
def dstRegs : Dst → List Nat | .e k => [k.toNat] | .lane t => [32 + t.toNat] | _ => []
/-- The lowest register of a list as an operand code (R62), 0x3F for none: the one that TVAL names when several of a row fail a check, the
model's choice (DESIGN CHOICE, log 74). -/
def lowestCode (l : List Nat) : Nat := l.min?.getD 0x3F
/-- The registers of a window or liveness mask. -/
def maskRegs (e : BitVec 32) (t : BitVec 8) : List Nat :=
  ((List.range 32).filter fun k => e.getLsbD k) ++ ((List.range 8).filter fun k => t.getLsbD k).map (32 + ·)

/-- Registers a row reads, with a RACC's weights or without them, and writes. -/
def weightRegs : Instr → List Nat | .racc false _ _ _ _ (.e k) _ => (raccWeights k).filter (· < 32) | _ => []
def readRegs (i : Instr) : List Nat := (rowReads i).flatMap srcRegs
def writeRegs (i : Instr) : List (Nat × Nat) :=
  ((rowWrites i).flatMap fun w => (dstRegs w.1).map fun r => (r, w.2)) ++ (tileLane i).toList.map fun t => (32 + t.toNat, 0)

/-- The first index of a block, in order, for which a check of an element finds something. -/
def Block.firstRow (b : Block) (f : Nat → Option Nat) : Option (Nat × Nat) :=
  b.indices.findSome? fun j => (f j).map fun c => (j, c)
/-- The first element for which a check finds something. -/
def firstElem (f : Nat → Option (Nat × Nat)) : Found := allElems.findSome? fun e => (f e).map fun r => (e, r.1, r.2)

/-! #### Orders 3, 5 and 6 of R165 -/

/-- Order 3. A RACC's weight registers outside the window do not count here: they have reason 0x11 of their own (R248), the model's
reading (DESIGN CHOICE, log 76). -/
def Block.checkWindow (b : Block) (e : Nat) : Option (Nat × Nat) :=
  let win := maskRegs b.ewin b.twin
  b.firstRow fun j =>
    let i := b.rowAt e j
    match (readRegs i ++ (writeRegs i).map (·.1)).filter fun r => !win.contains r with
    | [] => none
    | l => some (lowestCode l)

def Block.liveRegs (b : Block) (e j : Nat) : List Nat :=
  let r := (b.elemCfg e).row j
  maskRegs r.elive r.tlive
def Block.checkLiveRead (b : Block) (e : Nat) : Option (Nat × Nat) :=
  b.firstRow fun j =>
    let i := b.rowAt e j
    match (readRegs i ++ weightRegs i).filter fun r => !(b.liveRegs e j).contains r with
    | [] => none
    | l => some (lowestCode l)

/-- The registers that a write lands in at position `p` (R164). -/
def Block.landsAt (b : Block) (e p : Nat) : List Nat :=
  b.indices.flatMap fun j =>
    ((writeRegs (b.rowAt e j)).filter fun w => (j - b.f.toNat + w.2) % max 1 b.ii.toNat == p).map (·.1)
def Block.checkBorn (b : Block) (e : Nat) : Option (Nat × Nat) :=
  b.firstRow fun j =>
    let p := j - b.f.toNat
    let prev := b.f.toNat + (p + b.ii.toNat - 1) % max 1 b.ii.toNat
    match (b.liveRegs e j).filter fun r => !(b.liveRegs e prev).contains r && !(b.landsAt e p).contains r with
    | [] => none
    | l => some (lowestCode l)

/-! #### Orders 7 and 8 -/

/-- The rectangle of elements that hold a tile row: the distance of an element from its first one (R253). -/
def Block.back (b : Block) (j : Nat) (ent : RowEntry) (e d : Nat) : Nat → Nat
  | 0 => 0
  | n + 1 => if d ≤ e && b.holds j ent (e - d) then 1 + b.back j ent (e - d) d n else 0
def Block.tileDist (b : Block) (e j : Nat) : Nat :=
  let ent := ((b.elemCfg e).row j).ent
  b.back j ent e 1 (elemX e) + b.back j ent e 16 (elemY e)
/-- Interval and repeat span of a tile row in an element. -/
def Block.tileSpan (b : Block) (e j : Nat) : Nat := tileRep (b.rowAt e j) * tileI (b.rowAt e j) (b.elemCfg e).fcw

/-- How often a span of `n` kernel cycles from position `p` on covers position `q` in the steady state. -/
def coverage (ii p n q : Nat) : Nat := n / max 1 ii + (if (q + ii - p) % max 1 ii < n % max 1 ii then 1 else 0)

/-- The span of a row's results with latency above 1 to e registers and lanes (R165, R254). -/
def Block.flightSpan (b : Block) (e j : Nat) : Nat :=
  let i := b.rowAt e j
  if isTile i then b.tileSpan e j + 5 + b.tileDist e j
  else ((writeRegs i).filter fun w => 1 < w.2).foldl (fun m w => max m w.2) 0
/-- Results of a row in flight at a position of the steady state. A tile step of a block of one window is one result, however long its
span (R254, R255). -/
def Block.flightsAt (b : Block) (e k q : Nat) : Nat :=
  let n := coverage b.ii.toNat (k - b.f.toNat) (b.flightSpan e k) q
  if isTile (b.rowAt e k) && b.total == 1 then min 1 n else n
def Block.checkFlights (b : Block) (e : Nat) : Option (Nat × Nat) :=
  b.firstRow fun j => if 4 < (b.indices.map fun k => b.flightsAt e k (j - b.f.toNat)).foldl (· + ·) 0 then some 0x3F else none

/-- The kernel cycles for which a row holds the brick array, and their start after its issue (R152, R255, R260). -/
def Block.brickHold (b : Block) (e j : Nat) : Option (Nat × Nat) :=
  match b.rowAt e j with
  | .fmul .. => some (0, 3) | .ffma .. => some (0, 3) | .fdot2 .. => some (0, 3)
  | .macf .. => some (0, 1) | .dmac .. => some (0, 1)
  | .tstep .. => some (b.tileDist e j, b.tileSpan e j) | .spmx .. => some (b.tileDist e j, b.tileSpan e j)
  | _ => none

/-- Whether, in some two windows of the gated schedule, the row at `k` begins to use the bricks while the row at `j` holds
them: some number d of windows between them gives 0 ≤ d·II + (k + start) − (j + start) < span (R222, R255). -/
def Block.brickClash (b : Block) (e j k : Nat) : Bool :=
  match b.brickHold e j, b.brickHold e k with
  | some (oj, n), some (ok, _) =>
    let ii : Int := max 1 b.ii.toNat
    let c : Int := ((k + ok : Nat) : Int) - ((j + oj : Nat) : Int)
    let sg : Int := (b.stage k : Int) - (b.stage j : Int)
    let lo := max (sg - (b.total : Int) + 1) (-(c / ii))
    let hi := min (sg + (b.total : Int) - 1) (((n : Int) - 1 - c) / ii)
    -- the row itself in its own window is no clash
    if j = k ∧ c = 0 then decide (max lo 1 ≤ hi) else decide (lo ≤ hi)
  | _, _ => false
def Block.checkBricks (b : Block) (e : Nat) : Option (Nat × Nat) :=
  b.firstRow fun k => if b.indices.any fun j => b.brickClash e j k then some 0x3F else none

/-! #### Order 4: other resident blocks (R156, R160, R175, R248) -/

/-- The units, metadata registers and latches that a row of an element names: 0 the rake, 1 + y a block-quantise element, 32 + x an
exponent unit, 64 + m a metadata register, 128 + e the latches of an element. -/
def Block.unitsAt (b : Block) (e j : Nat) : List Nat :=
  match b.rowAt e j with
  | .rank .. => [0]
  | .bq .. => [1 + elemY e]
  | .tstep ta tb .. => if (tileFmt ta).blocks || (tileFmt tb).blocks then [32 + elemX e] else []
  | .spmx _ _ _ _ _ mf nm1 .. => (List.range (nm1.toNat + 1)).map fun k => 64 + (mf.toNat + k) % 16
  | .setq .. => [128 + e]
  | .macf .. => if fcwBSEL (b.elemCfg e).fcw then [] else [128 + e]
  | .dmac .. => if fcwBSEL (b.elemCfg e).fcw then [] else [128 + e]
  | _ => []
/-- Those of a block. -/
def Block.units (b : Block) : List Nat := (allElems.flatMap fun e => b.indices.flatMap (b.unitsAt e)).dedup

/-- The resident blocks of a pan, active or loaded, with their masks and the contexts that own them, other than the one of a
mask itself. -/
def State.residents (s : State) (pan : Nat) : List (BitVec 8 × Nat × Block) :=
  ((s.active.filter fun e => e.1 / 256 == pan && e.2.live).map fun e => (keyMask e.1, (Kv.get {} s.runs e.1).ctx, e.2))
    ++ ((s.shadow.filter fun e => e.1 / 256 == pan && e.2.live).map fun e => (keyMask e.1, e.2.owner, e.2))

/-- The finding of the first failing element in raster order, of several (R166). -/
def firstFound : List Found → Found
  | [] => none
  | none :: l => firstFound l
  | some a :: l => match firstFound l with
    | some b => if b.1 < a.1 then some b else some a
    | none => some a

def Block.checkOthers (b : Block) (mask : BitVec 8) (c : Nat) (others : List (BitVec 8 × Nat × Block)) : Found :=
  let mine := b.units
  firstFound <| others.map fun (m, o, d) =>
    if m = mask then none
    else if o = c ∧ m &&& mask ≠ 0 then some (0, 0, 0x3F)
    else
      let lo := max b.f.toNat d.f.toNat
      if lo < min (b.f.toNat + b.ii.toNat) (d.f.toNat + d.ii.toNat) then some (0, lo, 0x3F)
      else match maskRegs (b.ewin &&& d.ewin) (b.twin &&& d.twin) with
        | r :: _ => some (0, 0, r)
        | [] =>
          let shared := d.units.filter fun u => mine.contains u
          if shared.isEmpty then none
          else firstElem fun e => b.firstRow fun j => if (b.unitsAt e j).any fun u => shared.contains u then some 0x3F else none

/-! #### Reasons 0x0D to 0x10 -/

def allPorts : List Port := [.n, .e, .s, .w]

/-- Routes (R217, R218). -/
def Block.checkRoutes (b : Block) (pan : Nat) (map : List Nat) : Found :=
  firstElem fun e => allPorts.findSome? fun p =>
    let k := (b.elemCfg e).kind p
    let bad := (k == 1 || k == 2) && !onEdge e p
      || (k == 2 && (match adjacentPan pan p with | some q => !map.contains q | none => true))
    if bad then some (0, 0x3F) else none

/-- Fields of node and concentrator entries (R220). -/
def nodeBase0 (p : Nat) : Nat := bitsN p 8 16
def nodeSize0 (p : Nat) : Nat := 16 * (bitsN p 24 12 + 1)
def nodeDepth (p : Nat) : Nat := bitsN p 36 8 + 1
def nodeDir (p : Nat) : Nat := bitsN p 60 2
def concBase0 (p : Nat) : Nat := 16 * bitsN p 4 19
def concSize0 (p : Nat) : Nat := 16 * (bitsN p 23 12 + 1)
def concDepth (p : Nat) : Nat := bitsN p 35 10 + 1
def concDir (p : Nat) : Nat := bitsN p 61 2

/-- The bytes of node space, counted over the pan, and of field space that entries take. -/
def nodeRange (k p : Nat) : Nat × Nat := (65536 * (k / 8) + nodeBase0 p, 65536 * (k / 8) + nodeBase0 p + nodeSize0 p * nodeDepth p)
def concRange (p : Nat) : Nat × Nat := (concBase0 p, concBase0 p + concSize0 p * concDepth p)
def meets (a b : Nat × Nat) : Bool := decide (a.1 < b.2) && decide (b.1 < a.2)

/-- A producer and a consumer that may share a concentrator entry (R221, R304). -/
def concPair (p q : Nat) : Bool :=
  p % 2 ^ 61 == q % 2 ^ 61 && ((concDir p == 0 && concDir q == 1) || (concDir p == 1 && concDir q == 0))

/-- The resident blocks that count against a binding: the active block of the same context and mask does not (R221). -/
def rivals (mask : BitVec 8) (c : Nat) (l : List (BitVec 8 × Nat × Block)) : List Block :=
  (l.filter fun o => !(o.1 == mask && o.2.1 == c)).map (·.2.2)

/-- The other pans of a field. -/
def fieldPans (pan : Nat) : List Nat := (List.range 16).map fun k => 16 * fieldOf pan + k

/-- Bindings (R221). -/
def State.checkBindings (s : State) (b : Block) (mask : BitVec 8) (c pan : Nat) (named : List Nat) : Found :=
  let x := s.ctx c
  let near := rivals mask c (s.residents pan)
  let far := near ++ ((fieldPans pan).filter (· != pan)).flatMap fun q => (s.residents q).map (·.2.2)
  let node := b.nodeB.findSome? fun (k, p) =>
    let r := nodeRange k p
    let bad := nodeBase0 p % 16 != 0 || decide (65536 < nodeBase0 p + nodeSize0 p * nodeDepth p)
      || (b.nodeB.any fun (j, q) => decide (j < k) && meets r (nodeRange j q))
      || (decide (x.spillBase < x.spillLim) && meets r (x.spillBase, x.spillLim)) || near.any fun d => Kv.get 0 d.nodeB k != 0
    if bad then some (64 * (k / 32) + 4 * (k / 8 % 4), 0, 0x3F) else none
  let conc := b.concB.findSome? fun (k, p) =>
    let r := concRange p
    let bad := decide (Config.fieldSize < r.2) || (b.concB.any fun (j, q) => decide (j < k) && meets r (concRange q))
      || far.any fun d => Kv.get 0 d.concB k != 0 && !concPair p (Kv.get 0 d.concB k)
    if bad then some (0, 0, 0x3F) else none
  let unbound := named.any fun n => if n < 128 then Kv.get 0 b.nodeB n == 0 else Kv.get 0 b.concB (n - 128) == 0
  if unbound then some (0, 0, 0x3F) else conc.orElse fun _ => node

/-- What a row needs of the record: node buffers by key, concentrator bindings and streams, with the directions that do. -/
inductive Need where
  | node (key : Nat) (dirs : List Nat)
  | conc (c : Nat) (dirs : List Nat)
  | str (q : Nat) (recv : Bool)
  deriving DecidableEq, Repr

def Need.met (b : Block) : Need → Bool
  | .node k ds => Kv.get 0 b.nodeB k != 0 && ds.contains (nodeDir (Kv.get 0 b.nodeB k))
  | .conc k ds => Kv.get 0 b.concB k != 0 && ds.contains (concDir (Kv.get 0 b.concB k))
  | .str q r => Kv.get 0 b.strB q != 0 && strRecv (Kv.get 0 b.strB q) == r

/-- The buffers of a tile row in an element (R252): A in the node of (x0, y), B in the node of (x, y0). -/
def Block.tileKeys (b : Block) (e j : Nat) : Nat × Nat :=
  let ent := ((b.elemCfg e).row j).ent
  (8 * nodeOf (e - b.back j ent e 1 (elemX e)), 8 * nodeOf (e - 16 * b.back j ent e 16 (elemY e)))

/-- What a row of an element needs (R224, R244, R245, R252, R265, R269, R271, R272). -/
def Block.needs (b : Block) (e j : Nat) : List Need :=
  let n := 8 * nodeOf e
  let pkt := fun (p : PktPort) (recv : Bool) (ds : List Nat) =>
    if p.stream then Need.str p.idx.toNat recv else Need.conc p.idx.toNat ds
  match b.rowAt e j with
  | .nld _ _ k _ _ _ => [.node (n + k.toNat) [0, 2]]
  | .nst _ _ k _ _ _ => [.node (n + k.toNat) [1, 2]]
  | .send _ _ q _ _ => [.str q.toNat false]
  | .recv _ _ q _ _ => [.str q.toNat true]
  | .bq _ _ bD bS _ => [.node (n + bD.toNat) [1, 2], .node (n + bS.toNat) [1, 2]]
  | .rank bI _ _ _ o => [.node (n + bI.toNat) [0, 2], pkt o false [1, 2]]
  | .racc w _ _ k _ _ o => pkt o true [0, 2] :: (if w then [.node (n + k.toNat) [0, 2]] else [])
  | .rval _ _ _ o => [pkt o true [0, 2]]
  | .tstep ta tb _ bA bB bSA bSB _ _ _ =>
    let (ka, kb) := b.tileKeys e j
    [.node (ka + bA.toNat) [0, 2], .node (kb + bB.toNat) [0, 2]]
      ++ (if (tileFmt ta).scaled then [.node (ka + bSA.toNat) [0, 2]] else [])
      ++ (if (tileFmt tb).scaled then [.node (kb + bSB.toNat) [0, 2]] else [])
  | .spmx _ _ _ bA bB .. =>
    let (ka, kb) := b.tileKeys e j
    [.node (ka + bA.toNat) [0, 2], .node (kb + bB.toNat) [0, 2]]
  | _ => []

/-- Reason 0x0F, of ports and then of rows, element by element. -/
def Block.checkNeeds (b : Block) : Found :=
  firstElem fun e =>
    let cfg := b.elemCfg e
    if allPorts.any fun p => cfg.kind p == 1 && !(Need.node (8 * nodeOf e + cfg.buf p) [0, 2]).met b then some (0, 0x3F)
    else b.firstRow fun j => if (b.needs e j).all (Need.met b) then none else some 0x3F

/-- Streams (R221, R450). One that the active block of the mask declares with an equal payload runs on, and is not refused (R483). -/
def State.checkStreams (s : State) (b : Block) (mask : BitVec 8) (pan : Nat) : Found :=
  let pid := s.owner (fieldOf pan)
  let die := dieOf pan
  b.strB.findSome? fun (q, p) =>
    let other := if strSide p then (die + 7) % 8 else (die + 1) % 8
    let key := streamAt pid die q (strSide p)
    let runsOn := (s.activeBlk pan mask).live && Kv.get 0 (s.activeBlk pan mask).strB q == p
    let clash := (s.residents pan).any fun (_, _, d) => Kv.get 0 d.strB q != 0
    let across := s.streams.any fun (k, st) =>
      k != key && k / 16 == key / 16 && (st.send.isSome || st.recv.isSome)
        && meets (strFirst p, strFirst p + strDepth p) (st.first, st.first + st.depth)
    let bad := decide (strDepth p < 16) || (s.part pid).fset.extractLsb' (6 * other) 6 == 0 || clash || across
      || decide ((s.part pid).sluice < strFirst p + strDepth p)
    if bad && !runsOn then some (0, 0, 0x3F) else none

/-! #### Reason 0x11 (R248) -/

/-- Elements of a tile row's rectangle, from the first one that an element leads back to. -/
def Block.tileRect (b : Block) (e j : Nat) : Nat × Nat × Nat :=
  let ent := ((b.elemCfg e).row j).ent
  let e0 := e - b.back j ent e 1 (elemX e)
  let e0 := e0 - 16 * b.back j ent e0 16 (elemY e0)
  (e0, b.extent j ent e0 1 (16 - elemX e0), b.extent j ent e0 16 (16 - elemY e0))
/-- Whether the elements that hold a tile row are one rectangle of contiguous columns and rows. -/
def Block.tileWhole (b : Block) (e j : Nat) : Bool :=
  let ent := ((b.elemCfg e).row j).ent
  let (e0, nx, ny) := b.tileRect e j
  allElems.all fun k =>
    b.holds j ent k == (decide (elemX e0 ≤ elemX k) && decide (elemX k < elemX e0 + nx) && decide (elemY e0 ≤ elemY k)
      && decide (elemY k < elemY e0 + ny))

def signedTf (tf : BitVec 4) : Bool := (decide (5 ≤ tf.toNat) && decide (tf.toNat ≤ 8)) || (decide (12 ≤ tf.toNat) && decide (tf.toNat ≤ 14))
/-- Slot sizes of the needs of a row, an unbound one passing. -/
def Block.sizesOk (b : Block) (ns : List Need) (least : List Nat) : Bool :=
  (List.zipWith (fun n m => match n with
    | .node k _ => Kv.get 0 b.nodeB k == 0 || decide (m ≤ nodeSize0 (Kv.get 0 b.nodeB k))
    | _ => true) ns least).all fun x => x

/-- The rows of an element that hold something, over the block. -/
def Block.elemsWith (b : Block) (p : Instr → Bool) : List Nat := allElems.filter fun e => b.indices.any fun j => p (b.rowAt e j)
def isRank : Instr → Bool | .rank .. => true | _ => false
def isBq : Instr → Bool | .bq .. => true | _ => false
/-- Whether two RANK issues of an element fall less than two kernel cycles apart in the steady state. -/
def Block.ranksClose (b : Block) (e : Nat) : Bool :=
  let ps := b.indices.filter fun j => isRank (b.rowAt e j)
  ps.any fun j => ps.any fun k => (k + b.ii.toNat - j) % max 1 b.ii.toNat == 1 || decide (b.ii.toNat < 2)

def Block.rowBad (b : Block) (ranks bqs : List Nat) (e j : Nat) : Bool :=
  let w := (b.elemCfg e).fcw
  match b.rowAt e j with
  | .tstep ta tb .. =>
    let fa := tileFmt ta
    let fb := tileFmt tb
    fcwW w != fa.width || fcwV w != fb.width || fcwDY w || fcwRED w != 0 || !fcwBSEL w || (signedTf ta && !fcwAS w)
      || (signedTf tb && !fcwBS w) || tstepKv fa fb == 0 || !b.tileWhole e j
      || !b.sizesOk (b.needs e j) [256, 256, 32, 32]
  | .spmx ta tb _ _ _ _ _ mc nc _ _ =>
    fcwW w != (tileFmt ta).width || fcwV w != (tileFmt tb).width || fcwDY w || fcwRED w != 0 || !fcwBSEL w
      || decide (512 < spKd mc nc * (tileFmt tb).width) || !b.tileWhole e j || !b.sizesOk (b.needs e j) [256, 256]
  | .macf wr d _ _ =>
    let port := match d with | .port _ => true | _ => false
    let lane := match d with | .lane _ => true | _ => false
    fcwDY w || (if fcwRED w = 1 then decide (128 < fcwNG w * (fcwW w + fcwV w)) || !port || !wr else !lane)
  | .dmac _ d _ _ => !fcwDY w || fcwRED w != 0 || !(match d with | .lane _ => true | _ => false)
  | .bq _ fo bD _ _ =>
    bqs.any (fun k => decide (k < e) && elemY k == elemY e)
      || nodeSize0 (Kv.get 0 b.nodeB (8 * nodeOf e + bD.toNat)) % bqBytes fo != 0
  | .rank .. => ranks.any (fun k => decide (k < e)) || b.ranksClose e
  | .racc false _ _ _ _ (.e k) _ => (raccWeights k).any fun r => !(decide (r < 32) && b.ewin.getLsbD r)
  | _ => false

def Block.checkRows (b : Block) : Found :=
  let ranks := b.elemsWith isRank
  let bqs := b.elemsWith isBq
  firstElem fun e => b.firstRow fun j => if b.rowBad ranks bqs e j then some 0x3F else none

/-! #### Reason 0x12 (R402) -/

/-- What one block adds to an element record: live e registers, ports, delay stages, sends and contributions. -/
structure Bound where
  ne : Nat
  ports : List Port
  nd : Nat
  ns : Nat
  nc : Nat
  deriving DecidableEq, Repr

/-- The interval of a tile row and the kernel cycles for which each of its steps has a contribution pending, from its read on (R253). -/
def Block.tileWait (b : Block) (e j : Nat) : Nat × Nat :=
  let i := tileI (b.rowAt e j) (b.elemCfg e).fcw
  (i, i + 5 + b.tileDist e j)

/-- Contributions of a tile row pending at position `q` of the steady state of a block of many windows. -/
def Block.pendingAt (b : Block) (e j q : Nat) : Nat :=
  let (i, span) := b.tileWait e j
  ((List.range (min 32 (tileRep (b.rowAt e j)))).map fun r =>
    coverage b.ii.toNat ((j - b.f.toNat + r * i) % max 1 b.ii.toNat) span q).foldl (· + ·) 0

/-- The kernel cycle after start in which a row of a block of one window issues (R222). -/
def Block.issuesAt (b : Block) (j : Nat) : Nat := b.stage j * b.ii.toNat + (j - b.f.toNat)
/-- Contributions of a tile row pending in kernel cycle `t` after start, in a block of one window: steps `r` of its `REP` with
read ≤ t < read + wait. -/
def Block.pendingIn (b : Block) (e j t : Nat) : Nat :=
  let (i, span) := b.tileWait e j
  let o := b.issuesAt j
  if t < o ∨ i = 0 then 0
  else min (tileRep (b.rowAt e j)) ((t - o) / i + 1) - min (tileRep (b.rowAt e j)) ((t - o + i - span) / i)

/-- The largest number of contributions pending in one kernel cycle in an element (R402). In a block of one window the count grows at
reads only, and beyond the first of them no tail of an earlier row is left. -/
def Block.pending (b : Block) (e : Nat) : Nat :=
  let js := b.indices.filter fun j => isTile (b.rowAt e j) && (b.tileWait e j).1 != 0
  let sum := fun (f : Nat → Nat) => (js.map f).foldl (· + ·) 0
  if b.total = 1 then
    let times := js.flatMap fun j => (List.range (min 48 (tileRep (b.rowAt e j)))).map fun r => b.issuesAt j + r * (b.tileWait e j).1
    (times.map fun t => sum fun j => b.pendingIn e j t).foldl max 0
  else ((List.range b.ii.toNat).map fun q => sum fun j => b.pendingAt e j q).foldl max 0

/-- Ports of an element that a block reads or routes (R401, R402). -/
def Block.usedPorts (b : Block) (e : Nat) : List Port :=
  let cfg := b.elemCfg e
  let rows := b.indices.map fun j => b.rowAt e j
  allPorts.filter fun p => cfg.kind p == 1 || cfg.kind p == 2 || rows.any fun i => (rowReads i).contains (.port p)

def Block.bound (b : Block) (e : Nat) : Bound :=
  let cfg := b.elemCfg e
  let sends := fun (q : Nat) => (b.indices.map fun j =>
    ((rowWrites (b.rowAt e j)).map fun w => match w.1 with
      | .port _ => coverage b.ii.toNat (j - b.f.toNat) w.2 q
      | _ => 0).foldl (· + ·) 0).foldl (· + ·) 0
  { ne := (b.indices.map fun j => (maskRegs (cfg.row j).elive 0).length).foldl max 0,
    ports := b.usedPorts e,
    nd := (allPorts.map cfg.delay).foldl (· + ·) 0,
    ns := (List.range b.ii.toNat).foldl (fun m q => max m (sends q)) 0,
    nc := b.pending e }

/-- The configuration part of a block (R402). -/
def Block.configBytes (b : Block) : Nat :=
  let kinds := (allElems.map fun e => b.trim (b.elemCfg e)).dedup.length
  1600 + 256 + (24 + 16 * b.ii.toNat) * kinds + 128 * (b.units.filter fun u => 64 ≤ u && u < 128).length

/-- State of the edge strip and the chains of a context's blocks (R403). -/
def stripBytes (units : List Nat) (chains : Nat) : Nat :=
  (units.map fun u => if u = 0 then 192 else if u ≤ 16 then 136 else if 32 ≤ u ∧ u < 48 then 32 else 0).foldl (· + ·) 0 + 256 * chains

def Instr.isChain : Instr → Bool | .chain .. => true | _ => false

/-- The blocks of a context on the mask of a pan: the active one, and the loaded one that is to replace it. -/
structure MaskBlocks where
  act : Option Block
  load : Option Block
  deriving DecidableEq, Repr

def MaskBlocks.all (p : MaskBlocks) : List Block := p.act.toList ++ p.load.toList
/-- Live e registers at most: at each row of the active block with those of the loaded one's first row, and at each row of the loaded block
once it runs (R401, R402). -/
def MaskBlocks.live (p : MaskBlocks) (e : Nat) : Nat :=
  let waits := match p.load with | some d => ((d.elemCfg e).row d.f.toNat).elive | none => 0
  let rows := fun (b : Block) (with' : BitVec 32) => (b.indices.map fun j => (maskRegs (((b.elemCfg e).row j).elive ||| with') 0).length).foldl max 0
  max ((p.act.map fun b => rows b waits).getD 0) ((p.load.map fun b => rows b 0).getD 0)
/-- What the blocks of one mask add to an element record: only one of them runs at a time. -/
def MaskBlocks.bound (p : MaskBlocks) (e : Nat) : Bound :=
  let bs := p.all.map fun d => d.bound e
  let most := fun (f : Bound → Nat) => (bs.map f).foldl max 0
  { ne := p.live e, ports := allPorts.filter fun q => bs.any fun d => d.ports.contains q, nd := most (·.nd), ns := most (·.ns), nc := most (·.nc) }

/-- The blocks of a context on a pan by mask, with a new block loaded on one. -/
def State.maskBlocks (s : State) (b : Block) (mask : BitVec 8) (c pan : Nat) : List MaskBlocks :=
  let own := fun (x : Block) (ok : Bool) => if x.live && ok then some x else none
  ((mask :: (((s.residents pan).filter fun o => o.2.1 == c).map (·.1))).dedup).map fun m =>
    { act := own (s.activeBlk pan m) ((s.runOf pan m).ctx == c),
      load := if m = mask then some b else own (s.shadowBlk pan m) ((s.shadowBlk pan m).owner == c) }

/-- Whether an element record would hold too much: what its blocks add, whether it has latches in use, and the lanes of its windows (R401,
R402). -/
def recordOver (bs : List Bound) (latches : Bool) (nt : Nat) : Bool :=
  let sum := fun (f : Bound → Nat) => (bs.map f).foldl (· + ·) 0
  let np := (allPorts.filter fun p => bs.any fun d => d.ports.contains p).length
  let wl := if latches then 1 else 0
  let n := 24 + 4 * sum (·.ne) + 64 + 10 * nt + 32 * wl + 16 * np + 16 * sum (·.nd) + 24 * sum (·.ns) + 12 * sum (·.nc)
  decide (384 < n) || decide (8 < sum (·.ns)) || decide (15 < sum (·.nc))

/-- The bound of the context image with the new block resident; the active block of its mask stays resident until BGO (R156, R402). -/
def State.checkImage (s : State) (b : Block) (mask : BitVec 8) (c pan : Nat) : Found :=
  let pairs := s.maskBlocks b mask c pan
  let mine := pairs.flatMap MaskBlocks.all
  let twin := mine.foldl (fun t d => t ||| d.twin) (0 : BitVec 8)
  let nt := (maskRegs 0 twin).length
  let units := (mine.flatMap Block.units).dedup
  let chains := (s.cmds.filter fun k => k.ctx == c && k.pan == pan && Instr.isChain k.instr).length
  (firstElem fun e => if recordOver (pairs.map fun d => d.bound e) (units.contains (128 + e)) nt then some (0, 0x3F) else none).orElse fun _ =>
    if 1024 < stripBytes units chains then some (0, 0, 0x3F)
    else if 49152 < b.configBytes + (((s.residents pan).map fun o => o.2.2.configBytes).foldl (· + ·) 0) then some (0, 0, 0x3F)
    else none

/-! ### All checks in their order (R165, R224, R248, R402) -/

/-- The order-2 check: the slot mask, then II and f. -/
def Block.checkShape (b : Block) (mask slots : BitVec 8) : Option Nat :=
  if mask = 0 ∨ mask &&& ~~~slots ≠ 0 then some 0x08
  else if b.ii.toNat = 0 ∨ 32 < b.ii.toNat ∨ 32 < b.f.toNat + b.ii.toNat then some 0x06 else none

/-- Check `i` in the order of R165, R224, R248 and R402: TVAL when a block of context `c` fails it on a pan, as copy `copy`. Order 9
of R165, at index `stampOrder`, is BSTAMP's own. -/
def State.checkAt (s : State) (c pan : Nat) (mask : BitVec 8) (b : Block) (copy : Nat) (named : List Nat) (defect : Option Nat)
    (i : Nat) : Option Nat :=
  let tv := fun (reason : Nat) (f : Found) => f.map fun (e, row, code) => refusal reason e row code copy
  let elem := fun (reason : Nat) (f : Nat → Option (Nat × Nat)) => tv reason (firstElem f)
  match i with
  | 0 => tv 0x07 ((allElems.find? fun e => fcwBad (b.elemCfg e).fcw).map fun e => (e, 0, 0x3F))
  | 1 => (b.checkShape mask (s.ctx c).slots).map fun r => refusal r 0 0 0x3F copy
  | 2 => elem 0x03 b.checkWindow
  | 3 => tv 0x04 (b.checkOthers mask c (s.residents pan))
  | 4 => elem 0x01 b.checkLiveRead
  | 5 => elem 0x02 b.checkBorn
  | 6 => elem 0x05 b.checkFlights
  | 7 => elem 0x09 b.checkBricks
  | 9 => defect
  | 10 => tv 0x0D (b.checkRoutes pan (s.ctx c).map)
  | 11 => tv 0x0E (s.checkBindings b mask c pan named)
  | 12 => tv 0x0F b.checkNeeds
  | 13 => tv 0x10 (s.checkStreams b mask pan)
  | 14 => tv 0x11 b.checkRows
  | 15 => tv 0x12 (s.checkImage b mask c pan)
  | _ => none
/-- The index of order 9 of R165, and the number of checks. -/
def stampOrder : Nat := 8
def checkCount : Nat := 16

/-- TVAL of the first check that a block of context `c` fails on a pan, as copy `copy`. -/
def State.bendCheck (s : State) (c pan : Nat) (mask : BitVec 8) (b : Block) (copy : Nat) (named : List Nat)
    (defect : Option Nat) : Option Nat :=
  (List.range checkCount).findSome? (s.checkAt c pan mask b copy named defect)

/-- The row that a block issues in its kernel cycle `k` after start (R157, R222): its index, the iteration and the window, if it
takes effect. -/
def Block.issues (b : Block) (k : Nat) : Option (Nat × Nat × Nat) :=
  let ii := max 1 b.ii.toNat
  let w := k / ii
  let j := b.f.toNat + k % ii
  let sg := b.stage j
  if sg ≤ w ∧ w < sg + b.total then some (j, w - sg, w) else none

end Sys2Proof.Machine
end

