-- ==== Sys2Proof/Machine/Sys.lean ====
section
/-! DEFINITION. The system group (R133 to R143, R293, R441 to R444) and the steps that end its waits. -/

namespace Sys2Proof.Machine

/-! ### Traps and results -/

/-- TRAP (R134): the user fault, resumed after the instruction. -/
def execTrap (imm : Word) (s : State) : Out := .next (s.enterTrap s.cur 0x15 imm.toNat s.self.next)

/-- BRK (R134, R389): the breakpoint fault; with DBG = 1 the context halts for the debugger instead, at the next
instruction. -/
def execBrk (imm : Word) (s : State) : Out :=
  let x := s.self
  if x.dbg then
    let s := (s.setSelf { x with pc := BitVec.ofNat 56 x.next }).haltCtx s.cur (.halted .debug)
    .next (s.emit (.debug s.cur))
  else .next (s.enterTrap s.cur 0x14 imm.toNat x.next)

/-- RFT (R135). -/
def execRft (s : State) : Out := if s.self.hnd then .next (s.returnTrap s.cur) else s.trap 0x10 0

/-- REPLAY_LANDING (R38): the replay registers of a context whose counts have run out land. -/
def execReplayLanding (ctx : Nat) (s : State) : Out := .next (s.setCtx ctx ((s.ctx ctx).landReplays (s.ctx ctx).cyc))
/-- RESULT_LANDING (R23, R24): the results of a context that are due become visible. -/
def execResultLanding (ctx : Nat) (s : State) : Out := .next (s.setCtx ctx ((s.ctx ctx).landDue (s.ctx ctx).cyc))

/-! ### System registers (R18 to R20, R39, R136) -/

def maskBits (v : Word) (lo w : Nat) : Word := BitVec.ofNat 64 (bitsN v.toNat lo w * 2 ^ lo)

def Ctx.status (x : Ctx) : Word :=
  BitVec.ofNat 64 ((if x.hnd then 1 else 0) + (if x.yreq then 2 else 0) + (if x.ord then 4 else 0) + 8 * x.ls.length
    + 2 ^ 8 * x.dgen.toNat + 2 ^ 32 * x.spd.toNat)

/-- YCTL as it reads: a register that counts down shows what remains (R39). -/
def Ctx.yctl (x : Ctx) (y : Replay) : Word :=
  let cnt := match y.due with | some d => d - x.cyc | none => y.cnt.toNat
  BitVec.ofNat 64 ((if y.v then 1 else 0) + 2 * y.dst.toNat + 2 ^ 6 * (cnt % 32) + (if y.hlt then 2 ^ 11 else 0))

/-- The logical die of a physical one in a partition: its dies are numbered clockwise from the first (R18, R436). -/
def State.logicalDie (s : State) (pid die : Nat) : Nat :=
  ((List.range die).filter fun d => (s.part pid).fset.extractLsb' (6 * d) 6 != 0).length

def Ctx.yOf (x : Ctx) (k : Nat) : Replay := x.replays.getD k {}
def Ctx.setY (x : Ctx) (k : Nat) (y : Replay) : Ctx :=
  match k with
  | 0 => { x with y0 := y } | 1 => { x with y1 := y } | 2 => { x with y2 := y } | _ => { x with y3 := y }
def Ctx.lssOf (x : Ctx) (k : Nat) : LoopEntry := [x.lss0, x.lss1, x.lss2, x.lss3].getD k {}
def Ctx.setLss (x : Ctx) (k : Nat) (e : LoopEntry) : Ctx :=
  match k with
  | 0 => { x with lss0 := e } | 1 => { x with lss1 := e } | 2 => { x with lss2 := e } | _ => { x with lss3 := e }

/-- The value of a system register that R18 lists. -/
def State.sysRead (s : State) (n : Nat) : Option Word :=
  let x := s.self
  let id := fun (v : Nat) (r : BitVec 16) => BitVec.ofNat 64 (v + 2 ^ 16 * r.toNat)
  match n with
  | 0x000 => some x.status
  | 0x001 => some (x.tvec.setWidth 64)
  | 0x002 => some (BitVec.ofNat 64 (x.tcode.toNat + 2 ^ 8 * x.slsd.toNat))
  | 0x003 => some (x.tpc.setWidth 64)
  | 0x004 => some x.tval
  | 0x005 => some (x.modefp.setWidth 64)
  | 0x008 => some (maskBits (BitVec.ofNat 64 x.spillBase) 3 17)
  | 0x009 => some (maskBits (BitVec.ofNat 64 x.spillLim) 3 18)
  | 0x00A => some (maskBits (x.ovfPtr.setWidth 64) 3 53)
  | 0x010 => some (x.task.setWidth 64)
  | 0x011 => some (x.inst.setWidth 64)
  | 0x012 => some (id (s.pan % 16) x.ridxPan)
  | 0x013 => some (id (fieldOf s.pan % 6) x.ridxField)
  | 0x014 => some (id (s.logicalDie x.pid (dieOf s.pan)) x.ridxDie)
  | 0x018 => some (x.grace.setWidth 64)
  | 0x019 => some (x.kill.setWidth 64)
  | 0x01A => some (x.prio.setWidth 64)
  | n =>
    if 0x020 ≤ n ∧ n < 0x02C then
      let e := x.lssOf ((n - 0x20) / 3)
      match (n - 0x20) % 3 with
      | 0 => some (e.start.setWidth 64) | 1 => some (e.stop.setWidth 64) | _ => some (e.count.setWidth 64)
    else if 0x040 ≤ n ∧ n < 0x048 then
      let y := x.yOf ((n - 0x40) / 2)
      some (if n % 2 = 0 then y.val else x.yctl y)
    else none

/-- A write of a system register; what is read-only ignores it (R10, R136). A write of a replay register acts at the next RFT: a
count that runs lands as it was, in its place in the issue order, and the entry waits with what was written. The mark of corrupt data that
an entry carries stays with it through either write, the model's choice (DESIGN CHOICE, log 69). -/
def Ctx.sysWrite (x : Ctx) (n : Nat) (a : Word) : Ctx :=
  match n with
  | 0x000 => { x with ord := a.getLsbD 2 }
  | 0x001 => { x with tvec := a.setWidth 56 }
  | 0x002 => { x with tcode := a.setWidth 8, slsd := a.extractLsb' 8 3 }
  | 0x003 => { x with tpc := a.setWidth 56 }
  | 0x004 => { x with tval := a }
  | 0x005 => { x with modefp := a.setWidth 6 }
  | n =>
    if 0x020 ≤ n ∧ n < 0x02C then
      let k := (n - 0x20) / 3
      let e := x.lssOf k
      match (n - 0x20) % 3 with
      | 0 => x.setLss k { e with start := a.setWidth 56 }
      | 1 => x.setLss k { e with stop := a.setWidth 56 }
      | _ => x.setLss k { e with count := a.setWidth 32 }
    else if 0x040 ≤ n ∧ n < 0x048 then
      let k := (n - 0x40) / 2
      let y := x.yOf k
      if n % 2 = 0 then x.setY k { y with val := a, held := if y.due.isSome then some y.out else none }
      else { x with loose := x.loose ++ if y.v && y.due.isSome then [y] else [] }.setY k
        { y with v := a.getLsbD 0, dst := a.extractLsb' 1 5, cnt := a.extractLsb' 6 5, hlt := a.getLsbD 11, due := none, held := none }
    else x

/-- The checks of R18, privilege before the listing. -/
def State.sysFault (s : State) (n : BitVec 12) (i : Instr) : Option (Nat × Nat) :=
  if 0x800 ≤ n.toNat then some (0x10, n.toNat)
  else if (s.sysRead n.toNat).isNone then some (0x01, instrTval i)
  else none

def execSysr (rd : Reg) (n : BitVec 12) (s : State) : Out :=
  match s.sysFault n (.sysr rd n) with
  | some (k, v) => s.trap k v
  | none => s.result rd ((s.sysRead n.toNat).getD 0) 1
/-- SYSW (R136). A write of YCTL that would make a fifth result in flight raises the timing fault, as R25 says of any
instruction (DEDUCED, log 52). -/
def execSysw (n : BitVec 12) (ra : Reg) (s : State) : Out :=
  match s.sysFault n (.sysw n ra) with
  | some (k, v) => s.trap k v
  | none =>
    let x := s.self.sysWrite n.toNat (s.reg ra)
    if 4 < x.inFlight ∧ s.self.inFlight < x.inFlight then s.trap 0x07 4 else s.done x

/-! ### Waits -/

/-- HALT (R137): once every earlier result has landed, the context stops and firmware is told. -/
def execHalt (s : State) : Out :=
  let x := s.self
  if x.drained then
    .next ((s.setSelf ({ x with run := .stop, hold := none }.endCycle .issue)).emit (.halt s.cur x.task x.inst))
  else s.holdOn x s.holdNow .other

/-- The events that WAITE names, of those that hold (R138). -/
def State.waitEvents (s : State) (c : Nat) (mask : BitVec 10) : Word :=
  let x := s.ctx c
  let full := (List.range 8).foldl (fun v k => if mask.getLsbD k && (Kv.get {} x.l k).full then v + 2 ^ k else v) 0
  let unread := match s.task? x.ref with
    | some t =>
      let l := (t.inboxLoc 0).owner
      if l.dev = s.ownDev.toNat then s.peekNat l.pa 8 != s.peekNat (l.pa + 8) 8 else s.readAt l 8 != s.readAt { l with pa := l.pa + 8 } 8
    | none => false
  BitVec.ofNat 64 (full + (if mask.getLsbD 8 && unread then 2 ^ 8 else 0) + (if mask.getLsbD 9 && x.yreq then 2 ^ 9 else 0))

/-- The hold in force, or a fresh one that keeps a value and a number that the instruction reads as it issues: the first context
cycle of a hold is the one of its issue (R23; log 26). -/
def State.holdWith (s : State) (v : Word) (n : Nat) : Hold :=
  s.self.hold.getD { since := s.self.cyc, fab := s.cycle, val := v, upto := n }

/-- Whether a wait of `a` context cycles from `since` on has run out. -/
def timedOut (a : Word) (since now : Nat) : Bool := a != 0 && decide (a.toNat ≤ now - since)

/-- WAITE (R138): a level test in each context cycle from its issue on. -/
def execWaite (rd ra : Reg) (mask : BitVec 10) (s : State) : Out :=
  let x := s.self
  let h := s.holdNow
  let limit := if x.hold.isSome then h.val else s.reg ra
  let d := s.waitEvents s.cur mask
  if d != 0 then s.result rd d 1
  else if timedOut limit h.since x.cyc then s.result rd (2 ^ 10) 1
  else s.holdOn x { h with val := limit } .wait

/-- Whether a context is due to issue next and is held at its instruction. -/
def State.heldNow (s : State) (c : Nat) : Bool :=
  s.turn.head? == some c && (s.ctx c).hold.isSome && (s.ctx c).run == .running
/-- The context's turn of this cycle is taken. -/
def State.takeTurn (s : State) (c : Nat) : State := { s with turn := s.turn.tail, cur := c }

/-- WAITE_END (R138): in a context cycle of a context that WAITE holds, an event holds or the timeout has passed. -/
def execWaiteEnd (ctx : Nat) (s : State) : Out :=
  match (s.ctx ctx).instr? with
  | some (.waite rd _ mask) =>
    if s.heldNow ctx then
      let x := s.ctx ctx
      let h := x.hold.getD {}
      let d := s.waitEvents ctx mask
      if d != 0 then (s.takeTurn ctx).result rd d 1
      else if timedOut h.val h.since x.cyc then (s.takeTurn ctx).result rd (2 ^ 10) 1
      else .next s
    else .next s
  | _ => .next s

/-- CKPT (R140). -/
def execCkpt (tag : BitVec 32) (s : State) : Out := (s.emit (.ckpt s.cur tag)).done { s.self with ckpt := tag }

/-- ECALL (R142): the request goes to firmware once every earlier result has landed, with a as it was read at issue (R97; log 26), and
the context waits for its answer. -/
def execEcall (rd ra : Reg) (svc : BitVec 16) (s : State) : Out :=
  let x := s.self
  let h := s.holdWith (s.reg ra) 0
  if h.stage = 2 then s.result rd h.val 1
  else if h.stage = 1 then s.holdOn x h .other
  else if x.drained then (s.emit (.ecall s.cur svc h.val)).holdOn x { h with stage := 1 } .other
  else s.holdOn x h .other

/-- ECALL_ANSWER (R142): firmware accepts and answers a request that waits. -/
def execEcallAnswer (ctx : Nat) (v : Word) (s : State) : Out :=
  let x := s.ctx ctx
  match x.instr?, x.hold with
  | some (.ecall _ _ _), some h => if h.stage = 1 then .next (s.setCtx ctx { x with hold := some { h with stage := 2, val := v } })
    else .next s
  | _, _ => .next s

/-! ### Dictionary and text (R69, R70, R139, R141) -/

/-- The last of the context cycles that DICTLD and FLUSHI occupy at least (R69, R141). -/
def longHold (x : Ctx) (h : Hold) : Bool := decide (11 ≤ x.cyc - h.since)

/-- The checks of R139: alignment, and R114 for all 4,096 bytes. Extents are whole granules (R277), so the bytes lie in the extents
of the first and of the last one. -/
def State.dictFault (s : State) (a : Nat) : Option Nat :=
  if a % 64 ≠ 0 then some 0x0A
  else if 2 ^ 56 < a + 4096 ∨ (s.self.extentOf a).isNone = true ∨ (s.self.extentOf (a + 4095)).isNone = true then some 0x09
  else none

/-- The lines of the issuing context's text are read again (R41, R322, R428). -/
def State.touchText (s : State) : State := s.touchVirt s.self (some (dieOf s.pan)) s.self.textBase (64 * s.self.textLines)

/-- Puts the dictionary at `a` in force and expands the text under it, or takes the fault of its read (R69, R70). The text is the one
that the context has read: stores made to it since take effect at a FLUSHI alone (R41). -/
def State.putDict (s : State) (a : Nat) : Out :=
  let s := s.touchVirt s.self (some (dieOf s.pan)) a 4096
  match s.readVirt s.self (dieOf s.pan) a 4096 with
  | .bytes bs =>
    let x := { s.self with dict := dictEntries 256 bs, dictAt := BitVec.ofNat 64 a, dgen := s.self.dgen + 1 }
    s.done x.expand
  | .range _ => s.trap 0x09 a
  | .corrupt _ => s.trap 0x12 a

/-- A wait of 12 context cycles at least, and of the read's latency, that begins once every earlier result has landed. -/
def State.startLong (s : State) (v : Word) : Out :=
  let x := s.self
  let h := s.holdWith v 0
  if h.stage = 0 ∧ x.drained then
    s.takeLatency.holdOn x { h with stage := 1, upto := s.cycle + s.nextLatency } .other
  else s.holdOn x h .other

/-- Whether the wait is over and the read of the `n` bytes at `a` may be made. -/
def State.longOver (s : State) (a n : Nat) : Bool :=
  match s.self.hold with
  | some h => h.stage == 1 && longHold s.self h && decide (h.upto ≤ s.cycle) && s.readFree false
      && s.linesFree a n
  | none => false

/-- DICTLD (R69, R139). -/
def execDictld (ra : Reg) (off : Word) (s : State) : Out :=
  let v := (s.holdWith (s.reg ra) 0).val
  let a := (v + off).toNat
  match s.dictFault a with
  | some k => s.trap k a
  | none => if s.longOver a 4096 then s.putDict a else s.startLong v

/-- DICTLD_COMPLETE (R69, R70): in a context cycle of a context that DICTLD holds, its read finishes. -/
def execDictldComplete (ctx : Nat) (s : State) : Out :=
  match (s.ctx ctx).instr? with
  | some (.dictld ra off) =>
    let t := s.takeTurn ctx
    let a := ((t.holdWith (t.reg ra) 0).val + off).toNat
    if s.heldNow ctx && t.longOver a 4096 then t.putDict a else .next s
  | _ => .next s

/-- The whole text is expanded again from memory (R141). -/
def State.reexpand (s : State) : Out :=
  let s := s.touchText
  s.done (s.expandAll s.self (dieOf s.pan)).1

/-- FLUSHI (R41, R141). A line of text that cannot be read expands as fill words, without a fault (DESIGN CHOICE, log 53). -/
def execFlushi (s : State) : Out := if s.longOver s.self.textBase (64 * s.self.textLines) then s.reexpand else s.startLong 0

/-- FLUSHI_COMPLETE (R141). -/
def execFlushiComplete (ctx : Nat) (s : State) : Out :=
  match (s.ctx ctx).instr? with
  | some .flushi =>
    let t := s.takeTurn ctx
    if s.heldNow ctx && t.longOver t.self.textBase (64 * t.self.textLines) then t.reexpand else .next s
  | _ => .next s

/-! ### Tide (R438, R442, R444) -/

def execTider (rd : Reg) (s : State) : Out := s.result rd (s.tau s.cur) 1
def execTiderRaw (rd : Reg) (s : State) : Out := s.result rd (s.tide s.pan) 1

/-- TIDEW (R444): a mark that has passed is reported at once; otherwise the context waits until its domain has stalled at the
mark and been released. -/
def execTidew (rd : Reg) (m : Word) (s : State) : Out :=
  let x := s.self
  let t := s.tau s.cur
  if x.hold.isSome then
    if x.markDone then
      s.done ({ x with mark := none, markDone := false, markStall := 0 }.write rd (BitVec.ofNat 64 x.markStall) 1)
    else s.holdOn x s.holdNow .wait
  else if m.ule t then s.result rd (BitVec.ofNat 64 (2 ^ 63) ||| (t - m)) 1
  else s.holdOn { x with mark := some m, markDone := false, markStall := 0 } s.holdNow .wait

/-! ### Occupancy (R293, R296) -/

/-- Adds a number to a 64-bit word of memory, one atomic addition (R296); one on another device leaves as a request. -/
def State.addWord (s : State) (x : Ctx) (die a : Nat) (v : Word) : State :=
  match x.extentOf a with
  | none => s
  | some e =>
    let l := e.locOf a
    if l.dev = s.ownDev.toNat then
      let p := l.owner.pa
      let s := ((s.settleAt l 8).countWrite die l 8).scrubFor p 8
      match s.poisoned p 8 with
      | some q => s.logPoison q (cidOf (BitVec.ofNat 8 x.pid))
      | none => s.writeLoc x.pid l (natLe 8 (s.readNat p 8 + v.toNat))
    else s.forward die l.dev x.tenant (requestBytes (.amo 0 false false false x.task) l.owner.pa 8 (natLe 8 v.toNat))

/-- The pan region index of a context (R277). -/
def Ctx.regionIdx (x : Ctx) : Nat := x.ridxPan.toNat + 16 * x.ridxField.toNat + 96 * x.ridxDie.toNat

/-- Adds the occupancy counters of a context to its entry and clears them (R293, R296). -/
def State.flushOcc (s : State) (c : Nat) : State :=
  let x := s.ctx c
  if x.occ = 0 then s
  else
    let a := x.occ.toNat + 32 * (x.regionIdx * x.phases + min x.phase.toNat (x.phases - 1))
    let d := dieOf (panOf c)
    let s := (((s.addWord x d a x.occIssue).addWord x d (a + 8) x.occWait).addWord x d (a + 16) x.occOther).addWord x d (a + 24) x.occRows
    s.setCtx c { x with occIssue := 0, occWait := 0, occOther := 0, occRows := 0 }

/-- PHASE (R293): the context cycle of PHASE itself counts in the phase it begins. -/
def execPhase (n : BitVec 8) (s : State) : Out :=
  let s := s.flushOcc s.cur
  s.done { s.self with phase := n }

end Sys2Proof.Machine
end

