-- ==== Sys2Proof/Machine/Blocks.lean ====
section
/-! DEFINITION. The configuration group (R207 to R233): opening, writing and closing a body, stamping, starting, draining and
releasing a block, and the tables and lanes that the sequencer moves. -/

namespace Sys2Proof.Machine

/-! ### Placement (R66) -/

/-- A word that stands where its group does not belong: TPC holds its address, in an open body too: R66 says so of
this fault, and R209 of the others that they resume at the BLK (DEDUCED, log 23). -/
def State.placeFault (s : State) (tval : Nat) : State := s.enterTrap s.cur 0x04 tval s.self.pc.toNat

/-- Words that belong in a body. -/
def inBody : Instr → Bool
  | .fuse .. => true | .fuseLive .. => true | .route .. => true | .bind .. => true | .nest .. => true
  | .bodyRowWord _ => true | .bend .. => true | _ => false

/-- Whether an instruction stands where it does not belong. -/
def State.misplaced (s : State) (i : Instr) : Bool := inBody i != s.self.body.isSome

/-! ### A body (R207, R209, R211 to R223) -/

/-- The defect of reason 0x0C that BEND reports: the one of the lowest element, the earliest of them (R166, R224). -/
def OpenBody.note (o : OpenBody) (tval : Nat) : OpenBody :=
  match o.defect with
  | none => { o with defect := some tval }
  | some d => if tval / 256 % 256 < d / 256 % 256 then { o with defect := some tval } else o

/-- The elements of a cross product, in raster order. -/
def crossElems (cols rows : BitVec 16) : List Nat :=
  allElems.filter fun e => cols.getLsbD (elemX e) && rows.getLsbD (elemY e)

/-- Changes the configuration of elements of a block. -/
def Block.write (b : Block) (es : List Nat) (f : ElemCfg → ElemCfg) : Block :=
  { b with elems := es.foldl (fun l e => Kv.set {} l e (f (Kv.get {} l e))) b.elems }

/-- A body word: what it makes of the body and of the shadow block. Outside a body it is misplaced. -/
def State.bodyWord (s : State) (i : Instr) (f : OpenBody → Block → OpenBody × Block) : Out :=
  match s.self.body with
  | none => .next (s.placeFault (instrTval i))
  | some o =>
    let (o, b) := f o (s.shadowBlk s.pan o.mask)
    let s := s.setShadow s.pan o.mask b
    s.done { s.self with body := some o }

/-- The same for a word that repeats the mask and identifier of its BLK (R207). -/
def State.cfgWord (s : State) (i : Instr) (m : BitVec 8) (id : BitVec 12) (f : OpenBody → Block → OpenBody × Block) : Out :=
  s.bodyWord i fun o b => f (if m = o.mask ∧ id = o.id then o else o.note (refusal0 0x0C)) b

def execFuse (m : BitVec 8) (id : BitVec 12) (cols rows : BitVec 16) (fcw : BitVec 32) (s : State) : Out :=
  s.cfgWord (.fuse m id cols rows fcw) m id fun o b => (o, b.write (crossElems cols rows) fun c => { c with fcw := fcw })

/-- The liveness word (R215): it writes into the elements of the last row word before it. One whose row index lies outside the block's rows
belongs to no row that issues, and is no reason to refuse the block (DESIGN CHOICE, log 77). -/
def execFuseLive (m : BitVec 8) (id : BitVec 12) (em : BitVec 32) (tm : BitVec 8) (idx : BitVec 5) (s : State) : Out :=
  s.cfgWord (.fuseLive m id em tm idx) m id fun o b =>
    match o.last with
    | none => (o.note (refusal0 0x0C), b)
    | some (cols, rows) =>
      (o, b.write (crossElems cols rows) fun c =>
        { c with rows := Kv.set {} c.rows idx.toNat { c.row idx.toNat with elive := em, tlive := tm } })

/-- ROUTE (R216). -/
def routeWrite (part : RoutePart) (v : BitVec 32) (c : ElemCfg) : ElemCfg :=
  match part with
  | .lo => { c with route := c.route.extractLsb' 32 32 ++ v }
  | .hi => { c with route := v ++ c.route.extractLsb' 0 32 }
  | .dly => { c with dly := v.setWidth 16 }
def execRoute (part : RoutePart) (m : BitVec 8) (id : BitVec 12) (cols rows : BitVec 16) (v : BitVec 32) (s : State) : Out :=
  s.cfgWord (.route part m id cols rows v) m id fun o b => (o, b.write (crossElems cols rows) (routeWrite part v))

/-- BIND (R213, R220): the entry holds the payload without its index field, with bit 0 set; MOD 0 and 1 set the expected
counter to CTR, MOD 3 sets it alone. -/
def bindWrite (spec : BindSpec) (o : OpenBody) (b : Block) : OpenBody × Block :=
  let p := (bindPayload spec).toNat
  match spec with
  | .node k j _ _ _ ctr _ _ =>
    let n := 8 * k.toNat + j.toNat
    (o, { b with nodeB := Kv.set 0 b.nodeB n (p / 128 * 128 + 1), nodeX := Kv.set 0 b.nodeX n ctr.toNat })
  | .conc c _ _ _ ctr _ _ =>
    (o, { b with concB := Kv.set 0 b.concB c.toNat (p / 16 * 16 + 1), concX := Kv.set 0 b.concX c.toNat ctr.toNat })
  | .stream q _ _ _ _ _ => (o, { b with strB := Kv.set 0 b.strB q.toNat (p / 16 * 16 + 1) })
  | .expectNode k j ctr =>
    let n := 8 * k.toNat + j.toNat
    ({ o with named := o.named ++ [n] }, { b with nodeX := Kv.set 0 b.nodeX n ctr.toNat })
  | .expectConc c ctr =>
    ({ o with named := o.named ++ [128 + c.toNat] }, { b with concX := Kv.set 0 b.concX c.toNat ctr.toNat })
def execBind (m : BitVec 8) (id : BitVec 12) (spec : BindSpec) (s : State) : Out :=
  s.cfgWord (.bind m id spec) m id (bindWrite spec)

/-- NEST (R222): a row index outside f … f + II − 1 is ignored. -/
def nestWrite (n : NestSpec) (b : Block) : Block :=
  match n with
  | .counts w => { b with nest := w }
  | .stage rows sg =>
    { b with stages := (b.indices.filter fun j => rows.getLsbD j).foldl (fun t j => Kv.set 0 t j sg.toNat) b.stages }
def execNest (m : BitVec 8) (id : BitVec 12) (n : NestSpec) (s : State) : Out :=
  s.cfgWord (.nest m id n) m id fun o b => (o, nestWrite n b)

/-- A row word in a body (R223): it replaces the entry and leaves the liveness masks. -/
def rowWrite (w : RowWord) (o : OpenBody) (b : Block) : OpenBody × Block :=
  let j := w.idx.toNat
  let es := crossElems w.cols w.rows
  let o := { o with last := some (w.cols, w.rows) }
  if b.f.toNat ≤ j ∧ j < b.f.toNat + b.ii.toNat then
    (o, b.write es fun c => { c with rows := Kv.set {} c.rows j { c.row j with ent := w.ent } })
  else (o.note (refusal 0x0C (es.headD 0) j 0x3F 0), b)
def execBodyRowWord (w : RowWord) (s : State) : Out := s.bodyWord (.bodyRowWord w) (rowWrite w)

/-! ### Stamped copies and loaded blocks (R173, R174, R211) -/

/-- Loaded copies of a context's block on other pans return to their active parts (R169, R211). -/
def State.dropCopies (s : State) (c : Nat) (mask : BitVec 8) : State :=
  (Kv.keysWhere (fun k b => b.live && b.owner == c && b.copy != 0 && keyMask k == mask) s.shadow).foldl
    (fun s k => s.dropShadow (keyPan k) mask) s

/-- The kernel cycle of a key whose rows have all issued: the current one only once its rows are done (R171). -/
def State.issuedK (s : State) (key : Nat) : Nat :=
  if s.counted key then Kv.get 0 s.kcnt key - 1 else Kv.get 0 s.kcnt key
/-- Whether a running block has issued its last row (R222), as a context sees it before the rows of the current cycle. -/
def State.finished (s : State) (key : Nat) : Bool :=
  let r := Kv.get {} s.runs key
  !r.live || decide (r.start + (Kv.get {} s.active key).length ≤ s.issuedK key + 1)

/-- Whether a block that another context has stamped onto this pan's slots still has rows to issue (R174). -/
def State.stampBusy (s : State) (mask : BitVec 8) : Bool :=
  (s.runs.any fun e => e.1 / 256 == s.pan && e.2.live && e.2.ctx != s.cur && e.2.copy != 0 && keyMask e.1 &&& mask != 0 && !s.finished e.1)
    || s.shadow.any fun e => e.1 / 256 == s.pan && e.2.live && e.2.owner != s.cur && e.2.copy != 0 && keyMask e.1 &&& mask != 0

/-- The active block's own parts of each element: rows outside f … f + II − 1 are not among them, so in a wider body they are RNOP
until a word writes them (R157, R159, R167). -/
def Block.owned (b : Block) : Block :=
  { b with elems := b.elems.filterMap fun e => if b.trim e.2 = {} then none else some (e.1, b.trim e.2) }

/-- BLK (R211, R212): the shadow parts become a copy of the active ones, or the cleared image. -/
def execBlk (clr : Bool) (m : BitVec 8) (id : BitVec 12) (ewin : BitVec 32) (twin : BitVec 8) (ii : BitVec 6) (f : BitVec 5)
    (s : State) : Out :=
  let x := s.self
  if x.body.isSome then .next (s.placeFault (instrTval (.blk clr m id ewin twin ii f)))
  else if s.stampBusy m then s.trap 0x05 (refusal0 0x04)
  else
    let a := s.activeBlk s.pan m
    let b0 : Block := if clr || !a.live then {} else a.owned
    let b := { b0 with live := false, id := id, clr := clr, ewin := ewin, twin := twin, ii := ii, f := f, stampN := 0,
                       stampBase := 0, stampStep := 0, stampOstep := 0, owner := s.cur, copy := 0, blkPc := x.pc }
    let s := (s.dropCopies s.cur m).setShadow s.pan m b
    s.done { s.self with body := some { mask := m, id := id, pc := x.pc, defect := none, last := none, named := [] } }

/-- Whether a hold of `n` context cycles still has cycles to come after this one. -/
def State.holding (s : State) (n : Nat) : Bool := decide (s.self.cyc - s.holdNow.since + 1 < n)

/-- BEND (R168, R169, R224): six context cycles, then the checksum, then the checks. -/
def execBend (m : BitVec 8) (id : BitVec 12) (crc : BitVec 32) (s : State) : Out :=
  match s.self.body with
  | none => .next (s.placeFault (instrTval (.bend m id crc)))
  | some o =>
    if s.holding 6 then s.holdOn s.self s.holdNow .other
    else
      let o := if m = o.mask ∧ id = o.id then o else o.note (refusal0 0x0C)
      let b := s.shadowBlk s.pan o.mask
      let sum := b.checksum o.mask
      if sum ≠ crc.toNat then s.trap 0x06 sum
      else match s.bendCheck s.cur s.pan o.mask b 0 o.named o.defect with
        | some tval => s.trap 0x05 tval
        | none => (s.setShadow s.pan o.mask { b with live := true }).done { s.self with body := none }

/-- The loaded block that a word names by mask and identifier. -/
def State.loaded (s : State) (m : BitVec 8) (id : BitVec 12) : Option Block :=
  let b := s.shadowBlk s.pan m
  if b.live && b.id == id then some b else none

/-- The pan of an instance at a pan region index (R277), if its region has one there. -/
def Ctx.panAt (x : Ctx) (r : Nat) : Option Nat :=
  if r % 16 < x.pans ∧ r / 16 % 6 < x.fields ∧ r / 96 < x.dies then x.map[r % 16 + x.pans * (r / 16 % 6 + x.fields * (r / 96))]?
  else none
/-- The pan of a stamped copy: the one whose pan region index is that many above this one's (R173). -/
def State.copyPan (s : State) (c k : Nat) : Option Nat :=
  let x := s.ctx c
  if k = 0 then some (panOf c) else x.panAt (x.regionIdx + k)

/-- Whether a pan can take a stamped copy (R173). -/
def State.stampable (s : State) (c pan : Nat) (m : BitVec 8) : Bool :=
  let x := s.ctx c
  let mine := (List.range Config.contextsPerPan).map fun k => s.ctx (8 * pan + k)
  (mine.any fun y => y.run != .free && y.task == x.task && m &&& ~~~y.slots == 0)
    && mine.all fun y => match y.body with | some o => o.mask &&& m == 0 | none => true

/-- What check `i` of the order of R165, R224, R248 and R402 finds for copy `k`: order 9 asks for the target itself, and checks of a
target that does not exist find nothing. -/
def State.copyCheck (s : State) (c : Nat) (m : BitVec 8) (b : Block) (k i : Nat) : Option Nat :=
  match s.copyPan c k with
  | none => if i = stampOrder then some (refusal 0x0A 0 0 0x3F k) else none
  | some pan =>
    if i = stampOrder then (if s.stampable c pan m then none else some (refusal 0x0A 0 0 0x3F k)) else s.checkAt c pan m b k [] none i

/-- The first refusal of the copies of a block, by the order of the checks and then by copy: TVAL. -/
def State.stampCheck (s : State) (c : Nat) (m : BitVec 8) (b : Block) (n : Nat) : Option Nat :=
  (List.range checkCount).findSome? fun i => (List.range (n - 1)).findSome? fun k => s.copyCheck c m b (k + 1) i

/-- BSTAMP (R173, R174, R225); it holds for the longest time that R174 gives (log 24). -/
def execBstamp (m : BitVec 8) (id : BitVec 12) (n : BitVec 6) (base step ostep : BitVec 16) (s : State) : Out :=
  match s.loaded m id with
  | none => s.trap 0x05 (refusal0 0x0B)
  | some b =>
    if s.holding (128 + 2 * (n.toNat - 1)) then s.holdOn s.self s.holdNow .other
    else
      let b := { b with stampN := n.toNat, stampBase := base, stampStep := step, stampOstep := ostep }
      let s := s.dropCopies s.cur m
      match s.stampCheck s.cur m b n.toNat with
      | some tval =>
        let s := s.dropShadow s.pan m
        .next (s.enterTrap s.cur 0x05 tval b.blkPc.toNat)
      | none =>
        let put := fun (t : State) (k : Nat) =>
          match s.copyPan s.cur k with
          | some pan => t.setShadow pan m { b with copy := k }
          | none => t
        ((List.range n.toNat).foldl put s).done s.self

/-! ### The flip (R171, R221, R226, R230, R483) -/

/-- The initial control entry of a node or concentrator binding: geometry, pointers and counters from the record; full bits
and tags stay, unless CLR clears the full ones; every CHK bit clears (R221). -/
def BindCtl.init (c : BindCtl) (base size depth dir ctr expected : Nat) (clr : Bool) : BindCtl :=
  let slots := c.slots.filterMap fun e =>
    let v := { e.2 with chk := false, full := if clr && decide (e.1 < depth) then false else e.2.full }
    if v = {} then none else some (e.1, v)
  { base := base, size := size, depth := depth, dir := BitVec.ofNat 2 dir, rp := 0, wp := 0, pctr := BitVec.ofNat 16 ctr,
    xctr := BitVec.ofNat 16 expected, slots := slots, units := 0, rankPos := 0, wpos := 0, rpos := 0,
    pktW := BitVec.ofNat 16 ctr, pktX := BitVec.ofNat 16 expected }

/-- Node bindings at a flip: each entry that differs from the old record's is initialised (R221). -/
def State.flipNodes (s : State) (pan : Nat) (old new : Block) : State :=
  new.nodeB.foldl (fun s e =>
    let x := Kv.get 0 new.nodeX e.1
    if Kv.get 0 old.nodeB e.1 = e.2 ∧ Kv.get 0 old.nodeX e.1 = x then s
    else
      let key := 128 * pan + e.1
      s.setNodeEntry key ((s.nodeEntry key).init (nodeBase0 e.2) (nodeSize0 e.2) (nodeDepth e.2) (nodeDir e.2)
        (bitsN e.2 44 16) x (e.2.testBit 62))) s

/-- Whether another active block of a field binds a concentrator entry (R221, R304). -/
def State.concHeld (s : State) (field key c : Nat) : Bool :=
  s.active.any fun e => e.1 / 4096 == field && e.1 != key && e.2.live && Kv.get 0 e.2.concB c != 0

/-- Concentrator bindings at a flip: one that another block of the field already binds runs on (R221). -/
def State.flipConcs (s : State) (key : Nat) (old new : Block) : State :=
  let field := key / 4096
  new.concB.foldl (fun s e =>
    let x := Kv.get 0 new.concX e.1
    if (Kv.get 0 old.concB e.1 = e.2 ∧ Kv.get 0 old.concX e.1 = x) ∨ s.concHeld field key e.1 = true then s
    else
      let k := 16 * field + e.1
      s.setConcEntry k ((s.concEntry k).init (concBase0 e.2) (concSize0 e.2) (concDepth e.2) (concDir e.2)
        (bitsN e.2 45 16) x (e.2.testBit 63))) s

/-- The stream of an entry of a block on a pan. -/
def State.entryStream (s : State) (pan q p : Nat) : Nat := streamAt (s.owner (fieldOf pan)) (dieOf pan) q (strSide p)
/-- Streams of a block that ends: those that the next one does not declare alike close. -/
def State.closeStreams (s : State) (pan : Nat) (old new : Block) : State :=
  old.strB.foldl (fun s e =>
    if Kv.get 0 new.strB e.1 = e.2 then s else s.closeEnd (s.entryStream pan e.1 e.2) (strRecv e.2)) s
/-- Streams at a flip (R450, R483). -/
def State.flipStreams (s : State) (key : Nat) (old new : Block) : State :=
  let pan := keyPan key
  new.strB.foldl (fun s e =>
    if Kv.get 0 old.strB e.1 = e.2 then s else s.openEnd (s.entryStream pan e.1 e.2) key e.2) (s.closeStreams pan old new)

/-- Tables that were loaded since the pan's last flip become active (R230). -/
def State.flipTables (s : State) (pan : Nat) : State :=
  let x := Kv.get {} s.tables pan
  let x := { x with gA := if x.gNew then x.gS else x.gA, vA := if x.vNew then x.vS else x.vA,
                    i16A := if x.vNew then x.i16S else x.i16A, gNew := false, vNew := false }
  { s with tables := Kv.set {} s.tables pan x }

/-- The block-quantise units that a block names start anew (R265). -/
def State.resetBq (s : State) (pan : Nat) (b : Block) : State :=
  ((b.elemsWith isBq).map elemY).foldl (fun s y => { s with bq := Kv.set {} s.bq (16 * pan + y) {} }) s

/-- One pan flips (R171, R226): copy `k` of the loaded block becomes active. -/
def State.flipPan (s : State) (pan : Nat) (m : BitVec 8) (home k : Nat) (off : Nat) (c : Nat) : State :=
  let key := blkKey pan m
  let old := s.activeBlk pan m
  let old := if old.live then old else {}
  let new := s.shadowBlk pan m
  let s := (((s.flipNodes pan old new).flipConcs key old new).flipStreams key old new).flipTables pan
  let s := (s.resetBq pan old).resetBq pan new
  let s := (s.setActive pan m new).setShadow pan m { old with live := false }
  let iter := new.stampBase.signExtend 32 + BitVec.ofNat 32 k * new.stampStep.signExtend 32
  s.setRun pan m { live := true, ctx := c, home := home, copy := k, iter := iter,
                   start := s.kc pan m + 3 + off + k * new.stampOstep.toNat, stopped := false, flip := s.cycle }

/-- The pans on which a block that runs on a pan under a mask has its copies, itself first. -/
def State.copies (s : State) (pan : Nat) (m : BitVec 8) : List Nat :=
  let r := s.runOf pan m
  if r.live && r.home == pan then
    pan :: ((Kv.keysWhere (fun k q => q.live && q.home == pan && q.ctx == r.ctx && keyMask k == m && k / 256 != pan) s.runs).map keyPan)
  else [pan]

/-- The active block of a mask on a pan ends: its bindings and streams end with it, its slots, windows and units are free. -/
def State.endBlock (m : BitVec 8) (s : State) (pan : Nat) : State :=
  let b := s.activeBlk pan m
  let s := (s.closeStreams pan b {}).resetBq pan b
  let s := s.setActive pan m {}
  let keep := s.shadowBlk pan m
  let s := if keep.live then s else s.setShadow pan m {}
  s.setRun pan m {}

/-- The kernel cycle in which the brick spans of a running block end (R255): 0 when it has no tile step. -/
def Block.spanEnd (b : Block) (start : Nat) : Nat :=
  allElems.foldl (fun m e => b.indices.foldl (fun m j =>
    if isTile (b.rowAt e j) then
      max m (start + (b.stage j + b.total - 1) * b.ii.toNat + (j - b.f.toNat) + b.tileDist e j + b.tileSpan e j)
    else m) m) 0

/-- Whether BGO's hold on a pan is over (R171, R255). -/
def State.flipReady (s : State) (m : BitVec 8) (pan : Nat) : Bool :=
  let key := blkKey pan m
  let r := Kv.get {} s.runs key
  !r.live || (s.finished key && decide ((Kv.get {} s.active key).spanEnd r.start ≤ s.issuedK key))

/-- The pans of the copies of a loaded block. -/
def State.stampPans (s : State) (b : Block) : List (Nat × Nat) :=
  (List.range (max 1 b.stampN)).filterMap fun k => (s.copyPan s.cur k).map fun p => (p, k)

/-- BGO (R171, R226). Copies of the block it replaces that the new one's stamp does not cover end with it, their bindings included (DESIGN
CHOICE, log 73). -/
def execBgo (m : BitVec 8) (id : BitVec 12) (off : BitVec 24) (s : State) : Out :=
  match s.loaded m id with
  | none => s.trap 0x05 (refusal0 0x0B)
  | some b =>
    let new := s.stampPans b
    let old := s.copies s.pan m
    if (old ++ new.map (·.1)).all (s.flipReady m) then
      let gone := old.filter fun p => !(new.map (·.1)).contains p
      let t := gone.foldl (State.endBlock m) s
      (new.foldl (fun t p => t.flipPan p.1 m s.pan p.2 off.toNat s.cur) t).done s.self
    else s.holdOn s.self s.holdNow .other

/-! ### Drain and release (R170, R228) -/

/-- Results of the resident block of a mask that have not landed on a pan: element results, sends, contributions, tile steps and,
for BDRAIN, the owed writes of its units and NST rows. Results of a block that it has replaced do not count (R170, R172). -/
def State.pendingResults (s : State) (m : BitVec 8) (pan : Nat) : Bool :=
  let b := (s.runOf pan m).start
  (s.elems.any fun e => e.1 / 256 == pan && ((e.2.flight.any fun f => f.mask == m && f.blk == b)
      || (e.2.contrib.any fun c => c.mask == m && c.blk == b) || e.2.ye.any fun y => y.mask == m && y.blk == b))
    || s.tiles.any fun t => t.pan == pan && t.mask == m
def State.pendingWrites (s : State) (m : BitVec 8) (pan : Nat) : Bool :=
  s.writes.any fun w => w.pan == pan && w.mask == m && w.unit != 3 && w.blk == (s.runOf pan m).start && !s.unitDue w

/-- Whether a row leaves something to land after its issue. -/
def leavesResult : Instr → Bool
  | .nst .. => true | .rank .. => true | .bq .. => true | .tstep .. => true | .spmx .. => true
  | i => !(rowWrites i).isEmpty
/-- Whether the block of a key issues its last row in this very cycle, and no element's row leaves anything to land: BDRAIN
then completes in it (R170). -/
def State.lastQuiet (s : State) (key : Nat) : Bool :=
  let r := Kv.get {} s.runs key
  let b := Kv.get {} s.active key
  let j := b.f.toNat + b.ii.toNat - 1
  s.counted key && decide (r.start + b.length = Kv.get 0 s.kcnt key + 1)
    && (decide (b.stage j < b.lastStage) || allElems.all fun e => !leavesResult (b.rowAt e j))

/-- BDRAIN (R170). -/
def execBdrain (m : BitVec 8) (s : State) : Out :=
  let done := fun pan => !(s.runOf pan m).live
    || ((s.finished (blkKey pan m) || s.lastQuiet (blkKey pan m)) && !s.pendingResults m pan && !s.pendingWrites m pan)
  if (s.copies s.pan m).all done then s.done s.self else s.holdOn s.self s.holdNow .other

/-- The row index that a block issues in this kernel cycle, if the cycle is one of its kernel cycles and the row takes effect (R157,
R222). -/
def State.rowDue (s : State) (key : Nat) : Option Nat :=
  let r := Kv.get {} s.runs key
  let b := Kv.get {} s.active key
  let k := Kv.get 0 s.kcnt key
  if s.counted key && decide (r.start ≤ k) then (b.issues (k - r.start)).map (·.1) else none

/-- Whether a row that issues in this very cycle writes a lane of an element: its in-flight bit is 1 from now on (R158, R254). -/
def State.laneIssues (s : State) (pan e : Nat) (t : BitVec 3) : Bool :=
  s.runs.any fun r => r.1 / 256 == pan && (match s.rowDue r.1 with
    | some j => (writeRegs ((Kv.get {} s.active r.1).rowAt e j)).any fun w => w.1 == 32 + t.toNat
    | none => false)

/-- The tile registers of a mask. -/
def laneList (t : BitVec 8) : List (BitVec 3) := ((List.range 8).filter fun k => t.getLsbD k).map (BitVec.ofNat 3)
/-- Whether a lane of a pan under these tile registers is in flight. -/
def State.lanesBusy (s : State) (pan : Nat) (t : BitVec 8) : Bool :=
  (s.elems.any fun e => e.1 / 256 == pan && (laneList t).any fun k => s.laneBusy pan (e.1 % 256) k)
    || (s.active.any fun b => b.1 / 256 == pan && b.2.live && b.2.elems.any fun e => (laneList t).any fun k => s.laneIssues pan e.1 k)
    || s.tiles.any fun r => r.pan == pan && (laneList t).any fun k => tileLane (rowOf r.ent) == some k

/-- The dirty tile registers of an element, within a window. -/
def Elem.dirtyMask (x : Elem) (t : BitVec 8) : Nat :=
  (laneList t).foldl (fun m k => if (x.lane k).dirty then m + 2 ^ k.toNat else m) 0
/-- TVAL of the tile-dirty fault of a block on its pans, the lowest copy and then the lowest element first (R228). -/
def State.dirtyFault (s : State) (m : BitVec 8) (pans : List Nat) : Option Nat :=
  let find := fun (pan : Nat) => allElems.findSome? fun e =>
    let d := (s.elem pan e).dirtyMask (s.activeBlk pan m).twin
    if d = 0 then none else some (d + 2 ^ 8 * elemX e + 2 ^ 12 * elemY e + 2 ^ 16 * (s.runOf pan m).copy, (s.runOf pan m).copy)
  let all := pans.filterMap find
  match all.map (·.2) |>.min? with
  | none => none
  | some k => (all.find? fun p => p.2 == k).map (·.1)

/-- Clears lanes of every element of a pan (R228, R233). -/
def State.discardLanes (s : State) (t : BitVec 8) (pan : Nat) : State :=
  s.mapElems pan fun x => (laneList t).foldl (fun x k => x.setLane k (x.lane k).discard) x

/-- BREL (R228). -/
def execBrel (m : BitVec 8) (s : State) : Out :=
  if !(s.activeBlk s.pan m).live then s.done s.self
  else
    let pans := s.copies s.pan m
    let ready := fun pan => s.finished (blkKey pan m) && !s.pendingResults m pan && !s.lanesBusy pan (s.activeBlk pan m).twin
    if pans.all ready then
      match s.dirtyFault m pans with
      | some tval => s.trap 0x0C tval
      | none => (pans.foldl (fun t p => (t.discardLanes (t.activeBlk p m).twin p).endBlock m p) s).done s.self
    else s.holdOn s.self s.holdNow .other

/-! ### Tables (R230) -/

/-- The checks of GTAB and VTAB: alignment, then range, then corrupt bytes at the read. -/
def State.tableFault (s : State) (a n align : Nat) : Option Nat :=
  if a % align ≠ 0 then some 0x0A else if Config.nodeSize < a + n then some 0x09
  else if (s.ownView.poisoned (nodeBase s.pan + a) n).isSome then some 0x12 else none

/-- A table load: the checks, the hold, then the shadow. The node's bytes are those of the last cycle of the hold (DESIGN CHOICE, log 78). -/
def State.loadTable (s : State) (a n align hold : Nat) (f : Tables → Nat → Tables) : Out :=
  match s.tableFault a n align with
  | some k => (if k = 0x12 then s.notePoison (nodeBase s.pan + a) n s.ownView else s).trap k a
  | none =>
    if s.holding hold then s.holdOn s.self s.holdNow .other
    else
      let v := s.ownView.readNat (nodeBase s.pan + a) n
      ({ s with tables := Kv.set {} s.tables s.pan (f (Kv.get {} s.tables s.pan) v) }).done s.self

def execGtab (addr : BitVec 20) (s : State) : Out :=
  s.loadTable addr.toNat 64 64 5 fun x v => { x with gS := v, gNew := true }
def execVtab (i16 : Bool) (addr : BitVec 20) (s : State) : Out :=
  if i16 then s.loadTable addr.toNat 130 2 7 fun x v => { x with vS := v, vNew := true, i16S := true }
  else s.loadTable addr.toNat 260 4 9 fun x v => { x with vS := v, vNew := true, i16S := false }

/-! ### TRD and TDISC (R231 to R233) -/

/-- A TRD descriptor (R231). -/
structure TrdDesc where
  m : Int
  bias : Int
  sh : Nat
  rm : Option RM
  fmt : Option MemFmt
  els : List Nat
  dest : Nat
  zero : Bool
  deriving DecidableEq, Repr

/-- The formats that TRD writes. -/
def trdFmt (c : Nat) : Option MemFmt :=
  if (1 ≤ c ∧ c ≤ 6) ∨ (0x10 ≤ c ∧ c ≤ 0x15) ∨ (8 ≤ c ∧ c ≤ 0x0A) then memFmt c else none
def rmNat (c : Nat) : Option RM :=
  match c with | 0 => some .rne | 1 => some .rtz | 2 => some .rup | 3 => some .rdn | 4 => some .rna | _ => none

/-- The 32 bytes of a descriptor, as a number. -/
def trdDesc (v : Nat) : TrdDesc :=
  { m := sextN (bitsN v 0 32) 32, bias := sextN (bitsN v 32 32) 32, sh := bitsN v 64 8, rm := rmNat (bitsN v 72 8),
    fmt := trdFmt (bitsN v 80 8), els := crossElems (BitVec.ofNat 16 (bitsN v 96 16)) (BitVec.ofNat 16 (bitsN v 112 16)),
    dest := bitsN v 128 20, zero := bitsN v 88 8 == 0 && bitsN v 148 12 == 0 && bitsN v 160 96 == 0 }

/-- Whether the descriptor breaks its table (R232). -/
def TrdDesc.bad (d : TrdDesc) : Bool :=
  !d.zero || decide (63 < d.sh) || d.rm.isNone || d.fmt.isNone || d.els.isEmpty
    || (match d.fmt, d.rm with | some (.int _ _), some r => r != .rne && r != .rna | _, _ => false)
def TrdDesc.width (d : TrdDesc) : Nat := match d.fmt with | some f => f.width | none => 8
def TrdDesc.bytes (d : TrdDesc) : Nat := (d.els.length * d.width + 7) / 8

/-- One lane through the dequantisation function (R202, R203). -/
def TrdDesc.value (d : TrdDesc) (mode : BitVec 6) (x : Lane) : Nat :=
  let rm := d.rm.getD .rne
  match d.fmt with
  | some (.int w sgn) => wrapN (requantInt (rm == .rna) x.l.toInt d.m d.bias d.sh w sgn x.nan) w
  | some (.flt f) => requantFlt f mode rm x.l.toInt d.m d.bias d.sh x.re.toInt x.nan
  | _ => 0

/-- The checks of R232 in their order: cause and TVAL. -/
def State.trdFault (s : State) (m : BitVec 8) (k : BitVec 3) (a : Nat) (d : TrdDesc) : Option (Nat × Nat) :=
  let b := s.activeBlk s.pan m
  if a % 32 ≠ 0 then some (0x0A, a)
  else if !b.live || !b.twin.getLsbD k.toNat then some (0x09, k.toNat)
  else if d.bad then some (0x01, a)
  else if (8 ≤ d.width ∧ d.dest % min (d.width / 8) 4 ≠ 0) ∨ Config.nodeSize < d.dest + d.bytes then some (0x09, d.dest)
  else none

/-- TRD (R231, R232): once no selected lane is in flight it reads the lanes and clears their dirty bits; the bytes are written
when its hold ends. -/
def execTrd (m : BitVec 8) (k : BitVec 3) (desc : BitVec 20) (s : State) : Out :=
  let h := s.holdNow
  let d := trdDesc (s.ownView.readNat (nodeBase s.pan + desc.toNat) 32)
  if h.stage = 1 then
    if decide (s.self.cyc < h.upto) then s.holdOn s.self h .other
    else (s.store (nodeBase s.pan + h.val.toNat) h.data).done s.self
  else match s.trdFault m k desc.toNat d with
    | some (cause, tval) => s.trap cause tval
    | none =>
      if d.els.any fun e => s.laneBusy s.pan e k || s.laneIssues s.pan e k then s.holdOn s.self h .other
      else
        let lanes := d.els.map fun e => (s.elem s.pan e).lane k
        let data := natLe d.bytes (packList d.width (lanes.map (d.value s.self.modefp)))
        let was := d.els.filter fun e => ((s.elem s.pan e).lane k).dirty
        let t := was.foldl (fun t e =>
          let x := t.elem t.pan e
          t.setElem t.pan e (x.setLane k { x.lane k with dirty := false })) s
        t.holdOn t.self { h with stage := 1, upto := t.self.cyc + 7 + (d.els.length * d.width + 511) / 512,
                                 val := BitVec.ofNat 64 d.dest, data := data,
                                 lanes := was.map fun e => 8 * elemKey s.pan e + k.toNat } .other

/-- TDISC (R233). -/
def execTdisc (m : BitVec 8) (tm : BitVec 8) (s : State) : Out :=
  let b := s.activeBlk s.pan m
  if !b.live then s.done s.self
  else
    let t := tm &&& b.twin
    let pans := s.copies s.pan m
    if pans.any fun p => s.lanesBusy p t then s.holdOn s.self s.holdNow .other
    else (pans.foldl (fun u p => u.discardLanes t p) s).done s.self

end Sys2Proof.Machine
end

