-- ==== Sys2Proof/Machine/Branch.lean ====
section
/-! DEFINITION. Branches, jumps and the loop stack (R29 to R32, R106 to R109). -/

namespace Sys2Proof.Machine

/-- The target of a displacement: 64-bit arithmetic (R106). -/
def State.target (s : State) (disp : Word) : Nat := (BitVec.setWidth 64 s.self.pc + disp).toNat

/-- Takes a branch to `t` with the context's new registers, when the target passes its checks (R42, R58, R106). -/
def State.jump (s : State) (x : Ctx) (t : Nat) : Out :=
  match s.self.badTarget t with
  | some k => s.trap k t
  | none => s.branchTo x t

/-- A conditional branch: an untaken one falls through without a check (R106). -/
def State.branchIf (s : State) (c : Bool) (disp : Word) : Out :=
  if c then s.jump s.self (s.target disp) else s.done s.self

def execJ (disp : Word) (s : State) : Out := s.jump s.self (s.target disp)
/-- JAL writes its link only when it does not fault (R106). -/
def execJal (rd : Reg) (disp : Word) (s : State) : Out :=
  s.jump (s.self.write rd (BitVec.ofNat 64 s.self.next) 1) (s.target disp)
def execJr (ra : Reg) (disp : Word) (s : State) : Out := s.jump s.self (s.reg ra + disp).toNat
def execBeq (ra rb : Reg) (disp : Word) (s : State) : Out := s.branchIf (s.reg ra == s.reg rb) disp
def execBne (ra rb : Reg) (disp : Word) (s : State) : Out := s.branchIf (s.reg ra != s.reg rb) disp
def execBlt (ra rb : Reg) (disp : Word) (s : State) : Out := s.branchIf ((s.reg ra).slt (s.reg rb)) disp
def execBge (ra rb : Reg) (disp : Word) (s : State) : Out := s.branchIf (!(s.reg ra).slt (s.reg rb)) disp
def execBltu (ra rb : Reg) (disp : Word) (s : State) : Out := s.branchIf ((s.reg ra).ult (s.reg rb)) disp
def execBgeu (ra rb : Reg) (disp : Word) (s : State) : Out := s.branchIf (!(s.reg ra).ult (s.reg rb)) disp

/-- LOOP and LOOPI with count `n` (R108): a count of zero reaches the end as fall-through does, and spends the extra cycle
of a taken branch. -/
def State.enterLoop (s : State) (n : Nat) (disp : Word) : Out :=
  let x := s.self
  let stop := s.target disp
  if 4 ≤ x.ls.length then s.trap 0x0B 4
  else if 0xFFFFFFFF < n then s.trap 0x0B n
  else if stop < x.textBase ∨ x.textEnd ≤ stop then s.trap 0x09 stop
  else if (x.startAtPc stop).isNone ∨ stop ≤ x.next then s.trap 0x03 stop
  else if n = 0 then
    .next (s.setSelf ({ x.goNext stop with hold := none, bubble := true }.endCycle .issue))
  else
    let e : LoopEntry := ⟨BitVec.ofNat 56 x.next, BitVec.ofNat 56 stop, BitVec.ofNat 32 n⟩
    .next (s.setSelf ({ x with ls := e :: x.ls, pc := e.start, hold := none }.endCycle .issue))

def execLoop (ra : Reg) (disp : Word) (s : State) : Out := s.enterLoop (s.reg ra).toNat disp
def execLoopi (n : BitVec 16) (disp : Word) (s : State) : Out := s.enterLoop n.toNat disp
/-- LBRK pops the top entry and goes on by fall-through under the new top (R32). -/
def execLbrk (s : State) : Out := s.done { s.self with ls := s.self.ls.tail }

end Sys2Proof.Machine
end

