-- ==== Sys2Proof/Machine/Shapes.lean ====
section
/-! DEFINITION. Shapes as engines read them (R362 to R364), where the elements of a shape lie, the bytes that an engine reads
and writes (R322, R383, R392, R428), and the engine-side checks (R365, R366). -/

namespace Sys2Proof.Machine

/-! ### Shapes (R125, R362) -/

/-- A shape: each dimension has its count and its stride in bytes, 2^K included. -/
structure Shape where
  rank : Nat
  fmt : Nat
  slot : Nat
  layout : Nat
  base : Nat
  dims : List (Nat × Int)
  deriving DecidableEq, Repr

def shapeOf (v : Nat) : Shape :=
  let k := bitsN v 484 4
  let rank := bitsN v 508 4
  { rank := rank, fmt := bitsN v 502 6, slot := bitsN v 498 4, layout := bitsN v 492 6, base := bitsN v 432 48,
    dims := (List.range (min rank 12)).map fun j => (bitsN v (36 * j) 16 + 1, sextN (bitsN v (36 * j + 16) 20) 20 * 2 ^ k) }

/-- Element width in bits; 8 for a reserved code, which the engine refuses. -/
def Shape.width (sh : Shape) : Nat := match memFmt sh.fmt with | some f => f.width | none => 8
def Shape.count (sh : Shape) : Nat := sh.dims.foldl (fun n d => n * d.1) 1
/-- Bytes of the elements. -/
def Shape.bytes (sh : Shape) : Nat := (sh.count * sh.width + 7) / 8
/-- Count of dimension `j`. -/
def Shape.size (sh : Shape) (j : Nat) : Nat := (sh.dims.map (·.1)).getD j 1

/-- Steps in bits: below 8 bits dimension 0 is packed and STR0 is ignored (R362). -/
def Shape.steps (sh : Shape) : List (Nat × Int) :=
  match sh.dims with
  | [] => []
  | d :: r => (d.1, if sh.width < 8 then (sh.width : Int) else 8 * d.2) :: r.map fun e => (e.1, 8 * e.2)

def stepsAt : List (Nat × Int) → Nat → Int
  | [], _ => 0
  | (n, st) :: r, i => ((i % n : Nat) : Int) * st + stepsAt r (i / n)

/-- The bit offset of element `i` of the enumeration (R362). -/
def Shape.pos (sh : Shape) (i : Nat) : Int := 8 * sh.base + stepsAt sh.steps i

/-- The lowest byte over the corners, and one past the highest. -/
def Shape.low (sh : Shape) : Int :=
  (8 * sh.base + sh.steps.foldl (fun t e => t + min 0 (((e.1 - 1 : Nat) : Int) * e.2)) 0) / 8
def Shape.high (sh : Shape) : Int :=
  (8 * sh.base + sh.steps.foldl (fun t e => t + max 0 (((e.1 - 1 : Nat) : Int) * e.2)) 0 + sh.width + 7) / 8

/-- Whether the shape breaks order 1 of R365 for a source or a destination. -/
def Shape.malformed (sh : Shape) (dst : Bool) : Bool :=
  sh.rank == 0 || decide (12 < sh.rank) || (memFmt sh.fmt).isNone || sh.layout / 4 != 0 || (dst && sh.layout.testBit 1)
    || (decide (sh.width < 8) && sh.size 0 * sh.width % 8 != 0)

/-! ### Sides of a command (R364, R366) -/

/-- One side of a command: its space (0 node, 1 field, 2 reservoir, 3 virtual), the binding it names, its shape, and whether it
is the destination; `which` is 0 for shape A and 1 for shape B. -/
structure Side where
  sp : Nat
  bnd : Option Nat
  sh : Shape
  dst : Bool
  which : Nat
  deriving DecidableEq, Repr

/-- Where the offsets of a side count from, the bytes that are in range, and the code of a range failure (R364). -/
structure Span where
  org : Int
  lo : Int
  hi : Int
  code : Nat
  deriving DecidableEq, Repr

/-- The control entry of a side's binding. -/
def Side.key (d : Side) (pan : Nat) (b : Nat) : Nat :=
  if d.sp = 0 then 128 * pan + 8 * (d.sh.base / 65536 % 16) + b else 16 * fieldOf pan + b
def State.sideEntry (s : State) (d : Side) (pan b : Nat) : BindCtl :=
  if d.sp = 0 then s.nodeEntry (d.key pan b) else s.concEntry (d.key pan b)
def State.setSideEntry (s : State) (d : Side) (pan b : Nat) (c : BindCtl) : State :=
  if d.sp = 0 then s.setNodeEntry (d.key pan b) c else s.setConcEntry (d.key pan b) c

/-- Whether a running block of the pan or field binds the side's binding in the right direction (R365, R366): a binding takes
effect at its flip (R226). -/
def State.sideBound (s : State) (d : Side) (pan b : Nat) : Bool :=
  let ok := fun (dir : Nat) => dir == 2 || (dir == (if d.dst then 0 else 1))
  if d.sp = 0 then
    let n := 8 * (d.sh.base / 65536 % 16) + b
    s.active.any fun e => e.1 / 256 == pan && e.2.live && (let p := Kv.get 0 e.2.nodeB n; p != 0 && ok (bitsN p 60 2))
  else
    s.active.any fun e => e.1 / 4096 == fieldOf pan && e.2.live && (let p := Kv.get 0 e.2.concB b; p != 0 && ok (bitsN p 61 2))

/-- The span of a side for a context's command. -/
def State.sideSpan (s : State) (c : Nat) (d : Side) : Span :=
  let pan := panOf c
  match d.bnd with
  | some b =>
    let e := s.sideEntry d pan b
    let org := e.base + (if d.dst then e.wp else e.rp) * e.size
    let lo := org + (if d.sp = 0 then 65536 * (d.sh.base / 65536 % 16) else 0)
    ⟨org, lo, lo + e.size, 0x0204⟩
  | none =>
    match d.sp with
    | 0 => ⟨0, 0, Config.nodeSize, 0x0204⟩
    | 1 => ⟨0, 0, Config.fieldSize, 0x0204⟩
    | 2 => ⟨0, 0, s.resSize (s.ctx c), 0x0202⟩
    | _ =>
      match (s.ctx c).ext.find? fun e => e.slot == d.sh.slot with
      | some e => ⟨e.vbase, e.vbase, e.vend, 0x0202⟩
      | none => ⟨0, 1, 0, 0x0202⟩

/-- Whether the ZERO flag of a source makes outside bytes read as zero (R363). -/
def Side.zeros (d : Side) : Bool := d.sh.layout.testBit 1 && decide (2 ≤ d.sp) && d.bnd.isNone

/-! ### Bytes that engines read and write -/

/-- Where a byte of a space lies for a context. -/
def State.engLoc (s : State) (c sp a : Nat) : Loc :=
  match sp with
  | 0 => ⟨s.ownDev.toNat, nodeBase (panOf c) + a, false, 0⟩
  | 1 => ⟨s.ownDev.toNat, fieldBase (fieldOf (panOf c)) + a, false, 0⟩
  | 2 => s.resLoc (s.ctx c) a
  | _ => s.locate (s.ctx c) true a

/-- Bytes from an address on, and the first one that is corrupt or that no link leads to or that its owner does not give (R468); a byte of
another device is a free value (log 18). -/
def State.engRead (s : State) (c sp a n : Nat) : List Byte × Option Nat :=
  let v := if sp < 2 then s.seen else s
  let at' := fun i => (v.engLoc c sp (a + i)).forReader (dieOf (panOf c))
  ((List.range n).map fun i =>
      if (at' i).dev = s.ownDev.toNat then v.peek (at' i).pa else BitVec.ofNat 8 (Config.freeNat (s.freeCtr + a + i)),
    ((List.range n).find? fun i => !s.reaches (dieOf (panOf c)) (at' i).dev || s.refusedAfar (at' i)
        || ((at' i).dev == s.ownDev.toNat && Kv.get false v.poison (at' i).pa
          && !Kv.get false v.scrub ((at' i).pa / 128))).map (a + ·))

/-- The number that an engine reads, without regard to poison. -/
def State.engNat (s : State) (c sp a n : Nat) : Nat := leNat (s.engRead c sp a n).1

/-- The lines of a request to memory are counted and scrubbed at their owner (R322, R428); those of another device leave as requests,
with the bytes that a write brings (R320). -/
def State.engTouch (s : State) (c sp a n : Nat) (data : Option (List Byte)) : State :=
  if sp < 2 then s
  else
    let die := dieOf (panOf c)
    let hit := fun (t : State) (p : Nat) => (t.countAccess die p 1).scrubFor p 1
    (linesOf a n).foldl (fun t v =>
      let t := if sp = 2 then t.touchMap (t.part (t.ctx c).pid) v else t
      let l := t.engLoc c sp v
      let len := min (a + n) (v / 128 * 128 + 128) - v
      if l.dev ≠ t.ownDev.toNat then
        match data with
        | some bs => t.forward die l.dev (t.ctx c).tenant (requestBytes .store l.owner.pa len ((bs.drop (v - a)).take len))
        | none => t.askLine die (t.ctx c).tenant l
      else if data.isSome && l.rep then (List.range 8).foldl (fun t k => hit t (atStack l.pa k)) t
      else hit t (l.forReader die).pa) s

/-- Poison that an engine's read meets is logged (R424), and a request that is not performed (R468). -/
def State.engNote (s : State) (c sp : Nat) (bad : Option Nat) : State :=
  match bad with
  | none => s
  | some v =>
    let l := (s.engLoc c sp v).forReader (dieOf (panOf c))
    let cid := cidOf (BitVec.ofNat 8 (s.ctx c).pid)
    if l.dev = s.ownDev.toNat then s.logPoison l.pa cid else s.logRequest (dieOf (panOf c)) l.pa cid

/-- A read by an engine: the bytes, the first corrupt one, and what the memory side does. -/
def State.engLoad (s : State) (c sp a n : Nat) : State × List Byte × Option Nat :=
  let (bs, bad) := s.engRead c sp a n
  (((s.engTouch c sp a n none).spend c sp n).engNote c sp bad, bs, bad)

def writeEach (c sp : Nat) : State → Nat → List Byte → State
  | s, _, [] => s
  | s, a, b :: bs =>
    let l := s.engLoc c sp a
    writeEach c sp (if sp < 2 then s.writeByte l.pa b
      else if l.dev = s.ownDev.toNat then s.writeLoc (s.ctx c).pid l [b] else s) (a + 1) bs

/-- The first address of a write to another device that no link leads to or that its owner refuses: nothing is written there (R468). -/
def State.engLost (s : State) (c sp a n : Nat) : Option Nat :=
  if sp ≠ 3 then none
  else ((List.range n).find? fun i =>
    let l := s.engLoc c sp (a + i)
    !s.reaches (dieOf (panOf c)) l.dev || s.refusedAfar l.owner).map (a + ·)

/-- A write by an engine (R323, R429). One that does not reach its owner is logged, and the command will report it (R468). -/
def State.engStore (s : State) (c sp a : Nat) (bs : List Byte) : State :=
  let s := match s.engLost c sp a bs.length with
    | none => s
    | some v =>
      { s.logRequest (dieOf (panOf c)) (s.engLoc c sp v).owner.pa (cidOf (BitVec.ofNat 8 (s.ctx c).pid)) with unreached := s.unreached.or (some v) }
  let s := writeEach c sp ((s.engTouch c sp a bs.length (some bs)).spend c sp bs.length) a bs
  if sp < 2 then s.inject (cidOf (BitVec.ofNat 8 (s.ctx c).pid)) (s.engLoc c sp a).pa bs.length else s

/-- The failure of a plain range of bytes: the code, and the first failing byte (R364, R365). -/
def State.rangeFault (s : State) (c sp a n : Nat) (write : Bool) : Option (Nat × Nat) :=
  let top := fun (size code : Nat) => if a + n ≤ size then none else some (code, max a size)
  match sp with
  | 0 => top Config.nodeSize 0x0204
  | 1 => top Config.fieldSize 0x0204
  | 2 => top (s.resSize (s.ctx c)) 0x0202
  | _ =>
    match (s.ctx c).extentOf a with
    | none => some (0x0202, a)
    | some e => if e.vend < a + n then some (0x0202, e.vend) else if write && !e.w then some (0x0203, a) else none

/-- The same for bytes of virtual memory that must lie in one extent, by its slot (R369). -/
def State.extentFault (s : State) (c slot a n : Nat) (write : Bool) : Option (Nat × Nat) :=
  match (s.ctx c).ext.find? fun e => e.slot == slot with
  | none => some (0x0202, a)
  | some e =>
    if a < e.vbase then some (0x0202, a) else if e.vend < a + n then some (0x0202, max a e.vend)
    else if write && !e.w then some (0x0203, a) else none

/-! ### Elements -/

/-- The byte address of element `i` of a side, its bit within that byte, and the bytes it touches. -/
def Side.place (d : Side) (sp : Span) (i : Nat) : Int × Nat × Nat :=
  let b := 8 * sp.org + d.sh.pos i
  let sh := (b % 8).toNat
  (b / 8, sh, (sh + d.sh.width + 7) / 8)

/-- Element `i` of a side, and the first corrupt byte; outside its span it reads as zero (R363). -/
def State.getElem (s : State) (c : Nat) (d : Side) (i : Nat) : State × Nat × Option Nat :=
  let sp := s.sideSpan c d
  let (a, sh, n) := d.place sp i
  if a < sp.lo ∨ sp.hi < a + n then (s, 0, none)
  else
    let (s, bs, bad) := s.engLoad c d.sp a.toNat n
    (s, leNat bs / 2 ^ sh % 2 ^ d.sh.width, bad)

/-- Writes element `i` of a side; an element of part of a byte leaves the rest of it, and its poison (R419). -/
def State.putElem (s : State) (c : Nat) (d : Side) (i v : Nat) : State :=
  let (a, sh, n) := d.place (s.sideSpan c d) i
  let w := d.sh.width
  let old := if sh = 0 ∧ w % 8 = 0 then 0 else s.engNat c d.sp a.toNat n
  let marks := s.poisonedOf ((partBytes sh w n).map fun j => (s.engLoc c d.sp (a.toNat + j)).owner.pa)
  (s.engStore c d.sp a.toNat (natLe n (setBits old sh w v))).poisonEach marks

/-- Elements of a side by index, stopping at the first corrupt byte. -/
def State.getElems (s : State) (c : Nat) (d : Side) : List Nat → State × List Nat × Option Nat
  | [] => (s, [], none)
  | i :: r =>
    let (s, v, bad) := s.getElem c d i
    match bad with
    | some p => (s, [], some p)
    | none =>
      let (s, vs, bad) := s.getElems c d r
      (s, v :: vs, bad)

/-- Writes of elements in order; a later one stands (R368). -/
def State.putElems (s : State) (c : Nat) (d : Side) (l : List (Nat × Nat)) : State :=
  l.foldl (fun s e => s.putElem c d e.1 e.2) s

/-! ### Engine-side validation (R365) -/

/-- An address as EADR holds it. -/
def eadrOf (a : Int) : Nat := wrapN a 64

/-- Order 4 for one side. -/
def State.sideRange (s : State) (c : Nat) (d : Side) : Option (Nat × Nat) :=
  let sp := s.sideSpan c d
  let lo := sp.org + d.sh.low
  let hi := sp.org + d.sh.high
  if d.zeros then none
  else if lo < sp.lo then some (sp.code, eadrOf lo)
  else if sp.hi < hi then some (sp.code, eadrOf (max lo sp.hi))
  else none

/-- Order 5 for one side. -/
def State.sideReadOnly (s : State) (c : Nat) (d : Side) : Option (Nat × Nat) :=
  match (s.ctx c).ext.find? fun e => e.slot == d.sh.slot with
  | some e => if d.dst && d.sp == 3 && d.bnd.isNone && !e.w then some (0x0203, eadrOf (e.vbase + d.sh.low)) else none
  | none => none

/-- Order 6 for one side. -/
def State.sideBinding (s : State) (c : Nat) (d : Side) : Option (Nat × Nat) :=
  match d.bnd with
  | some b => if s.sideBound d (panOf c) b then none else some (0x0204, eadrOf d.sh.low)
  | none => none

/-- The first defect of a command by the table of R365: code and EADR. `ranks` lists the ranks that its entry allows; `sizes` and
`formats` say whether orders 2 and 3 fail, `more` is what its entry adds to order 4, and `align` the operand of order 7. -/
def State.validate (s : State) (c : Nat) (sides : List Side) (ranks : List Nat) (sizes formats : Bool)
    (more align : Option (Nat × Nat)) : Option (Nat × Nat) :=
  let bound := fun (d : Side) => match d.bnd with | some b => s.sideBound d (panOf c) b | none => true
  match sides.find? fun d => d.sh.malformed d.dst || !ranks.contains d.sh.rank with
  | some d => some (0x0201, d.which)
  | none =>
    if sizes then some (0x0208, 0)
    else if formats then some (0x0207, 0)
    else
      ((sides.filter bound).findSome? (s.sideRange c)) |>.orElse fun _ => more
      |>.orElse fun _ => sides.findSome? (s.sideReadOnly c)
      |>.orElse fun _ => sides.findSome? (s.sideBinding c)
      |>.orElse fun _ => align

end Sys2Proof.Machine
end

