-- ==== Sys2Proof/Machine/Engines.lean ====
section
/-! DEFINITION. Engine commands: issue and the queue (R344 to R348, R353, R354), completion instructions (R355 to R361), what a
command works on, its acceptance and validation (R365), its wait for a binding (R366), and its end. -/

namespace Sys2Proof.Machine

/-! ### Commands -/

def State.cmd? (s : State) (id : Nat) : Option Cmd := s.cmds.find? fun k => k.id == id
def State.setCmd (s : State) (k : Cmd) : State := { s with cmds := s.cmds.map fun j => if j.id == k.id then k else j }
def State.dropCmd (s : State) (id : Nat) : State := { s with cmds := s.cmds.filter fun k => k.id != id }

/-- Entries of a pan's queue that are taken. -/
def State.queued (s : State) (pan : Nat) : Nat := (s.cmds.filter fun k => k.pan == pan && hasEntry k.instr).length

/-- The update of a command's object, for its context's partition. Its bytes count against the budget of the field (R383). -/
def State.report (s : State) (k : Cmd) (f : Obj → Obj) : State := (s.spend k.ctx 3 32).updateFor (dieOf k.pan) (s.ctx k.ctx).pid k.loc f

/-- The writes that a command still owes to node space go with it. -/
def State.dropOwed (s : State) (id : Nat) : State := { s with writes := s.writes.filter fun w => !(w.unit == 3 && w.key == id) }
/-- The command ends: its last update subtracts what is left of its count, and its entry frees (R348, R353). -/
def State.endCmd (s : State) (k : Cmd) (f : Obj → Obj) : State := ((s.report k fun o => (f o).less k.left).dropCmd k.id).dropOwed k.id
/-- The command fails (R353). -/
def State.failCmd (s : State) (k : Cmd) (code eadr : Nat) : State := s.endCmd k fun o => o.report code eadr

/-! ### Issue (R344 to R348, R354) -/

/-- The checks of R346 after those of R65: cause and TVAL. -/
def State.engineFault (s : State) (rc : Reg) (shapes : List HReg) : Option (Nat × Nat) :=
  let x := s.self
  let c := (s.reg rc).toNat
  if c % 64 ≠ 0 then some (0x0A, c)
  else if !(match (if c < 2 ^ 56 then x.extentOf c else none) with | some e => e.w | none => false) then some (0x09, c)
  else match shapes.find? x.shapePending with
    | some h => some (0x07, h.toNat)
    | none => none

/-- What comes before the accesses of a command of the issuing context (R333, R338). -/
def State.engineDeps (s : State) (rel : Bool) : List Nat :=
  ((s.accs.filter fun a => a.ctx == s.cur && (rel || a.acq)).map (·.id)) ++ s.self.heldAll ++ s.self.heldStores

/-- A command as it stands right after issue. -/
def State.newCmd (s : State) (i : Instr) (rc : Reg) (rel : Bool) (a b : Nat) (ops : List Word) (n : Nat) : Cmd :=
  let x := s.self
  { id := s.nextId, pan := s.pan, ctx := s.cur, instr := i, st := .issued, obj := s.reg rc,
    loc := s.locate x true (s.reg rc).toNat, a := a, b := b, ops := ops, modefp := x.modefp, ord := x.ord, left := n, p := 0,
    q := 0, w := 0, deps := s.engineDeps rel, ready := s.cycle + s.nextLatency, kc := 0, code := 0, eadr := 0, toks := [], owed := 0,
    cid := cidOf (BitVec.ofNat 8 x.pid) }

/-- Whether the issuing context may take an entry now: it has been granted one, or one is free that nobody waits for (R347). -/
def State.entryFree (s : State) : Bool :=
  let mine := s.holders.filter fun h => h.ctx / 8 == s.pan
  match mine.find? fun h => h.ctx == s.cur with
  | some h => h.granted
  | none => decide (s.queued s.pan + (mine.filter (·.granted)).length < Config.engineQueue) && mine.all (·.granted)

/-- Holds the context for an entry (R347). -/
def State.waitEntry (s : State) : Out :=
  let h := s.holdNow
  let s := if s.holders.any fun w => w.ctx == s.cur then s else { s with holders := s.holders ++ [⟨s.cur, h.fab, false⟩] }
  s.holdOn s.self h .other

/-- The arming update is made, and the command joins the queue unless its count did not fit (R354). -/
def State.takeEntry (s : State) (k : Cmd) : Out :=
  let fits := decide ((s.obj k.loc).pend + k.left ≤ pendMax)
  let s := ((s.leaveQueue s.cur).updateFor (dieOf s.pan) s.self.pid k.loc fun o => o.arm k.left)
  if fits then { s with nextId := s.nextId + 1, cmds := s.cmds ++ [k] }.takeLatency.done s.self else s.done s.self

/-- Issue of a command that takes an entry: the checks, the wait for an entry, then the command that `k` builds. -/
def State.issueCmd (s : State) (rc : Reg) (shapes : List HReg) (k : State → Cmd) : Out :=
  match s.engineFault rc shapes with
  | some (cause, tval) => s.trap cause tval
  | none => if s.entryFree then s.takeEntry (k s) else s.waitEntry

/-- Issue of a command with a header: shapes A and B as it names them, and its count from them. -/
def State.issueHdr (s : State) (i : Instr) (h : EngHdr) (shapes : List HReg) (ops : List Word) (n : Shape → Shape → Nat) : Out :=
  s.issueCmd h.rc shapes fun s =>
    let a := s.self.shape h.ha
    let b := s.self.shape h.hb
    s.newCmd i h.rc h.rel a b ops (n (shapeOf a) (shapeOf b))

/-- Block-scaled memory formats, and the integers that a scale plane makes so (R369). -/
def isMx (fmt : Nat) : Bool := decide (0x18 ≤ fmt) && decide (fmt ≤ 0x1B)
def isNarrow (fmt : Nat) : Bool := fmt == 0x10 || fmt == 0x12 || fmt == 0x14
def isWide (fmt : Nat) : Bool := fmt == 0x08 || fmt == 0x09 || fmt == 0x0A
/-- Whether the source or the destination of a TCOPYC is scaled; `xr` says that it names a scale plane. -/
def srcScaled (xr : Bool) (a b : Shape) : Bool := isMx a.fmt || (xr && isNarrow a.fmt && isWide b.fmt)
def dstScaled (xr : Bool) (a b : Shape) : Bool := isMx b.fmt || (xr && isNarrow b.fmt && isWide a.fmt)

def execTcopy (h : EngHdr) (sd d : EngEnd) (s : State) : Out :=
  s.issueHdr (.tcopy h sd d) h [h.ha, h.hb] [] fun _ b => b.bytes
def execTcopyc (h : EngHdr) (sd d : EngEnd) (rm : RM) (xr : Reg) (s : State) : Out :=
  s.issueHdr (.tcopyc h sd d rm xr) h [h.ha, h.hb] [s.reg xr] fun a b =>
    b.bytes + (if dstScaled (xr != 0) a b then b.count / 32 else 0)
def execTfill (h : EngHdr) (d : EngEnd) (rv : Reg) (s : State) : Out :=
  s.issueHdr (.tfill h d rv) h [h.hb] [s.reg rv] fun _ b => b.bytes
def execSgath (h : EngHdr) (tsp rsp : BitVec 2) (ir : Reg) (isp : BitVec 2) (s : State) : Out :=
  s.issueHdr (.sgath h tsp rsp ir isp) h [h.ha, h.hb] [s.reg ir] fun _ b => b.bytes
def execSscat (h : EngHdr) (tsp rsp : BitVec 2) (ir : Reg) (isp : BitVec 2) (s : State) : Out :=
  s.issueHdr (.sscat h tsp rsp ir isp) h [h.ha, h.hb] [s.reg ir] fun a _ => a.bytes
def execSscata (h : EngHdr) (tsp rsp : BitVec 2) (ir : Reg) (isp : BitVec 2) (s : State) : Out :=
  s.issueHdr (.sscata h tsp rsp ir isp) h [h.ha, h.hb] [s.reg ir] fun a _ => a.bytes
def execSisect (h : EngHdr) (emit : Bool) (asp bsp : BitVec 2) (ro : Reg) (osp : BitVec 2) (s : State) : Out :=
  s.issueHdr (.sisect h emit asp bsp ro osp) h [h.ha, h.hb] [s.reg ro] fun _ _ => 1
def execPrune (h : EngHdr) (asp bsp : BitVec 2) (mr : Reg) (msp mc nc : BitVec 2) (s : State) : Out :=
  s.issueHdr (.prune h asp bsp mr msp mc nc) h [h.ha, h.hb] [s.reg mr] fun _ b => b.bytes + 128 * ceilDiv (b.size 1) 16
def execColl (h : EngHdr) (kind : CollKind) (op : CollOp) (asp bsp : BitVec 2) (gr : Reg) (s : State) : Out :=
  s.issueHdr (.coll h kind op asp bsp gr) h [h.ha, h.hb] [s.reg gr] fun _ b => b.bytes

/-- Bytes of a message of a payload length (R378). -/
def messageBytes (len : Nat) : Nat := 8 + 8 * ((len + 7) / 8)

def execRput (rel : Bool) (rc rr : Reg) (fld : Bool) (ar : Reg) (asp : BitVec 2) (lr : Reg) (type : BitVec 16) (s : State) :
    Out :=
  s.issueCmd rc [] fun s =>
    let n := (s.reg lr).toNat
    s.newCmd (.rput rel rc rr fld ar asp lr type) rc rel 0 0 [s.reg rr, s.reg ar, s.reg lr] (if n ≤ 65535 then messageBytes n else 1)
def execRget (rel : Bool) (rc rr : Reg) (fld : Bool) (ar : Reg) (asp : BitVec 2) (lr : Reg) (s : State) : Out :=
  s.issueCmd rc [] fun s => s.newCmd (.rget rel rc rr fld ar asp lr) rc rel 0 0 [s.reg rr, s.reg ar, s.reg lr] 1
def execRpeek (rel : Bool) (rc rr : Reg) (fld : Bool) (ar : Reg) (asp : BitVec 2) (lr : Reg) (s : State) : Out :=
  s.issueCmd rc [] fun s => s.newCmd (.rpeek rel rc rr fld ar asp lr) rc rel 0 0 [s.reg rr, s.reg ar, s.reg lr] 1
def execEvict (rel : Bool) (rc br : Reg) (fld : Bool) (mr : Reg) (res : Bool) (nr : Reg) (s : State) : Out :=
  s.issueCmd rc [] fun s =>
    s.newCmd (.evict rel rc br fld mr res nr) rc rel 0 0 [s.reg br, s.reg mr, s.reg nr] (s.reg nr).toNat
def execPref (rel : Bool) (rc br : Reg) (fld : Bool) (mr : Reg) (res : Bool) (nr : Reg) (s : State) : Out :=
  s.issueCmd rc [] fun s =>
    s.newCmd (.pref rel rc br fld mr res nr) rc rel 0 0 [s.reg br, s.reg mr, s.reg nr] (s.reg nr).toNat

/-- QUEUE_ENTRY_FREE (R347): free entries go to the contexts whose hold began first, then to the lowest index. -/
def holdsBefore (a b : Holder) : Bool := decide (a.since < b.since) || (a.since == b.since && decide (a.ctx ≤ b.ctx))
def execQueueEntryFree (pan : Nat) (s : State) : Out :=
  let mine := s.holders.filter fun h => h.ctx / 8 == pan
  let wait := mine.filter fun h => !h.granted
  let free := Config.engineQueue - s.queued pan - (mine.filter (·.granted)).length
  match wait.find? fun h => wait.all fun w => holdsBefore h w with
  | some h => if 0 < free then .next { s with holders := s.holders.map fun w => if w = h then { w with granted := true } else w }
    else .next s
  | none => .next s

/-! ### Completion instructions (R355 to R361) -/

/-- CPLARM's change of its object (R356). -/
def Obj.hold (o : Obj) (clr : Bool) (a : Nat) : Obj :=
  if pendMax < a ∨ pendMax < o.pend + a then o.report 0x0209 0
  else (if clr then { o with result := 0, eadr := 0, exp := 0, arr := 0, bar := false } else o).arm a
/-- CPLSIG's (R356). -/
def Obj.signal (o : Obj) (a : Nat) : Obj := if o.pend < a then { o with pend := 0 }.report 0x0209 0 else o.less a
/-- BARINIT's (R358). -/
def Obj.barrier (o : Obj) (a : Nat) : Obj :=
  if a % 2 ^ 16 = 0 ∨ 2 ^ 16 ≤ a then o.report 0x020A 0
  else { o with exp := a, arr := 0, pend := 0, bar := true, st := 1, err := false, code := 0, result := 0, eadr := 0 }
/-- BARARR's (R359). -/
def Obj.arrive (o : Obj) : Obj := { o with arr := min 0xFFFF (o.arr + 1) }
/-- A step of an update that another device asks for (R350). -/
def Obj.step (o : Obj) : ObjStep → Obj
  | .report code eadr => o.report code eadr
  | .less n => o.less n
  | .arm n => o.arm n
  | .hold clr n => o.hold clr n
  | .signal n => o.signal n
  | .barrier n => o.barrier n
  | .arrive => o.arrive
  | .init n => { o with pend := n, st := 1, err := false, bar := false, exp := 0, arr := 0, code := 0, result := 0, eadr := 0 }
  | .exit code => { o with code := max o.code code }.less 1
  | .result add n => { o with result := ((if add then o.result else 0) + n) % 2 ^ 64 }
/-- An object as CPLTEST lands it, when its reserved bits are 0 (R357). -/
def Obj.word (o : Obj) : Word := BitVec.ofNat 64 (o.status + 2 ^ 8 * o.code + 2 ^ 24 * o.gen)

/-- A completion instruction acts on its object, and lands what it lands. -/
def State.doCpl (s : State) (k : Cmd) : State :=
  let a := (k.ops.getD 0 0).toNat
  match k.instr with
  | .cplarm _ clr _ _ => s.report k fun o => o.hold clr a
  | .cplsig .. => s.report k fun o => o.signal a
  | .barinit .. => s.report k fun o => o.barrier a
  | .bararr _ ln _ => (s.report k Obj.arrive).landIn k.ctx (some ln) k.id (BitVec.ofNat 64 (s.obj k.loc).gen) none
  | .cpltest _ ln _ => (s.touchObj (dieOf k.pan) (s.ctx k.ctx).tenant k.loc).landIn k.ctx (some ln) k.id (s.objWord k.loc) none
  | _ => s

/-- An earlier completion instruction of the same context still has to act on this object (R348). -/
def State.objBusy (s : State) (c : Nat) (obj : Word) : Bool :=
  s.cmds.any fun k => k.ctx == c && k.obj == obj && !hasEntry k.instr

/-- Issue of a completion instruction that does not wait: its update is made at once, or once what comes before it in the order is
performed; one that lands a value is made after an access's time. -/
def State.issueCpl (s : State) (i : Instr) (rc : Reg) (rel : Bool) (ops : List Word) (ln : Option LReg) : Out :=
  match s.engineFault rc [] with
  | some (cause, tval) => s.trap cause tval
  | none =>
    let k := s.newCmd i rc rel 0 0 ops 0
    let prior := (s.cmds.filter fun j => j.ctx == s.cur && j.obj == k.obj && !hasEntry j.instr).map (·.id)
    let k := { k with deps := k.deps ++ prior }
    if ln.isNone && s.free k.deps then (s.doCpl k).done s.self
    else
      let x := s.self.await ln k.id
      let x := match i with | .cpltest .. => { x with heldAll := x.heldAll ++ [k.id] } | _ => x
      { s with nextId := s.nextId + 1, cmds := s.cmds ++ [k] }.takeLatency.done x

def execCplarm (rel clr : Bool) (rc ra : Reg) (s : State) : Out := s.issueCpl (.cplarm rel clr rc ra) rc rel [s.reg ra] none
def execBarinit (rel : Bool) (rc ra : Reg) (s : State) : Out := s.issueCpl (.barinit rel rc ra) rc rel [s.reg ra] none
def execCplsig (rel : Bool) (rc ra : Reg) (s : State) : Out := s.issueCpl (.cplsig rel rc ra) rc rel [s.reg ra] none
def execCpltest (rel : Bool) (ln : LReg) (rc : Reg) (s : State) : Out := s.issueCpl (.cpltest rel ln rc) rc rel [] (some ln)
def execBararr (rel : Bool) (ln : LReg) (rc : Reg) (s : State) : Out := s.issueCpl (.bararr rel ln rc) rc rel [] (some ln)

/-- What a wait on an object saw in this context cycle: it goes on, or it ended (R357, R360). The address and the generation are
those that the hold has kept. -/
def State.objWait (s : State) (rel : Bool) (obj : Word) (ended : Obj → Bool) : Option Obj :=
  let l := s.locate s.self true obj.toNat
  let first := s.free (s.engineDeps rel) && !s.objBusy s.cur obj
    && !(s.accs.any fun a => a.ctx == s.cur && a.kind.stores && a.overlaps l 32)
  if first && ended (s.obj l) then some (s.obj l) else none

/-- The end of a context cycle of CPLWAIT or BARWAIT (R357, R360, R361). The read that ends the wait counts its line (R322); an object of
another device is asked for as the wait begins (R320). -/
def State.waitObj (s : State) (rel : Bool) (obj : Word) (h : Hold) (ended : Obj → Bool) : Out :=
  let l := s.locate s.self true obj.toNat
  let own := l.dev == s.ownDev.toNat
  let asked := if own || s.self.hold.isSome then s else s.touchObj (dieOf s.pan) s.self.tenant l
  match s.objWait rel obj ended with
  | some o =>
    let s := if own then s.touchObj (dieOf s.pan) s.self.tenant l else asked
    if o.err then s.trap 0x11 obj.toNat else s.done s.self
  | none => asked.holdOn s.self h .wait

/-- CPLWAIT (R357, R361). -/
def execCplwait (rel : Bool) (rc : Reg) (s : State) : Out :=
  match (if s.self.hold.isSome then none else s.engineFault rc []) with
  | some (cause, tval) => s.trap cause tval
  | none =>
    let h := s.holdWith (s.reg rc) 0
    s.waitObj rel h.val h fun o => o.st != 1

/-- BARWAIT (R360, R361). -/
def execBarwait (rel : Bool) (rc ra : Reg) (s : State) : Out :=
  match (if s.self.hold.isSome then none else s.engineFault rc []) with
  | some (cause, tval) => s.trap cause tval
  | none =>
    let h := s.holdWith (s.reg rc) ((s.reg ra).toNat % 2 ^ 16)
    s.waitObj rel h.val h fun o => o.gen != h.upto

/-- CPLWAIT_END (R357, R361): in a context cycle of a context that CPLWAIT holds, its object is no longer pending. -/
def execCplwaitEnd (ctx : Nat) (s : State) : Out :=
  match (s.ctx ctx).instr?, (s.ctx ctx).hold with
  | some (.cplwait rel _), some h =>
    let t := s.takeTurn ctx
    if s.heldNow ctx && (t.objWait rel h.val fun o => o.st != 1).isSome then t.waitObj rel h.val h fun o => o.st != 1
    else .next s
  | _, _ => .next s

/-- BARWAIT_END (R360, R361): the same for the generation that BARWAIT waits to pass. -/
def execBarwaitEnd (ctx : Nat) (s : State) : Out :=
  match (s.ctx ctx).instr?, (s.ctx ctx).hold with
  | some (.barwait rel _ _), some h =>
    let t := s.takeTurn ctx
    if s.heldNow ctx && (t.objWait rel h.val fun o => o.gen != h.upto).isSome then t.waitObj rel h.val h fun o => o.gen != h.upto
    else .next s
  | _, _ => .next s

/-! ### What a command works on -/

def endSide (e : EngEnd) (sh : Nat) (dst : Bool) (which : Nat) : Side :=
  ⟨e.sp.toNat, if e.bnd then some e.n.toNat else none, shapeOf sh, dst, which⟩
def spSide (sp : BitVec 2) (sh : Nat) (dst : Bool) (which : Nat) : Side := ⟨sp.toNat, none, shapeOf sh, dst, which⟩

/-- The sides of a command, shape A first. -/
def Cmd.sides (k : Cmd) : List Side :=
  match k.instr with
  | .tcopy _ a b => [endSide a k.a false 0, endSide b k.b true 1]
  | .tcopyc _ a b _ _ => [endSide a k.a false 0, endSide b k.b true 1]
  | .tfill _ b _ => [endSide b k.b true 1]
  | .sgath _ t r _ _ => [spSide t k.a false 0, spSide r k.b true 1]
  | .sscat _ t r _ _ => [spSide r k.a false 0, spSide t k.b true 1]
  | .sscata _ t r _ _ => [spSide r k.a false 0, spSide t k.b true 1]
  | .sisect _ _ a b _ _ => [spSide a k.a false 0, spSide b k.b false 1]
  | .prune _ a b _ _ _ _ => [spSide a k.a false 0, spSide b k.b true 1]
  | .coll _ _ _ a b _ => [spSide a k.a false 0, spSide b k.b true 1]
  | .chain .. => [spSide 0 k.a false 0, spSide 0 k.b true 1]
  | _ => []
def noSide : Side := ⟨0, none, shapeOf 0, false, 0⟩
def Cmd.sideA (k : Cmd) : Side := k.sides.headD noSide
def Cmd.sideB (k : Cmd) : Side := k.sides.getLastD noSide
def Cmd.op (k : Cmd) (i : Nat) : Nat := (k.ops.getD i 0).toNat

/-- Whether a TCOPYC's sides are scaled. -/
def Cmd.scaledA (k : Cmd) : Bool :=
  match k.instr with | .tcopyc _ _ _ _ xr => srcScaled (xr != 0) (shapeOf k.a) (shapeOf k.b) | _ => false
def Cmd.scaledB (k : Cmd) : Bool :=
  match k.instr with | .tcopyc _ _ _ _ xr => dstScaled (xr != 0) (shapeOf k.a) (shapeOf k.b) | _ => false

/-- The address of the scale byte of group `g` of a scaled side: at s(XR) in its space, or from the base of its extent (R369). -/
def State.scaleAddr (s : State) (k : Cmd) (d : Side) (g : Nat) : Nat :=
  k.op 0 + g + (if d.sp = 3 ∧ d.bnd.isNone then (s.sideSpan k.ctx d).org.toNat else 0)

/-! ### Validation (R365) -/

/-- Formats of plain conversions (R369). -/
def isInt (f : Nat) : Bool := (decide (1 ≤ f) && decide (f ≤ 7)) || (decide (0x10 ≤ f) && decide (f ≤ 0x15))
def isFlt (f : Nat) : Bool := decide (8 ≤ f) && decide (f ≤ 0x0C)

/-- Whether TCOPYC supports a pair of formats (R369). -/
def pairOk (xr : Bool) (a b : Shape) : Bool :=
  if srcScaled xr a b then isWide b.fmt
  else if dstScaled xr a b then isWide a.fmt || (b.fmt == 0x18 && (a.fmt == 0x0B || a.fmt == 0x0C))
  else (isInt a.fmt || isFlt a.fmt || a.fmt == 0x1C) && (isInt b.fmt || isFlt b.fmt)

/-- Formats of COLL with an operation (R470). -/
def collFmt (op : CollOp) (f : Nat) : Bool :=
  (decide (1 ≤ f) && decide (f ≤ 7)) || (isWide f && (match op with | .add => true | .min => true | .max => true | _ => false))

/-- Whether the element counts or widths of a command disagree with its entry (R365, order 2). -/
def Cmd.sizesBad (k : Cmd) : Bool :=
  let a := shapeOf k.a
  let b := shapeOf k.b
  let rows := a.size 0 != b.size 0 || a.width != b.width
  match k.instr with
  | .tcopy .. => a.count != b.count || a.width != b.width
  | .tcopyc .. => a.count != b.count || ((k.scaledA || k.scaledB) && a.count % 32 != 0)
  | .sgath .. => rows
  | .sscat .. => rows
  | .sscata .. => rows
  | .prune _ _ _ _ _ mc nc => a.size 0 != spKd mc nc || b.size 0 != 16 || a.size 1 != b.size 1
  | .chain .. => a.count != b.count
  | _ => false

/-- Whether the formats are no pair that its entry supports (R365, order 3). -/
def Cmd.formatsBad (k : Cmd) : Bool :=
  let a := shapeOf k.a
  let b := shapeOf k.b
  match k.instr with
  | .tcopyc _ _ _ _ xr => !pairOk (xr != 0) a b
  | .sscata .. => !(b.fmt == 0x05 || b.fmt == 0x06 || b.fmt == 0x07 || b.fmt == 0x0A)
  | .sisect .. => a.fmt != 0x06 || b.fmt != 0x06
  | .prune .. => a.fmt != b.fmt || !(a.fmt == 0x01 || a.fmt == 0x03 || isWide a.fmt)
  | .coll _ _ op _ _ _ => a.fmt != b.fmt || !collFmt op a.fmt
  | .chain .. => decide (32 < a.width)
  | _ => false

/-- The ranks that a command's entry allows (R365, R371, R374, R375, R266). -/
def Cmd.ranks (k : Cmd) : List Nat :=
  match k.instr with
  | .sgath .. => [2] | .sscat .. => [2] | .sscata .. => [2] | .sisect .. => [1] | .prune .. => [2]
  | .chain .. => [1, 2, 3, 4]
  | _ => (List.range 12).map (· + 1)

/-- The ranges that a command names by s registers: a scale plane (R369), an index list (R371), metadata images (R375). The spec
names the check for shapes; these are checked with them (log 28). -/
def State.planeFault (s : State) (k : Cmd) : Option (Nat × Nat) :=
  let list := fun (isp : BitVec 2) (rows : Nat) => s.rangeFault k.ctx isp.toNat (k.op 0) (4 * rows) false
  match k.instr with
  | .tcopyc .. =>
    let n := (shapeOf k.a).count / 32
    let plane := fun (d : Side) (write : Bool) =>
      if d.sp = 3 then s.extentFault k.ctx d.sh.slot (s.scaleAddr k d 0) n write else s.rangeFault k.ctx d.sp (s.scaleAddr k d 0) n write
    if k.scaledA then plane k.sideA false else if k.scaledB then plane k.sideB true else none
  | .sgath _ _ _ _ isp => list isp ((shapeOf k.b).size 1)
  | .sscat _ _ _ _ isp => list isp ((shapeOf k.a).size 1)
  | .sscata _ _ _ _ isp => list isp ((shapeOf k.a).size 1)
  | .prune _ _ _ _ msp _ _ => s.rangeFault k.ctx msp.toNat (k.op 0) (128 * ceilDiv ((shapeOf k.b).size 1) 16) true
  | _ => none

/-- Order 7 of R365. -/
def Cmd.alignFault (k : Cmd) : Option (Nat × Nat) :=
  let bad := fun (n : Nat) => if k.op 0 % n ≠ 0 then some (0x0213, k.op 0) else none
  match k.instr with
  | .sgath .. => bad 4 | .sscat .. => bad 4 | .sscata .. => bad 4
  | .sisect _ emit _ _ _ _ => if emit then bad 4 else none
  | .prune .. => bad 128
  | _ => none

/-- The checks of EVICT and PREF (R382). -/
def State.moveFault (s : State) (k : Cmd) (fld res evict : Bool) : Option (Nat × Nat) :=
  let b := k.op 0
  let m := k.op 1
  let n := k.op 2
  if n % 256 ≠ 0 ∨ n < 256 ∨ 2 ^ 23 < n then some (0x0204, b)
  else if b % 256 ≠ 0 then some (0x0204, b)
  else if m % 256 ≠ 0 then some (0x0204, m)
  else (s.rangeFault k.ctx (if fld then 1 else 0) b n (!evict)).orElse fun _ => s.rangeFault k.ctx (if res then 2 else 3) m n evict

/-- What an engine finds when it accepts a command (R365): the first defect, or nothing. -/
def State.cmdFault (s : State) (k : Cmd) : Option (Nat × Nat) :=
  match k.instr with
  | .evict _ _ _ fld _ res _ => s.moveFault k fld res true
  | .pref _ _ _ fld _ res _ => s.moveFault k fld res false
  | i => if isRing i then none
    else s.validate k.ctx k.sides k.ranks k.sizesBad k.formatsBad (s.planeFault k) k.alignFault

/-! ### Bindings (R305, R366) -/

/-- How a binding that a command names stands for it. -/
inductive BindState where
  | ready | wait | fail (code eadr : Nat)
  deriving DecidableEq, Repr

def State.bindState (s : State) (c : Nat) (d : Side) : BindState :=
  match d.bnd with
  | none => .ready
  | some b =>
    let e := s.sideEntry d (panOf c) b
    if !s.sideBound d (panOf c) b then .fail 0x0204 (eadrOf d.sh.low)
    else if d.dst then (if (e.slot e.wp).full then .wait else .ready)
    else if !e.readSlot.full then .wait
    else if e.mismatch then .fail 0x020F (e.readSlot.tag.toNat + 2 ^ 16 * e.xctr.toNat)
    else .ready

/-- The first read of a full slot compares its tag (R177, R366). -/
def State.checkSide (c : Nat) (s : State) (d : Side) : State :=
  match d.bnd with
  | some b => if d.dst then s else s.setSideEntry d (panOf c) b (s.sideEntry d (panOf c) b).checked
  | none => s

/-- At completion a source slot is released and a destination slot made full, which rows and static engines see from the next fabric
cycle on (R305, R366). -/
def State.endSideSlot (c : Nat) (s : State) (d : Side) : State :=
  match d.bnd with
  | some b => { s with slotEnds := s.slotEnds ++ [(d.sp, d.key (panOf c) b, d.dst)] }
  | none => s
/-- The end of a fabric cycle puts them into force. -/
def State.applySlotEnds (s : State) : State :=
  s.slotEnds.foldl (fun s e =>
    let turn := fun (x : BindCtl) => if e.2.2 then x.complete x.wp else x.release
    if e.1 = 0 then s.setNodeEntry e.2.1 (turn (s.nodeEntry e.2.1)) else s.setConcEntry e.2.1 (turn (s.concEntry e.2.1)))
    { s with slotEnds := [] }

/-- ENGINE_BINDING_SLOT_READY (R366): the slots that a waiting command needs are tested. -/
def execEngineBindingSlotReady (id : Nat) (s : State) : Out :=
  match s.cmd? id with
  | none => .next s
  | some k =>
    if k.st ≠ .waiting ∨ isColl k.instr ∨ isChain k.instr then .next s
    else
      let l := k.sides.map (s.bindState k.ctx)
      match l.findSome? fun b => match b with | .fail c e => some (c, e) | _ => none with
      | some (c, e) => .next (s.failCmd k c e)
      | none => if l.all (· == .ready) then .next ((k.sides.foldl (State.checkSide k.ctx) s).setCmd { k with st := .running })
        else .next s

end Sys2Proof.Machine
end

