-- ==== Sys2Proof/Machine/EngineOps.lean ====
section
/-! DEFINITION. What an engine does with an accepted command, unit by unit between which a halt can stop it: copies, conversions
and fills (R367 to R370), the sieve (R371 to R373), SISECT (R374), PRUNE (R375, R376), rings (R377 to R381), EVICT and PREF
(R382); the performing of units and completion (R348, R353). -/

namespace Sys2Proof.Machine

/-! ### Units -/

/-- Source and destination elements that one unit of a copy moves: 32 for a scaled conversion (R369). -/
def Cmd.group (k : Cmd) : Nat := if k.scaledA || k.scaledB then 32 else 1
/-- Rows on the row side of a sieve command. -/
def Cmd.rowSide (k : Cmd) : Side := match k.instr with | .sgath .. => k.sideB | _ => k.sideA
def Cmd.table (k : Cmd) : Side := match k.instr with | .sgath .. => k.sideA | _ => k.sideB
def Cmd.sieveRows (k : Cmd) : Nat := k.rowSide.sh.size 1
/-- Positions of a window (R372). -/
def sieveWindow : Nat := 1024
/-- Rows of a metadata image (R376). -/
def pruneRows : Nat := 16
/-- Bytes of a unit of EVICT and PREF. -/
def moveBytes : Nat := 256

/-- Units of a command; a SISECT has as many as its merge takes. -/
def Cmd.units (k : Cmd) : Nat :=
  match k.instr with
  | .tcopy .. => k.sideB.sh.count
  | .tcopyc .. => k.sideB.sh.count / k.group
  | .tfill .. => k.sideB.sh.count
  | .sgath .. => ceilDiv k.sieveRows sieveWindow
  | .sscat .. => ceilDiv k.sieveRows sieveWindow
  | .sscata .. => ceilDiv k.sieveRows sieveWindow
  | .prune .. => ceilDiv (k.sideB.sh.size 1) pruneRows
  | .evict .. => k.op 2 / moveBytes
  | .pref .. => k.op 2 / moveBytes
  | _ => 1

/-- Whether every unit has been performed. -/
def Cmd.performed (k : Cmd) : Bool :=
  match k.instr with
  | .sisect .. => decide (k.sideA.sh.count ≤ k.p) || decide (k.sideB.sh.count ≤ k.q)
  | _ => decide (k.units ≤ k.p)

/-- Bytes that the first `p` units have written (R353). -/
def Cmd.written (k : Cmd) (p : Nat) : Nat :=
  let rows := fun (d : Side) (n : Nat) => min n (d.sh.size 1) * d.sh.size 0 * d.sh.width / 8
  match k.instr with
  | .tcopy .. => p * k.sideB.sh.width / 8
  | .tcopyc .. => p * k.group * k.sideB.sh.width / 8 + (if k.scaledB then p else 0)
  | .tfill .. => p * k.sideB.sh.width / 8
  | .sgath .. => rows k.rowSide (p * sieveWindow)
  | .sscat .. => rows k.rowSide (p * sieveWindow)
  | .sscata .. => rows k.rowSide (p * sieveWindow)
  | .prune .. => rows k.sideB (p * pruneRows) + 128 * p
  | .evict .. => p * moveBytes
  | .pref .. => p * moveBytes
  | _ => 0

/-- What one unit leaves: the state, and the failure that ended it (R392). -/
abbrev UnitEnd := State × Option (Nat × Nat)

/-- An uncorrectable error in a command's data (R392). -/
def memErr (p : Nat) : Option (Nat × Nat) := some (0x020D, p)

/-! ### Copies, conversions and fills (R368 to R370) -/

/-- The scale codes of groups, and the values of a scaled source group. -/
def scaledVals (sh : Shape) (x : Nat) (mode : BitVec 6) (cs : List Nat) : List Val :=
  cs.map fun c => scaledVal x (((memFmt sh.fmt).getD .mxInt8).read mode c)

/-- The block format of a scaled destination (R369). -/
def blkFmtOf (fmt : Nat) : BlkFmt :=
  match fmt with
  | 0x18 => .mxInt8 | 0x19 => .mx mxe2m3 | 0x1A => .mx mxe3m2 | 0x1B => .mx mxe2m1
  | 0x10 => .int 2 | 0x12 => .int 4 | _ => .int 6

/-- A destination group: from E4M3, E5M2 and BF16 to MXINT8 by R197, otherwise by R204. -/
def scaleGroup (a b : Shape) (mode : BitVec 6) (cs : List Nat) : Nat × List Nat :=
  let xs := cs.map (((memFmt a.fmt).getD .mxInt8).read mode)
  if b.fmt = 0x18 ∧ (a.fmt = 0x0B ∨ a.fmt = 0x0C ∨ a.fmt = 0x08) then toMxInt8 xs else quantise (blkFmtOf b.fmt) mode xs

/-- Elements of group `p`. -/
def groupIdx (n p : Nat) : List Nat := (List.range n).map (n * p + ·)

/-- One unit of TCOPYC. -/
def State.convertUnit (s : State) (k : Cmd) (rm : RM) : UnitEnd :=
  let a := k.sideA
  let b := k.sideB
  let is := groupIdx k.group k.p
  let (s, cs, bad) := s.getElems k.ctx a is
  match bad with
  | some p => (s, memErr p)
  | none =>
    if k.scaledA then
      let (s, bs, bad) := s.engLoad k.ctx a.sp (s.scaleAddr k a k.p) 1
      match bad with
      | some p => (s, memErr p)
      | none =>
        let f := (memFmt b.sh.fmt).getD .scale
        (s.putElems k.ctx b (is.zip ((scaledVals a.sh (leNat bs) k.modefp cs).map (f.write k.modefp rm))), none)
    else if k.scaledB then
      let (x, ds) := scaleGroup a.sh b.sh k.modefp cs
      ((s.putElems k.ctx b (is.zip ds)).engStore k.ctx b.sp (s.scaleAddr k b k.p) (natLe 1 x), none)
    else
      let f := (memFmt a.sh.fmt).getD .scale
      let g := (memFmt b.sh.fmt).getD .scale
      (s.putElems k.ctx b (is.zip (cs.map (convert f g k.modefp rm))), none)

/-- One unit of TCOPY. -/
def State.copyUnit (s : State) (k : Cmd) : UnitEnd :=
  let (s, v, bad) := s.getElem k.ctx k.sideA k.p
  match bad with
  | some p => (s, memErr p)
  | none => (s.putElem k.ctx k.sideB k.p v, none)

/-! ### The sieve (R371 to R373) -/

/-- Elements of row `r` of a rank-2 shape. -/
def Shape.rowElems (sh : Shape) (r : Nat) : List Nat := (List.range (sh.size 0)).map (sh.size 0 * r + ·)

/-- Reads rows of a side once each. -/
def State.getRows (s : State) (c : Nat) (d : Side) : List Nat → State × List (Nat × List Nat) × Option Nat
  | [] => (s, [], none)
  | r :: rest =>
    let (s, vs, bad) := s.getElems c d (d.sh.rowElems r)
    match bad with
    | some p => (s, [], some p)
    | none =>
      let (s, l, bad) := s.getRows c d rest
      (s, (r, vs) :: l, bad)

def rowOfList (l : List (Nat × List Nat)) (r : Nat) : List Nat := ((l.find? fun e => e.1 == r).map (·.2)).getD []

/-- The indices of a window, with their positions. -/
def State.sieveIndices (s : State) (k : Cmd) (isp : BitVec 2) : State × List (Nat × Nat) × Option Nat :=
  let lo := k.p * sieveWindow
  let n := min sieveWindow (k.sieveRows - lo)
  let (s, bs, bad) := s.engLoad k.ctx isp.toNat (k.op 0 + 4 * lo) (4 * n)
  (s, (List.range n).map fun j => (lo + j, packedAt (leNat bs) j 32), bad)

/-- What SSCATA adds two elements as (R120, R372). -/
def sieveAdd (fmt : Nat) (mode : BitVec 6) (a b : Nat) : Nat :=
  if fmt = 0x0A then fadd32 (modeBit mode 0) (modeBit mode 1) a b
  else (a + b) % 2 ^ (if fmt = 0x07 then 64 else 32)

/-- A sum whose order is free: two terms that free values pick are replaced by their sum until one is left (R373, R474). -/
def freeSum (f : Nat → Nat → Nat) (draw : Nat → Nat) : Nat → List Nat → Nat
  | 0, l => l.headD 0
  | n + 1, l =>
    let i := draw (2 * n) % max 1 l.length
    let r := l.eraseIdx i
    let j := draw (2 * n + 1) % max 1 r.length
    freeSum f draw n (f (l.getD i 0) (r.getD j 0) :: r.eraseIdx j)

/-- A table element after a window's contributions to it, in ascending position order or in free order. -/
def sieveElem (ord : Bool) (f : Nat → Nat → Nat) (draw : Nat → Nat) (old : Nat) (cs : List Nat) : Nat :=
  if ord then
    match cs with
    | [] => old
    | c :: r => f old (r.foldl f c)
  else freeSum f draw cs.length (old :: cs)

/-- The contributions to one element of a table on another device leave as atomics, which its owner performs (R320, R467). -/
def State.sieveAsk (s : State) (k : Cmd) (a : Nat) (cs : List Nat) : State :=
  let l := s.engLoc k.ctx k.table.sp a
  let n := k.table.sh.width / 8
  let op := if k.table.sh.fmt = 0x0A then 9 else 0
  let x := s.ctx k.ctx
  cs.foldl (fun s c => s.forward (dieOf k.pan) l.dev x.tenant
    (requestBytes (.amo op (modeBit k.modefp 0) (modeBit k.modefp 1) k.ord x.task) l.owner.pa n (natLe n c))) s

/-- One element update of a window, an atomic read-modify-write of the element (R332, R372), one request that counts once (R322). One
whose bytes hold poison computes and writes nothing and is reported (R392), as is one that its owner does not perform (R468). -/
def State.sieveUpdate (s : State) (k : Cmd) (i : Nat) (cs : List Nat) : State :=
  let (a, sh, n) := k.table.place (s.sideSpan k.ctx k.table) i
  let (bs, bad) := s.engRead k.ctx k.table.sp a.toNat n
  match bad with
  | some p => ((s.engTouch k.ctx k.table.sp a.toNat n none).engNote k.ctx k.table.sp bad).report k fun o => o.report 0x020D p
  | none =>
    if (s.engLoc k.ctx k.table.sp a.toNat).dev ≠ s.ownDev.toNat then s.sieveAsk k a.toNat cs
    else
      let old := leNat bs / 2 ^ sh % 2 ^ k.table.sh.width
      let new := sieveElem k.ord (sieveAdd k.table.sh.fmt k.modefp) (fun m => Config.freeNat (s.freeCtr + m)) old cs
      { s.putElem k.ctx k.table i new with freeCtr := s.freeCtr + 4096 }

/-- Adds the contributions of a window to one table row, element by element. -/
def State.sieveAddRow (s : State) (k : Cmd) (r : Nat) (rows : List (List Nat)) : State :=
  (k.table.sh.rowElems r).zipIdx.foldl (fun s e => s.sieveUpdate k e.1 (rows.map fun row => row.getD e.2 0)) s

/-- The update that a window with bad indices makes (R372). -/
def State.sieveReport (s : State) (k : Cmd) (bad : List Nat) : State :=
  match bad with
  | [] => s
  | j :: _ => s.report k fun o => { o.report 0x020B j with result := (o.result + bad.length) % 2 ^ 64 }

/-- One window of a sieve command. -/
def State.sieveUnit (s : State) (k : Cmd) (isp : BitVec 2) : UnitEnd :=
  let (s, xs, bad) := s.sieveIndices k isp
  match bad with
  | some p => (s, memErr p)
  | none =>
    let m := k.table.sh.size 1
    let good := xs.filter fun e => decide (e.2 < m)
    let rows := (good.map (·.2)).dedup
    let wrong := (xs.filter fun e => decide (m ≤ e.2)).map (·.1)
    match k.instr with
    | .sgath .. =>
      let (s, l, bad) := s.getRows k.ctx k.table rows
      match bad with
      | some p => (s, memErr p)
      | none =>
        let zero := List.replicate (k.rowSide.sh.size 0) 0
        let s := xs.foldl (fun s e =>
          s.putElems k.ctx k.rowSide ((k.rowSide.sh.rowElems e.1).zip (if e.2 < m then rowOfList l e.2 else zero))) s
        (s.sieveReport k wrong, none)
    | .sscat .. =>
      let last := rows.map fun r => (r, ((good.filter fun e => e.2 == r).map (·.1)).getLastD 0)
      let (s, l, bad) := s.getRows k.ctx k.rowSide (last.map (·.2))
      match bad with
      | some p => (s, memErr p)
      | none =>
        let s := last.foldl (fun s e => s.putElems k.ctx k.table ((k.table.sh.rowElems e.1).zip (rowOfList l e.2))) s
        (s.sieveReport k wrong, none)
    | _ =>
      let (s, l, bad) := s.getRows k.ctx k.rowSide (good.map (·.1))
      match bad with
      | some p => (s, memErr p)
      | none =>
        let s := rows.foldl (fun s r =>
          s.sieveAddRow k r ((good.filter fun e => e.2 == r).map fun e => rowOfList l e.1)) s
        (s.sieveReport k wrong, none)

/-! ### SISECT (R374) -/

/-- Element `i` of a stream, and whether it is below the one before it. -/
def State.isectRead (s : State) (c : Nat) (d : Side) (i : Nat) : State × Nat × Bool × Option Nat :=
  let (s, v, bad) := s.getElem c d i
  if i = 0 then (s, v, false, bad)
  else
    let (s, u, bad') := s.getElem c d (i - 1)
    (s, v, decide (v < u), bad.or bad')

/-- A merge ends with a report; its count is added in any case. -/
def State.isectStop (s : State) (k : Cmd) (code eadr : Nat) : State :=
  s.endCmd k fun o => { o.report code eadr with result := (o.result + k.w) % 2 ^ 64 }

/-- One step of the merge: it moves on, or stops with a report. -/
def State.isectStep (s : State) (k : Cmd) (emit : Bool) (osp : BitVec 2) : State :=
  let (s, x, downA, badA) := s.isectRead k.ctx k.sideA k.p
  let (s, y, downB, badB) := s.isectRead k.ctx k.sideB k.q
  match badA.or badB with
  | some p => s.isectStop k 0x020D p
  | none =>
    if downA then s.isectStop k 0x020C k.p
    else if downB then s.isectStop k 0x020C (k.q + 2 ^ 63)
    else if x < y then s.setCmd { k with p := k.p + 1 }
    else if y < x then s.setCmd { k with q := k.q + 1 }
    else
      let at' := k.op 0 + 4 * k.w
      match (if emit then s.rangeFault k.ctx osp.toNat at' 4 true else none) with
      | some (code, a) => s.isectStop k code a
      | none =>
        (if emit then s.engStore k.ctx osp.toNat at' (natLe 4 x) else s).setCmd { k with p := k.p + 1, q := k.q + 1, w := k.w + 1 }

/-! ### PRUNE (R375, R376) -/

/-- Whether the first of two values has the larger magnitude: a NaN ranks above every number. -/
def magAbove (f : MemFmt) (mode : BitVec 6) (a b : Nat) : Bool :=
  match f with
  | .int w s => decide ((intValue w s b).natAbs < (intValue w s a).natAbs)
  | f =>
    let x := (f.read mode a).abs
    let y := (f.read mode b).abs
    !y.isNan && (x.isNan || y.lt x)

/-- How many positions of a group stand above position `i`: those of larger magnitude, and earlier ones of the same. -/
def rankIn (f : MemFmt) (mode : BitVec 6) (g : List Nat) (i : Nat) : Nat :=
  (g.zipIdx.filter fun e => magAbove f mode e.1 (g.getD i 0) || (decide (e.2 < i) && !magAbove f mode (g.getD i 0) e.1)).length

/-- The positions that a group keeps, ascending. -/
def keptOf (f : MemFmt) (mode : BitVec 6) (n : Nat) (g : List Nat) : List Nat :=
  (List.range g.length).filter fun i => decide (rankIn f mode g i < n)

/-- A pruned row: its 16 values and its 16 codes. -/
def pruneRow (f : MemFmt) (mode : BitVec 6) (m n : Nat) (row : List Nat) : List Nat × List Nat :=
  let groups := (List.range (16 / max 1 n)).map fun g => (row.drop (m * g)).take m
  (groups.flatMap fun g => (keptOf f mode n g).map fun i => g.getD i 0, groups.flatMap (keptOf f mode n))

/-- Rows of one image, each with its row number. -/
def State.pruneUnit (s : State) (k : Cmd) (msp mc nc : BitVec 2) : UnitEnd :=
  let rows := (List.range (min pruneRows (k.sideB.sh.size 1 - k.p * pruneRows))).map (k.p * pruneRows + ·)
  let (s, l, bad) := s.getRows k.ctx k.sideA rows
  match bad with
  | some p => (s, memErr p)
  | none =>
    let f := (memFmt k.sideA.sh.fmt).getD .scale
    let out := l.map fun e => (e.1, pruneRow f k.modefp (spM mc) (spN nc) e.2)
    let s := out.foldl (fun s e => s.putElems k.ctx k.sideB ((k.sideB.sh.rowElems e.1).zip e.2.1)) s
    let image := natLe 128 (packList 64 (out.map fun e => packList 4 e.2.2))
    (s.engStore k.ctx msp.toNat (k.op 0 + 128 * k.p) image, none)

/-! ### EVICT and PREF (R382) -/

def State.moveUnit (s : State) (k : Cmd) (fsp fa tsp ta : Nat) : UnitEnd :=
  let (s, bs, bad) := s.engLoad k.ctx fsp (fa + moveBytes * k.p) moveBytes
  match bad with
  | some p => (s, memErr p)
  | none => (s.engStore k.ctx tsp (ta + moveBytes * k.p) bs, none)

/-! ### Rings (R377 to R381) -/

/-- A ring control block as it stands: its fields, and whether it breaks R377. -/
structure Ring where
  sp : Nat
  ca : Nat
  head : Nat
  tail : Nat
  resv : Nat
  size : Nat
  data : Nat
  ref : Nat
  puts : Nat
  bad : Bool
  deriving DecidableEq, Repr

def State.ring (s : State) (c : Nat) (fld : Bool) (ca : Nat) : Ring :=
  let sp := if fld then 1 else 0
  let top := if fld then Config.fieldSize else Config.nodeSize
  let v := s.engNat c sp ca 64
  let size := bitsN v 192 32
  let dreg := bitsN v 224 32
  let data := dreg % 2 ^ 23
  let head := bitsN v 0 64
  let tail := bitsN v 64 64
  let resv := bitsN v 128 64
  { sp := sp, ca := ca, head := head, tail := tail, resv := resv, size := size, data := data, ref := bitsN v 256 32,
    puts := bitsN v 288 32,
    bad := decide (ca % 64 ≠ 0) || decide (top < ca + 64) || bitsN v 320 192 != 1 || decide (dreg ≠ data) || decide (size % 8 ≠ 0)
      || decide (size < 16) || decide (2 ^ 20 < size) || decide (data % 8 ≠ 0) || decide (head < tail) || decide (resv < head)
      || decide (size < resv - tail) || decide (top < data + size) }

/-- Writes a field of a control block. -/
def State.ringPut (s : State) (c : Nat) (r : Ring) (off n v : Nat) : State := s.engStore c r.sp (r.ca + off) (natLe n v)
/-- The header of a pad record that fills `n` bytes; its LEN has 16 bits (R378; log 27). -/
def padHeader (n : Nat) : Nat := 2 ^ 63 + (n - 8) % 2 ^ 16

/-- The payload of a message, or the failure of its read. -/
def State.payload (s : State) (c sp a n : Nat) : State × List Byte × Option (Nat × Nat) :=
  if n = 0 then (s, [], none)
  else match s.rangeFault c sp a n false with
    | some e => (s, [], some e)
    | none =>
      let (s, bs, bad) := s.engLoad c sp a n
      (s, bs, match bad with | some p => memErr p | none => none)

/-- RPUT as one atomic step (R380). -/
def State.ringWrite (s : State) (k : Cmd) (r : Ring) (asp : BitVec 2) (type : BitVec 16) : State :=
  let c := k.ctx
  let len := k.op 2
  let t := messageBytes len
  let off := r.resv % r.size
  let room := r.size - off
  let p := if t ≤ room then 0 else room
  if r.size - (r.resv - r.tail) < t + p then
    (s.ringPut c r 32 4 (min 0xFFFFFFFF (r.ref + 1))).failCmd k 0x0104 r.ca
  else
    let s := if 0 < p then s.engStore c r.sp (r.data + off) (natLe 8 (padHeader p)) else s
    let place := r.data + (off + p) % r.size
    let (s, bs, bad) := s.payload c asp.toNat (k.op 1) len
    let s := match bad with
      | some _ => s.engStore c r.sp place (natLe 8 (padHeader t))
      | none =>
        let hdr := len + 2 ^ 16 * type.toNat + 2 ^ 32 * (r.puts % 2 ^ 16)
        s.engStore c r.sp place (natLe 8 hdr ++ bs ++ List.replicate (t - 8 - len) 0)
    let s := ((s.ringPut c r 16 8 (r.resv + p + t)).ringPut c r 0 8 (r.head + p + t)).ringPut c r 36 4 (r.puts + 1)
    match bad with
    | some (code, a) => s.failCmd k code a
    | none => s.endCmd k fun o => o

/-- Skips pad records from `t` on, at most `n` of them (R381). -/
def State.skipPads (s : State) (c : Nat) (r : Ring) : Nat → Nat → Nat
  | 0, t => t
  | n + 1, t =>
    if t < r.head then
      let h := s.engNat c r.sp (r.data + t % r.size) 8
      if h.testBit 63 then s.skipPads c r n (t + h % 2 ^ 16 + 8) else t
    else t

/-- RGET and RPEEK as one atomic step (R381). -/
def State.ringRead (s : State) (k : Cmd) (r : Ring) (asp : BitVec 2) (get : Bool) : State :=
  let c := k.ctx
  let t := s.skipPads c r (r.size / 8 + 1) r.tail
  if r.head ≤ t then
    (if get then s.ringPut c r 8 8 t else s).endCmd k fun o => o.report 0x0001 0
  else
    let at' := r.data + t % r.size
    let h := s.engNat c r.sp at' 8
    let len := h % 2 ^ 16
    let m := min len (k.op 2)
    match (if m = 0 then none else s.rangeFault c asp.toNat (k.op 1) m true) with
    | some (code, a) => s.failCmd k code a
    | none =>
      let (s, bs, bad) := s.engLoad c r.sp (at' + 8) m
      match bad with
      | some p => s.endCmd k fun o => { o.report 0x020D p with result := h }
      | none =>
        let s := s.engStore c asp.toNat (k.op 1) bs
        match s.unreached with
        | some p => { s with unreached := none }.failCmd k 0x020D p
        | none =>
        let s := if get then s.ringPut c r 8 8 (t + messageBytes len) else s
        s.endCmd k fun o => { (if k.op 2 < len then o.report 0x0002 len else o) with result := h }

/-- A ring command: the checks of its control block, then its step. -/
def State.ringStep (s : State) (k : Cmd) : State :=
  let go := fun (fld : Bool) (f : State → Ring → State) =>
    let r := s.ring k.ctx fld (k.op 0)
    if r.bad then s.failCmd k 0x0206 r.ca
    else match (s.engRead k.ctx r.sp r.ca 64).2 with
      | some p => s.failCmd k 0x020D p
      | none => f s r
  match k.instr with
  | .rput _ _ _ fld _ asp _ type => if 65535 < k.op 2 then s.failCmd k 0x0208 0 else go fld fun s r => s.ringWrite k r asp type
  | .rget _ _ _ fld _ asp _ => go fld fun s r => s.ringRead k r asp true
  | .rpeek _ _ _ fld _ asp _ => go fld fun s r => s.ringRead k r asp false
  | _ => s

/-! ### Performing units (R348, R353, R383) -/

/-- One unit of a command that counts units. -/
def State.unit (s : State) (k : Cmd) : UnitEnd :=
  match k.instr with
  | .tcopy .. => s.copyUnit k
  | .tcopyc _ _ _ rm _ => s.convertUnit k rm
  | .tfill .. => (s.putElem k.ctx k.sideB k.p (k.op 0), none)
  | .sgath _ _ _ _ isp => s.sieveUnit k isp
  | .sscat _ _ _ _ isp => s.sieveUnit k isp
  | .sscata _ _ _ _ isp => s.sieveUnit k isp
  | .prune _ _ _ _ msp mc nc => s.pruneUnit k msp mc nc
  | .evict _ _ _ fld _ res _ => s.moveUnit k (if fld then 1 else 0) (k.op 0) (if res then 2 else 3) (k.op 1)
  | .pref _ _ _ fld _ res _ => s.moveUnit k (if res then 2 else 3) (k.op 1) (if fld then 1 else 0) (k.op 0)
  | _ => (s, none)

/-- Virtual addresses of a command's next unit: of its sides, or of an EVICT or PREF. -/
def State.unitAddrs (s : State) (k : Cmd) : List Nat :=
  let sides := (k.sides.filter fun d => d.sp == 3 && d.bnd.isNone).map fun d => (d.place (s.sideSpan k.ctx d) k.p).1.toNat
  let moves := match k.instr with | .evict .. => [k.op 1] | .pref .. => [k.op 1] | _ => []
  sides ++ moves
/-- Whether the next unit of a command needs a link that is down, for which it waits (R468). -/
def State.linkWaits (s : State) (k : Cmd) : Bool :=
  (s.unitAddrs k).any fun a =>
    let dev := (s.engLoc k.ctx 3 a).dev
    dev != s.ownDev.toNat && s.reaches (dieOf k.pan) dev && !s.linkReady (dieOf k.pan) dev

/-- A command whose unit has met a write that does not reach its owner reports it (R468). -/
def State.failUnreached (s : State) (id : Nat) : State :=
  match s.unreached, s.cmd? id with
  | some p, some k => { s with unreached := none }.failCmd k 0x020D p
  | _, _ => s

/-- One unit is performed: its bytes leave the count, but for those of the last unit, which the completing write subtracts. -/
def State.performUnit (s : State) (k : Cmd) : State :=
  match k.instr with
  | .sisect _ emit _ _ _ osp => ({ s with unreached := none }.isectStep k emit osp).failUnreached k.id
  | _ =>
    if isRing k.instr then { s.settleAll with unreached := none }.ringStep k
    else
      let (s, bad) := { s with unreached := none }.unit k
      let (s, bad) := match bad, s.unreached with
        | none, some p => ({ s with unreached := none }, memErr p)
        | _, _ => (s, bad)
      match bad with
      | some (code, a) => s.failCmd k code a
      | none =>
        let n := if k.p + 1 < k.units then k.written (k.p + 1) - k.written k.p else 0
        let s := if n = 0 then s else s.report k fun o => o.less n
        s.setCmd { k with p := k.p + 1, left := k.left - n }

/-- The budget of a field in the window; at least 1 KiB, and no limit where no budget was granted (R383). -/
def State.budgetSpent (s : State) (field : Nat) : Bool :=
  let b := Kv.get 0 s.budgets field
  b != 0 && decide (max 1024 b ≤ Kv.get 0 s.budgetUsed field)

/-- Whether a command asks HBM or a reservoir for anything: a side, a list, a plane, an output, a payload, a group descriptor, or the memory
of an EVICT or PREF (R383). -/
def Cmd.usesMemory (k : Cmd) : Bool :=
  let far := fun (sp : BitVec 2) => decide (2 ≤ sp.toNat)
  (k.sides.any fun d => decide (2 ≤ d.sp)) || (match k.instr with
    | .sgath _ _ _ _ isp => far isp | .sscat _ _ _ _ isp => far isp | .sscata _ _ _ _ isp => far isp
    | .sisect _ emit _ _ _ osp => emit && far osp | .prune _ _ _ _ msp _ _ => far msp
    | .rput _ _ _ _ _ asp _ _ => far asp | .rget _ _ _ _ _ asp _ => far asp | .rpeek _ _ _ _ _ asp _ => far asp
    | .evict .. => true | .pref .. => true | .coll .. => true | _ => false)

/-- Whether a command may perform its next unit now: it runs, its field's budget is not spent if it asks memory for anything, the
link it needs is up, and no replica is locked, for whose end a ring command does not wait but which it brings about (R324, R383). -/
def State.mayPerform (s : State) (k : Cmd) : Bool :=
  k.st == .running && !k.performed && !isColl k.instr && !isChain k.instr && hasEntry k.instr
    && !(k.usesMemory && s.budgetSpent (fieldOf k.pan)) && !s.linkWaits k
    && (isRing k.instr || !(s.accs.any fun a => a.committed && a.locked != []))

/-- Up to `n` units of a command. -/
def State.performUnits (s : State) (id : Nat) : Nat → State
  | 0 => s
  | n + 1 =>
    match s.cmd? id with
    | none => s
    | some k => if s.mayPerform k then (s.performUnit k).performUnits id n else s

/-- ENGINE_WRITE_PERFORMED (R353): a command performs up to as many further units. -/
def execEngineWritePerformed (id units : Nat) (s : State) : Out := .next (s.performUnits id units)

/-! ### Merge groups (R460, R461) -/

/-- The source number by which members of a group are ordered: pan numbers count 16·field + pan (R461). -/
def sourceOf (ctx : Nat) : Nat := 8 * (panOf ctx % 96) + ctx % 8

/-- The operation of an access that may join a group, with its flush bits where they matter (R460). -/
def AccKind.merges : AccKind → Option (AmoOp × Bool × Bool)
  | .amo op _ fin fres ord =>
    match op with
    | .swap => none
    | .fadd => if ord then none else some (op, fin, fres)
    | _ => some (op, false, false)
  | _ => none

/-- The operation and size of the element updates of an SSCATA in plain form (R372, R460). -/
def Cmd.merges (k : Cmd) : Option (AmoOp × Bool × Bool) :=
  match k.instr with
  | .sscata h _ _ _ _ =>
    if h.rel then none
    else if k.table.sh.fmt = 0x0A then (if k.ord then none else some (.fadd, modeBit k.modefp 0, modeBit k.modefp 1))
    else some (.add, false, false)
  | _ => none

/-- Places of the table elements that the next window of a sieve command names. -/
def State.sievePlaces (s : State) (k : Cmd) : List Loc :=
  match k.instr with
  | .sscata _ _ _ _ isp =>
    let (_, xs, _) := s.sieveIndices k isp
    let rows := ((xs.filter fun e => decide (e.2 < k.table.sh.size 1)).map (·.2)).dedup
    (rows.flatMap k.table.sh.rowElems).map fun i => s.engLoc k.ctx k.table.sp (k.table.place (s.sideSpan k.ctx k.table) i).1.toNat
  | _ => []

/-- What the members of a group share (R460): the F-die, the 8-byte location, the size and the operation. -/
structure GroupKey where
  die : Nat
  loc : Nat
  n : Nat
  op : AmoOp × Bool × Bool
  deriving DecidableEq, Repr

/-- A request that may join a group: its source, its identifier, the cycle of its issue, and what it shares with the others. A command's
update of one element of its window stands for the command. -/
structure Member where
  source : Nat
  id : Nat
  at' : Nat
  cmd : Bool
  keys : List GroupKey
  deriving DecidableEq, Repr

/-- Whether a place lies in the stack of another M-die of the package. -/
def State.acrossDies (s : State) (die : Nat) (l : Loc) : Bool :=
  l.dev == s.ownDev.toNat && !l.rep && (match stackOf l.pa with | some k => k != die | none => false)

/-- An access as a member, when it may join a group with the requests of some identifiers. Its bound of latency has passed (R6), and what
comes before it has been performed or is in the group. -/
def State.memberAcc (s : State) (ids : List Nat) (a : Acc) : Option Member :=
  let die := dieOf (panOf a.ctx)
  match a.kind.merges with
  | some op =>
    if decide (a.issued + Config.minLatency ≤ s.cycle) && s.free (a.deps.filter fun d => !ids.contains d) && !a.acq && !a.rel
        && s.acrossDies die a.loc then
      some ⟨sourceOf a.ctx, a.id, a.issued, false, [⟨die, a.loc.pa / 8, a.n, op⟩]⟩
    else none
  | none => none

/-- A command as a member. -/
def State.memberCmd (s : State) (k : Cmd) : Option Member :=
  let die := dieOf k.pan
  match k.merges with
  | some op =>
    if s.mayPerform k then
      some ⟨sourceOf k.ctx, k.id, s.cycle, true, ((s.sievePlaces k).filter (s.acrossDies die)).map fun l =>
        ⟨die, l.pa / 8, k.table.sh.width / 8, op⟩⟩
    else none
  | none => none

/-- Order of a group's members (R461). -/
def memberLe (a b : Member) : Bool :=
  decide (a.source < b.source) || (a.source == b.source && decide (a.id ≤ b.id))
def insertMember (a : Member) : List Member → List Member
  | [] => [a]
  | b :: r => if memberLe a b then a :: b :: r else b :: insertMember a r
def sortMembers (l : List Member) : List Member := l.foldl (fun r a => insertMember a r) []

/-- Cycles of a group's window, from its first request on, and the members that it takes (R460). -/
def groupWindow : Nat := 32
def groupMax : Nat := 16

/-- What all members of a group share, if they may form one: the accesses reach the controller within the window. An access reaches it a
fixed time after its issue (DESIGN CHOICE, log 61). -/
def groupKey (ms : List Member) : Option GroupKey :=
  let times := (ms.filter fun m => !m.cmd).map (·.at')
  if groupMax < ms.length || times.any (fun t => times.any fun u => decide (t + groupWindow < u)) then none
  else match ms with
    | [] => none
    | m :: r => m.keys.find? fun k => r.all fun o => o.keys.contains k

/-- One member of a group is performed; with poison in the location it lands poisoned data and writes nothing (R392, R461). -/
def State.performMember (bad : Bool) (g : GroupKey) (s : State) (m : Member) : State :=
  match s.acc m.id, s.cmd? m.id with
  | some a, _ =>
    if bad then
      let (t, old, _) := s.serve a
      (t.arrive a old true).dropAcc a.id
    else s.performLocal a
  | none, some k =>
    if bad then
      let ps := (List.range 8).map (8 * g.loc + ·)
      let clean := ps.filter fun p => !Kv.get false s.poison p
      let t := (s.poisonEach ps).performUnit k
      { t with poison := clean.foldl (fun q p => Kv.set false q p false) t.poison }
    else s.performUnit k
  | none, none => s

/-- MERGE_GROUP_SEND (R460, R461): the members, AMO words and updates of SSCATA elements, cross the ring as one access. They are performed
next to one another, in the order of their sources, each landing what the ones before it have made of the location. -/
def execMergeGroupSend (ids : List Nat) (s : State) : Out :=
  let accs := (s.accs.filter fun a => ids.contains a.id).map (s.memberAcc ids)
  let cmds := (s.cmds.filter fun k => ids.contains k.id).map s.memberCmd
  let ms := sortMembers ((accs ++ cmds).filterMap id)
  match (if (accs ++ cmds).all (·.isSome) then groupKey ms else none) with
  | none => .next s
  | some g =>
    let elem := fun (k : Cmd) => (s.sievePlaces k).any fun l => l.pa / 8 == g.loc && (s.poisoned l.pa (k.table.sh.width / 8)).isSome
    let bad := (s.accs.any fun a => ids.contains a.id && (s.poisoned a.loc.pa a.n).isSome) || s.cmds.any fun k => ids.contains k.id && elem k
    .next (ms.foldl (State.performMember bad g) s)

/-- ENGINE_COMPLETE (R339, R348, R351, R366): a command whose accesses are all performed gives its slots over and makes its
completing write; a chain's comes after its last write, or is the report of its failed check, and after everything that comes before
its accesses (R333, R338). A SISECT adds its count. A completion instruction whose update waited makes it. -/
def execEngineComplete (id : Nat) (s : State) : Out :=
  match s.cmd? id with
  | none => .next s
  | some k =>
    if k.st == .running && k.performed && hasEntry k.instr && !isChain k.instr then
      let s := k.sides.foldl (State.endSideSlot k.ctx) s
      match k.instr with
      | .sisect .. => .next (s.endCmd k fun o => { o with result := (o.result + k.w) % 2 ^ 64 })
      | _ => .next (s.endCmd k fun o => o)
    else if isChain k.instr && k.st == .waiting && s.free k.deps then .next (s.failCmd k k.code k.eadr)
    else if isChain k.instr && k.q == 1 && s.free k.deps then .next (s.endCmd k fun o => o)
    else if !hasEntry k.instr && decide (k.ready ≤ s.cycle) && s.free k.deps then .next ((s.doCpl k).dropCmd id)
    else .next s

end Sys2Proof.Machine
end

