-- ==== Sys2Proof/Machine/Rows.lean ====
section
/-! DEFINITION. The integer and floating-point rows (R235 to R242), as the element of the state's site issues them. -/

namespace Sys2Proof.Machine

/-! ### Integer rows (R235) -/

/-- The shift amount of ISHL, ISHR and ISAR. -/
def shAmt (b : BitVec 32) : Nat := b.toNat % 32

def execIadd (d : Dst) (a b : Src) (i : Imm) (s : State) : Out := s.row32 true d (s.src32 a i + s.src32 b i) 1
def execIsub (d : Dst) (a b : Src) (i : Imm) (s : State) : Out := s.row32 true d (s.src32 a i - s.src32 b i) 1
def execImul (d : Dst) (a b : Src) (i : Imm) (s : State) : Out := s.row32 true d (s.src32 a i * s.src32 b i) 2
def execImac (d : Dst) (a b c : Src) (i : Imm) (s : State) : Out :=
  s.row32 true d (s.src32 a i * s.src32 b i + s.src32 c i) 2
def execIand (d : Dst) (a b : Src) (i : Imm) (s : State) : Out := s.row32 true d (s.src32 a i &&& s.src32 b i) 1
def execIor (d : Dst) (a b : Src) (i : Imm) (s : State) : Out := s.row32 true d (s.src32 a i ||| s.src32 b i) 1
def execIxor (d : Dst) (a b : Src) (i : Imm) (s : State) : Out := s.row32 true d (s.src32 a i ^^^ s.src32 b i) 1
def execIshl (d : Dst) (a b : Src) (i : Imm) (s : State) : Out := s.row32 true d (s.src32 a i <<< shAmt (s.src32 b i)) 1
def execIshr (d : Dst) (a b : Src) (i : Imm) (s : State) : Out := s.row32 true d (s.src32 a i >>> shAmt (s.src32 b i)) 1
def execIsar (d : Dst) (a b : Src) (i : Imm) (s : State) : Out :=
  s.row32 true d ((s.src32 a i).sshiftRight (shAmt (s.src32 b i))) 1

/-- Whether the first of two words is smaller, unsigned or signed. -/
def below (u : Bool) (a b : BitVec 32) : Bool := if u then a.ult b else a.slt b

def execImin (u : Bool) (d : Dst) (a b : Src) (i : Imm) (s : State) : Out :=
  let x := s.src32 a i
  let y := s.src32 b i
  s.row32 true d (if below u x y then x else y) 1
def execImax (u : Bool) (d : Dst) (a b : Src) (i : Imm) (s : State) : Out :=
  let x := s.src32 a i
  let y := s.src32 b i
  s.row32 true d (if below u x y then y else x) 1

def icompare (c : ICond) (a b : BitVec 32) : Bool :=
  match c with
  | .eq => a == b | .ne => a != b | .lt => a.slt b | .ge => !a.slt b | .ltu => a.ult b | .geu => !a.ult b
def execIcmp (c : ICond) (d : Dst) (a b : Src) (i : Imm) (s : State) : Out :=
  s.row32 true d (if icompare c (s.src32 a i) (s.src32 b i) then 1 else 0) 1
def execIsel (d : Dst) (a b c : Src) (i : Imm) (s : State) : Out :=
  s.row32 true d (if s.src32 c i != 0 then s.src32 a i else s.src32 b i) 1
def execIabs (d : Dst) (a : Src) (i : Imm) (s : State) : Out :=
  let x := s.src32 a i
  s.row32 true d (if x.slt 0 then -x else x) 1
/-- Leading zeros of a 32-bit number; 32 for zero. -/
def clz32 (x : Nat) : Nat := if x = 0 then 32 else 31 - Nat.log2 x
def execIclz (d : Dst) (a : Src) (i : Imm) (s : State) : Out :=
  s.row32 true d (BitVec.ofNat 32 (clz32 (s.src32 a i).toNat)) 1

/-! ### Floating-point rows (R234, R236): sources by their low bits, results zero-extended -/

/-- A source as a code of a format. -/
def State.fcode (s : State) (f : FloatFmt) (a : Src) : Nat := (s.src32 a noImm).toNat % 2 ^ f.width
/-- The same as a value, under the MODEFP sampled at issue (R194, R196). -/
def State.fval (s : State) (f : FloatFmt) (a : Src) : Val := f.decode s.site.modefp (s.fcode f a)
/-- A row whose result is a value rounded once (R185). -/
def State.frow (s : State) (f : FloatFmt) (rm : RM) (d : Dst) (v : Val) (lat : Nat) : Out :=
  s.row32 false d (BitVec.ofNat 32 (f.encode s.site.modefp rm v)) lat

def execFadd (f : FFmt) (rm : RM) (d : Dst) (a b : Src) (s : State) : Out :=
  s.frow (fmtOf f) rm d ((s.fval (fmtOf f) a).add rm (s.fval (fmtOf f) b)) 3
def execFsub (f : FFmt) (rm : RM) (d : Dst) (a b : Src) (s : State) : Out :=
  s.frow (fmtOf f) rm d ((s.fval (fmtOf f) a).add rm (s.fval (fmtOf f) b).neg) 3
def execFmul (f : FFmt) (rm : RM) (d : Dst) (a b : Src) (s : State) : Out :=
  s.frow (fmtOf f) rm d ((s.fval (fmtOf f) a).mul (s.fval (fmtOf f) b)) 5
def execFfma (f : FFmt) (rm : RM) (d : Dst) (a b c : Src) (s : State) : Out :=
  s.frow (fmtOf f) rm d (((s.fval (fmtOf f) a).mul (s.fval (fmtOf f) b)).add rm (s.fval (fmtOf f) c)) 6
def execFmin (f : FFmt) (d : Dst) (a b : Src) (s : State) : Out :=
  s.frow (fmtOf f) .rne d ((s.fval (fmtOf f) a).min2 (s.fval (fmtOf f) b)) 1
def execFmax (f : FFmt) (d : Dst) (a b : Src) (s : State) : Out :=
  s.frow (fmtOf f) .rne d ((s.fval (fmtOf f) a).max2 (s.fval (fmtOf f) b)) 1
def execFcmp (f : FFmt) (c : FCond) (d : Dst) (a b : Src) (s : State) : Out :=
  s.row32 false d (if fcompare c (s.fval (fmtOf f) a) (s.fval (fmtOf f) b) then 1 else 0) 1
def execFabs (f : FFmt) (d : Dst) (a : Src) (s : State) : Out := s.frow (fmtOf f) .rne d (s.fval (fmtOf f) a).abs 1
def execFrint (f : FFmt) (rm : RM) (d : Dst) (a : Src) (s : State) : Out :=
  s.frow (fmtOf f) rm d ((s.fval (fmtOf f) a).rint rm) 2
def execFexpf (d : Dst) (a : Src) (s : State) : Out := s.frow binary32 .rne d (s.fval binary32 a).expf 6
def execFexpins (rm : RM) (d : Dst) (a b : Src) (s : State) : Out :=
  s.row32 false d (BitVec.ofNat 32 (expins s.site.modefp rm (s.fval binary32 a) (s.fval binary32 b))) 2
def execFrcp (f : FFmt) (rm : RM) (d : Dst) (a : Src) (s : State) : Out :=
  s.frow (fmtOf f) rm d (s.fval (fmtOf f) a).recip 8
def execFrsq (f : FFmt) (rm : RM) (d : Dst) (a : Src) (s : State) : Out :=
  s.frow (fmtOf f) rm d (s.fval (fmtOf f) a).rsqrt 8
/-- FCVT (R241); R234 lists it among no rows that sign-extend to a lane. -/
def execFcvt (rm : RM) (sf df : CvtFmt) (d : Dst) (a : Src) (s : State) : Out :=
  s.row32 false d (BitVec.ofNat 32 (convert (cvtMem sf) (cvtMem df) s.site.modefp rm (s.src32 a noImm).toNat)) 2
def execFclass (f : FFmt) (d : Dst) (a : Src) (s : State) : Out :=
  s.row32 false d (BitVec.ofNat 32 (classMask (fmtOf f) s.site.modefp (s.fcode (fmtOf f) a))) 1
/-- Half `k` of a pair (R242). -/
def State.fhalf (s : State) (f : FloatFmt) (a : Src) (k : Nat) : Val :=
  f.decode s.site.modefp (bitsN (s.src32 a noImm).toNat (16 * k) 16)
def execFdot2 (bf : Bool) (rm : RM) (d : Dst) (a b c : Src) (s : State) : Out :=
  let f := if bf then bfloat16 else binary16
  s.frow binary32 rm d (dot2 rm (s.fhalf f a 0) (s.fhalf f b 0) (s.fhalf f a 1) (s.fhalf f b 1) (s.fval binary32 c)) 6

end Sys2Proof.Machine
end

