-- ==== Sys2Proof/Machine/Chains.lean ====
section
/-! DEFINITION. CHAIN (R266 to R268): its descriptors and their checks, the schedule of its tokens, and the rows that its stages
run. -/

namespace Sys2Proof.Machine

/-! ### Stage descriptors (R266) -/

/-- A stage: its row with the chain's operands at e1, e2 and e3 and its result at e0, the codes of its B and C sources, and the
two constants. -/
structure Stage where
  row : Instr
  b : Nat
  c : Nat
  kb : Nat
  kc : Nat
  deriving DecidableEq, Repr

def stageOps : List Nat := (List.range 32).map (0x80 + ·) ++ [0xA0, 0xAC, 0xAD]

/-- The stage of a 16-byte descriptor that stands at index `j`, unless it is malformed. -/
def stageOf (v j : Nat) : Option Stage :=
  let op := bitsN v 0 8
  let b := bitsN v 32 8
  let c := bitsN v 40 8
  let ent := wRow (BitVec.ofNat 8 op) (BitVec.ofNat 4 (bitsN v 8 4)) (if op = 0xAD then 0x3F else 0) 1
    (if b = 0 ∨ op = 0xAD then 0x7F else 2) (if c = 0 then 0x7F else 3) 0 ⟨BitVec.ofNat 12 (bitsN v 16 12), v.testBit 28⟩
  if !stageOps.contains op || bitsN v 12 4 != 0 || bitsN v 29 3 != 0 || bitsN v 48 16 != 0 || decide (j + 3 ≤ b) || decide (j + 3 ≤ c)
    then none
  else match decodeRow ent with
    | .ok i => some ⟨i, b, c, bitsN v 64 32, bitsN v 96 32⟩
    | .error _ => none

/-- A stage's latency (R267). -/
def Stage.lat (g : Stage) : Nat :=
  match g.row with
  | .bq .. => 34
  | i => ((rowWrites i).headD (.none, 1)).2

def Stage.isBq (g : Stage) : Bool := match g.row with | .bq .. => true | _ => false
/-- Rows that a chain takes at a token interval of 3 or more only. -/
def Stage.isSlow (g : Stage) : Bool := match g.row with | .fmul .. => true | .ffma .. => true | .fdot2 .. => true | _ => false

/-- The descriptors of a chain, read when it is accepted, as pairs of words. -/
def State.chainDescs (s : State) (k : Cmd) : List Word :=
  let w := chainWord k.instr
  (List.range (2 * w.n)).map fun j => BitVec.ofNat 64 (s.engNat k.ctx 0 (w.desc + 8 * j) 8)

/-- The stages of a chain from its descriptors; a malformed one ends the list. -/
def stagesFrom : Nat → List Word → List Stage
  | j, a :: b :: r =>
    match stageOf (a.toNat + 2 ^ 64 * b.toNat) j with
    | some g => g :: stagesFrom (j + 1) r
    | none => []
  | _, _ => []
def Cmd.stages (k : Cmd) : List Stage := stagesFrom 0 k.ops

/-- Σ of λ + 1 over the stages before `j` (R267). -/
def stagesBefore (gs : List Stage) (j : Nat) : Nat := (gs.take j).foldl (fun t g => t + g.lat + 1) 0
/-- The kernel cycle in which token `t` enters stage `j` (R267). -/
def Cmd.enters (k : Cmd) (gs : List Stage) (j t : Nat) : Nat :=
  k.kc + 3 + (chainWord k.instr).start + t * (chainWord k.instr).tau + stagesBefore gs j

/-- Kernel cycles by which a stage's B or C operand waits for it; nothing for a constant (R267). -/
def operandDelay (gs : List Stage) (j code : Nat) : Nat :=
  if code < 2 then 0
  else if code = 2 then stagesBefore gs j
  else stagesBefore gs j - (stagesBefore gs (code - 3) + ((gs.map Stage.lat).getD (code - 3) 0))

/-- Whether an element of a chain's row holds rows of a resident block, active or loaded, on an overlapping mask (R160, R266). -/
def State.chainClash (s : State) (pan : Nat) (w : ChainWord) : Bool :=
  (s.residents pan).any fun r => r.1 &&& w.mask != 0
    && (List.range w.n).any fun x => r.2.2.indices.any fun j => r.2.2.rowAt (16 * w.y + x) j != .rnop

/-- The checks of R266 after those of R365: code and EADR. -/
def State.chainFault (s : State) (k : Cmd) : Option (Nat × Nat) :=
  let w := chainWord k.instr
  let gs := { k with ops := s.chainDescs k }.stages
  let bad := some (0x0205, w.desc)
  if w.desc % 16 ≠ 0 ∨ Config.nodeSize < w.desc + 16 * w.n ∨ gs.length < w.n then bad
  else if (gs.dropLast.any Stage.isBq) || (decide (w.tau < 3) && gs.any Stage.isSlow) || w.mask &&& ~~~(s.ctx k.ctx).slots != 0 then bad
  else if (gs.zipIdx.any fun g => decide (255 < operandDelay gs g.2 g.1.b) || decide (255 < operandDelay gs g.2 g.1.c)) then bad
  else if s.chainClash k.pan w
      || (s.cmds.any fun j => j.id != k.id && j.pan == k.pan && isChain j.instr && j.w == 1 && (chainWord j.instr).y == w.y) then
    some (0x020E, 0)
  else match gs.getLast? with
    | some g => if g.isBq then s.rangeFault k.ctx 0 g.kb (k.sideB.sh.count / 32) true else none
    | none => none

/-- CHAIN (R266, R267): its tokens count their kernel cycles from the one of its issue. Its object counts the bytes of the output and,
when its last stage is a BQ, the scale bytes. -/
def execChain (h : EngHdr) (start : BitVec 24) (desc : BitVec 20) (m : BitVec 8) (y : BitVec 4) (n1 : BitVec 3) (tau1 : BitVec 2)
    (s : State) : Out :=
  s.issueCmd h.rc [h.ha, h.hb] fun s =>
    let a := s.self.shape h.ha
    let b := s.self.shape h.hb
    let last := s.engNat s.cur 0 (desc.toNat + 16 * n1.toNat) 1
    let scales := if last = 0xAD then (shapeOf b).count / 32 else 0
    { s.newCmd (.chain h start desc m y n1 tau1) h.rc h.rel a b [] ((shapeOf b).bytes + scales) with ready := s.cycle, kc := s.kc s.pan m }

/-! ### The rows of stages -/

/-- A stage's row as an element runs it. -/
def stageRow (i : Instr) (s : State) : Out :=
  match i with
  | .iadd d a b m => execIadd d a b m s | .isub d a b m => execIsub d a b m s
  | .imul d a b m => execImul d a b m s | .imac d a b c m => execImac d a b c m s
  | .iand d a b m => execIand d a b m s | .ior d a b m => execIor d a b m s | .ixor d a b m => execIxor d a b m s
  | .ishl d a b m => execIshl d a b m s | .ishr d a b m => execIshr d a b m s | .isar d a b m => execIsar d a b m s
  | .imin u d a b m => execImin u d a b m s | .imax u d a b m => execImax u d a b m s
  | .icmp c d a b m => execIcmp c d a b m s | .isel d a b c m => execIsel d a b c m s
  | .iabs d a m => execIabs d a m s | .iclz d a m => execIclz d a m s
  | .fadd f rm d a b => execFadd f rm d a b s | .fsub f rm d a b => execFsub f rm d a b s
  | .fmul f rm d a b => execFmul f rm d a b s | .ffma f rm d a b c => execFfma f rm d a b c s
  | .fmin f d a b => execFmin f d a b s | .fmax f d a b => execFmax f d a b s
  | .fcmp f c d a b => execFcmp f c d a b s | .fabs f d a => execFabs f d a s
  | .frint f rm d a => execFrint f rm d a s | .fexpf d a => execFexpf d a s
  | .fexpins rm d a b => execFexpins rm d a b s | .frcp f rm d a => execFrcp f rm d a s
  | .frsq f rm d a => execFrsq f rm d a s | .fcvt rm sf df d a => execFcvt rm sf df d a s
  | .fclass f d a => execFclass f d a s | .fdot2 bf rm d a b c => execFdot2 bf rm d a b c s
  | .mov w l d a m => execMov w l d a m s | .rq u r sh wd d x m b => execRq u r sh wd d x m b s
  | _ => .next s

/-- What a row gives for its operands under a MODEFP: an element of its own runs it. -/
def stageValue (i : Instr) (mode : BitVec 6) (a b c : Nat) : Nat :=
  let e : Elem := { e := Kv.set 0 (Kv.set 0 (Kv.set 0 [] 1 (BitVec.ofNat 32 a)) 2 (BitVec.ofNat 32 b)) 3 (BitVec.ofNat 32 c) }
  let s0 : State := {}
  match stageRow i ({ s0 with site := { modefp := mode } }.setElem 0 0 e) with
  | .next t =>
    match (t.elem 0 0).flight with
    | f :: _ => (match f.val with | .bits v => v.toNat % 2 ^ 32 | _ => 0)
    | _ => 0
  | _ => 0

/-! ### Tokens (R267, R268) -/

/-- A token's values: the chain input, then the outputs of its stages. -/
def Cmd.token (k : Cmd) (t : Nat) : List Nat := ((k.toks.find? fun e => e.1 == t).map (·.2)).getD []
def Cmd.setToken (k : Cmd) (t : Nat) (vs : List Nat) : Cmd := { k with toks := (k.toks.filter fun e => e.1 != t) ++ [(t, vs)] }
def Cmd.dropTokens (k : Cmd) (lo n : Nat) : Cmd := { k with toks := k.toks.filter fun e => decide (e.1 < lo) || decide (lo + n ≤ e.1) }

/-- An input element widened to 32 bits by its format. -/
def widen (fmt v : Nat) : Nat :=
  match memFmt fmt with
  | some (.int w true) => wrapN (sextN v w) 32
  | _ => v

/-- The buffer of the first empty slot of a binding of a running block that holds one of the bytes of an input (R268). -/
def State.emptyInput (s : State) (pan a n : Nat) : Option Nat :=
  s.active.findSome? fun e =>
    if e.1 / 256 = pan && e.2.live then
      e.2.nodeB.findSome? fun b =>
        let c := s.nodeEntry (128 * pan + b.1)
        let lo := 65536 * (b.1 / 8) + c.base
        if (List.range c.depth).any fun j => decide (lo + j * c.size < a + n) && decide (a < lo + (j + 1) * c.size) && !(c.slot j).full
        then some (b.1 % 8) else none
    else none

/-- An operand of a stage for a token. -/
def operandOf (vs : List Nat) (code k : Nat) : Nat := match code with | 0 => 0 | 1 => k | n => vs.getD (n - 2) 0

/-- The write of a token's result at its element of the output; `last` says that it ends the chain. -/
def Cmd.chainWrite (k : Cmd) (due t v : Nat) (last : Bool) : UnitWrite :=
  let b := k.sideB.sh
  let w := b.width
  { pan := k.pan, mask := (chainWord k.instr).mask, due := due, unit := 3, ord := 0, key := k.id, stream := false,
    slot := (t + 1) * w / 8 - t * w / 8, off := (b.pos t).toNat, bytes := natLe 4 v, adv := last, skey := w, sbyte := 0 }

/-- A token enters the BQ stage `j`; the last of 32 forms the block three kernel cycles later (R265). The code of token `t` is written in
kernel cycle a(j, t) + 35, one after its result has landed (R267), and the scale byte one after the block is formed. With a token
interval above 1 a token's result cannot land before its block is formed; it is then written one kernel cycle after that (DEDUCED,
log 59). Tokens of a partial last block are dropped, as at a flip (R265); the chain ends with its last full block. -/
def State.chainBlock (s : State) (k : Cmd) (g : Stage) (fin : FFmt) (fout : BitVec 3) (j t : Nat) (vs : List Nat) (due : Nat) : State :=
  let k := k.setToken t (vs ++ [(s.modeOf k.ctx).toNat])
  let gs := k.stages
  let n := k.sideB.sh.count
  let full := n / 32 * 32
  if t % 32 ≠ 31 then s.setCmd (if t + 1 = n then { k.dropTokens full 32 with q := if full = 0 then 1 else k.q } else k)
  else
    let lo := t - 31
    let f := fmtOf fin
    let n := vs.length
    let vals := (List.range 32).map fun i =>
      let u := k.token (lo + i)
      f.decode (BitVec.ofNat 6 (u.getD n 0)) (u.getD (n - 1) 0 % 2 ^ f.width)
    let (x, cs) := quantise (bqFmt fout) (s.modeOf k.ctx) vals
    let scale : UnitWrite :=
      { pan := k.pan, mask := (chainWord k.instr).mask, due := due + 4, unit := 3, ord := 0, key := k.id, stream := false, slot := 1,
        off := 8 * (g.kb + t / 32), bytes := natLe 1 x, adv := false, skey := 8, sbyte := 0 }
    let ws := cs.zipIdx.map fun e =>
      k.chainWrite (max (k.enters gs j (lo + e.2) + 35) (due + 4)) (lo + e.2) e.1 (decide (lo + e.2 + 1 = full))
    { s with writes := s.writes ++ scale :: ws }.setCmd (k.dropTokens lo 32)

/-- A token goes through the stages that it enters by now. -/
def State.tokenStages (s : State) (id t : Nat) (gs : List Stage) : Nat → State
  | 0 => s
  | n + 1 =>
    match s.cmd? id with
    | none => s
    | some k =>
      let vs := k.token t
      let j := vs.length - 1
      match gs[j]? with
      | none => s
      | some g =>
        let due := k.enters gs j t
        if vs = [] ∨ s.kc k.pan (chainWord k.instr).mask < due then s
        else match g.row with
          | .bq fin fout _ _ _ => s.chainBlock k g fin fout j t vs due
          | i =>
            let v := stageValue i (s.modeOf k.ctx) (vs.getD j 0) (operandOf vs g.b g.kb) (operandOf vs g.c g.kc)
            if j + 1 = gs.length then
              { s with writes := s.writes ++ [k.chainWrite (due + g.lat + 1) t v (decide (t + 1 = k.sideB.sh.count))] }.setCmd (k.dropTokens t 1)
            else (s.setCmd (k.setToken t (vs ++ [v]))).tokenStages id t gs n

/-- A token is read from its place in node space, or the fault of its read is recorded (R268, R392). -/
def State.tokenRead (s : State) (k : Cmd) (t : Nat) : State :=
  let w := chainWord k.instr
  let (a, sh, n) := k.sideA.place ⟨0, 0, 0, 0⟩ t
  match s.emptyInput k.pan a.toNat n with
  | some b => s.blockFault 0x07 0 w.y 0 4 b 0 4 0 0
  | none =>
    let p := nodeBase k.pan + a.toNat
    match s.poisoned p n with
    | some q => s.blockFault 0x12 0 w.y 0 0 0 0 4 q 0
    | none =>
      let v := s.readNat p n / 2 ^ sh % 2 ^ k.sideA.sh.width
      s.setCmd { k.setToken t [widen k.sideA.sh.fmt v] with p := k.p + 1 }

/-- Whether a token of a running chain enters a stage in this kernel cycle. -/
def State.tokenDue (s : State) (k : Cmd) (t : Nat) : Bool :=
  let gs := k.stages
  let now := s.kc k.pan (chainWord k.instr).mask
  isChain k.instr && k.st == .running && decide (t < k.sideA.sh.count)
    && (if t = k.p then decide (k.enters gs 0 t ≤ now)
        else (k.token t != []) && decide ((k.token t).length ≤ gs.length) && decide (k.enters gs ((k.token t).length - 1) t ≤ now))

/-- CHAIN_TOKEN (R267, R268): token `t` of a chain enters the stages that are due. -/
def execChainToken (id t : Nat) (s : State) : Out :=
  match s.cmd? id with
  | none => .next s
  | some k =>
    if s.tokenDue k t then
      let s := if t = k.p then s.tokenRead k t else s
      .next (s.tokenStages id t (k.stages) 9)
    else .next s

end Sys2Proof.Machine
end

