-- ==== Sys2Proof/Machine/Coll.lean ====
section
/-! DEFINITION. COLL (R470 to R476) and the acceptance of every engine command (R348, R365). -/

namespace Sys2Proof.Machine

/-! ### The group of a COLL (R471) -/

/-- A group descriptor: the group, the number of participants, and the caller's rank. -/
structure Group where
  gid : Nat
  p : Nat
  r : Nat
  deriving DecidableEq, Repr

/-- A descriptor, unless it is malformed. -/
def groupOf (v : Nat) : Option Group :=
  let p := bitsN v 32 6 + 1
  let r := bitsN v 40 6
  if bitsN v 38 2 ≠ 0 ∨ bitsN v 46 2 ≠ 0 ∨ bitsN v 48 464 ≠ 0 ∨ p < 2 ∨ p ≤ r then none else some ⟨bitsN v 0 32, p, r⟩

/-- Endpoints that a device holds (R471). -/
def maxEndpoints : Nat := 256

/-- The endpoint of a command's group, if it is open. -/
def State.endpoint? (s : State) (tenant : BitVec 16) (g : Group) : Option Endpoint :=
  s.endpoints.find? fun e => e.tenant == tenant && e.gid.toNat == g.gid && e.rank.toNat == g.r

/-- Where a COLL stands once its descriptor has been read: its group in `q` and `w`. -/
def Cmd.group? (k : Cmd) : Group := ⟨k.q, k.w / 64 + 1, k.w % 64⟩

/-! ### Headers (R472) -/

/-- Element counts that R473 asks for. -/
def Cmd.collCounts (k : Cmd) (kind : CollKind) : Bool :=
  let a := k.sideA.sh.count
  let b := k.sideB.sh.count
  match kind with
  | .ar => b == a
  | .ag => b == k.group?.p * a
  | .rs => a == k.group?.p * b

/-- The flush bits of MODEFP for the class of a format, the input bit at 0 and the result bit at 1; none for a format of no class (R193). -/
def flushBits (fmt : Nat) (mode : BitVec 6) : BitVec 2 :=
  match memFmt fmt with
  | some (.flt f) => BitVec.ofBool (modeBit mode f.outBit) ++ BitVec.ofBool (modeBit mode f.inBit)
  | _ => 0

/-- What a participant says of its command, all sampled at issue; it has failed when its own checks fail, counts that break the table of
R473 among them. -/
def Cmd.collHeader (k : Cmd) (kind : CollKind) (op : CollOp) : CollHeader :=
  ⟨kind, op, BitVec.ofNat 5 k.sideA.sh.fmt, k.sideA.sh.count, k.ord, flushBits k.sideA.sh.fmt k.modefp,
    decide (k.code ≠ 0) || !k.collCounts kind⟩
/-- Its bytes in a flit (log 34). -/
def collHeaderBytes (h : CollHeader) : List Byte :=
  natLe 1 (collKindCode h.kind).toNat ++ natLe 1 (collOpCode h.op).toNat ++ natLe 1 h.fmt.toNat
    ++ natLe 1 (h.flush.toNat + (if h.ord then 4 else 0) + (if h.failed then 8 else 0)) ++ natLe 8 h.count

/-- Which COLL of its endpoint a command is: those before it that wait for their headers count too (R472). -/
def State.collIndex (s : State) (k : Cmd) : Nat :=
  let x := s.ctx k.ctx
  let before := s.cmds.filter fun j => isColl j.instr && j.st == .waiting && decide (j.id < k.id) && j.group?.gid == k.group?.gid
    && j.group?.r == k.group?.r && (s.ctx j.ctx).tenant == x.tenant
  ((s.endpoint? x.tenant k.group?).map (·.k)).getD 0 + before.length

/-- The device that the directory names for an endpoint (R471). -/
def State.deviceOf (s : State) (tenant : BitVec 16) (gid : BitVec 32) (rank : BitVec 6) : Option (BitVec 12) :=
  (s.directory.find? fun e => e.1 == tenant && e.2.1 == gid && e.2.2.1 == rank).map (·.2.2.2)

/-- A collective flit leaves for a device, over the first M-die with a link for it (R466); while there is none it waits. -/
def State.sendColl (s : State) (dev : BitVec 12) (f : Flit) : State :=
  match ((List.range 8).filterMap fun m => s.linkTo m dev.toNat).head? with
  | some link => s.sendFlit link { f with dst := dev }
  | none => { s with returned := s.returned ++ [f] }

/-- The header of a command goes to the endpoint of rank `j`: one on this device has it as an event, and the flit to one that the directory
does not name waits for it (R471, R472). -/
def State.sendHeader (s : State) (k : Cmd) (h : CollHeader) (j : Nat) : State :=
  let tenant := (s.ctx k.ctx).tenant
  let gid := BitVec.ofNat 32 k.group?.gid
  let rank := BitVec.ofNat 6 j
  let f := flitOf flitCollective 2 s.ownDev s.ownDev tenant
    (natLe 4 k.group?.gid ++ natLe 1 j ++ natLe 1 k.group?.r ++ natLe 8 (s.collIndex k) ++ collHeaderBytes h)
  if s.endpoints.any fun e => e.tenant == tenant && e.gid == gid && e.rank == rank then s
  else match s.deviceOf tenant gid rank with
    | some dev => if dev = s.ownDev then s else s.sendColl dev f
    | none => { s with returned := s.returned ++ [f] }

/-- Every other participant is sent the header. -/
def State.sendHeaders (s : State) (k : Cmd) : State :=
  match k.instr with
  | .coll _ kind op _ _ _ => ((List.range k.group?.p).filter (· ≠ k.group?.r)).foldl (fun t j => t.sendHeader k (k.collHeader kind op) j) s
  | _ => s

/-- The acceptance of a COLL: the descriptor is read, its endpoint opened, and its header sent; other defects wait for the headers (R472). -/
def State.acceptColl (s : State) (k : Cmd) : State :=
  let s := s.settleAll
  let a := k.op 0
  match (if a % 64 ≠ 0 then some (0x0210, a) else s.rangeFault k.ctx 3 a 64 false) with
  | some (code, e) => s.failCmd k code e
  | none =>
    let (s, bs, bad) := s.engLoad k.ctx 3 a 64
    match bad with
    | some p => s.failCmd k 0x020D p
    | none =>
      match groupOf (leNat bs) with
      | none => s.failCmd k 0x0210 a
      | some g =>
        let x := s.ctx k.ctx
        let known := (s.endpoint? x.tenant g).isSome
        if !known && decide (maxEndpoints ≤ s.endpoints.length) then s.failCmd k 0x0210 a
        else
          let s := if known then s
            else { s with endpoints := s.endpoints ++ [⟨x.tenant, BitVec.ofNat 32 g.gid, BitVec.ofNat 6 g.r, x.ref, 0⟩] }
          let (code, e) := (s.cmdFault k).getD (0, 0)
          let k := { k with st := .waiting, q := g.gid, w := 64 * (g.p - 1) + g.r, code := code, eadr := e }
          (s.sendHeaders k).setCmd k

/-! ### Acceptance (R348, R365, R366) -/

/-- Whether an earlier COLL of the same context is still to be accepted: an endpoint counts them in the order of issue. -/
def State.collBefore (s : State) (k : Cmd) : Bool :=
  isColl k.instr && s.cmds.any fun j => j.ctx == k.ctx && isColl j.instr && j.st == .issued && decide (j.id < k.id)

/-- A command fails; a chain, which is accepted at a fixed time, writes its object once everything that comes before the write has been
performed (R333, R338). -/
def State.failOrWait (s : State) (k : Cmd) (code e : Nat) : State :=
  if s.free k.deps then s.failCmd k code e else s.setCmd { k with st := .waiting, code := code, eadr := e }

/-- An engine accepts a command: it fails at its first defect, waits for its bindings, or runs. -/
def State.accept (s : State) (k : Cmd) : State :=
  if isColl k.instr then s.acceptColl k
  else match s.cmdFault k with
    | some (code, e) => s.failOrWait k code e
    | none =>
      if isChain k.instr then
        match s.chainFault k with
        | some (code, e) => s.failOrWait k code e
        | none => s.setCmd { k with st := .running, w := 1, ops := s.chainDescs k }
      else if k.sides.any fun d => d.bnd.isSome then s.setCmd { k with st := .waiting }
      else s.setCmd { k with st := .running }

/-- ENGINE_ACCEPT (R348, R365): once what comes before its accesses has been performed; a chain's time is fixed (R267). A COLL reads its
group descriptor then, within the budget of its field (R383). -/
def execEngineAccept (id : Nat) (s : State) : Out :=
  match s.cmd? id with
  | none => .next s
  | some k =>
    if k.st == .issued && hasEntry k.instr && decide (k.ready ≤ s.cycle) && (isChain k.instr || s.free k.deps) && !s.collBefore k
        && !(isColl k.instr && s.budgetSpent (fieldOf k.pan)) then
      .next (s.accept { k with started := true })
    else .next s

/-! ### The result of a COLL (R472 to R475) -/

/-- `a ⊕ b` in a format (R473). -/
def collOp (op : CollOp) (fmt : Nat) (mode : BitVec 6) (a b : Nat) : Nat :=
  match memFmt fmt with
  | some (.flt f) =>
    let x := f.decode mode a
    let y := f.decode mode b
    f.encode mode .rne (match op with | .min => x.min2 y | .max => x.max2 y | _ => x.add .rne y)
  | some (.int w s) =>
    match op with
    | .add => (a + b) % 2 ^ w
    | .min => if intValue w s a < intValue w s b then a else b
    | .max => if intValue w s a < intValue w s b then b else a
    | .and => a &&& b
    | .or => a ||| b
    | .xor => a ^^^ b
  | _ => a

/-- The sum of one element over the ranks: in rank order, or for a float sum with ORD = 0 in an order that free values pick,
the same at every participant (R473, R474). -/
def collSum (k : Cmd) (op : CollOp) (fmt i count : Nat) (vs : List Nat) : Nat :=
  let f := collOp op fmt k.modefp
  if k.ord || !(op == .add && isWide fmt) then
    match vs with
    | [] => 0
    | v :: r => r.foldl f v
  else
    let key := 2 ^ 192 + ((k.q * 2 ^ 64 + count) * 2 ^ 64 + i) * 2 ^ 10
    freeSum f (fun m => Config.freeNat (key + m)) (vs.length - 1) vs

/-- Element `i` of B, from the sources of the ranks (R473). -/
def collElem (k : Cmd) (kind : CollKind) (op : CollOp) (count : Nat) (srcs : List (List Nat)) (i : Nat) : Nat :=
  let na := k.sideA.sh.count
  let nb := k.sideB.sh.count
  let at' := fun (j : Nat) => srcs.map fun v => v.getD j 0
  match kind with
  | .ar => collSum k op k.sideA.sh.fmt i count (at' i)
  | .ag => (srcs.getD (i / na) []).getD (i % na) 0
  | .rs => collSum k op k.sideA.sh.fmt (k.group?.r * nb + i) count (at' (k.group?.r * nb + i))

/-- What the command's endpoint has matched: its count advances. -/
def State.advanceEndpoint (s : State) (tenant : BitVec 16) (g : Group) : State :=
  { s with endpoints := s.endpoints.map fun e =>
      if e.tenant == tenant && e.gid.toNat == g.gid && e.rank.toNat == g.r then { e with k := e.k + 1 } else e }

/-- The data of a COLL move (R473): this rank's own source is read by its own command; the others' come as bytes. With `full`
every element of B takes its final value, otherwise each keeps its old one or takes it (R475). -/
def State.collRun (s : State) (k : Cmd) (kind : CollKind) (op : CollOp) (count peer : Nat) (full : Bool) (data : List (List Byte)) :
    State :=
  let s := { s.settleAll with unreached := none }
  let a := k.sideA
  let (s, mine, bad) := s.getElems k.ctx a (List.range a.sh.count)
  match bad with
  | some p => s.failCmd k 0x020D p
  | none =>
    let srcs := (List.range k.group?.p).map fun j =>
      if j = k.group?.r then mine
      else (List.range a.sh.count).map fun i => packedAt (leNat (data.getD j [])) i a.sh.width
    let idx := (List.range k.sideB.sh.count).filter fun i => full || Config.freeNat (s.freeCtr + i) % 2 == 0
    let s := s.putElems k.ctx k.sideB (idx.map fun i => (i, collElem k kind op count srcs i))
    match s.unreached with
    | some p => { s with unreached := none }.failCmd k 0x020D p
    | none =>
      if full then s.setCmd { k with st := .running, p := 1 }
      else { s with freeCtr := s.freeCtr + k.sideB.sh.count }.failCmd k 0x0212 peer

/-- The first rank whose header says that it has failed or differs from that of rank 0 (R472, R475). -/
def firstDisagreeing (hs : List CollHeader) : Option Nat :=
  hs.findIdx? fun h => h.failed || some h != hs.head?

/-- COLL_HEADER_MATCH (R472, R473, R475): the headers of the other ranks have arrived, or a rank whose header is missing has been lost
(0x0212). Participants that disagree report 0x0211 with the first rank that does, after the code of their own checks; the others exchange
their data once the field's budget allows it (R383). With `peer` another rank that peer is lost before that, without `data`, or during it
(0x0212). -/
def execCollHeaderMatch (id : Nat) (headers : List (Option CollHeader)) (peer : Nat) (data : List (List Byte)) (s : State) : Out :=
  match s.cmd? id with
  | none => .next s
  | some k =>
    match k.instr with
    | .coll _ kind op _ _ _ =>
      let x := s.ctx k.ctx
      let g := k.group?
      let count := ((s.endpoint? x.tenant g).map (·.k)).getD 0
      if k.st == .waiting && s.collIndex k == count then
        let all := (List.range g.p).map fun j => if j = g.r then some (k.collHeader kind op) else (headers[j]?).join
        let t := s.advanceEndpoint x.tenant g
        let failed := fun (code eadr : Nat) =>
          Host.Outcome.next (t.endCmd k fun o => (if k.code ≠ 0 then o.report k.code k.eadr else o).report code eadr)
        match all.findIdx? (·.isNone), firstDisagreeing (all.filterMap fun h => h) with
        | some j, _ => failed 0x0212 j
        | none, some j => failed 0x0211 j
        | none, none =>
          let lost := decide (peer < g.p) && peer != g.r
          if lost && data.isEmpty then failed 0x0212 peer
          else if s.budgetSpent (fieldOf k.pan) then
            .next { s with inputs := s.inputs ++ [(s.cycle + 1, .collHeaderMatch id headers peer data)] }
          else .next (t.collRun k kind op count peer (!lost) data)
      else .next s
    | _ => .next s

end Sys2Proof.Machine
end

