-- ==== Sys2Proof/Machine/Paging.lean ====
section
/-! DEFINITION. Launch parameter blocks (R276, R277), page tables (R312, R313), and the extent tables that the task translator
builds and dispatch reads (R314 to R318). -/

namespace Sys2Proof.Machine

/-! ### Launch parameter blocks (R276, R277) -/

/-- An extent descriptor: its slot, base, end and W. -/
structure ExtDesc where
  slot : Nat
  base : Nat
  stop : Nat
  w : Bool
  deriving DecidableEq, Repr

/-- The fields of an LPB. -/
structure Lpb where
  format : Nat
  count : Nat
  prog : Nat
  entry : Nat
  handler : Nat
  pans : Nat
  fields : Nat
  dies : Nat
  slots : Nat
  prio : Nat
  ord : Bool
  tenant : Nat
  spb : Nat
  sps : Nat
  ovfBase : Nat
  ovfStride : Nat
  inbox : Nat
  inslots : Nat
  cpl : Nat
  occ : Nat
  phases : Nat
  ext : List ExtDesc
  /-- a reserved bit is set -/
  rsv : Bool
  deriving DecidableEq, Repr

/-- Bytes and masks of the reserved bits of an LPB: from, count, and the bits of each byte that are reserved. -/
def lpbReserved : List (Nat × Nat × Nat) :=
  [(31, 1, 0xFF), (32, 1, 0xF0), (33, 1, 0xF8), (34, 1, 0xF8), (35, 1, 0xFF), (37, 1, 0xF8), (42, 1, 0xF0), (43, 1, 0xFF), (60, 4, 0xFF),
    (76, 4, 0xFF), (97, 31, 0xFF)]

/-- The used extents of an LPB (R277). -/
def extDescs (v : Nat) : List ExtDesc :=
  (List.range 16).filterMap fun k =>
    let d := bitsN v (1024 + 64 * k) 64
    let base := bitsN d 0 40 * 65536
    let size := bitsN d 40 23 * 65536
    if size = 0 then none else some ⟨k, base, base + size, d.testBit 63⟩

def lpbOf (bs : List Byte) : Lpb :=
  let v := leNat bs
  let f := fun (off n : Nat) => bitsN v (8 * off) (8 * n)
  { format := f 0 4, count := f 4 4, prog := f 8 8, entry := f 16 8, handler := f 24 7, pans := f 32 1 % 16 + 1,
    fields := f 33 1 % 8 + 1, dies := f 34 1 % 8 + 1, slots := f 36 1, prio := f 37 1 % 4, ord := (f 37 1).testBit 2,
    tenant := f 38 2, spb := f 40 4 % 2 ^ 20, sps := f 44 4, ovfBase := f 48 8, ovfStride := f 56 4, inbox := f 64 8, inslots := f 72 4,
    cpl := f 80 8, occ := f 88 8, phases := f 96 1 + 1, ext := extDescs v,
    rsv := lpbReserved.any fun e => (List.range e.2.1).any fun i => f (e.1 + i) 1 &&& e.2.2 != 0 }

/-- Pans of the region (R277). -/
def Lpb.region (l : Lpb) : Nat := l.pans * l.fields * l.dies
/-- Bytes of the inbox (R284). -/
def Lpb.inboxBytes (l : Lpb) : Nat := 64 * (l.inslots + 1)

/-- Whether two used extents overlap or one ends at or above 2^56 (R277). -/
def Lpb.extBad (l : Lpb) : Bool :=
  l.ext.any fun e => decide (2 ^ 56 ≤ e.stop) || l.ext.any fun d => d.slot != e.slot && decide (d.base < e.stop) && decide (e.base < d.stop)

def Task.info (t : Task) : Lpb := lpbOf t.lpb

/-! ### Page tables (R312, R313) -/

/-- A granule as a leaf maps it: its physical address, W, REP, SWZ and device. -/
structure Leaf where
  pa : Nat
  w : Bool
  rep : Bool
  swz : BitVec 4
  dev : Nat
  deriving DecidableEq, Repr

/-- The levels of a walk: lowest address bit, index bits, and whether a leaf may stand there (R312). -/
def walkLevels : List (Nat × Nat × Bool) := [(48, 8, false), (39, 9, false), (30, 9, true), (21, 9, true), (16, 5, true)]

/-- A walk from a table on (R313); a page outside HBM fails (R309). -/
def State.walkFrom (s : State) (va : Nat) : List (Nat × Nat × Bool) → Nat → Option Leaf
  | [], _ => none
  | (lo, n, leafOk) :: rest, table =>
    let a := table + 8 * bitsN va lo n
    let e := s.peekNat a 8
    if 2 ^ 39 ≤ table ∨ (s.poisoned a 8).isSome ∨ !e.testBit 0 then none
    else if e.testBit 1 then
      let page := bitsN e 16 32 * 65536
      if !leafOk || bitsN e 8 8 != 0 || bitsN e 60 4 != 0 || page % 2 ^ lo != 0 || decide (2 ^ 39 ≤ page) then none
      else some ⟨page + va % 2 ^ lo / 65536 * 65536, e.testBit 2, e.testBit 3, BitVec.ofNat 4 (bitsN e 4 4), bitsN e 48 12⟩
    else if rest.isEmpty || bitsN e 2 6 != 0 || bitsN e 48 16 != 0 || (lo != 21 && bitsN e 8 4 != 0) then none
    else s.walkFrom va rest (bitsN e 8 40 * 256)

/-- The granule of a virtual address in a tenant's tables; no table maps an address at or above 2^56 (R312). -/
def State.walk (s : State) (tenant va : Nat) : Option Leaf :=
  if 2 ^ 56 ≤ va then none else s.walkFrom va walkLevels (Kv.get 0 s.tenantRoot tenant)

/-- The entries that a walk reads. -/
def State.walkPath (s : State) (va : Nat) : List (Nat × Nat × Bool) → Nat → List Nat
  | [], _ => []
  | (lo, n, _) :: rest, table =>
    let a := table + 8 * bitsN va lo n
    let e := s.peekNat a 8
    if 2 ^ 39 ≤ table then []
    else if (s.poisoned a 8).isSome ∨ !e.testBit 0 ∨ e.testBit 1 then [a]
    else a :: s.walkPath va rest (bitsN e 8 40 * 256)
/-- What the memory side does at the walks of some addresses (R424, R428): the entries read are scrubbed, and poison among them is logged. -/
def State.touchWalks (s : State) (tenant : Nat) (vas : List Nat) : State :=
  (vas.flatMap fun va => if 2 ^ 56 ≤ va then [] else s.walkPath va walkLevels (Kv.get 0 s.tenantRoot tenant)).foldl (fun s a =>
    let s := s.scrubFor a 8
    match s.poisoned a 8 with | some q => s.logPoison q (cidOf 127) | none => s) s

/-- A granule as a run of the table of a die: a replicated one is read from the die's own replica, and its primary is kept
(R318). -/
def Leaf.run (l : Leaf) (die gi : Nat) : XRun :=
  { voff := gi, len := 1, pa := if l.rep then atStack l.pa die else l.pa, dev := l.dev, swz := l.swz, rep := l.rep,
    prim := if l.rep then bitsN l.pa 36 3 else 0 }

/-- Adds a granule to the runs, the last one first: it continues a run or begins one (R314). -/
def addGranule (g : XRun) : List XRun → List XRun
  | [] => [g]
  | r :: rest =>
    if r.pa + r.len * 65536 = g.pa ∧ r.swz = g.swz ∧ r.rep = g.rep ∧ r.dev = g.dev ∧ r.prim = g.prim then
      { r with len := r.len + 1 } :: rest
    else g :: r :: rest

/-- Most runs of an extent (R315). -/
def maxRuns : Nat := 4096

/-- The runs of an extent on a die, last first, or the first virtual address that fails (R316). -/
def State.buildRuns (s : State) (tenant die : Nat) (d : ExtDesc) : Nat → Except Nat (List XRun)
  | 0 => .ok []
  | n + 1 =>
    match s.buildRuns tenant die d n with
    | .error a => .error a
    | .ok rs =>
      let va := d.base + n * 65536
      match s.walk tenant va with
      | none => .error va
      | some l =>
        let rs' := addGranule (l.run die n) rs
        if (d.w && !l.w) || decide (maxRuns < rs'.length) then .error va else .ok rs'

/-- The extents of a table, or the index and the address of the failure. -/
def State.buildExtents (s : State) (tenant die : Nat) : List ExtDesc → Except (Nat × Nat) (List Extent)
  | [] => .ok []
  | d :: rest =>
    match s.buildRuns tenant die d ((d.stop - d.base) / 65536) with
    | .error a => .error (d.slot, a)
    | .ok rs =>
      match s.buildExtents tenant die rest with
      | .error e => .error e
      | .ok es => .ok ({ slot := d.slot, vbase := d.base, vend := d.stop, w := d.w, runs := rs.reverse } :: es)

/-! ### Extent tables in memory (R315) -/

def runBytes (r : XRun) : List Byte :=
  natLe 4 r.voff ++ natLe 4 r.len ++ natLe 4 (r.pa / 65536) ++ natLe 2 r.dev ++ natLe 1 (r.swz.toNat + (if r.rep then 16 else 0))
    ++ natLe 1 0
def headerBytes (e : Extent) (runs : Nat) : List Byte :=
  natLe 8 e.vbase ++ natLe 8 e.vend ++ natLe 8 runs ++ natLe 2 e.runs.length ++ natLe 1 (1 + (if e.w then 2 else 0)) ++ natLe 5 0

/-- A write by the configuration die to physical memory (R428). -/
def State.physWrite (s : State) (a : Nat) (bs : List Byte) : State := (s.scrubFor a bs.length).writeBytes a bs

/-- Writes a table at its address: all headers zero, then each used one with its run list, the lists following the headers
(log 29). -/
def State.writeTable (s : State) (extp : Nat) (es : List Extent) : State :=
  let s := s.physWrite extp (List.replicate 512 0)
  (es.foldl (fun (p : State × Nat) e =>
    (((p.1.physWrite (extp + 32 * e.slot) (headerBytes e p.2)).physWrite p.2 (e.runs.flatMap runBytes)), p.2 + 16 * e.runs.length))
    (s, extp + 512)).1

/-- Poison that the address generators meet in a table is logged (R424). -/
def State.touchTable (s : State) (extp : Nat) (cid : BitVec 16) : State :=
  match s.poisoned extp 512 with | some q => s.logPoison q cid | none => s
/-- A run entry as the address generators read it. -/
def State.readRun (s : State) (a : Nat) : XRun :=
  let v := s.peekNat a 16
  let pa := bitsN v 64 32 * 65536
  { voff := bitsN v 0 32, len := bitsN v 32 32, pa := pa, dev := bitsN v 96 12, swz := BitVec.ofNat 4 (bitsN v 112 4),
    rep := v.testBit 116, prim := if v.testBit 116 then bitsN pa 36 3 else 0 }

/-- The table at an address as dispatch hands it to the address generators (R288); the primaries of replicated runs are those
that the translator kept for it (R318). It carries the CID of its partition (R418, R419). -/
def State.readTable (s : State) (extp : Nat) (kept : List Extent) (cid : BitVec 16) : List Extent :=
  (List.range 16).filterMap fun k =>
    let v := s.peekNat (extp + 32 * k) 32
    if v.testBit 208 then
      let runs := (List.range (bitsN v 192 16)).map fun i => s.readRun (bitsN v 128 64 + 16 * i)
      let prim := fun (r : XRun) =>
        match (kept.find? fun e => e.slot == k).bind fun e => e.runs.find? fun q => q.voff == r.voff with
        | some q => q.prim
        | none => r.prim
      some { slot := k, vbase := bitsN v 0 64, vend := bitsN v 64 64, w := v.testBit 209, cid := cid
             runs := runs.map fun r => if r.rep then { r with prim := prim r } else r }
    else none

/-- Where a virtual address of a tenant lies now, for what is resolved once: the leaf's own primary and device (R280). -/
def State.resolve (s : State) (tenant va : Nat) : Option XRun := (s.walk tenant va).map fun l => l.run (bitsN l.pa 36 3) 0

end Sys2Proof.Machine
end

