-- ==== Sys2Proof/Machine/Tasks.lean ====
section
/-! DEFINITION. Tasks: LAUNCH and the take of an LPB (R131, R278 to R281), the translator's step (R282, R314 to R316), the slot
table and dispatch (R286 to R291, R303, R497), and how contexts and instances end (R137, R294, R295). -/

namespace Sys2Proof.Machine

/-! ### The end of a task and of an instance (R283, R295) -/

def State.task (s : State) (r : TaskRef) : Task := Kv.get {} s.tasks (taskKey r)
def State.setTask (s : State) (r : TaskRef) (t : Task) : State := { s with tasks := Kv.set {} s.tasks (taskKey r) t }
/-- Whether a task is known and has not exited. -/
def State.taskLive (s : State) (r : TaskRef) : Bool :=
  match s.task? r with | some t => t.state != .exited | none => false
def State.setPart (s : State) (pid : Nat) (p : Part) : State := { s with parts := Kv.set {} s.parts pid p }

/-- Whether a line buffer carries the tag of a task (R325). -/
def LineBuf.of (b : LineBuf) (r : TaskRef) (tenant : BitVec 16) : Bool := b.pid == r.pid && b.task == r.id && b.tenant == tenant

/-- Devices besides this one that hold memory of a task's extents. -/
def State.remoteDevs (s : State) (t : Task) : List Nat :=
  ((t.built.flatMap fun b => b.2.2.flatMap fun e => e.runs.map (·.dev)).filter fun d => d != s.ownDev.toNat).dedup
/-- The owners of its remote memory are told that a task has exited: they close the sums that it has opened (R462, R469; log 34). -/
def State.tellExit (s : State) (r : TaskRef) : State :=
  let t := s.task r
  (s.remoteDevs t).foldl (fun s d =>
    match ((List.range 8).filter fun m => (s.linkTo m d).isSome).head? with
    | some m => s.forward m d t.tenant (requestBytes (.taskExit r.id) 0 0 [])
    | none => s) s

/-- A task exits: it leaves its queue, and what stands for it on the memory side goes (R283, R317, R325, R462, R471). -/
def State.endTask (s : State) (r : TaskRef) : State :=
  let t := s.task r
  let s := (s.tellExit r).setTask r { t with state := .exited, count := 0, built := [] }
  let p := s.part t.pid
  let s := s.setPart t.pid { p with queue := p.queue.filter fun q => q != r.id.toNat }
  { s with lineBufs := s.lineBufs.filter fun b => !b.of r t.tenant, fadds := s.fadds.filter fun f => f.task != r,
           endpoints := s.endpoints.filter fun e => e.task != r }.emit (.taskExit r)

def Task.inst (t : Task) (i : BitVec 24) : Inst := Kv.get {} t.insts i.toNat
def Task.setInst (t : Task) (i : BitVec 24) (x : Inst) : Task := { t with insts := Kv.set {} t.insts i.toNat x }

/-- The records of the slot tables that run an instance as the last one of their range get DONE (R291). -/
def State.markDone (s : State) (r : TaskRef) (i : BitVec 24) : State :=
  { s with slotTab := s.slotTab.map fun e =>
      if e.2.taken && s.owner (fieldOf (e.1 / 16)) == r.pid && e.2.r.task == r.id && e.2.cur == i && e.2.r.ilast == i then (e.1, { e.2 with done := true }) else e }

/-- The state of a task that has not exited (R283): running while some instance of it is bound, swapped out when every instance that
remains has been evicted, and unplaced otherwise. -/
def State.placeOf (s : State) (r : TaskRef) : TaskState :=
  let t := s.task r
  if s.ctxs.any fun e => e.2.run != .free && e.2.ref == r then .running
  else if 0 < t.count ∧ (t.insts.filter fun e => e.2.evicted && !e.2.retired).length = t.count then .swapped else .unplaced
/-- The state of a task follows what has become of its instances. -/
def State.replaceTask (s : State) (r : TaskRef) : State :=
  if (s.task r).state = .exited then s else s.setTask r { s.task r with state := s.placeOf r }

/-- INSTANCE_RETIRE (R295): the object of the task counts down and takes the larger code, and the last instance ends the task. -/
def State.retireInst (s : State) (r : TaskRef) (i : BitVec 24) (code : Nat) : State :=
  let t := s.task r
  if (t.inst i).retired || t.state == .exited then s
  else
    let s := (s.setTask r ({ t with count := t.count - 1 }.setInst i { t.inst i with retired := true, code := code })).markDone r i
    let s := s.updateObj t.pid t.cpl fun o => ({ o with code := max o.code code }).less 1
    if t.count ≤ 1 then s.endTask r else s.replaceTask r

/-- Pans of a context's region (R277), and its dense index there. -/
def Ctx.regionSize (x : Ctx) : Nat := x.pans * x.fields * x.dies
def Ctx.denseIdx (x : Ctx) : Nat := x.ridxPan.toNat + x.pans * (x.ridxField.toNat + x.fields * x.ridxDie.toNat)

/-- The EXIT of a context counts for its instance, which retires with the last one, its code the largest (R295, R498). -/
def State.countExit (s : State) (task : TaskRef) (i : BitVec 24) (r size code : Nat) : State :=
  let t := s.task task
  let n := t.inst i
  let n := { n with exits := Kv.set 0 n.exits r (code + 1), code := max n.code code }
  let s := s.setTask task (t.setInst i n)
  if n.exits.length < size then s.replaceTask task else s.retireInst task i n.code

/-- The record from which a context was taken, while it still stands for it. -/
def recKey (pan idx : Nat) : Nat := 16 * pan + idx
def State.record (s : State) (pan idx : Nat) : SlotRec := Kv.get { r := noRec } s.slotTab (recKey pan idx)
def State.setRecord (s : State) (pan idx : Nat) (r : SlotRec) : State :=
  { s with slotTab := Kv.set { r := noRec } s.slotTab (recKey pan idx) r }

/-- Whether a further instance of a context's range follows (R291). -/
def State.moreInstances (s : State) (c : Nat) : Bool :=
  let x := s.ctx c
  let e := s.record (panOf c) x.recIdx
  e.taken && !e.done && e.r.task == x.task && e.ctx.toNat == c % 8 && e.cur == x.inst && decide (e.cur.toNat < e.r.ilast.toNat)

/-- A context leaves its tide domain, in this cycle (R445). -/
def State.noteLeft (s : State) (c : Nat) : State :=
  let x := s.ctx c
  let t := s.task x.ref
  let n := t.inst x.inst
  if (s.task? x.ref).isNone then s else s.setTask x.ref (t.setInst x.inst { n with left := Kv.set 0 n.left (s.domOf (panOf c)) s.cycle })

/-- The context is free, or waits for the next instance of its range (R291, R295). -/
def State.freeCtx (s : State) (c : Nat) : State :=
  let x := s.ctx c
  let s := s.noteLeft c
  if s.moreInstances c then
    s.setCtx c { ({} : Ctx) with run := .exited, task := x.task, inst := x.inst, tenant := x.tenant, pid := x.pid, slots := x.slots,
                                 recIdx := x.recIdx }
  else s.setCtx c {}

/-- Accesses of a context that may still write memory (R295). -/
def State.writesOf (s : State) (c : Nat) : List Acc :=
  s.accs.filter fun a => a.ctx == c && (a.kind.stores || (match a.kind with | .msg .. => true | _ => false))
/-- Landing-register data still arriving are discarded: reads of a context end. -/
def State.dropReads (s : State) (c : Nat) : State := { s with accs := s.accs.filter fun a => a.ctx != c }

/-- Blocks of a context on a pan are released as they stand: lanes cleared with no check, captured results gone (R294, R295). -/
def State.releaseBlock (s : State) (key : Nat) : State :=
  let pan := keyPan key
  let m := keyMask key
  let s := (s.discardLanes (s.activeBlk pan m).twin pan).endBlock m pan
  let s := s.mapElems pan fun x =>
    { x with ye := x.ye.filter fun y => y.mask != m, flight := x.flight.filter fun f => f.mask != m,
             contrib := x.contrib.filter fun f => f.mask != m }
  { s with tiles := s.tiles.filter fun t => !(t.pan == pan && t.mask == m), writes := s.writes.filter fun w => !(w.pan == pan && w.mask == m) }

/-- Blocks that a context has loaded, their stamped copies among them, go. -/
def State.dropLoaded (s : State) (c : Nat) : State :=
  (Kv.keysWhere (fun _ b => b.live && b.owner == c) s.shadow).foldl (fun s k => s.dropShadow (keyPan k) (keyMask k)) s

/-- Everything that a context holds on its pans is released. -/
def State.releaseAll (s : State) (c : Nat) : State := (((s.runsOf c).foldl State.releaseBlock s).dropLoaded c).abandonBody c

/-! ### EXIT, YIELD and HALT (R137, R294, R295) -/

/-- Whether a block of a context has landed, or a block fault has stopped it (R294). -/
def State.blockQuiet (s : State) (key : Nat) : Bool :=
  let pan := keyPan key
  let m := keyMask key
  (s.runOf pan m).faulted
    || ((s.finished key || s.lastQuiet key) && !s.pendingResults m pan && !s.pendingWrites m pan)

/-- EXIT (R295). Its own context cycle counts in the occupancy table (R296). -/
def execExit (ra : Reg) (s : State) : Out :=
  let x := s.self
  let h := s.holdWith (s.reg ra) 0
  let c := s.cur
  if x.drained && (s.cmds.all fun k => k.ctx != c) && (s.runsOf c).all s.blockQuiet && (s.writesOf c).isEmpty then
    let code := h.val.toNat % 2 ^ 16
    let s := (((s.releaseAll c).setSelf (x.count .issue)).flushOcc c).dropReads c
    .next (((s.leaveQueue c).freeCtx c).countExit x.ref x.inst x.denseIdx x.regionSize code)
  else s.holdOn x h .other

/-- YIELD (R294): with no request pending it answers 0; otherwise the context is handed to firmware, its d already 1 and its pc
beyond the YIELD, as it stands when it is resumed. -/
def execYield (rd : Reg) (s : State) : Out :=
  let x := s.self
  let c := s.cur
  if !x.yreq then s.result rd 0 1
  else if x.drained && (s.runsOf c).all s.blockQuiet then
    let s := (s.setSelf (x.count .issue)).flushOcc c
    let y := s.self
    let s := s.setSelf ({ (y.goNext y.next).setReg rd 1 with hold := none, cyc := y.cyc + 1, tauH := s.tau c + 1 }.landDue (y.cyc + 1))
    .next ((s.haltCtx c (.halted .yield)).emit (.soft c))
  else s.holdOn x s.holdNow .other

/-- A context is reset: its commands end with code 0x020D, its blocks are released without the tile-dirty check (R409), and what it has
issued to memory and is not performed yet is dropped. -/
def State.resetCtx (s : State) (c : Nat) : State :=
  let s := (s.cmds.filter fun k => k.ctx == c).foldl (fun s k => s.takeFree.failCmd k 0x020D (s.freshNat % 2 ^ 64)) s
  let s := (s.releaseAll c).leaveQueue c
  { (s.dropReads c) with holders := s.holders.filter fun h => h.ctx != c }
/-- An instance is ended by firmware or by a kill: a context of it is reset. What it has issued to memory is performed first, before the
object of its task completes (R295). -/
def State.killCtx (s : State) (c : Nat) : State := (s.performIssued c).resetCtx c

/-- The contexts of an instance. -/
def State.ctxsOf (s : State) (r : TaskRef) (i : BitVec 24) : List Nat :=
  Kv.keysWhere (fun _ x => x.run != .free && x.ref == r && x.inst == i) s.ctxs

/-- Ends an instance with code 0xFFFF (R295): its contexts are reset and freed. -/
def State.endInstance (s : State) (r : TaskRef) (i : BitVec 24) : State :=
  let s := (s.ctxsOf r i).foldl (fun s c => (s.killCtx c).freeCtx c) s
  s.retireInst r i 0xFFFF

/-- INSTANCE_END (R295). -/
def execInstanceEnd (task : TaskRef) (inst : BitVec 24) (s : State) : Out :=
  if s.taskLive task && decide (inst.toNat < (s.task task).info.count) then .next (s.endInstance task inst) else .next s

/-- HALT_RESUME (R137): firmware resumes a HALTed context at next, or ends its instance. -/
def execHaltResume (ctx : Nat) (resume : Bool) (s : State) : Out :=
  let x := s.ctx ctx
  if x.run = .stop then
    if resume then .next (s.setCtx ctx { x.goNext x.next with run := .running })
    else .next (s.endInstance x.ref x.inst)
  else .next s

/-! ### The take of an LPB (R279, R280) -/

/-- The next task identifier of a partition from a candidate on: 0 and those of its tasks that have not exited are skipped (R280). -/
def State.taskIdFrom (s : State) (pid : Nat) (id : BitVec 32) : Nat → BitVec 32
  | 0 => id
  | n + 1 => if id = 0 ∨ s.taskLive ⟨pid, id⟩ = true then s.taskIdFrom pid (id + 1) n else id
/-- The last identifier that a partition has assigned. -/
def State.lastTask (s : State) (pid : Nat) : BitVec 32 := (s.part pid).lastTask
def State.nextTaskId (s : State) (pid : Nat) : BitVec 32 := s.taskIdFrom pid (s.lastTask pid + 1) (s.tasks.length + 1)

/-- Where a granule lies: through the tenant's page tables, else through extents at hand, else nowhere on this device (R280). -/
def State.granule (s : State) (tenant : Nat) (x : Ctx) (va : Nat) : XRun :=
  match s.resolve tenant va with
  | some r => r
  | none =>
    match (x.extentOf va).bind fun e => (e.runOf ((va - e.vbase) / 65536)).map fun r => (r, (va - e.vbase) / 65536) with
    | some (r, gi) => { r with voff := 0, len := 1, pa := r.pa + (gi - r.voff) * 65536 }
    | none => ⟨0, 1, 0, 4096, 0, false, 0⟩

/-- The granules of `n` bytes. -/
def State.granules (s : State) (tenant : Nat) (x : Ctx) (va n : Nat) : List XRun :=
  (List.range ((va + n - 1) / 65536 - va / 65536 + 1)).map fun k => s.granule tenant x ((va / 65536 + k) * 65536)

/-- The object at the take (R280). -/
def Obj.init (o : Obj) (count : Nat) : Obj :=
  { o with pend := count, st := 1, err := false, bar := false, exp := 0, arr := 0, code := 0, result := 0, eadr := 0 }

/-- TASK_TAKE (R280, R281, R284): the LPB joins the queue of its partition under the partition's next identifier, the inbox header is written
and the object initialised; with COUNT = 0 the task exits at once. -/
def State.takeTask (s : State) (pid : Nat) (tenant : BitVec 16) (x : Ctx) (bs : List Byte) : State × BitVec 32 :=
  let l := lpbOf bs
  let id := s.nextTaskId pid
  let cpl := (s.granule tenant.toNat x l.cpl).locAt 0 (l.cpl % 65536)
  let t : Task := { pid := pid, tenant := tenant, state := .unplaced, count := l.count, lpb := bs, cpl := cpl,
                    inbox := s.granules tenant.toNat x l.inbox l.inboxBytes, insts := [], built := [], cid := cidOf (BitVec.ofNat 8 pid) }
  let s := s.touchWalks tenant.toNat (l.cpl :: t.inbox.zipIdx.map fun e => (l.inbox / 65536 + e.2) * 65536)
  let s := (s.setTask ⟨pid, id⟩ t).setPart pid { s.part pid with lastTask := id }
  let s := s.writeAt pid (t.inboxLoc 0) (natLe 16 0 ++ natLe 4 l.inslots ++ natLe 44 0)
  let s := s.updateObj pid cpl fun o => o.init l.count
  if l.count = 0 then (s.endTask ⟨pid, id⟩, id)
  else
    let p := s.part pid
    ((s.setPart pid { p with queue := p.queue ++ [id.toNat] }).injectIndex (arrayShared .launchQueue 0) (256 * p.queue.length) 256 t.cid
      (.shared .launchQueue 0), id)

/-- Orders 2 of R279. -/
def Lpb.malformed (l : Lpb) : Bool :=
  l.format != 1 || l.rsv || l.slots == 0 || decide (6 < l.fields) || l.inslots == 0 || decide (65535 < l.inslots) || l.extBad
    || l.prog % 32 != 0 || l.spb % 8 != 0 || l.sps % 8 != 0 || l.ovfBase % 8 != 0 || l.ovfStride % 8 != 0 || l.inbox % 64 != 0
    || l.cpl % 64 != 0 || l.occ % 32 != 0

/-- Dies of a partition that hold at least `n` of its fields (R279, R416). -/
def Part.diesWith (p : Part) (n : Nat) : Nat :=
  ((List.range Config.dies).filter fun d =>
    decide (n ≤ ((List.range Config.fieldsPerDie).filter fun f => p.fset.getLsbD (6 * d + f)).length)).length

/-- Whether an extent of a list holds an address, with W when asked. -/
def Ctx.covers (x : Ctx) (w : Bool) (a : Nat) : Bool := match (if a < 2 ^ 56 then x.extentOf a else none) with | some e => e.w || !w | none => false
/-- Order 4 (R279): the record, then the object, then the inbox header; each lies whole in one granule, and no extent holds an address at
or above 2^56 (R114). -/
def Ctx.launchRange (x : Ctx) (l : Lpb) : Option Nat :=
  if !x.covers false l.prog then some l.prog else if !x.covers true l.cpl then some l.cpl
  else if !x.covers true l.inbox then some l.inbox else none
/-- Order 6. -/
def Lpb.inboxBad (l : Lpb) : Bool :=
  !(l.ext.any fun e => e.w && decide (e.base ≤ l.inbox) && decide (l.inbox + l.inboxBytes ≤ e.stop))

/-- What the checks of R279 find: a fault, a full queue, or nothing. -/
inductive LaunchCheck where
  | fault (cause tval : Nat) | full | take
  deriving DecidableEq, Repr

/-- Orders 2 to 8 of R279, for an LPB at `a` whose launcher has extents, a tenant and a priority. -/
def State.launchCheck (s : State) (x : Ctx) (die pid a : Nat) (bs : List Byte) : LaunchCheck :=
  let l := lpbOf bs
  if l.malformed then .fault 0x01 a
  else if 16777216 < l.count then .fault 0x0B l.count
  else match x.launchRange l with
    | some f => .fault 0x09 f
    | none =>
      match s.readVirt x die l.prog 32 with
      | .range f => .fault 0x09 f
      | .corrupt f => .fault 0x12 f
      | .bytes rec =>
        if (s.part pid).diesWith l.fields < l.dies ∨ Config.textMax < bitsN (leNat rec) 64 32 ∨ Config.nodeSize < l.spb + l.sps then .fault 0x0B a
        else if l.inboxBad then .fault 0x09 l.inbox
        else if l.tenant ≠ x.tenant.toNat ∨ l.prio < x.prio.toNat then .fault 0x10 a
        else if Config.launchQueue ≤ (s.part pid).queue.length ∨ (s.part pid).rst = true then .full
        else .take

/-- What the memory side does as the program record of an LPB is read for order 5 of R279, when the orders before it pass. -/
def State.touchRecord (s : State) (x : Ctx) (by' : Option Nat) (bs : List Byte) : State :=
  let l := lpbOf bs
  if l.malformed || decide (16777216 < l.count) || (x.launchRange l).isSome then s else s.touchVirt x by' l.prog 32

/-- LAUNCH (R131, R278 to R281): a is read as it issues (R97; log 26). Once every earlier result has landed it reads the LPB, as a read
at its place in the order that a release has (R340), and is answered. -/
def execLaunch (rd ra : Reg) (s : State) : Out :=
  let x := s.self
  let h := s.holdWith (s.reg ra) 0
  let a := h.val.toNat
  let die := dieOf s.pan
  if h.stage = 0 then
    if x.drained && s.readFree true then
      s.takeLatency.holdOn x { h with stage := 1, upto := s.cycle + s.nextLatency } .other
    else s.holdOn x h .other
  else if s.cycle < h.upto then s.holdOn x h .other
  else match s.accessFault x true false a 256 with
    | some k => s.trap k a
    | none =>
      let s := s.touchVirt x (some die) a 256
      match s.readVirt x die a 256 with
      | .range f => s.trap 0x09 f
      | .corrupt _ => s.trap 0x12 a
      | .bytes bs =>
        let s := s.touchRecord x (some die) bs
        match s.launchCheck x die x.pid a bs with
        | .fault k v => s.trap k v
        | .full => s.result rd 0 1
        | .take =>
          let (s, id) := s.takeTask x.pid x.tenant x bs
          s.result rd (id.setWidth 64) 1

/-! ### The translator's step (R282, R314 to R316) -/

/-- The table of a die of a task is built and written; or its failure tells firmware and, when no instance of the task is bound, ends the
task with code 0x0103 (R282, R316). The answer says whether the table stands. -/
def State.buildTable (s : State) (r : TaskRef) (die extp : Nat) : State × Bool :=
  let t := s.task r
  let s := s.touchWalks t.tenant.toNat (t.info.ext.flatMap fun d => (List.range ((d.stop - d.base) / 65536)).map fun k => d.base + k * 65536)
  match s.buildExtents t.tenant.toNat die t.info.ext with
  | .ok es =>
    let s := s.writeTable extp es
    let kept := t.built.filter fun b => !(b.1 == die && b.2.1 == extp)
    (s.setTask r { t with built := kept ++ [(die, extp, es)] }, true)
  | .error (slot, va) =>
    let s := s.emit (.translation r slot (BitVec.ofNat 64 va))
    if t.state = .running then (s, false)
    else ((s.updateObj t.pid t.cpl fun o => { o.report 0x0103 0 with pend := 0 }).endTask r, false)

/-- TRANSLATOR_BUILD (R282, R314 to R316): the task leaves its launch queue and its table on a die is built. -/
def execTranslatorBuild (task : TaskRef) (die : BitVec 3) (extp : BitVec 48) (s : State) : Out :=
  if !s.taskLive task then .next s
  else
    let t := s.task task
    let p := s.part t.pid
    let s := s.setPart t.pid { p with queue := p.queue.filter fun q => q != task.id.toNat }
    .next (s.buildTable task die.toNat extp.toNat).1

/-! ### The slot table (R286) -/

/-- The task that a record of a pan names: one of the pan's partition. -/
def State.recRef (s : State) (pan : Nat) (r : BindRec) : TaskRef := ⟨s.owner (fieldOf pan), r.task⟩
/-- The LPB of a record's task: the copy at SRC, or, where SRC names a context image, the one that the task was taken with (R286; log
63). -/
def State.recLpb (s : State) (pan : Nat) (r : BindRec) : Lpb :=
  if r.res then (s.task (s.recRef pan r)).info else lpbOf (s.peeks r.src.toNat 256)
/-- The pans of a record's region in dense order, as the map at MAPP holds them: two bytes a pan, the number of its field in the device
times 16 and its place there (R286; the form of an entry is a DESIGN CHOICE, log 62). -/
def State.recMap (s : State) (pan : Nat) (r : BindRec) : List Nat :=
  (List.range (s.recLpb pan r).region).map fun k => s.peekNat (r.mapp.toNat + 2 * k) 2

/-- BIND_RECORD_WRITE (R286, R459). -/
def execBindRecordWrite (pan : Nat) (idx : BitVec 4) (r : BindRec) (s : State) : Out :=
  let old := s.record pan idx.toNat
  let bad := (r.ifirst != r.ilast && (s.recLpb pan r).region != 1) || r.slots == 0 || decide (r.ilast.toNat < r.ifirst.toNat)
    || (r.res && r.start.toNat % 8 != 0)
  let base : SlotRec := if r.v then { r := r, cur := r.ifirst } else { old with r := r }
  .next (s.setRecord pan idx.toNat { base with bad := base.bad || bad })

/-- A candidate (R287). -/
def State.candidate (s : State) (pan : Nat) (e : SlotRec) : Bool :=
  e.r.v && !e.taken && !e.bad && !e.done && decide (e.r.start.toNat ≤ (s.tide pan).toNat + 1024)
def State.candidates (s : State) (pan : Nat) : List (Nat × SlotRec) :=
  (List.range 16).filterMap fun i => if s.candidate pan (s.record pan i) then some (i, s.record pan i) else none

/-- The rank of R287: PRIO, then START, then index. -/
def ranksBefore (a b : Nat × SlotRec) : Bool :=
  decide (a.2.r.prio.toNat < b.2.r.prio.toNat)
    || (a.2.r.prio == b.2.r.prio && (decide (a.2.r.start.toNat < b.2.r.start.toNat)
      || (a.2.r.start == b.2.r.start && decide (a.1 < b.1))))

def panCtxs (pan : Nat) : List Nat := (List.range Config.contextsPerPan).map fun k => 8 * pan + k
/-- Contexts of a pan that are running or taken. -/
def State.bound (s : State) (pan : Nat) : List Nat := (panCtxs pan).filter fun c => (s.ctx c).run != .free
/-- The lowest free context of a pan (R288). -/
def State.freeContext (s : State) (pan : Nat) : Option Nat := (panCtxs pan).find? fun c => (s.ctx c).run == .free

/-- Whether the field of a pan may take a context of a tenant (R303, R427). -/
def State.fieldOpen (s : State) (pan : Nat) (tenant : BitVec 16) : Bool :=
  (((fieldPans pan).flatMap s.bound).all fun c => (s.ctx c).tenant == tenant)
    && (Kv.get 0 s.fieldTenant (fieldOf pan) == 0 || Kv.get 0 s.fieldTenant (fieldOf pan) == tenant.toNat + 1)

/-- The candidates of a pan in rank order (R287). -/
def insertRanked (a : Nat × SlotRec) : List (Nat × SlotRec) → List (Nat × SlotRec)
  | [] => [a]
  | b :: r => if ranksBefore a b then a :: b :: r else b :: insertRanked a r
def State.ranked (s : State) (pan : Nat) : List (Nat × SlotRec) := (s.candidates pan).foldr insertRanked []

/-- Whether the dispatcher takes a record now (R287, R303), none before bring-up has ended (R494). -/
def State.takeable (s : State) (pan idx : Nat) : Bool :=
  let e := s.record pan idx
  s.candidate pan e && ((s.bound pan).all fun c => (s.ctx c).slots &&& e.r.slots == 0)
    && ((s.candidates pan).all fun d => !ranksBefore d (idx, e) || d.2.r.slots &&& e.r.slots == 0)
    && (s.freeContext pan).isSome && s.fieldOpen pan e.r.tenant
    && !(s.part (s.owner (fieldOf pan))).rst && s.taskLive (s.recRef pan e.r) && s.bringUp == 7

/-- GRACE and KILL as a record gives them (R286). -/
def clampTime (v : BitVec 14) (dflt : Nat) : BitVec 14 :=
  if v = 0 then BitVec.ofNat 14 dflt else BitVec.ofNat 14 (min 10000 (max 10 v.toNat))

/-- Weight latches that no other context's block uses are cleared at dispatch (R144, R248). -/
def State.clearLatches (s : State) (pan : Nat) : State :=
  let used := (s.residents pan).flatMap fun r => r.2.2.units
  { s with elems := s.elems.filterMap fun e =>
      if e.1 / 256 = pan ∧ used.contains (128 + e.1 % 256) = false then
        let x := { e.2 with latchActive := 0, latchLoad := 0 }
        if x = {} then none else some (e.1, x)
      else some e }

/-- The extent table that a record names, as the address generators of its die get it (R288, R318). -/
def State.recordTable (s : State) (task : TaskRef) (die extp : Nat) : List Extent :=
  let kept := match (s.task task).built.find? fun b => b.1 == die && b.2.1 == extp with | some b => b.2.2 | none => []
  s.readTable extp kept (cidOf (BitVec.ofNat 8 task.pid))

/-- The program of a context comes from memory through its extents: record, dictionary, text; the first read that fails is kept
(R95, R288, R497). A record that breaks R95 is taken as follows (DESIGN CHOICE, log 56): the text starts at its address as it stands,
a partial line at its end does not count, lines above 512 are dropped, and its reserved bytes are ignored. -/
def State.loadProgram (s : State) (x : Ctx) (die prog : Nat) (dictAt : Option Word) : Ctx :=
  match s.readVirt x die prog 32 with
  | .bytes bs =>
    let v := leNat bs
    let d := match dictAt with | some a => a.toNat | none => bitsN v 96 64
    let dr := s.readVirt x die d 4096
    let (dict, f1) := match dr with | .bytes ds => (dictEntries 256 ds, none) | r => (badDict, r.fault)
    let gen := if dictAt.isSome then x.dgen else BitVec.ofNat 8 (bitsN v 160 8)
    let (y, f2) := s.expandAll { x with dict := dict, dictAt := BitVec.ofNat 64 d, dgen := gen, textBase := bitsN v 0 64,
                                        textLines := min (Config.textMax / 64) (bitsN v 64 32 / 64) } die
    { y with loadFault := f1.orElse fun _ => f2 }
  | r => { x with dict := badDict, textBase := 0, textLines := 0, text := [], store := [], loadFault := r.fault }

/-- What the memory side does as a context's program is loaded: the lines of its record, its dictionary and its text are read (R288, R322,
R428). -/
def State.touchProgram (s : State) (x : Ctx) (die prog : Nat) (dictAt : Option Word) : State :=
  let s := s.touchVirt x (some die) prog 32
  match s.readVirt x die prog 32 with
  | .bytes bs =>
    let v := leNat bs
    let d := match dictAt with | some a => a.toNat | none => bitsN v 96 64
    (s.touchVirt x (some die) d 4096).touchVirt x (some die) (bitsN v 0 64) (64 * min (Config.textMax / 64) (bitsN v 64 32 / 64))
  | _ => s

/-- What a record and its task's LPB give a context, before its program is loaded (R288, R409). -/
def State.identity (s : State) (pan idx : Nat) (e : SlotRec) (inst : BitVec 24) (x : Ctx) : Ctx :=
  let l := s.recLpb pan e.r
  { x with task := e.r.task, inst := inst, tenant := e.r.tenant, pid := s.owner (fieldOf pan), ridxPan := e.r.rpan,
           ridxField := e.r.rfield, ridxDie := e.r.rdie, grace := clampTime e.r.grace Config.graceDefault,
           kill := clampTime e.r.kill Config.killDefault, prio := e.r.prio, slots := e.r.slots, recIdx := idx, pans := l.pans,
           fields := l.fields, dies := l.dies, map := s.recMap pan e.r, spillBase := l.spb, spillLim := l.spb + l.sps,
           ext := s.recordTable (s.recRef pan e.r) (dieOf pan) e.r.extp.toNat, occ := BitVec.ofNat 64 l.occ, phases := l.phases }

/-- A context loaded for an instance with RES = 0 (R288, R291, R438, R497). -/
def State.freshCtx (s : State) (pan idx : Nat) (e : SlotRec) (inst : BitVec 24) (first : Bool) : Ctx :=
  let l := s.recLpb pan e.r
  let x := s.identity pan idx e inst {}
  let x := { x with run := .loading, pc := BitVec.ofNat 56 l.entry, tvec := BitVec.ofNat 56 l.handler, ord := l.ord,
                    ovfPtr := BitVec.ofNat 56 (l.ovfBase + l.ovfStride * (inst.toNat * l.region + x.denseIdx)),
                    readyAt := s.cycle + min 1024 s.nextLatency, startAt := if first then some e.r.start else none,
                    tb := e.r.start }
  let x := s.loadProgram x (dieOf pan) l.prog none
  match x.loadFault with
  | some _ => x
  | none => { x with loadFault := (x.badTarget l.entry).map fun k => (k, BitVec.ofNat 64 l.entry) }

/-- Loading a context clears the pan's metadata registers and the unused weight latches, and marks its task as running (R257,
R283). -/
def State.loadCtx (s : State) (c pan idx : Nat) (e : SlotRec) (inst : BitVec 24) (first : Bool) : State :=
  let s := s.touchTable e.r.extp.toNat (cidOf (BitVec.ofNat 8 (s.owner (fieldOf pan))))
  let s := s.touchProgram (s.identity pan idx e inst {}) (dieOf pan) (s.recLpb pan e.r).prog none
  let x := s.freshCtx pan idx e inst first
  let clear := fun (m : Nat × Meta) => if m.1 / 16 = pan then (m.1, m.2.change s.cycle {}) else m
  let s := { s.takeLatency with metas := s.metas.map clear }.clearLatches pan
  (s.setCtx c x).replaceTask (s.recRef pan e.r)

/-- The record is taken for a context, and the field holds its tenant's data from now on. -/
def State.markTaken (s : State) (c pan idx : Nat) (e : SlotRec) : State :=
  let s := s.setRecord pan idx { e with taken := true, ctx := BitVec.ofNat 3 c, cur := e.r.ifirst }
  { s with fieldTenant := Kv.set 0 s.fieldTenant (fieldOf pan) (e.r.tenant.toNat + 1) }

/-- DISPATCH_TAKE (R287, R288): a record with RES = 0 that may be taken is. -/
def execDispatchTake (pan : Nat) (idx : BitVec 4) (s : State) : Out :=
  let e := s.record pan idx.toNat
  match s.freeContext pan with
  | some c =>
    if s.takeable pan idx.toNat && !e.r.res then
      .next ((s.markTaken c pan idx.toNat e).loadCtx c pan idx.toNat e e.r.ifirst true)
    else .next s
  | none => .next s

/-- LATE_START (R290): a candidate that is not taken when the tide reaches START. -/
def execLateStart (pan : Nat) (idx : BitVec 4) (s : State) : Out :=
  let e := s.record pan idx.toNat
  if s.candidate pan e && !e.late && decide (e.r.start.toNat ≤ (s.tide pan).toNat) then
    .next ((s.setRecord pan idx.toNat { e with late := true }).emit (.lateStart pan idx))
  else .next s

/-- CONTEXT_START (R289 to R291, R412, R438): the first context cycle of a loaded context at or after its start tide. Blocks and
commands of a resumed context go on. -/
def execContextStart (ctx : Nat) (s : State) : Out :=
  let x := s.ctx ctx
  let t := s.tide (panOf ctx)
  let due := match x.startAt with | some st => st.ule t | none => true
  if x.run = .loading ∧ x.readyAt ≤ s.cycle ∧ x.slots.getLsbD (s.wheel (panOf ctx)) = true ∧ due = true then
    let s := s.setCtx ctx { x with run := .running, tb := if x.startAt.isSome then x.tb else t }
    .next ((((s.runsOf ctx).foldl (State.resumeRun true) s).replayGone ctx true).resumeCmds ctx)
  else .next s

/-- NEXT_INSTANCE_LOAD (R291): an instance of a range has retired, and its context is loaded for the next one. -/
def execNextInstanceLoad (pan : Nat) (idx : BitVec 4) (s : State) : Out :=
  let e := s.record pan idx.toNat
  let c := 8 * pan + e.ctx.toNat
  let x := s.ctx c
  if e.taken && !e.done && x.run == .exited && x.task == e.r.task && x.inst == e.cur && decide (e.cur.toNat < e.r.ilast.toNat)
      && ((s.task (s.recRef pan e.r)).inst e.cur).retired && !(s.part (s.owner (fieldOf pan))).rst then
    let e := { e with cur := e.cur + 1 }
    .next ((s.setRecord pan idx.toNat e).loadCtx c pan idx.toNat e e.cur false)
  else .next s

end Sys2Proof.Machine
end

