-- ==== Sys2Proof/Machine/Image.lean ====
section
/-! DEFINITION. Context images: what a save keeps of a context's pans (R399 to R404, R457, R498), and the bytes of an image (R397 to
R405). -/

namespace Sys2Proof.Machine

/-! ### What a save keeps of a pan (R399 to R404, R457) -/

/-- Masks under which a context has a block on a pan, running or loaded. -/
def State.masksOf (s : State) (c pan : Nat) : List (BitVec 8) :=
  (((s.runsOf c).filter fun k => keyPan k == pan).map keyMask)
    ++ (Kv.keysWhere (fun k b => b.live && b.owner == c && keyPan k == pan) s.shadow).map keyMask

/-- The row index due in the kernel cycle that has stopped; the first row before the start and after the end (R401). -/
def dueRow (r : BlkRun) (b : Block) (kc : Nat) : Nat :=
  if r.start ≤ kc + 1 ∧ kc + 1 < r.start + b.length then b.f.toNat + (kc + 1 - r.start) % max 1 b.ii.toNat else b.f.toNat

/-- A context's resident blocks on a pan, each with the row whose live registers count (R401). -/
def State.blocksOn (s : State) (c pan : Nat) : List (Block × Nat) :=
  (((s.runsOf c).filter fun k => keyPan k == pan).map fun k =>
    (Kv.get {} s.active k, dueRow (Kv.get {} s.runs k) (Kv.get {} s.active k) (Kv.get 0 s.kcnt k)))
    ++ (s.shadow.filter fun e => e.2.live && e.2.owner == c && keyPan e.1 == pan).map fun e => (e.2, e.2.f.toNat)

/-- The e registers that blocks keep live in an element, and their tile window (R401). -/
def liveE (bs : List (Block × Nat)) (e : Nat) : BitVec 32 :=
  bs.foldl (fun v b => v ||| ((b.1.elemCfg e).row b.2).elive) 0
def liveT (bs : List (Block × Nat)) : BitVec 8 := bs.foldl (fun t b => t ||| b.1.twin) 0
/-- Ports that blocks read or route in an element, and whether they use its latches (R401, R402). -/
def portsUsed (bs : List (Block × Nat)) (e : Nat) : List Port := allPorts.filter fun p => bs.any fun b => (b.1.usedPorts e).contains p
def latchesUsed (bs : List (Block × Nat)) (e : Nat) : Bool := bs.any fun b => b.1.units.contains (128 + e)

/-- Whether a result or a contribution to a lane of an element is in flight. -/
def Elem.laneFlies (x : Elem) (k : Nat) : Bool :=
  (x.flight.any fun f => f.dst == .lane (BitVec.ofNat 3 k)) || (x.ye.any fun y => y.dst == .lane (BitVec.ofNat 3 k))
    || x.contrib.any fun c => c.t.toNat == k

/-- The live part of an element (R399 to R401); `flips` are the running blocks with the cycles of their flips, and a port that nothing has
reached since reads zero, and is kept so (R162). -/
def Elem.keep (x : Elem) (masks : List (BitVec 8)) (bs flips : List (Block × Nat)) (e : Nat) : Elem :=
  { e := x.e.filter fun r => (liveE bs e).getLsbD r.1
    t := x.t.filter fun l => (liveT bs).getLsbD l.1 && (l.2.valid || l.2.dirty || x.laneFlies l.1)
    flight := x.flight.filter fun f => masks.contains f.mask
    ye := x.ye.filter fun y => masks.contains y.mask
    latchActive := if latchesUsed bs e then x.latchActive else 0
    latchLoad := if latchesUsed bs e then x.latchLoad else 0
    ports := x.ports.filter fun p => (portsUsed bs e).any fun q => portIdx q == p.1
      && !(flips.any fun b => decide (p.2.since ≤ b.2) && (b.1.usedPorts e).contains q)
    delay := x.delay.filter fun d => masks.contains d.mask && d.fab.isNone
    contrib := x.contrib.filter fun k => masks.contains k.mask }

/-- A context's running blocks on a pan with the cycles of their flips. -/
def State.flipsOn (s : State) (c pan : Nat) : List (Block × Nat) :=
  ((s.runsOf c).filter fun k => keyPan k == pan).map fun k => (Kv.get {} s.active k, (Kv.get {} s.runs k).flip)

/-- The elements of a pan as the section of a context keeps them. -/
def State.keepElems (s : State) (c pan : Nat) : Kv Elem :=
  s.elems.filterMap fun k =>
    if k.1 / 256 = pan then
      let x := k.2.keep (s.masksOf c pan) (s.blocksOn c pan) (s.flipsOn c pan) (k.1 % 256)
      if x = {} then none else some (k.1 % 256, x)
    else none

/-- Entries of a table that stand under one number, renumbered from 0; and put back under a number. -/
def Kv.part {α : Type} (m : Kv α) (n q : Nat) : Kv α := (m.filter fun e => e.1 / n == q).map fun e => (e.1 % n, e.2)
def Kv.putPart {α : Type} [DecidableEq α] (d : α) (m : Kv α) (n q : Nat) (l : Kv α) : Kv α :=
  l.foldl (fun m e => Kv.set d m (n * q + e.1) e.2) m

/-- Listed bytes of `n` from an address on, numbered from 0; and put back in place of what stands there. -/
def State.cells (s : State) (a n : Nat) : List Host.Cell :=
  (s.mem.filter fun e => decide (a ≤ e.1) && decide (e.1 < a + n)).map fun e => (e.1 - a, e.2)
def State.putCells (s : State) (a n : Nat) (l : List Host.Cell) : State := l.foldl (fun s e => s.writeByte (a + e.1) e.2) (s.wipe a n)
/-- The bytes of a footprint with their poison marks, and their return. -/
def State.foot (s : State) (a n : Nat) : Foot :=
  { cells := s.cells a n, bad := ((s.poison.filter fun e => decide (a ≤ e.1) && decide (e.1 < a + n)).map fun e => e.1 - a) }
def State.putFoot (s : State) (a n : Nat) (f : Foot) : State := f.bad.foldl (fun s o => s.poisonBytes (a + o) 1) (s.putCells a n f.cells)

/-- Bytes of node space and field space in a partition's buffer footprint (R416). -/
def Part.nodeFootprint (p : Part) : Nat := if p.nfoot = 0 then Config.nodeSize else p.nfoot
def Part.fieldFootprint (p : Part) : Nat := if p.ffoot = 0 then Config.fieldSize else p.ffoot

/-- Whether blocks' rows read a pan's tables (R403). -/
def readsTables (bs : List (Block × Nat)) : Bool :=
  bs.any fun b => !(b.1.elemsWith fun i => match i with | .racc .. => true | .rval .. => true | _ => false).isEmpty

/-- The stream entries of blocks: 2·q + SIDE with the payload. -/
def streamEntries (bs : List (Block × Nat)) : List (Nat × Nat) :=
  bs.flatMap fun b => b.1.strB.map fun e => (2 * e.1 + (if strSide e.2 then 1 else 0), e.2)
/-- The stream of an entry on a pan. -/
def State.streamKey (s : State) (pan n : Nat) : Nat := streamAt (s.owner (fieldOf pan)) (dieOf pan) (n / 2) (n % 2 == 1)

/-- Sluice positions of a stream, numbered from 0. -/
def State.positionsOf (s : State) (key : Nat) : Kv Place :=
  let st := s.stream key
  let lo := key / 16 * 16384 + st.first
  (s.sluice.filter fun e => decide (lo ≤ e.1) && decide (e.1 < lo + st.depth)).map fun e => (e.1 - lo, e.2)

/-- The index of a pan among the pans of a context's region. -/
def Ctx.panIdx (x : Ctx) (pan : Nat) : Nat := x.map.idxOf pan

/-- Masks under which a context has a block or a chain on a pan. -/
def State.clocksOf (s : State) (c pan : Nat) : List (BitVec 8) :=
  s.masksOf c pan ++ (s.cmds.filter fun k => k.ctx == c && k.pan == pan && isChain k.instr).map fun k => (chainWord k.instr).mask

/-- The section of a context on one pan: what belongs to its blocks and chains there. Contexts and pans are named by dense indices. Every
save clears YREQ (R409). -/
def State.section (s : State) (c pan : Nat) : Section :=
  let x := s.ctx c
  let bs := s.blocksOn c pan
  let masks := s.masksOf c pan
  let clocks := s.clocksOf c pan
  let mine := fun (k : Nat) => k / 256 == pan && masks.contains (keyMask k)
  let ents := ((streamEntries bs).map (·.1)).dedup
  let named := bs.flatMap fun b => b.1.units
  { r := x.denseIdx, p := x.panIdx pan, ctx := { x with yreq := false, haltCount := x.haltCount + 1 }, elems := s.keepElems c pan,
    active := Kv.part (s.active.filter fun e => mine e.1 && (Kv.get {} s.runs e.1).ctx == c) 256 pan,
    shadow := (Kv.part (s.shadow.filter fun e => mine e.1 && e.2.live && e.2.owner == c) 256 pan),
    runs := (Kv.part (s.runs.filter fun e => mine e.1 && e.2.ctx == c) 256 pan).map fun e => (e.1, { e.2 with home := x.panIdx e.2.home }),
    kcnt := Kv.part (s.kcnt.filter fun e => e.1 / 256 == pan && clocks.contains (keyMask e.1)) 256 pan,
    tiles := s.tiles.filter fun t => t.pan == pan && masks.contains t.mask,
    writes := s.writes.filter fun w => w.pan == pan && clocks.contains w.mask,
    bq := Kv.part (s.bq.filter fun e => named.contains (1 + e.1 % 16)) 16 pan,
    tables := if readsTables bs then Kv.get {} s.tables pan else {},
    metas := Kv.part (s.metas.filter fun e => named.contains (64 + e.1 % 16)) 16 pan,
    nodeCtl := Kv.part (s.nodeCtl.filter fun e => bs.any fun b => Kv.get 0 b.1.nodeB (e.1 % 128) != 0) 128 pan,
    concCtl := Kv.part (s.concCtl.filter fun e => bs.any fun b => Kv.get 0 b.1.concB (e.1 % 16) != 0) 16 (fieldOf pan),
    streams := ents.foldl (fun l n => Kv.set {} l n (s.stream (s.streamKey pan n))) [],
    sluice := ents.foldl (fun l n => Kv.putPart {} l 65536 n (s.positionsOf (s.streamKey pan n))) [] }

/-- Pans on which a context has state: its own, and those of its stamped copies. -/
def State.pansOf (s : State) (c : Nat) : List Nat :=
  (panOf c :: ((s.runsOf c).map keyPan ++ (Kv.keysWhere (fun _ b => b.live && b.owner == c) s.shadow).map keyPan)).dedup
def State.sections (s : State) (c : Nat) : List Section := (s.pansOf c).map (s.section c)

/-- The section of a context that has executed EXIT: its code and nothing else (R498). -/
def exitedSection (r code : Nat) : Section :=
  { r := r, p := r, ctx := { run := .exited, exitCode := BitVec.ofNat 16 code }, elems := [], active := [], shadow := [], runs := [], kcnt := [],
    tiles := [], writes := [], bq := [], tables := {}, metas := [], nodeCtl := [], concCtl := [], streams := [], sluice := [] }

/-- How a context halted, as the header records it (R391, R405). -/
def Run.soft : Run → Bool | .halted .yield => true | _ => false
def Run.nestedCause : Run → Option (BitVec 8) | .halted (.nested k) => some k | _ => none

/-- The footprints of the pans of a map and of their fields, by dense index. -/
def State.nodesOf (s : State) (n : Nat) (map : List Nat) : Kv Foot := map.zipIdx.map fun e => (e.2, s.foot (nodeBase e.1) n)
def State.concsOf (s : State) (n : Nat) (map : List Nat) : Kv Foot :=
  ((map.map fieldOf).dedup.zipIdx).map fun e => (e.2, s.foot (fieldBase e.1) n)

/-- The image of an instance (R398, R405). -/
def State.imageOf (s : State) (task : TaskRef) (inst : BitVec 24) (cs : List Nat) : Image :=
  let x := s.ctx (cs.headD 0)
  let why := cs.map fun c => (s.ctx c).run
  let nest := why.findSome? Run.nestedCause
  let exits := ((s.task task).inst inst).exits
  let part := s.part x.pid
  { level := Config.archLevel, tenant := x.tenant, pans := x.pans, fields := x.fields, dies := x.dies, slots := x.slots,
    note := false, soft := why.any Run.soft, nested := nest.isSome, nestedCause := nest.getD 0, task := task.id, inst := inst,
    haltCount := x.haltCount + 1, sections := cs.flatMap s.sections ++ exits.map fun e => exitedSection e.1 (e.2 - 1),
    cmds := s.cmds.filter fun k => cs.contains k.ctx, fadds := s.fadds.filter fun f => f.task == task && f.inst == inst,
    tauH := x.tauH, nodes := s.nodesOf part.nodeFootprint x.map, concs := s.concsOf part.fieldFootprint x.map,
    nodeFoot := part.nodeFootprint, fieldFoot := part.fieldFootprint }

/-! ### Bytes of the execution state (R399, R400, R403, R404) -/

/-- Bytes cut or filled with zeros to a length. -/
def padTo (n : Nat) (bs : List Byte) : List Byte := (bs ++ List.replicate (n - bs.length) 0).take n
def bit (b : Bool) (k : Nat) : Nat := if b then 2 ^ k else 0

/-- The blocks that a section keeps resident, each with its row of liveness. -/
def Section.blocks (x : Section) : List (Block × Nat) :=
  (x.active.map fun e => (e.2, dueRow (Kv.get {} x.runs e.1) e.2 (Kv.get 0 x.kcnt e.1))) ++ x.shadow.map fun e => (e.2, e.2.f.toNat)
/-- Kernel cycles that remain until a count of a mask. -/
def Section.left (x : Section) (m : BitVec 8) (due : Nat) : Nat := due - Kv.get 0 x.kcnt m.toNat
/-- The remaining count of a result: the kernel cycles from the one that did not take place to the one it lands in (R37, R400, R434). -/
def Section.remains (x : Section) (m : BitVec 8) (due : Nat) : Nat := x.left m due - 1

/-- A value in flight as a number. -/
def EVal.num : EVal → Nat
  | .bits v => v.toNat
  | .setLane v => (BitVec.ofInt 64 v).toNat
  | .addLane v _ => (BitVec.ofInt 64 (min (2 ^ 63 - 1) (max (-(2 ^ 63)) v))).toNat
/-- The code of a destination (R62). -/
def dstCode : Dst → Nat | .e k => k.toNat | .lane t => 32 + t.toNat | .port p => 0x28 + portIdx p | .none => 0x3F
def dstPort : Dst → Option Port | .port p => some p | _ => none

/-- A lane's ten bytes (R400). -/
def Lane.bytes (l : Lane) : List Byte :=
  natLe 8 l.l.toNat ++ natLe 2 (bit l.ovf 0 + bit l.nan 1 + bit l.valid 2 + bit l.dirty 3 + l.re.toNat * 16)

/-- The element record (R399, R400). -/
def Section.elemBytes (x : Section) (e : Nat) : List Byte :=
  let y := Kv.get {} x.elems e
  let bs := x.blocks
  let es := liveE bs e
  let ts := (List.range 8).filter fun k =>
    (liveT bs).getLsbD k && ((Kv.get {} y.t k).valid || (Kv.get {} y.t k).dirty || y.laneFlies k)
  let ps := portsUsed bs e
  let wl := latchesUsed bs e
  let stage := fun (p : Port) (j : Nat) => y.delay.find? fun d => d.port == p && x.left d.mask d.due == j + 1
  let stages := allPorts.flatMap fun p => (List.range 15).filterMap fun j => (stage p j).map fun d => (15 * portIdx p + j, d.val)
  let sends := y.flight.filterMap fun f => (dstPort f.dst).map fun p => (f, p)
  padTo 384 (natLe 4 es.toNat ++ natLe 1 (ts.foldl (fun a k => a + 2 ^ k) 0)
    ++ natLe 1 (2 ^ (min 4 y.ye.length) - 1 + bit wl 4) ++ natLe 1 (ps.foldl (fun a p => a + 2 ^ portIdx p) 0)
    ++ natLe 1 sends.length ++ natLe 1 y.contrib.length ++ natLe 1 0 ++ natLe 8 (stages.foldl (fun a q => a + 2 ^ q.1) 0) ++ natLe 6 0
    ++ ((List.range 32).filter fun k => es.getLsbD k).flatMap (fun k => natLe 4 (Kv.get 0 y.e k).toNat)
    ++ y.ye.flatMap (fun r => natLe 8 r.val.num ++ natLe 8 (1 + 2 * dstCode r.dst + 2 ^ 7 * (r.left - 1)))
    ++ ts.flatMap (fun k => (Kv.get {} y.t k).bytes)
    ++ (if wl then natLe 16 y.latchActive.toNat ++ natLe 16 y.latchLoad.toNat else [])
    ++ ps.flatMap (fun p => natLe 16 (Kv.get {} y.ports (portIdx p)).v.toNat)
    ++ stages.flatMap (fun q => natLe 16 q.2.toNat)
    ++ sends.flatMap (fun q => natLe 16 q.1.val.num ++ natLe 8 (portIdx q.2 + 4 * x.remains q.1.mask q.1.due))
    ++ y.contrib.flatMap fun k => natLe 9 ((min (2 ^ 71 - 1) (max (-(2 ^ 71)) k.val)) % 2 ^ 72).toNat
      ++ natLe 1 (k.t.toNat + bit k.nan 3 + k.re.toNat % 16 * 16) ++ natLe 1 (x.remains k.mask k.due) ++ natLe 1 (k.re.toNat / 16))

/-- A loop entry as the sequencer record holds it. -/
def LoopEntry.bytes (e : LoopEntry) : List Byte := natLe 8 e.start.toNat ++ natLe 8 e.stop.toNat ++ natLe 8 e.count.toNat

/-- The sequencer record (R403). -/
def Ctx.recordBytes (x : Ctx) : List Byte :=
  if x.run = .exited then padTo 4096 (natLe 90 0 ++ natLe 2 2 ++ natLe 2 x.exitCode.toNat)
  else
    let loops := fun (l : List LoopEntry) => padTo 96 (l.flatMap LoopEntry.bytes)
    padTo 4096 (padTo 1024 (
      natLe 8 x.pc.toNat ++ natLe 8 x.status.toNat ++ natLe 8 x.tvec.toNat ++ natLe 8 (x.tcode.toNat + 2 ^ 8 * x.slsd.toNat)
        ++ natLe 8 x.tpc.toNat ++ natLe 8 x.tval.toNat ++ natLe 8 x.modefp.toNat ++ natLe 8 x.ovfPtr.toNat ++ natLe 8 x.spd.toNat
        ++ natLe 8 x.ckpt.toNat ++ natLe 8 x.dictAt.toNat ++ natLe 1 x.dgen.toNat ++ natLe 1 x.phase.toNat ++ natLe 1 (bit x.dbg 0)
        ++ natLe 5 0 ++ natLe 8 x.occIssue.toNat ++ natLe 8 x.occWait.toNat ++ natLe 8 x.occOther.toNat ++ natLe 8 x.occRows.toNat
        ++ padTo 128 (natLe 8 x.tauH.toNat)
        ++ ((List.range 32).flatMap fun k => natLe 8 (x.reg (BitVec.ofNat 5 k)).toNat)
        ++ ((List.range 8).flatMap fun k =>
          let l := Kv.get {} x.l k
          natLe 8 l.val.toNat ++ natLe 8 (bit l.full 0 + bit l.poison.isSome 1))
        ++ (x.replays.flatMap fun y => natLe 8 y.val.toNat ++ natLe 8 (x.yctl y).toNat)
        ++ loops x.ls ++ loops [x.lss0, x.lss1, x.lss2, x.lss3])
      ++ (List.range 16).flatMap fun k => natLe 64 (Kv.get 0 x.h k))

/-- A block state of the pan record: mask, identifier, 1 for loaded, 2 for active and 3 for one that a block fault has stopped, kernel
cycles since its start, what remains of its start offset, copy index, iteration offset, the dense indices of its context and its pan,
and what BSTAMP has set (R403; the places within the 32 bytes are log 31). -/
def blockState (m : Nat) (b : Block) (state since left iter r p : Nat) : List Byte :=
  padTo 32 (natLe 1 m ++ natLe 2 b.id.toNat ++ natLe 1 state ++ natLe 4 since ++ natLe 4 left ++ natLe 4 b.copy ++ natLe 4 iter ++ natLe 2 r
    ++ natLe 2 p ++ natLe 2 b.stampN ++ natLe 2 b.stampBase.toNat ++ natLe 2 b.stampStep.toNat ++ natLe 2 b.stampOstep.toNat)

/-- An owed write of a unit: what its block and its place do not say. A packet's length stands in its header (R270). -/
def UnitWrite.unitRecord (w : UnitWrite) (left : Nat) : List Byte :=
  match w.unit with
  | 0 => natLe 1 w.mask.toNat ++ natLe 1 left ++ natLe 1 (w.key % 16 + bit (w.key / 16 % 8 == dieOf w.pan) 6 + bit w.stream 7) ++ w.bytes
  | 1 => natLe 1 w.mask.toNat ++ natLe 1 left ++ natLe 1 (w.key % 128) ++ natLe 1 (w.skey % 128) ++ natLe 4 w.slot ++ [w.sbyte]
      ++ natLe 1 w.bytes.length ++ w.bytes
  | _ => natLe 2 left ++ natLe 1 w.slot ++ natLe 4 w.off ++ natLe 1 (bit w.adv 0) ++ natLe 1 w.skey ++ padTo 4 w.bytes
/-- The owed writes of a section that a test selects, and their number before them. -/
def Section.owed (x : Section) (f : UnitWrite → Bool) : List Byte :=
  let l := x.writes.filter f
  natLe 2 l.length ++ l.flatMap fun w => w.unitRecord (x.remains w.mask w.due)
/-- A block-quantise unit: its block count, the number of its tokens, their one MODEFP or 0xFF and each one's own, and the tokens. -/
def BqUnit.unitRecord (u : BqUnit) : List Byte :=
  let m := (u.toks.head?.map (·.2)).getD 0
  let one := u.toks.all fun q => q.2 == m
  natLe 4 u.beta ++ natLe 1 u.toks.length ++ (if one then natLe 1 m.toNat else natLe 1 0xFF ++ u.toks.flatMap fun q => natLe 1 q.2.toNat)
    ++ u.toks.flatMap fun q => natLe 4 q.1.toNat
/-- A chain at a count of its mask: the kernel cycles since its issue, what its object is still to count and has not been told, whether it
waits for RFT and whether its last write is made, and its tokens. -/
def Cmd.unitRecord (k : Cmd) (kc : Nat) : List Byte :=
  natLe 8 (kc - k.kc) ++ natLe 8 k.left ++ natLe 4 k.owed ++ natLe 1 (bit (k.code == 1) 0 + bit (k.q == 1) 1) ++ natLe 2 k.toks.length
    ++ k.toks.flatMap fun q => natLe 4 q.1 ++ natLe 1 q.2.length ++ q.2.flatMap (natLe 4)

/-- Bytes of the state of a unit of a kind: 0 rake, 1 block-quantise, 2 exponent, 3 chain (R403). -/
def unitSize (kind : Nat) : Nat := [192, 136, 32, 256].getD kind 0
/-- The units of the edge strip that a section's blocks name, as in Block.units. -/
def Section.strip (x : Section) : List Nat :=
  ((x.blocks.flatMap fun b => b.1.units).dedup.filter fun u => decide (u ≤ 16) || (decide (32 ≤ u) && decide (u < 48))).mergeSort

/-- Edge-strip and chain state (R403): the rake, each block-quantise unit, each exponent unit, each chain, in their sizes; what the state
of one has beyond its size follows after all of them in the same order (the layout is log 31). -/
def Section.stripBytes (x : Section) (chains : List Cmd) : List Byte :=
  let units := (x.strip.map fun u =>
      if u = 0 then (0, x.owed fun w => w.unit == 0)
      else if u ≤ 16 then (1, (Kv.get {} x.bq (u - 1)).unitRecord ++ x.owed fun w => w.unit == 1 && w.ord == u - 1)
      else (2, []))
    ++ chains.map fun k => (3, k.unitRecord (Kv.get 0 x.kcnt (chainWord k.instr).mask.toNat) ++ x.owed fun w => w.unit == 3 && w.key == k.id)
  units.flatMap (fun u => padTo (unitSize u.1) u.2) ++ units.flatMap fun u => u.2.drop (unitSize u.1)

/-- The pan record (R403). -/
def Section.panBytes (x : Section) (chains : List Cmd) : List Byte :=
  let run := fun (e : Nat × Block) =>
    let r := Kv.get {} x.runs e.1
    let k := Kv.get 0 x.kcnt e.1
    blockState e.1 { e.2 with copy := r.copy } (if r.faulted then 3 else 2) (k + 1 - r.start) (r.start - (k + 1)) r.iter.toNat x.r x.p
  let iter := fun (b : Block) => (b.stampBase.signExtend 32 + BitVec.ofNat 32 b.copy * b.stampStep.signExtend 32).toNat
  let t := x.tables
  padTo 2048 (padTo 256 (x.active.flatMap run
      ++ x.shadow.flatMap fun e => blockState e.1 e.2 1 0 (e.2.copy * e.2.stampOstep.toNat) (iter e.2) x.r x.p)
    ++ natLe 64 t.gA ++ natLe 64 t.gS ++ natLe 260 t.vA ++ natLe 260 t.vS ++ padTo 1024 (x.stripBytes chains)
    ++ natLe 1 (bit t.gNew 0 + bit t.vNew 1 + bit t.i16A 2 + bit t.i16S 3))

/-- The 64-byte record of a stream's end that a block has bound (R457). -/
def Stream.bytes (st : Stream) (n pay : Nat) : List Byte :=
  let recv := strRecv pay
  padTo 64 (natLe 1 (1 + bit recv 1 + bit (n % 2 == 1) 2) ++ natLe 1 (n / 2) ++ natLe 2 st.depth ++ natLe 2 st.first ++ natLe 2 st.g
    ++ natLe 8 (if recv then st.kR else st.kS) ++ natLe 2 (if recv then 0 else st.units.toNat) ++ natLe 2 (if recv then st.pos else 0))

/-- The stream entries of a section's blocks that have flipped. -/
def Section.bound (x : Section) : List (Nat × Nat) := streamEntries (x.active.map fun e => (e.2, 0))

/-- The field record of the sections of one field (R404). -/
def fieldBytes (xs : List Section) : List Byte :=
  let ents := xs.flatMap fun x => x.bound.map fun e => (e.1 / 2, (Kv.get {} x.streams e.1).bytes e.1 e.2)
  let str := (List.range 16).flatMap fun q => match ents.find? fun e => e.1 == q with | some e => e.2 | none => natLe 64 0
  let conc := fun (f : BindCtl → Nat) => (List.range 16).flatMap fun c =>
    natLe 2 ((xs.findSome? fun x => (x.concCtl.find? fun e => e.1 == c).map fun e => f e.2).getD 0)
  let pk := (List.range 16).flatMap fun q =>
    natLe 2 ((xs.findSome? fun x => (x.streams.find? fun e => e.1 / 2 == q).map fun e => e.2.pktX.toNat).getD 0)
  padTo 32768 (str ++ conc (fun c => c.pktX.toNat) ++ pk ++ conc fun c => c.rpos)

/-! ### The other parts (R397, R398, R402, R457) -/

/-- The distinct element images of a block as its configuration part holds them, for the elements of the array (R402). -/
def Block.images (b : Block) : List ElemCfg := (allElems.map fun e => b.trim (b.elemCfg e)).dedup
/-- The configuration part of a block: its record, the element-to-image map, and the distinct element images (R402). -/
def blockBytes (m : BitVec 8) (b : Block) : List Byte :=
  let kinds := b.images
  b.record m ++ (allElems.map fun e => BitVec.ofNat 8 (kinds.idxOf (b.trim (b.elemCfg e)))) ++ kinds.flatMap (b.image m)
/-- Metadata registers that a section's blocks name. -/
def Section.metaRegs (x : Section) : List Nat :=
  (((x.blocks.flatMap fun b => b.1.units).dedup.filter fun u => decide (64 ≤ u) && decide (u < 80)).map (· - 64)).mergeSort
def Section.configBytes (x : Section) : List Byte :=
  (x.active ++ x.shadow).flatMap (fun e => blockBytes (BitVec.ofNat 8 e.1) e.2) ++ x.metaRegs.flatMap fun m => natLe 128 (Kv.get {} x.metas m).v

/-- The progress P, Q and W that a record holds: elements of a conversion, rows of a PRUNE, and none of a COLL that has not begun (R396,
R476). -/
def Cmd.progress (k : Cmd) : Nat × Nat × Nat :=
  match k.instr with
  | .coll .. => (0, 0, 0)
  | .tcopyc .. => (k.p * k.group, k.q, k.w)
  | .prune .. => (min (k.p * pruneRows) (k.sideB.sh.size 1), k.q, k.w)
  | .chain .. => (k.p, 0, 0)
  | _ => (k.p, k.q, k.w)
/-- The engine record of a command (R397). -/
def Cmd.recordBytes (k : Cmd) : List Byte :=
  let (p, q, w) := k.progress
  padTo 256 (natLe 12 ((encodeWord k.instr).getD 0).toNat ++ natLe 1 (bit k.started 0) ++ natLe 1 (k.ctx % 8)
    ++ natLe 2 0 ++ natLe 8 k.obj.toNat ++ padTo 24 (if isChain k.instr then [] else k.ops.flatMap fun v => natLe 8 v.toNat) ++ natLe 8 p ++ natLe 8 q ++ natLe 8 w
    ++ natLe 8 0 ++ natLe 64 k.a ++ natLe 64 k.b)

/-- A binding control entry (R304, R306; the places within it are log 31). -/
def BindCtl.bytes (c : BindCtl) : List Byte :=
  natLe 4 c.base ++ natLe 4 c.size ++ natLe 2 c.depth ++ natLe 1 c.dir.toNat ++ natLe 2 c.rp ++ natLe 2 c.wp ++ natLe 2 c.pctr.toNat
    ++ natLe 2 c.xctr.toNat ++ natLe 4 c.units ++ natLe 4 c.rankPos ++ natLe 4 c.wpos ++ natLe 2 c.pktW.toNat
    ++ (List.range c.depth).flatMap fun k =>
      let s := Kv.get {} c.slots k
      natLe 1 (bit s.full 0 + bit s.chk 1) ++ natLe 2 s.tag.toNat
/-- A slot in the sluice section or a place of a stage (R457). -/
def Place.bytes (p : Place) : List Byte :=
  natLe 8 p.k ++ natLe 8 p.sTau.toNat ++ natLe 2 p.np ++ natLe 1 (bit p.refused 0 + bit p.used 1 + bit p.full 2) ++ natLe 256 p.data
/-- Listed bytes as the dense bytes of a footprint. -/
def denseBytes (n : Nat) (l : List Host.Cell) : List Byte := (List.range n).map fun a => Kv.get 0 l a

/-- The bindings that a section's blocks name: 8·node + buffer, and concentrator bindings. -/
def Section.nodeKeys (x : Section) : List Nat := (List.range 128).filter fun k => x.blocks.any fun b => Kv.get 0 b.1.nodeB k != 0
def Section.concKeys (x : Section) : List Nat := (List.range 16).filter fun k => x.blocks.any fun b => Kv.get 0 b.1.concB k != 0
/-- The control entries of a section. -/
def Section.controlBytes (x : Section) : List Byte :=
  x.nodeKeys.flatMap (fun k => (Kv.get {} x.nodeCtl k).bytes) ++ x.concKeys.flatMap fun k => (Kv.get {} x.concCtl k).bytes

/-- A bound stream's end in the sluice section: its positions, the refused marks that wait, and the places of the stage, with the counters
that its record has no place for (R457, R458; log 31). -/
def Section.sluiceBytes (x : Section) : List Byte :=
  x.bound.flatMap fun e =>
    let st := Kv.get {} x.streams e.1
    let recv := strRecv e.2
    ((List.range st.depth).flatMap fun i => (Kv.get {} (Kv.part x.sluice 65536 e.1) i).bytes)
      ++ natLe 2 st.marks.length ++ st.marks.flatMap Place.bytes ++ natLe 2 st.stage.length ++ st.stage.flatMap Place.bytes
      ++ natLe 2 (if recv then st.pktX.toNat else st.pktW.toNat) ++ natLe 2 (if recv then 0 else st.npk)
      ++ natLe 1 (bit st.refusing.isSome 0) ++ natLe 8 (st.refusing.getD 0)

/-- An ordered fadd's sum (R462): its place, its task, and the sum in units of 2^-149. -/
def FaddEntry.bytes (f : FaddEntry) : List Byte :=
  natLe 2 f.dev ++ natLe 8 f.pa ++ natLe 4 f.task.id.toNat ++ natLe 40 (f.sum % 2 ^ 320).toNat
    ++ natLe 1 (bit f.negz 0 + bit f.nan 1 + bit f.pinf 2 + bit f.ninf 3)

/-! ### The image (R398, R405) -/

/-- Pans and fields of the region. -/
def Image.region (i : Image) : Nat := i.pans * i.fields * i.dies
def Image.fieldCount (i : Image) : Nat := i.fields * i.dies
/-- The section of a context on its own pan, and those of the copies that contexts have stamped. -/
def Image.home (i : Image) (r : Nat) : Option Section := i.sections.find? fun x => x.p == r && x.r == r
def Image.stamped (i : Image) : List Section := i.sections.filter fun x => x.p != x.r
def Image.inOrder (i : Image) : List Section := (List.range i.region).filterMap i.home ++ i.stamped

/-- Commands whose context issued them on a pan, and the chains among them (R398). -/
def Image.cmdsAt (i : Image) (p : Nat) : List Cmd :=
  match i.home p with | some x => i.cmds.filter fun k => x.ctx.map.getD p 0 == k.pan | none => []
def Image.chainsAt (i : Image) (p : Nat) : List Cmd := (i.cmdsAt p).filter fun k => isChain k.instr

/-- The execution state: for each pan of the region the 102 KiB of its own context, then the elements and pan records of stamped copies,
then a field record for each field (R398). -/
def Image.execution (i : Image) : List Byte :=
  (List.range i.region).flatMap (fun r => match i.home r with
    | some x => allElems.flatMap x.elemBytes ++ x.ctx.recordBytes ++ x.panBytes (i.chainsAt r)
    | none => List.replicate 104448 0)
    ++ i.stamped.flatMap (fun x => allElems.flatMap x.elemBytes ++ x.panBytes [])
    ++ (List.range i.fieldCount).flatMap fun f => fieldBytes (i.inOrder.filter fun x => x.p / max 1 i.pans == f)
def Image.configuration (i : Image) : List Byte := i.inOrder.flatMap Section.configBytes
/-- The engine part: the records of each pan in the order of the region, 16 KiB a pan (R397, R398); none when no command is recorded. -/
def Image.engine (i : Image) : List Byte :=
  if i.cmds.isEmpty then [] else (List.range i.region).flatMap fun p => padTo 16384 ((i.cmdsAt p).flatMap Cmd.recordBytes)
/-- The control entries of the sections. -/
def Image.controlBytes (i : Image) : List Byte := i.inOrder.flatMap Section.controlBytes
/-- The buffer part: control entries of each section, footprints, the sluice section, and the sums of ordered fadds (R398, R458, R462). -/
def Image.buffer (i : Image) : List Byte :=
  i.controlBytes ++ (List.range i.region).flatMap (fun p => denseBytes i.nodeFoot (Kv.get {} i.nodes p).cells)
    ++ (List.range i.fieldCount).flatMap (fun f => denseBytes i.fieldFoot (Kv.get {} i.concs f).cells)
    ++ natLe 8 i.tauH.toNat ++ i.inOrder.flatMap Section.sluiceBytes ++ i.fadds.flatMap FaddEntry.bytes

/-- Bytes 0 to 239 of the header (R405). -/
def Image.header (i : Image) : List Byte :=
  let e := i.execution.length
  let c := i.configuration.length
  let g := i.engine.length
  let b := i.buffer.length
  padTo 240 (natLe 4 0x4A435831 ++ natLe 4 i.level ++ natLe 2 i.tenant.toNat ++ natLe 1 (i.pans - 1) ++ natLe 1 (i.fields - 1)
    ++ natLe 1 (i.dies - 1) ++ natLe 1 i.slots.toNat ++ natLe 1 (bit i.note 0 + bit i.soft 1 + bit i.nested 2) ++ natLe 1 i.nestedCause.toNat
    ++ natLe 4 i.task.toNat ++ natLe 4 i.inst.toNat ++ natLe 8 i.haltCount
    ++ natLe 8 256 ++ natLe 8 e ++ natLe 8 (256 + e) ++ natLe 8 c ++ natLe 8 (256 + e + c) ++ natLe 8 g ++ natLe 8 (256 + e + c + g) ++ natLe 8 b)
def Image.parts (i : Image) : List Byte := i.execution ++ i.configuration ++ i.engine ++ i.buffer
/-- VALID of a whole image. -/
def validWord : Nat := 0xA55A5AA5
/-- The bytes of a whole image: header with CRC and VALID, then the parts in order (R405). -/
def Image.bytes (i : Image) : List Byte :=
  i.header ++ natLe 4 (crc32c (i.header ++ i.parts)) ++ natLe 8 0 ++ natLe 4 validWord ++ i.parts

/-- Where the poisoned bytes of an image's footprints stand among its bytes: they stay poisoned where it is kept (R419, R422). -/
def Image.badOffsets (i : Image) : List Nat :=
  let at' := 256 + i.execution.length + i.configuration.length + i.engine.length + i.controlBytes.length
  (i.nodes.flatMap fun e => e.2.bad.map fun o => at' + i.nodeFoot * e.1 + o)
    ++ i.concs.flatMap fun e => e.2.bad.map fun o => at' + i.nodeFoot * i.region + i.fieldFoot * e.1 + o

/-- What firmware may set in an image: NOTE in the header, and DBG of each context (R389, R405). -/
def Image.with (i : Image) (note : Bool) (dbg : Nat → Bool) : Image :=
  { i with note := note,
           sections := i.sections.map fun x => if x.ctx.run = .exited ∨ x.p ≠ x.r then x else { x with ctx := { x.ctx with dbg := dbg x.r } } }

end Sys2Proof.Machine
end

