-- ==== Sys2Proof/Machine/ImageRead.lean ====
section
/-! DEFINITION. Images read back from bytes (R7, R398 to R405, R411, R413): the image that the bytes of another module describe. What
the spec gives a part of the image without its place there stands where Image.lean puts it (log 31), and what bytes cannot say is
read as log 30 gives. -/

namespace Sys2Proof.Machine

/-! ### Fields of bytes -/

def slice (bs : List Byte) (o n : Nat) : List Byte := (bs.drop o).take n
def fieldAt (bs : List Byte) (o n : Nat) : Nat := leNat (slice bs o n)
def bitAt (bs : List Byte) (o k : Nat) : Bool := fieldAt bs o 1 / 2 ^ k % 2 == 1
/-- A table of `n` fields of `w` bytes from an offset on. -/
def column (bs : List Byte) (o w n : Nat) : Kv Nat := (List.range n).foldl (fun t k => Kv.set 0 t k (fieldAt bs (o + w * k) w)) []

/-! ### What tells that an image is whole (R405) -/

/-- A bit of a byte of an image, and DBG of the context of dense index `r`, as they stand in memory (R389, R403, R405). -/
def State.headerBit (s : State) (a byte k : Nat) : Bool := s.peekNat (a + byte) 1 / 2 ^ k % 2 == 1
def State.debugBit (s : State) (a r : Nat) : Bool := s.headerBit (a + 256) (104448 * r + 98304 + 90) 0
/-- The bytes of part `k` of an image, by the offset and size of its header. -/
def State.imagePart (s : State) (a k : Nat) : List Byte := s.peeks (a + s.peekNat (a + 32 + 16 * k) 8) (s.peekNat (a + 40 + 16 * k) 8)
/-- Whether VALID and the CRC of an image check. -/
def State.imageWhole (s : State) (a : Nat) : Bool :=
  s.peekNat (a + 252) 4 == validWord
    && s.peekNat (a + 240) 4 == crc32c (s.peeks a 240 ++ (List.range 4).flatMap (s.imagePart a))

/-! ### Configuration part (R161, R213, R402) -/

/-- A row of a block image. -/
def parseRow (bs : List Byte) : RowCfg :=
  { ent := ⟨BitVec.ofNat 8 (fieldAt bs 6 1), BitVec.ofNat 4 (fieldAt bs 7 1), BitVec.ofNat 47 (fieldAt bs 0 6)⟩,
    elive := BitVec.ofNat 32 (fieldAt bs 8 4), tlive := BitVec.ofNat 8 (fieldAt bs 12 1) }
/-- An element's part of a block from its image. -/
def parseElemCfg (bs : List Byte) : ElemCfg :=
  { dly := BitVec.ofNat 16 (fieldAt bs 10 2), fcw := BitVec.ofNat 32 (fieldAt bs 12 4), route := BitVec.ofNat 64 (fieldAt bs 16 8),
    rows := (List.range (fieldAt bs 1 1)).foldl (fun t p => Kv.set {} t (fieldAt bs 2 1 + p) (parseRow (slice bs (24 + 16 * p) 16))) [] }
/-- A block from its configuration part, with its mask and the bytes that it takes. -/
def parseBlock (bs : List Byte) : Nat × Block × Nat :=
  let map := slice bs 1600 256
  let size := 24 + 16 * fieldAt bs 1857 1
  let img := fun k => slice bs (1856 + size * k) size
  let b : Block :=
    { live := true, id := BitVec.ofNat 12 (fieldAt bs 0 2), clr := bitAt bs 3 0, nest := BitVec.ofNat 64 (fieldAt bs 4 8),
      stages := (List.range 32).foldl (fun t j => Kv.set 0 t j (fieldAt bs (12 + j / 2) 1 / 16 ^ (j % 2) % 16)) [],
      nodeB := column bs 28 8 128, nodeX := column bs 1052 2 128, concB := column bs 1308 8 16, concX := column bs 1436 2 16,
      strB := column bs 1468 8 16,
      ii := BitVec.ofNat 6 (fieldAt bs 1857 1), f := BitVec.ofNat 5 (fieldAt bs 1858 1), ewin := BitVec.ofNat 32 (fieldAt bs 1860 4),
      twin := BitVec.ofNat 8 (fieldAt bs 1864 1),
      elems := (map.zipIdx).foldl (fun t e => Kv.set {} t e.2 (parseElemCfg (img e.1.toNat))) [] }
  (fieldAt bs 2 1, b, 1856 + size * (map.foldl (fun m k => max m (k.toNat + 1)) 0))
/-- `n` blocks, and the bytes after them. -/
def parseBlocks : Nat → List Byte → List (Nat × Block) × List Byte
  | 0, bs => ([], bs)
  | n + 1, bs =>
    let (m, b, k) := parseBlock bs
    let (l, rest) := parseBlocks n (bs.drop k)
    ((m, b) :: l, rest)

/-! ### Block states (R403) -/

/-- The kernel cycle count that a mask resumes from, so that what began before its block did has a count too. -/
def countBase : Nat := 2 ^ 64
/-- A block and the 32 bytes of its state: its run, unless it is only loaded. -/
def parseRun (st : List Byte) : BlkRun :=
  { live := true, home := fieldAt st 20 2, copy := fieldAt st 12 4, iter := BitVec.ofNat 32 (fieldAt st 16 4),
    start := countBase + 1 + fieldAt st 8 4, stopped := true, faulted := fieldAt st 3 1 == 3 }
def stampedBlock (st : List Byte) (b : Block) : Block :=
  { b with copy := fieldAt st 12 4, stampN := fieldAt st 24 2, stampBase := BitVec.ofNat 16 (fieldAt st 26 2),
           stampStep := BitVec.ofNat 16 (fieldAt st 28 2), stampOstep := BitVec.ofNat 16 (fieldAt st 30 2) }
/-- The tile steps of a block whose issue lies behind a count and that have steps to read still (R253, R403, R404). -/
def parseTiles (m : Nat) (b : Block) (r : BlkRun) (kc p : Nat) : List TileRun :=
  (List.range (kc + 1 - r.start)).flatMap fun o =>
    match b.issues o with
    | none => []
    | some (j, _, _) => allElems.filterMap fun e =>
      let ent := ((b.elemCfg e).row j).ent
      let has := b.holds j ent
      let i := max 1 (tileI (rowOf ent) (b.elemCfg e).fcw)
      let next := (kc - (r.start + o)) / i + 1
      if isTile (rowOf ent) && (elemX e == 0 || !has (e - 1)) && (elemY e == 0 || !has (e - 16)) && decide (next < tileRep (rowOf ent)) then
        let lx := (List.range (16 - elemX e)).takeWhile fun k => has (e + k)
        let ly := (List.range (16 - elemY e)).takeWhile fun k => has (e + 16 * k)
        some { id := 0, pan := p, mask := BitVec.ofNat 8 m, ent := ent, row := j, copy := r.copy, ctx := 0, c := r.start + o, x0 := elemX e,
               nx := max 1 lx.length, y0 := elemY e, ny := max 1 ly.length, r := next }
      else none

/-! ### Element records (R399, R400) -/

/-- A destination code (R62). -/
def dstAt (c : Nat) : Dst :=
  if c < 32 then .e (BitVec.ofNat 5 c) else if c < 40 then .lane (BitVec.ofNat 3 c)
  else match allPorts[c - 0x28]? with | some p => .port p | none => .none
/-- Whether the row of a lane result adds to its lane, rather than setting it (R199, R260, R262, R272). -/
def laneAdds : Instr → Bool
  | .macf wr .. => !wr | .dmac wr .. => !wr | .tacc .. => true | .racc _ z .. => !z | _ => false
/-- Whether a result that reaches a lane of an element in kernel cycle `due` adds to it: the row that has issued it tells (R403). A RACC takes
four to seven kernel cycles (R272). -/
def Block.addsAt (b : Block) (start e due : Nat) (t : BitVec 3) : Bool :=
  [1, 2, 3, 4, 5, 6, 7].any fun lat => decide (start + lat ≤ due) && match b.issues (due - lat - start) with
    | none => false
    | some (j, _, _) =>
      let i := b.rowAt e j
      laneAdds i && (rowWrites i).any fun w => w.1 == .lane t && (w.2 == lat || (match i with | .racc .. => decide (4 ≤ lat) | _ => false))
/-- A captured value: for a lane the number that it is set to or that is added to it, and for every other destination its bits. -/
def valAt (d : Dst) (adds : Bool) (v : Nat) : EVal :=
  match d with
  | .lane _ => if adds then .addLane (BitVec.ofNat 64 v).toInt false else .setLane (BitVec.ofNat 64 v).toInt
  | _ => .bits (BitVec.ofNat 128 v)
/-- A lane from its ten bytes. -/
def parseLane (bs : List Byte) : Lane :=
  let w := fieldAt bs 8 2
  { l := BitVec.ofNat 64 (fieldAt bs 0 8), ovf := bitsN w 0 1 == 1, nan := bitsN w 1 1 == 1, valid := bitsN w 2 1 == 1,
    dirty := bitsN w 3 1 == 1, re := BitVec.ofNat 10 (bitsN w 4 10) }
/-- The bits of a mask of `n` bits, ascending. -/
def ones (v n : Nat) : List Nat := (List.range n).filter fun k => v / 2 ^ k % 2 == 1

/-- An element record, for the blocks that are resident on its pan with their runs. A port that PSAVE names has been reached since the flip of
its block. The record does not name the block of a result that is
pending: it is the first block whose windows or ports hold its destination. -/
def parseElem (bs : List Byte) (blocks : List (Nat × Block × BlkRun × Nat)) (e : Nat) : Elem :=
  let es := ones (fieldAt bs 0 4) 32
  let ts := ones (fieldAt bs 4 1) 8
  let flags := fieldAt bs 5 1
  let ny := (ones flags 4).length
  let wl := flags / 16 % 2 == 1
  let ps := ones (fieldAt bs 6 1) 4
  let ns := fieldAt bs 7 1
  let nc := fieldAt bs 8 1
  let ds := ones (fieldAt bs 10 8) 60
  let at0 := 24
  let at1 := at0 + 4 * es.length
  let at2 := at1 + 16 * ny
  let at3 := at2 + 10 * ts.length
  let at4 := at3 + (if wl then 32 else 0)
  let at5 := at4 + 16 * ps.length
  let at6 := at5 + 16 * ds.length
  let at7 := at6 + 24 * ns
  let owner := fun (f : Block → Bool) => match blocks.find? fun b => f b.2.1 with | some b => b | none => blocks.headD (0, {}, {}, countBase)
  let has := fun (d : Dst) (b : Block) => match d with
    | .e k => b.ewin.getLsbD k.toNat | .lane k => b.twin.getLsbD k.toNat | .port p => (b.usedPorts e).contains p | .none => true
  let mask := fun (o : Nat × Block × BlkRun × Nat) => BitVec.ofNat 8 o.1
  { e := es.zipIdx.foldl (fun t r => Kv.set 0 t r.1 (BitVec.ofNat 32 (fieldAt bs (at0 + 4 * r.2) 4))) [],
    t := ts.zipIdx.foldl (fun t r => Kv.set {} t r.1 (parseLane (slice bs (at2 + 10 * r.2) 10))) [],
    flight := (List.range ns).map fun k =>
      let at' := at6 + 24 * k
      let d := dstAt (0x28 + fieldAt bs (at' + 16) 1 % 4)
      let o := owner (has d)
      ⟨mask o, o.2.2.2 + 1 + fieldAt bs (at' + 16) 1 / 4 % 32, d, .bits (BitVec.ofNat 128 (fieldAt bs at' 16)), false, o.2.2.1.start⟩,
    ye := (List.range ny).map fun k =>
      let w := fieldAt bs (at1 + 16 * k + 8) 8
      let d := dstAt (bitsN w 1 6)
      let o := owner (has d)
      let left := bitsN w 7 5 + 1
      let adds := match d with | .lane t => o.2.1.addsAt o.2.2.1.start e (o.2.2.2 + left) t | _ => false
      ⟨mask o, left, d, valAt d adds (fieldAt bs (at1 + 16 * k) 8), !o.2.2.1.faulted, o.2.2.1.start, 0⟩,
    latchActive := if wl then BitVec.ofNat 128 (fieldAt bs at3 16) else 0,
    latchLoad := if wl then BitVec.ofNat 128 (fieldAt bs (at3 + 16) 16) else 0,
    ports := ps.zipIdx.foldl (fun t p => Kv.set {} t p.1 { v := BitVec.ofNat 128 (fieldAt bs (at4 + 16 * p.2) 16), since := 1 }) [],
    delay := ds.zipIdx.filterMap fun d => (allPorts[d.1 / 15]?).map fun p =>
      let o := owner (has (.port p))
      ⟨p, mask o, o.2.2.2 + d.1 % 15 + 1, none, BitVec.ofNat 128 (fieldAt bs (at5 + 16 * d.2) 16)⟩,
    contrib := (List.range nc).map fun k =>
      let at' := at7 + 12 * k
      let w := fieldAt bs (at' + 9) 1
      let t := BitVec.ofNat 3 w
      let o := owner fun b => b.twin.getLsbD t.toNat && b.indices.any fun j => tileLane (b.rowAt e j) == some t
      ⟨0, 0, mask o, o.2.2.2 + 1 + fieldAt bs (at' + 10) 1, t, (BitVec.ofNat 72 (fieldAt bs at' 9)).toInt, w / 8 % 2 == 1,
        BitVec.ofNat 10 (w / 16 + 16 * fieldAt bs (at' + 11) 1), o.2.2.1.start⟩ }

/-! ### Sequencer record (R403) -/

def parseLoop (bs : List Byte) : LoopEntry :=
  ⟨BitVec.ofNat 56 (fieldAt bs 0 8), BitVec.ofNat 56 (fieldAt bs 8 8), BitVec.ofNat 32 (fieldAt bs 16 8)⟩
/-- A replay register. What a halt in the handler has captured was issued after what the trap had (R37, R38). -/
def parseReplay (bs : List Byte) : Replay :=
  let w := fieldAt bs 8 8
  { v := bitsN w 0 1 == 1, dst := BitVec.ofNat 5 (bitsN w 1 5), cnt := BitVec.ofNat 5 (bitsN w 6 5), hlt := bitsN w 11 1 == 1,
    val := BitVec.ofNat 64 (fieldAt bs 0 8), seq := bitsN w 11 1 }

/-- A context from its sequencer record, in a region of `n` pans under dense numbers. The record of a poisoned landing register does not
say which access met the corrupt data: the address is a free value (log 30). -/
def parseCtx (bs : List Byte) (n : Nat) : Ctx :=
  let w := fun (k : Nat) => fieldAt bs k 8
  let loop := fun (k : Nat) => parseLoop (slice bs k 24)
  let st := w 8
  let tc := w 24
  let y := fun (k : Nat) => parseReplay (slice bs (640 + 16 * k) 16)
  { run := .halted .request, cyc := 2, pc := BitVec.ofNat 56 (w 0), hnd := bitsN st 0 1 == 1, yreq := bitsN st 1 1 == 1, ord := bitsN st 2 1 == 1,
    tvec := BitVec.ofNat 56 (w 16), tcode := BitVec.ofNat 8 tc, slsd := BitVec.ofNat 3 (tc / 256), tpc := BitVec.ofNat 56 (w 32),
    tval := BitVec.ofNat 64 (w 40), modefp := BitVec.ofNat 6 (w 48), ovfPtr := BitVec.ofNat 56 (w 56), spd := BitVec.ofNat 32 (w 64),
    ckpt := BitVec.ofNat 32 (w 72), dictAt := BitVec.ofNat 64 (w 80), dgen := BitVec.ofNat 8 (fieldAt bs 88 1),
    phase := BitVec.ofNat 8 (fieldAt bs 89 1), dbg := bitAt bs 90 0, occIssue := BitVec.ofNat 64 (w 96), occWait := BitVec.ofNat 64 (w 104),
    occOther := BitVec.ofNat 64 (w 112), occRows := BitVec.ofNat 64 (w 120), tauH := BitVec.ofNat 64 (w 128),
    s := (List.range 31).foldl (fun t k => Kv.set 0 t (k + 1) (BitVec.ofNat 64 (w (264 + 8 * k)))) [],
    l := (List.range 8).foldl (fun t k => Kv.set {} t k
      { val := BitVec.ofNat 64 (w (512 + 16 * k)), full := bitAt bs (520 + 16 * k) 0,
        poison := if bitAt bs (520 + 16 * k) 1 then some (BitVec.ofNat 64 (Config.freeNat k)) else none }) [],
    y0 := y 0, y1 := y 1, y2 := y 2, y3 := y 3,
    ls := (List.range (bitsN st 3 3)).map fun k => loop (704 + 24 * k),
    lss0 := loop 800, lss1 := loop 824, lss2 := loop 848, lss3 := loop 872,
    h := (List.range 16).foldl (fun t k => Kv.set 0 t k (fieldAt bs (1024 + 64 * k) 64)) [],
    map := List.range n }

/-! ### Units and chains (R403), as UnitWrite.unitRecord and its like lay them out (log 31) -/

/-- A number of `n` bytes, and the bytes after it. -/
def takeNum (n : Nat) (bs : List Byte) : Nat × List Byte := (leNat (bs.take n), bs.drop n)

/-- What the pan record holds of a unit: its owed writes, a block-quantise element, and of a chain its counts, marks and tokens. -/
structure UnitRead where
  writes : List UnitWrite := []
  bq : BqUnit := {}
  since : Nat := 0
  left : Nat := 0
  owed : Nat := 0
  marks : Nat := 0
  toks : List (Nat × List Nat) := []
  deriving DecidableEq, Repr

/-- The kernel cycle that a mask of a pan has reached, and the start of the block that runs on it. -/
structure Clocks where
  pan : Nat
  now : Nat → Nat
  start : Nat → Nat

/-- `n` owed writes of a unit: of the rake, of the block-quantise element of a pan row `u`, or of a chain under mask `m` and number `u`. -/
def parseOwed (k : Clocks) (kind u m : Nat) : Nat → List Byte → List UnitWrite × List Byte
  | 0, bs => ([], bs)
  | n + 1, bs =>
    let f := fun (o w : Nat) => fieldAt bs o w
    let m := if kind = 3 then m else f 0 1
    let w : UnitWrite :=
      { pan := k.pan, mask := BitVec.ofNat 8 m, due := k.now m + 1, unit := kind, ord := 0, key := 0, stream := false, slot := 0, off := 0,
        bytes := [], adv := false, skey := 0, sbyte := 0, blk := k.start m }
    let (w, size) : UnitWrite × Nat :=
      match kind with
      | 0 =>
        let dst := f 2 1
        let len := packetBytes (bitsN (f 3 4) 16 6 + 1)
        let die := if dst / 64 % 2 = 1 then dieOf k.pan else (dieOf k.pan + 1) % 8
        ({ w with due := w.due + f 1 1, key := if 128 ≤ dst then 16 * die + dst % 16 else dst % 16, stream := decide (128 ≤ dst),
                  bytes := slice bs 3 len }, 3 + len)
      | 1 => ({ w with due := w.due + f 1 1, ord := u, key := f 2 1, skey := f 3 1, slot := f 4 4, sbyte := BitVec.ofNat 8 (f 8 1),
                       bytes := slice bs 10 (f 9 1) }, 10 + f 9 1)
      | _ => ({ w with due := w.due + f 0 2, key := u, slot := f 2 1, off := f 3 4, adv := f 7 1 == 1, skey := f 8 1, bytes := slice bs 9 4 }, 13)
    let (l, rest) := parseOwed k kind u m n (bs.drop size)
    (w :: l, rest)
def parseTail (k : Clocks) (kind u m : Nat) (bs : List Byte) : List UnitWrite × List Byte :=
  let (n, bs) := takeNum 2 bs
  parseOwed k kind u m n bs
/-- Tokens of a chain, and the bytes after them. -/
def parseToks : Nat → List Byte → List (Nat × List Nat) × List Byte
  | 0, bs => ([], bs)
  | n + 1, bs =>
    let vs := (List.range (fieldAt bs 4 1)).map fun j => fieldAt bs (5 + 4 * j) 4
    let (l, rest) := parseToks n (bs.drop (5 + 4 * vs.length))
    ((fieldAt bs 0 4, vs) :: l, rest)

/-- A unit, and the bytes after it. -/
def parseUnit (k : Clocks) (kind u m : Nat) (bs : List Byte) : UnitRead × List Byte :=
  match kind with
  | 0 => let (ws, rest) := parseTail k 0 0 0 bs; ({ writes := ws }, rest)
  | 1 =>
    let n := fieldAt bs 4 1
    let each := fieldAt bs 5 1 == 0xFF
    let at' := if each then 6 + n else 6
    let tok := fun (j : Nat) => (BitVec.ofNat 32 (fieldAt bs (at' + 4 * j) 4), BitVec.ofNat 6 (fieldAt bs (if each then 6 + j else 5) 1))
    let (ws, rest) := parseTail k 1 u 0 (bs.drop (at' + 4 * n))
    ({ writes := ws, bq := { beta := fieldAt bs 0 4, toks := (List.range n).map tok } }, rest)
  | 3 =>
    let (toks, rest) := parseToks (fieldAt bs 21 2) (bs.drop 23)
    let (ws, rest) := parseTail k 3 u m rest
    ({ writes := ws, since := fieldAt bs 0 8, left := fieldAt bs 8 8, owed := fieldAt bs 16 4, marks := fieldAt bs 20 1, toks := toks }, rest)
  | _ => ({}, bs)

/-- The units of a pan in order, as kind, number and mask, each in its size; what one has beyond it stands after them all. -/
def parseUnits (k : Clocks) : List (Nat × Nat × Nat) → List Byte → List Byte → List (Nat × Nat × UnitRead)
  | [], _, _ => []
  | (kind, u, m) :: r, bs, extra =>
    let n := unitSize kind
    let (x, rest) := parseUnit k kind u m (bs.take n ++ extra)
    (kind, u, x) :: parseUnits k r (bs.drop n) (extra.drop (extra.length - rest.length))

/-- A chain takes up its tokens from the state that its pan record holds of it. -/
def Cmd.withState (k : Cmd) (kc : Nat) (x : UnitRead) : Cmd :=
  { k with kc := kc - x.since, left := x.left, owed := x.owed, code := x.marks % 2, q := x.marks / 2 % 2, toks := x.toks }

/-! ### A section (R398, R403) -/

/-- The key counts of a pan: masks of blocks that run. -/
def countsOf (blocks : List (Nat × Block × BlkRun × Nat)) (m : Nat) : Nat :=
  match blocks.find? fun b => b.1 == m && b.2.2.1.live with | some b => b.2.2.2 | none => countBase

/-- The section of a pan from its element records, its pan record, its configuration part and its field record, with its chains; and what
follows in the configuration part. Bindings and sluice positions come later from the buffer part. -/
def parseSection (elems rec conf field : List Byte) (ctx : Ctx) (r p : Nat) (chains : List Cmd) : (Section × List Cmd) × List Byte :=
  let states := ((List.range 8).map fun k => slice rec (32 * k) 32).filter fun st => fieldAt st 3 1 != 0
  let (bl, rest) := parseBlocks states.length conf
  let all := (states.zip bl).map fun e =>
    let loaded := fieldAt e.1 3 1 == 1
    let run := if loaded then { parseRun e.1 with live := false } else parseRun e.1
    (loaded, e.2.1, stampedBlock e.1 e.2.2, run, countBase + fieldAt e.1 4 4)
  let on := all.filter fun b => !b.1
  let off := all.filter fun b => b.1
  let blocks := all.map (·.2)
  let kc := countsOf blocks
  let regs := (((all.flatMap fun b => b.2.2.1.units).dedup.filter fun u => decide (64 ≤ u) && decide (u < 80)).map (· - 64)).mergeSort
  let put := fun (l : List (Bool × Nat × Block × BlkRun × Nat)) => l.foldl (fun t b => Kv.set {} t b.2.1 b.2.2.1) ([] : Kv Block)
  let sec : Section :=
    { r := r, p := p, ctx := ctx,
      elems := allElems.foldl (fun t e => Kv.set {} t e (parseElem (slice elems (384 * e) 384) blocks e)) [],
      active := put on, shadow := put off,
      runs := on.foldl (fun t b => Kv.set {} t b.2.1 b.2.2.2.1) [],
      kcnt := (on.map (·.2.1) ++ chains.map fun k => (chainWord k.instr).mask.toNat).foldl (fun t m => Kv.set 0 t m (kc m)) [],
      tiles := on.flatMap fun b => parseTiles b.2.1 b.2.2.1 b.2.2.2.1 b.2.2.2.2 p,
      writes := [], bq := [],
      tables := { gA := fieldAt rec 256 64, gS := fieldAt rec 320 64, vA := fieldAt rec 384 260, vS := fieldAt rec 644 260,
                  gNew := bitAt rec 1928 0, vNew := bitAt rec 1928 1, i16A := bitAt rec 1928 2, i16S := bitAt rec 1928 3 },
      metas := regs.zipIdx.foldl (fun t m => Kv.set {} t m.1 { v := fieldAt rest (128 * m.2) 128, valid := true }) [],
      nodeCtl := [], concCtl := [], streams := [], sluice := [] }
  let clocks : Clocks := { pan := p, now := kc, start := fun m => (Kv.get {} sec.runs m).start }
  let kinds := (sec.strip.map fun u => if u = 0 then (0, 0, 0) else if u ≤ 16 then (1, u - 1, 0) else (2, u, 0))
    ++ chains.map fun k => (3, k.id, (chainWord k.instr).mask.toNat)
  let strip := slice rec 904 1024
  let units := parseUnits clocks kinds strip (strip.drop ((kinds.map fun u => unitSize u.1).foldl (· + ·) 0))
  let state := fun (k : Cmd) => match units.find? fun u => u.1 == 3 && u.2.1 == k.id with
    | some u => k.withState (kc (chainWord k.instr).mask.toNat) u.2.2 | none => k
  let ents := ((streamEntries (blocks.map fun b => (b.2.1, 0))).map (·.1)).dedup
  let str := fun (n : Nat) =>
    let q := slice field (64 * (n / 2)) 64
    let k := fieldAt q 8 8
    let bound := bitAt q 0 0 && bitAt q 0 2 == (n % 2 == 1)
    if bound then
      if bitAt q 0 1 then ({ depth := fieldAt q 2 2, first := fieldAt q 4 2, g := fieldAt q 6 2, kR := k, kStage := k, pos := fieldAt q 18 2,
                             pktX := BitVec.ofNat 16 (fieldAt field (1056 + 2 * (n / 2)) 2) } : Stream)
      else { depth := fieldAt q 2 2, first := fieldAt q 4 2, g := fieldAt q 6 2, kS := k, units := BitVec.ofNat 16 (fieldAt q 16 2) }
    else {}
  (({ sec with writes := units.flatMap fun u => u.2.2.writes,
               bq := (units.filter fun u => u.1 == 1).foldl (fun t u => Kv.set {} t u.2.1 u.2.2.bq) [],
               streams := ents.foldl (fun t n => Kv.set {} t n (str n)) [] }, chains.map state), rest.drop (128 * regs.length))

/-! ### Engine records (R397) -/

/-- The bytes or elements that a command's object counts in all (R353). -/
def Cmd.total (k : Cmd) : Nat :=
  let a := shapeOf k.a
  let b := shapeOf k.b
  match k.instr with
  | .sscat .. => a.bytes
  | .sscata .. => a.bytes
  | .sisect .. => 1
  | .tcopyc .. => b.bytes + (if k.scaledB then b.count / 32 else 0)
  | .prune .. => b.bytes + 128 * ceilDiv (b.size 1) 16
  | .rput .. => if k.op 2 ≤ 65535 then messageBytes (k.op 2) else 1
  | .rget .. => 1
  | .rpeek .. => 1
  | .evict .. => k.op 2
  | .pref .. => k.op 2
  | _ => b.bytes

/-- A command from its record, for the context under whose pan it stands. The MODEFP and ORD of its issue are not in the record: they are
those of the context (log 30). Its identifier is its place in the image until it is taken up. -/
def parseCmd (bs : List Byte) (id p : Nat) (x : Ctx) : Option Cmd :=
  match decodeWord (BitVec.ofNat 96 (fieldAt bs 0 12)) with
  | .error _ => none
  | .ok i =>
    if fieldAt bs 0 12 = 0 then none
    else
      let k : Cmd :=
        { id := id, pan := p, ctx := fieldAt bs 13 1, instr := i, st := .stopped, obj := BitVec.ofNat 64 (fieldAt bs 16 8), loc := ⟨0, 0, false, 0⟩,
          a := fieldAt bs 80 64, b := fieldAt bs 144 64,
          ops := if isChain i then [] else (List.range 3).map fun j => BitVec.ofNat 64 (fieldAt bs (24 + 8 * j) 8),
          modefp := x.modefp, ord := x.ord, left := 0, p := fieldAt bs 48 8, q := fieldAt bs 56 8, w := fieldAt bs 64 8, deps := [], ready := 0,
          kc := 0, code := 0, eadr := 0, toks := [], started := bitAt bs 12 0 }
      let k := match i with
        | .tcopyc .. => { k with p := k.p / k.group }
        | .prune .. => { k with p := ceilDiv k.p pruneRows }
        | _ => k
      some { k with left := k.total - k.written k.p, w := if isChain i && k.started then 1 else k.w }

/-- The commands of a pan, in record order. -/
def parseCmds (eng : List Byte) (p : Nat) (x : Ctx) : List Cmd :=
  (List.range 64).filterMap fun j => parseCmd (slice eng (16384 * p + 256 * j) 256) (64 * p + j) p x

/-! ### Buffer part (R304, R398, R457, R458, R462) -/

/-- A control entry, and the bytes after it. -/
def parseBind (bs : List Byte) : BindCtl × List Byte :=
  let d := fieldAt bs 8 2
  let slot := fun (k : Nat) =>
    ({ full := bitAt bs (33 + 3 * k) 0, chk := bitAt bs (33 + 3 * k) 1, tag := BitVec.ofNat 16 (fieldAt bs (34 + 3 * k) 2) } : SlotCtl)
  ({ base := fieldAt bs 0 4, size := fieldAt bs 4 4, depth := d, dir := BitVec.ofNat 2 (fieldAt bs 10 1), rp := fieldAt bs 11 2,
     wp := fieldAt bs 13 2, pctr := BitVec.ofNat 16 (fieldAt bs 15 2), xctr := BitVec.ofNat 16 (fieldAt bs 17 2), units := fieldAt bs 19 4,
     rankPos := fieldAt bs 23 4, wpos := fieldAt bs 27 4, pktW := BitVec.ofNat 16 (fieldAt bs 31 2),
     slots := (List.range d).foldl (fun t k => Kv.set {} t k (slot k)) [] }, bs.drop (33 + 3 * d))
def parseBinds : List Nat → List Byte → Kv BindCtl × List Byte
  | [], bs => ([], bs)
  | k :: r, bs =>
    let (c, bs) := parseBind bs
    let (t, bs) := parseBinds r bs
    (Kv.set {} t k c, bs)

/-- A place of 275 bytes. -/
def parsePlace (bs : List Byte) : Place :=
  { k := fieldAt bs 0 8, sTau := BitVec.ofNat 64 (fieldAt bs 8 8), np := fieldAt bs 16 2, refused := bitAt bs 18 0, used := bitAt bs 18 1,
    full := bitAt bs 18 2, data := fieldAt bs 19 256 }
def parsePlaces (n : Nat) (bs : List Byte) : List Place := (List.range n).map fun k => parsePlace (slice bs (275 * k) 275)
def placeBytes : Nat := 275

/-- A bound stream's end, and its sluice positions; and the bytes after it. -/
def parseSluice (sec : Section) (e : Nat × Nat) (bs : List Byte) : Section × List Byte :=
  let st := Kv.get {} sec.streams e.1
  let a := placeBytes * st.depth
  let nm := fieldAt bs a 2
  let b := a + 2 + placeBytes * nm
  let ng := fieldAt bs b 2
  let c := b + 2 + placeBytes * ng
  let pkt := BitVec.ofNat 16 (fieldAt bs c 2)
  let st := { st with marks := parsePlaces nm (bs.drop (a + 2)), stage := parsePlaces ng (bs.drop (b + 2)),
                      npk := fieldAt bs (c + 2) 2, kStage := st.kStage + ng,
                      refusing := if bitAt bs (c + 4) 0 then some (fieldAt bs (c + 5) 8) else none }
  let st := if strRecv e.2 then { st with pktX := pkt } else { st with pktW := pkt }
  let pos := (parsePlaces st.depth bs).zipIdx.foldl (fun t q => Kv.set {} t (65536 * e.1 + q.2) q.1) sec.sluice
  ({ sec with streams := Kv.set {} sec.streams e.1 st, sluice := pos }, bs.drop (c + 13))
def parseSluices (sec : Section) : List (Nat × Nat) → List Byte → Section × List Byte
  | [], bs => (sec, bs)
  | e :: r, bs =>
    let (sec, bs) := parseSluice sec e bs
    parseSluices sec r bs

/-- The listed bytes of a footprint. -/
def parseFoot (bs : List Byte) : Foot := { cells := (bs.zipIdx.filter fun b => b.1 != 0).map fun b => (b.2, b.1) }

/-- A sum of ordered fadds, in 55 bytes. -/
def parseFadd (bs : List Byte) : FaddEntry :=
  let v := fieldAt bs 54 1
  { dev := fieldAt bs 0 2, pa := fieldAt bs 2 8, task := ⟨0, BitVec.ofNat 32 (fieldAt bs 10 4)⟩, sum := (BitVec.ofNat 320 (fieldAt bs 14 40)).toInt,
    negz := v % 2 == 1, nan := v / 2 % 2 == 1, pinf := v / 4 % 2 == 1, ninf := v / 8 % 2 == 1 }

/-! ### The image -/

/-- Sections in the order of an image with their chains, each taking its blocks from the configuration part where the last has left it. -/
def parseSections (f : Nat → List Byte → (Section × List Cmd) × List Byte) : List Nat → List Byte → List (Section × List Cmd)
  | [], _ => []
  | k :: r, conf =>
    let (x, rest) := f k conf
    x :: parseSections f r rest
/-- The control entries of the sections, then their footprints' place. -/
def takeBinds : List Section → List Byte → List Section × List Byte
  | [], bs => ([], bs)
  | x :: r, bs =>
    let (n, bs) := parseBinds x.nodeKeys bs
    let (c, bs) := parseBinds x.concKeys bs
    let (l, bs) := takeBinds r bs
    ({ x with nodeCtl := n, concCtl := c } :: l, bs)
def takeSluices : List Section → List Byte → List Section × List Byte
  | [], bs => ([], bs)
  | x :: r, bs =>
    let (x, bs) := parseSluices x x.bound bs
    let (l, bs) := takeSluices r bs
    (x :: l, bs)

/-- The image that the parts of whole bytes describe; the footprint sizes are those of the partition that takes it. -/
def parseImage (hdr exe conf eng buf : List Byte) (nf ff : Nat) : Image :=
  let pans := fieldAt hdr 10 1 + 1
  let fc := (fieldAt hdr 11 1 + 1) * (fieldAt hdr 12 1 + 1)
  let n := pans * fc
  let stamps := (exe.length - 104448 * n - 32768 * fc) / 100352
  let homeAt := fun (r : Nat) => slice exe (104448 * r) 104448
  let copyAt := fun (k : Nat) => slice exe (104448 * n + 100352 * (k - n)) 100352
  let fieldRec := fun (p : Nat) => slice exe (104448 * n + 100352 * stamps + 32768 * (p / pans)) 32768
  let ctx := fun (r : Nat) => parseCtx (slice (homeAt r) 98304 4096) n
  let gone := fun (r : Nat) => bitAt (homeAt r) (98304 + 90) 1
  let cmdsAt := fun (r : Nat) => if eng.isEmpty || gone r then [] else parseCmds eng r (ctx r)
  let sec := fun (k : Nat) (conf : List Byte) =>
    if k < n then
      if gone k then ((exitedSection k (fieldAt (homeAt k) (98304 + 92) 2), []), conf)
      else parseSection (slice (homeAt k) 0 98304) (slice (homeAt k) 102400 2048) conf (fieldRec k) (ctx k) k k
        ((cmdsAt k).filter fun c => isChain c.instr)
    else
      let rec' := slice (copyAt k) 98304 2048
      let p := fieldAt rec' 22 2
      parseSection (slice (copyAt k) 0 98304) rec' conf (fieldRec p) {} (fieldAt rec' 20 2) p []
  let read := parseSections sec (List.range (n + stamps)) conf
  let chains := read.flatMap (·.2)
  let (secs, buf) := takeBinds (read.map (·.1)) buf
  let rpos := fun (x : Section) => { x with concCtl := x.concCtl.map fun c =>
    (c.1, { c.2 with pktX := BitVec.ofNat 16 (fieldAt (fieldRec x.p) (1024 + 2 * c.1) 2), rpos := fieldAt (fieldRec x.p) (1088 + 2 * c.1) 2 }) }
  let (secs, fadds) := takeSluices (secs.map rpos) (buf.drop (nf * n + ff * fc + 8))
  let known := fun (k : Cmd) => (chains.find? fun j => j.id == k.id).getD k
  { level := fieldAt hdr 4 4, tenant := BitVec.ofNat 16 (fieldAt hdr 8 2), pans := pans, fields := fieldAt hdr 11 1 + 1, dies := fieldAt hdr 12 1 + 1,
    slots := BitVec.ofNat 8 (fieldAt hdr 13 1), note := bitAt hdr 14 0, soft := bitAt hdr 14 1, nested := bitAt hdr 14 2,
    nestedCause := BitVec.ofNat 8 (fieldAt hdr 15 1), task := BitVec.ofNat 32 (fieldAt hdr 16 4), inst := BitVec.ofNat 24 (fieldAt hdr 20 3),
    haltCount := fieldAt hdr 24 8, sections := secs, cmds := (List.range n).flatMap fun r => (cmdsAt r).map known,
    fadds := (List.range (fadds.length / 55)).map fun k => parseFadd (slice fadds (55 * k) 55),
    tauH := BitVec.ofNat 64 (fieldAt buf (nf * n + ff * fc) 8),
    nodes := (List.range n).map fun p => (p, parseFoot (slice buf (nf * p) nf)),
    concs := (List.range fc).map fun f => (f, parseFoot (slice buf (nf * n + ff * f) ff)),
    nodeFoot := nf, fieldFoot := ff }

/-- An image whose commands and tile steps have identifiers from `n` on, and how many it takes. -/
def Image.numbered (i : Image) (n : Nat) : Image × Nat :=
  let ids := i.cmds.map (·.id)
  let all := i.sections.flatMap (·.tiles)
  let tile := fun (t : TileRun) => { t with id := n + ids.length + all.idxOf t }
  ({ i with cmds := i.cmds.map fun k => { k with id := n + ids.idxOf k.id, deps := (k.deps.filter ids.contains).map fun d => n + ids.idxOf d },
            sections := i.sections.map fun x =>
              { x with tiles := x.tiles.map tile,
                       writes := x.writes.map fun w => if w.unit = 3 then { w with key := n + ids.idxOf w.key } else w } },
    ids.length + all.length)

/-- The image that the bytes at an address describe, for a partition; poisoned bytes of its footprints stay poisoned (R419, R422). -/
def State.parseImage (s : State) (p : Part) (a : Nat) : Option Image :=
  let part := s.imagePart a
  let i := Machine.parseImage (s.peeks a 240) (part 0) (part 1) (part 2) (part 3) p.nodeFootprint p.fieldFootprint
  let at' := a + s.peekNat (a + 80) 8 + i.controlBytes.length
  let bad := fun (o n : Nat) => (s.poison.filter fun e => decide (at' + o ≤ e.1) && decide (e.1 < at' + o + n)).map fun e => e.1 - (at' + o)
  some { i with nodes := i.nodes.map (fun e => (e.1, { e.2 with bad := bad (i.nodeFoot * e.1) i.nodeFoot })),
                concs := i.concs.map fun e => (e.1, { e.2 with bad := bad (i.nodeFoot * i.region + i.fieldFoot * e.1) i.fieldFoot }) }

end Sys2Proof.Machine
end

