-- ==== Sys2Proof/Machine/Reset.lean ====
section
/-! DEFINITION. Wipes of footprints and control entries (R304, R420, R421, R427), and the reset of a partition (R420). -/

namespace Sys2Proof.Machine

/-! ### Wipes (R304, R421, R427) -/

/-- Stores to the memories of a field that were still to become visible are gone with what a wipe clears. -/
def State.dropStores (s : State) (field : Nat) : State :=
  let keep := fun (e : Nat × Nat × List Byte) => fieldOfArray (arrayOf e.2.1) != some field
  { s with stores := s.stores.filter keep, fresh := s.fresh.filter keep }

/-- The footprint of a field is wiped (R421). -/
def State.wipeFoot (s : State) (p : Part) (field : Nat) : State :=
  let s := s.dropStores field
  let s := (fieldPans (16 * field)).foldl (fun (s : State) pan => s.wipe (nodeBase pan) p.nodeFootprint) s
  s.wipe (fieldBase field) p.fieldFootprint

/-- A control entry with FULL, TAG and CHK at 0 (R304). -/
def BindCtl.emptied (c : BindCtl) : BindCtl := { c with slots := [] }
/-- Entries of a table under one number, emptied. -/
def emptyCtl (m : Kv BindCtl) (n q : Nat) : Kv BindCtl :=
  m.filterMap fun e => if e.1 / n = q then (if e.2.emptied = {} then none else some (e.1, e.2.emptied)) else some e
/-- The control entries of the nodes and the concentrator of a field lose FULL, TAG and CHK (R304). -/
def State.clearCtl (s : State) (field : Nat) : State :=
  { s with nodeCtl := (fieldPans (16 * field)).foldl (fun m p => emptyCtl m 128 p) s.nodeCtl, concCtl := emptyCtl s.concCtl 16 field }

/-! ### Reset of a partition (R420) -/

/-- The fields of a partition. -/
def Part.fields (p : Part) : List Nat := (List.range 48).filter fun f => p.fset.getLsbD f

/-- Contexts of a partition that have still to halt. -/
def State.stillRunning (s : State) (pid : Nat) : List Nat :=
  Kv.keysWhere (fun _ x => x.pid == pid && (x.run == .running || x.run == .stop || x.run == .loading || x.run == .halting)) s.ctxs

/-- Objects that the contexts of a partition wait on or are to be told of: of a held CPLWAIT or BARWAIT, and of a MSG under way. -/
def State.awaited (s : State) (pid : Nat) : List Loc :=
  let held := (s.ctxs.filter fun e => e.2.pid == pid).filterMap fun e => match e.2.instr?, e.2.hold with
    | some (.cplwait ..), some h => some (s.locate e.2 true h.val.toNat)
    | some (.barwait ..), some h => some (s.locate e.2 true h.val.toNat)
    | _, _ => none
  let mine := fun (c : Nat) => (s.ctx c).pid == pid
  held
    ++ s.accs.filterMap fun a => match a.kind with | .msg _ cpl => if mine a.ctx then some cpl else none | _ => none

/-- Every instance of the tasks of a partition ends with code 0xFFFF, those that wait in its queue or have not started too; the object of
each task, of each of its commands as it ends, and those that its contexts wait on take code 0x020D (R295, R420; which objects count as
reachable is log 68). What its contexts have issued and is not performed yet is dropped (R420). -/
def State.endPartition (s : State) (pid : Nat) : State :=
  let mine := (s.tasks.filter fun t => t.1 / 2 ^ 32 == pid && t.2.state != .exited).map fun t => (⟨pid, BitVec.ofNat 32 t.1⟩ : TaskRef)
  let objs := s.awaited pid
  let s := (Kv.keysWhere (fun _ x => x.run != .free && x.pid == pid) s.ctxs).foldl (fun s c => s.resetCtx c) s
  let s := objs.foldl (fun s l => s.updateObj pid l fun o => o.report 0x020D 0) s
  let s := mine.foldl (fun s r => s.updateObj pid (s.task r).cpl fun o => o.report 0x020D 0) s
  let s := mine.foldl (fun s r => (List.range (s.task r).info.count).foldl (fun s i => s.retireInst r (BitVec.ofNat 24 i) 0xFFFF) s) s
  (Kv.keysWhere (fun _ x => x.pid == pid && x.run != .free) s.ctxs).foldl (fun s c => s.setCtx c {}) s

/-- A save whose copy has not ended is abandoned: its slot keeps VALID = 0 (R405, R420). -/
def State.dropSave (s : State) (b : BankSlot) : State := if s.cycle < b.upto then s.physWrite (b.addr + 252) (natLe 4 0) else s

/-- What the partition's fields hold is wiped: footprints, control entries, reservoir units, sluice slots and shadow bank slots. -/
def State.wipePartition (s : State) (pid : Nat) : State :=
  let p := s.part pid
  let s := p.fields.foldl (fun s f => (s.wipeFoot p f).clearCtl f) s
  let s := ((List.range ((p.z + 0x1FFFFF) / 0x200000)).map (s.resUnit p)).foldl (fun s a => s.wipe a 0x200000) s
  let pans := p.fields.flatMap fun f => fieldPans (16 * f)
  let mine := fun (k : Nat) => k / 128 == pid
  let slots := (s.shadowBank.filter fun e => pans.contains e.1).flatMap (·.2)
  { slots.foldl State.dropSave s with
    sluice := s.sluice.filter fun e => !mine (e.1 / 16384 * 16), streams := s.streams.filter fun e => !mine e.1,
    shadowBank := s.shadowBank.filter fun e => !pans.contains e.1, fieldBank := s.fieldBank.filter fun e => !p.fields.contains e.1,
    mirror := s.mirror.filter fun e => !pans.contains e.1, bankControl := s.bankControl.filter fun e => !pans.contains (e.1 / 4096) }

/-- The end of a reset, once every context has halted (R420, steps 3 to 5). -/
def State.endReset (s : State) (pid : Nat) : State :=
  let p := s.part pid
  if p.rst && (s.stillRunning pid).isEmpty then
    let s := (s.endPartition pid).wipePartition pid
    (s.setPart pid { s.part pid with rst := false, cause := (0, none) }).emit (.reset (BitVec.ofNat 7 pid) p.cause.1 p.cause.2)
  else s

/-- Resets whose contexts have all halted or gone end with the fabric cycle. -/
def State.endResets (s : State) : State := (s.parts.filter fun e => e.2.rst).foldl (fun s e => s.endReset e.1) s

/-- The beginning of a reset (R420, steps 1 and 2): RST is set, every context that runs is to halt, and the cause is kept. It ends at once
when none does. -/
def State.resetPartition (s : State) (pid array : Nat) (entry : Option Nat) : State :=
  let s := s.setPart pid { s.part pid with rst := true, cause := (array, entry) }
  let ask := fun (s : State) (c : Nat) =>
    let x := s.ctx c
    if x.run = .halting then s else s.setCtx c { x with haltReq := some (s.cycle, none) }
  ((s.stillRunning pid).foldl ask s).endReset pid

end Sys2Proof.Machine
end

