-- ==== Sys2Proof/Machine/Preempt.lean ====
section
/-! DEFINITION. Pre-emption: the halt of a context (R393 to R396, R458), the save of an instance (R395, R405 to R407), the ladder
(R409, R421), and resumption (R411, R412, R459, R498). -/

namespace Sys2Proof.Machine

/-! ### The instruction-level halt (R393, R394, R458) -/

/-- Whether the program tide of a context has reached one that a halt names; a program tide with its top bit set lies before START (R458). -/
def State.tauPast (s : State) (c : Nat) (m : Word) : Bool := !(s.tau c).msb && m.ule (s.tau c)

/-- HALT_REQUEST (R393, R458): a halt tide that has passed already counts for nothing. -/
def execHaltRequest (ctx : Nat) (tauH : Option (BitVec 64)) (s : State) : Out :=
  let x := s.ctx ctx
  if x.run = .running ∨ x.run = .stop ∨ x.run = .loading then
    let t := tauH.filter fun m => !s.tauPast ctx m
    .next (s.setCtx ctx { x with haltReq := some (s.cycle, t) })
  else .next s

/-- Whether this cycle is the halt point of a requested halt, or one has passed that an ECALL has put off (R143, R393, R447,
R458). -/
def State.atHaltPoint (s : State) (c : Nat) : Bool :=
  match (s.ctx c).haltReq with
  | none => false
  | some (t, none) => decide (t < s.cycle) && !s.stalled (panOf c) && s.wheel (panOf c) == 0
  | some (t, some m) => decide (t < s.cycle) && !s.stalled (panOf c) && s.tauPast c m

/-- Whether a context waits for the answer of an ECALL that firmware has accepted (R142, R143; log 45). -/
def Ctx.awaitsAnswer (x : Ctx) : Bool :=
  match x.instr?, x.hold with
  | some (.ecall _ _ _), some h => h.stage == 1
  | _, _ => false

/-- A block fault that the context has still to take gives way to the halt: its blocks and chains resume with the others, and their
stopped kernel cycle runs again (R179, R394). A fault of landed data that had given way to it waits in its place (R392). -/
def State.withdrawFault (s : State) (c : Nat) : State :=
  let x := s.ctx c
  match x.bfault with
  | none => s
  | some f =>
    if f.rank = [] then s
    else
      let free := fun (s : State) (k : Nat) =>
        let m := keyMask k
        let r := s.runOf (keyPan k) m
        (s.setRun (keyPan k) m { r with faulted := false }).mapElems (keyPan k) fun x =>
          { x with ye := x.ye.map fun y => if y.mask == m then { y with hlt := true } else y }
      let s := (s.runsOf c).foldl free (s.setCtx c { x with bfault := x.struckLate.map fun a => ⟨0x12, a, [], none⟩, struckLate := none })
      { s with cmds := s.cmds.map fun k => if k.ctx == c && isChain k.instr && k.st == .stopped then { k with code := 0 } else k }

/-- An ECALL that firmware has answered is complete before the halt: its answer waits with count 0 in the lowest free replay register,
which is y0 unless a trap's results wait (R37, R143). -/
def Ctx.settleEcall (x : Ctx) : Ctx :=
  match x.instr?, x.hold with
  | some (.ecall rd _ _), some h =>
    if h.stage = 2 then ({ x.goNext x.next with hold := none } : Ctx).captureOne x.cyc true ⟨.s rd, h.val, x.cyc, false, none, x.cyc⟩
    else x
  | _, _ => x

def Run.isHalted : Run → Bool | .halted _ => true | _ => false

/-- The halt of a context in this cycle: capture, and the occupancy counters added (R296, R393). -/
def State.haltNow (s : State) (c : Nat) (run : Run) : State :=
  let s := (s.withdrawFault c).flushOcc c
  (s.setCtx c (s.ctx c).settleEcall).haltCtx c run

/-- Bytes that a context's NST rows still owe. -/
def State.owesStore (s : State) (c : Nat) (w : UnitWrite) : Bool := w.unit == 2 && (s.runsOf c).contains (blkKey w.pan w.mask)
/-- The bytes that NST rows still owe are written during capture (R393). -/
def State.finishStores (s : State) (c : Nat) : State :=
  let sel := s.owesStore c
  (sortWrites (s.writes.filter sel)).foldl State.makeWrite { s with writes := s.writes.filter fun w => !sel w }

/-- A context that has halted at a nested fault or for the debugger has still to write what its rows owe and to add its occupancy counters
(R296, R389, R391, R395). -/
def State.haltOwes (s : State) (c : Nat) : Bool :=
  let x := s.ctx c
  x.run.isHalted && (s.writes.any (s.owesStore c)
    || (x.occ != 0 && (x.occIssue != 0 || x.occWait != 0 || x.occOther != 0 || x.occRows != 0)))

/-- Cycles that capture takes at most (R393). -/
def captureCycles : Nat := 16

/-- HALT_POINT (R393 to R396, R447, R458). An accepted ECALL completes first: the halt then follows its answer (R143). -/
def execHaltPoint (ctx : Nat) (s : State) : Out :=
  if s.atHaltPoint ctx && (s.ctx ctx).awaitsAnswer then
    let x := s.ctx ctx
    .next (s.setCtx ctx { x with haltReq := x.haltReq.map fun r => (r.1, some (r.2.getD (s.tau ctx))) })
  else if s.atHaltPoint ctx then
    let s := s.haltNow ctx .halting
    .next (s.setCtx ctx { s.ctx ctx with readyAt := s.cycle + captureCycles })
  else .next s

/-- HALT_COMPLETE (R393, R395): the end of capture; a context that a fault or the debugger has halted does then what the halt point does
for a requested one. -/
def execHaltComplete (ctx : Nat) (s : State) : Out :=
  let x := s.ctx ctx
  if x.run = .halting ∧ x.readyAt ≤ s.cycle then
    .next (((s.finishStores ctx).setCtx ctx { x with run := .halted .request }).emit (.haltComplete ctx))
  else if s.haltOwes ctx then .next ((s.finishStores ctx).flushOcc ctx)
  else .next s

/-! ### SAVE and SWAP (R395, R405 to R407) -/

/-- Streams that a context's blocks declare. -/
def State.streamsOf (s : State) (c : Nat) : List Nat :=
  (s.pansOf c).flatMap fun pan => (streamEntries (s.blocksOn c pan)).map fun e => s.streamKey pan e.1

/-- Whether a shadow bank has `n` free slots: it has two, and one is in use until firmware has copied it to HBM (R406, R407). -/
def bankFree (now n : Nat) (l : List BankSlot) : Bool := decide ((l.filter fun b => decide (now < b.upto)).length + n ≤ 2)
/-- Slots that an instance's state takes in the bank of a pan: one for a context, and where the pan holds parts of several, both, through
which they pass in turn. -/
def State.slotsNeeded (s : State) (cs : List Nat) (pan : Nat) : Nat := min 2 (cs.filter fun c => (s.pansOf c).contains pan).length
/-- Whether the banks of the pans of an instance and of their fields have the slots that its save takes. -/
def State.banksFree (s : State) (cs : List Nat) : Bool :=
  (cs.flatMap s.pansOf).all fun p =>
    bankFree s.cycle (s.slotsNeeded cs p) (Kv.get [] s.shadowBank p) && bankFree s.cycle 1 (Kv.get [] s.fieldBank (fieldOf p))

/-- Whether the save of an instance can end: its contexts are halted and have written what they owe, every access and every command that
runs on is done, nothing travels to or from its sluices, and its banks have free slots (R395, R396, R407, R458, R476). -/
def State.savable (s : State) (cs : List Nat) : Bool :=
  !cs.isEmpty && s.slotEnds.isEmpty && s.banksFree cs && cs.all fun c => !(s.part (s.ctx c).pid).rst &&
    (s.ctx c).run.isHalted && !s.haltOwes c && (s.accs.all fun a => a.ctx != c) && (s.cmds.all fun k => k.ctx != c || k.st == .stopped)
      && (s.streamsOf c).all fun k => (s.stream k).transit.isEmpty

/-- A saved context leaves its pans: its blocks are released with their streams, its slots are free (R407), and what its chains still owe
stands in the image alone. -/
def State.evictCtx (s : State) (c : Nat) : State :=
  let s := ((s.releaseAll c).noteLeft c).setCtx c {}
  let gone := (s.cmds.filter fun k => k.ctx == c).map (·.id)
  { s with cmds := s.cmds.filter fun k => k.ctx != c, writes := s.writes.filter fun w => !(w.unit == 3 && gone.contains w.key) }

/-- Slots of a bank are taken; slots whose copies have ended are free for them. -/
def takeSlots (now : Nat) (bs l : List BankSlot) : List BankSlot := bs ++ l.filter fun o => decide (now < o.upto)

/-- The bank of a pan takes the sections of an instance there: its own slot for the first, and one for the others (R406, R407). The part that
its configuration has in the mirror stays there until firmware's copy has ended. A write to a bank meets its injection (R425). -/
def State.bankPan (b : BankSlot) (secs : List Section) (s : State) (pan : Nat) : State :=
  let bs := [{ b with secs := secs.take 1 }] ++ (if 1 < secs.length then [{ b with secs := secs.drop 1 }] else [])
  let part : MirrorPart := ⟨b.task, b.inst, b.upto, secs.flatMap Section.configBytes⟩
  let old := (Kv.get [] s.mirror pan).filter fun p => decide (s.cycle < p.upto)
  { s with shadowBank := Kv.set [] s.shadowBank pan (takeSlots s.cycle bs (Kv.get [] s.shadowBank pan)),
           mirror := Kv.set [] s.mirror pan (part :: old) }.injectIndex (arrayPrivate b.task.pid true) (2 ^ 18 * pan) (2 ^ 17)
    (cidOf (BitVec.ofNat 8 b.task.pid)) fun i _ => .priv (BitVec.ofNat 7 b.task.pid) true i
/-- The bank of a field takes the field state of all its pans in one slot. -/
def State.bankField (b : BankSlot) (secs : List Section) (s : State) (f : Nat) : State :=
  { s with fieldBank := Kv.set [] s.fieldBank f (takeSlots s.cycle [{ b with bytes := fieldBytes secs }] (Kv.get [] s.fieldBank f)) }

/-- The execution state of an instance goes into slots of the banks of its pans, and the field state into those of their fields, until
firmware has copied them to HBM, which takes a time that is open (R406 to R408; log 64). -/
def State.bankInst (s : State) (a : Nat) (cs : List Nat) : State :=
  let x := s.ctx (cs.headD 0)
  let b : BankSlot := { addr := a, task := x.ref, inst := x.inst, upto := s.cycle + s.nextLatency, secs := [], bytes := [] }
  let secs := cs.flatMap s.sections
  let pan := fun (e : Section) => x.map.getD e.p 0
  let s := ((secs.map pan).dedup).foldl (fun s p => s.bankPan b (secs.filter fun e => pan e == p) p) s
  ((secs.map fun e => fieldOf (pan e)).dedup).foldl (fun s f => s.bankField b (secs.filter fun e => fieldOf (pan e) == f) f) s

/-- An image is written to memory, and the poisoned bytes of its footprints stay poisoned there (R405, R419, R422). -/
def State.writeImage (s : State) (a : Nat) (i : Image) : State := s.physWrite a i.bytes |>.poisonEach (i.badOffsets.map (a + ·))

/-- An instance has been evicted (R283), and the line buffers of its task are emptied (R325). -/
def State.evicted (s : State) (task : TaskRef) (inst : BitVec 24) : State :=
  let t := s.task task
  let s := { s with lineBufs := s.lineBufs.filter fun b => !b.of task t.tenant }
  (s.setTask task (t.setInst inst { t.inst inst with evicted := true })).replaceTask task

/-- The save of an instance that can be saved: the instance counts as evicted (R283), its task's line buffers and its sums of ordered fadds
leave (R325, R462). -/
def State.saveInst (s : State) (task : TaskRef) (inst : BitVec 24) (addr : Nat) : State :=
  let cs := s.ctxsOf task inst
  let img := s.imageOf task inst cs
  let s := (s.bankInst addr cs).takeLatency
  let s := { s.writeImage addr img with images := s.images ++ [img] }
  let s := cs.foldl State.evictCtx s
  { s with fadds := s.fadds.filter fun f => !img.fadds.contains f }.evicted task inst

/-- SAVE (R398 to R407). -/
def execSave (task : TaskRef) (inst : BitVec 24) (addr : BitVec 48) (s : State) : Out :=
  if s.savable (s.ctxsOf task inst) then .next (s.saveInst task inst addr.toNat) else .next s

/-! ### Resumption (R411, R412, R459, R498) -/

/-- The image whose bytes stand whole at an address (R405): one that this machine has made, with NOTE and DBG as firmware may have left
them, or the one that the bytes of another module's image describe (R7, R413; log 30). Bytes whose VALID or CRC does not check are
torn. -/
def State.imageAt (s : State) (p : Part) (a : Nat) : Option Image :=
  let own := s.images.findSome? fun i =>
    [i, i.with (s.headerBit a 14 0) (s.debugBit a)].find? fun j => s.peeks a j.bytes.length == j.bytes
  match own with
  | some i => some i
  | none => if s.imageWhole a then s.parseImage p a else none

/-- Whether an image does not fit a record and its partition (R411, R459). -/
def State.imageBad (s : State) (pan : Nat) (e : SlotRec) (i : Image) : Bool :=
  let p := s.part (s.owner (fieldOf pan))
  let l := s.recLpb pan e.r
  i.level != Config.archLevel || i.tenant != e.r.tenant || i.tenant != p.tenant || i.slots != e.r.slots
    || i.pans != l.pans || i.fields != l.fields || i.dies != l.dies || decide (p.diesWith i.fields < i.dies) || e.r.start.toNat % 8 != 0

/-- The sections of an image that belong to the context of a record. -/
def Image.own (i : Image) (e : SlotRec) : List Section :=
  i.sections.filter fun x => x.ctx.run != .exited
    && x.r == e.r.rpan.toNat + i.pans * (e.r.rfield.toNat + i.fields * e.r.rdie.toNat)

/-- What of an element belongs to resident blocks: the rest reads as zero after a resumption on its pan (R401). -/
def Elem.only (x : Elem) (bs : List Block) (e : Nat) : Elem :=
  let l := bs.map fun b => (b, 0)
  let ew := bs.foldl (fun v b => v ||| b.ewin) (0 : BitVec 32)
  { x with e := x.e.filter fun r => ew.getLsbD r.1, t := x.t.filter fun r => (liveT l).getLsbD r.1,
           ports := x.ports.filter fun p => (portsUsed l e).any fun q => portIdx q == p.1,
           latchActive := if latchesUsed l e then x.latchActive else 0, latchLoad := if latchesUsed l e then x.latchLoad else 0 }

/-- An element with what an image keeps of it put back; `latch` says that it keeps the weight latches. -/
def Elem.restore (x k : Elem) (latch : Bool) : Elem :=
  { x with e := k.e.foldl (fun m r => Kv.set 0 m r.1 r.2) x.e, t := k.t.foldl (fun m l => Kv.set {} m l.1 l.2) x.t,
           flight := x.flight ++ k.flight, ye := x.ye ++ k.ye,
           latchActive := if latch then k.latchActive else x.latchActive, latchLoad := if latch then k.latchLoad else x.latchLoad,
           ports := k.ports.foldl (fun m p => Kv.set {} m p.1 p.2) x.ports, delay := x.delay ++ k.delay, contrib := x.contrib ++ k.contrib }

/-- The elements of a pan as a section restores them for a context, beside what blocks of other contexts use there (R401). -/
def State.restoreElems (s : State) (c pan : Nat) (sec : Section) : State :=
  let others := (s.residents pan).map (·.2.2)
  let bs := sec.blocks
  let own := fun (x : Elem) => { x with ye := x.ye.map fun y => { y with ctx := c } }
  allElems.foldl (fun s e =>
    s.setElem pan e (((s.elem pan e).only others e).restore (own (Kv.get {} sec.elems e)) (latchesUsed bs e))) s

/-- The number of a control entry or stream of an owed write, on another pan. -/
def State.moveWrite (s : State) (pan : Nat) (w : UnitWrite) : UnitWrite :=
  let node := fun (k : Nat) => 128 * pan + k % 128
  let from' := dieOf w.pan
  let w := { w with pan := pan }
  match w.unit with
  | 3 => w
  | 2 => { w with key := node w.key }
  | 1 => { w with key := node w.key, skey := node w.skey }
  | _ =>
    if w.stream then
      { w with key := 128 * s.owner (fieldOf pan) + 16 * (if w.key / 16 % 8 == from' then dieOf pan else (dieOf pan + 7) % 8) + w.key % 16 }
    else { w with key := 16 * fieldOf pan + w.key % 16 }

/-- The ends of a stream that the blocks of a section declare, with its positions (R457, R459). -/
def State.restoreStream (sec : Section) (pan : Nat) (s : State) (ent : Nat × Nat × Nat) : State :=
  let (m, n, pay) := ent
  let key := s.streamKey pan n
  let old := Kv.get {} sec.streams n
  let st := s.stream key
  let fresh : Stream := { depth := old.depth, first := old.first, marks := old.marks, refusing := old.refusing }
  let st := if st.send.isNone && st.recv.isNone then fresh else st
  let st := if strRecv pay then { st with recv := some (blkKey pan (BitVec.ofNat 8 m)), kR := old.kR, kStage := old.kStage, pos := old.pos,
                                          g := old.g, pktX := old.pktX, stage := old.stage }
    else { st with send := some (blkKey pan (BitVec.ofNat 8 m)), kS := old.kS, npk := old.npk, pktW := old.pktW, units := old.units }
  let s := s.setStream key st
  let lo := key / 16 * 16384 + st.first
  { s with sluice := (Kv.part sec.sluice 65536 n).foldl (fun t e => Kv.set {} t (lo + e.1) e.2) s.sluice }

/-- One section put onto a pan, for its context `c` and the pans of its region. -/
def State.restoreSection (c : Nat) (map : List Nat) (s : State) (sec : Section) : State :=
  let pan := map.getD sec.p 0
  let home := fun (r : BlkRun) => { r with ctx := c, home := map.getD r.home pan }
  let s := s.restoreElems c pan sec
  let s := { s with
    active := Kv.putPart {} s.active 256 pan sec.active
    shadow := Kv.putPart {} s.shadow 256 pan (sec.shadow.map fun e => (e.1, { e.2 with owner := c }))
    runs := Kv.putPart {} s.runs 256 pan (sec.runs.map fun e => (e.1, home e.2))
    kcnt := Kv.putPart 0 s.kcnt 256 pan sec.kcnt
    tiles := s.tiles ++ sec.tiles.map (fun t => { t with pan := pan, ctx := c })
    writes := s.writes ++ sec.writes.map (s.moveWrite pan)
    bq := Kv.putPart {} s.bq 16 pan sec.bq
    tables := if readsTables (sec.active.map fun e => (e.2, 0)) || readsTables (sec.shadow.map fun e => (e.2, 0))
      then Kv.set {} s.tables pan sec.tables else s.tables
    metas := Kv.putPart {} s.metas 16 pan sec.metas
    nodeCtl := Kv.putPart {} s.nodeCtl 128 pan sec.nodeCtl
    concCtl := Kv.putPart {} s.concCtl 16 (fieldOf pan) sec.concCtl }
  let ents := (sec.active.flatMap fun e => e.2.strB.map fun b => (e.1, 2 * b.1 + (if strSide b.2 then 1 else 0), b.2))
  ents.foldl (State.restoreStream sec pan) s

/-- The footprints of an image go back to the pan of a record, to its field, and with the first record of the instance to the pans whose
contexts have executed EXIT, wherever no context is bound (R398, R406, R498). -/
def State.restoreFeet (s : State) (i : Image) (map ps : List Nat) : State :=
  let fs := (map.map fieldOf).dedup
  ps.foldl (fun (s : State) p =>
    let pan := map.getD p 0
    let f := fieldOf pan
    let s := if ((fieldPans pan).flatMap s.bound).isEmpty then s.putFoot (fieldBase f) i.fieldFoot (Kv.get {} i.concs (fs.idxOf f)) else s
    if (s.bound pan).isEmpty then s.putFoot (nodeBase pan) i.nodeFoot (Kv.get {} i.nodes p) else s) s

/-- The context of an image as it is loaded again: its identity from the record, the rest from the image, its program built anew
(R71, R411, R412, R459). -/
def State.resumedCtx (s : State) (pan idx : Nat) (e : SlotRec) (i : Image) (x : Ctx) : Ctx :=
  let x := s.identity pan idx e e.r.ifirst { x with haltReq := none, hold := none }
  let x := { x with run := .loading, pans := i.pans, fields := i.fields, dies := i.dies, yreq := false, haltCount := i.haltCount,
                    readyAt := s.cycle + min 1024 s.nextLatency, startAt := some e.r.start, tb := e.r.start - x.tauH }
  let y := s.loadProgram x (dieOf pan) (s.recLpb pan e.r).prog (some x.dictAt)
  let fault := if i.note then some (0x13, BitVec.ofNat 64 i.haltCount) else y.loadFault.orElse fun _ => x.loadFault
  { (y.startReplays y.cyc true).landReplays y.cyc with loadFault := fault }

/-- A command of an image, queued again ahead of the new ones of its context (R397), under the CID of its partition (R418); a chain that was
accepted keeps its descriptors. -/
def State.requeue (s : State) (c : Nat) (k : Cmd) : Cmd :=
  let cid := cidOf (BitVec.ofNat 8 (s.ctx c).pid)
  let k := { k with ctx := c, pan := panOf c, cid := cid, loc := s.locate (s.ctx c) true k.obj.toNat, ready := s.cycle + s.nextLatency }
  if isChain k.instr && k.started && k.ops.isEmpty then { k with ops := s.chainDescs k } else k

/-- The codes of contexts that had executed EXIT before the save (R498); the instance is no longer evicted (R283). -/
def State.resumeInst (s : State) (r : TaskRef) (inst : BitVec 24) (i : Image) (first : Bool) : State :=
  let t := s.task r
  let n := { t.inst inst with evicted := false }
  let exited := i.sections.filter fun q => q.ctx.run == .exited
  let add := fun (n : Inst) (q : Section) =>
    { n with exits := Kv.set 0 n.exits q.r (q.ctx.exitCode.toNat + 1), code := max n.code q.ctx.exitCode.toNat }
  let s := (s.setTask r (t.setInst inst (if first then exited.foldl add n else n))).replaceTask r
  if first then { s with fadds := s.fadds ++ (i.fadds.map fun f => { f with task := r, inst := inst, cid := cidOf (BitVec.ofNat 8 r.pid) }).filter fun f =>
                           s.fadds.all fun g => !(g.dev == f.dev && g.pa == f.pa) }
  else s

/-- A record that may be taken resumes its context of the image: its footprints, then its sections and commands. The line buffers of its
task are emptied (R325, R411). -/
def State.resumeRec (s : State) (pan idx : Nat) (e : SlotRec) (i : Image) (secs : List Section) (c : Nat) : State :=
  match secs.find? fun x => x.p == x.r with
  | none => s
  | some sec =>
    let r := s.recRef pan e.r
    let map := s.recMap pan e.r
    let first := (s.ctxsOf r e.r.ifirst).isEmpty
    let gone := if first then (i.sections.filter fun q => q.ctx.run == .exited).map (·.r) else []
    let s := s.restoreFeet i map (sec.r :: gone)
    let s := s.touchTable e.r.extp.toNat (cidOf (BitVec.ofNat 8 (s.owner (fieldOf pan))))
    let s := s.touchProgram (s.identity pan idx e e.r.ifirst {}) (dieOf pan) (s.recLpb pan e.r).prog (some sec.ctx.dictAt)
    let x := s.resumedCtx pan idx e i sec.ctx
    let old := (i.cmds.filter fun k => secs.any fun q => q.ctx.map.getD q.r 0 == k.pan && q.p == q.r)
    let s := ((s.markTaken c pan idx e).takeLatency).setCtx c x
    let s := secs.foldl (State.restoreSection c map) { s with lineBufs := s.lineBufs.filter fun b => !b.of r e.r.tenant }
    ({ s with cmds := s.cmds ++ old.map (s.requeue c) }).resumeInst r e.r.ifirst i first

/-- Bytes of the configuration mirror of a pan in use: every BEND and MDLD writes its part there as it writes the plane or the register, so
that the mirror holds the parts of the resident blocks of all contexts of the pan (R402, R406), and those of saved ones that firmware has
not copied yet. -/
def State.mirrorBytes (s : State) (pan : Nat) : Nat :=
  ((s.residents pan).map fun o => o.2.2.configBytes).foldl (· + ·) 0
    + (((Kv.get [] s.mirror pan).filter fun p => decide (s.cycle < p.upto)).map fun p => p.bytes.length).foldl (· + ·) 0
def Section.mirrorBytes (x : Section) : Nat := (x.blocks.map fun b => b.1.configBytes).foldl (· + ·) 0
/-- Whether the mirrors of the pans of some sections have room for their configuration parts, which firmware writes there before a restore;
without room the restore waits (R408). -/
def State.mirrorRoom (s : State) (map : List Nat) (secs : List Section) : Bool :=
  secs.all fun x => decide (s.mirrorBytes (map.getD x.p 0) + x.mirrorBytes ≤ 49152)

/-- RESUMPTION on a record (R317, R411, R412): BAD when the image is torn or does not fit; otherwise it is taken when it may be, its extent
table built anew from the page tables in force. A table that cannot be built ends the task as R316 says, or, while other instances of it
are bound, leaves the record bad (DEDUCED, log 65). -/
def State.resume (s : State) (pan idx : Nat) : State :=
  let e := s.record pan idx
  if !(s.candidate pan e && e.r.res) then s
  else match s.imageAt (s.part (s.owner (fieldOf pan))) e.r.src.toNat with
    | none => s.setRecord pan idx { e with bad := true }
    | some i =>
      if s.imageBad pan e i then s.setRecord pan idx { e with bad := true }
      else match s.freeContext pan with
        | some c =>
          if s.takeable pan idx && !(i.own e).isEmpty && s.mirrorRoom (s.recMap pan e.r) (i.own e) then
            let (t, ok) := s.buildTable (s.recRef pan e.r) (dieOf pan) e.r.extp.toNat
            let (i, ids) := i.numbered t.nextId
            if ok then { t with nextId := t.nextId + ids }.resumeRec pan idx e i (i.own e) c else t.setRecord pan idx { e with bad := true }
          else s
        | none => s
def execResumption (pan : Nat) (idx : BitVec 4) (s : State) : Out := .next (s.resume pan idx.toNat)

/-- SWAP (R407): a save and a restore in one pass. -/
def execSwap (task : TaskRef) (inst : BitVec 24) (addr : BitVec 48) (pan : Nat) (idx : BitVec 4) (s : State) : Out :=
  if s.savable (s.ctxsOf task inst) then .next ((s.saveInst task inst addr.toNat).resume pan idx.toNat) else .next s

/-! ### The ladder (R409, R421) -/

/-- SOFT_REQUEST (R409): YREQ is set in each context that has not yielded. -/
def execSoftRequest (task : TaskRef) (inst : BitVec 24) (s : State) : Out :=
  .next ((s.ctxsOf task inst).foldl (fun s c =>
    let x := s.ctx c
    if x.run.isHalted || x.run == .exited then s else s.setCtx c { x with yreq := true }) s)

/-- GRACE_EXPIRY (R409): each context that has neither yielded nor exited is to halt; firmware starts KILL. -/
def execGraceExpiry (task : TaskRef) (inst : BitVec 24) (s : State) : Out :=
  let ask := fun (s : State) (c : Nat) =>
    let x := s.ctx c
    if x.run = .running ∨ x.run = .stop ∨ x.run = .loading then s.setCtx c { x with haltReq := some (s.cycle, none) } else s
  .next (((s.ctxsOf task inst).foldl ask s).emit (.graceEnd task inst))

/-- The fields of a context's region. -/
def Ctx.fieldsOf (x : Ctx) : List Nat := (x.map.map fieldOf).dedup

/-- KILL_EXPIRY (R409, R421): the instance of a context whose save has not ended is reset and ended with code 0xFFFF, and the
footprint of its region's fields is wiped (KILL_WIPE). -/
def execKillExpiry (ctx : Nat) (s : State) : Out :=
  let x := s.ctx ctx
  if x.run = .free ∨ x.run = .exited then .next s
  else
    let p := s.part x.pid
    .next (x.fieldsOf.foldl (fun s f => s.wipeFoot p f) (s.endInstance x.ref x.inst))

end Sys2Proof.Machine
end

