-- ==== Sys2Proof/Machine/Tide.lean ====
section
/-! DEFINITION. Tide domains, their marks, samples and drift (R437, R439, R443 to R449), and the operating points that change in
the stall of a mark (R485 to R489). -/

namespace Sys2Proof.Machine

/-! ### Operating points (R485 to R488) -/

def State.pwrOf (s : State) (d : Nat) : Pwr := Kv.get {} s.pwr d
def State.setPwr (s : State) (d : Nat) (p : Pwr) : State := { s with pwr := Kv.set {} s.pwr d p }
/-- VCUR of a domain (R486). -/
def Pwr.mv (p : Pwr) (d : Nat) : BitVec 10 := p.vcur.getD (Config.voltage (d % 8) 0)
/-- The effective target (R486). -/
def Pwr.target (p : Pwr) : BitVec 6 := BitVec.ofNat 6 (min (min 60 p.ftgt.toNat) p.fceil.toNat)

/-- What a ramp does next from where it stands towards its aim (R487, R488): voltage before frequency upwards, frequency before voltage
downwards; with both in place it ends. The minimum voltages are those of the domain's die (R485). -/
def Pwr.plan (p : Pwr) (d : Nat) : Pwr :=
  let b := p.aim.toNat
  let a := p.fcur.toNat
  let v := Config.voltage (d % 8) b
  let p := { p with ramp := true, stepTo := none, moveTo := none }
  if a < b then
    if (p.mv d).toNat < v.toNat then { p with moveTo := some v } else { p with stepTo := some (BitVec.ofNat 6 (a + 1)) }
  else if b < a then { p with stepTo := some (BitVec.ofNat 6 (a - 1)) }
  else if v.toNat < (p.mv d).toNat then { p with moveTo := some v }
  else { p with ramp := false }

/-- Whether a ramp waits for a step boundary or the end of a voltage move (R488). -/
def Pwr.busy (p : Pwr) : Bool := p.stepTo.isSome || p.moveTo.isSome

/-! ### Alignment sets (R443) -/

/-- The domains of a context's alignment set. -/
def State.alignSet (s : State) (c : Nat) : List Nat :=
  let x := s.ctx c
  ((x.map.map dieOf).dedup).map fun d => domKey x.pid d

/-- Contexts bound on a domain. -/
def State.onDomain (s : State) (d : Nat) : List Nat :=
  Kv.keysWhere (fun c x => x.run != .free && s.domOf (panOf c) == d) s.ctxs
/-- Contexts of an instance bound on a domain; those that have exited count as none (R445). -/
def State.instOn (s : State) (d : Nat) (task : BitVec 32) (inst : BitVec 24) : List Nat :=
  (s.onDomain d).filter fun c => (s.ctx c).task == task && (s.ctx c).inst == inst && (s.ctx c).run != .exited

/-- Contexts whose TIDEW waits for the current T of a domain (R444). -/
def State.pendingMarks (s : State) (d : Nat) : List Nat :=
  (s.onDomain d).filter fun c =>
    let x := s.ctx c
    x.run == .running && !x.markDone && (match x.mark with | some m => x.tb + m == (s.domain d).t | none => false)

/-- Whether a change of target in a domain waits for a mark (R489): an instance on it spans several domains. -/
def State.ganged (s : State) (d : Nat) : Bool := (s.onDomain d).any fun c => decide (1 < (s.alignSet c).length)

/-! ### The stall of a mark (R444, R445, R447, R449) -/

/-- One-way latency between two domains' dies, as calibrated (R439, R495). -/
def State.sideLat (s : State) (d e : Nat) : Nat :=
  let i := d % 8
  let j := e % 8
  match s.sideband.find? fun x => x.1 == 8 * i + j with
  | some x => x.2
  | none => if i = j then 0 else Config.sideband i j
/-- Links of the ring between two dies, the shorter way round; of two equal ways the one that goes up from the lower die (DESIGN CHOICE,
log 36). -/
def ringLinks (i j : Nat) : List Nat :=
  let n := (j + 8 - i) % 8
  if n < 4 ∨ (n = 4 ∧ i < j) then (List.range n).map fun k => (i + k) % 8 else (List.range (8 - n)).map fun k => (j + k) % 8
/-- Whether the latency of the path between two domains is known: no link on it waits for its calibration (R495). -/
def State.latKnown (s : State) (d e : Nat) : Bool := (ringLinks (d % 8) (e % 8)).all fun l => !s.uncal.contains l
/-- D of a set (R445), over the paths whose latency is known (R495). -/
def State.maxLat (s : State) (set : List Nat) : Nat := (set.flatMap fun d => (set.filter (s.latKnown d)).map (s.sideLat d)).foldl max 0

/-- Whether a domain stands stalled at the mark that a context waits for, a TIDEW of its instance pending there. -/
def State.standsAt (s : State) (x : Ctx) (d : Nat) : Bool :=
  (s.domain d).stallAt.isSome && (s.pendingMarks d).any fun c =>
    (s.ctx c).task == x.task && (s.ctx c).inst == x.inst && (s.ctx c).mark == x.mark
/-- Every domain of a context's set stands stalled at its mark (R449). -/
def State.allStalled (s : State) (c : Nat) : Bool := (s.alignSet c).all (s.standsAt (s.ctx c))

/-- A domain follows its effective target: from where it stands, or from the boundary that its ramp comes to next (R488). -/
def State.takeTarget (s : State) (d : Nat) (p : Pwr) : State :=
  let p := { p with aim := p.target, hold := false }
  s.setPwr d (if p.busy then p else p.plan d)

/-- In the stall at which every domain of a set stands, the held targets are taken up: the most recent one written for any of
them (R489). -/
def State.rampSet (s : State) (c : Nat) : State :=
  let set := s.alignSet c
  if s.allStalled c && set.any fun d => (s.pwrOf d).hold then
    let latest := set.foldl (fun (b : Pwr) d => if b.written < (s.pwrOf d).written then s.pwrOf d else b) (s.pwrOf (set.headD 0))
    set.foldl (fun s d => s.takeTarget d { s.pwrOf d with ftgt := latest.ftgt }) s
  else s

/-- A new effective target is taken up (R488, R489): in a set of several domains it is held for a mark, unless every domain of the set stands
stalled at one. -/
def State.retarget (s : State) (d : Nat) : State :=
  let p := s.pwrOf d
  if s.ganged d then (s.pendingMarks d).foldl State.rampSet (s.setPwr d { p with hold := p.target != p.aim })
  else s.takeTarget d p

/-- A held target whose domain stands in no larger set any more is taken up (R489). -/
def State.freeHolds (s : State) : State :=
  (s.pwr.filter fun e => e.2.hold && !s.ganged e.1).foldl (fun s e => s.retarget e.1) s

/-- DOMAIN_STALL (R444, R445): the domain's T is that of a pending mark; it stalls before this cycle and sends its arrival to every
other domain of the sets that wait. -/
def execDomainStall (dom : Nat) (s : State) : Out :=
  let x := s.domain dom
  let cs := s.pendingMarks dom
  if x.stallAt.isSome || cs.isEmpty || s.begun then .next s
  else
    let s := s.setDomain dom { x with stallAt := some x.t, stallCyc := 0, reachedAt := s.cycle }
    let tell := fun (s : State) (c : Nat) =>
      let y := s.ctx c
      let a : Arrival := ⟨dom, y.task, y.inst, y.mark.getD 0, s.cycle⟩
      ((s.alignSet c).filter fun d => d != dom).foldl (fun s d =>
        let z := s.domain d
        if z.arrived.contains a then s else s.setDomain d { z with arrived := z.arrived ++ [a] }) s
    .next (cs.foldl State.rampSet (cs.foldl tell s))

/-- The latest sample of a domain that has come by a cycle (R439): its latency has passed. -/
def Domain.latest (x : Domain) (d now : Nat) : Option Sample := (Kv.get [] x.samples d).find? fun y => decide (y.when + y.lat ≤ now)

/-- When a domain of a set reached an instance's mark, as far as another one knows (R445, R446): its arrival has come, a sample
shows it at the mark or past it, over a path whose latency is known (R495), or no context of the instance is bound on it, since the last one left. A program tide with its top bit
set lies before τ = 0, and no mark is reached there. -/
def State.reached (s : State) (dom d : Nat) (task : BitVec 32) (inst : BitVec 24) (m : Word) : Option Nat :=
  if d = dom then some (s.domain dom).reachedAt
  else
    let x := s.domain dom
    match x.arrived.find? fun a => a.dom == d && a.task == task && a.inst == inst && a.m == m with
    | some a => if a.reached + s.sideLat d dom ≤ s.cycle then some a.reached else none
    | none =>
      match s.instOn d task inst with
      | [] => some (Kv.get 0 ((s.task ⟨dom / 8, task⟩).inst inst).left d)
      | c :: _ =>
        match if s.latKnown d dom then x.latest d s.cycle else none with
        | none => none
        | some y =>
          let tau := y.t - (s.ctx c).tb
          if !tau.msb && m.ule tau then some (y.when - (tau - m).toNat) else none

/-- Whether a stalled domain may go on for a context that waits at its mark: every domain of the set has reached it, D cycles have
passed since the last one did, and every FLL of the set has settled (R445, R449). -/
def State.releasable (s : State) (dom c : Nat) : Bool :=
  let x := s.ctx c
  let set := s.alignSet c
  let times := set.map fun d => s.reached dom d x.task x.inst (x.mark.getD 0)
  times.all Option.isSome && decide ((times.map fun t => t.getD 0).foldl max 0 + s.maxLat set ≤ s.cycle)
    && set.all fun d => !(s.pwrOf d).ramp || !(s.domain d).stallAt.isSome

/-- The domain goes on: its TIDEWs have their answer, and its offsets to the other domains are noted (R439, R444). -/
def State.release (s : State) (dom : Nat) : State :=
  let x := s.domain dom
  let cs := s.pendingMarks dom
  let others := ((cs.flatMap s.alignSet).dedup).filter fun d => d != dom
  let answer := fun (s : State) (c : Nat) => s.setCtx c { s.ctx c with markDone := true, markStall := x.stallCyc }
  let done := fun (a : Arrival) => cs.any fun c => (s.ctx c).task == a.task && (s.ctx c).inst == a.inst && a.m.ule ((s.ctx c).mark.getD 0)
  let rels := others.foldl (fun o d => Kv.set none o d (some (s.cycle, x.t - (s.domain d).t))) x.rels
  (cs.foldl answer s).setDomain dom
    { x with stallAt := none, rels := rels, arrived := x.arrived.filter fun a => !done a }

/-- MARK_RELEASE (R445, R447): a stalled domain is released, or its stall is withdrawn when no TIDEW waits at it any more; a ramp that runs
in the stall ends in it (R449). -/
def execMarkRelease (dom : Nat) (s : State) : Out :=
  let x := s.domain dom
  if x.stallAt.isSome && !s.begun && !(s.pwrOf dom).ramp && (s.pendingMarks dom).all (s.releasable dom) then .next (s.release dom) else .next s

/-! ### Samples and drift (R439) -/

/-- ⌈n·10⁻⁴⌉ + 2 (R439, R448). -/
def driftBound (n : Nat) : Nat := (n + 9999) / 10000 + 2
/-- The distance of two tides. -/
def tideGap (a b : Word) : Nat := min (a - b).toNat (b - a).toNat

/-- Cycles between the samples of a domain (R439); the phase is the model's (log 36). -/
def sampleEvery : Nat := 256

/-- Samples with those that a newer one has replaced dropped: the ones under way, and the latest that has come. -/
def currentSamples (now : Nat) : List Sample → List Sample
  | [] => []
  | y :: r => if y.when + y.lat ≤ now then [y] else y :: currentSamples now r

/-- A domain's T leaves for another one, once in the cycle; over a link that waits for its calibration no sample that is used (R495). -/
def State.sendSample (s : State) (src dst : Nat) : State :=
  let a := s.domain src
  let b := s.domain dst
  let l := Kv.get [] b.samples src
  if s.cycle % sampleEvery ≠ 0 ∨ s.latKnown src dst = false ∨ (l.any fun y => y.when == s.cycle) = true then s
  else s.setDomain dst { b with samples := Kv.set [] b.samples src (⟨a.t, s.cycle, s.sideLat src dst, b.t - a.t, false⟩ :: currentSamples s.cycle l) }

/-- Whether a sample shows an offset that has left the bound since the last release of both domains (R439). -/
def Domain.drifted (b : Domain) (src : Nat) (y : Sample) : Bool :=
  match Kv.get none b.rels src with
  | none => false
  | some (r, off) => decide (r ≤ y.when) && decide (driftBound (y.when - r) < tideGap y.gap off)

/-- TIDE_SAMPLE (R439): a domain's T leaves for another domain of its partition, and the samples that have come by now are known there;
DRIFT_EVENT when the offset of two domains of one alignment set has left the bound. -/
def execTideSample (src dst : Nat) (s : State) : Out :=
  if src = dst ∨ src / 8 ≠ dst / 8 then .next s
  else
    let s := s.sendSample src dst
    let b := s.domain dst
    let l := Kv.get [] b.samples src
    let new := l.filter fun y => !y.came && decide (y.when + y.lat ≤ s.cycle)
    let mark := fun (y : Sample) => if y.when + y.lat ≤ s.cycle then { y with came := true } else y
    let s' := s.setDomain dst { b with samples := Kv.set [] b.samples src (l.map mark) }
    let set := (s.onDomain dst).any fun c => (s.alignSet c).contains src
    if set && new.any (b.drifted src) then .next (s'.emit (.drift src dst)) else .next s'

/-! ### Steps of a ramp (R486 to R489) -/

/-- A ramp that has ended in a stall counts its domain as having reached the mark now (R449). -/
def State.settle (s : State) (d : Nat) : State :=
  let p := s.pwrOf d
  let x := s.domain d
  if p.ramp || x.stallAt.isNone then s
  else
    let s := s.setDomain d { x with reachedAt := s.cycle }
    { s with domains := s.domains.map fun e =>
        (e.1, { e.2 with arrived := e.2.arrived.map fun a => if a.dom == d then { a with reached := s.cycle } else a }) }

/-- FLL_STEP (R485, R488): the FLL locks at its new index, and the ramp goes on from there. -/
def execFllStep (dom : Nat) (s : State) : Out :=
  let p := s.pwrOf dom
  match p.stepTo with
  | some k => .next ((s.setPwr dom ({ p with fcur := k }.plan dom)).settle dom)
  | none => .next s

/-- 10 mV nearer to a voltage (R485). -/
def towards (a v : Nat) : Nat := if a < v then min v (a + 10) else max v (a - 10)
/-- VOLTAGE_MOVE_END (R485, R487, R488): the regulator has moved by 10 mV; where it has reached the voltage of its move, the ramp goes on from
there. -/
def execVoltageMoveEnd (dom : Nat) (s : State) : Out :=
  let p := s.pwrOf dom
  match p.moveTo with
  | some v =>
    let p := { p with vcur := some (BitVec.ofNat 10 (towards (p.mv dom).toNat v.toNat)) }
    if p.vcur = some v then .next ((s.setPwr dom (p.plan dom)).settle dom) else .next (s.setPwr dom p)
  | none => .next s

/-- PWRDOM_WRITE (R10, R486, R488, R489): FTGT and FCEIL change, and the new effective target is taken up. -/
def execPwrdomWrite (dom : Nat) (v : BitVec 64) (s : State) : Out :=
  let p := s.pwrOf dom
  let n := (s.pwr.map fun e => e.2.written).foldl max 0 + 1
  let q := { p with ftgt := v.extractLsb' 0 6, fceil := v.extractLsb' 16 6, written := n }
  .next ((s.setPwr dom q).retarget dom)

end Sys2Proof.Machine
end

