-- ==== Sys2Proof/Machine/Power.lean ====
section
/-! DEFINITION. Power and bring-up (R383, R490 to R495), and the emergency save (R414, R415, R480). -/

namespace Sys2Proof.Machine

/-! ### The cap and what holds the module under it (R490 to R492) -/

/-- CAP (R478, R491): a message that is newer sets the cap and the lease; the recovery service does not serve it. -/
def execCap (cseq : BitVec 64) (lease capw : BitVec 32) (s : State) : Out :=
  let newer := match s.lastCseq with | some c => c.ult cseq | none => true
  if newer && !s.recovery then
    .next { s with lastCseq := some cseq, lease := some (max 1 lease.toNat), cap := min Config.powerMax (max Config.powerMin capw.toNat) }
  else .next s

/-- LEASE_EXPIRY (R491): the cap falls to the floor. -/
def execLeaseExpiry (s : State) : Out :=
  if s.lease.isSome then .next { s with lease := none, cap := s.floorW } else .next s

/-- WACT of a stack in ns: 40 at reset (R490). -/
def State.wactOf (s : State) (stack : Nat) : Nat := max 40 (Kv.get 0 s.wact stack)
/-- Tide domains of valid partitions. -/
def State.liveDomains (s : State) : List Nat :=
  s.parts.flatMap fun e => if e.2.v then
    ((List.range Config.dies).filter fun d => e.2.fset.extractLsb' (6 * d) 6 != 0).map fun d => domKey e.1 d else []

/-- The ceilings of all domains fall by one index (R492; the amount is log 33). -/
def State.lowerCeilings (s : State) (ds : List Nat) : State :=
  ds.foldl (fun s d => (s.setPwr d { s.pwrOf d with fceil := (s.pwrOf d).fceil - 1 }).retarget d) s

/-- The byte budget of a field of a partition: its BUDGET, under the share that the cap allows, and at least 1 KiB (R492). -/
def State.budgetOf (s : State) (p : Part) (f : Nat) : Nat :=
  max 1024 (match Kv.get 0 s.shares f with | 0 => 1024 * p.budget | n + 1 => min (1024 * p.budget) n)
/-- The byte budgets of fields as R492 makes them of the shares that the cap allows now. -/
def State.setBudgets (s : State) (share : List (Nat × Nat)) : State :=
  let s := { s with shares := share.foldl (fun (b : Kv Nat) (e : Nat × Nat) => Kv.set 0 b e.1 (e.2 + 1)) s.shares }
  { s with budgets := share.foldl (fun (b : Kv Nat) (e : Nat × Nat) => Kv.set 0 b e.1 (s.budgetOf (s.part (s.owner e.1)) e.1)) s.budgets }

/-- POWER_WINDOW (R492): when the average of the last 1 ms is above the cap, FCEIL falls, then WACT grows, then byte budgets fall. -/
def execPowerWindow (load : Nat) (share : List (Nat × Nat)) (s : State) : Out :=
  let ds := s.liveDomains.filter fun d => (s.pwrOf d).fceil != 0
  if load ≤ s.cap then .next (s.setBudgets share)
  else if ds ≠ [] then .next (s.lowerCeilings ds)
  else if (List.range 8).any fun k => decide (s.wactOf k < 640) then
    .next { s with wact := (List.range 8).foldl (fun w k => Kv.set 0 w k (min 640 (2 * s.wactOf k))) s.wact }
  else .next (s.setBudgets share)

/-- BYTE_BUDGET_WINDOW (R383): a new 1 µs window. -/
def execByteBudgetWindow (s : State) : Out := .next { s with budgetUsed := [] }

/-! ### Emergency save and trip (R414, R415, R480, R493) -/

/-- Types of the messages that the module sends (R478). -/
def wolasAttrep : BitVec 8 := 0x05
def wolasDebug : BitVec 8 := 0x06
def wolasEmsave : BitVec 8 := 0x07

/-- A message to the control node under the sender's next number (R477). -/
def State.tell (s : State) (type : BitVec 8) (pid : BitVec 7) (body : List Byte) : State :=
  { s with wolas := s.wolas ++ [⟨type, pid, BitVec.ofNat 64 s.nextId, body⟩], nextId := s.nextId + 1 }

/-- EMSAVE of some bytes: slot number and offset, then the bytes (R478; their places in the body are log 32). -/
def State.emsave (s : State) (pid : BitVec 7) (slot off : Nat) (bs : List Byte) : State :=
  s.tell wolasEmsave pid (natLe 4 slot ++ natLe 4 off ++ bs)

/-- An instance's image goes to the slot of its partition on the control node, VALID as 0 first and VALID last (R405, R480); its
contexts are done with. -/
def State.emsaveInst (s : State) (task : TaskRef) (inst : BitVec 24) (cs : List Nat) : State :=
  let img := s.imageOf task inst cs
  let bs := img.bytes
  let pid := BitVec.ofNat 7 (s.ctx (cs.headD 0)).pid
  let slot := s.nextId
  let s := ((s.emsave pid slot 252 (natLe 4 0)).emsave pid slot 256 (bs.drop 256)).emsave pid slot 0 (bs.take 252)
  let s := { s.emsave pid slot 252 (natLe 4 validWord) with images := s.images ++ [img] }
  (cs.foldl State.evictCtx s).evicted task inst

/-- Instances that have contexts bound. -/
def State.boundInsts (s : State) : List (TaskRef × BitVec 24) :=
  ((s.ctxs.filter fun e => e.2.run != .free && e.2.run != .exited).map fun e => (e.2.ref, e.2.inst)).dedup

/-- THERMAL_EMERGENCY (R414, R493): every context that runs is to halt, at its halt point as any halt is (R393); each instance that can be
saved is written to the control node, the others when the emergency acts on them again. -/
def execThermalEmergency (s : State) : Out :=
  let running := Kv.keysWhere (fun _ x => x.run == .running || x.run == .stop || x.run == .loading) s.ctxs
  let ask := fun (s : State) (c : Nat) =>
    let x := s.ctx c
    match x.haltReq with
    | some (_, none) => s
    | _ => s.setCtx c { x with haltReq := some (s.cycle, none) }
  let s' := running.foldl ask { s with thermal := true }
  let s' := if s.thermal then s' else s'.emit .thermal
  .next (s'.boundInsts.foldl (fun s e =>
    let cs := s.ctxsOf e.1 e.2
    if s.savable cs then s.emsaveInst e.1 e.2 cs else s) s')

/-- What stays when power goes: fuses, key store and the signed tables, what the outside world has seen, and the model's own data. Messages
that have not left by then are lost, and with them the rest of a slot's stream (R480). -/
def State.lasting (s : State) : State :=
  { State.reset with
    cycle := s.cycle, agenda := s.agenda, inputs := s.inputs, latencies := s.latencies, nextId := s.nextId, freeCtr := s.freeCtr,
    images := s.images, remap := s.remap, life := s.life, keyStore := s.keyStore, fuseVersion := s.fuseVersion, fuses := s.fuses,
    fw := s.fw, fwTold := s.fwTold, sent := s.sent }

/-- The first `n` links down: the device links are numbers 0 to 15, and 16 is the Wolas port. -/
def linksDown (n : Nat) : Kv Link := (List.range n).foldl (fun m k => Kv.set {} m k { up := false }) []

/-- HARD_TRIP (R415, R493): power is removed, and no link is up. -/
def execHardTrip (s : State) : Out := .next { s.lasting with poweredOff := true, bringUp := 0, links := linksDown 17 }

/-! ### Bring-up (R494, R495) -/

/-- Whether an image or a token verifies (R431): both signatures verify over its digest, under keys whose digests the key store holds, and
its version is not below the minimum of the fuses. -/
def State.verifies (s : State) (keys : List (BitVec 384)) (x : Signed) : Bool :=
  Config.ecdsaOk x.ecdsaKey x.digest x.ecdsa && Config.lmsOk x.lmsKey x.digest x.lms && keys.contains x.ecdsaKey && keys.contains x.lmsKey
    && !x.version.ult s.fuseVersion
/-- The measurement register extended with the digest of the next stage (R432). -/
def extendMeasure (m d : BitVec 384) : BitVec 384 := Config.sha384 (natLe 48 m.toNat ++ natLe 48 d.toNat)

/-- TIDE_CALIBRATION (R495): every path is measured anew and every T is 0. -/
def State.calibrate (s : State) : State :=
  let pairs := (List.range 8).flatMap fun i => ((List.range 8).filter fun j => i != j).map fun j => 8 * i + j
  let lat := pairs.zipIdx.map fun p => (p.1, Config.freeNat (s.freeCtr + p.2))
  { s with sideband := lat, freeCtr := s.freeCtr + pairs.length, domains := [], uncal := [] }

/-- POWER_ON_RESET (R494): the steps of bring-up in their order. When the firmware or the remap table does not verify (R431), the boot ROM
stays in its recovery service, over the Wolas port alone, and no memory is wiped; else the dies whose link fails are retired, every memory is
wiped, and at the end all links are up. Each stage extends the measurement register with the digest of the next one before it runs it (R432):
the boot ROM that of the firmware, and the firmware those of the images that it verifies and loads then. -/
def execPowerOnReset (boot : BootImages) (s : State) : Out :=
  let t := s.lasting
  if t.verifies t.keyStore.keys boot.fw && t.verifies t.keyStore.keys boot.remap then
    let run := boot.fw :: boot.later.filter (t.verifies t.keyStore.keys)
    .next { t with measure := run.foldl (fun (m : BitVec 384) (x : Signed) => extendMeasure m x.digest) 0, recovery := false, bringUp := 7,
                         lostDies := boot.lost.map BitVec.toNat }.calibrate
  else .next { t with recovery := true, bringUp := 1, links := linksDown 16, mem := s.mem, poison := s.poison, staged := s.staged }

/-- Pairs of dies whose path crosses a link of the ring. -/
def crossingPairs (link : Nat) : List Nat :=
  (List.range 8).flatMap fun i => ((List.range 8).filter fun j => i != j && (ringLinks i j).contains link).map fun j => 8 * i + j

/-- LINK_RETRAIN (R495): the link of an F-die to the next one is trained again. From its beginning the latencies of the paths across it are
unknown and their samples are not used; its calibration, which gives the latency of the direct path, measures the relayed ones anew, as free
values, and new samples come. -/
def execLinkRetrain (die : BitVec 3) (lat : Option Nat) (s : State) : Out :=
  let i := die.toNat
  let pairs := crossingPairs i
  let cut := fun (e : Nat × Domain) =>
    (e.1, { e.2 with samples := e.2.samples.filter fun q => !pairs.contains (8 * (q.1 % 8) + e.1 % 8) })
  let s := { s with domains := s.domains.map cut, sideband := s.sideband.filter fun e => !pairs.contains e.1, uncal := s.uncal.filter (· ≠ i) }
  match lat with
  | none => .next { s with uncal := s.uncal ++ [i] }
  | some l =>
    let j := (i + 1) % 8
    let direct := fun (k : Nat) => k == 8 * i + j || k == 8 * j + i
    let new := pairs.zipIdx.map fun p => (p.1, if direct p.1 then l else Config.freeNat (s.freeCtr + p.2))
    .next { s with sideband := new.foldl (fun m e => Kv.insert m e.1 e.2) s.sideband, freeCtr := s.freeCtr + pairs.length }

end Sys2Proof.Machine
end

