-- ==== Sys2Proof/Machine/Integrity.lean ====
section
/-! DEFINITION. Partitions as error domains, error logs, wiping, the dirty-page log, the life cycle, and what firmware writes and
reads (R10, R309, R322, R327, R416 to R432). -/

namespace Sys2Proof.Machine

/-! ### Injection and logs (R424, R425) -/

/-- EINJ_WRITE (R425): a write at a time when the register is not writable is ignored; bit 19 is reserved. -/
def execEinjWrite (array : Nat) (v : BitVec 64) (s : State) : Out :=
  let free := s.life == .provisioned || s.life == .returned || (s.life == .deployed && s.parts.all fun e => !e.2.v)
  if free then .next (s.setErr array { s.err array with einj := v &&& ~~~(BitVec.ofNat 64 (2 ^ 19)) }) else .next s

/-- ERROR_LOG_CLEAR (R424). -/
def execErrorLogClear (array entry : Nat) (s : State) : Out :=
  let x := s.err array
  match x.log[entry]? with
  | some e => .next (s.setErr array { x with log := x.log.set entry { e with valid := false } })
  | none => .next s

/-! ### Errors (R419 to R421) -/

/-- Commands of the sieve (R372). -/
def isSieve : Instr → Bool
  | .sgath .. => true | .sscat .. => true | .sscata .. => true | .sisect .. => true | .prune .. => true | _ => false

/-- The partition of a tenant. -/
def State.tenantPid (s : State) (tenant : BitVec 16) : Nat :=
  match s.parts.find? fun e => e.2.v && e.2.tenant == tenant with | some e => e.1 | none => 127

/-- The partitions that hold a valid transaction in a shared structure of a die (R418, R419): those whose CIDs its transactions carry, or
that own what stands in it. A node's or a link's die is the one that the transaction's context or place gives; requests of other devices count
where their memory is. -/
def State.holdersOf (s : State) (u : SharedUnit) (die : Nat) : List Nat :=
  let pid := fun (cid : BitVec 16) => if s.cidBad cid then none else some (cid.extractLsb' 0 7).toNat
  let accs := fun (f : Acc → Bool) => (s.accs.filter f).filterMap fun a => pid a.cid
  let own := fun (a : Acc) => a.loc.dev == s.ownDev.toNat
  let amo := fun (a : Acc) => match a.kind with | .amo .. => true | _ => false
  let cmds := fun (f : Cmd → Loc → Bool) =>
    (s.cmds.filter fun k => (s.unitAddrs k).any fun a => f k (s.engLoc k.ctx 3 a).owner).filterMap fun k => pid k.cid
  let asked := fun (f : Nat → Bool) => s.inputs.filterMap fun e => match e.2 with
    | .remoteRequest tenant _ addr _ _ _ => if f addr.toNat then some (s.tenantPid tenant) else none
    | _ => none
  match u with
  | .generator => accs (fun a => dieOf (panOf a.ctx) == die) ++ (s.cmds.filter fun k => dieOf k.pan == die).filterMap fun k => pid k.cid
  | .sieve => (s.cmds.filter fun k => dieOf k.pan == die && isSieve k.instr).filterMap fun k => pid k.cid
  | .merge => accs (fun a => dieOf (panOf a.ctx) == die && amo a)
      ++ (s.cmds.filter fun k => dieOf k.pan == die && (match k.instr with | .sscata .. => true | _ => false)).filterMap fun k => pid k.cid
  | .sluice => (s.streams.filter fun e => e.1 / 16 % 8 == die && (e.2.send.isSome || e.2.recv.isSome)).map fun e => e.1 / 128
  | .lineBuffer => (s.lineBufs.filter fun b => b.mdie == die).filterMap fun b => pid b.cid
  | .linkQueue => accs (fun a => dieOf (panOf a.ctx) == die && !own a)
      ++ cmds (fun k l => dieOf k.pan == die && l.dev != s.ownDev.toNat)
  | .hbmQueue => accs (fun a => own a && (stackOf a.loc.pa == some die))
      ++ cmds (fun _ l => l.dev == s.ownDev.toNat && (stackOf l.pa == some die)) ++ asked fun p => stackOf p == some die
  | .launchQueue => (s.parts.filter fun e => e.2.v && e.2.queue != []).map (·.1)

/-- The array that an error strikes, the place in it, its die, and the CID that its log entry names (R424). -/
def State.struckAt (s : State) (x : Struck) : Nat × Nat × Nat × BitVec 16 :=
  match x with
  | .data addr _ cid => (arrayOf addr, addr, arrayDie (arrayOf addr), cid)
  | .priv pid bank index => (arrayPrivate pid.toNat bank, index, (((s.part pid.toNat).fields.headD 0) / 6), pid.setWidth 16)
  | .shared u die index cid => (arrayShared u die.toNat, index, die.toNat, cid)
  | .table ctx => (arrayTables (s.ctx ctx).pid, ctx, dieOf (panOf ctx), cidOf (BitVec.ofNat 8 (s.ctx ctx).pid))
  | .ring die index cid => (arrayRing die.toNat, index, die.toNat, cid)

/-- Whether an injected error can be made now (R425): in memory it comes with the write that meets the register, and never as an event of
its own. -/
def State.mayInject (s : State) (x : Struck) (want : Verdict) : Bool :=
  let (k, a, _, cid) := s.struckAt x
  match x with
  | .data .. => false
  | .shared .. => s.injectable k a want (s.cidBad cid)
  | _ => s.injectable k a want false

/-- UNCORRECTABLE_ERROR (R419): a transfer over a die-to-die link is sent again until it is right (R422), so nothing is lost there; data are poisoned; other state resets the partition that owns it, the one that a table or a transaction
names, or those that a corrupt CID may have meant. -/
def execUncorrectableError (x : Struck) (injected : Bool) (s : State) : Out :=
  if injected && !s.mayInject x .detected then .next s
  else
    let (k, a, die, cid) := s.struckAt x
    let s := if injected then s.disarm k else s
    let entry := (s.err k).place
    let log := fun (kind : BitVec 4) => s.logError k die (BitVec.ofNat 48 a) cid kind (arrayCode k) injected
    match x with
    | .ring .. => .next s
    | .data addr n _ => .next ((log 1).poisonBytes addr n)
    | .priv pid _ _ => .next ((log 1).resetPartition pid.toNat k entry)
    | .table ctx => .next ((log 1).resetPartition (s.ctx ctx).pid k entry)
    | .shared u d _ cid =>
      let hit := if s.cidBad cid then s.holdersOf u d.toNat else [(cid.extractLsb' 0 7).toNat]
      .next (hit.dedup.foldl (fun s p => s.resetPartition p k entry) (log (if s.cidBad cid then 3 else 1)))

/-- CORRECTABLE_ERROR (R419, R422): an error of some wrong units in a code word, symbols in HBM and bits elsewhere, is corrected in place and
logged, where the array's code corrects so many. -/
def execCorrectableError (x : Struck) (wrong : Nat) (injected : Bool) (s : State) : Out :=
  let (k, a, die, cid) := s.struckAt x
  if wrong = 0 ∨ (arrayDomain k).verdict wrong ≠ .corrected ∨ (injected && !s.mayInject x .corrected) = true then .next s
  else
    let s := if injected then s.disarm k else s
    .next (s.logError k die (BitVec.ofNat 48 a) cid 0 (arrayCode k) injected)

/-- PATROL_SCRUB (R423): a line is read and written back corrected; poisoned lines stay so, and every other line as it is. -/
def execPatrolScrub (_addr : Nat) (s : State) : Out := .next s

/-! ### Wiping (R426 to R428) -/

/-- TENANT_CHANGE_WIPE (R427): the nodes and the concentrator of a field with no context bound are wiped. -/
def execTenantChangeWipe (field : Nat) (s : State) : Out :=
  if ((fieldPans (16 * field)).flatMap s.bound).isEmpty then
    let s := s.dropStores field
    let s := ((fieldPans (16 * field)).foldl (fun (s : State) pan => s.wipe (nodeBase pan) Config.nodeSize) s).clearCtl field
    .next { s.wipe (fieldBase field) Config.fieldSize with fieldTenant := Kv.set 0 s.fieldTenant field 0 }
  else .next s

/-- SCRUB_LINE (R428): the scrubber of an M-die zeroes its next set line, in ascending order. -/
def execScrubLine (stack : BitVec 3) (s : State) : Out :=
  let k := stack.toNat
  let mine := fun (line : Nat) =>
    stackOf (line * 128) == some k
      || (decide (reservoirBase k ≤ line * 128) && decide (line * 128 < reservoirBase (k + 1)))
  match s.scrub.find? fun e => e.2 && mine e.1 with
  | some e => .next (s.scrubOne e.1)
  | none => .next s

/-- LIFE_CYCLE_CHANGE (R426): a move of the life cycle that what authorises it allows wipes everything, and bring-up stands where it stood;
Returned erases the owner keys. -/
def execLifeCycleChange (lc : LifeCycle) (auth : Auth) (s : State) : Out :=
  let made := s.verifies s.keyStore.made
  let owner := s.verifies s.keyStore.owner
  let allowed := match s.life, lc, auth with
    | .blank, .provisioned, .manufacturingKey x => made x
    | .provisioned, .deployed, .ownerToken x => owner x
    | .deployed, .returned, .ownerToken x => owner x
    | .returned, .provisioned, .manufacturingToken x => made x
    | _, _, _ => false
  let keys := if lc = .returned then
      { s.keyStore with owner := [], keys := s.keyStore.keys.filter fun k => !s.keyStore.owner.contains k }
    else s.keyStore
  if allowed then
    .next { s.lasting with life := lc, keyStore := keys, recovery := s.recovery, bringUp := s.bringUp, lostDies := s.lostDies, links := s.links }
  else .next s

/-! ### The dirty-page log (R429, R430) -/

/-- DLOG_ROUND_END (R429): one atomic step ends the round of a partition, after the scrub rule (R428). -/
def execDlogRoundEnd (pid : BitVec 7) (s : State) : Out :=
  let p := s.part pid.toNat
  if !p.dlog then .next s
  else
    let s := { s with dirty := s.dirty.filter fun e => e.1 / 2 ^ 32 != pid.toNat }.scrubFor p.dlogp 64
    let round := s.readNat (p.dlogp + 20) 4
    .next ((s.writeNat (p.dlogp + 12) 4 0).writeNat (p.dlogp + 20) 4 ((round + 1) % 2 ^ 32))

/-! ### What firmware writes (R10, R307, R313, R416, R466, R491) -/

/-- A partition record from its 64 bytes; RST is read-only (R416). -/
def partOf (old : Part) (v : Nat) : Part :=
  { old with fset := BitVec.ofNat 96 v, tenant := BitVec.ofNat 16 (bitsN v 96 16), v := v.testBit 112, dlog := v.testBit 114,
             z := bitsN v 128 64, rmap := bitsN v 192 64, nfoot := bitsN v 256 32, ffoot := bitsN v 288 32, sluice := bitsN v 320 32,
             budget := bitsN v 352 32, dlogp := bitsN v 384 64 }

/-- Words as one number, the first one lowest. -/
def wordsNat (v : List (BitVec 64)) : Nat := v.foldr (fun w n => w.toNat + 2 ^ 64 * n) 0

/-- REGISTER_WRITE (R10): a register without behaviour of its own takes its RW fields. A partition record becomes valid only after bring-up
(R494), and its fields' budgets follow it (R383, R492). -/
def execRegisterWrite (r : FwReg) (v : List (BitVec 64)) (s : State) : Out :=
  let w := v.headD 0
  match r with
  | .partition pid =>
    if 96 ≤ pid.toNat then .next s
    else
      let p := partOf (s.part pid.toNat) (wordsNat v)
      let p := { p with v := p.v && s.bringUp == 7 }
      let s := s.setPart pid.toNat p
      .next { s with budgets := p.fields.foldl (fun b f => Kv.set 0 b f (s.budgetOf p f)) s.budgets }
  | .resMap pid => .next (s.physWrite (s.part pid.toNat).rmap (v.flatMap fun u => natLe 4 u.toNat))
  | .route mdie dev =>
    .next { s with routes := Kv.set 0 s.routes (4096 * mdie.toNat + dev.toNat) (if w.toNat < 16 then w.toNat + 1 else 0) }
  | .tenantRoot tenant => .next { s with tenantRoot := Kv.set 0 s.tenantRoot tenant.toNat w.toNat }
  | .ownDevice => .next { s with ownDev := w.setWidth 12 }
  | .floorW =>
    let f := min Config.powerMax (max Config.powerMin w.toNat)
    .next { s with floorW := f, cap := if s.lease.isSome then s.cap else f }
  | .scrub line => .next { s with scrub := Kv.set false s.scrub line (w.getLsbD 0) }
  | .dbg ctx => .next (s.setCtx ctx { s.ctx ctx with dbg := w.getLsbD 0 })
  | .linkUp link => .next { s with links := Kv.set {} s.links link.toNat { up := w.getLsbD 0 } }

/-! ### The remap table (R417) -/

/-- Physical pans of a physical field that manufacturing has harvested (R417). -/
def State.harvested (s : State) (die pf : Nat) : List Nat := (List.range 17).filter fun p => Kv.get false s.fuses (32 * (6 * die + pf) + p)
/-- Physical fields of a die with sixteen pans left: a field that has lost more than its spare is retired whole (R417). -/
def State.wholeFields (s : State) (die : Nat) : List Nat :=
  (List.range Config.fieldsPerDie).filter fun f => decide ((s.harvested die f).length ≤ 1)

/-- Keys of the part of the remap table that firmware adds: the physical field of a logical one, the physical pan of a logical one of a
physical field, whether a physical field's spare is in use, and the fields that a die has lost in service. Physical numbers are held plus 1; what is not listed is
as the fuses give it, in dense order. -/
def remapField (die f : Nat) : Nat := 8 * die + f
def remapPan (die pf p : Nat) : Nat := 1024 + 32 * (8 * die + pf) + p
def remapSpare (die pf : Nat) : Nat := 4096 + 8 * die + pf
def remapLost (die : Nat) : Nat := 8192 + die
def State.physField (s : State) (die f : Nat) : Nat :=
  match Kv.get 0 s.remap (remapField die f) with | 0 => (s.wholeFields die).getD f f | n + 1 => n
def State.physPan (s : State) (die pf p : Nat) : Nat :=
  match Kv.get 0 s.remap (remapPan die pf p) with
  | 0 => ((List.range 17).filter fun q => !(s.harvested die pf).contains q).getD p p
  | n + 1 => n
def State.setRemap (s : State) (k v : Nat) : State := { s with remap := Kv.set 0 s.remap k v }
/-- Logical fields that a die exposes: none where bring-up has retired it (R494). -/
def State.fieldsOn (s : State) (die : Nat) : Nat :=
  if s.lostDies.contains die then 0 else (s.wholeFields die).length - Kv.get 0 s.remap (remapLost die)

/-- REMAP_TABLE_CHANGE (R417): the pan of a field that belongs to no partition fails in service. The field's spare takes its place, or
the field is retired whole and the die's later logical fields, which must belong to no partition either, move down. The firmware takes
only a table that verifies (R431). -/
def execRemapTableChange (die : BitVec 3) (field : BitVec 3) (pan : Retired) (s : State) : Out :=
  let d := die.toNat
  let f := field.toNat
  let n := s.fieldsOn d
  let unowned := fun (k : Nat) => s.owner (6 * d + k) == 127
  let pf := s.physField d f
  let table := pan.table
  let pan := pan.pan
  if n ≤ f ∨ unowned f = false ∨ 16 < pan.toNat ∨ s.verifies s.keyStore.keys table = false then .next s
  else if Kv.get 0 s.remap (remapSpare d pf) = 0 ∧ s.harvested d pf = [] then
    let s := match (List.range 16).find? fun p => s.physPan d pf p == pan.toNat with
      | some p => s.setRemap (remapPan d pf p) 17
      | none => s
    .next (s.setRemap (remapSpare d pf) 1)
  else if ((List.range n).drop f).all unowned then
    let old := s
    let s := ((List.range (n - 1)).drop f).foldl (fun s k => s.setRemap (remapField d k) (old.physField d (k + 1) + 1)) s
    .next (s.setRemap (remapLost d) (Kv.get 0 old.remap (remapLost d) + 1))
  else .next s

/-! ### Management cores (R309, R322, R327) -/

/-- Ranges of R309: HBM and reservoirs, the counter arrays, the tenant tags. -/
inductive PhysKind where | memory | counters | tags | reserved
  deriving DecidableEq, Repr
def physKind (a : Nat) : PhysKind :=
  if a < 0x8040000000 then .memory else if 0x8100000000 ≤ a ∧ a < 0x8102000000 then .counters
  else if 0x8102000000 ≤ a ∧ a < 0x8103000000 then .tags else .reserved

/-- Byte `b` of a number, and the number with that byte replaced. -/
def byteOf (v b : Nat) : Byte := BitVec.ofNat 8 (v / 2 ^ (8 * b))
def setByte (v b : Nat) (x : Byte) : Nat := setBits v (8 * b) 8 x.toNat

/-- A byte of a physical address, as a management core reads it. -/
def State.physByte (s : State) (a : Nat) : Byte :=
  match physKind a with
  | .memory => s.peek a
  | .counters =>
    let g := (a - 0x8100000000) / 4
    byteOf (Kv.get 0 s.home g + 2 ^ 16 * Kv.get 0 s.away g) (a % 4)
  | .tags => byteOf (Kv.get 0 s.tags ((a - 0x8102000000) / 2)) (a % 2)
  | .reserved => 0

/-- A byte of a dirty-page log control block keeps its read-only part, and OVF is cleared by writing 1 (R429). -/
def State.logByte (s : State) (a : Nat) (b : Byte) : Byte :=
  match s.parts.find? fun e => e.2.v && e.2.dlog && decide (e.2.dlogp ≤ a) && decide (a < e.2.dlogp + 64) with
  | none => b
  | some e =>
    let o := a - e.2.dlogp
    let old := s.peek a
    if o = 16 then old &&& ~~~(b &&& 1) else if (12 ≤ o ∧ o < 20) ∨ 24 ≤ o then old else b

/-- A byte that a management core writes. -/
def State.physStore (s : State) (a : Nat) (b : Byte) : State :=
  match physKind a with
  | .memory => (((s.scrubFor a 1).closeFadds a 1).writeByte a (s.logByte a b)).inject (cidOf 127) a 1
  | .counters =>
    let g := (a - 0x8100000000) / 4
    if a % 4 < 2 then { s with home := Kv.set 0 s.home g (setByte (Kv.get 0 s.home g) (a % 4) b) }
    else { s with away := Kv.set 0 s.away g (setByte (Kv.get 0 s.away g) (a % 4 - 2) b) }
  | .tags =>
    let g := (a - 0x8102000000) / 2
    { s with tags := Kv.set 0 s.tags g (setByte (Kv.get 0 s.tags g) (a % 2) b) }
  | .reserved => s

def State.physStores (s : State) : Nat → List Byte → State
  | _, [] => s
  | a, b :: bs => (s.physStore a b).physStores (a + 1) bs

/-- The scrubs of the lines that a load of a management core meets (R428). -/
def State.physTouch (s : State) (a n : Nat) : State :=
  (List.range n).foldl (fun s k => match physKind (a + k) with | .memory => s.scrubFor (a + k) 1 | _ => s) s

/-- MANAGEMENT_CORE_ACCESS (R309, R322, R327): a load answers firmware, a store is performed; neither is counted. Both are held until a
locked line that they meet is unlocked (R323, R324). An address that
R309 reserves stops the machine. -/
def execManagementCoreAccess (addr : BitVec 48) (n : Nat) (data : Option (List Byte)) (s : State) : Out :=
  let a := addr.toNat
  let n := match data with | some bs => bs.length | none => n
  if (List.range n).any fun k => physKind (a + k) == .reserved then .fault (.reservedPhysical addr)
  else
    let s := s.settleAt ⟨s.ownDev.toNat, a, false, 0⟩ n
    match data with
    | some bs => .next (s.physStores a bs)
    | none =>
      let s := s.physTouch a n
      .next (s.emit (.coreRead addr ((List.range n).map fun k => s.physByte (a + k))))

end Sys2Proof.Machine
end

