-- ==== Sys2Proof/Machine/Devices.lean ====
section
/-! DEFINITION. Device links, requests from other devices, the endpoint directory, and the messages of the Wolas port (R463 to
R468, R471, R477 to R479). -/

namespace Sys2Proof.Machine

/-! ### Links (R465) -/

/-- LINK_DOWN (R465): the log records an exhausted retry, and firmware is told. -/
def State.linkDown (s : State) (link : BitVec 5) : State :=
  let s := s.setLink link { s.link link with up := false }
  (s.logError (arrayLink link) (link.toNat / 2) (link.setWidth 48) 0 4 4 false).emit (.linkDown link)

/-- Kept flits that follow a SEQ. -/
def flitsAfter (ack : BitVec 12) (fs : List Flit) : List Flit :=
  match fs.findIdx? fun f => f.seq == ack with
  | some i => fs.drop (i + 1)
  | none => fs

/-- FLIT_REPLAY (R465): every flit after the last good one is sent again; one resent 16 times in vain takes the link down. -/
def execFlitReplay (link : BitVec 5) (ack : BitVec 12) (s : State) : Out :=
  let l := s.link link
  let l := if l.acked = ack then l else { l with acked := ack, resends := 0 }
  let again := flitsAfter ack l.replay
  if !l.up || again.isEmpty then .next s
  else if maxResends ≤ l.resends then .next ((s.setLink link l).linkDown link)
  else .next { s.setLink link { l with resends := l.resends + 1 } with sent := s.sent ++ again.map fun f => (link, f) }

/-- The answer to a flit that is not accepted: NAK and the last good SEQ (R465). -/
def State.refuseFlit (s : State) (link : BitVec 5) : State :=
  let s := s.setLink link { s.link link with nak := true }
  s.sendFlit link { flitOf flitControl 0 0 s.ownDev 0 [] with nak := true }

/-- Whether the endpoint of a collective flit is open here (R471); where its payload names the endpoint is log 34. -/
def flitGid (f : Flit) : BitVec 32 := BitVec.ofNat 32 (leNat (f.payload.take 4))
def flitRank (f : Flit) : BitVec 6 := BitVec.ofNat 6 (leNat ((f.payload.drop 4).take 1))
def State.endpointHere (s : State) (f : Flit) : Bool :=
  s.endpoints.any fun e => e.tenant == f.tenant && e.gid == flitGid f && e.rank == flitRank f

/-- A collective flit of this device that has come back: it is sent again at once when the directory names another device for its endpoint
than the one that has returned it, and else waits for the directory (R471). -/
def State.resend (s : State) (f : Flit) : State :=
  match s.deviceOf f.tenant (flitGid f) (flitRank f) with
  | some dev => if dev = f.dst ∨ dev = s.ownDev then { s with returned := s.returned ++ [f] } else s.sendColl dev f
  | none => { s with returned := s.returned ++ [f] }

/-- What an accepted flit of a device link does beyond its link: a collective one for an endpoint that is not here goes back over the link
for its device (R466), and one of this device that has come back is sent again (R471). Requests, responses and collectives act as events
of their own. -/
def State.takeFlit (s : State) (link : BitVec 5) (f : Flit) : State :=
  if f.type != flitCollective then s
  else if f.src == s.ownDev then s.resend f
  else if s.endpointHere f then s
  else match s.linkTo (link.toNat / 2) f.src.toNat with
    | some back => s.sendFlit back f
    | none => { s with returned := s.returned ++ [f] }

/-! ### Requests between devices (R322, R467, R468) -/

/-- What a request does, as an access. -/
def remoteKind : RemoteOp → AccKind
  | .store d => .store d
  | .amo op v ord fin fres _ => .amo op (leNat v) fin fres ord
  | .cas cmp new => .cas (leNat cmp) (leNat new)
  | _ => .load true
/-- The bytes that a request names. -/
def remoteBytes : RemoteOp → Nat
  | .store d => d.length
  | .cas cmp _ => cmp.length
  | .amo _ v _ _ _ _ => v.length
  | .update _ => 32
  | _ => 128

/-- The partition that a tenant's request writes for: one of the tenant with a dirty-page log, else any of it (R429). -/
def State.pidOf (s : State) (tenant : BitVec 16) : Nat :=
  match s.parts.find? fun e => e.2.v && e.2.dlog && e.2.tenant == tenant with
  | some e => e.1
  | none => 127

/-- What a response says (log 34): whether the request was performed, how many bytes it brings, a bit for each poisoned one (R422), and the
bytes. -/
def answerBytes : Option Answer → List Byte
  | none => [1]
  | some r => natLe 1 0 ++ natLe 1 r.bytes.length ++ natLe 16 ((r.bad.map (2 ^ ·)).foldl (· ||| ·) 0) ++ r.bytes

/-- The response to a device, over the owning M-die's link for it; a request of this device has none. -/
def State.respond (s : State) (mdie : Nat) (dev : BitVec 12) (tenant : BitVec 16) (r : Option Answer) : State :=
  if dev = s.ownDev then s
  else match s.linkTo mdie dev.toNat with
    | some link => s.sendFlit link (flitOf flitResponse 1 dev s.ownDev tenant (answerBytes r))
    | none => s

/-- The task that a request comes from: a task of another device stands under partition 128 + device (R469); an ordered fadd that this
device has left behind brings its partition (R462). -/
def State.remoteTask (s : State) (src : BitVec 12) (n : Nat) (task : BitVec 32) : TaskRef :=
  if src = s.ownDev then ⟨n / 8, task⟩ else ⟨128 + src.toNat, task⟩

/-- An ordered fadd from another device; `none` while the table is full (R462, R469). -/
def State.remoteFadd (s : State) (p : Nat) (task : TaskRef) (cid : BitVec 16) (old : List Byte) (v : Nat) (mode : BitVec 6) :
    Option (State × List Byte) :=
  if s.faddFull s.ownDev.toNat p then none
  else
    let (f, bs) := s.faddNext s.ownDev.toNat p task 0 cid old mode v
    some (s.keepFadd f, bs)

/-- The place of a request on this device: its page's primary replica, when it is replicated (R323, R467). -/
def State.remoteLoc (s : State) (p : Nat) (rep : Bool) : Loc := ⟨s.ownDev.toNat, p, rep, bitsN p 36 3⟩
/-- The write of a request, at the replicas too when its page is replicated, each counted (R322, R323, R467). -/
def State.remoteWrite (s : State) (die pid p : Nat) (rep : Bool) (bs : List Byte) : State :=
  (s.countOthers die (s.remoteLoc p rep) bs.length).writeLoc pid (s.remoteLoc p rep) bs

/-- What a request brings back of the bytes at `p`. -/
def State.answerAt (s : State) (p n : Nat) : Answer :=
  ⟨s.readBytes p n, (List.range n).filter fun i => Kv.get false s.poison (p + i)⟩

/-- REMOTE_REQUEST (R467, R468): the owner checks the request against the tag of its granule, counts it, performs it and answers: a load
with the line that holds the address (R320), an atomic with the bytes that it has read, their poison marks included (R422). A request
that meets a locked line is held until it is unlocked (R323, R324), and an ordered fadd waits while the table of entries is full (R462).
The exit of a task of another device closes the sums that it has opened (R462, R469). -/
def execRemoteRequest (tenant : BitVec 16) (src : BitVec 12) (addr : BitVec 48) (n : Nat) (rep : Bool) (op : RemoteOp) (s : State) :
    Out :=
  let own := src == s.ownDev
  let len := remoteBytes op
  let p := if len = 128 then addr.toNat / 128 * 128 else addr.toNat
  let mdie := (stackOf p).getD 0
  let die := if own then n % 8 else 8
  let pid := if own then n / 8 else s.pidOf tenant
  let cid := cidOf (BitVec.ofNat 8 pid)
  match op with
  | .taskExit task => .next { s with fadds := s.fadds.filter fun f => f.task != ⟨128 + src.toNat, task⟩ }
  | _ =>
  if !own && ((stackOf p).isNone || Kv.get 0 s.tags (p / 65536) != tenant.toNat) then
    .next ((s.logError (arrayOf p) mdie addr 0 s.anyKind 0 false).respond mdie src tenant none)
  else
    let s1 := ((s.settleAt (s.remoteLoc p rep) len).countAccess die p len).scrubFor p len
    let got := s1.answerAt p len
    let bad := !got.bad.isEmpty
    let s1 := match op, s1.poisoned p len with
      | .store _, _ => s1
      | .update _, _ => s1
      | _, some q => s1.logPoison q cid
      | _, none => s1
    match op with
    | .update steps => .next ((s1.updateObj pid (s.remoteLoc p rep) fun o => steps.foldl Obj.step o).respond mdie src tenant (some ⟨[], []⟩))
    | .amo .fadd v true fin fres task =>
      if bad then .next (s1.respond mdie src tenant (some got))
      else match s1.remoteFadd p (s.remoteTask src n task) cid got.bytes (leNat v) (flush32 fin fres) with
        | none => .next { s with inputs := s.inputs ++ [(s.cycle + 1, .remoteRequest tenant src addr n rep op)] }
        | some (s2, bs) =>
          let entry := s2.fadds
          .next ({ s2.remoteWrite die pid p rep bs with fadds := entry }.respond mdie src tenant (some got))
    | _ =>
      let s2 := match (remoteKind op).newBytes len got.bytes bad with
        | some bs => s1.remoteWrite die pid p rep bs
        | none => s1
      .next (s2.respond mdie src tenant (some (match op with | .store _ => ⟨[], []⟩ | _ => got)))

/-- The device that an access waits for, if its answer comes over a link. -/
def State.waitsOn (s : State) (link : BitVec 5) (die dev : Nat) : Bool := dev != s.ownDev.toNat && s.linkTo die dev == some link

/-- A virtual address of a command whose device is reached over a link: of its sides, or of an EVICT or PREF. -/
def State.cmdOver (s : State) (link : BitVec 5) (k : Cmd) : Option Nat :=
  (s.unitAddrs k).find? fun a => s.waitsOn link (dieOf k.pan) (s.engLoc k.ctx 3 a).dev

/-- LINK_TIMEOUT (R468): a link that has stayed down for 100 µs fails what waits for it, and the event is logged. -/
def execLinkTimeout (link : BitVec 4) (s : State) : Out :=
  let link := link.setWidth 5
  if (s.link link).up then .next s
  else
    let lost := s.accs.filter fun a => s.waitsOn link (dieOf (panOf a.ctx)) a.loc.dev
    let s' := lost.foldl State.lose s
    let s' := s.cmds.foldl (fun t k => match s.cmdOver link k with | some a => t.failCmd k 0x020D a | none => t) s'
    .next (s'.logError (arrayLink link) (link.toNat / 2) (link.setWidth 48) 0 s.anyKind 4 false)

/-! ### The endpoint directory (R471) -/

/-- ENDPOINT_DIRECTORY_UPDATE (R471): an endpoint is named with its device; flits that came back for it are sent there, and one for this
device has arrived. -/
def execEndpointDirectoryUpdate (tenant : BitVec 16) (gid : BitVec 32) (rank : BitVec 6) (dev : BitVec 12) (s : State) : Out :=
  let key := fun (e : BitVec 16 × BitVec 32 × BitVec 6 × BitVec 12) => e.1 == tenant && e.2.1 == gid && e.2.2.1 == rank
  let mine := fun (f : Flit) => f.tenant == tenant && flitGid f == gid && flitRank f == rank
  let s1 := { s with directory := (s.directory.filter fun e => !key e) ++ [(tenant, gid, rank, dev)],
                     returned := s.returned.filter fun f => !mine f }
  .next (if dev = s.ownDev then s1 else (s.returned.filter mine).foldl (fun t f => t.sendColl dev f) s1)

/-! ### What the messages do (R478, R479) -/

def wolasImgld : BitVec 8 := 0x01
def wolasStart : BitVec 8 := 0x02
def wolasCap : BitVec 8 := 0x03
def wolasAttreq : BitVec 8 := 0x04

/-- An answer under the sequence number of its message (R477). -/
def State.answer (s : State) (type : BitVec 8) (pid : BitVec 7) (seq : BitVec 64) (body : List Byte) : State :=
  { s with wolas := s.wolas ++ [⟨type, pid, seq, body⟩] }

/-- Bytes written through a tenant's page tables, up to the first address that is not mapped writable. -/
def State.writeWalk (s : State) (pid tenant : Nat) : Nat → List Byte → State × Option Nat
  | _, [] => (s, none)
  | va, b :: bs =>
    let s := s.touchWalks tenant [va]
    match s.walk tenant va with
    | none => (s, some va)
    | some l =>
      if l.w then (s.writeAt pid ((l.run (bitsN l.pa 36 3) 0).locAt 0 (va % 65536)) [b]).writeWalk pid tenant (va + 1) bs
      else (s, some va)

/-- PID 0x7F names no partition (R477). -/
def noPid : BitVec 7 := 0x7F

/-- IMGLD (R478): the bytes go through the partition's page tables, and the answer is 0 or the failing address. The bytes of a firmware
image, which names no partition, are kept as they come, also by the recovery service, which serves no other IMGLD; the next bring-up
verifies the images that it finds (R431, R494; log 34). -/
def execImgld (seq : BitVec 64) (pid : BitVec 7) (va : BitVec 64) (body : List Byte) (s : State) : Out :=
  if pid = noPid then .next ({ s with staged := s.staged ++ [(va, body.take 216)] }.answer wolasImgld pid seq (natLe 8 0))
  else if s.recovery then .next s
  else
    let (s, bad) := s.writeWalk pid.toNat (s.part pid.toNat).tenant.toNat va.toNat (body.take 216)
    .next (s.answer wolasImgld pid seq (natLe 8 (bad.getD 0)))

/-- Granules of a tenant as extents of one granule each, for the checks of R479. -/
def State.walkExtents (s : State) (tenant : Nat) (vas : List Nat) : List Extent :=
  vas.filterMap fun va => (s.walk tenant va).map fun l =>
    ⟨0, va / 65536 * 65536, va / 65536 * 65536 + 65536, l.w, [l.run (bitsN l.pa 36 3) 0], 0⟩

/-- What START answers with a fault: its cause and TVAL. -/
def State.refuseStart (s : State) (seq : BitVec 64) (pid : BitVec 7) (cause tval : Nat) : State :=
  s.answer wolasStart pid seq (natLe 1 cause ++ natLe 8 tval)

/-- START (R479): orders 1 to 6 and 8 of R279 through the tenant's page tables, and the take. None is taken before bring-up has ended
(R494). -/
def execStart (seq : BitVec 64) (pid : BitVec 7) (va : BitVec 64) (s : State) : Out :=
  let p := s.part pid.toNat
  let tenant := p.tenant
  let a := va.toNat
  if s.recovery ∨ s.bringUp ≠ 7 then .next s
  else
    let s := s.touchWalks tenant.toNat [a]
    let x : Ctx := { pid := pid.toNat, tenant := tenant, ext := s.walkExtents tenant.toNat [a] }
    match s.accessFault x true false a 256 with
    | some k => .next (s.refuseStart seq pid k a)
    | none =>
      let s := s.touchVirt x none a 256
      match s.readVirt x 0 a 256 with
      | .range f => .next (s.refuseStart seq pid 0x09 f)
      | .corrupt _ => .next (s.refuseStart seq pid 0x12 a)
      | .bytes bs =>
        let l := lpbOf bs
        let x := { x with tenant := BitVec.ofNat 16 l.tenant, prio := 0,
                          ext := s.walkExtents tenant.toNat [l.prog, l.cpl, l.inbox] }
        let s := (s.touchWalks tenant.toNat [l.prog, l.cpl, l.inbox]).touchRecord x none bs
        match s.launchCheck x 0 pid.toNat a bs with
        | .fault k v => .next (s.refuseStart seq pid k v)
        | .full => .next (s.answer wolasStart pid seq (natLe 4 0))
        | .take =>
          let (s, id) := s.takeTask pid.toNat tenant x bs
          .next (s.answer wolasStart pid seq (natLe 4 id.toNat))

/-- Logical fields that a module exposes (R417). -/
def State.exposedFields (s : State) : Nat :=
  (List.range Config.dies).foldl (fun n d => n + s.fieldsOn d) 0

/-- The code of a life-cycle state in a report (log 34). -/
def lifeCode : LifeCycle → Nat
  | .blank => 0 | .provisioned => 1 | .deployed => 2 | .returned => 3

/-- What an attestation report holds (R432): the measurement register, life cycle, exposed fields, security versions, the nonce, and a
signature, which is a free value. -/
def State.report' (s : State) (nonce : List Byte) : List Byte :=
  natLe 48 s.measure.toNat ++ natLe 1 (lifeCode s.life) ++ natLe 2 s.exposedFields ++ natLe 4 s.keyStore.version.toNat
    ++ natLe 4 s.fuseVersion.toNat ++ (nonce ++ List.replicate 32 0).take 32 ++ s.freshBytes

/-- ATTREQ (R432, R478). -/
def execAttreq (seq : BitVec 64) (nonce : List Byte) (s : State) : Out :=
  .next ((s.answer wolasAttrep noPid seq (s.report' nonce)).takeFree)

/-- DEBUG (R389, R478): management firmware gets it, and answers as its policy says. -/
def execDebug (seq : BitVec 64) (body : List Byte) (s : State) : Out :=
  if s.recovery then .next s
  else .next (((s.emit (.wolasDebug seq body)).answer wolasDebug noPid seq s.freshBytes).takeFree)

/-! ### Messages of the Wolas port (R477) -/

/-- A whole message of the control node acts (R478); one of any other type is discarded and logged. -/
def State.takeMessage (s : State) (m : WolasMsg) : Out :=
  let at' := fun (i n : Nat) => leNat ((m.body.drop i).take n)
  if m.type = wolasImgld then execImgld m.seq m.pid (BitVec.ofNat 64 (at' 0 8)) (m.body.drop 8) s
  else if m.type = wolasStart then execStart m.seq m.pid (BitVec.ofNat 64 (at' 0 8)) s
  else if m.type = wolasCap then execCap (BitVec.ofNat 64 (at' 0 8)) (BitVec.ofNat 32 (at' 8 4)) (BitVec.ofNat 32 (at' 12 4)) s
  else if m.type = wolasAttreq then execAttreq m.seq (m.body.take 32) s
  else if m.type = wolasDebug then execDebug m.seq m.body s
  else .next (s.logError (arrayLink wolasPort) 0 0 (cidOf (m.pid.setWidth 8)) s.anyKind 4 false)

/-- An accepted flit of the Wolas port (R477): its body is put at its offset within its message, whose last flit completes it. Only TYPE 5
has a meaning there. -/
def State.takePort (s : State) (f : Flit) : Out :=
  let at' := fun (i n : Nat) => leNat ((f.payload.drop i).take n)
  let seq := BitVec.ofNat 64 (at' 4 8)
  let off := at' 12 4
  if f.type != flitWolas then .next s
  else
    let m := match s.portIn with
      | some m => if m.seq == seq then m else ⟨BitVec.ofNat 8 (at' 0 1), BitVec.ofNat 7 (at' 2 2), seq, []⟩
      | none => ⟨BitVec.ofNat 8 (at' 0 1), BitVec.ofNat 7 (at' 2 2), seq, []⟩
    let chunk := f.payload.drop 16
    let m := { m with body := (m.body ++ List.replicate off 0).take off ++ chunk ++ m.body.drop (off + chunk.length) }
    if at' 1 1 % 2 = 1 then { s with portIn := none }.takeMessage m else .next { s with portIn := some m }

/-- FLIT_RECEIVE (R464, R465): a damaged flit is logged; every flit that is not the next one in order is answered with NAK; the next
one is accepted, with what it acknowledges. -/
def execFlitReceive (link : BitVec 5) (f : Flit) (s : State) : Out :=
  let l := s.link link
  if !l.up then .next s
  else if !flitWhole f then
    .next ((s.logError (arrayLink link) (link.toNat / 2) (link.setWidth 48) 0 0 4 false).refuseFlit link)
  else if f.seq ≠ l.rxSeq + 1 then .next (s.refuseFlit link)
  else
    let l := { l with rxSeq := f.seq, nak := false }
    if f.nak then
      let s := s.setLink link l
      .next { s with agenda := s.agenda ++ [.flitReplay link f.ack] }
    else
      let l := if f.ack = l.acked then l else { l with acked := f.ack, resends := 0 }
      let s := s.setLink link l
      if link = wolasPort then s.takePort f else .next (s.takeFlit link f)

/-! ### What the module says (R477, R478) -/

def wolasEvent : BitVec 8 := 0x08

/-- A firmware event that the control node is told of: task exits, late starts, drift, resets and link events; its partition, and a body that
the spec does not give (log 34). -/
def eventBody : FwEvent → Option (BitVec 7 × List Byte)
  | .taskExit r => some (BitVec.ofNat 7 r.pid, natLe 1 0 ++ natLe 4 r.id.toNat)
  | .lateStart pan idx => some (noPid, natLe 1 1 ++ natLe 2 pan ++ natLe 1 idx.toNat)
  | .drift a b => some (noPid, natLe 1 2 ++ natLe 2 a ++ natLe 2 b)
  | .reset pid array _ => some (pid, natLe 1 3 ++ natLe 2 array)
  | .linkDown link => some (noPid, natLe 1 4 ++ natLe 1 link.toNat)
  | _ => none

/-- EVENT (R478): the events since the last cycle leave as messages; the recovery service sends none. -/
def State.tellEvents (s : State) : State :=
  let s := if s.recovery then s else
    (s.fw.drop s.fwTold).foldl (fun (t : State) e => match eventBody e with | some m => t.tell wolasEvent m.1 m.2 | none => t) s
  { s with fwTold := s.fw.length }

/-- The control node's address on the port, and the module's (R477). -/
def portDst : BitVec 12 := 0xFFF
def portSrc : BitVec 12 := 0xFFE

/-- The flit of a message from a byte offset of its body on: a header of 16 bytes, and up to 224 of the body (R477). -/
def WolasMsg.flit (m : WolasMsg) (off : Nat) : Flit :=
  flitOf flitWolas 0 portDst portSrc 0
    (natLe 1 m.type.toNat ++ natLe 1 (if m.body.length ≤ off + 224 then 1 else 0) ++ natLe 2 m.pid.toNat ++ natLe 8 m.seq.toNat ++ natLe 4 off
      ++ (m.body.drop off).take 224)

/-- The first message that waits leaves on the port, one flit in a fabric cycle (log 34); nothing leaves while the port is down. -/
def State.sendPort (s : State) : State :=
  match s.wolas with
  | [] => s
  | m :: rest =>
    if !(s.link wolasPort).up then s
    else
      let t := s.sendFlit wolasPort (m.flit s.portAt)
      if m.body.length ≤ s.portAt + 224 then { t with wolas := rest, portAt := 0 } else { t with portAt := s.portAt + 224 }

end Sys2Proof.Machine
end

