-- ==== Sys2Proof/Machine/Scalar.lean ====
section
/-! DEFINITION. Register, immediate and bit operations of the sequencer (R99 to R105). -/

namespace Sys2Proof.Machine

/-- A result of a latency above 1 counts towards the limit of R25; a fifth is not issued. -/
def State.longResult (s : State) (rd : Reg) (v : Word) (lat : Nat) : Out :=
  if 4 ≤ s.self.inFlight then s.trap 0x07 4 else s.result rd v lat

/-- 1 for a condition that holds, 0 otherwise. -/
def flag (c : Bool) : Word := if c then 1 else 0

/-- The quotients and remainders of R100; division never traps. -/
def quotS (a b : Word) : Word := if b = 0 then BitVec.allOnes 64 else BitVec.ofInt 64 (a.toInt.tdiv b.toInt)
def remS (a b : Word) : Word := if b = 0 then a else BitVec.ofInt 64 (a.toInt.tmod b.toInt)
def quotU (a b : Word) : Word := if b = 0 then BitVec.allOnes 64 else BitVec.ofNat 64 (a.toNat / b.toNat)
def remU (a b : Word) : Word := if b = 0 then a else BitVec.ofNat 64 (a.toNat % b.toNat)

/-- The high halves of the 128-bit products (R99). -/
def mulHighS (a b : Word) : Word := BitVec.ofInt 64 (a.toInt * b.toInt / 2 ^ 64)
def mulHighU (a b : Word) : Word := BitVec.ofNat 64 (a.toNat * b.toNat / 2 ^ 64)

/-- Zero bits above the highest one bit, of the low `n` bits (R103). -/
def leadingZeros (v : Nat) : Nat → Nat
  | 0 => 0
  | n + 1 => if v.testBit n then 0 else leadingZeros v n + 1
/-- Zero bits below the lowest one bit, counting from bit `k` on; at most `n`. -/
def trailingZeros (v k : Nat) : Nat → Nat
  | 0 => 0
  | n + 1 => if v.testBit k then 0 else trailingZeros v (k + 1) n + 1
/-- One bits among the low `n`. -/
def oneBits (v : Nat) : Nat → Nat
  | 0 => 0
  | n + 1 => (if v.testBit n then 1 else 0) + oneBits v n
/-- The low `n` bits in the opposite order. -/
def reverseBits (v : Nat) : Nat → Nat
  | 0 => 0
  | n + 1 => (if v.testBit 0 then 2 ^ n else 0) + reverseBits (v / 2) n

/-- The position and length of a field control (R104, R105). -/
def fieldPos (c : Word) : Nat := bitsN c.toNat 0 6
def fieldLen (c : Word) : Nat := min (bitsN c.toNat 8 7) 64

/-- BEXT's value (R104). -/
def extractField (sx : Bool) (a b : Word) : Word :=
  let len := fieldLen b
  let f := a.toNat / 2 ^ fieldPos b % 2 ^ len
  if sx ∧ 0 < len then BitVec.ofInt 64 (sextN f len) else BitVec.ofNat 64 f
/-- BINS's value (R105). -/
def insertField (a b c : Word) : Word :=
  let m : Word := BitVec.ofNat 64 ((2 ^ fieldLen c - 1) * 2 ^ fieldPos c)
  (a &&& ~~~m) ||| ((b <<< fieldPos c) &&& m)

/-- The low six bits of a shift count (R99). -/
def shiftCount (b : Word) : Nat := b.toNat % 64

/-- NOP (R99) writes nothing. -/
def execNop (s : State) : Out := s.done s.self

/-! Three-register operations (R99), with the values of the opcode's row. -/

def execAdd (rd ra rb : Reg) (s : State) : Out :=
  s.result rd (s.reg ra + s.reg rb) 1
def execSub (rd ra rb : Reg) (s : State) : Out :=
  s.result rd (s.reg ra - s.reg rb) 1
def execAnd (rd ra rb : Reg) (s : State) : Out :=
  s.result rd (s.reg ra &&& s.reg rb) 1
def execOr (rd ra rb : Reg) (s : State) : Out :=
  s.result rd (s.reg ra ||| s.reg rb) 1
def execXor (rd ra rb : Reg) (s : State) : Out :=
  s.result rd (s.reg ra ^^^ s.reg rb) 1
def execShl (rd ra rb : Reg) (s : State) : Out :=
  s.result rd (s.reg ra <<< shiftCount (s.reg rb)) 1
def execShr (rd ra rb : Reg) (s : State) : Out :=
  s.result rd (s.reg ra >>> shiftCount (s.reg rb)) 1
def execSar (rd ra rb : Reg) (s : State) : Out :=
  s.result rd ((s.reg ra).sshiftRight (shiftCount (s.reg rb))) 1
def execMul (rd ra rb : Reg) (s : State) : Out :=
  s.longResult rd (s.reg ra * s.reg rb) 3
def execMulh (rd ra rb : Reg) (s : State) : Out :=
  s.longResult rd (mulHighS (s.reg ra) (s.reg rb)) 3
def execMulhu (rd ra rb : Reg) (s : State) : Out :=
  s.longResult rd (mulHighU (s.reg ra) (s.reg rb)) 3
def execDiv (rd ra rb : Reg) (s : State) : Out :=
  s.longResult rd (quotS (s.reg ra) (s.reg rb)) 12
def execDivu (rd ra rb : Reg) (s : State) : Out :=
  s.longResult rd (quotU (s.reg ra) (s.reg rb)) 12
def execRem (rd ra rb : Reg) (s : State) : Out :=
  s.longResult rd (remS (s.reg ra) (s.reg rb)) 12
def execRemu (rd ra rb : Reg) (s : State) : Out :=
  s.longResult rd (remU (s.reg ra) (s.reg rb)) 12
def execMin (rd ra rb : Reg) (s : State) : Out :=
  s.result rd (if (s.reg ra).slt (s.reg rb) then s.reg ra else s.reg rb) 1
def execMax (rd ra rb : Reg) (s : State) : Out :=
  s.result rd (if (s.reg ra).slt (s.reg rb) then s.reg rb else s.reg ra) 1
def execMinu (rd ra rb : Reg) (s : State) : Out :=
  s.result rd (if (s.reg ra).ult (s.reg rb) then s.reg ra else s.reg rb) 1
def execMaxu (rd ra rb : Reg) (s : State) : Out :=
  s.result rd (if (s.reg ra).ult (s.reg rb) then s.reg rb else s.reg ra) 1
def execSlt (rd ra rb : Reg) (s : State) : Out :=
  s.result rd (flag ((s.reg ra).slt (s.reg rb))) 1
def execSltu (rd ra rb : Reg) (s : State) : Out :=
  s.result rd (flag ((s.reg ra).ult (s.reg rb))) 1
def execSeq (rd ra rb : Reg) (s : State) : Out :=
  s.result rd (flag (s.reg ra == s.reg rb)) 1
def execSel (rd ra rb rc : Reg) (s : State) : Out :=
  s.result rd (if s.reg rc ≠ 0 then s.reg ra else s.reg rb) 1

/-! Immediate operations (R101, R102). -/

def execAddi (rd ra : Reg) (imm : Word) (s : State) : Out :=
  s.result rd (s.reg ra + imm) 1
def execAndi (rd ra : Reg) (imm : Word) (s : State) : Out :=
  s.result rd (s.reg ra &&& imm) 1
def execOri (rd ra : Reg) (imm : Word) (s : State) : Out :=
  s.result rd (s.reg ra ||| imm) 1
def execXori (rd ra : Reg) (imm : Word) (s : State) : Out :=
  s.result rd (s.reg ra ^^^ imm) 1
def execShli (rd ra : Reg) (n : BitVec 6) (s : State) : Out :=
  s.result rd (s.reg ra <<< n.toNat) 1
def execShri (rd ra : Reg) (n : BitVec 6) (s : State) : Out :=
  s.result rd (s.reg ra >>> n.toNat) 1
def execSari (rd ra : Reg) (n : BitVec 6) (s : State) : Out :=
  s.result rd ((s.reg ra).sshiftRight n.toNat) 1
def execSlti (rd ra : Reg) (imm : Word) (s : State) : Out :=
  s.result rd (flag ((s.reg ra).slt imm)) 1
def execSltui (rd ra : Reg) (imm : Word) (s : State) : Out :=
  s.result rd (flag ((s.reg ra).ult imm)) 1
def execLi (rd : Reg) (imm : Word) (s : State) : Out :=
  s.result rd imm 1

/-! Bit operations (R103 to R105). -/

def execClz (rd ra : Reg) (s : State) : Out :=
  s.result rd (BitVec.ofNat 64 (leadingZeros (s.reg ra).toNat 64)) 1
def execCtz (rd ra : Reg) (s : State) : Out :=
  s.result rd (BitVec.ofNat 64 (trailingZeros (s.reg ra).toNat 0 64)) 1
def execPopc (rd ra : Reg) (s : State) : Out :=
  s.result rd (BitVec.ofNat 64 (oneBits (s.reg ra).toNat 64)) 1
def execBrev (rd ra : Reg) (s : State) : Out :=
  s.result rd (BitVec.ofNat 64 (reverseBits (s.reg ra).toNat 64)) 1
def execBext (sx : Bool) (rd ra rb : Reg) (s : State) : Out :=
  s.result rd (extractField sx (s.reg ra) (s.reg rb)) 1
def execBins (rd ra rb rc : Reg) (s : State) : Out :=
  s.result rd (insertField (s.reg ra) (s.reg rb) (s.reg rc)) 1

end Sys2Proof.Machine
end

