-- ==== Sys2Proof/Machine/Dispatch.lean ====
section
/-! DEFINITION. What each instruction does: one arm per constructor, each one call of its meaning. -/

namespace Sys2Proof.Machine

def exec (i : Instr) (s : State) : Host.Outcome State Fault Refusal :=
  match i with
  | .nop => Sys2Proof.Machine.execNop s
  | .add rd ra rb => Sys2Proof.Machine.execAdd rd ra rb s
  | .sub rd ra rb => Sys2Proof.Machine.execSub rd ra rb s
  | .and rd ra rb => Sys2Proof.Machine.execAnd rd ra rb s
  | .or rd ra rb => Sys2Proof.Machine.execOr rd ra rb s
  | .xor rd ra rb => Sys2Proof.Machine.execXor rd ra rb s
  | .shl rd ra rb => Sys2Proof.Machine.execShl rd ra rb s
  | .shr rd ra rb => Sys2Proof.Machine.execShr rd ra rb s
  | .sar rd ra rb => Sys2Proof.Machine.execSar rd ra rb s
  | .mul rd ra rb => Sys2Proof.Machine.execMul rd ra rb s
  | .mulh rd ra rb => Sys2Proof.Machine.execMulh rd ra rb s
  | .mulhu rd ra rb => Sys2Proof.Machine.execMulhu rd ra rb s
  | .div rd ra rb => Sys2Proof.Machine.execDiv rd ra rb s
  | .divu rd ra rb => Sys2Proof.Machine.execDivu rd ra rb s
  | .rem rd ra rb => Sys2Proof.Machine.execRem rd ra rb s
  | .remu rd ra rb => Sys2Proof.Machine.execRemu rd ra rb s
  | .min rd ra rb => Sys2Proof.Machine.execMin rd ra rb s
  | .max rd ra rb => Sys2Proof.Machine.execMax rd ra rb s
  | .minu rd ra rb => Sys2Proof.Machine.execMinu rd ra rb s
  | .maxu rd ra rb => Sys2Proof.Machine.execMaxu rd ra rb s
  | .slt rd ra rb => Sys2Proof.Machine.execSlt rd ra rb s
  | .sltu rd ra rb => Sys2Proof.Machine.execSltu rd ra rb s
  | .seq rd ra rb => Sys2Proof.Machine.execSeq rd ra rb s
  | .sel rd ra rb rc => Sys2Proof.Machine.execSel rd ra rb rc s
  | .addi rd ra imm => Sys2Proof.Machine.execAddi rd ra imm s
  | .andi rd ra imm => Sys2Proof.Machine.execAndi rd ra imm s
  | .ori rd ra imm => Sys2Proof.Machine.execOri rd ra imm s
  | .xori rd ra imm => Sys2Proof.Machine.execXori rd ra imm s
  | .shli rd ra n => Sys2Proof.Machine.execShli rd ra n s
  | .shri rd ra n => Sys2Proof.Machine.execShri rd ra n s
  | .sari rd ra n => Sys2Proof.Machine.execSari rd ra n s
  | .slti rd ra imm => Sys2Proof.Machine.execSlti rd ra imm s
  | .sltui rd ra imm => Sys2Proof.Machine.execSltui rd ra imm s
  | .li rd imm => Sys2Proof.Machine.execLi rd imm s
  | .clz rd ra => Sys2Proof.Machine.execClz rd ra s
  | .ctz rd ra => Sys2Proof.Machine.execCtz rd ra s
  | .popc rd ra => Sys2Proof.Machine.execPopc rd ra s
  | .brev rd ra => Sys2Proof.Machine.execBrev rd ra s
  | .bext sx rd ra rb => Sys2Proof.Machine.execBext sx rd ra rb s
  | .bins rd ra rb rc => Sys2Proof.Machine.execBins rd ra rb rc s
  | .j disp => Sys2Proof.Machine.execJ disp s
  | .jal rd disp => Sys2Proof.Machine.execJal rd disp s
  | .jr ra disp => Sys2Proof.Machine.execJr ra disp s
  | .beq ra rb disp => Sys2Proof.Machine.execBeq ra rb disp s
  | .bne ra rb disp => Sys2Proof.Machine.execBne ra rb disp s
  | .blt ra rb disp => Sys2Proof.Machine.execBlt ra rb disp s
  | .bge ra rb disp => Sys2Proof.Machine.execBge ra rb disp s
  | .bltu ra rb disp => Sys2Proof.Machine.execBltu ra rb disp s
  | .bgeu ra rb disp => Sys2Proof.Machine.execBgeu ra rb disp s
  | .loop ra disp => Sys2Proof.Machine.execLoop ra disp s
  | .loopi n disp => Sys2Proof.Machine.execLoopi n disp s
  | .lbrk => Sys2Proof.Machine.execLbrk s
  | .ld sp sz zx rd base off => Sys2Proof.Machine.execLd sp sz zx rd base off s
  | .st sp sz rs base off => Sys2Proof.Machine.execSt sp sz rs base off s
  | .push rs => Sys2Proof.Machine.execPush rs s
  | .pop ln => Sys2Proof.Machine.execPop ln s
  | .gld sp sz zx acq ln base off g => Sys2Proof.Machine.execGld sp sz zx acq ln base off g s
  | .gst sp sz rel ln rs base off g => Sys2Proof.Machine.execGst sp sz rel ln rs base off g s
  | .gldi sp sz zx ln base off g => Sys2Proof.Machine.execGldi sp sz zx ln base off g s
  | .mvl rd ln => Sys2Proof.Machine.execMvl rd ln s
  | .tstl rd ln => Sys2Proof.Machine.execTstl rd ln s
  | .amo sp op w64 ord ln rd base off g => Sys2Proof.Machine.execAmo sp op w64 ord ln rd base off g s
  | .cas sp w64 ord ln rd base off g => Sys2Proof.Machine.execCas sp w64 ord ln rd base off g s
  | .fence form scope mask => Sys2Proof.Machine.execFence form scope mask s
  | .sbar scope mask => Sys2Proof.Machine.execSbar scope mask s
  | .hld sp h ln base off g => Sys2Proof.Machine.execHld sp h ln base off g s
  | .hst sp h ln base off g => Sys2Proof.Machine.execHst sp h ln base off g s
  | .hset rd ra rb => Sys2Proof.Machine.execHset rd ra rb s
  | .hget rd ra => Sys2Proof.Machine.execHget rd ra s
  | .mdld sp m ln base off g => Sys2Proof.Machine.execMdld sp m ln base off g s
  | .launch rd ra => Sys2Proof.Machine.execLaunch rd ra s
  | .msg ra rb rc => Sys2Proof.Machine.execMsg ra rb rc s
  | .msgDelivery id => Sys2Proof.Machine.execMsgDelivery id s
  | .blk clr m id ewin twin ii f => Sys2Proof.Machine.execBlk clr m id ewin twin ii f s
  | .fuse m id cols rows fcw => Sys2Proof.Machine.execFuse m id cols rows fcw s
  | .fuseLive m id em tm idx => Sys2Proof.Machine.execFuseLive m id em tm idx s
  | .route part m id cols rows v => Sys2Proof.Machine.execRoute part m id cols rows v s
  | .bind m id b => Sys2Proof.Machine.execBind m id b s
  | .nest m id n => Sys2Proof.Machine.execNest m id n s
  | .bodyRowWord w => Sys2Proof.Machine.execBodyRowWord w s
  | .bend m id crc => Sys2Proof.Machine.execBend m id crc s
  | .bstamp m id n base step ostep => Sys2Proof.Machine.execBstamp m id n base step ostep s
  | .bgo m id off => Sys2Proof.Machine.execBgo m id off s
  | .bdrain m => Sys2Proof.Machine.execBdrain m s
  | .brel m => Sys2Proof.Machine.execBrel m s
  | .gtab addr => Sys2Proof.Machine.execGtab addr s
  | .vtab i16 addr => Sys2Proof.Machine.execVtab i16 addr s
  | .trd m k desc => Sys2Proof.Machine.execTrd m k desc s
  | .tdisc m tm => Sys2Proof.Machine.execTdisc m tm s
  | .iadd d a b iv => Sys2Proof.Machine.execIadd d a b iv s
  | .isub d a b iv => Sys2Proof.Machine.execIsub d a b iv s
  | .imul d a b iv => Sys2Proof.Machine.execImul d a b iv s
  | .imac d a b c iv => Sys2Proof.Machine.execImac d a b c iv s
  | .iand d a b iv => Sys2Proof.Machine.execIand d a b iv s
  | .ior d a b iv => Sys2Proof.Machine.execIor d a b iv s
  | .ixor d a b iv => Sys2Proof.Machine.execIxor d a b iv s
  | .ishl d a b iv => Sys2Proof.Machine.execIshl d a b iv s
  | .ishr d a b iv => Sys2Proof.Machine.execIshr d a b iv s
  | .isar d a b iv => Sys2Proof.Machine.execIsar d a b iv s
  | .imin u d a b iv => Sys2Proof.Machine.execImin u d a b iv s
  | .imax u d a b iv => Sys2Proof.Machine.execImax u d a b iv s
  | .icmp c d a b iv => Sys2Proof.Machine.execIcmp c d a b iv s
  | .isel d a b c iv => Sys2Proof.Machine.execIsel d a b c iv s
  | .iabs d a iv => Sys2Proof.Machine.execIabs d a iv s
  | .iclz d a iv => Sys2Proof.Machine.execIclz d a iv s
  | .fadd f rm d a b => Sys2Proof.Machine.execFadd f rm d a b s
  | .fsub f rm d a b => Sys2Proof.Machine.execFsub f rm d a b s
  | .fmul f rm d a b => Sys2Proof.Machine.execFmul f rm d a b s
  | .ffma f rm d a b c => Sys2Proof.Machine.execFfma f rm d a b c s
  | .fmin f d a b => Sys2Proof.Machine.execFmin f d a b s
  | .fmax f d a b => Sys2Proof.Machine.execFmax f d a b s
  | .fcmp f c d a b => Sys2Proof.Machine.execFcmp f c d a b s
  | .fabs f d a => Sys2Proof.Machine.execFabs f d a s
  | .frint f rm d a => Sys2Proof.Machine.execFrint f rm d a s
  | .fexpf d a => Sys2Proof.Machine.execFexpf d a s
  | .fexpins rm d a b => Sys2Proof.Machine.execFexpins rm d a b s
  | .frcp f rm d a => Sys2Proof.Machine.execFrcp f rm d a s
  | .frsq f rm d a => Sys2Proof.Machine.execFrsq f rm d a s
  | .fcvt rm sf df d a => Sys2Proof.Machine.execFcvt rm sf df d a s
  | .fclass f d a => Sys2Proof.Machine.execFclass f d a s
  | .fdot2 bf rm d a b c => Sys2Proof.Machine.execFdot2 bf rm d a b c s
  | .mov w delay d a iv => Sys2Proof.Machine.execMov w delay d a iv s
  | .nld w adv b d off iv => Sys2Proof.Machine.execNld w adv b d off iv s
  | .nst w adv b val off iv => Sys2Proof.Machine.execNst w adv b val off iv s
  | .send w adv q u a => Sys2Proof.Machine.execSend w adv q u a s
  | .recv w adv q u d => Sys2Proof.Machine.execRecv w adv q u d s
  | .hdr d a b iv => Sys2Proof.Machine.execHdr d a b iv s
  | .iter d sel => Sys2Proof.Machine.execIter d sel s
  | .tstep tfa tfb t bA bB bSA bSB re rep1 z => Sys2Proof.Machine.execTstep tfa tfb t bA bB bSA bSB re rep1 z s
  | .tstepStepRead id => Sys2Proof.Machine.execTstepStepRead id s
  | .tstepContribution id r x y => Sys2Proof.Machine.execTstepContribution id r x y s
  | .macf wr d a b => Sys2Proof.Machine.execMacf wr d a b s
  | .dmac wr d a b => Sys2Proof.Machine.execDmac wr d a b s
  | .spmx tfa tfb t bA bB mf nm1 mc nc rep1 z => Sys2Proof.Machine.execSpmx tfa tfb t bA bB mf nm1 mc nc rep1 z s
  | .rq uns rna sh wd d x m bias => Sys2Proof.Machine.execRq uns rna sh wd d x m bias s
  | .bq fin fout bD bS a => Sys2Proof.Machine.execBq fin fout bD bS a s
  | .bqBlockWrite pan row => Sys2Proof.Machine.execBqBlockWrite pan row s
  | .tacc t a k => Sys2Proof.Machine.execTacc t a k s
  | .trdl form d t => Sys2Proof.Machine.execTrdl form d t s
  | .rank bI g kf c1 out => Sys2Proof.Machine.execRank bI g kf c1 out s
  | .rankPacketWrite pan => Sys2Proof.Machine.execRankPacketWrite pan s
  | .racc n z adv b t w src => Sys2Proof.Machine.execRacc n z adv b t w src s
  | .rval adv d a src => Sys2Proof.Machine.execRval adv d a src s
  | .rnop => Sys2Proof.Machine.execRnop s
  | .setq form a => Sys2Proof.Machine.execSetq form a s
  | .elementResultLanding elem => Sys2Proof.Machine.execElementResultLanding elem s
  | .portDelayExit elem => Sys2Proof.Machine.execPortDelayExit elem s
  | .edgeFeed elem p => Sys2Proof.Machine.execEdgeFeed elem p s
  | .tcopy h sv d => Sys2Proof.Machine.execTcopy h sv d s
  | .tcopyc h sv d rm xr => Sys2Proof.Machine.execTcopyc h sv d rm xr s
  | .tfill h d rv => Sys2Proof.Machine.execTfill h d rv s
  | .sgath h tsp rsp ir isp => Sys2Proof.Machine.execSgath h tsp rsp ir isp s
  | .sscat h tsp rsp ir isp => Sys2Proof.Machine.execSscat h tsp rsp ir isp s
  | .sscata h tsp rsp ir isp => Sys2Proof.Machine.execSscata h tsp rsp ir isp s
  | .sisect h emit asp bsp ro osp => Sys2Proof.Machine.execSisect h emit asp bsp ro osp s
  | .prune h asp bsp mr msp mc nc => Sys2Proof.Machine.execPrune h asp bsp mr msp mc nc s
  | .chain h start desc m y n1 tau1 => Sys2Proof.Machine.execChain h start desc m y n1 tau1 s
  | .chainToken id k => Sys2Proof.Machine.execChainToken id k s
  | .cplarm rel clr rc ra => Sys2Proof.Machine.execCplarm rel clr rc ra s
  | .cplwait rel rc => Sys2Proof.Machine.execCplwait rel rc s
  | .cplwaitEnd ctx => Sys2Proof.Machine.execCplwaitEnd ctx s
  | .cpltest rel ln rc => Sys2Proof.Machine.execCpltest rel ln rc s
  | .barinit rel rc ra => Sys2Proof.Machine.execBarinit rel rc ra s
  | .bararr rel ln rc => Sys2Proof.Machine.execBararr rel ln rc s
  | .barwait rel rc ra => Sys2Proof.Machine.execBarwait rel rc ra s
  | .barwaitEnd ctx => Sys2Proof.Machine.execBarwaitEnd ctx s
  | .cplsig rel rc ra => Sys2Proof.Machine.execCplsig rel rc ra s
  | .coll h kind op asp bsp gr => Sys2Proof.Machine.execColl h kind op asp bsp gr s
  | .collHeaderMatch id headers peer data => Sys2Proof.Machine.execCollHeaderMatch id headers peer data s
  | .rput rel rc rr fld ar asp lr type => Sys2Proof.Machine.execRput rel rc rr fld ar asp lr type s
  | .rget rel rc rr fld ar asp lr => Sys2Proof.Machine.execRget rel rc rr fld ar asp lr s
  | .rpeek rel rc rr fld ar asp lr => Sys2Proof.Machine.execRpeek rel rc rr fld ar asp lr s
  | .evict rel rc br fld mr res nr => Sys2Proof.Machine.execEvict rel rc br fld mr res nr s
  | .pref rel rc br fld mr res nr => Sys2Proof.Machine.execPref rel rc br fld mr res nr s
  | .queueEntryFree pan => Sys2Proof.Machine.execQueueEntryFree pan s
  | .engineAccept id => Sys2Proof.Machine.execEngineAccept id s
  | .engineBindingSlotReady id => Sys2Proof.Machine.execEngineBindingSlotReady id s
  | .engineWritePerformed id units => Sys2Proof.Machine.execEngineWritePerformed id units s
  | .engineComplete id => Sys2Proof.Machine.execEngineComplete id s
  | .trap imm => Sys2Proof.Machine.execTrap imm s
  | .brk imm => Sys2Proof.Machine.execBrk imm s
  | .rft => Sys2Proof.Machine.execRft s
  | .replayLanding ctx => Sys2Proof.Machine.execReplayLanding ctx s
  | .resultLanding ctx => Sys2Proof.Machine.execResultLanding ctx s
  | .landingArrival id remote => Sys2Proof.Machine.execLandingArrival id remote s
  | .sysr rd n => Sys2Proof.Machine.execSysr rd n s
  | .sysw n ra => Sys2Proof.Machine.execSysw n ra s
  | .halt => Sys2Proof.Machine.execHalt s
  | .haltResume ctx resume => Sys2Proof.Machine.execHaltResume ctx resume s
  | .waite rd ra mask => Sys2Proof.Machine.execWaite rd ra mask s
  | .waiteEnd ctx => Sys2Proof.Machine.execWaiteEnd ctx s
  | .dictld ra off => Sys2Proof.Machine.execDictld ra off s
  | .tider rd => Sys2Proof.Machine.execTider rd s
  | .tiderRaw rd => Sys2Proof.Machine.execTiderRaw rd s
  | .tidew rd m => Sys2Proof.Machine.execTidew rd m s
  | .domainStall dom => Sys2Proof.Machine.execDomainStall dom s
  | .markRelease dom => Sys2Proof.Machine.execMarkRelease dom s
  | .phase n => Sys2Proof.Machine.execPhase n s
  | .yield rd => Sys2Proof.Machine.execYield rd s
  | .exit ra => Sys2Proof.Machine.execExit ra s
  | .ckpt tag => Sys2Proof.Machine.execCkpt tag s
  | .flushi => Sys2Proof.Machine.execFlushi s
  | .ecall rd ra svc => Sys2Proof.Machine.execEcall rd ra svc s
  | .ecallAnswer ctx v => Sys2Proof.Machine.execEcallAnswer ctx v s
  | .bindRecordWrite pan idx r => Sys2Proof.Machine.execBindRecordWrite pan idx r s
  | .dispatchTake pan idx => Sys2Proof.Machine.execDispatchTake pan idx s
  | .contextStart ctx => Sys2Proof.Machine.execContextStart ctx s
  | .lateStart pan idx => Sys2Proof.Machine.execLateStart pan idx s
  | .nextInstanceLoad pan idx => Sys2Proof.Machine.execNextInstanceLoad pan idx s
  | .translatorBuild task die extp => Sys2Proof.Machine.execTranslatorBuild task die extp s
  | .haltRequest ctx tauH => Sys2Proof.Machine.execHaltRequest ctx tauH s
  | .haltPoint ctx => Sys2Proof.Machine.execHaltPoint ctx s
  | .haltComplete ctx => Sys2Proof.Machine.execHaltComplete ctx s
  | .save task inst addr => Sys2Proof.Machine.execSave task inst addr s
  | .swap task inst addr pan idx => Sys2Proof.Machine.execSwap task inst addr pan idx s
  | .resumption pan idx => Sys2Proof.Machine.execResumption pan idx s
  | .softRequest task inst => Sys2Proof.Machine.execSoftRequest task inst s
  | .graceExpiry task inst => Sys2Proof.Machine.execGraceExpiry task inst s
  | .killExpiry ctx => Sys2Proof.Machine.execKillExpiry ctx s
  | .thermalEmergency => Sys2Proof.Machine.execThermalEmergency s
  | .hardTrip => Sys2Proof.Machine.execHardTrip s
  | .uncorrectableError sv injected => Sys2Proof.Machine.execUncorrectableError sv injected s
  | .correctableError x wrong injected => Sys2Proof.Machine.execCorrectableError x wrong injected s
  | .tenantChangeWipe field => Sys2Proof.Machine.execTenantChangeWipe field s
  | .scrubLine stack => Sys2Proof.Machine.execScrubLine stack s
  | .patrolScrub addr => Sys2Proof.Machine.execPatrolScrub addr s
  | .dlogRoundEnd pid => Sys2Proof.Machine.execDlogRoundEnd pid s
  | .einjWrite array v => Sys2Proof.Machine.execEinjWrite array v s
  | .errorLogClear array entry => Sys2Proof.Machine.execErrorLogClear array entry s
  | .pwrdomWrite dom v => Sys2Proof.Machine.execPwrdomWrite dom v s
  | .registerWrite r v => Sys2Proof.Machine.execRegisterWrite r v s
  | .lifeCycleChange lc auth => Sys2Proof.Machine.execLifeCycleChange lc auth s
  | .replicaCommit id => Sys2Proof.Machine.execReplicaCommit id s
  | .replicaUnlock id die => Sys2Proof.Machine.execReplicaUnlock id die s
  | .mergeGroupSend ids => Sys2Proof.Machine.execMergeGroupSend ids s
  | .orderedFadd id => Sys2Proof.Machine.execOrderedFadd id s
  | .tideSample src dst => Sys2Proof.Machine.execTideSample src dst s
  | .sluiceSlotArrival id => Sys2Proof.Machine.execSluiceSlotArrival id s
  | .stageMove mdie q => Sys2Proof.Machine.execStageMove mdie q s
  | .sluicePositionFree id => Sys2Proof.Machine.execSluicePositionFree id s
  | .flitReceive link f => Sys2Proof.Machine.execFlitReceive link f s
  | .flitReplay link ack => Sys2Proof.Machine.execFlitReplay link ack s
  | .remoteRequest tenant src addr n rep op => Sys2Proof.Machine.execRemoteRequest tenant src addr n rep op s
  | .linkTimeout link => Sys2Proof.Machine.execLinkTimeout link s
  | .imgld seq pid va body => Sys2Proof.Machine.execImgld seq pid va body s
  | .start seq pid va => Sys2Proof.Machine.execStart seq pid va s
  | .cap cseq lease capw => Sys2Proof.Machine.execCap cseq lease capw s
  | .leaseExpiry => Sys2Proof.Machine.execLeaseExpiry s
  | .attreq seq nonce => Sys2Proof.Machine.execAttreq seq nonce s
  | .debug seq body => Sys2Proof.Machine.execDebug seq body s
  | .fllStep dom => Sys2Proof.Machine.execFllStep dom s
  | .voltageMoveEnd dom => Sys2Proof.Machine.execVoltageMoveEnd dom s
  | .powerWindow load share => Sys2Proof.Machine.execPowerWindow load share s
  | .byteBudgetWindow => Sys2Proof.Machine.execByteBudgetWindow s
  | .powerOnReset boot => Sys2Proof.Machine.execPowerOnReset boot s
  | .linkRetrain die lat => Sys2Proof.Machine.execLinkRetrain die lat s
  | .instanceEnd task inst => Sys2Proof.Machine.execInstanceEnd task inst s
  | .managementCoreAccess addr n data => Sys2Proof.Machine.execManagementCoreAccess addr n data s
  | .remapTableChange die field pan => Sys2Proof.Machine.execRemapTableChange die field pan s
  | .endpointDirectoryUpdate tenant gid rank dev => Sys2Proof.Machine.execEndpointDirectoryUpdate tenant gid rank dev s
  | .dictldComplete ctx => Sys2Proof.Machine.execDictldComplete ctx s
  | .flushiComplete ctx => Sys2Proof.Machine.execFlushiComplete ctx s

end Sys2Proof.Machine
end

