-- ==== Sys2Proof/Machine/Cycle.lean ====
section
/-! DEFINITION. One fabric cycle, in the parts that a step takes one at a time (log 1): the events that are due, the start of the
cycle, one context cycle of each context that issues, and its end with the rows and the tide (R14, R154 to R158, R178, R342, R437). -/

namespace Sys2Proof.Machine

/-! ### Fetching (R40 to R42, R56 to R60) -/

/-- What stands at the pc of a context: an instruction, or the fault of its fetch as cause and TVAL. -/
inductive Fetched where
  | instr (i : Instr)
  | fault (cause tval : Nat)
  deriving DecidableEq, Repr

/-- The fetch at the pc (R42, R56, R58, R60). -/
def Ctx.fetch (x : Ctx) : Fetched :=
  let a := x.pc.toNat
  match x.startAtPc a with
  | none => .fault ((x.badTarget a).getD 0x09) a
  | some e =>
    match e.cell with
    | .fill => .fault 0x02 a
    | .word w => match decodeWord w with | .ok i => .instr i | .error _ => .fault 0x01 (wordTval w)

/-- The bits of an expanded word at the pc. -/
def Ctx.wordBits (x : Ctx) : Nat :=
  match x.startAtPc x.pc.toNat with
  | some e => (match e.cell with | .word w => w.toNat | .fill => 0)
  | none => 0

/-- What the context that issues does with what it has fetched: a word that its body or its absence forbids is refused (R207, R208). -/
def State.issueFetched (s : State) : Out :=
  match s.self.fetch with
  | .fault cause tval => s.trap cause tval
  | .instr i => if s.misplaced i then .next (s.placeFault (s.self.wordBits / 2 ^ 32)) else exec i s

/-- A fault that loading has met comes before the first instruction (R58, R497). -/
def State.takeLoadFault (s : State) (cause : Nat) (tval : Word) : State :=
  (s.setSelf { s.self with loadFault := none }).enterTrap s.cur cause tval.toNat s.self.pc.toNat

/-- A block fault, or one of landed data, comes before the instruction that is due, in its context cycle (R178, R390, R392). An ECALL that
waits then is left unissued, and its request is sent again after RFT, the model's choice (DESIGN CHOICE, log 72). -/
def State.takeBlockFault (s : State) (f : BlockFault) : State :=
  (s.setSelf { s.self with bfault := none }).enterTrap s.cur f.cause f.tval s.self.faultPc

/-- One context cycle of a context (R14): what waits to be taken, the bubble of a taken branch (R23, R106), or its instruction. The
rows of the cycle sample MODEFP as it stands before it (R196). The bubble passes before a block fault is taken, the model's choice
(DESIGN CHOICE, log 75). -/
def State.contextCycle (s : State) (c : Nat) : Out :=
  let s := { s with cur := c }
  let s := s.setSelf { s.self with rowMode := s.self.modefp, rowAt := some s.cycle }
  let x := s.self
  if x.run = .stop then .next (s.setSelf (x.endCycle .other))
  else if x.run ≠ .running then .next s
  else match x.loadFault with
    | some (cause, tval) => .next (s.takeLoadFault cause tval)
    | none =>
      if x.bubble then .next (s.setSelf ({ x with bubble := false }.endCycle .other))
      else match x.bfault with
        | some f => .next (s.takeBlockFault f)
        | none => s.issueFetched

/-! ### The start of a cycle (R155, R158, R162, R437) -/

/-- The keys whose kernel cycle count goes on: masks of running blocks, of results in flight that a flip or the end of a stamped copy
has left, of owed writes and of chains, unless a block or a chain of the mask is stopped (R155, R172, R178, R267). -/
def State.clockKeys (s : State) : List Nat :=
  let runs := Kv.keysWhere (fun _ r => r.live && !r.stopped) s.runs
  let owed := s.writes.map fun w => blkKey w.pan w.mask
  let late := s.elems.flatMap fun e => (e.2.flight.map fun f => blkKey (e.1 / 256) f.mask) ++ e.2.contrib.map fun k => blkKey (e.1 / 256) k.mask
  let chains := (s.cmds.filter fun k => isChain k.instr && (k.st == .issued || k.st == .running)).map fun k =>
    blkKey k.pan (chainWord k.instr).mask
  let held := fun (key : Nat) => (Kv.get {} s.runs key).stopped
    || s.cmds.any fun k => isChain k.instr && k.st == .stopped && blkKey k.pan (chainWord k.instr).mask == key
  ((runs ++ owed ++ late ++ chains).dedup).filter fun key => !held key && s.inSlot (keyPan key) (keyMask key)

/-- The contexts with a context cycle now, in ascending order (R14, R437). -/
def State.dueCtxs (s : State) : List Nat :=
  Kv.keysWhere (fun c x => (x.run == .running || x.run == .stop) && s.inSlot (panOf c) x.slots) s.ctxs

/-- What becomes visible in this cycle (R342): the owed writes that are due, then the stores of the last cycle. Every reader of the
cycle finds it, also one of a kernel cycle that a block fault then strikes, since the steps that issued these writes came before it
(DEDUCED, log 39). -/
def State.settleNode (s : State) : State :=
  let t := s.makeWrites fun _ => true
  { t.stores.foldl (fun t e => (t.writeBytes e.2.1 e.2.2).inject (t.ownerCid (panOf e.1)) e.2.1 e.2.2.length) t with stores := [] }

/-- The cycle begins: kernel cycles count, writes to node and field space become visible, results land, values leave delay lines, and the
contexts that issue are known. -/
def State.beginCycle (s : State) : State :=
  let s1 := s.clockKeys.foldl (fun t k => { t with kcnt := Kv.set 0 t.kcnt k (Kv.get 0 t.kcnt k + 1) }) { s with clocked := s.clockKeys }
  let s1 := ({ s1 with begun := true } : State).settleNode
  let s2 := (s1.elems.map (·.1)).foldl State.landElem s1
  let s3 := (s2.elems.map (·.1)).foldl State.exitElem s2
  { s3 with turn := s3.dueCtxs }

/-! ### Rows, static engines and chains (R157, R176 to R179, R219, R222, R267) -/

/-- Keys of a context's blocks for which this cycle is a kernel cycle. -/
def State.countedOf (s : State) (c : Nat) : List Nat := Kv.keysWhere (fun k r => r.live && r.ctx == c && s.counted k) s.runs

/-- What a row leaves. -/
def State.after (s : State) (o : Out) : State := match o with | .next t => t | _ => s

/-- One element issues its row. -/
def State.issueRow (c key j iter w : Nat) (b : Block) (r : BlkRun) (s : State) (e : Nat) : State :=
  let ent := ((b.elemCfg e).row j).ent
  match rowOf ent with
  | .rnop => s
  | i =>
    let site : Site := { pan := keyPan key, mask := keyMask key, row := j, elem := e, kc := Kv.get 0 s.kcnt key, window := w, iter := iter,
                         copy := r.copy, ctx := c, modefp := s.modeOf c, ent := ent }
    let t := { s with site := site }
    t.after (exec i t)

/-- The rows of one block in this kernel cycle. -/
def State.blockRows (c : Nat) (s : State) (key : Nat) : State :=
  let r := Kv.get {} s.runs key
  let b := Kv.get {} s.active key
  let k := Kv.get 0 s.kcnt key
  if k < r.start then s
  else match b.issues (k - r.start) with
    | none => s
    | some (j, iter, w) => (b.elems.map (·.1)).foldl (State.issueRow c key j iter w b r) s

/-- Whether a block issues a row other than RNOP in some element now (R296). -/
def State.rowsNow (s : State) (key : Nat) : Bool :=
  let r := Kv.get {} s.runs key
  let b := Kv.get {} s.active key
  let k := Kv.get 0 s.kcnt key
  decide (r.start ≤ k) && (match b.issues (k - r.start) with
    | none => false
    | some (j, _, _) => (b.elems.map (·.1)).any fun e => b.rowAt e j != .rnop)

/-- The edge feeds of a block: ascending elements, and the ports n, e, s, w of each (R219). -/
def State.blockFeeds (s : State) (key : Nat) : State :=
  ((Kv.get {} s.active key).elems.map (·.1)).foldl (fun t e =>
    [Port.n, .e, .s, .w].foldl (fun t p => State.feedPort e p t key) t) s

/-- The later steps of the tiles of a context that read in this kernel cycle (R253). -/
def State.tileSteps (s : State) (c : Nat) : State :=
  (s.tiles.filter fun t => t.ctx == c && t.r != 0 && s.counted (blkKey t.pan t.mask) && s.tileDue t).foldl State.tileRead s

/-- The chain tokens of a context that enter a stage in this kernel cycle (R267). -/
def State.chainSteps (s : State) (c : Nat) : State :=
  (s.cmds.filter fun k => k.ctx == c && isChain k.instr && s.clocked.contains (blkKey k.pan (chainWord k.instr).mask)).foldl (fun t k =>
    ((k.toks.map (·.1)) ++ [k.p]).foldl (fun t n => t.after (execChainToken k.id n t)) t) s

/-- Everything that the blocks and chains of a context do in this kernel cycle; the faults that it meets are recorded. -/
def State.kernelCycle (s : State) (c : Nat) : State :=
  let keys := s.countedOf c
  let s := { s with bfaults := [], advs := [], site := { ctx := c } }
  let s := (keys.foldl State.blockFeeds s).tileSteps c
  let s := keys.foldl (State.blockRows c) (s.chainSteps c)
  let s := { s.advs.foldl State.advance { s with site := { ctx := c } } with advs := [] }
  let x := s.ctx c
  if x.occ != 0 && keys.any s.rowsNow then s.setCtx c { x with occRows := x.occRows + 1 }
  else s

/-- Contexts that have a kernel cycle of a block or a chain now, in ascending order. -/
def State.kernelCtxs (s : State) : List Nat :=
  let blocks := (Kv.keysWhere (fun k r => r.live && s.counted k) s.runs).map fun k => (Kv.get {} s.runs k).ctx
  let chains := (s.cmds.filter fun k => isChain k.instr && k.st == .running && s.clocked.contains (blkKey k.pan (chainWord k.instr).mask)).map (·.ctx)
  (List.range (8 * 96 * Config.dies)).filter fun c => (blocks ++ chains).contains c

/-- Whether one fault ranks before another (R179). -/
def ranksFirst : List Nat → List Nat → Bool
  | a :: r, b :: q => decide (a < b) || (a == b && ranksFirst r q)
  | _, _ => false
/-- The fault of a kernel cycle that is reported (R179). -/
def firstFault : List BlockFault → Option BlockFault
  | [] => none
  | f :: r => match firstFault r with
    | none => some f
    | some g => if ranksFirst g.rank f.rank then some g else some f

/-- The kernel cycle of a context has met faults (R178): it has not taken place, its blocks and chains stop, and the first fault waits to
be taken. It comes before a fault of landed data, which then strikes after RFT (R179). One of corrupt data is logged (R424). -/
def State.strike (s : State) (c : Nat) (fs : List BlockFault) : State :=
  let s := s.uncount (s.keysOf c)
  let s := ((s.runsOf c).foldl (State.stopRun false) s).stopChains c
  let s := match firstFault fs with
    | some f => (match f.pa with | some p => s.logPoison p (cidOf (BitVec.ofNat 8 (s.ctx c).pid)) | none => s)
    | none => s
  let x := s.ctx c
  match x.bfault with
  | none => s.setCtx c { x with bfault := firstFault fs }
  | some f =>
    if f.rank = [] then s.setCtx c { x with bfault := firstFault fs, struckLate := x.struckLate.orElse fun _ => some f.tval }
    else s

/-- The kernel cycle of every context. The rows and static-engine steps of one that meets a fault leave nothing behind. -/
def State.kernelPhase (s : State) : State :=
  let cs := s.kernelCtxs
  let struck := (cs.map fun c => (c, (s.kernelCycle c).bfaults)).filter fun e => !e.2.isEmpty
  let s := cs.foldl (fun s c =>
    if (struck.map (·.1)).contains c then s
    else
      let u := s.kernelCycle c
      if u.bfaults.isEmpty then u else s.strike c u.bfaults) s
  { struck.foldl (fun s e => s.strike e.1 e.2) s with bfaults := [] }

/-! ### The end of a cycle -/

/-- The keys of all tide domains: those of valid partitions, and those of fields that belong to none. -/
def State.allDomains (s : State) : List Nat :=
  (Kv.keysWhere (fun _ (p : Part) => p.v) s.parts ++ [127]).flatMap fun p => (List.range Config.dies).map fun d => domKey p d

/-- T of every domain advances, but for a stall cycle, which is counted (R437, R444). -/
def State.advanceTide (s : State) : State :=
  s.allDomains.foldl (fun t d =>
    let x := t.domain d
    t.setDomain d (if x.stallAt.isSome then { x with stallCyc := x.stallCyc + 1 } else { x with t := x.t + 1 })) s

/-! ### Events that are due (log 1) -/

/-- Steps that an access is due for: its landing, its delivery, or its commit and the unlocks after it. One that another device owns
sends its request and waits for the answer, unless a line buffer answers it or no link leads there (R320, R325, R468). -/
def State.accEvents (s : State) (a : Acc) : List Instr :=
  let die := dieOf (panOf a.ctx)
  if a.committed then a.locked.map fun d => .replicaUnlock a.id (BitVec.ofNat 3 d)
  else if !s.accReady a then []
  else if a.loc.dev ≠ s.ownDev.toNat then
    if (s.bufferOf a).isSome || !s.reaches die a.loc.dev || (!a.sent && s.linkReady die a.loc.dev) then [.landingArrival a.id none] else []
  else match a.kind with
    | .msg .. => [.msgDelivery a.id]
    | .amo .fadd _ _ _ true => [.orderedFadd a.id]
    | k => if a.loc.rep && k.stores then [.replicaCommit a.id] else [.landingArrival a.id none]

/-- What travels between dies and sluices and has arrived. -/
def State.transitEvents (s : State) : List Instr :=
  s.streams.flatMap fun e => (e.2.transit.filter fun t => decide (t.1 ≤ s.cycle)).map fun t =>
    match t.2.2 with
    | .toStage _ => .stageMove (e.1 / 16) (e.1 % 16)
    | .free _ => .sluicePositionFree t.2.1
    | _ => .sluiceSlotArrival t.2.1

/-- What the dispatcher of each pan has to do for a record. -/
def State.recordEvents (s : State) (key : Nat) (e : SlotRec) : List Instr :=
  let pan := key / 16
  let idx := BitVec.ofNat 4 (key % 16)
  if e.taken then
    (if (s.ctx (8 * pan + e.ctx.toNat)).run == .exited && !e.done then [.nextInstanceLoad pan idx] else [])
  else
    if !e.late && s.candidate pan e && decide (e.r.start.toNat ≤ (s.tide pan).toNat) then [.lateStart pan idx] else []

/-- The walk of the dispatcher of a pan over its candidates, in rank order (R287). -/
def State.takeEvents (s : State) (pan : Nat) : List Instr :=
  ((s.ranked pan).filter fun d => s.takeable pan d.1).map fun d =>
    if d.2.r.res then .resumption pan (BitVec.ofNat 4 d.1) else .dispatchTake pan (BitVec.ofNat 4 d.1)

/-- What an engine has to do for a command. -/
def cmdEvents (k : Cmd) : List Instr :=
  match k.st with
  | .issued => if hasEntry k.instr then [.engineAccept k.id] else [.engineComplete k.id]
  | .waiting => if isColl k.instr then [] else if isChain k.instr then [.engineComplete k.id] else [.engineBindingSlotReady k.id]
  | .running => (if isChain k.instr || isColl k.instr then [] else [.engineWritePerformed k.id 1]) ++ [.engineComplete k.id]
  | .stopped => []

/-- Events of the contexts: a start, a halt point, the end of a capture. -/
def State.ctxEvents (s : State) (c : Nat) (x : Ctx) : List Instr :=
  let now := s.cycle
  (if x.run == .loading && decide (x.readyAt ≤ now) then [.contextStart c] else [])
    ++ (if x.haltReq.isSome then [.haltPoint c] else [])
    ++ (if x.run == .halting && decide (x.readyAt ≤ now) || s.haltOwes c then [.haltComplete c] else [])

/-- Tide: marks, releases, and samples that leave or come, stalled or not (R437, R439, R444, R445). -/
def State.tideEvents (s : State) : List Instr :=
  let pairs := s.domains.flatMap fun e => if (s.part (e.1 / 8)).v then
    ((s.domains.filter fun d => d.1 / 8 == e.1 / 8 && d.1 != e.1).map fun d => (e.1, d.1)) else []
  let due := fun (p : Nat × Nat) => s.cycle % sampleEvery == 0
    || (Kv.get [] (s.domain p.2).samples p.1).any fun y => !y.came && decide (y.when + y.lat ≤ s.cycle)
  (s.domains.flatMap fun e =>
    (if e.2.stallAt.isSome then [.markRelease e.1] else if (s.pendingMarks e.1).isEmpty then [] else [.domainStall e.1, .markRelease e.1]))
    ++ (pairs.filter due).map fun p => .tideSample p.1 p.2

/-- Every event that may be due in this cycle, the inputs of the cycle first; each checks for itself whether it is. -/
def State.dueEvents (s : State) : List Instr :=
  let ins := (s.inputs.filter fun e => decide (e.1 ≤ s.cycle)).map (·.2)
  if s.poweredOff then ins
  else
    ins ++ s.transitEvents ++ s.tideEvents ++ (s.ctxs.flatMap fun e => s.ctxEvents e.1 e.2)
      ++ (s.slotTab.flatMap fun e => s.recordEvents e.1 e.2)
      ++ (((s.slotTab.map fun e => e.1 / 16).dedup).flatMap s.takeEvents) ++ (s.accs.flatMap s.accEvents) ++ (s.cmds.flatMap cmdEvents)
      ++ (((s.holders.filter fun h => !h.granted).map fun h => panOf h.ctx).dedup.map fun p => .queueEntryFree p)
      ++ (if s.thermal && !s.boundInsts.isEmpty then [.thermalEmergency] else [])

/-- The next fabric cycle, with its events and the targets that wait for no mark any more (R489). -/
def State.nextCycle (s : State) : State :=
  let s := { s.freeHolds with cycle := s.cycle + 1, begun := false, turn := [], clocked := [], stores := s.fresh, fresh := [] }
  { s with agenda := s.dueEvents, inputs := s.inputs.filter fun e => decide (s.cycle < e.1) }

/-- The end of a fabric cycle: rows and units, the slots that engine commands give over, resets that can end, the tide, and what leaves on
the Wolas port. -/
def State.endFabric (s : State) : State :=
  if s.poweredOff then s.nextCycle else s.kernelPhase.applySlotEnds.endResets.advanceTide.tellEvents.sendPort.nextCycle

/-- One part of a fabric cycle: an event, the start, one context cycle, or the end. -/
def State.advancePart (s : State) : Out :=
  match s.agenda with
  | i :: rest => exec i { s with agenda := rest }
  | [] =>
    if s.poweredOff then .next s.endFabric
    else if !s.begun then .next s.beginCycle
    else match s.turn with
      | c :: rest => { s with turn := rest }.contextCycle c
      | [] => .next s.endFabric

/-! ### Placing an instruction -/

/-- The context that a placed instruction runs in: context 0 of pan 0, with a text of one line whose bytes are the instruction and
whatever follows it. -/
def placedCtx (bs : List Byte) : Ctx :=
  { run := .running, slots := 0xFF, textBase := 0x10000, textLines := 1, pc := 0x10000,
    text := (bs ++ List.replicate 64 0xFF).take 64, store := expandText [] 1 0 ((bs ++ List.replicate 64 0xFF).take 64) }

/-- The state with context 0 bound to a text of one line, in the middle of a cycle in which it is the next to issue. -/
def State.place (s : State) (bs : List Byte) : State :=
  { s.setCtx 0 (placedCtx bs) with agenda := [], begun := true, turn := [0], poweredOff := false }

end Sys2Proof.Machine
end

