-- ==== Sys2Proof/Machine/Step.lean ====
section
/-! DEFINITION. The step of the machine, and how an instruction is placed where the next step fetches. -/

namespace Sys2Proof.Machine

/-- One step: the next part of the fabric cycle (log 1). -/
def step (s : State) : Host.Outcome State Fault Refusal := s.advancePart

/-- The state in which the next step fetches and runs the instruction whose bits are `w` (log 2): its bytes stand at the pc of context
0, which is bound and issues next. -/
def State.withFetchWord (s : State) (nbits w : Nat) : State := s.place (natLe 13 (w % 2 ^ nbits))

end Sys2Proof.Machine
end

