-- ==== Sys2Proof/Safety.lean ====
section
/-! DEFINITION. What counts as a safe run, in the terms that the statements use. -/

namespace Sys2Proof

/-- A run is safe when no step of it stops the machine: every part of the spec that the machine meets has an effect. -/
def SafeFor (s : Machine.State) (k : Nat) : Prop := ∃ t, core.run k s = .next t

/-- The invariant of the machine: its memory stands in canonical form, so that equal memories are equal data. -/
def Inv (s : Machine.State) : Prop := Machine.Memory.wf s.mem = true

end Sys2Proof
end

