-- ==== Sys2Proof/WellFormed.lean ====
section
/-! DEFINITION. Which terms of Instr the part has: operands that a word or an entry can hold and that its entry accepts (R60, R62, R99 to
R274, R344 to R384, R470), and events that name contexts, pans, elements, fields and domains that exist (R3, R13). -/

namespace Sys2Proof

/-- Numbers that name a pan, a context, an element, a field or a tide domain. -/
def panOk (n : Nat) : Bool := decide (n < 96 * Config.dies)
def ctxOk (n : Nat) : Bool := decide (n < 8 * 96 * Config.dies)
def elemOk (n : Nat) : Bool := decide (n < 256 * 96 * Config.dies)
def fieldOk (n : Nat) : Bool := decide (n < Config.fieldsPerDie * Config.dies)
def domOk (n : Nat) : Bool := decide (n < 1024)

/-- A source that is no immediate (R236). -/
def noI (a : Src) : Bool := a != .imm
/-- A source that is a port, a lane or an e register (R258, R260, R261, R263). -/
def wide (a : Src) : Bool := a != .imm && a != .zero

/-- Sizes of a load: a doubleword has no zero-extending form (R110, R115). -/
def loadOk (sz : BitVec 2) (zx : Bool) : Bool := !(zx && sz == 3)

/-- Spaces of a sieve's tile: device virtual or reservoir memory (R371). -/
def sieveOk (tsp : BitVec 2) : Bool := decide (2 ≤ tsp.toNat)

/-- Rows (R223, R234 to R274). -/
def wfRow : Instr → Bool
  | .iadd _ a b i => immOk [a, b] i | .isub _ a b i => immOk [a, b] i | .imul _ a b i => immOk [a, b] i
  | .imac _ a b c i => immOk [a, b, c] i
  | .iand _ a b i => immOk [a, b] i | .ior _ a b i => immOk [a, b] i | .ixor _ a b i => immOk [a, b] i
  | .ishl _ a b i => immOk [a, b] i | .ishr _ a b i => immOk [a, b] i | .isar _ a b i => immOk [a, b] i
  | .imin _ _ a b i => immOk [a, b] i | .imax _ _ a b i => immOk [a, b] i
  | .icmp _ _ a b i => immOk [a, b] i | .isel _ a b c i => immOk [a, b, c] i
  | .iabs _ a i => immOk [a] i | .iclz _ a i => immOk [a] i
  | .fadd _ _ _ a b => noI a && noI b | .fsub _ _ _ a b => noI a && noI b
  | .fmul _ _ _ a b => noI a && noI b | .ffma _ _ _ a b c => noI a && noI b && noI c
  | .fmin _ _ a b => noI a && noI b | .fmax _ _ a b => noI a && noI b
  | .fcmp _ _ _ a b => noI a && noI b | .fabs _ _ a => noI a
  | .frint _ _ _ a => noI a | .fexpf _ a => noI a | .fexpins _ _ a b => noI a && noI b
  | .frcp _ _ _ a => noI a | .frsq _ _ _ a => noI a | .fcvt _ _ _ _ a => noI a
  | .fclass _ _ a => noI a | .fdot2 _ _ _ a b c => noI a && noI b && noI c
  | .mov w _ d a i => immOk [a] i && movOk w d a
  | .nld w _ _ d o i => immOk [o] i && nldOk w d
  | .nst w _ _ v o i => immOk [v, o] i && nstOk w v
  | .send _ _ _ _ a => noI a | .recv .. => true
  | .hdr _ a b i => immOk [a, b] i | .iter _ s => s != 7
  | .tstep ta tb _ _ _ bSA bSB _ _ _ => ta != 15 && tb != 15 && (hasScale ta || bSA == 0) && (hasScale tb || bSB == 0)
  | .spmx ta tb _ _ _ _ _ mc nc _ _ => decide (ta.toNat ≤ 4) && decide (tb.toNat ≤ 4) && nmOk mc nc
  | .macf _ _ a b => wide a && (match b with | some c => wide c | none => true)
  | .dmac _ _ a b => wide a && (match b with | some c => wide c | none => true)
  | .rq _ _ _ wd _ x m bi => decide (wd.toNat ≤ 5) && rqOk x m bi
  | .bq _ fo _ _ a => noI a && fo != 7
  | .tacc _ a _ => wide a | .trdl fm d _ => trdlOk fm d
  | .rank _ g _ c1 _ => decide (c1.toNat < 8 * 2 ^ g.toNat)
  | .racc n _ _ b _ a _ => noI a && (n || (isE a && b == 0))
  | .rval _ d a _ => noI a && d != .none
  | .rnop => true
  | .setq fm a => (a.isSome == (fm != .swap)) && (match a with | some c => wide c | none => true)
  | _ => false

/-- A term of Instr that the part has. -/
def wf : Instr → Bool
  | .ld _ sz zx _ _ _ => loadOk sz zx | .gld _ sz zx _ _ _ _ _ => loadOk sz zx | .gldi _ sz zx _ _ _ _ => loadOk sz zx
  | .amo _ op w64 _ _ _ _ _ _ => !(op == .fadd && w64)
  | .cas _ _ _ _ rd _ _ _ => rd != 31
  | .fuse _ _ _ _ fcw => fcw.extractLsb' 20 12 == 0
  | .route part _ _ _ _ v => routeOk part v
  | .bodyRowWord w => (match decodeRow w.ent with | .ok _ => true | .error _ => false)
  | .bstamp _ _ n _ _ _ => decide (1 ≤ n.toNat) && decide (n.toNat ≤ 32)
  | .tcopy _ s d => engEndOk s && engEndOk d
  | .tcopyc _ s d _ _ => engEndOk s && engEndOk d
  | .tfill h d _ => engEndOk d && h.ha == 0
  | .sgath _ t _ _ _ => sieveOk t | .sscat _ t _ _ _ => sieveOk t | .sscata _ t _ _ _ => sieveOk t
  | .sisect _ em _ _ ro osp => em || (ro == 0 && osp == 0)
  | .prune _ _ _ _ _ mc nc => nmOk mc nc
  | .coll _ kd op _ _ _ => kd != .ag || op == .add
  | .waite _ ra k => !(k == 0 && ra == 0)
  -- events
  | .replayLanding c => ctxOk c | .resultLanding c => ctxOk c | .haltResume c _ => ctxOk c | .waiteEnd c => ctxOk c
  | .ecallAnswer c _ => ctxOk c | .contextStart c => ctxOk c | .haltRequest c _ => ctxOk c | .haltPoint c => ctxOk c
  | .haltComplete c => ctxOk c | .killExpiry c => ctxOk c | .dictldComplete c => ctxOk c | .flushiComplete c => ctxOk c
  | .cplwaitEnd c => ctxOk c | .barwaitEnd c => ctxOk c
  | .elementResultLanding e => elemOk e | .portDelayExit e => elemOk e | .edgeFeed e _ => elemOk e
  | .tstepContribution _ _ x y => decide (x < 16) && decide (y < 16)
  | .bqBlockWrite p r => panOk p && decide (r < 16) | .rankPacketWrite p => panOk p | .queueEntryFree p => panOk p
  | .bindRecordWrite p _ _ => panOk p | .dispatchTake p _ => panOk p | .lateStart p _ => panOk p
  | .nextInstanceLoad p _ => panOk p | .resumption p _ => panOk p | .swap _ _ _ p _ => panOk p
  | .domainStall d => domOk d | .markRelease d => domOk d | .pwrdomWrite d _ => domOk d | .tideSample a b => domOk a && domOk b
  | .fllStep d => domOk d | .voltageMoveEnd d => domOk d
  | .tenantChangeWipe f => fieldOk f
  | .flitReceive _ f => decide (f.payload.length ≤ 240)
  | .imgld _ _ _ b => decide (b.length ≤ 216) | .attreq _ n => n.length == 32
  | .nop => true | .add .. => true | .sub .. => true | .and .. => true | .or .. => true | .xor .. => true | .shl .. => true
  | .shr .. => true | .sar .. => true | .mul .. => true | .mulh .. => true | .mulhu .. => true | .div .. => true | .divu .. => true
  | .rem .. => true | .remu .. => true | .min .. => true | .max .. => true | .minu .. => true | .maxu .. => true | .slt .. => true
  | .sltu .. => true | .seq .. => true | .sel .. => true | .addi .. => true | .andi .. => true | .ori .. => true | .xori .. => true
  | .shli .. => true | .shri .. => true | .sari .. => true | .slti .. => true | .sltui .. => true | .li .. => true | .clz .. => true
  | .ctz .. => true | .popc .. => true | .brev .. => true | .bext .. => true | .bins .. => true | .j .. => true | .jal .. => true
  | .jr .. => true | .beq .. => true | .bne .. => true | .blt .. => true | .bge .. => true | .bltu .. => true | .bgeu .. => true
  | .loop .. => true | .loopi .. => true | .lbrk => true | .st .. => true | .push .. => true | .pop .. => true | .gst .. => true
  | .mvl .. => true | .tstl .. => true | .fence .. => true | .sbar .. => true | .hld .. => true | .hst .. => true | .hset .. => true
  | .hget .. => true | .mdld .. => true | .launch .. => true | .msg .. => true | .msgDelivery .. => true | .blk .. => true
  | .fuseLive .. => true | .bind .. => true | .nest .. => true | .bend .. => true | .bgo .. => true | .bdrain .. => true
  | .brel .. => true | .gtab .. => true | .vtab .. => true | .trd .. => true | .tdisc .. => true | .tstepStepRead .. => true
  | .chain .. => true | .chainToken .. => true | .cplarm .. => true | .cplwait .. => true | .cpltest .. => true | .barinit .. => true
  | .bararr .. => true | .barwait .. => true | .cplsig .. => true | .collHeaderMatch .. => true | .rput .. => true | .rget .. => true
  | .rpeek .. => true | .evict .. => true | .pref .. => true | .engineAccept .. => true | .engineBindingSlotReady .. => true
  | .engineWritePerformed .. => true | .engineComplete .. => true | .trap .. => true | .brk .. => true | .rft => true
  | .landingArrival .. => true | .sysr .. => true | .sysw .. => true | .halt => true | .dictld .. => true | .tider .. => true
  | .tiderRaw .. => true | .tidew .. => true | .phase .. => true | .yield .. => true | .exit .. => true | .ckpt .. => true
  | .flushi => true | .ecall .. => true | .translatorBuild .. => true | .save .. => true | .softRequest .. => true
  | .graceExpiry .. => true | .thermalEmergency => true | .hardTrip => true | .uncorrectableError .. => true
  | .correctableError .. => true | .scrubLine .. => true | .patrolScrub .. => true | .dlogRoundEnd .. => true | .einjWrite .. => true
  | .errorLogClear .. => true | .registerWrite .. => true | .lifeCycleChange .. => true | .replicaCommit .. => true
  | .replicaUnlock .. => true | .mergeGroupSend .. => true | .orderedFadd .. => true | .sluiceSlotArrival .. => true
  | .stageMove .. => true | .sluicePositionFree .. => true | .flitReplay .. => true | .remoteRequest .. => true
  | .linkTimeout .. => true | .start .. => true | .cap .. => true | .leaseExpiry => true | .debug .. => true
  | .powerWindow .. => true | .byteBudgetWindow => true | .powerOnReset .. => true | .linkRetrain .. => true | .instanceEnd .. => true
  | .managementCoreAccess .. => true | .remapTableChange .. => true | .endpointDirectoryUpdate .. => true
  | i => wfRow i

end Sys2Proof
end

