-- ==== Sys2Proof/Certificates/Slice0/Obligations.lean ====
section
/-! DEFINITION. The statements for the provers. Each formalises rules of spec/ that its docstring and its entry in OBLIGATIONS.json name. -/

namespace Sys2Proof.Claims
end Sys2Proof.Claims

open Sys2Proof Sys2Proof.Machine Sys2Proof.Claims

namespace Sys2Proof.Claims

/-- The values of OP that the opcode map reserves (R63). -/
def reservedOp (o : Nat) : Bool :=
  (decide (0x48 ≤ o) && decide (o ≤ 0x5F)) || (decide (0x6E ≤ o) && decide (o ≤ 0x7F)) || o == 0xA7
    || (decide (0xB3 ≤ o) && decide (o ≤ 0xB7)) || (decide (0xBA ≤ o) && decide (o ≤ 0xBF))
    || (decide (0xD6 ≤ o) && decide (o ≤ 0xDF)) || decide (0xF0 ≤ o)

/-- The state in which a context issues its turn of the fabric cycle: the turn is taken, and the rows of the cycle sample MODEFP (R196). -/
def turnOf (s : State) (c : Nat) (rest : List Nat) : State :=
  { s with turn := rest, cur := c }.setCtx c { s.ctx c with rowMode := (s.ctx c).modefp, rowAt := some s.cycle }

/-- Nothing comes before the instruction at the pc of a context: it runs, no fault waits, and no bubble follows a branch (R14, R23). -/
def readyToIssue (x : Ctx) : Prop := x.run = .running ∧ x.loadFault = none ∧ x.bfault = none ∧ x.bubble = false

/-- What the expanded text of a context holds at its pc. -/
def textAtPc (x : Ctx) : Option TextCell := (x.startAtPc x.pc.toNat).map (·.cell)

end Sys2Proof.Claims

/-- Decode and encode agree on every word of the sequencer (R59 to R64). -/
def Obligations.SequencerWordsRoundTrip : Prop :=
  ∀ (i : Instr) (w : IWord), wf i = true → encodeWord i = some w → decodeWord w = .ok i

/-- Decode and encode agree on every row that a plane holds (R59, R62, R223). -/
def Obligations.RowEntriesRoundTrip : Prop :=
  ∀ (i : Instr) (e : RowEntry), wfRow i = true → encodeRow i = some e → decodeRow e = .ok i

/-- Every bit of a decoded word is used or demanded to be zero, so that decoding is one to one (R60). -/
def Obligations.DecodedWordsReencode : Prop :=
  ∀ (i : Instr) (w : IWord), decodeWord w = .ok i → wf i = true ∧ encodeWord i = some w

/-- R63 and the decode fault of R60. -/
def Obligations.ReservedOpcodesRefused : Prop :=
  ∀ w : IWord, reservedOp (w.extractLsb' 88 8).toNat = true →
    decodeWord w = .error .reservedOp ∧
    ∀ (s : State) (c : Nat) (rest : List Nat), s.agenda = [] → s.begun = true → s.poweredOff = false → s.turn = c :: rest →
      readyToIssue (s.ctx c) → textAtPc (s.ctx c) = some (.word w) →
      step s = (turnOf s c rest).trap 0x01 (w.toNat / 2 ^ 32)

/-- R53: an X13 instruction is the byte 0xFE followed by the word in twelve bytes; R55: how a line expands. -/
def Obligations.InstructionBytesRoundTrip : Prop :=
  ∀ (i : Instr) (w : IWord) (more : List Byte), wf i = true → encodeWord i = some w →
    (encode i).length = 13 ∧ (encode i).head? = some 0xFE ∧ decodeBytes (encode i ++ more) = some i ∧
    ∀ dict base, (expandLine dict base (encode i ++ more)).head? = some ⟨base, 13, .word w⟩

/-- Hand-written words of each format. -/
def Obligations.WrittenWordsDecode : Prop :=
  decodeWord 0x010184400000000000000000 = .ok (.add 3 1 2) ∧
  decodeWord 0x18021400FFFFFFFFFFFFFFFF = .ok (.addi 4 5 (-1)) ∧
  decodeWord 0x2B0004400000000000000010 = .ok (.beq 1 2 16) ∧
  decodeWord 0x343388040000000000000008 = .ok (.ld .field 3 false 7 2 8) ∧
  decodeWord 0x3F1000000000000000000084 = .ok (.fence .acq .sys 8) ∧
  decodeWord 0x670030070000000000000005 = .ok (.bgo 3 7 5) ∧
  decodeWord 0xC00120800000000000000003 = .ok (.tcopy ⟨false, 1, 2, 1⟩ ⟨3, false, 0⟩ ⟨0, false, 0⟩) ∧
  decodeWord 0xE20080000000000000000004 = .ok (.sysr 1 4) ∧
  decodeRow ⟨0x80, 0, 0x02081FF00000⟩ = .ok (.iadd (.e 1) (.e 2) (.e 3) ⟨0, false⟩) ∧
  decodeBytes [0x10, 0x08] = some (.add 1 1 2)

/-- The step fetches, decodes and runs (R42, R56, R58, R60). The words of a body stand only in a body, and no other instruction stands there:
any such word raises the row-placement fault, with the upper bits of its word as TVAL and its own address as TPC (R65, R66, R207, R208; that
R66 holds inside an open body, not R209, is log 23, DEDUCED). -/
def Obligations.StepRunsTheDecodedInstruction : Prop :=
  ∀ (s : State) (c : Nat) (rest : List Nat), s.agenda = [] → s.begun = true → s.poweredOff = false → s.turn = c :: rest →
    readyToIssue (s.ctx c) →
    (∀ w i, textAtPc (s.ctx c) = some (.word w) → decodeWord w = .ok i → (turnOf s c rest).misplaced i = false →
      step s = exec i (turnOf s c rest)) ∧
    (∀ w i, textAtPc (s.ctx c) = some (.word w) → decodeWord w = .ok i → (inBody i = true ↔ (s.ctx c).body = none) →
      step s = .next ((turnOf s c rest).enterTrap c 0x04 (w.toNat / 2 ^ 32) (s.ctx c).pc.toNat)) ∧
    (textAtPc (s.ctx c) = some .fill → step s = (turnOf s c rest).trap 0x02 (s.ctx c).pc.toNat) ∧
    (textAtPc (s.ctx c) = none →
      let p := (s.ctx c).pc.toNat
      step s = (turnOf s c rest).trap (if p < (s.ctx c).textBase ∨ (s.ctx c).textEnd ≤ p then 0x09 else 0x03) p)

/-- The parts of a fabric cycle, in the order that the model takes them (log 1, DESIGN CHOICE). -/
def Obligations.StepRunsTheDueEvent : Prop :=
  ∀ s : State,
    (∀ i rest, s.agenda = i :: rest → step s = exec i { s with agenda := rest }) ∧
    (s.agenda = [] → s.poweredOff = false → s.begun = false → step s = .next s.beginCycle) ∧
    (s.agenda = [] → s.poweredOff = false → s.begun = true → s.turn = [] → step s = .next s.endFabric) ∧
    (s.agenda = [] → s.poweredOff = true → step s = .next s.nextCycle)

/-- Text, expansion, fetch and decoding together, from bytes to meaning (log 2). -/
def Obligations.PlacedInstructionRuns : Prop :=
  ∀ (s : State) (i : Instr) (w : IWord), wf i = true → encodeWord i = some w → inBody i = false →
    step (s.place (encode i)) = exec i (turnOf (s.place (encode i)) 0 [])

/-- An invariant of the machine: equal memories are equal data, whatever the machine does. -/
def Obligations.StepKeepsMemoryCanonical : Prop :=
  ∀ s t : State, Inv s → step s = .next t → Inv t

/-- R494 with the wipe of R426, and the reset values of R486 and R491. The values in contexts with nothing bound are log 3, and that reset is
the end of step 7 is log 8 (both DESIGN CHOICE). -/
def Obligations.ResetState : Prop :=
  Inv State.reset ∧ (∀ a, State.reset.readByte a = 0) ∧ (∀ a n, State.reset.poisoned a n = none) ∧
  (∀ c, State.reset.ctx c = {} ∧ (State.reset.ctx c).run = .free ∧ (∀ r, (State.reset.ctx c).reg r = 0)) ∧
  (∀ p e, State.reset.elem p e = {}) ∧ (∀ p m, (State.reset.activeBlk p m).live = false ∧ (State.reset.runOf p m).live = false) ∧
  (∀ k, State.reset.stream k = {} ∧ State.reset.position k = {}) ∧ (∀ k, State.reset.nodeEntry k = {} ∧ State.reset.concEntry k = {}) ∧
  (∀ d, (State.reset.domain d).t = 0) ∧ (∀ p, (State.reset.part p).v = false ∧ (State.reset.part p).queue = []) ∧
  State.reset.tasks = [] ∧ (∀ p, State.reset.lastTask p = 0) ∧ State.reset.cap = 1050 ∧ State.reset.floorW = 1050 ∧
  (∀ d, let p : Pwr := Kv.get {} State.reset.pwr d; p.ftgt = 0 ∧ p.fcur = 0 ∧ p.fceil = 60)

namespace Sys2Proof.Claims

/-- Signed and unsigned readings of a register value, and the register value of an integer modulo 2^64 (R97). -/
def sx (a : Word) : Int := a.toInt
def zx (a : Word) : Nat := a.toNat
def wrap (n : Int) : Word := BitVec.ofInt 64 n

/-- One bits of a value, counted. -/
def bitCount (a : Word) : Nat := ((List.range 64).filter fun k => a.getLsbD k).length

/-- The register, and the value, that an instruction of latency 1 writes, where its result is a function of registers and immediates
(R99, R101 to R105). -/
def quickResult (r : Reg → Word) : Instr → Option (Reg × Word)
  | .add rd ra rb => some (rd, wrap (sx (r ra) + sx (r rb)))
  | .sub rd ra rb => some (rd, wrap (sx (r ra) - sx (r rb)))
  | .and rd ra rb => some (rd, r ra &&& r rb)
  | .or rd ra rb => some (rd, r ra ||| r rb)
  | .xor rd ra rb => some (rd, r ra ^^^ r rb)
  | .shl rd ra rb => some (rd, wrap ((zx (r ra) * 2 ^ (zx (r rb) % 64) : Nat) : Int))
  | .shr rd ra rb => some (rd, wrap (zx (r ra) / 2 ^ ((zx (r rb) % 64 : Nat))))
  | .sar rd ra rb => some (rd, wrap (sx (r ra) / 2 ^ ((zx (r rb) % 64 : Nat))))
  | .min rd ra rb => some (rd, wrap (min (sx (r ra)) (sx (r rb))))
  | .max rd ra rb => some (rd, wrap (max (sx (r ra)) (sx (r rb))))
  | .minu rd ra rb => some (rd, wrap (min (zx (r ra)) (zx (r rb))))
  | .maxu rd ra rb => some (rd, wrap (max (zx (r ra)) (zx (r rb))))
  | .slt rd ra rb => some (rd, if sx (r ra) < sx (r rb) then 1 else 0)
  | .sltu rd ra rb => some (rd, if zx (r ra) < zx (r rb) then 1 else 0)
  | .seq rd ra rb => some (rd, if r ra = r rb then 1 else 0)
  | .sel rd ra rb rc => some (rd, if r rc = 0 then r rb else r ra)
  | .addi rd ra i => some (rd, wrap (sx (r ra) + sx i))
  | .andi rd ra i => some (rd, r ra &&& i)
  | .ori rd ra i => some (rd, r ra ||| i)
  | .xori rd ra i => some (rd, r ra ^^^ i)
  | .shli rd ra n => some (rd, wrap (zx (r ra) * 2 ^ n.toNat))
  | .shri rd ra n => some (rd, wrap (zx (r ra) / 2 ^ n.toNat))
  | .sari rd ra n => some (rd, wrap (sx (r ra) / 2 ^ n.toNat))
  | .slti rd ra i => some (rd, if sx (r ra) < sx i then 1 else 0)
  | .sltui rd ra i => some (rd, if zx (r ra) < zx i then 1 else 0)
  | .li rd i => some (rd, i)
  | .clz rd ra => some (rd, wrap (if r ra = 0 then 64 else 63 - Nat.log2 (zx (r ra))))
  | .popc rd ra => some (rd, wrap (bitCount (r ra)))
  | .brev rd ra => some (rd, (r ra).reverse)
  | .bext s rd ra rb =>
    let len : Nat := min (zx (r rb) / 2 ^ 8 % 2 ^ 7) 64
    let f : Nat := zx (r ra) / 2 ^ (zx (r rb) % 64) % 2 ^ len
    some (rd, wrap (if s ∧ 0 < len ∧ 2 ^ (len - 1) ≤ f then (f : Int) - 2 ^ len else f))
  | _ => none

/-- The register, the value and the latency of the results that count towards the limit of R25 (R99, R100). -/
def longResult (r : Reg → Word) : Instr → Option (Reg × Word × Nat)
  | .mul rd ra rb => some (rd, wrap (sx (r ra) * sx (r rb)), 3)
  | .mulh rd ra rb => some (rd, wrap (sx (r ra) * sx (r rb) / 2 ^ 64), 3)
  | .mulhu rd ra rb => some (rd, wrap (zx (r ra) * zx (r rb) / 2 ^ 64), 3)
  | .div rd ra rb => some (rd, if r rb = 0 then 0xFFFFFFFFFFFFFFFF else wrap ((sx (r ra)).tdiv (sx (r rb))), 12)
  | .divu rd ra rb => some (rd, if r rb = 0 then 0xFFFFFFFFFFFFFFFF else wrap ((zx (r ra) / zx (r rb) : Nat) : Int), 12)
  | .rem rd ra rb => some (rd, if r rb = 0 then r ra
      else wrap (sx (r ra) - (sx (r ra)).tdiv (sx (r rb)) * sx (r rb)), 12)
  | .remu rd ra rb => some (rd, if r rb = 0 then r ra else wrap ((zx (r ra) % zx (r rb) : Nat) : Int), 12)
  | _ => none

/-- The context that NOP leaves: the next instruction, one context cycle later, with what is due landed. -/
def nopLeaves (s : State) (u : Ctx) : Prop := exec .nop s = .next (s.setSelf u)

/-- The replay registers of a context, those that a SYSW has set loose after them (R38, R136). -/
def replaysOf (x : Ctx) : List Replay := [x.y0, x.y1, x.y2, x.y3] ++ x.loose
/-- A replayed result lands by a context cycle, and what it lands (R38, R136). -/
def runsOut (y : Replay) (c : Nat) : Prop := y.v = true ∧ ∃ d, y.due = some d ∧ d ≤ c
def landsOf (y : Replay) : Word := y.held.getD y.val

/-- Nothing of a context lands at the end of this context cycle. -/
def nothingDue (x : Ctx) : Prop :=
  (∀ f ∈ x.flight, x.cyc + 1 < f.due) ∧ (∀ y ∈ replaysOf x, ¬ runsOut y (x.cyc + 1)) ∧ x.struck = none

/-- Of the replayed results that land in one context cycle, entry `k` of the list is the last one to its register: every other one was
issued before it, or in the same context cycle from a lower register (R24, R38). -/
def lastTo (l : List Replay) (lands : Replay → Prop) (k : Nat) (y : Replay) : Prop :=
  l[k]? = some y ∧ lands y ∧ ∀ j z, l[j]? = some z → lands z → z.dst = y.dst → j ≠ k → z.seq < y.seq ∨ (z.seq = y.seq ∧ j < k)

end Sys2Proof.Claims

/-- What the end of every instruction does, seen on the instruction that does nothing else (R23, R30, R57, R97). -/
def Obligations.NopPasses : Prop :=
  ∀ s : State, ∃ u : Ctx, nopLeaves s u ∧
    u.cyc = s.self.cyc + 1 ∧ (u.pc, u.ls) = fallThrough (BitVec.ofNat 56 s.self.next) s.self.ls ∧ u.hold = none ∧
    u.h = s.self.h ∧ u.tvec = s.self.tvec ∧ u.tcode = s.self.tcode ∧ u.tpc = s.self.tpc ∧ u.tval = s.self.tval ∧
    u.hnd = s.self.hnd ∧ u.ord = s.self.ord ∧ u.yreq = s.self.yreq ∧ u.modefp = s.self.modefp ∧ u.ext = s.self.ext ∧
    u.run = s.self.run ∧
    (nothingDue s.self → s.self.occ = 0 →
      u = { s.self with pc := u.pc, ls := u.ls, hold := none, cyc := u.cyc })

/-- The three-register, immediate and bit operations (R99, R101 to R105), their latency (R23), the order of landings (R24) and s0 (R17). R99 and R100 for the results of latency above 1, and the limit of R25. -/
def Obligations.ScalarOperationsWriteTheirResult : Prop :=
  ((∀ (s : State) (i : Instr) (rd : Reg) (v : Word), quickResult s.reg i = some (rd, v) →
    ∃ u, nopLeaves s u ∧ exec i s = .next (s.setSelf (u.setReg rd v)) ∧ (u.setReg rd v).reg 0 = 0 ∧
      (Kv.wf (0 : Word) u.s = true → (rd ≠ 0 → (u.setReg rd v).reg rd = v) ∧ ∀ q, q ≠ rd → (u.setReg rd v).reg q = u.reg q)) ∧
  ∀ (s : State) (rd ra rb rc : Reg),
    (∃ u v, nopLeaves s u ∧ exec (.ctz rd ra) s = .next (s.setSelf (u.setReg rd v)) ∧ v.toNat ≤ 64 ∧
      (∀ k, k < v.toNat → (s.reg ra).getLsbD k = false) ∧ (v.toNat < 64 → (s.reg ra).getLsbD v.toNat = true)) ∧
    (∃ u v, nopLeaves s u ∧ exec (.bins rd ra rb rc) s = .next (s.setSelf (u.setReg rd v)) ∧
      let pos := (s.reg rc).toNat % 64
      let len := min ((s.reg rc).toNat / 2 ^ 8 % 2 ^ 7) 64
      ∀ k, k < 64 → v.getLsbD k = if pos ≤ k ∧ k < pos + len then (s.reg rb).getLsbD (k - pos) else (s.reg ra).getLsbD k)) ∧
  (∀ (s : State) (i : Instr) (rd : Reg) (v : Word) (lat : Nat), longResult s.reg i = some (rd, v, lat) →
    (s.self.inFlight < 4 → ∃ u, nopLeaves s u ∧
      exec i s = .next (s.setSelf { u with flight := u.flight ++ [⟨.s rd, v, s.self.cyc + lat, true, none, s.self.cyc⟩] })) ∧
    (4 ≤ s.self.inFlight → exec i s = s.trap 0x07 4))

/-- R17, and the landing events of R23, R24 and R38: what each register holds after them, the last one issued where several land. -/
def Obligations.ResultsLandWhenDue : Prop :=
  (∀ (x : Ctx) (v : Word), x.reg 0 = 0 ∧ x.setReg 0 v = x) ∧
  (∀ (x : Ctx) (r q : Reg) (v : Word), Kv.wf (0 : Word) x.s = true → r ≠ 0 → (x.setReg r v).reg q = if q = r then v else x.reg q) ∧
  (∀ (x : Ctx) (f : Flight), f.dst = .s 0 → (∀ r, (x.land f).reg r = x.reg r) ∧ (f.poison = none → x.land f = x)) ∧
  (∀ (x : Ctx) (c : Nat) (y : Replay), y.dst = 0 → (∀ r, (x.landReplay c y).reg r = x.reg r) ∧ (y.poison = none → x.landReplay c y = x)) ∧
  (∀ (s : State) (c : Nat), let now := (s.ctx c).cyc; ∃ x, exec (.resultLanding c) s = .next (s.setCtx c x) ∧
    x.flight = (s.ctx c).flight.filter (fun f => decide (now < f.due)) ∧ replaysOf x = replaysOf (s.ctx c) ∧
    (Kv.wf (0 : Word) (s.ctx c).s = true → ∀ r : Reg,
      ((∀ f ∈ (s.ctx c).flight, f.due ≤ now → f.dst ≠ .s r) → x.reg r = (s.ctx c).reg r) ∧
      ∀ before f after, (s.ctx c).flight = before ++ f :: after → f.due ≤ now → f.dst = .s r → r ≠ 0 →
        (∀ g ∈ after, g.due ≤ now → g.dst ≠ .s r) → x.reg r = f.val)) ∧
  (∀ (s : State) (c : Nat), let now := (s.ctx c).cyc; let L := replaysOf (s.ctx c)
    ∃ x, exec (.replayLanding c) s = .next (s.setCtx c x) ∧ x.flight = (s.ctx c).flight ∧
    (∀ k y, k < 4 → L[k]? = some y → ∃ z, [x.y0, x.y1, x.y2, x.y3][k]? = some z ∧
      (runsOut y now → z = { y with v := false, due := none, cnt := 0, poison := none, held := none }) ∧ (¬ runsOut y now → z = y)) ∧
    (∀ y, y ∈ x.loose ↔ y ∈ (s.ctx c).loose ∧ ¬ runsOut y now) ∧
    (Kv.wf (0 : Word) (s.ctx c).s = true → ∀ r : Reg,
      ((∀ y ∈ L, runsOut y now → y.dst ≠ r) → x.reg r = (s.ctx c).reg r) ∧
      ∀ k y, lastTo L (fun z => runsOut z now) k y → y.dst = r → r ≠ 0 → x.reg r = landsOf y))

namespace Sys2Proof.Claims

/-- The target of a displacement from the instruction's address (R106). -/
def aim (s : State) (disp : Word) : Nat := (BitVec.setWidth 64 s.self.pc + disp).toNat

/-- Whether a branch or jump is taken, and its target (R106). -/
def branchOf (s : State) : Instr → Option (Bool × Nat)
  | .j d => some (true, aim s d)
  | .jal _ d => some (true, aim s d)
  | .jr a d => some (true, (s.reg a + d).toNat)
  | .beq a b d => some (decide (s.reg a = s.reg b), aim s d)
  | .bne a b d => some (decide (s.reg a ≠ s.reg b), aim s d)
  | .blt a b d => some (decide (sx (s.reg a) < sx (s.reg b)), aim s d)
  | .bge a b d => some (decide (sx (s.reg b) ≤ sx (s.reg a)), aim s d)
  | .bltu a b d => some (decide (zx (s.reg a) < zx (s.reg b)), aim s d)
  | .bgeu a b d => some (decide (zx (s.reg b) ≤ zx (s.reg a)), aim s d)
  | _ => none

/-- The register that a branch or jump writes (R106): JAL its link. -/
def linkOf : Instr → Option Reg | .jal rd _ => some rd | _ => none

/-- Whether the body of a loop entry holds an address (R30). -/
def holdsAddr (e : LoopEntry) (t : Nat) : Prop := e.start.toNat ≤ t ∧ t < e.stop.toNat

/-- The fault that a target raises, if any (R42, R58): outside the text the range fault, no instruction start the misaligned-target fault. -/
def targetFault (x : Ctx) (t : Nat) : Option Nat :=
  if t < x.textBase ∨ x.textEnd ≤ t then some 0x09 else if (x.startAtPc t).isNone then some 0x03 else none

/-- The count and the displacement of a loop instruction (R107, R108). -/
def loopOf (s : State) : Instr → Option (Nat × Word)
  | .loop ra d => some (zx (s.reg ra), d)
  | .loopi n d => some (n.toNat, d)
  | _ => none

end Sys2Proof.Claims

/-- R106 with the loop rule of R30 and R31 and the target checks of R42 and R58. -/
def Obligations.BranchesGoOrFallThrough : Prop :=
  ∀ (s : State) (i : Instr) (c : Bool) (t : Nat), branchOf s i = some (c, t) →
    (c = false → ∃ u, nopLeaves s u ∧ exec i s = .next (s.setSelf u)) ∧
    (c = true → targetFault s.self t = none → ∃ u, exec i s = .next (s.setSelf u) ∧
      u.pc = BitVec.ofNat 56 t ∧ u.bubble = true ∧ u.cyc = s.self.cyc + 1 ∧ u.hold = none ∧
      (∃ n, u.ls = s.self.ls.drop n ∧ (∀ e ∈ s.self.ls.take n, ¬ holdsAddr e (t % 2 ^ 56)) ∧
        ∀ e, u.ls.head? = some e → holdsAddr e (t % 2 ^ 56)) ∧
      u.h = s.self.h ∧ u.tvec = s.self.tvec ∧ u.tpc = s.self.tpc ∧ u.hnd = s.self.hnd ∧ u.modefp = s.self.modefp ∧
      (nothingDue s.self → Kv.wf (0 : Word) s.self.s = true → u.l = s.self.l ∧ u.flight = s.self.flight ∧
        ∀ r, u.reg r = if r ≠ 0 ∧ linkOf i = some r then BitVec.ofNat 64 s.self.next else s.reg r)) ∧
    (c = true → ∀ k, targetFault s.self t = some k → exec i s = s.trap k t)

/-- R108, check by check, and the fall-through part of R30 with its cascade. -/
def Obligations.LoopsOpenSkipReturnAndEnd : Prop :=
  (∀ (s : State) (i : Instr) (n : Nat) (d : Word), loopOf s i = some (n, d) →
    let x := s.self
    let e := aim s d
    (4 ≤ x.ls.length → exec i s = s.trap 0x0B 4) ∧
    (x.ls.length < 4 → 0xFFFFFFFF < n → exec i s = s.trap 0x0B n) ∧
    (x.ls.length < 4 → n ≤ 0xFFFFFFFF → targetFault x e = some 0x09 → exec i s = s.trap 0x09 e) ∧
    (x.ls.length < 4 → n ≤ 0xFFFFFFFF → (targetFault x e = some 0x03 ∨ targetFault x e = none ∧ e ≤ x.next) → exec i s = s.trap 0x03 e) ∧
    (x.ls.length < 4 → n ≤ 0xFFFFFFFF → targetFault x e = none → x.next < e →
      ∃ u, exec i s = .next (s.setSelf u) ∧ u.cyc = x.cyc + 1 ∧ u.hold = none ∧ u.h = x.h ∧ u.tvec = x.tvec ∧ u.hnd = x.hnd ∧
        (n = 0 → (u.pc, u.ls) = fallThrough (BitVec.ofNat 56 e) x.ls ∧ u.bubble = true) ∧
        (n ≠ 0 → u.pc = BitVec.ofNat 56 x.next ∧ u.bubble = x.bubble ∧
          u.ls = ⟨BitVec.ofNat 56 x.next, BitVec.ofNat 56 e, BitVec.ofNat 32 n⟩ :: x.ls) ∧
        (nothingDue x → u.s = x.s ∧ u.l = x.l ∧ u.flight = x.flight))) ∧
  (∀ (s : State) (done rest : List LoopEntry), s.self.ls = done ++ rest →
    (∀ e ∈ done, e.stop = BitVec.ofNat 56 s.self.next ∧ e.count.toNat ≤ 1) →
    ∃ u, nopLeaves s u ∧ u.cyc = s.self.cyc + 1 ∧ u.bubble = s.self.bubble ∧
      (∀ e more, rest = e :: more → e.stop = BitVec.ofNat 56 s.self.next → 1 < e.count.toNat →
        u.pc = e.start ∧ u.ls = { e with count := e.count - 1 } :: more) ∧
      ((∀ e, rest.head? = some e → e.stop ≠ BitVec.ofNat 56 s.self.next) → u.pc = BitVec.ofNat 56 s.self.next ∧ u.ls = rest))

/-- R32. -/
def Obligations.LbrkPopsTheTopBody : Prop :=
  ∀ s : State, ∃ u v, nopLeaves s v ∧ exec .lbrk s = .next (s.setSelf u) ∧ u = { v with pc := u.pc, ls := u.ls } ∧
    (u.pc, u.ls) = fallThrough (BitVec.ofNat 56 s.self.next) s.self.ls.tail ∧
    (s.self.ls = [] → u = v ∧ u.ls = []) ∧
    ((∀ e, s.self.ls.tail.head? = some e → e.stop ≠ BitVec.ofNat 56 s.self.next) →
      u.pc = BitVec.ofNat 56 s.self.next ∧ u.ls = s.self.ls.tail)

namespace Sys2Proof.Claims

/-- The loop stack that the saved trap registers of a context describe (R33): LSS0 first, and a depth above 4 taken as 4. -/
def savedStack (x : Ctx) : List LoopEntry := [x.lss0, x.lss1, x.lss2, x.lss3].take (min x.slsd.toNat 4)

/-- No body is open, nothing is held half done, and the handler is not active: a context about to issue a plain instruction. -/
def plainCtx (x : Ctx) : Prop := x.body = none ∧ x.hold = none

/-- The state changes in its contexts and in who waits for a queue entry alone. -/
def onlyContexts (s t : State) : Prop := t = { s with ctxs := t.ctxs, holders := t.holders }

end Sys2Proof.Claims

/-- R390, the one shared entry that every faulting instruction takes. -/
def Obligations.TrapEntrySavesAndJumps : Prop :=
  ∀ (s : State) (cause tval : Nat), let x := s.self
    x.hnd = false → plainCtx x → targetFault x x.tvec.toNat = none →
    ∃ t, s.trap cause tval = .next t ∧ onlyContexts s t ∧ (∀ a, t.readByte a = s.readByte a) ∧
      let y := t.self
      y.tcode = BitVec.ofNat 8 cause ∧ y.tval = BitVec.ofNat 64 tval ∧ y.tpc = x.pc ∧ y.hnd = true ∧ y.pc = x.tvec ∧
      y.ls = [] ∧ y.slsd = BitVec.ofNat 3 x.ls.length ∧ (x.ls.length ≤ 4 → savedStack y = x.ls) ∧
      y.s = x.s ∧ (∀ f ∈ y.flight, ∀ r, f.dst ≠ .s r) ∧ y.cyc = x.cyc + 1 ∧
      (∀ f r, x.flight = [f] → f.dst = .s r → x.y0.v = false →
        y.y0.v = true ∧ y.y0.dst = r ∧ y.y0.val = f.val ∧ y.y0.hlt = false ∧ y.y0.cnt = BitVec.ofNat 5 (f.due - x.cyc) ∧ y.y0.due = none) ∧
      y.tvec = x.tvec ∧ y.modefp = x.modefp ∧ y.h = x.h ∧ y.ord = x.ord ∧ y.yreq = x.yreq ∧ y.run = x.run

/-- R391. -/
def Obligations.NestedFaultHalts : Prop :=
  ∀ (s : State) (cause tval : Nat), let x := s.self
    plainCtx x →
    (x.hnd = true → ∃ t, s.trap cause tval = .next t ∧ t.self.run = .halted (.nested (BitVec.ofNat 8 cause)) ∧
      t.self.tcode = x.tcode ∧ t.self.tval = x.tval ∧ t.self.tpc = x.tpc ∧ t.self.hnd = true ∧ t.self.pc = x.pc ∧
      t.fw = s.fw ++ [.nested s.cur (BitVec.ofNat 8 cause)] ∧ ∀ a, t.readByte a = s.readByte a) ∧
    (x.hnd = false → ∀ k, targetFault x x.tvec.toNat = some k → ∃ t, s.trap cause tval = .next t ∧
      t.self.run = .halted (.nested (BitVec.ofNat 8 k)) ∧ t.fw = s.fw ++ [.nested s.cur (BitVec.ofNat 8 k)] ∧ ∀ a, t.readByte a = s.readByte a)

/-- R134 and the DBG bit of R389. -/
def Obligations.TrapAndBrkRaiseTheirFault : Prop :=
  ∀ (s : State) (imm : Word), let x := s.self
    exec (.trap imm) s = .next (s.enterTrap s.cur 0x15 imm.toNat x.next) ∧
    (x.dbg = false → exec (.brk imm) s = .next (s.enterTrap s.cur 0x14 imm.toNat x.next)) ∧
    (x.hnd = false → plainCtx x → targetFault x x.tvec.toNat = none → ∀ i k, (i = .trap imm ∧ k = 0x15 ∨ i = .brk imm ∧ k = 0x14 ∧ x.dbg = false) →
      ∃ t, exec i s = .next t ∧ t.self.tcode = BitVec.ofNat 8 k ∧ t.self.tval = imm ∧ t.self.tpc = BitVec.ofNat 56 x.next ∧
        t.self.hnd = true ∧ t.self.pc = x.tvec ∧ t.self.s = x.s) ∧
    (x.dbg = true → plainCtx x → ∃ t, exec (.brk imm) s = .next t ∧ t.self.run = .halted .debug ∧ t.self.pc = BitVec.ofNat 56 x.next ∧
      t.self.hnd = x.hnd ∧ t.self.tpc = x.tpc ∧ t.fw = s.fw ++ [.debug s.cur])

/-- R135 with R33, R38, R172, R178 and R268: the handler returns, its trap's captured results count down, and the blocks and chains that it
stopped run on. That RFT takes one context cycle and adds no bubble is log 47 (DEDUCED), on which the cycles of the counts rest. -/
def Obligations.RftReturnsFromTheHandler : Prop :=
  ∀ s : State, let x := s.self
    (x.hnd = false → exec .rft s = s.trap 0x10 0) ∧
    (x.hnd = true → targetFault x x.tpc.toNat = none → ∃ t u, exec .rft s = .next t ∧ t.ctxs = (s.setSelf u).ctxs ∧ t.mem = s.mem ∧
      u.hnd = false ∧ u.pc = x.tpc ∧ u.ls = savedStack x ∧ u.cyc = x.cyc + 1 ∧ u.bubble = x.bubble ∧ u.hold = none ∧
      u.tcode = x.tcode ∧ u.tval = x.tval ∧ u.tpc = x.tpc ∧ u.h = x.h ∧
      ((∀ y ∈ [x.y0, x.y1, x.y2, x.y3], y.due = none) →
        let starts := fun (y : Replay) => y.v = true ∧ y.hlt = false
        let ends := fun (y : Replay) => starts y ∧ y.cnt = 0
        (∀ (k : Nat) (y : Replay), [x.y0, x.y1, x.y2, x.y3][k]? = some y → ∃ z : Replay, [u.y0, u.y1, u.y2, u.y3][k]? = some z ∧
          (starts y → y.cnt ≠ 0 → z = { y with due := some (x.cyc + 1 + y.cnt.toNat) }) ∧
          (ends y → z = { y with v := false, due := none, poison := none, held := none }) ∧ (¬ starts y → z = y)) ∧
        (Kv.wf (0 : Word) x.s = true → x.loose = [] → (∀ f ∈ x.flight, x.cyc + 1 < f.due) → ∀ r : Reg,
          ((∀ y ∈ [x.y0, x.y1, x.y2, x.y3], ends y → y.dst ≠ r) → u.reg r = x.reg r) ∧
          ∀ k y, lastTo [x.y0, x.y1, x.y2, x.y3] ends k y → y.dst = r → r ≠ 0 → u.reg r = landsOf y)) ∧
      t.cmds = s.cmds.map (fun k => if k.ctx = s.cur ∧ isChain k.instr = true ∧ k.st = .stopped then
        { k with st := (if k.w = 1 then .running else .issued), code := 0 } else k) ∧
      (Kv.wf ({} : BlkRun) s.runs = true → ∀ p m, let r := s.runOf p m
        t.runOf p m = if r.live = true ∧ r.ctx = s.cur then { r with stopped := false, faulted := false } else r) ∧
      (Kv.wf ({} : Elem) s.elems = true → (∀ e ∈ s.elems, ∀ y ∈ e.2.ye, y.hlt = true) → t.elems = s.elems) ∧
      (Kv.wf ({} : Elem) s.elems = true → ∀ p e, e < 256 → ∀ y ∈ (s.elem p e).ye, y.hlt = false → y.ctx = s.cur →
        (⟨y.mask, s.kc p y.mask + y.left, y.dst, y.val, true, y.blk⟩ : EFlight) ∈ (t.elem p e).flight ∧ y ∉ (t.elem p e).ye)) ∧
    (x.hnd = true → plainCtx x → ∀ k, targetFault x x.tpc.toNat = some k → ∃ t, exec .rft s = .next t ∧
      t.self.run = .halted (.nested (BitVec.ofNat 8 k)) ∧ t.self.hnd = true ∧ t.self.ls = x.ls ∧ t.fw = s.fw ++ [.nested s.cur (BitVec.ofNat 8 k)])

/-- R33, both directions. -/
def Obligations.LoopStackSurvivesTheHandler : Prop :=
  (∀ (s : State) (cause tval : Nat), let x := s.self
    x.hnd = false → plainCtx x → targetFault x x.tvec.toNat = none → x.ls.length ≤ 4 →
    ∃ t, s.trap cause tval = .next t ∧ t.self.ls = [] ∧ t.self.slsd.toNat = x.ls.length ∧
      (∀ k, k < x.ls.length → [t.self.lss0, t.self.lss1, t.self.lss2, t.self.lss3][k]? = x.ls[k]?) ∧ savedStack t.self = x.ls) ∧
  (∀ s : State, let x := s.self
    x.hnd = true → targetFault x x.tpc.toNat = none →
    ∃ t, exec .rft s = .next t ∧ t.self.ls = savedStack x ∧ t.self.ls.length = min 4 x.slsd.toNat)

namespace Sys2Proof.Claims

/-- The rational number that a finite value stands for. -/
def ratOf : Val → Option ℚ
  | .fin neg m e => some ((if neg then -1 else 1) * (m : ℚ) * (2 : ℚ) ^ e)
  | _ => none

/-- Little-endian numbers (R9). -/
def little (bs : List Byte) : Nat := bs.foldr (fun b v => b.toNat + 256 * v) 0
/-- Bytes of memory from a place on. -/
def bytesAt (s : State) (p n : Nat) : List Byte := (List.range n).map fun k => s.readByte (p + k)
/-- What a load of bytes gives: their number, sign- or zero-extended (R111, R115). -/
def loaded (zext : Bool) (bs : List Byte) : Word :=
  let v := little bs
  let w := 8 * bs.length
  if zext = true ∨ v < 2 ^ (w - 1) then BitVec.ofNat 64 v else BitVec.ofInt 64 ((v : Int) - 2 ^ w)
/-- Byte k of a register (R111). -/
def byteOf (v : Word) (k : Nat) : Byte := BitVec.ofNat 8 (v.toNat / 256 ^ k)
/-- No register has an injection armed (R425). -/
def unarmed (s : State) : Prop := ∀ e ∈ s.errs, e.2.einj.getLsbD 0 = false
/-- No write to a replicated line is under way (R323). -/
def quiet (s : State) : Prop := ∀ a ∈ s.accs, a.committed = false

/-- The bytes and the latency of node space and field space (R21). -/
def bytesOfSpace : LSpace → Nat | .node => 0x100000 | .field => 0x800000
def latencyOf : LSpace → Nat | .node => 4 | .field => 18

/-- The accesses that go through a landing register: kind, whether device virtual, address, size, stream, acquire, release, register
(R113, R118, R121, R126, R127). -/
def globalOf (s : State) : Instr → Option (AccKind × Bool × Nat × Nat × GStream × Bool × Bool × LReg)
  | .gld sp sz z acq ln b off g => some (.load z, sp == .virt, (s.reg b + off).toNat, 2 ^ sz.toNat, g, acq, false, ln)
  | .gst sp sz rel ln rs b off g =>
    some (.store ((List.range (2 ^ sz.toNat)).map (byteOf (s.reg rs))), sp == .virt, (s.reg b + off).toNat, 2 ^ sz.toNat, g, false, rel, ln)
  | .gldi sp sz z ln b off g => some (.inv z, sp == .virt, (s.reg b + off).toNat, 2 ^ sz.toNat, g, false, false, ln)
  | .amo sp op w64 ord ln rd b off g =>
    let n := if w64 then 8 else 4
    some (.amo op ((s.reg rd).toNat % 256 ^ n) (s.self.modefp.getLsbD 0) (s.self.modefp.getLsbD 1) s.self.ord, sp == .virt,
      (s.reg b + off.signExtend 64).toNat, n, g, ord.getLsbD 0, ord.getLsbD 1, ln)
  | .cas sp w64 ord ln rd b off g =>
    let n := if w64 then 8 else 4
    some (.cas ((s.reg rd).toNat % 256 ^ n) ((s.reg (rd + 1)).toNat % 256 ^ n), sp == .virt, (s.reg b + off).toNat, n, g,
      ord.getLsbD 0, ord.getLsbD 1, ln)
  | .hld sp h ln b off g => some (.hload h, sp == .virt, (s.reg b + off).toNat, 64, g, false, false, ln)
  | .hst sp h ln b off g => some (.store (natLe 64 (s.self.shape h)), sp == .virt, (s.reg b + off).toNat, 64, g, false, false, ln)
  | .mdld sp m ln b off g => some (.mload m, sp == .virt, (s.reg b + off).toNat, 128, g, false, false, ln)
  | _ => none

/-- Whether an instruction writes where it accesses (R114). -/
def writesThere : AccKind → Bool | .store _ => true | .amo .. => true | .cas .. => true | _ => false

/-- The fault of an access, the checks of R114 in order. -/
def faultOfAccess (s : State) (virt : Bool) (k : AccKind) (a n : Nat) : Option Nat :=
  if a % n ≠ 0 then some 0x0A
  else if virt then
    (if 2 ^ 56 ≤ a then some 0x09
     else match s.self.extentOf a with
      | none => some 0x09
      | some e => if writesThere k ∧ e.w = false then some 0x09 else none)
  else if (s.part s.self.pid).z ≤ a then some 0x09 else none

/-- The new value of a location under an atomic on `w` bits, the floating-point sum apart (R118, R119). -/
def amoNew (op : AmoOp) (w old v : Nat) : Option Nat :=
  let sg := fun x => if x < 2 ^ (w - 1) then (x : Int) else (x : Int) - 2 ^ w
  match op with
  | .add => some ((old + v) % 2 ^ w)
  | .and => some (Nat.land old v)
  | .or => some (Nat.lor old v)
  | .xor => some (Nat.xor old v)
  | .min => some (if sg v ≤ sg old then v else old)
  | .max => some (if sg v < sg old then old else v)
  | .minu => some (if old < v then old else v)
  | .maxu => some (if old < v then v else old)
  | .swap => some v
  | .fadd => none

/-- What an access writes, given the bytes it read, when its kind is a store, an atomic or a CAS other than a floating-point sum. -/
def writtenBy (k : AccKind) (n : Nat) (old : List Byte) : Option (List Byte) :=
  match k with
  | .store v => some v
  | .amo op v _ _ _ => (amoNew op (8 * n) (little old) v).map fun x => natLe n x
  | .cas c v => if little old = c then some (natLe n v) else none
  | _ => none

end Sys2Proof.Claims

/-- R21 and R111, with the latencies of R23 and the limit of R25, and the mark of corrupt data that a load carries (R392). -/
def Obligations.SpaceAccessesCheckLoadAndStore : Prop :=
  ∀ (s : State) (sp : LSpace) (sz : BitVec 2) (z : Bool) (rd rs base : Reg) (off : Word),
    let a := (s.reg base + off).toNat
    let n := 2 ^ sz.toNat
    let p := s.spaceBase sp + a
    (a % n ≠ 0 → exec (.ld sp sz z rd base off) s = s.trap 0x0A a ∧ exec (.st sp sz rs base off) s = s.trap 0x0A a) ∧
    (a % n = 0 → bytesOfSpace sp < a + n →
      exec (.ld sp sz z rd base off) s = s.trap 0x09 a ∧ exec (.st sp sz rs base off) s = s.trap 0x09 a) ∧
    (a % n = 0 → a + n ≤ bytesOfSpace sp →
      (4 ≤ s.self.inFlight → exec (.ld sp sz z rd base off) s = s.trap 0x07 4) ∧
      (s.self.inFlight < 4 → s.ownView.poisoned p n = none → ∃ u, nopLeaves s u ∧ exec (.ld sp sz z rd base off) s =
        .next (s.setSelf { u with flight := u.flight ++ [⟨.s rd, loaded z (bytesAt s.ownView p n), s.self.cyc + latencyOf sp, true, none, s.self.cyc⟩] })) ∧
      (s.self.inFlight < 4 → s.ownView.poisoned p n ≠ none → ∃ r u v, nopLeaves r u ∧ r = { s with errs := r.errs, freeCtr := r.freeCtr } ∧
        exec (.ld sp sz z rd base off) s =
          .next (r.setSelf { u with flight := u.flight ++ [⟨.s rd, v, s.self.cyc + latencyOf sp, true, some a, s.self.cyc⟩] })) ∧
      (∃ u, nopLeaves s u ∧ exec (.st sp sz rs base off) s =
        .next ({ s with fresh := s.fresh ++ [(s.cur, p, (List.range n).map (byteOf (s.reg rs)))] }.setSelf u)))

/-- R34 to R36 and R112. That a PUSH to a read-only overflow extent, and a POP whose overflow address breaks R114, raise the fault of R114 is
log 54 (DEDUCED). -/
def Obligations.SpillStackPushesAndPops : Prop :=
  ∀ (s : State) (rs : Reg) (ln : LReg), let x := s.self
    (x.spd.toNat = 2 ^ 32 - 1 → exec (.push rs) s = s.trap 0x0F x.spd.toNat) ∧
    (x.spd.toNat = 0 → exec (.pop ln) s = s.trap 0x0F 0) ∧
    (x.spd.toNat < 2 ^ 32 - 1 → x.spd.toNat < (x.spillLim - x.spillBase) / 8 → ∃ u, nopLeaves s u ∧
      exec (.push rs) s = .next ({ s with fresh := s.fresh ++ [(s.cur, nodeBase s.pan + x.spillBase + 8 * x.spd.toNat,
        (List.range 8).map (byteOf (s.reg rs)))] }.setSelf { u with spd := x.spd + 1 })) ∧
    (x.spd.toNat < 2 ^ 32 - 1 → (x.spillLim - x.spillBase) / 8 ≤ x.spd.toNat →
      (x.extentOf x.ovfPtr.toNat = none → exec (.push rs) s = s.trap 0x0F x.spd.toNat) ∧
      (∀ e, x.extentOf x.ovfPtr.toNat = some e → e.w = false → exec (.push rs) s = s.trap 0x09 x.ovfPtr.toNat) ∧
      (∀ e, x.extentOf x.ovfPtr.toNat = some e → e.w = true → ∃ t A, exec (.push rs) s = .next t ∧ t.accs = s.accs ++ [A] ∧
        A.kind = .store ((List.range 8).map (byteOf (s.reg rs))) ∧ A.addr = x.ovfPtr.setWidth 64 ∧ A.n = 8 ∧ A.stream = 3 ∧
        t.self.spd = x.spd + 1 ∧ t.self.ovfPtr = x.ovfPtr + 8 ∧ t.mem = s.mem)) ∧
    (0 < x.spd.toNat → x.spd.toNat - 1 < (x.spillLim - x.spillBase) / 8 → nothingDue x → ∃ t, exec (.pop ln) s = .next t ∧
      t.self.spd = x.spd - 1 ∧ (t.self.landing ln).pending = true ∧ (t.self.landing ln).full = false ∧ t.mem = s.mem ∧
      ∃ f, t.self.flight = x.flight ++ [f] ∧ f.dst = .l ln s.nextId ∧ f.due = x.cyc + 4 ∧
        f.val = loaded true (bytesAt s.ownView (nodeBase s.pan + x.spillBase + 8 * (x.spd.toNat - 1)) 8) ∧
        f.poison = (if s.ownView.poisoned (nodeBase s.pan + x.spillBase + 8 * (x.spd.toNat - 1)) 8 = none then none
          else some (x.spillBase + 8 * (x.spd.toNat - 1)))) ∧
    (0 < x.spd.toNat → (x.spillLim - x.spillBase) / 8 ≤ x.spd.toNat - 1 → ∀ k,
      faultOfAccess s true (.load true) (x.ovfPtr - 8).toNat 8 = some k → exec (.pop ln) s = s.trap k (x.ovfPtr - 8).toNat) ∧
    (0 < x.spd.toNat → (x.spillLim - x.spillBase) / 8 ≤ x.spd.toNat - 1 →
      faultOfAccess s true (.load true) (x.ovfPtr - 8).toNat 8 = none → ∃ t A, exec (.pop ln) s = .next t ∧ t.accs = s.accs ++ [A] ∧
        A.kind = .load true ∧ A.addr = (x.ovfPtr - 8).setWidth 64 ∧ A.n = 8 ∧ A.stream = 3 ∧ A.ln = some ln ∧
        t.self.spd = x.spd - 1 ∧ t.self.ovfPtr = x.ovfPtr - 8 ∧ t.mem = s.mem)

/-- R114 to R121 and R126 to R128 at issue, with the order of R333. That the checks of R114 come before the timing fault of a pending shape
register is log 55 (DESIGN CHOICE). -/
def Obligations.GlobalAccessesIssueOrFault : Prop :=
  ∀ (s : State) (i : Instr) (k : AccKind) (virt : Bool) (a n : Nat) (g : GStream) (acq rel : Bool) (ln : LReg),
    globalOf s i = some (k, virt, a, n, g, acq, rel, ln) →
    (∀ c, faultOfAccess s virt k a n = some c → exec i s = s.trap c a) ∧
    (faultOfAccess s virt k a n = none → ∀ sp h l b o q, i = .hst sp h l b o q → Kv.get 0 s.self.hpend h.toNat ≠ 0 → exec i s = s.trap 0x07 h.toNat) ∧
    (faultOfAccess s virt k a n = none → (∀ sp h l b o q, i = .hst sp h l b o q → Kv.get 0 s.self.hpend h.toNat = 0) →
      ∃ t A, exec i s = .next t ∧ t.accs = s.accs ++ [A] ∧ A.kind = k ∧ A.ctx = s.cur ∧ A.addr = BitVec.ofNat 64 a ∧ A.n = n ∧
        A.virt = virt ∧ A.stream = g ∧ A.acq = acq ∧ A.rel = rel ∧ A.ln = some ln ∧ A.id = s.nextId ∧ A.committed = false ∧
        A.loc = s.locate s.self virt a ∧ t.nextId = s.nextId + 1 ∧ s.cycle + 40 ≤ A.ready ∧
        (∀ b ∈ s.accs, b.ctx = s.cur → (rel = true ∨ b.stream = g ∨ b.acq = true ∨ b.overlaps A.loc n = true) → b.id ∈ A.deps) ∧
        (∀ d ∈ s.self.heldAll, d ∈ A.deps) ∧
        t = { s with accs := t.accs, ctxs := t.ctxs, nextId := t.nextId, latencies := t.latencies, metas := t.metas } ∧
        (nothingDue s.self → s.self.occ = 0 → 
          t.self = { s.self with pc := t.self.pc, ls := t.self.ls, hold := none, cyc := s.self.cyc + 1, hpend := t.self.hpend,
                                 l := Kv.set {} s.self.l ln.toNat { pending := true, acc := s.nextId } }))

/-- R26, R27, R115 to R121, R127 and R128 at the place where an access is performed, the reader's own copy of a replicated page (R318); a write
to a replicated page and an ordered sum have their own statement. Corrupt data land with their mark (R392), and a line buffer answers a GLDI that
it holds (R325). -/
def Obligations.AccessesPerformAndLand : Prop :=
  ∀ (s : State) (a : Acc), Inv s → s.acc a.id = some a → s.accReady a = true →
    (a.loc.rep = true → writesThere a.kind = false) → (∀ v fin fres, a.kind ≠ .amo .fadd v fin fres true) →
    let die := dieOf (panOf a.ctx)
    let p := if a.loc.rep = true then a.loc.pa / 2 ^ 39 * 2 ^ 39 + die * 2 ^ 36 + a.loc.pa % 2 ^ 36 else a.loc.pa
    s.lineLocked die p a.n = false →
    let x := s.ctx a.ctx
    let awaits := fun ln => a.ln = some ln ∧ (x.landing ln).pending = true ∧ (x.landing ln).acc = a.id
    let old := bytesAt s p a.n
    (a.loc.dev = s.ownDev.toNat → s.scrub = [] → (∀ z, a.kind = .inv z → s.bufferOf a = none) →
      (match a.kind with | .store v => v.length = a.n | .msg .. => False | .occ _ => False | _ => True) →
      (s.poisoned p a.n = none → (s.part x.pid).dlog = false → unarmed s → 0 < a.n → ∃ t, exec (.landingArrival a.id none) s = .next t ∧
        t.accs = s.accs.filter (fun b => b.id != a.id) ∧
        (∀ q, q < p ∨ p + a.n ≤ q → t.readByte q = s.readByte q) ∧
        ((∀ v fin fres o, a.kind ≠ .amo .fadd v fin fres o) → ∀ k, k < a.n → t.readByte (p + k) =
          (match writtenBy a.kind a.n old with | some bs => bs.getD k 0 | none => s.readByte (p + k))) ∧
        (∀ v fin fres o, a.kind = .amo .fadd v fin fres o → a.n = 4 → ∃ w, bytesAt t p 4 = natLe 4 (binary32.encode (flush32 fin fres) .rne w) ∧
          ∀ y z, ratOf (binary32.decode (flush32 fin fres) (little old)) = some y → ratOf (binary32.decode (flush32 fin fres) v) = some z →
            ratOf w = some (y + z)) ∧
        (let x' := match a.kind with
            | .hload h => if Kv.get 0 x.hpend h.toNat = a.id then { x.setShape h (little old) with hpend := Kv.set 0 x.hpend h.toNat 0 } else x
            | _ => x
          ∀ ln, awaits ln → t.ctx a.ctx = x'.setLanding ln { full := true, val := (match a.kind with
            | .load z => loaded z old | .inv z => loaded z old | .amo .. => loaded false old | .cas .. => loaded false old | _ => 0) }) ∧
        ((∀ h, a.kind ≠ .hload h) → (∀ ln, a.ln = some ln → (x.landing ln).acc ≠ a.id) → t.ctxs = s.ctxs) ∧
        (Kv.wf ({} : Meta) s.metas = true → ∀ m, a.kind = .mload m → let key := 16 * panOf a.ctx + m.toNat
          ((Kv.get {} s.metas key).acc = a.id → (Kv.get {} t.metas key).v = little old ∧ (Kv.get {} t.metas key).valid = true) ∧
          ((Kv.get {} s.metas key).acc ≠ a.id → t.metas = s.metas)) ∧
        (∀ z, a.kind = .inv z → ∃ b ∈ t.lineBufs, b.mdie = die ∧ b.pid = x.pid ∧ b.task = x.task ∧ b.tenant = x.tenant ∧ b.dev = a.loc.dev ∧
          b.line = p / 128 ∧ b.bytes = bytesAt s (p / 128 * 128) 128)) ∧
      (s.poisoned p a.n ≠ none → (match a.kind with | .load _ => True | .amo .. => True | .cas .. => True | _ => False) →
        ∃ t, exec (.landingArrival a.id none) s = .next t ∧ t.mem = s.mem ∧ t.accs = s.accs.filter (fun b => b.id != a.id) ∧
          ∀ ln, awaits ln → (t.ctx a.ctx).landing ln = { full := true, val := ((t.ctx a.ctx).landing ln).val, poison := some a.addr })) ∧
    (∀ z b, a.kind = .inv z → s.bufferOf a = some b → b.bad = [] → b.bytes.length = 128 → a.loc.pa % 128 + a.n ≤ 128 →
      ∃ t, exec (.landingArrival a.id none) s = .next t ∧ t.mem = s.mem ∧ t.accs = s.accs.filter (fun b => b.id != a.id) ∧
        ∀ ln, awaits ln → t.ctx a.ctx = x.setLanding ln { full := true, val := loaded z ((b.bytes.drop (a.loc.pa % 128)).take a.n) })

/-- R28 and R117, with the poison of R392. R123 and R124. The scope narrows towards other agents only, which one order of performed accesses satisfies (log 5). -/
def Obligations.LandingRegistersAndFences : Prop :=
  (∀ (s : State) (rd : Reg) (ln : LReg), let l := s.self.landing ln
    (l.full = true → l.poison = none → ∃ t, exec (.mvl rd ln) s = .next (s.setSelf t) ∧ (nothingDue s.self → s.self.occ = 0 →
      t = (({ s.self with pc := t.pc, ls := t.ls, hold := none, cyc := s.self.cyc + 1 } : Ctx).setLanding ln { l with full := false }).setReg rd l.val)) ∧
    (l.full = true → ∀ a, l.poison = some a → exec (.mvl rd ln) s = s.trap 0x12 a.toNat) ∧
    (l.full = false → l.pending = true → ∃ t, exec (.mvl rd ln) s = .next (s.setSelf t) ∧ t.pc = s.self.pc ∧ t.hold.isSome = true ∧
      t.cyc = s.self.cyc + 1) ∧
    (l.full = false → l.pending = false → exec (.mvl rd ln) s = s.trap 0x07 ln.toNat) ∧
    (∃ u, nopLeaves s u ∧ exec (.tstl rd ln) s =
      .next (s.setSelf (u.setReg rd ((if l.full then 1 else 0) + (if l.pending then 2 else 0)))))) ∧
  (∀ (s : State) (sc : Scope) (m : BitVec 4),
    let named := s.accs.filter fun a => a.ctx == s.cur && m.getLsbD a.stream.toNat
    (∃ u, nopLeaves s u ∧ exec (.fence .full sc m) s = .next (s.setSelf { u with heldAll := s.self.heldAll ++ named.map (·.id) })) ∧
    (∃ u, nopLeaves s u ∧ exec (.fence .acq sc m) s =
      .next (s.setSelf { u with heldAll := s.self.heldAll ++ (named.filter fun a => a.kind.loads).map (·.id) })) ∧
    (∃ u, nopLeaves s u ∧ exec (.fence .rel sc m) s = .next (s.setSelf { u with heldStores := s.self.heldStores ++ named.map (·.id) })) ∧
    ((∀ a ∈ s.accs, a.ctx = s.cur → m.getLsbD a.stream.toNat = false) → ∃ u, nopLeaves s u ∧ exec (.sbar sc m) s = .next (s.setSelf u)) ∧
    ((∃ a ∈ s.accs, a.ctx = s.cur ∧ m.getLsbD a.stream.toNat = true ∧ a.id < s.nextId) →
      ∃ u, exec (.sbar sc m) s = .next (s.setSelf u) ∧ u.pc = s.self.pc ∧ u.hold.isSome = true ∧ u.cyc = s.self.cyc + 1) ∧
    (m = 0 → ∃ u, nopLeaves s u ∧ exec (.sbar sc m) s = .next (s.setSelf u) ∧ exec (.fence .full sc m) s = .next (s.setSelf u)))

/-- R128 to R130. The timing fault of a pending register comes before the shape overflow fault (log 55, DESIGN CHOICE). -/
def Obligations.ShapeFieldsReadAndWrite : Prop :=
  ∀ (s : State) (rd ra rb : Reg),
    let h : HReg := (s.reg ra).extractLsb' 0 4
    let sel := ((s.reg ra).extractLsb' 8 5).toNat
    let x := s.self
    let read := fun (v k : Nat) => (shapeField k).map fun f => fieldValue v f.1 f.2.1 f.2.2
    (x.shapePending h = true → exec (.hget rd ra) s = s.trap 0x07 h.toNat ∧ exec (.hset rd ra rb) s = s.trap 0x07 h.toNat) ∧
    (x.shapePending h = false → sel = 7 → exec (.hget rd ra) s = s.trap 0x0B (s.reg ra).toNat ∧ exec (.hset rd ra rb) s = s.trap 0x0B (s.reg ra).toNat) ∧
    (x.shapePending h = false → sel ≠ 7 → ∃ u v, nopLeaves s u ∧ read (x.shape h) sel = some v ∧
      exec (.hget rd ra) s = .next (s.setSelf (u.setReg rd v)) ∧
      ((∀ w, read w sel ≠ some (s.reg rb)) → exec (.hset rd ra rb) s = s.trap 0x0B (s.reg rb).toNat) ∧
      ((∃ w, read w sel = some (s.reg rb)) → Kv.wf (0 : Nat) x.h = true → ∃ y, exec (.hset rd ra rb) s = .next (s.setSelf (({ u with h := y } : Ctx).setReg rd v)) ∧
        (∀ g : HReg, g ≠ h → Kv.get 0 y g.toNat = Kv.get 0 x.h g.toNat) ∧
        ∀ k, k < 32 → k ≠ 7 → read (Kv.get 0 y h.toNat) k = if k = sel then some (s.reg rb) else read (x.shape h) k))

namespace Sys2Proof.Claims

/-- The system registers that R18 lists, with their maps (R19, R20, R39), as a context shows them; RO halves included. -/
def sysRegister (s : State) (x : Ctx) (n : Nat) : Option Word :=
  let w := fun (v : Nat) => BitVec.ofNat 64 v
  let bit := fun (c : Bool) => if c then 1 else 0
  let keep := fun (v lo hi : Nat) => v % 2 ^ (hi + 1) / 2 ^ lo * 2 ^ lo
  let loops := [x.lss0, x.lss1, x.lss2, x.lss3]
  let ys := [x.y0, x.y1, x.y2, x.y3]
  let left := fun (y : Replay) => match y.due with | some d => d - x.cyc | none => y.cnt.toNat
  let diesBelow := ((List.range (dieOf s.pan)).filter fun d => (s.part x.pid).fset.extractLsb' (6 * d) 6 != 0).length
  if n = 0x000 then some (w (bit x.hnd + 2 * bit x.yreq + 4 * bit x.ord + 8 * x.ls.length + 2 ^ 8 * x.dgen.toNat + 2 ^ 32 * x.spd.toNat))
  else if n = 0x001 then some (w x.tvec.toNat)
  else if n = 0x002 then some (w (x.tcode.toNat + 2 ^ 8 * x.slsd.toNat))
  else if n = 0x003 then some (w x.tpc.toNat)
  else if n = 0x004 then some x.tval
  else if n = 0x005 then some (w x.modefp.toNat)
  else if n = 0x008 then some (w (keep x.spillBase 3 19))
  else if n = 0x009 then some (w (keep x.spillLim 3 20))
  else if n = 0x00A then some (w (keep x.ovfPtr.toNat 3 55))
  else if n = 0x010 then some (w x.task.toNat)
  else if n = 0x011 then some (w x.inst.toNat)
  else if n = 0x012 then some (w (s.pan % 16 + 2 ^ 16 * x.ridxPan.toNat))
  else if n = 0x013 then some (w (s.pan / 16 % 6 + 2 ^ 16 * x.ridxField.toNat))
  else if n = 0x014 then some (w (diesBelow + 2 ^ 16 * x.ridxDie.toNat))
  else if n = 0x018 then some (w x.grace.toNat)
  else if n = 0x019 then some (w x.kill.toNat)
  else if n = 0x01A then some (w x.prio.toNat)
  else if 0x020 ≤ n ∧ n ≤ 0x02B then
    (loops[(n - 0x020) / 3]?).map fun e =>
      if (n - 0x020) % 3 = 0 then w e.start.toNat else if (n - 0x020) % 3 = 1 then w e.stop.toNat else w e.count.toNat
  else if 0x040 ≤ n ∧ n ≤ 0x047 then
    (ys[(n - 0x040) / 2]?).map fun y =>
      if n % 2 = 0 then y.val else w (bit y.v + 2 * y.dst.toNat + 2 ^ 6 * (left y % 32) + 2 ^ 11 * bit y.hlt)
  else none

/-- The bits of a system register that SYSW writes (R18 to R20, R39, R136). -/
def sysMask (n : Nat) : Word :=
  if n = 0x000 then 4 else if n = 0x001 ∨ n = 0x003 then 0x00FFFFFFFFFFFFFF else if n = 0x002 then 0x7FF
  else if n = 0x004 then 0xFFFFFFFFFFFFFFFF else if n = 0x005 then 0x3F
  else if 0x020 ≤ n ∧ n ≤ 0x02B then (if (n - 0x020) % 3 = 2 then 0xFFFFFFFF else 0x00FFFFFFFFFFFFFF)
  else if 0x040 ≤ n ∧ n ≤ 0x047 then (if n % 2 = 0 then 0xFFFFFFFFFFFFFFFF else 0xFFF)
  else 0

/-- Results of latency above 1 under way to s registers, captured ones counted (R25). -/
def underWay (x : Ctx) : Nat :=
  (x.flight.filter fun f => f.long && (match f.dst with | .s _ => true | _ => false)).length + ([x.y0, x.y1, x.y2, x.y3].filter (·.v)).length +
    x.loose.length
/-- Whether a write of YCTLk adds a result to four or more under way: it sets a V that was clear, or one whose own count still runs. -/
def fifth (x : Ctx) (n : Nat) (v : Word) : Prop :=
  0x040 ≤ n ∧ n ≤ 0x047 ∧ n % 2 = 1 ∧ v.getLsbD 0 = true ∧ 4 ≤ underWay x ∧
    ∀ y, [x.y0, x.y1, x.y2, x.y3][(n - 0x040) / 2]? = some y → y.v = false ∨ y.due.isSome = true
/-- A replay register whose count runs, as it stands: a write of its YCTL leaves the landing untouched (R38, R136). -/
def running (x : Ctx) (k : Nat) : List Replay :=
  match [x.y0, x.y1, x.y2, x.y3][k]? with
  | some y => if y.v = true ∧ y.due.isSome = true then [y] else []
  | none => []

/-- Every result to an s register that was issued before has landed. -/
def allLanded (x : Ctx) : Prop :=
  (∀ f ∈ x.flight, ∀ r, f.dst ≠ .s r) ∧ x.loose = [] ∧ ∀ y ∈ [x.y0, x.y1, x.y2, x.y3], y.due = none

/-- The instruction that a context stands at. -/
def standsAt (x : Ctx) (i : Instr) : Prop := ∃ w, textAtPc x = some (.word w) ∧ decodeWord w = .ok i

/-- The instruction holds its context through this context cycle: the pc stays, and the state is otherwise `t`. -/
def holds (s t : State) (h : Hold) : Prop :=
  t.self.pc = s.self.pc ∧ t.self.hold = some h ∧ t.self.cyc = s.self.cyc + 1 ∧ t.self.run = s.self.run ∧ t.self.ls = s.self.ls

end Sys2Proof.Claims

/-- R18, R19, R20, R39 and R136. `passed` is what NopPasses says of the end of an instruction. That SYSW raises the timing fault where its
write of YCTL would make a fifth result under way is the model's reading of R25 (log 52, DEDUCED), and that the mark of corrupt data stays with
a rewritten replay register is log 69 (DESIGN CHOICE). -/
def Obligations.SystemRegistersReadAndWrite : Prop :=
  ∀ (s : State) (n : BitVec 12) (rd ra : Reg), let x := s.self
    (0x800 ≤ n.toNat → exec (.sysr rd n) s = s.trap 0x10 n.toNat ∧ exec (.sysw n ra) s = s.trap 0x10 n.toNat) ∧
    (n.toNat < 0x800 → sysRegister s x n.toNat = none →
      (∃ w, encodeWord (.sysr rd n) = some w ∧ exec (.sysr rd n) s = s.trap 0x01 (w.toNat / 2 ^ 32)) ∧
      ∃ w, encodeWord (.sysw n ra) = some w ∧ exec (.sysw n ra) s = s.trap 0x01 (w.toNat / 2 ^ 32)) ∧
    (∀ v, sysRegister s x n.toNat = some v →
      (∃ u, nopLeaves s u ∧ exec (.sysr rd n) s = .next (s.setSelf (u.setReg rd v))) ∧
      (fifth x n.toNat (s.reg ra) → exec (.sysw n ra) s = s.trap 0x07 4) ∧
      (¬ fifth x n.toNat (s.reg ra) → ∃ y : Ctx, exec (.sysw n ra) s = .next (s.setSelf y.passed) ∧
        (∀ k, sysRegister s y k = if k = n.toNat then some (v &&& ~~~(sysMask k) ||| s.reg ra &&& sysMask k) else sysRegister s x k) ∧
        y = { x with ord := y.ord, tvec := y.tvec, tcode := y.tcode, slsd := y.slsd, tpc := y.tpc, tval := y.tval, modefp := y.modefp,
                     lss0 := y.lss0, lss1 := y.lss1, lss2 := y.lss2, lss3 := y.lss3, y0 := y.y0, y1 := y.y1, y2 := y.y2, y3 := y.y3,
                     loose := y.loose } ∧
        y.loose = x.loose ++ (if n.toNat % 2 = 1 ∧ 0x040 ≤ n.toNat then running x ((n.toNat - 0x040) / 2) else []) ∧
        ∀ (k : Nat) (a b : Replay), [x.y0, x.y1, x.y2, x.y3][k]? = some a → [y.y0, y.y1, y.y2, y.y3][k]? = some b → b.poison = a.poison))

/-- R137, R140, R142. ECALL keeps s(RA) as it stood in the first cycle of its hold (R23, R97; log 26). Firmware policy itself is an input
(log 1). -/
def Obligations.ContextsStopForFirmware : Prop :=
  ∀ (s : State) (rd ra : Reg) (svc : BitVec 16) (tag : BitVec 32) (c : Nat) (v : Word), let x := s.self
    (allLanded x → ∃ t, exec .halt s = .next t ∧ t.fw = s.fw ++ [.halt s.cur x.task x.inst] ∧ t.self.run = .stop ∧ t.self.pc = x.pc ∧ t.self.ls = x.ls ∧
      t = { s with ctxs := t.ctxs, fw := t.fw } ∧
      (nothingDue x → x.occ = 0 → t.self = { x with run := .stop, hold := none, cyc := x.cyc + 1 })) ∧
    (¬ allLanded x → ∃ t h, exec .halt s = .next t ∧ holds s t h ∧ t = { s with ctxs := t.ctxs }) ∧
    ((s.ctx c).run = .stop → ∃ y, exec (.haltResume c true) s = .next (s.setCtx c y) ∧
      y = { s.ctx c with run := .running, pc := y.pc, ls := y.ls } ∧
      (y.pc, y.ls) = fallThrough (BitVec.ofNat 56 (s.ctx c).next) (s.ctx c).ls) ∧
    (∀ a : Word, (x.hold = none ∧ a = s.reg ra ∨ ∃ h, x.hold = some h ∧ h.stage = 0 ∧ a = h.val) →
      (allLanded x → ∃ t h, exec (.ecall rd ra svc) s = .next t ∧ holds s t h ∧ h.stage = 1 ∧
        t = { s with ctxs := t.ctxs, fw := s.fw ++ [.ecall s.cur svc a] }) ∧
      (¬ allLanded x → ∃ t h, exec (.ecall rd ra svc) s = .next t ∧ holds s t h ∧ h.stage = 0 ∧ h.val = a ∧ t = { s with ctxs := t.ctxs })) ∧
    (∀ h, x.hold = some h → h.stage = 1 → ∃ t, exec (.ecall rd ra svc) s = .next t ∧ holds s t h ∧ t = { s with ctxs := t.ctxs }) ∧
    (∀ h, (s.ctx c).hold = some h → h.stage = 1 → standsAt (s.ctx c) (.ecall rd ra svc) →
      exec (.ecallAnswer c v) s = .next (s.setCtx c { s.ctx c with hold := some { h with stage := 2, val := v } })) ∧
    (∀ h, x.hold = some h → h.stage = 2 → ∃ u, nopLeaves s u ∧ exec (.ecall rd ra svc) s = .next (s.setSelf (u.setReg rd h.val))) ∧
    exec (.ckpt tag) s = .next (({ s with fw := s.fw ++ [FwEvent.ckpt s.cur tag] } : State).setSelf ({ x with ckpt := tag } : Ctx).passed)

/-- R138. That the timeout is counted from the issue, and that an event beats a timeout of the same cycle, is log 48 (DEDUCED). -/
def Obligations.WaitsEndOnEventOrTimeout : Prop :=
  ∀ (s : State) (rd ra : Reg) (mask : BitVec 10), let x := s.self
    ∃ d : Word, d.toNat < 2 ^ 10 ∧
      (∀ k, k < 8 → d.getLsbD k = (mask.getLsbD k && (Kv.get {} x.l k).full)) ∧ d.getLsbD 9 = (mask.getLsbD 9 && x.yreq) ∧
      (mask.getLsbD 8 = false → d.getLsbD 8 = false) ∧
      (∀ y, s.task? x.ref = some y → (y.inboxLoc 0).dev = s.ownDev.toNat → (y.inboxLoc 0).rep = false → s.scrub = [] → mask.getLsbD 8 = true →
        (d.getLsbD 8 = true ↔ little (bytesAt s (y.inboxLoc 0).pa 8) ≠ little (bytesAt s ((y.inboxLoc 0).pa + 8) 8))) ∧
      (d ≠ 0 → ∃ u, nopLeaves s u ∧ exec (.waite rd ra mask) s = .next (s.setSelf (u.setReg rd d))) ∧
      (d = 0 → x.hold = none → ∃ t h, exec (.waite rd ra mask) s = .next t ∧ holds s t h ∧ h.since = x.cyc ∧ h.val = s.reg ra ∧
        t = { s with ctxs := t.ctxs }) ∧
      (d = 0 → ∀ h, x.hold = some h →
        (h.val ≠ 0 → h.val.toNat ≤ x.cyc - h.since → ∃ u, nopLeaves s u ∧ exec (.waite rd ra mask) s = .next (s.setSelf (u.setReg rd 0x400))) ∧
        (h.val = 0 ∨ x.cyc - h.since < h.val.toNat → ∃ t, exec (.waite rd ra mask) s = .next t ∧ holds s t h ∧ t = { s with ctxs := t.ctxs })) ∧
      (∀ h c, standsAt (s.ctx c) (.waite rd ra mask) → s.turn.head? = some c → (s.ctx c).run = .running → (s.ctx c).hold = some h → s.cur = c →
        (d ≠ 0 ∨ (h.val ≠ 0 ∧ h.val.toNat ≤ x.cyc - h.since) →
          exec (.waiteEnd c) s = exec (.waite rd ra mask) { s with turn := s.turn.tail }) ∧
        (d = 0 → (h.val = 0 ∨ x.cyc - h.since < h.val.toNat) → exec (.waiteEnd c) s = .next s))

/-- R41, R69, R70, R139 and R141: DICTLD expands the text that the context has read, FLUSHI reads it again. The base is read in the first
cycle of the hold (log 26), the order of the reads is log 5, the fault of a corrupt dictionary is log 10 (DEDUCED), and what FLUSHI expands
where the text cannot be read is log 53 (DESIGN CHOICE). -/
def Obligations.DictionaryAndTextAreExpandedAgain : Prop :=
  ∀ (s : State) (ra : Reg) (off : Word) (c : Nat), let x := s.self
    let a := ((match x.hold with | some h => h.val | none => s.reg ra) + off).toNat
    let inExtent := a + 4096 ≤ 2 ^ 56 ∧ (x.extentOf a).isSome = true ∧ (x.extentOf (a + 4095)).isSome = true
    let past := fun (lo n : Nat) => ∃ h, x.hold = some h ∧ h.stage = 1 ∧ h.since + 11 ≤ x.cyc ∧ h.upto ≤ s.cycle ∧ s.readFree false = true ∧
      s.linesFree lo n = true
    let pastText := past x.textBase (64 * x.textLines)
    let pastDict := past a 4096
    let d := s.touchVirt x (some (dieOf s.pan)) a 4096
    let f := s.touchVirt x (some (dieOf s.pan)) x.textBase (64 * x.textLines)
    (a % 64 ≠ 0 → exec (.dictld ra off) s = s.trap 0x0A a) ∧
    (a % 64 = 0 → ¬ inExtent → exec (.dictld ra off) s = s.trap 0x09 a) ∧
    (∀ i v, (i = .flushi ∧ v = 0) ∨ (i = .dictld ra off ∧ a % 64 = 0 ∧ inExtent ∧ v = s.reg ra) → x.hold = none →
      (allLanded x → ∃ t h, exec i s = .next t ∧ holds s t h ∧ h.stage = 1 ∧ h.since = x.cyc ∧ h.val = v ∧ s.cycle + 40 ≤ h.upto ∧
        t = { s with ctxs := t.ctxs, latencies := s.latencies.tail }) ∧
      (¬ allLanded x → ∃ t h, exec i s = .next t ∧ holds s t h ∧ h.stage = 0 ∧ h.since = x.cyc ∧ h.val = v ∧ t = { s with ctxs := t.ctxs })) ∧
    (∀ i h, i = .flushi ∨ (i = .dictld ra off ∧ a % 64 = 0 ∧ inExtent) → x.hold = some h → h.stage = 0 →
      (allLanded x → ∃ t, exec i s = .next t ∧ ∃ g, holds s t g ∧ g.stage = 1 ∧ g.since = h.since ∧ g.val = h.val ∧ s.cycle + 40 ≤ g.upto ∧
        t = { s with ctxs := t.ctxs, latencies := s.latencies.tail }) ∧
      (¬ allLanded x → ∃ t, exec i s = .next t ∧ holds s t h ∧ t = { s with ctxs := t.ctxs })) ∧
    (∀ i h, (i = .flushi ∧ ¬ pastText) ∨ (i = .dictld ra off ∧ a % 64 = 0 ∧ inExtent ∧ ¬ pastDict) → x.hold = some h → h.stage = 1 →
      ∃ t, exec i s = .next t ∧ holds s t h ∧ t = { s with ctxs := t.ctxs }) ∧
    (quiet s → d.ctxs = s.ctxs ∧ f.ctxs = s.ctxs ∧ (s.scrub = [] → d.mem = s.mem ∧ f.mem = s.mem)) ∧
    (pastText → quiet s → ∃ y : Ctx, exec .flushi s = .next (f.setSelf y.passed) ∧ y = { x with text := y.text, store := y.store, storeGen := x.dgen } ∧
      y.store = ({ x with text := y.text } : Ctx).expand.store ∧ y.text = (f.readLines x (dieOf s.pan) x.textBase x.textLines).1 ∧
      (∀ bs, f.readVirt x (dieOf s.pan) x.textBase (64 * x.textLines) = .bytes bs → y.text = bs)) ∧
    (a % 64 = 0 → inExtent → pastDict → quiet s →
      (∀ bs, d.readVirt x (dieOf s.pan) a 4096 = .bytes bs → ∃ y : Ctx, exec (.dictld ra off) s = .next (d.setSelf y.passed) ∧
        y = { x with dict := y.dict, dictAt := BitVec.ofNat 64 a, dgen := x.dgen + 1, store := y.store, storeGen := x.dgen + 1 } ∧
        y.dict.length = 256 ∧ (∀ k, k < 256 → y.dict.getD k 0 = little ((bs.drop (16 * k)).take 16)) ∧
        y.store = ({ x with dict := y.dict } : Ctx).expand.store ∧ y.text = x.text) ∧
      (∀ b, d.readVirt x (dieOf s.pan) a 4096 = .corrupt b → exec (.dictld ra off) s = d.trap 0x12 a)) ∧
    (s.turn.head? = some c → (s.ctx c).run = .running → s.cur = c →
      (pastText → standsAt (s.ctx c) .flushi → exec (.flushiComplete c) s = exec .flushi { s with turn := s.turn.tail }) ∧
      (pastDict → standsAt (s.ctx c) (.dictld ra off) → a % 64 = 0 → inExtent →
        exec (.dictldComplete c) s = exec (.dictld ra off) { s with turn := s.turn.tail }))

/-- R438, R441, R442, R444 and R293. -/
def Obligations.TideIsReadAndAwaited : Prop :=
  ∀ (s : State) (rd : Reg) (m : Word) (n : BitVec 8), let x := s.self
    let t := (s.domain (s.domOf s.pan)).t
    let tau := t - x.tb
    (∃ u, nopLeaves s u ∧ exec (.tider rd) s = .next (s.setSelf (u.setReg rd tau)) ∧ exec (.tiderRaw rd) s = .next (s.setSelf (u.setReg rd t))) ∧
    (x.hold = none → m.toNat ≤ tau.toNat → ∃ u, nopLeaves s u ∧ exec (.tidew rd m) s = .next (s.setSelf (u.setReg rd (0x8000000000000000 ||| (tau - m))))) ∧
    (x.hold = none → tau.toNat < m.toNat → ∃ q h, exec (.tidew rd m) s = .next q ∧ holds s q h ∧ q.self.mark = some m ∧ q.self.markDone = false ∧
      q = { s with ctxs := q.ctxs }) ∧
    (∀ h, x.hold = some h → x.markDone = true → exec (.tidew rd m) s = .next (s.setSelf
      ((({ x with mark := none, markDone := false, markStall := 0 } : Ctx).passed).setReg rd (BitVec.ofNat 64 x.markStall)))) ∧
    (∀ h, x.hold = some h → x.markDone = false → ∃ q, exec (.tidew rd m) s = .next q ∧ holds s q h ∧ q.self.mark = x.mark ∧ q = { s with ctxs := q.ctxs }) ∧
    (x.occ = 0 → exec (.phase n) s = .next (s.setSelf ({ x with phase := n } : Ctx).passed)) ∧
    (x.occ ≠ 0 → ∃ q, exec (.phase n) s = .next q ∧ q.self.phase = n ∧ q.self.occIssue = 1 ∧ q.self.occWait = 0 ∧ q.self.occOther = 0 ∧ q.self.occRows = 0)

namespace Sys2Proof.Claims

/-- The completion object in the memory of this device at a place (R349). -/
def objectAt (s : State) (p : Nat) : Obj :=
  let v := little (bytesAt s p 32)
  let f := fun (lo w : Nat) => v / 2 ^ lo % 2 ^ w
  { pend := f 0 56, st := min (f 56 2) 2, err := f 58 1 == 1, bar := f 59 1 == 1, exp := f 64 16, arr := f 80 16, code := f 96 16,
    gen := f 112 16, result := f 128 64, eadr := f 192 64 }

/-- The completion test that ends every update (R351). -/
def completed (o : Obj) : Obj :=
  if o.st = 1 ∧ o.pend = 0 ∧ o.exp ≤ o.arr then
    { o with gen := (o.gen + 1) % 65536, st := if o.bar then 1 else 2, arr := if o.bar then 0 else o.arr }
  else o
/-- A report (R352). -/
def reported (o : Obj) (code eadr : Nat) : Obj :=
  { o with code := max o.code code, err := o.err || decide (0x100 ≤ code), eadr := if code ≠ 0 ∧ o.err = false then eadr else o.eadr }
/-- An arming for n that fits (R354). -/
def armedFor (o : Obj) (n : Nat) : Obj :=
  if o.st = 1 then { o with pend := o.pend + n } else { o with pend := o.pend + n, st := 1, err := false, code := 0, eadr := 0 }
/-- The largest value of PEND. -/
def pendTop : Nat := 2 ^ 56 - 1

/-- A place in this device's memory on a page with one copy. -/
def plain (s : State) (l : Loc) : Prop := l.dev = s.ownDev.toNat ∧ l.rep = false
/-- Writes of a partition reach memory as they are: no line is left to scrub, no log is kept, no commit is under way and no injection
is armed (R323, R425, R428, R429). -/
def plainWrites (s : State) (pid : Nat) : Prop := s.scrub = [] ∧ (s.part pid).dlog = false ∧ quiet s ∧ unarmed s
/-- No byte of a range is poisoned (R392, R419). -/
def whole (s : State) (p n : Nat) : Prop := s.poisoned p n = none
/-- No byte changes but those of the listed ranges. -/
def onlyBytes (s t : State) (rs : List (Nat × Nat)) : Prop :=
  ∀ b, (∀ r ∈ rs, b < r.1 ∨ r.1 + r.2 ≤ b) → t.readByte b = s.readByte b
/-- Two ranges have no byte in common. -/
def apart (p n q m : Nat) : Prop := p + n ≤ q ∨ q + m ≤ p

/-- Whether a context is one of an instance of a task. -/
def ofInstance (x : Ctx) (task : TaskRef) (inst : BitVec 24) : Prop := x.run ≠ .free ∧ x.pid = task.pid ∧ x.task = task.id ∧ x.inst = inst

end Sys2Proof.Claims

/-- R131 and R278 to R281. The checks themselves are launchCheck, written from R279. s(RA) is read in the first cycle of the hold (log 26),
and a corrupt launch block raises 0x12 with TVAL the block's address (log 10, DEDUCED). That the full queue comes last of the checks is log 9
(DEDUCED). -/
def Obligations.LaunchTakesOrRefuses : Prop :=
  ∀ (s : State) (rd ra : Reg), let x := s.self
    (∀ a : Word, (x.hold = none ∧ a = s.reg ra ∨ ∃ h, x.hold = some h ∧ h.stage = 0 ∧ a = h.val) →
      (allLanded x → s.readFree true = true → ∃ t h, exec (.launch rd ra) s = .next t ∧ holds s t h ∧ h.stage = 1 ∧
        h.val = a ∧ s.cycle + 40 ≤ h.upto ∧ t = { s with ctxs := t.ctxs, latencies := s.latencies.tail }) ∧
      (¬ (allLanded x ∧ s.readFree true = true) →
        ∃ t h, exec (.launch rd ra) s = .next t ∧ holds s t h ∧ h.stage = 0 ∧ h.val = a ∧ t = { s with ctxs := t.ctxs })) ∧
    (∀ h, x.hold = some h → h.stage = 1 → s.cycle < h.upto → ∃ t, exec (.launch rd ra) s = .next t ∧ holds s t h ∧ t = { s with ctxs := t.ctxs }) ∧
    (∀ h, x.hold = some h → h.stage = 1 → h.upto ≤ s.cycle → let a := h.val.toNat
      (∀ k, faultOfAccess s true (.load true) a 256 = some k → exec (.launch rd ra) s = s.trap k a) ∧
      (faultOfAccess s true (.load true) a 256 = none →
        let r := s.touchVirt x (some (dieOf s.pan)) a 256
        (∀ b, r.readVirt x (dieOf s.pan) a 256 = .corrupt b → exec (.launch rd ra) s = r.trap 0x12 a) ∧
        (∀ bs, r.readVirt x (dieOf s.pan) a 256 = .bytes bs → let q := r.touchRecord x (some (dieOf s.pan)) bs
          (∀ k v, q.launchCheck x (dieOf s.pan) x.pid a bs = .fault k v → exec (.launch rd ra) s = q.trap k v) ∧
          (q.launchCheck x (dieOf s.pan) x.pid a bs = .full →
            ∃ u, nopLeaves q u ∧ exec (.launch rd ra) s = .next (q.setSelf (u.setReg rd 0))) ∧
          (quiet s → q.ctxs = s.ctxs ∧ q.tasks = s.tasks ∧ q.parts = s.parts) ∧
          (q.launchCheck x (dieOf s.pan) x.pid a bs = .take → quiet s → ∃ t u, exec (.launch rd ra) s = .next t ∧ nopLeaves s u ∧
            let id := t.lastTask x.pid
            let y := t.task ⟨x.pid, id⟩
            t.ctxs = (s.setSelf (u.setReg rd (id.setWidth 64))).ctxs ∧
            (s.lastTask x.pid + 1 ≠ 0 → s.taskLive ⟨x.pid, s.lastTask x.pid + 1⟩ = false → id = s.lastTask x.pid + 1) ∧
            ((lpbOf bs).count ≠ 0 →
              y.state = .unplaced ∧ y.count = (lpbOf bs).count ∧ y.lpb = bs ∧ y.pid = x.pid ∧ y.tenant = x.tenant ∧
              (t.part x.pid).queue = (s.part x.pid).queue ++ [id.toNat] ∧ t.fw = s.fw) ∧
            ((lpbOf bs).count = 0 → y.state = .exited ∧ t.fw = s.fw ++ [.taskExit ⟨x.pid, id⟩])))))

/-- R132, R284, R285 and the updates of R350 to R354. The checks of b before those of c, and the stream of the read, are log 71 (DESIGN
CHOICE); that the inbox is full by counts that do not wrap is log 40 (DEDUCED). -/
def Obligations.MessagesAreArmedAndDelivered : Prop :=
  ∀ s : State, Inv s →
    (∀ ra rb rc : Reg, let x := s.self; let b := (s.reg rb).toNat; let c := (s.reg rc).toNat; let l := s.locate x true c
      (∀ k, faultOfAccess s true (.load true) b 64 = some k → exec (.msg ra rb rc) s = s.trap k b) ∧
      (faultOfAccess s true (.load true) b 64 = none → ∀ k, faultOfAccess s true (.store []) c 64 = some k →
        exec (.msg ra rb rc) s = s.trap k c) ∧
      (faultOfAccess s true (.load true) b 64 = none → faultOfAccess s true (.store []) c 64 = none → plain s l → whole s l.pa 32 → plainWrites s x.pid →
        ((objectAt s l.pa).pend + 1 ≤ pendTop → ∃ t A u, exec (.msg ra rb rc) s = .next t ∧ nopLeaves s u ∧
          objectAt t l.pa = completed (armedFor (objectAt s l.pa) 1) ∧ onlyBytes s t [(l.pa, 32)] ∧ t.ctxs = (s.setSelf u).ctxs ∧
          t.accs = s.accs ++ [A] ∧ A.kind = .msg ((s.reg ra).extractLsb' 0 32) l ∧ A.addr = s.reg rb ∧ A.n = 64 ∧ A.rel = true ∧ A.stream = 0 ∧
          A.ctx = s.cur ∧ ∀ a ∈ s.accs, a.ctx = s.cur → a.id ∈ A.deps) ∧
        (pendTop < (objectAt s l.pa).pend + 1 → ∃ t u, exec (.msg ra rb rc) s = .next t ∧ nopLeaves s u ∧
          objectAt t l.pa = completed (reported (objectAt s l.pa) 0x0209 0) ∧ onlyBytes s t [(l.pa, 32)] ∧ t.accs = s.accs ∧
          t.ctxs = (s.setSelf u).ctxs))) ∧
    (∀ (a : Acc) (task : BitVec 32) (cpl : Loc), s.acc a.id = some a → a.kind = .msg task cpl → s.accReady a = true → plain s a.loc →
      plain s cpl → whole s cpl.pa 32 → plainWrites s (s.ctx a.ctx).pid → let dest : TaskRef := ⟨(s.ctx a.ctx).pid, task⟩
      ∃ t, exec (.msgDelivery a.id) s = .next t ∧
        t.accs = s.accs.filter (fun b => b.id != a.id) ∧ t.ctxs = s.ctxs ∧
        let outcome := fun code => completed { reported (objectAt s cpl.pa) code 0 with pend := (objectAt s cpl.pa).pend - 1 }
        (s.taskLive dest = false → objectAt t cpl.pa = outcome 0x0101 ∧ onlyBytes s t [(cpl.pa, 32)]) ∧
        (∀ y, s.task? dest = some y → y.state ≠ .exited → plain s (y.inboxLoc 0) → plainWrites s y.pid →
          let h := (y.inboxLoc 0).pa
          let w := little (bytesAt s h 8)
          let slot := y.inboxLoc (w % y.inboxSlots + 1)
          apart cpl.pa 32 h 24 →
          (w < little (bytesAt s (h + 8) 8) + y.inboxSlots → w + 1 < 2 ^ 64 → plain s slot → apart slot.pa 64 h 24 → apart slot.pa 64 cpl.pa 32 →
            a.n = 64 → objectAt t cpl.pa = outcome 0 ∧ bytesAt t slot.pa 64 = bytesAt s a.loc.pa 64 ∧ little (bytesAt t h 8) = w + 1 ∧
            onlyBytes s t [(slot.pa, 64), (h, 8), (cpl.pa, 32)]) ∧
          (little (bytesAt s (h + 8) 8) + y.inboxSlots ≤ w → objectAt t cpl.pa = outcome 0x0102 ∧
            little (bytesAt t (h + 20) 4) = min 0xFFFFFFFF (little (bytesAt s (h + 20) 4) + 1) ∧ onlyBytes s t [(h + 20, 4), (cpl.pa, 32)])))

/-- R294 and R295, with the states of R283. -/
def Obligations.YieldAndExitHandTheContextOver : Prop :=
  ∀ (s : State) (rd ra : Reg), let x := s.self
    (x.yreq = false → ∃ u, nopLeaves s u ∧ exec (.yield rd) s = .next (s.setSelf (u.setReg rd 0))) ∧
    (s.runsOf s.cur = [] → x.body = none → x.occ = 0 →
      (x.yreq = true → allLanded x → ∃ t, exec (.yield rd) s = .next t ∧ t.self.run = .halted .yield ∧ (rd ≠ 0 → t.self.reg rd = 1) ∧
        (t.self.pc, t.self.ls) = fallThrough (BitVec.ofNat 56 x.next) x.ls ∧ t.self.hold = none ∧ t.fw = s.fw ++ [.soft s.cur] ∧ t.mem = s.mem) ∧
      (x.yreq = true → ¬ allLanded x → ∃ t h, exec (.yield rd) s = .next t ∧ holds s t h ∧ t = { s with ctxs := t.ctxs }) ∧
      (¬ allLanded x → ∃ t h, exec (.exit ra) s = .next t ∧ holds s t h ∧ t = { s with ctxs := t.ctxs }) ∧
      (x.hold = none → allLanded x → (∀ k ∈ s.cmds, k.ctx ≠ s.cur) → s.writesOf s.cur = [] → s.moreInstances s.cur = false →
        Kv.wf ({} : Ctx) s.ctxs = true → Kv.wf ({} : Task) s.tasks = true → Kv.wf ({} : Inst) (s.task x.ref).insts = true →
        Kv.wf (0 : Nat) ((s.task x.ref).inst x.inst).left = true → ∃ t, exec (.exit ra) s = .next t ∧ t.self = {} ∧ (∀ c, c ≠ s.cur → t.ctx c = s.ctx c) ∧
        let code := (s.reg ra).toNat % 65536
        let T := s.task x.ref
        let n := T.inst x.inst
        let T' := t.task x.ref
        let left := (T'.inst x.inst).left
        let exits := Kv.set 0 n.exits x.denseIdx (code + 1)
        ((s.task? x.ref).isSome = true → Kv.get 0 left (s.domOf s.pan) = s.cycle) ∧
        (exits.length < x.regionSize → t.mem = s.mem ∧ T' =
          { T.setInst x.inst { n with exits := exits, code := max n.code code, left := left } with
            state := if T.state = .exited then .exited else t.placeOf x.ref }) ∧
        (x.regionSize ≤ exits.length → n.retired = false → T.state ≠ .exited →
          T'.inst x.inst = { n with exits := exits, code := max n.code code, retired := true, left := left } ∧ T'.count = T.count - 1 ∧
          T'.state = (if T.count ≤ 1 then .exited else t.placeOf x.ref) ∧ (T.count ≤ 1 → FwEvent.taskExit x.ref ∈ t.fw) ∧
          (plain s T.cpl → whole s T.cpl.pa 32 → plainWrites s T.pid → Inv s → n.code < 65536 →
            objectAt t T.cpl.pa = completed 
              { objectAt s T.cpl.pa with
                code := max (objectAt s T.cpl.pa).code (max n.code code)
                pend := (objectAt s T.cpl.pa).pend - 1 }))))

/-- R137, R282, R286, R295, R316; the start tide of a resumption (R459) makes a record bad too. -/
def Obligations.FirmwareEndsAndBindsInstances : Prop :=
  ∀ (s : State) (task : TaskRef) (inst : BitVec 24) (pan : Nat) (idx : BitVec 4) (r : BindRec) (die : BitVec 3) (extp : BitVec 48) (c : Nat),
    (s.taskLive task = true → inst.toNat < (s.task task).info.count → Kv.wf ({} : Ctx) s.ctxs = true →
      ∃ t, exec (.instanceEnd task inst) s = .next t ∧ ((t.task task).inst inst).retired = true ∧
        (∀ q, ofInstance (s.ctx q) task inst → (t.ctx q).run = .free ∨ (t.ctx q).run = .exited)) ∧
    ((s.ctx c).run = .stop → s.taskLive (s.ctx c).ref = true → (s.ctx c).inst.toNat < (s.task (s.ctx c).ref).info.count →
      exec (.haltResume c false) s = exec (.instanceEnd (s.ctx c).ref (s.ctx c).inst) s) ∧
    (r.v = true → ∃ t, exec (.bindRecordWrite pan idx r) s = .next t ∧ t = { s with slotTab := t.slotTab } ∧
      (t.record pan idx.toNat).r = r ∧ (t.record pan idx.toNat).taken = false ∧ (t.record pan idx.toNat).cur = r.ifirst ∧
      ((t.record pan idx.toNat).bad = true ↔
        (r.ifirst ≠ r.ilast ∧ (s.recLpb pan r).region ≠ 1) ∨ r.slots = 0 ∨ r.ilast.toNat < r.ifirst.toNat ∨ (r.res = true ∧ r.start.toNat % 8 ≠ 0)) ∧
      (Kv.wf ({ r := noRec } : SlotRec) s.slotTab = true → ∀ p k, k < 16 → (p ≠ pan ∨ k ≠ idx.toNat) → t.record p k = s.record p k)) ∧
    (s.taskLive task = true → let T := s.task task
      let r := s.touchWalks T.tenant.toNat (T.info.ext.flatMap fun d => (List.range ((d.stop - d.base) / 65536)).map fun k => d.base + k * 65536)
      r.ctxs = s.ctxs ∧ (s.scrub = [] → r.mem = s.mem) ∧
      (∀ es, r.buildExtents T.tenant.toNat die.toNat T.info.ext = .ok es →
        ∃ t, exec (.translatorBuild task die extp) s = .next t ∧ (die.toNat, extp.toNat, es) ∈ (t.task task).built ∧
          (t.task task).state = T.state ∧ t.ctxs = s.ctxs) ∧
      (∀ slot va, r.buildExtents T.tenant.toNat die.toNat T.info.ext = .error (slot, va) →
        ∃ t, exec (.translatorBuild task die extp) s = .next t ∧ FwEvent.translation task slot (BitVec.ofNat 64 va) ∈ t.fw ∧
          (T.state ≠ .running → (t.task task).state = .exited) ∧ (T.state = .running → (t.task task).state = .running) ∧
          (quiet s → t.ctxs = s.ctxs)))

namespace Sys2Proof.Claims

/-- TVAL of a block refusal with no element, row or operand to name (R166): the reason in the low byte. -/
def reasonOnly (reason : Nat) : Nat := refusal0 reason

/-- The elements of a cross product of columns and rows (R59, R215). -/
def inCross (cols rows : BitVec 16) (e : Nat) : Prop := e < 256 ∧ cols.getLsbD (e % 16) = true ∧ rows.getLsbD (e / 16) = true

/-- The body words that write one part of every element of a cross product, and what they write (R214 to R216, R223). -/
def elementPart (o : OpenBody) (b : Block) : Instr → Option (BitVec 16 × BitVec 16 × (ElemCfg → ElemCfg))
  | .fuse _ _ cols rows fcw => some (cols, rows, fun c => { c with fcw := fcw })
  | .route .lo _ _ cols rows v => some (cols, rows, fun c => { c with route := c.route.extractLsb' 32 32 ++ v })
  | .route .hi _ _ cols rows v => some (cols, rows, fun c => { c with route := v ++ c.route.extractLsb' 0 32 })
  | .route .dly _ _ cols rows v => some (cols, rows, fun c => { c with dly := v.setWidth 16 })
  | .fuseLive _ _ em tm j => o.last.map fun q =>
      (q.1, q.2, fun c => { c with rows := Kv.set {} c.rows j.toNat { Kv.get {} c.rows j.toNat with elive := em, tlive := tm } })
  | .bodyRowWord w =>
    if b.f.toNat ≤ w.idx.toNat ∧ w.idx.toNat < b.f.toNat + b.ii.toNat then
      some (w.cols, w.rows, fun c => { c with rows := Kv.set {} c.rows w.idx.toNat { Kv.get {} c.rows w.idx.toNat with ent := w.ent } })
    else none
  | _ => none

/-- The mask and identifier that a body word repeats; a row word carries none (R207). -/
def repeats : Instr → Option (BitVec 8 × BitVec 12)
  | .fuse m id .. => some (m, id) | .fuseLive m id .. => some (m, id) | .route _ m id .. => some (m, id)
  | .bind m id _ => some (m, id) | .nest m id _ => some (m, id) | .bend m id _ => some (m, id) | _ => none

/-- The instruction that goes on at the next one and changes the context to `y` and the state to `t` beside it. -/
def goesOn (i : Instr) (s t : State) (y : Ctx) : Prop := exec i s = .next (t.setSelf y.passed)

/-- The elements of the issuing pan, and their lanes, are listed in the one canonical form. -/
def tidyElems (s : State) : Prop := Kv.wf ({} : Elem) s.elems = true ∧ ∀ e, Kv.wf ({} : Lane) (s.elem s.pan e).t = true

/-- The low 64 bits of a word: the payload of a configuration word (R207). -/
def payloadOf (i : Instr) (v : Nat) : Prop := ∃ w, encodeWord i = some w ∧ v = w.toNat % 2 ^ 64

end Sys2Proof.Claims

/-- R66, R168, R169, R207, R211, R212 and R224. The checks are bendCheck, the checksum is Block.checksum. A BLK inside an open body is a
misplaced word, whose TPC is its own address (R66): for it R66 goes before R209, which has a trap in an open body resume at the body's BLK
(log 23, DEDUCED). -/
def Obligations.BodiesOpenAndAreChecked : Prop :=
  ∀ (s : State) (clr : Bool) (m : BitVec 8) (id : BitVec 12) (ewin : BitVec 32) (twin : BitVec 8) (ii : BitVec 6) (f : BitVec 5) (crc : BitVec 32),
    let x := s.self
    let blk := Instr.blk clr m id ewin twin ii f
    let bend := Instr.bend m id crc
    (x.body.isSome = true → ∃ w, encodeWord blk = some w ∧ exec blk s = .next (s.enterTrap s.cur 0x04 (w.toNat / 2 ^ 32) x.pc.toNat)) ∧
    (x.body = none → s.stampBusy m = true → exec blk s = s.trap 0x05 (reasonOnly 0x04)) ∧
    (x.body = none → s.stampBusy m = false → ∃ t, goesOn blk s t { x with body := some ⟨m, id, x.pc, none, none, []⟩ } ∧
      t = { s with shadow := t.shadow } ∧
      (Kv.wf ({} : Block) s.shadow = true → let a := s.activeBlk s.pan m; let kept := (clr = false ∧ a.live = true);
        t.shadowBlk s.pan m = { (if kept then a else {}) with
          elems := (t.shadowBlk s.pan m).elems, live := false, id := id, clr := clr, ewin := ewin, twin := twin, ii := ii, f := f, stampN := 0, stampBase := 0,
          stampStep := 0, stampOstep := 0, owner := s.cur, copy := 0, blkPc := x.pc } ∧
        (¬ kept → (t.shadowBlk s.pan m).elems = []) ∧
        (kept → Kv.wf ({} : ElemCfg) a.elems = true → ∀ e, let p := Kv.get {} (t.shadowBlk s.pan m).elems e; let q := Kv.get {} a.elems e
          p.fcw = q.fcw ∧ p.route = q.route ∧ p.dly = q.dly ∧
          (Kv.wf ({} : RowCfg) q.rows = true → ∀ j, p.row j = if a.f.toNat ≤ j ∧ j < a.f.toNat + a.ii.toNat then q.row j else {})))) ∧
    (x.body = none → ∃ w, encodeWord bend = some w ∧ exec bend s = .next (s.enterTrap s.cur 0x04 (w.toNat / 2 ^ 32) x.pc.toNat)) ∧
    (∀ o, x.body = some o →
      let since := match x.hold with | some h => h.since | none => x.cyc
      let b := s.shadowBlk s.pan o.mask
      (x.cyc < since + 5 → since ≤ x.cyc → ∃ t h, exec bend s = .next t ∧ holds s t h ∧ h.since = since ∧ t = { s with ctxs := t.ctxs }) ∧
      (since + 5 ≤ x.cyc → b.checksum o.mask ≠ crc.toNat → exec bend s = s.trap 0x06 (b.checksum o.mask)) ∧
      (since + 5 ≤ x.cyc → b.checksum o.mask = crc.toNat → ∃ d, (m = o.mask → id = o.id → d = o.defect) ∧ (m ≠ o.mask ∨ id ≠ o.id → d.isSome = true) ∧
        (∀ v, s.bendCheck s.cur s.pan o.mask b 0 o.named d = some v → exec bend s = s.trap 0x05 v) ∧
        (s.bendCheck s.cur s.pan o.mask b 0 o.named d = none →
          goesOn bend s (s.setShadow s.pan o.mask { b with live := true }) { x with body := none })))

/-- R66, R207, R213 to R216, R220, R222 and R223. A liveness word with a row index outside the block's rows is dropped with no
refusal (log 77, DESIGN CHOICE). -/
def Obligations.BodyWordsWriteTheShadowBlock : Prop :=
  ∀ (s : State) (i : Instr), let x := s.self
    (∀ w, inBody i = true → x.body = none → encodeWord i = some w → exec i s = .next (s.enterTrap s.cur 0x04 (w.toNat / 2 ^ 32) x.pc.toNat)) ∧
    (∀ o, x.body = some o → let b := s.shadowBlk s.pan o.mask
      (inBody i = true → (∀ m id crc, i ≠ .bend m id crc) → ∃ b' o', goesOn i s (s.setShadow s.pan o.mask b') { x with body := some o' } ∧
        o'.mask = o.mask ∧ o'.id = o.id ∧ o'.pc = o.pc ∧
        (∀ m id, repeats i = some (m, id) → (m = o.mask ∧ id = o.id) ∨ o'.defect.isSome = true) ∧
        (∀ w, i = .bodyRowWord w → o'.last = some (w.cols, w.rows)) ∧
        ((∃ w, i = .bodyRowWord w) ∨ (∃ m id em tm j, i = .fuseLive m id em tm j) → elementPart o b i = none → o'.defect.isSome = true ∧ b' = b) ∧
        (∀ cols rows g, elementPart o b i = some (cols, rows, g) → b' = { b with elems := b'.elems } ∧
          (Kv.wf ({} : ElemCfg) b.elems = true → ∀ e, (inCross cols rows e → Kv.get {} b'.elems e = g (Kv.get {} b.elems e)) ∧
            (¬ inCross cols rows e → Kv.get {} b'.elems e = Kv.get {} b.elems e))) ∧
        (∀ m id k j base sz dp ctr dir clr, i = .bind m id (.node k j base sz dp ctr dir clr) → ∃ v, payloadOf i v ∧
          b' = { b with nodeB := Kv.set 0 b.nodeB (8 * k.toNat + j.toNat) (v / 128 * 128 + 1), nodeX := Kv.set 0 b.nodeX (8 * k.toNat + j.toNat) ctr.toNat }) ∧
        (∀ m id c base sz dp ctr dir clr, i = .bind m id (.conc c base sz dp ctr dir clr) → ∃ v, payloadOf i v ∧
          b' = { b with concB := Kv.set 0 b.concB c.toNat (v / 16 * 16 + 1), concX := Kv.set 0 b.concX c.toNat ctr.toNat }) ∧
        (∀ m id q rv dp sd g fs, i = .bind m id (.stream q rv dp sd g fs) → ∃ v, payloadOf i v ∧
          b' = { b with strB := Kv.set 0 b.strB q.toNat (v / 16 * 16 + 1) }) ∧
        (∀ m id k j ctr, i = .bind m id (.expectNode k j ctr) → b' = { b with nodeX := Kv.set 0 b.nodeX (8 * k.toNat + j.toNat) ctr.toNat } ∧
          8 * k.toNat + j.toNat ∈ o'.named) ∧
        (∀ m id c ctr, i = .bind m id (.expectConc c ctr) → b' = { b with concX := Kv.set 0 b.concX c.toNat ctr.toNat } ∧ 128 + c.toNat ∈ o'.named) ∧
        (∀ m id v, i = .nest m id (.counts v) → b' = { b with nest := v }) ∧
        (∀ m id rows sg, i = .nest m id (.stage rows sg) → b' = { b with stages := b'.stages } ∧
          (Kv.wf (0 : Nat) b.stages = true → ∀ j, Kv.get 0 b'.stages j =
            if rows.getLsbD j = true ∧ b.f.toNat ≤ j ∧ j < b.f.toNat + b.ii.toNat then sg.toNat else Kv.get 0 b.stages j))))

/-- R171, R173, R174, R225 and R226. BSTAMP takes the whole time that R174 allows (log 24, DESIGN CHOICE). -/
def Obligations.BlocksStampAndStart : Prop :=
  ∀ (s : State) (m : BitVec 8) (id : BitVec 12) (n : BitVec 6) (base step ostep : BitVec 16) (off : BitVec 24), let x := s.self
    let b := s.shadowBlk s.pan m
    let stamp := Instr.bstamp m id n base step ostep
    let go := Instr.bgo m id off
    (b.live = false ∨ b.id ≠ id → exec stamp s = s.trap 0x05 (reasonOnly 0x0B) ∧ exec go s = s.trap 0x05 (reasonOnly 0x0B)) ∧
    (b.live = true → b.id = id →
      (x.hold = none → ∃ t h, exec stamp s = .next t ∧ holds s t h ∧ h.since = x.cyc ∧ t = { s with ctxs := t.ctxs }) ∧
      (∀ h, x.hold = some h → h.since + 127 + 2 * (n.toNat - 1) ≤ x.cyc →
        let b' := { b with stampN := n.toNat, stampBase := base, stampStep := step, stampOstep := ostep }
        let u := s.dropCopies s.cur m
        (∀ v, u.stampCheck s.cur m b' n.toNat = some v →
          exec stamp s = .next ((u.dropShadow s.pan m).enterTrap s.cur 0x05 v b.blkPc.toNat)) ∧
        (u.stampCheck s.cur m b' n.toNat = none → ∃ t, goesOn stamp s t x ∧ t = { s with shadow := t.shadow } ∧
          ∀ k p, k < n.toNat → s.copyPan s.cur k = some p → (∀ j, j < n.toNat → j ≠ k → s.copyPan s.cur j ≠ some p) →
            t.shadowBlk p m = { b' with copy := k })) ∧
      (b.stampN ≤ 1 → s.copies s.pan m = [s.pan] →
        (s.flipReady m s.pan = false → ∃ t h, exec go s = .next t ∧ holds s t h ∧ t = { s with ctxs := t.ctxs }) ∧
        (s.flipReady m s.pan = true → ∃ t, goesOn go s t x ∧ t.activeBlk s.pan m = b ∧ t.mem = s.mem ∧ t.elems = s.elems ∧ t.ctxs = s.ctxs ∧
          t.accs = s.accs ∧ t.cmds = s.cmds ∧ t.runOf s.pan m =
            { live := true, ctx := s.cur, home := s.pan, copy := 0, iter := b.stampBase.signExtend 32, start := s.kc s.pan m + 3 + off.toNat, stopped := false,
              faulted := false, flip := s.cycle })))

/-- R170, R227, R228 and R233. -/
def Obligations.BlocksDrainAndAreReleased : Prop :=
  ∀ (s : State) (m tm : BitVec 8), let x := s.self
    let b := s.activeBlk s.pan m
    let pans := s.copies s.pan m
    let drained := fun p => (s.runOf p m).live = false ∨
      (s.finished (blkKey p m) = true ∨ s.lastQuiet (blkKey p m) = true) ∧ s.pendingResults m p = false ∧ s.pendingWrites m p = false
    let ready := fun p => s.finished (blkKey p m) = true ∧ s.pendingResults m p = false ∧ s.lanesBusy p (s.activeBlk p m).twin = false
    let cleared := fun (l : Lane) => ({ l with l := 0, ovf := false, nan := false, valid := false, dirty := false } : Lane)
    ((∀ p ∈ pans, drained p) → goesOn (.bdrain m) s s x) ∧
    (¬ (∀ p ∈ pans, drained p) → ∃ t h, exec (.bdrain m) s = .next t ∧ holds s t h ∧ t = { s with ctxs := t.ctxs }) ∧
    (b.live = false → goesOn (.brel m) s s x ∧ goesOn (.tdisc m tm) s s x) ∧
    (b.live = true →
      (¬ (∀ p ∈ pans, ready p) → ∃ t h, exec (.brel m) s = .next t ∧ holds s t h ∧ t = { s with ctxs := t.ctxs }) ∧
      ((∀ p ∈ pans, ready p) →
        (∀ v, s.dirtyFault m pans = some v → exec (.brel m) s = s.trap 0x0C v) ∧
        (s.dirtyFault m pans = none → Kv.wf ({} : BlkRun) s.runs = true → tidyElems s → ∃ t, goesOn (.brel m) s t x ∧
          (∀ p ∈ pans, (t.runOf p m).live = false) ∧ t.mem = s.mem ∧ t.ctxs = s.ctxs ∧
          (pans = [s.pan] → ∀ e k, e < 256 →
            (t.elem s.pan e).lane k = (if b.twin.getLsbD k.toNat then cleared ((s.elem s.pan e).lane k) else (s.elem s.pan e).lane k) ∧
            (t.elem s.pan e).e = (s.elem s.pan e).e))) ∧
      ((∃ p ∈ pans, s.lanesBusy p (tm &&& b.twin) = true) → ∃ t h, exec (.tdisc m tm) s = .next t ∧ holds s t h ∧ t = { s with ctxs := t.ctxs }) ∧
      ((∀ p ∈ pans, s.lanesBusy p (tm &&& b.twin) = false) → tidyElems s → ∃ t, goesOn (.tdisc m tm) s t x ∧
        t = { s with elems := t.elems } ∧
        (pans = [s.pan] → ∀ p e k, e < 256 → (t.elem p e).e = (s.elem p e).e ∧ (t.elem p e).lane k =
          if p = s.pan ∧ tm.getLsbD k.toNat = true ∧ b.twin.getLsbD k.toNat = true then cleared ((s.elem p e).lane k) else (s.elem p e).lane k)))

/-- R230 to R232. trdDesc lays out the descriptor and trdFault makes the checks. The node's bytes are read in the last cycle of
the hold (log 78, DESIGN CHOICE). -/
def Obligations.TablesLoadAndLanesAreReadOut : Prop :=
  ∀ (s : State) (addr desc : BitVec 20) (i16 : Bool) (m : BitVec 8) (k : BitVec 3), let x := s.self
    (∀ i n align len, (i = .gtab addr ∧ n = 64 ∧ align = 64 ∧ len = 5) ∨ (i = .vtab true addr ∧ n = 130 ∧ align = 2 ∧ len = 7) ∨
        (i = .vtab false addr ∧ n = 260 ∧ align = 4 ∧ len = 9) →
      let p := nodeBase s.pan + addr.toNat
      let v := little (bytesAt s.ownView p n)
      (addr.toNat % align ≠ 0 → exec i s = s.trap 0x0A addr.toNat) ∧
      (addr.toNat % align = 0 → 0x100000 < addr.toNat + n → exec i s = s.trap 0x09 addr.toNat) ∧
      (addr.toNat % align = 0 → addr.toNat + n ≤ 0x100000 → ∀ q, s.ownView.poisoned p n = some q →
        exec i s = (s.logPoison q (cidOf (BitVec.ofNat 8 x.pid))).trap 0x12 addr.toNat) ∧
      (addr.toNat % align = 0 → addr.toNat + n ≤ 0x100000 → s.ownView.poisoned p n = none →
        (x.hold = none → ∃ t h, exec i s = .next t ∧ holds s t h ∧ h.since = x.cyc ∧ t = { s with ctxs := t.ctxs }) ∧
        (∀ h, x.hold = some h → h.since + len ≤ x.cyc + 1 → ∃ t, goesOn i s t x ∧ t = { s with tables := t.tables } ∧
          ((i = .gtab addr → Kv.get {} t.tables s.pan = { Kv.get {} s.tables s.pan with gS := v, gNew := true }) ∧
            (i = .vtab i16 addr → Kv.get {} t.tables s.pan = { Kv.get {} s.tables s.pan with vS := v, vNew := true, i16S := i16 }))))) ∧
    (let d := trdDesc (little (bytesAt s.ownView (nodeBase s.pan + desc.toNat) 32))
     let lanes := d.els.map fun e => (s.elem s.pan e).lane k
     let busy := fun (e : Nat) => s.laneBusy s.pan e k = true ∨ s.laneIssues s.pan e k = true
     (∀ h, x.hold = some h → h.stage = 1 →
       (x.cyc < h.upto → ∃ t, exec (.trd m k desc) s = .next t ∧ holds s t h ∧ t = { s with ctxs := t.ctxs }) ∧
       (h.upto ≤ x.cyc → goesOn (.trd m k desc) s { s with fresh := s.fresh ++ [(s.cur, nodeBase s.pan + h.val.toNat, h.data)] } x)) ∧
     ((x.hold = none ∨ ∃ h, x.hold = some h ∧ h.stage = 0) → (∀ c v, s.trdFault m k desc.toNat d = some (c, v) → exec (.trd m k desc) s = s.trap c v) ∧
       (s.trdFault m k desc.toNat d = none →
         ((∃ e ∈ d.els, busy e) → ∃ t h, exec (.trd m k desc) s = .next t ∧ holds s t h ∧ h.stage = 0 ∧ t = { s with ctxs := t.ctxs }) ∧
         ((∀ e ∈ d.els, ¬ busy e) → tidyElems s → ∃ t h, exec (.trd m k desc) s = .next t ∧ holds s t h ∧
           h.stage = 1 ∧ h.upto = x.cyc + 7 + (d.els.length * d.width + 511) / 512 ∧ h.val.toNat = d.dest ∧
           little h.data = packList d.width (lanes.map (d.value x.modefp)) % 256 ^ d.bytes ∧ h.data.length = d.bytes ∧
           t = { s with ctxs := t.ctxs, elems := t.elems } ∧
           ∀ p e q, e < 256 → (t.elem p e).lane q = (if p = s.pan ∧ e ∈ d.els ∧ q = k then { (s.elem p e).lane q with dirty := false } else (s.elem p e).lane q)))))

namespace Sys2Proof.Claims

/-- The element that issues a row. -/
def issuer (s : State) : Elem := s.elem s.site.pan s.site.elem

/-- A 32-bit source of a row (R62, R234). -/
def source32 (s : State) (i : Imm) : Src → BitVec 32
  | .e k => Kv.get 0 (issuer s).e k.toNat
  | .lane t => BitVec.ofNat 32 ((Kv.get {} (issuer s).t t.toNat).l).toNat
  | .port p => BitVec.ofNat 32 (s.portVal p).toNat
  | .imm => if i.s = true then BitVec.ofInt 32 i.v.toInt else BitVec.ofNat 32 i.v.toNat
  | .zero => 0
/-- A source of 64 and of 128 bits (R243, R260). -/
def source64 (s : State) (i : Imm) : Src → BitVec 64
  | .lane t => (Kv.get {} (issuer s).t t.toNat).l
  | .port p => BitVec.ofNat 64 (s.portVal p).toNat
  | a => BitVec.ofNat 64 (source32 s i a).toNat
def source128 (s : State) (i : Imm) : Src → BitVec 128
  | .port p => s.portVal p
  | a => BitVec.ofNat 128 (source64 s i a).toNat

/-- The row issues in its element with one result in flight, to land `lat` kernel cycles later; destination 0x3F discards it (R158, R234). -/
def enqueues (s t : State) (d : Dst) (v : EVal) (lat : Nat) : Prop :=
  (d = .none → t = s) ∧
  (d ≠ .none → t = { s with elems := t.elems } ∧
    issuer t = { issuer s with flight := (issuer s).flight ++ [⟨s.site.mask, s.site.kc + lat, d, v, decide (1 < lat), (s.runOf s.site.pan s.site.mask).start⟩] } ∧
    ∀ k, k ≠ 256 * s.site.pan + s.site.elem → Kv.get {} t.elems k = Kv.get {} s.elems k)

/-- A 32-bit result as its destination takes it (R234). -/
def placed (signed : Bool) (d : Dst) (v : BitVec 32) : EVal :=
  match d with
  | .lane _ => if signed then .bits (BitVec.ofNat 128 (v.signExtend 64).toNat) else .bits (BitVec.ofNat 128 v.toNat)
  | _ => .bits (BitVec.ofNat 128 v.toNat)

/-- The integer rows, HDR and ITER: destination, result, latency, and whether a lane takes it as a signed integer (R235, R246, R247). -/
def integerRow (s : State) : Instr → Option (Dst × BitVec 32 × Nat × Bool) :=
  let z := fun i a => (source32 s i a).toInt
  let n := fun i a => (source32 s i a).toNat
  let r := fun (d : Dst) (v : Int) (lat : Nat) => some (d, BitVec.ofInt 32 v, lat, true)
  fun
  | .iadd d a b i => r d (z i a + z i b) 1
  | .isub d a b i => r d (z i a - z i b) 1
  | .imul d a b i => r d (z i a * z i b) 2
  | .imac d a b c i => r d (z i a * z i b + z i c) 2
  | .iand d a b i => r d (Nat.land (n i a) (n i b)) 1
  | .ior d a b i => r d (Nat.lor (n i a) (n i b)) 1
  | .ixor d a b i => r d (Nat.xor (n i a) (n i b)) 1
  | .ishl d a b i => r d (n i a * 2 ^ (n i b % 32)) 1
  | .ishr d a b i => r d (n i a / 2 ^ (n i b % 32) : Nat) 1
  | .isar d a b i => r d (z i a / 2 ^ (n i b % 32)) 1
  | .imin u d a b i => r d (if u then (min (n i a) (n i b) : Nat) else min (z i a) (z i b)) 1
  | .imax u d a b i => r d (if u then (max (n i a) (n i b) : Nat) else max (z i a) (z i b)) 1
  | .icmp c d a b i => r d (if (match c with
      | .eq => z i a = z i b | .ne => z i a ≠ z i b | .lt => z i a < z i b | .ge => z i b ≤ z i a
      | .ltu => n i a < n i b | .geu => n i b ≤ n i a : Bool) then 1 else 0) 1
  | .isel d a b c i => r d (if z i c ≠ 0 then z i a else z i b) 1
  | .iabs d a i => r d (z i a).natAbs 1
  | .iclz d a i => r d (if n i a = 0 then 32 else 31 - Nat.log2 (n i a) : Nat) 1
  | .hdr d a b i => some (d, BitVec.ofNat 32 (n i a % 65536 + n i b % 65536 * 65536), 1, false)
  | .iter d sel =>
    let b := s.activeBlk s.site.pan s.site.mask
    let cnt := fun (j : Nat) => b.nest.toNat / 65536 ^ j % 65536 + 1
    let i := s.site.iter
    match sel.toNat with
    | 0 => some (d, (s.runOf s.site.pan s.site.mask).iter, 1, true)
    | 1 => r d s.site.copy 1
    | 2 => r d (i % cnt 0 : Nat) 1
    | 3 => r d (i / cnt 0 % cnt 1 : Nat) 1
    | 4 => r d (i / (cnt 0 * cnt 1) % cnt 2 : Nat) 1
    | 5 => r d (i / (cnt 0 * cnt 1 * cnt 2) % cnt 3 : Nat) 1
    | 6 => r d s.site.window 1
    | _ => none
  | _ => none

/-- A floating-point operand: the low bits of its source as a code of the format, read under the sampled MODEFP (R194, R196, R234). -/
def operandOf (s : State) (f : FloatFmt) (a : Src) : Val := f.decode s.site.modefp ((source32 s noImm a).toNat % 2 ^ f.width)

/-- The floating-point rows whose result is an exact value rounded once: destination, format, rounding mode, exact value and latency
(R236, R237, R239, R242). -/
def floatRow (s : State) : Instr → Option (Dst × FloatFmt × RM × Val × Nat)
  | .fadd f rm d a b => some (d, fmtOf f, rm, (operandOf s (fmtOf f) a).add rm (operandOf s (fmtOf f) b), 3)
  | .fsub f rm d a b => some (d, fmtOf f, rm, (operandOf s (fmtOf f) a).add rm (operandOf s (fmtOf f) b).neg, 3)
  | .fmul f rm d a b => some (d, fmtOf f, rm, (operandOf s (fmtOf f) a).mul (operandOf s (fmtOf f) b), 5)
  | .ffma f rm d a b c =>
    some (d, fmtOf f, rm, ((operandOf s (fmtOf f) a).mul (operandOf s (fmtOf f) b)).add rm (operandOf s (fmtOf f) c), 6)
  | .fmin f d a b => some (d, fmtOf f, .rne, (operandOf s (fmtOf f) a).min2 (operandOf s (fmtOf f) b), 1)
  | .fmax f d a b => some (d, fmtOf f, .rne, (operandOf s (fmtOf f) a).max2 (operandOf s (fmtOf f) b), 1)
  | .fabs f d a => some (d, fmtOf f, .rne, (operandOf s (fmtOf f) a).abs, 1)
  | .frint f rm d a => some (d, fmtOf f, rm, (operandOf s (fmtOf f) a).rint rm, 2)
  | .fexpf d a => some (d, binary32, .rne, (operandOf s binary32 a).expf, 6)
  | .frcp f rm d a => some (d, fmtOf f, rm, (operandOf s (fmtOf f) a).recip, 8)
  | .frsq f rm d a => some (d, fmtOf f, rm, (operandOf s (fmtOf f) a).rsqrt, 8)
  | .fdot2 bf rm d a b c =>
    let f := if bf then bfloat16 else binary16
    let half := fun (x : Src) (k : Nat) => f.decode s.site.modefp ((source32 s noImm x).toNat / 65536 ^ k % 65536)
    some (d, binary32, rm, dot2 rm (half a 0) (half b 0) (half a 1) (half b 1) (operandOf s binary32 c), 6)
  | _ => none

/-- The rows on codes: destination, result and latency (R237, R238, R240, R241). -/
def codeRow (s : State) : Instr → Option (Dst × Nat × Nat)
  | .fcmp f c d a b =>
    let x := operandOf s (fmtOf f) a
    let y := operandOf s (fmtOf f) b
    let some' := !(x.isNan || y.isNan)
    some (d, if (match c with | .eq => some' && !x.lt y && !y.lt x | .lt => some' && x.lt y | .le => some' && !y.lt x | .un => !some') then 1 else 0, 1)
  | .fclass f d a => some (d, classMask (fmtOf f) s.site.modefp ((source32 s noImm a).toNat % 2 ^ (fmtOf f).width), 1)
  | .fexpins rm d a b => some (d, expins s.site.modefp rm (operandOf s binary32 a) (operandOf s binary32 b), 2)
  | .fcvt rm sf df d a => some (d, convert (cvtMem sf) (cvtMem df) s.site.modefp rm (source32 s noImm a).toNat, 2)
  | _ => none

/-- A rational number rounded to an integer in a mode (R190, R192). -/
def roundTo (rm : RM) (x : ℚ) : Int :=
  match rm with
  | .rtz => if 0 ≤ x then ⌊x⌋ else ⌈x⌉
  | .rup => ⌈x⌉
  | .rdn => ⌊x⌋
  | .rne => if x - ⌊x⌋ < 1 / 2 ∨ (x - ⌊x⌋ = 1 / 2 ∧ ⌊x⌋ % 2 = 0) then ⌊x⌋ else ⌊x⌋ + 1
  | .rna => if 0 ≤ x then ⌊x + 1 / 2⌋ else ⌈x - 1 / 2⌉
def clampTo (lo hi n : Int) : Int := max lo (min hi n)

/-- The floating-point formats of rows and memory (R183, R184, R187). -/
def formats : List FloatFmt := [binary32, binary16, bfloat16, fp8e4m3, fp8e5m2, mxe2m3, mxe3m2, mxe2m1]
/-- The magnitude of a code without its sign. -/
noncomputable def magnitudeOf (f : FloatFmt) (k : Nat) : ℝ := ((ratOf (f.decodeRaw k)).getD 0 : ℚ)
def signOf (f : FloatFmt) (neg : Bool) : Nat := if neg then 2 ^ (f.width - 1) else 0

/-- The magnitude code that a positive number `x` with a sign rounds to in a mode, once (R190, R191): between the codes `k` and `k + 1` around
it in range; beyond the largest finite magnitude, infinity or the largest code. -/
def roundsTo (f : FloatFmt) (rm : RM) (neg : Bool) (x : ℝ) (code : Nat) : Prop :=
  let top := f.maxCode
  let mag := magnitudeOf f
  ∃ j, code = signOf f neg + j ∧
    (x ≤ mag top → ∃ k, k ≤ top ∧ mag k ≤ x ∧ (k < top → x < mag (k + 1)) ∧ (x = mag k → j = k) ∧
      (x ≠ mag k → (j = k ∨ j = k + 1) ∧ (match rm with
        | .rtz => j = k
        | .rup => (j = k ↔ neg = true)
        | .rdn => (j = k ↔ neg = false)
        | .rne => (2 * x < mag k + mag (k + 1) → j = k) ∧ (mag k + mag (k + 1) < 2 * x → j = k + 1) ∧
            (2 * x = mag k + mag (k + 1) → j % 2 = 0)
        | .rna => (j = k ↔ 2 * x < mag k + mag (k + 1))))) ∧
    (mag top < x → if f.sp = .ieee then
        (match rm with
          | .rtz => j = top
          | .rup => j = if neg then top else top + 1
          | .rdn => j = if neg then top + 1 else top
          | _ => (2 * x < 3 * mag top - mag (top - 1) → j = top) ∧ (3 * mag top - mag (top - 1) ≤ 2 * x → j = top + 1))
      else j = top)

end Sys2Proof.Claims

/-- R234 to R242, R246 and R247 at issue. What the exact values and codes are, ExactValuesAndTheirCodes says; where results go, ElementResultsLandAndLeave. -/
def Obligations.ArithmeticRowsEmitTheirResults : Prop :=
  ∀ (s : State) (i : Instr),
    (∀ d v lat signed, integerRow s i = some (d, v, lat, signed) → ∃ t, exec i s = .next t ∧ enqueues s t d (placed signed d v) lat) ∧
    (∀ d f rm v lat, floatRow s i = some (d, f, rm, v, lat) →
      ∃ t, exec i s = .next t ∧ enqueues s t d (placed false d (BitVec.ofNat 32 (f.encode s.site.modefp rm v))) lat) ∧
    (∀ d c lat, codeRow s i = some (d, c, lat) → ∃ t, exec i s = .next t ∧ enqueues s t d (placed false d (BitVec.ofNat 32 c)) lat)

/-- R185, R190 to R192, R194, R195 and R236 to R242 against the rationals and, for FRSQ and FEXPF, the real numbers: what the exact values
are, and which code each rounding mode gives. FEXPF is bounded and pinned by the spec's worked example alone. -/
def Obligations.ExactValuesAndTheirCodes : Prop :=
  (∀ (a b c d e : Val) (rm : RM) (x y z p q : ℚ), ratOf a = some x → ratOf b = some y → ratOf c = some z → ratOf d = some p → ratOf e = some q →
    ratOf (a.add rm b) = some (x + y) ∧ ratOf (a.mul b) = some (x * y) ∧ ratOf a.neg = some (-x) ∧ ratOf a.abs = some |x| ∧
    ratOf (dot2 rm a b c d e) = some (x * y + z * p + q) ∧ (a.lt b = true ↔ x < y) ∧
    (x + y = 0 → x ≠ 0 → (a.add rm b).negative = (rm == .rdn)) ∧
    ratOf (a.min2 b) = some (min x y) ∧ ratOf (a.max2 b) = some (max x y)) ∧
  (∀ (f : FloatFmt) (rm : RM) (neg : Bool) (m : Nat) (e : Int) (x : ℚ), f ∈ formats → m ≠ 0 → ratOf (.fin false m e) = some x →
    roundsTo f rm neg x (f.encode 0 rm (.fin neg m e)) ∧
    (∀ mode, modeBit mode f.outBit = false ∨ (2 : ℚ) ^ (1 - f.bias) ≤ x → f.encode mode rm (.fin neg m e) = f.encode 0 rm (.fin neg m e)) ∧
    (∀ mode, modeBit mode f.outBit = true → x < (2 : ℚ) ^ (1 - f.bias) → f.encode mode .rtz (.fin neg m e) = signOf f neg)) ∧
  (∀ (f : FloatFmt) (mode : BitVec 6) (rm : RM) (neg : Bool) (e : Int), f ∈ formats →
    f.encode mode rm .nan = f.nanCode ∧ f.encode mode rm (.fin neg 0 e) = signOf f neg ∧
    f.encode mode rm (.inf neg) = signOf f neg + (if f.sp = .ieee then f.maxCode + 1 else f.maxCode)) ∧
  (∀ (v : Val) (x : ℚ), ratOf v = some x →
    (∀ rm, ratOf (v.rint rm) = some (roundTo rm x : ℚ) ∧ (v.rint rm).negative = v.negative) ∧
    (∀ rm lo hi, -2 ^ 64 ≤ lo → lo ≤ 0 → 0 ≤ hi → hi ≤ 2 ^ 64 → v.toInt rm lo hi = clampTo lo hi (roundTo rm x)) ∧
    (∀ (f : FloatFmt) (rm : RM), f ∈ formats → x ≠ 0 → roundsTo f rm v.negative |1 / (x : ℝ)| (f.encode 0 rm v.recip) ∧
      (0 < x → roundsTo f rm false (1 / Real.sqrt x) (f.encode 0 rm v.rsqrt)) ∧ (x < 0 → v.rsqrt = .nan)) ∧
    (x = 0 → v.recip = .inf v.negative ∧ v.rsqrt = .inf v.negative) ∧
    (∃ y, ratOf v.expf = some y ∧ |(y : ℝ) - (2 : ℝ) ^ (max (-1 / 2) (min (1 / 2) (x : ℝ)))| ≤ 1 / 2 ^ 30) ∧
    (∀ (a : Val) (z : ℚ) (rm : RM), ratOf a = some z →
      let w : ℚ := |z| * (2 : ℚ) ^ (clampTo (-1024) 1024 (roundTo .rtz x))
      (w < (2 : ℚ) ^ (-149 : Int) → expins 0 rm a v = 0) ∧
      ((2 : ℚ) ^ (128 : Int) ≤ w → expins 0 rm a v = signOf binary32 a.negative + 0x7F800000) ∧
      ((2 : ℚ) ^ (-149 : Int) ≤ w → w < (2 : ℚ) ^ (128 : Int) → roundsTo binary32 rm a.negative w (expins 0 rm a v)))) ∧
  (∀ neg : Bool, (Val.inf neg).recip = .fin neg 0 0 ∧ (Val.inf false).rsqrt = .fin false 0 0 ∧ (Val.inf true).rsqrt = .nan ∧
    Val.nan.recip = .nan ∧ Val.nan.rsqrt = .nan ∧ Val.nan.expf = .nan ∧ Val.nan.abs = .nan ∧
    (Val.inf neg).expf = (Val.fin neg 1 (-1)).expf ∧ (∀ rm, Val.nan.rint rm = .nan ∧ (Val.inf neg).rint rm = .inf neg) ∧
    (∀ rm lo hi, Val.nan.toInt rm lo hi = 0 ∧ (Val.inf neg).toInt rm lo hi = if neg then lo else hi)) ∧
  (∀ (mode : BitVec 6) (rm : RM) (a : Val) (neg : Bool) (m : Nat) (e : Int),
    expins mode rm a (.inf false) = 0x7F800000 ∧ expins mode rm a (.inf true) = 0 ∧ expins mode rm a .nan = 0x7FC00000 ∧
    expins mode rm .nan (.fin neg m e) = 0x7FC00000 ∧ (∀ x, expins mode rm (.inf x) (.fin neg m e) = signOf binary32 x + 0x7F800000)) ∧
  binary32.encode 0 .rne (binary32.decode 0 0x3E800000).expf = 0x3F9837F0 ∧
  expins 0 .rne (binary32.decode 0 0x3F9837F0) (binary32.decode 0 0xC30A0000) = 0x00000983 ∧
  (∀ (f : FFmt) (mode : BitVec 6) (c : Nat), let g := fmtOf f
    c < 2 ^ g.width →
    ∃ b, classMask g mode c = 2 ^ b ∧
      (match g.decodeRaw c with
        | .nan => b = if c.testBit (g.mbits - 1) then 9 else 8
        | .inf neg => b = if neg then 0 else 7
        | v => ∀ x, ratOf v = some x →
          (x = 0 ∨ (|x| < (2 : ℚ) ^ (1 - g.bias) ∧ modeBit mode g.inBit = true) → b = if v.negative then 3 else 4) ∧
          (x ≠ 0 → |x| < (2 : ℚ) ^ (1 - g.bias) → modeBit mode g.inBit = false → b = if v.negative then 2 else 5) ∧
          ((2 : ℚ) ^ (1 - g.bias) ≤ |x| → b = if v.negative then 1 else 6))) ∧
  (∀ (sf df : CvtFmt) (mode : BitVec 6) (rm : RM) (c : Nat), let r := convert (cvtMem sf) (cvtMem df) mode rm c
    (∀ f g, cvtMem sf = .flt f → cvtMem df = .flt g → r = g.encode mode rm (f.decode mode (c % 2 ^ f.width))) ∧
    (∀ f b, cvtMem sf = .flt f → cvtMem df = .int 32 b →
      let v := f.decode mode (c % 2 ^ f.width)
      let lo : Int := if b then -2 ^ 31 else 0
      let hi : Int := if b then 2 ^ 31 - 1 else 2 ^ 32 - 1
      (∀ x, ratOf v = some x → BitVec.ofNat 32 r = BitVec.ofInt 32 (clampTo lo hi (roundTo rm x))) ∧ (v = .nan → r = 0) ∧
      (∀ neg, v = .inf neg → BitVec.ofNat 32 r = BitVec.ofInt 32 (if neg then lo else hi))) ∧
    (∀ b, cvtMem sf = .int 32 b →
      let z : Int := if b then (BitVec.ofNat 32 c).toInt else (BitVec.ofNat 32 c).toNat
      (∀ g, cvtMem df = .flt g → (z ≠ 0 → mode = 0 → roundsTo g rm (decide (z < 0)) |(z : ℝ)| r) ∧ (z = 0 → r = 0)) ∧
      (∀ d, cvtMem df = .int 32 d → BitVec.ofNat 32 r =
        BitVec.ofInt 32 (clampTo (if d then -2 ^ 31 else 0) (if d then 2 ^ 31 - 1 else 2 ^ 32 - 1) z))))

namespace Sys2Proof.Claims

/-- The row raises a block fault at its issue, recorded for the end of the kernel cycle, and has no other effect (R178, R179). -/
def rowFaults (s t : State) (cause kind num unit found expected x y : Nat) : Prop :=
  ∃ f, t = { s with bfaults := s.bfaults ++ [f] } ∧ f.cause = cause ∧
    f.tval = x + 16 * y + 2 ^ 8 * s.site.row + 2 ^ 13 * kind + 2 ^ 16 * num + 2 ^ 21 * s.site.copy + 2 ^ 27 * unit + 2 ^ 32 * found + 2 ^ 48 * expected
/-- The same with the coordinates of the issuing element. -/
def elementFaults (s t : State) (cause kind num found expected : Nat) : Prop :=
  rowFaults s t cause kind num 0 found expected (s.site.elem % 16) (s.site.elem / 16)

/-- The control entry of buffer b of the issuing element's node (R144, R304), and its key. -/
def bufferKey (s : State) (b : BitVec 3) : Nat :=
  128 * s.site.pan + 8 * (s.site.elem % 16 / 4 + 4 * (s.site.elem / 16 / 4)) + b.toNat
def bufferOf (s : State) (b : BitVec 3) : BindCtl := Kv.get {} s.nodeCtl (bufferKey s b)
/-- The slot that a reader of a binding stands at. -/
def readsSlot (c : BindCtl) : SlotCtl := Kv.get {} c.slots c.rp

/-- What keeps a read of `n` bytes from a binding's slot: it is empty, its tag still to be compared differs, or its bytes are corrupt
(R176, R177, R392): cause, kind, tag found and tag expected. -/
def slotStop (s : State) (c : BindCtl) (p n : Nat) : Option (Nat × Nat × Nat × Nat) :=
  if (readsSlot c).full = false then some (0x07, 0, 0, 0)
  else if (readsSlot c).chk = false ∧ (readsSlot c).tag ≠ c.xctr then some (0x08, 2, (readsSlot c).tag.toNat, c.xctr.toNat)
  else if s.poisoned p n ≠ none then some (0x12, 0, 0, 0) else none

/-- The first read of a full slot has compared its tag (R177). -/
def firstRead (c : BindCtl) : BindCtl :=
  if (readsSlot c).chk = true then c
  else { c with slots := Kv.set {} c.slots c.rp { readsSlot c with chk := true }, xctr := c.xctr + 1 }
/-- The read slot empties and the reader goes to the next one (R305). -/
def emptied (c : BindCtl) : BindCtl :=
  { c with slots := Kv.set {} c.slots c.rp { readsSlot c with full := false }, rp := (if c.depth = 0 then 0 else (c.rp + 1) % c.depth),
           rankPos := 0, rpos := 0 }

/-- A source at a width, and how a destination takes a move of it (R243). -/
def movedSource (s : State) (w : Wid) (i : Imm) (a : Src) : BitVec 128 :=
  match w with
  | .w32 => BitVec.ofNat 128 (source32 s i a).toNat
  | .w64 => BitVec.ofNat 128 (source64 s i a).toNat
  | .w128 => source128 s i a
def bytesOfWid : Wid → Nat | .w32 => 4 | .w64 => 8 | .w128 => 16

/-- The stream that a row means by q: the partition, the M-die of the boundary that the side of the entry names, and q (R436, R450). -/
def streamKey (s : State) (q : BitVec 4) : Nat :=
  let die := s.site.pan / 96
  let side := (Kv.get 0 (s.activeBlk s.site.pan s.site.mask).strB q.toNat).testBit 15
  128 * s.owner (s.site.pan / 16) + 16 * (if side then (die + 7) % 8 else die) + q.toNat

/-- The latches of the issuing element change and nothing else. -/
def latchesAre (s t : State) (active loading : BitVec 128) : Prop :=
  t = { s with elems := t.elems } ∧ issuer t = { issuer s with latchActive := active, latchLoad := loading } ∧
    ∀ k, k ≠ 256 * s.site.pan + s.site.elem → Kv.get {} t.elems k = Kv.get {} s.elems k

/-- The fields of an FCW (R147) and one group of a 128-bit operand (R149). -/
def fuseWord (s : State) : BitVec 32 := ((s.activeBlk s.site.pan s.site.mask).elemCfg s.site.elem).fcw
def groupOf (v : BitVec 128) (w : Nat) (sgn : Bool) (g : Nat) : Int :=
  let c := v.toNat / 2 ^ (w * g) % 2 ^ w
  if sgn = true ∧ 2 ^ (w - 1) ≤ c then (c : Int) - 2 ^ w else c

end Sys2Proof.Claims

/-- R243 to R245 with the slot rules of R176 and R177. That each element's NLD and NST with ADV advances its buffer for itself is log 19
(DEDUCED), and that the read of a refused slot is an overrun whatever its time is log 43 (DEDUCED). -/
def Obligations.MoveBufferAndStreamRows : Prop :=
  ∀ (s : State) (w : Wid) (i : Imm), let n := bytesOfWid w
    (∀ delay d a, ∃ t, exec (.mov w delay d a i) s = .next t ∧
      enqueues s t d (match w, d with
        | .w32, .lane _ => .bits (BitVec.ofNat 128 ((source32 s i a).signExtend 64).toNat)
        | _, _ => .bits (movedSource s w i a)) (1 + delay.toNat)) ∧
    (∀ adv b d off, 0 < (bufferOf s b).size → let c := bufferOf s b
      let p := nodeSlotAddr (bufferKey s b) c c.rp ((source32 s i off).toNat % c.size / n * n)
      (∀ cause kind found expected, slotStop s c p n = some (cause, kind, found, expected) →
        ∃ t, exec (.nld w adv b d off i) s = .next t ∧ elementFaults s t cause kind b.toNat found expected) ∧
      (slotStop s c p n = none → ∃ m, enqueues s m d (.bits (BitVec.ofNat 128 (little (bytesAt s p n)))) 2 ∧
        exec (.nld w adv b d off i) s = .next { m with nodeCtl := Kv.set {} s.nodeCtl (bufferKey s b) (if adv then emptied (firstRead c) else firstRead c) })) ∧
    (∀ adv b v off, 0 < (bufferOf s b).size → ∃ u, exec (.nst w adv b v off i) s = .next { s with writes := s.writes ++ [u] } ∧
      u.pan = s.site.pan ∧ u.mask = s.site.mask ∧ u.due = s.site.kc + 2 ∧ u.key = bufferKey s b ∧ u.slot = (bufferOf s b).wp ∧
      u.off = (source32 s i off).toNat % (bufferOf s b).size / n * n ∧ u.bytes = natLe n (movedSource s w i v).toNat ∧ u.adv = adv) ∧
    (∀ adv q u a, let k := streamKey s q; ∃ t, exec (.send w adv q u a) s = .next t ∧
      (t.stream k).transit = (s.stream k).transit ++ [(s.cycle + 12, s.nextId, .bytes (s.stream k).kS (16 * u.toNat) (natLe 16 (movedSource s w noImm a).toNat))] ∧
      (t.stream k).kS = (s.stream k).kS ∧ (∀ j, j ≠ k → t.stream j = s.stream j) ∧
      (adv = true → ∃ A ∈ t.advs, A.kind = 2 ∧ A.key = k ∧ A.row = s.site.row) ∧ (adv = false → t.advs = s.advs) ∧
      t = { s with streams := t.streams, nextId := s.nextId + 1, advs := t.advs }) ∧
    (∀ adv q u d, let k := streamKey s q; let st := s.stream k
      let tau := (s.tide s.site.pan - (s.ctx s.site.ctx).tb).toNat
      let here := st.stage.find? fun p => p.k == st.kR
      let stop := fun cause reason => ∃ t, exec (.recv w adv q u d) s = .next t ∧ elementFaults s t cause 5 q.toNat (st.kR % 65536) reason
      (here = none → stop 0x0D 0) ∧
      (∀ p, here = some p →
        (p.refused = true → stop 0x0E 2) ∧
        (p.refused = false → tau < p.sTau.toNat + 24 + st.g → stop 0x0D 1) ∧
        (p.sTau.toNat + 24 + st.g ≤ tau → p.refused = false → ∃ t m, exec (.recv w adv q u d) s = .next t ∧
          enqueues s m d (.bits (BitVec.ofNat 128 (p.data / 2 ^ (128 * u.toNat) % 2 ^ (8 * n)))) 2 ∧ t = { m with advs := t.advs } ∧
          (adv = true → ∃ A ∈ t.advs, A.kind = 1 ∧ A.key = k ∧ A.whole = true ∧ A.row = s.site.row) ∧ (adv = false → t.advs = s.advs))))

/-- R260 to R264 and R274, with the products of R150 and R153. The B operand that a row does not name is a free value (log 22). -/
def Obligations.FusedAndLaneRows : Prop :=
  ∀ (s : State) (wr : Bool) (d : Dst) (a : Src) (b : Option Src), let f := fuseWord s
    let W := 2 * (f.toNat % 8 + 1)
    let V := 2 * (f.toNat / 8 % 8 + 1)
    let NG := f.toNat / 2 ^ 8 % 2 ^ 7
    let A := source128 s noImm a
    (∃ (B : BitVec 128) (k : Nat),
      (f.getLsbD 19 = false → B = (issuer s).latchActive ∧ k = 0) ∧ (f.getLsbD 19 = true → ∀ c, b = some c → B = source128 s noImm c ∧ k = 0) ∧
      (∃ m, exec (.macf wr d a b) s = .next { m with freeCtr := s.freeCtr + k } ∧
        let P := fun g => groupOf A W (f.getLsbD 6) g * groupOf B V (f.getLsbD 7) g
        let S := ((List.range NG).map P).sum
        enqueues s m d (if f.toNat / 2 ^ 16 % 4 = 1 then
            .bits (BitVec.ofNat 128 ((List.range NG).map fun g => (P g % 2 ^ (W + V)).toNat * 2 ^ (g * (W + V))).sum)
          else if wr then .setLane S else .addLane S false) 3) ∧
      (∃ m, exec (.dmac wr d a b) s = .next { m with freeCtr := s.freeCtr + k } ∧
        let S := ((List.range NG).map fun g => groupOf A W (f.getLsbD 6) g * d8Value (B.toNat / 2 ^ (8 * g) % 256)).sum
        enqueues s m d (if wr then .setLane S else .addLane S false) 3)) ∧
    (∀ uns rna sh wd x m bias, ∃ t y, exec (.rq uns rna sh wd d x m bias) s = .next t ∧ enqueues s t d (placed true d (BitVec.ofInt 32 y)) 2 ∧
      let v : Int × Bool := match x with
        | .lane k => ((Kv.get {} (issuer s).t k.toNat).l.toInt, (Kv.get {} (issuer s).t k.toNat).nan)
        | .port p => ((source64 s noImm (.port p)).toInt, false)
        | x => ((source32 s noImm x).toInt, false)
      let wid := if wd.toNat = 0 then 2 else if wd.toNat = 1 then 4 else if wd.toNat = 2 then 6 else if wd.toNat = 3 then 8 else if wd.toNat = 4 then 16 else 32
      y = requantInt rna v.1 (source32 s noImm m).toInt (source32 s noImm bias).toInt sh.toNat wid (!uns) v.2 ∧
      ∀ n (k : BitVec 7), ∃ u, exec (.tacc n x k) s = .next u ∧
        enqueues s u (.lane n) (.addLane (if 0 ≤ k.toInt then v.1 * 2 ^ k.toInt.toNat else v.1 / 2 ^ (-k.toInt).toNat) v.2) 2) ∧
    (∀ form n, let L : Lane := Kv.get {} (issuer s).t n.toNat; ∃ t, exec (.trdl form d n) s = .next t ∧
      enqueues s t d (match form with
        | .lo => placed true d (BitVec.ofNat 32 L.l.toNat)
        | .hi => placed true d (BitVec.ofNat 32 (L.l.toNat / 2 ^ 32))
        | .st => placed false d (BitVec.ofNat 32 ((if L.ovf then 1 else 0) + (if L.nan then 2 else 0) + (if L.valid then 4 else 0)
            + (if L.dirty then 8 else 0) + (if s.laneBusy s.site.pan s.site.elem n then 16 else 0) + 2 ^ 16 * L.re.toNat))
        | .l64 => .bits (BitVec.ofNat 128 L.l.toNat)) 1) ∧
    (Kv.wf ({} : Elem) s.elems = true → ∀ c,
      (∃ t, exec (.setq .load (some c)) s = .next t ∧ latchesAre s t (issuer s).latchActive (source128 s noImm c)) ∧
      (∃ t, exec (.setq .loadSwap (some c)) s = .next t ∧ latchesAre s t (source128 s noImm c) (issuer s).latchActive) ∧
      (∃ t, exec (.setq .swap none) s = .next t ∧ latchesAre s t (issuer s).latchLoad (issuer s).latchActive)) ∧
    exec .rnop s = .next s

namespace Sys2Proof.Claims

/-- Where a result to a port goes as it lands, and the delay stage that it enters there: the neighbour on the same pan, or the facing element
of the adjacent pan (R162, R217, R218; log 35). -/
def sentBy (s : State) (pan e : Nat) (f : EFlight) : List (Nat × DelayStage) :=
  match f.dst, f.val with
  | .port p, .bits v =>
    let q := opposite p
    match neighbour e p with
    | some e' =>
      let b := s.activeBlk pan f.mask
      if b.live = false then [(256 * pan + e', ⟨q, f.mask, 0, some (s.cycle + 1), v⟩)]
      else if (b.elemCfg e').kind q = 0 then [(256 * pan + e', ⟨q, f.mask, s.kc pan f.mask + 1 + (b.elemCfg e').delay q, none, v⟩)]
      else []
    | none =>
      match adjacentPan pan p with
      | none => []
      | some pan' =>
        let b := s.activeBlk pan' f.mask
        let e' := facing e p
        if b.live = true ∧ (b.elemCfg e').kind q = 2 ∧ s.sameInst (s.runOf pan f.mask).ctx (s.runOf pan' f.mask).ctx = true then
          [(256 * pan' + e', ⟨q, f.mask, s.kc pan' f.mask + 3 + (b.elemCfg e').delay q, none, v⟩)]
        else []
  | _, _ => []

end Sys2Proof.Claims

/-- R158, R162, R217 to R219, R229 and R254. Contributions land before results of the same cycle (log 25, DESIGN CHOICE), on which the clauses
about lanes rest; a value that is sent under a mask whose block has been released leaves its delay stage in the next cycle (log 35, DESIGN
CHOICE). -/
def Obligations.ElementResultsLandAndLeave : Prop :=
  ∀ (s : State) (pan e : Nat), e < 256 → Kv.wf ({} : Elem) s.elems = true → let x := s.elem pan e
    let runs := fun (m : BitVec 8) (d : Nat) => d ≤ s.kc pan m ∧ (s.runOf pan m).stopped = false
    (Kv.wf (0 : BitVec 32) x.e = true → ∃ t, exec (.elementResultLanding (256 * pan + e)) s = .next t ∧ t = { s with elems := t.elems } ∧
      (∀ k, k ≠ 256 * pan + e → ∃ sent : List DelayStage,
        Kv.get {} t.elems k = { Kv.get {} s.elems k with delay := (Kv.get {} s.elems k).delay ++ sent } ∧
        sent = (((x.flight.filter fun f => decide (f.due ≤ s.kc pan f.mask) && !(s.runOf pan f.mask).stopped).flatMap (sentBy s pan e)).filter
          fun q => q.1 == k).map (·.2)) ∧
      (∀ f, f ∈ (t.elem pan e).flight ↔ f ∈ x.flight ∧ ¬ runs f.mask f.due) ∧ (∀ c, c ∈ (t.elem pan e).contrib ↔ c ∈ x.contrib ∧ ¬ runs c.mask c.due) ∧
      (∀ k, (∀ f ∈ x.flight, runs f.mask f.due → f.dst ≠ .e k) → Kv.get 0 (t.elem pan e).e k.toNat = Kv.get 0 x.e k.toNat) ∧
      (∀ l r f k v, x.flight = l ++ f :: r → runs f.mask f.due → f.val = .bits v → (∀ g ∈ r, runs g.mask g.due → g.dst ≠ f.dst) →
        (f.dst = .e k → Kv.get 0 (t.elem pan e).e k.toNat = BitVec.ofNat 32 v.toNat)) ∧
      (∀ l r f k z, x.flight = l ++ f :: r → runs f.mask f.due → f.val = .setLane z → (∀ g ∈ r, runs g.mask g.due → g.dst ≠ f.dst) → f.dst = .lane k →
        ((t.elem pan e).lane k).l = BitVec.ofInt 64 z) ∧
      (∀ l r f k v, x.flight = l ++ f :: r → runs f.mask f.due → f.val = .bits v → (∀ g ∈ r, runs g.mask g.due → g.dst ≠ f.dst) → f.dst = .lane k →
        ((t.elem pan e).lane k).l = BitVec.ofNat 64 v.toNat ∧ ((t.elem pan e).lane k).ovf = false ∧ ((t.elem pan e).lane k).nan = false ∧
        ((t.elem pan e).lane k).valid = true ∧ ((t.elem pan e).lane k).dirty = true) ∧
      (t.elem pan e).ports = x.ports ∧ (t.elem pan e).delay = x.delay) ∧
    (Kv.wf ({} : PortVal) x.ports = true → ∃ t, exec (.portDelayExit (256 * pan + e)) s = .next t ∧ t = { s with elems := t.elems } ∧
      (∀ k, k ≠ 256 * pan + e → Kv.get {} t.elems k = Kv.get {} s.elems k) ∧
      let due := fun (d : DelayStage) => match d.fab with | some c => c ≤ s.cycle | none => runs d.mask d.due
      (∀ d, d ∈ (t.elem pan e).delay ↔ d ∈ x.delay ∧ ¬ due d) ∧
      (∀ l r d, x.delay = l ++ d :: r → due d → (∀ g ∈ r, due g → g.port ≠ d.port) → d.val ≠ 0 → Kv.get {} (t.elem pan e).ports (portIdx d.port) = ⟨d.val, s.cycle⟩) ∧
      (∀ p, (∀ d ∈ x.delay, due d → d.port ≠ p) → Kv.get {} (t.elem pan e).ports (portIdx p) = Kv.get {} x.ports (portIdx p)) ∧
      (t.elem pan e).e = x.e ∧ (t.elem pan e).t = x.t ∧ (t.elem pan e).flight = x.flight) ∧
    (∀ key p, Kv.keysWhere (fun k (r : BlkRun) => r.live && k / 256 == pan) s.runs = [key] → let b : Block := Kv.get {} s.active key
      let cfg := b.elemCfg e
      let start := s.windowStart key
      let fed := fun w => cfg.kind p = 1 ∧ b.portStage e p ≤ w ∧ w < b.portStage e p + b.total
      (start = none ∨ (∃ w, start = some w ∧ ¬ fed w) → exec (.edgeFeed (256 * pan + e) p) s = .next s) ∧
      (∀ w, start = some w → fed w → let k := nodeKey pan e (cfg.buf p); let c := s.nodeEntry k
        let a := nodeSlotAddr k c c.rp (16 * (c.units % max 1 (c.size / 16)))
        (slotStop s c a 16 = none → ∃ t, exec (.edgeFeed (256 * pan + e) p) s = .next t ∧
          (t.elem pan e).delay = x.delay ++ [⟨p, keyMask key, Kv.get 0 s.kcnt key + 1 + cfg.delay p, none, BitVec.ofNat 128 (little (bytesAt s a 16))⟩] ∧
          t = { s with elems := t.elems, nodeCtl := t.nodeCtl }) ∧
        (∀ q, slotStop s c a 16 = some q → ∃ t f, exec (.edgeFeed (256 * pan + e) p) s = .next t ∧ t = { s with bfaults := s.bfaults ++ [f] } ∧ f.cause = q.1)))

namespace Sys2Proof.Claims

/-- The tile rows, with their lane and Z (R250, R259). -/
def tileRow : Instr → Option (BitVec 3 × Bool)
  | .tstep _ _ t _ _ _ _ _ _ z => some (t, z) | .spmx _ _ t _ _ _ _ _ _ _ z => some (t, z) | _ => none

/-- Every slot and metadata register that a step of a tile reads can be read (R176, R177, R253, R257). -/
def stepReadable (s : State) (u : TileRun) : Prop :=
  (∀ q ∈ u.uses, slotStop s (s.nodeEntry q.key) (s.useAddr q) q.n = none) ∧
  ∀ m, u.metaReg = some m → ((Kv.get {} s.metas (metaKey u.pan m)).seen s.cycle).2 = true

/-- A step of a tile is read (R253, R254, R199): every element of the tile gets its contributions, to land with the skew of its place;
the slots that it read have their tags compared and are empty; the next step waits, if there is one. -/
def stepIsRead (s t : State) (u : TileRun) : Prop :=
  let i := rowOf u.ent
  let every := tileI i (s.tileFcw u)
  t.mem = s.mem ∧ t.ctxs = s.ctxs ∧ t.bfaults = s.bfaults ∧
  t.tiles = s.tiles.filter (fun v => v.id != u.id) ++ (if u.r + 1 < tileRep i then [{ u with r := u.r + 1 }] else []) ∧
  (∀ dx dy, dx < u.nx → dy < u.ny → (t.elem u.pan (16 * (u.y0 + dy) + u.x0 + dx)).contrib =
    (s.elem u.pan (16 * (u.y0 + dy) + u.x0 + dx)).contrib ++
      (s.stepValues u (s.modeOf u.ctx) (s.fcwOf u (16 * (u.y0 + dy) + u.x0 + dx)) (u.x0 + dx) (u.y0 + dy)).map fun v =>
        (⟨u.id, u.r, u.mask, u.c + (u.r + 1) * every + 5 + dx + dy, (tileLane i).getD 0, v.1, v.2, tileRe i, (s.runOf u.pan u.mask).start⟩ : Contrib)) ∧
  (Kv.wf ({} : BindCtl) s.nodeCtl = true → ∀ q ∈ u.uses, t.nodeEntry q.key = emptied (firstRead (s.nodeEntry q.key)))

/-- A contribution reaches its lane: a saturating addition (R199, R254, R259). -/
def reached (l : Lane) (c : Contrib) : Lane :=
  let v := l.l.toInt + c.val
  { l := BitVec.ofInt 64 (max (-(2 ^ 63)) (min v (2 ^ 63 - 1))), ovf := l.ovf || decide (v < -(2 ^ 63)) || decide (2 ^ 63 - 1 < v),
    nan := l.nan || c.nan, valid := true, dirty := true, re := c.re }

/-- Key i is emitted before key k (R270). -/
def emittedBefore (a b : Val × Nat) : Prop :=
  keyAbove a.1 b.1 = true ∨ (keyAbove b.1 a.1 = false ∧ a.2 < b.2)

end Sys2Proof.Claims

/-- R199, R250 and R252 to R259; the operands of a step are stepValues. -/
def Obligations.TileStepsReadAndContribute : Prop :=
  (∀ (s : State) (i : Instr) (k : BitVec 3) (z : Bool), tileRow i = some (k, z) → s.site.elem < 256 → Kv.wf ({} : Elem) s.elems = true →
      Kv.wf ({} : Lane) (issuer s).t = true →
    let e := s.site.elem
    let has := fun q => (((s.activeBlk s.site.pan s.site.mask).elemCfg q).row s.site.row).ent = s.site.ent
    ∃ s1, (z = false → s1 = s) ∧
      (z = true → s1 = { s with elems := s1.elems } ∧ (∀ q, q ≠ 256 * s.site.pan + e → Kv.get {} s1.elems q = Kv.get {} s.elems q) ∧
        ∀ n, (issuer s1).lane n = if n = k then { (issuer s).lane n with l := 0, ovf := false, nan := false } else (issuer s).lane n) ∧
      ((e % 16 ≠ 0 ∧ has (e - 1)) ∨ (16 ≤ e ∧ has (e - 16)) → exec i s = .next s1) ∧
      ((e % 16 = 0 ∨ ¬ has (e - 1)) → (e < 16 ∨ ¬ has (e - 16)) → has e →
        ∃ u : TileRun, u.id = s.nextId ∧ u.pan = s.site.pan ∧ u.mask = s.site.mask ∧ u.ent = s.site.ent ∧ u.row = s.site.row ∧ u.c = s.site.kc ∧
          u.r = 0 ∧ u.ctx = s.site.ctx ∧ u.x0 = e % 16 ∧ u.y0 = e / 16 ∧
          1 ≤ u.nx ∧ u.x0 + u.nx ≤ 16 ∧ (∀ d, d < u.nx → has (e + d)) ∧ (u.x0 + u.nx = 16 ∨ ¬ has (e + u.nx)) ∧
          1 ≤ u.ny ∧ u.y0 + u.ny ≤ 16 ∧ (∀ d, d < u.ny → has (e + 16 * d)) ∧ (u.y0 + u.ny = 16 ∨ ¬ has (e + 16 * u.ny)) ∧
          let s2 := { s1 with nextId := s.nextId + 1, tiles := s.tiles ++ [u] }
          (stepReadable s2 u → ∃ t, exec i s = .next t ∧ stepIsRead s2 t u))) ∧
  (∀ (s : State) (u : TileRun), s.tiles.find? (fun v => v.id == u.id) = some u → Kv.wf ({} : Elem) s.elems = true → u.x0 + u.nx ≤ 16 → u.y0 + u.ny ≤ 16 →
    (u.c + u.r * tileI (rowOf u.ent) (s.tileFcw u) ≤ s.kc u.pan u.mask → (s.runOf u.pan u.mask).stopped = false → stepReadable s u →
      ∃ t, exec (.tstepStepRead u.id) s = .next t ∧ stepIsRead s t u) ∧
    (s.kc u.pan u.mask < u.c + u.r * tileI (rowOf u.ent) (s.tileFcw u) → exec (.tstepStepRead u.id) s = .next s)) ∧
  (∀ (s : State) (id r x y key : Nat) (el : Elem), x < 16 → y < 16 →
    s.elems.find? (fun p => p.1 % 256 == 16 * y + x && p.2.contrib.any fun c => c.id == id && c.r == r) = some (key, el) → Kv.wf ({} : Elem) s.elems = true →
    let due := fun (c : Contrib) => c.id == id && c.r == r && decide (c.due ≤ s.kc (key / 256) c.mask) && !(s.runOf (key / 256) c.mask).stopped
    ∃ t, exec (.tstepContribution id r x y) s = .next t ∧ t = { s with elems := t.elems } ∧
      (Kv.get {} t.elems key).contrib = el.contrib.filter (fun c => !due c) ∧
      (∀ k, (Kv.get {} t.elems key).lane k = (el.contrib.filter fun c => due c && c.t == k).foldl reached (el.lane k)) ∧
      ∀ q, q ≠ key → Kv.get {} t.elems q = Kv.get {} s.elems q) ∧
  (∀ (qa qb re : Int) (a b : TBlock), (a.1 = 0xFF ∨ b.1 = 0xFF → contribution qa qb re a b = (0, true)) ∧
    (a.1 ≠ 0xFF → b.1 ≠ 0xFF → contribution qa qb re a b =
      (⌊(((List.zipWith (· * ·) a.2 b.2).sum : Int) : ℚ) * (2 : ℚ) ^ ((a.1 : Int) - 127 + ((b.1 : Int) - 127) + qa + qb - re)⌋, false)))

/-- R265 and R269 to R273. rankPacket and quantise lay out packets and blocks. That the faults of RANK name x = y = 0 and unit 2 is log 19
(DEDUCED). -/
def Obligations.UnitsRankQuantiseAndScatter : Prop :=
  (∀ (s : State) (fin : FFmt) (fout bD bS : BitVec 3) (a : Src), let key := 16 * s.site.pan + s.site.elem / 16
    let u : BqUnit := Kv.get {} s.bq key
    let toks := u.toks ++ [(source32 s noImm a, s.site.modefp)]
    (toks.length < 32 → exec (.bq fin fout bD bS a) s = .next { s with bq := Kv.set {} s.bq key { u with toks := toks } }) ∧
    (32 ≤ toks.length → ∃ w, exec (.bq fin fout bD bS a) s =
        .next { s with bq := Kv.set {} s.bq key { toks := [], beta := u.beta + 1 }, writes := s.writes ++ [w] } ∧
      w.unit = 1 ∧ w.pan = s.site.pan ∧ w.mask = s.site.mask ∧ w.due = s.site.kc + 3 ∧ w.ord = s.site.elem / 16 ∧ w.key = bufferKey s bD ∧
      w.skey = bufferKey s bS ∧ w.slot = u.beta ∧
      let q := quantise (bqFmt fout) s.site.modefp (toks.map fun t => (fmtOf fin).decode t.2 (t.1.toNat % 2 ^ (fmtOf fin).width))
      w.sbyte = BitVec.ofNat 8 q.1 ∧ w.bytes = natLe (4 * (bqFmt fout).width) (packList (bqFmt fout).width q.2))) ∧
  (∀ (s : State) (bI : BitVec 3) (g : BitVec 2) (kf : KeyFmt) (c1 : BitVec 6) (out : PktPort), let c := bufferOf s bI
    let n := keyBytes kf * (8 * 2 ^ g.toNat)
    let p := nodeSlotAddr (bufferKey s bI) c c.rp c.rankPos
    (∀ cause kind found expected, slotStop s c p n = some (cause, kind, found, expected) →
      ∃ t, exec (.rank bI g kf c1 out) s = .next t ∧ rowFaults s t cause kind bI.toNat 2 found expected 0 0) ∧
    (slotStop s c p n = none → ∃ t w, exec (.rank bI g kf c1 out) s = .next t ∧ t.writes = s.writes ++ [w] ∧ t.mem = s.mem ∧ t.ctxs = s.ctxs ∧
      w.unit = 0 ∧ w.pan = s.site.pan ∧ w.mask = s.site.mask ∧ w.due = s.site.kc + (3 + g.toNat) * (4 + g.toNat) / 2 + 1 ∧ w.stream = out.stream ∧
      (out.stream = false → w.key = 16 * (s.site.pan / 16) + out.idx.toNat ∧
        w.bytes = rankPacket (s.concEntry w.key).pktW g (c1.toNat + 1) ((List.range (8 * 2 ^ g.toNat)).map fun i =>
          keyVal kf s.site.modefp (packedAt (little (bytesAt s p n)) i (8 * keyBytes kf))) ∧
        ((s.concEntry w.key).pktW ≠ 0xFFFF → (t.concEntry w.key).pktW = (s.concEntry w.key).pktW + 1)) ∧
      (out.stream = true → w.key = streamKey s out.idx))) ∧
  (∀ keys : List Val, (rankKeys keys).Perm keys.zipIdx ∧ (rankKeys keys).Pairwise emittedBefore) ∧
  (∀ (s : State) (w : UnitWrite) (l r : List UnitWrite), s.writes = l ++ w :: r → (∀ v ∈ l ++ r, ¬ (v.unit = w.unit ∧ v.pan = w.pan)) →
    ∀ i, (w.unit = 1 ∧ i = .bqBlockWrite w.pan w.ord) ∨ (w.unit = 0 ∧ i = .rankPacketWrite w.pan) →
      (s.unitDue w = true → unarmed s → ∃ t, exec i s = .next t ∧ t.writes = l ++ r ∧ t.mem = (s.writeAll (s.unitBytes w)).mem ∧ t.ctxs = s.ctxs ∧
        t.elems = s.elems ∧ (w.unit = 0 → w.stream = false → let c := s.concEntry w.key
          t.concEntry w.key = if max 1 (c.size / w.bytes.length) ≤ c.wpos + 1 then c.complete c.wp else { c with wpos := c.wpos + 1 })) ∧
      (s.unitDue w = false → ∃ t, exec i s = .next t ∧ t = s)) ∧
  (∀ (s : State) (src : PktPort) (n z adv : Bool) (b t : BitVec 3) (w a : Src) (d : Dst),
    let tag := fun (cause found : Nat) => if cause = 0x12 then 0 else found
    (∀ cause kind num found expected, s.readPacket src = .fault cause kind num found expected →
      (∃ q m, exec (.racc n z adv b t w src) s = .next q ∧ elementFaults s m cause kind num (tag cause found) expected ∧
        let c := bufferOf s b; let stop := slotStop s c (nodeSlotAddr (bufferKey s b) c c.rp 0) 0
        (n = false ∨ stop = none → q = m) ∧
        (n = true → ∀ j k f x, stop = some (j, k, f, x) → elementFaults m q j k b.toNat f x)) ∧
      ∃ q, exec (.rval adv d a src) s = .next q ∧ elementFaults s q cause kind num (tag cause found) expected) ∧
    (∀ idx group, s.readPacket src = .packet idx group →
      (∀ j k f x, s.raccFault n b w idx = some (j, k, f, x) →
        ∃ q, exec (.racc n z adv b t w src) s = .next q ∧ elementFaults s q j k b.toNat (tag j f) x) ∧
      (s.raccFault n b w idx = none → ∃ q m, exec (.racc n z adv b t w src) s = .next q ∧ q.elems = m.elems ∧ q.mem = s.mem ∧ q.ctxs = s.ctxs ∧
        let S := (idx.zipIdx.map fun k => s.raccWeight n b w k.1 * d8Value ((Kv.get {} s.tables s.site.pan).gA / 2 ^ (8 * k.2) % 256)).sum
        enqueues s m (.lane t) (if z then .setLane S else .addLane S false) (3 + (idx.length + 15) / 16) ∧
        (adv = true → ∃ A ∈ q.advs, A.key = s.pktKey src ∧ A.row = s.site.row ∧ A.whole = false) ∧ (adv = false → q.advs = s.advs)) ∧
      (∃ q m, exec (.rval adv d a src) s = .next q ∧ q.elems = m.elems ∧ q.mem = s.mem ∧ q.ctxs = s.ctxs ∧
        let T := Kv.get {} s.tables s.site.pan
        let i := (source32 s noImm a).toNat % 64
        let pos := if group ≤ i then 64 else (idx.findIdx? (· == i)).getD 64
        enqueues s m d (placed T.i16A d (T.value pos)) 3 ∧
        (adv = true → ∃ A ∈ q.advs, A.key = s.pktKey src ∧ A.row = s.site.row ∧ A.whole = false) ∧ (adv = false → q.advs = s.advs))))

namespace Sys2Proof.Claims

/-- The engine commands that take a queue entry: completion register, release, the shape registers that they name, the shapes and the
register operands that they read, and their count (R344, R353 and the entry of each; a chain that ends in a BQ counts its scale bytes, R267). -/
def commandOf (s : State) : Instr → Option (Reg × Bool × List HReg × Nat × Nat × List Word × Nat) :=
  let sh := fun (h : HReg) => shapeOf (s.self.shape h)
  let two := fun (h : EngHdr) (ops : List Word) (n : Nat) =>
    some (h.rc, h.rel, [h.ha, h.hb], s.self.shape h.ha, s.self.shape h.hb, ops, n)
  fun
  | .tcopy h _ _ => two h [] (sh h.hb).bytes
  | .tcopyc h _ _ _ xr => two h [s.reg xr]
      ((sh h.hb).bytes + if dstScaled (xr != 0) (sh h.ha) (sh h.hb) then (sh h.hb).count / 32 else 0)
  | .tfill h _ rv => some (h.rc, h.rel, [h.hb], s.self.shape h.ha, s.self.shape h.hb, [s.reg rv], (sh h.hb).bytes)
  | .sgath h _ _ ir _ => two h [s.reg ir] (sh h.hb).bytes
  | .sscat h _ _ ir _ => two h [s.reg ir] (sh h.ha).bytes
  | .sscata h _ _ ir _ => two h [s.reg ir] (sh h.ha).bytes
  | .sisect h _ _ _ ro _ => two h [s.reg ro] 1
  | .prune h _ _ mr _ _ _ => two h [s.reg mr] ((sh h.hb).bytes + 128 * (((sh h.hb).size 1 + 15) / 16))
  | .chain h _ d _ _ n1 _ => two h [] ((sh h.hb).bytes +
      if s.engNat s.cur 0 (d.toNat + 16 * n1.toNat) 1 = 0xAD then (sh h.hb).count / 32 else 0)
  | .coll h _ _ _ _ gr => two h [s.reg gr] (sh h.hb).bytes
  | .rput rel rc rr _ ar _ lr _ => some (rc, rel, [], 0, 0, [s.reg rr, s.reg ar, s.reg lr],
      if (s.reg lr).toNat ≤ 65535 then 8 + 8 * (((s.reg lr).toNat + 7) / 8) else 1)
  | .rget rel rc rr _ ar _ lr => some (rc, rel, [], 0, 0, [s.reg rr, s.reg ar, s.reg lr], 1)
  | .rpeek rel rc rr _ ar _ lr => some (rc, rel, [], 0, 0, [s.reg rr, s.reg ar, s.reg lr], 1)
  | .evict rel rc br _ mr _ nr => some (rc, rel, [], 0, 0, [s.reg br, s.reg mr, s.reg nr], (s.reg nr).toNat)
  | .pref rel rc br _ mr _ nr => some (rc, rel, [], 0, 0, [s.reg br, s.reg mr, s.reg nr], (s.reg nr).toNat)
  | _ => none

/-- Entries of a pan's queue that are free and not promised to a context that waits (R347). -/
def entriesLeft (s : State) (pan : Nat) : Nat :=
  64 - (s.cmds.filter fun k => k.pan == pan && hasEntry k.instr).length - (s.holders.filter fun h => h.ctx / 8 == pan && h.granted).length
/-- The issuing context may take an entry: one was given to it, or one is free and no context of the pan waits. -/
def mayTake (s : State) : Prop :=
  match (s.holders.filter fun h => h.ctx / 8 == s.pan).find? fun h => h.ctx == s.cur with
  | some h => h.granted = true
  | none => 0 < entriesLeft s s.pan ∧ ∀ h ∈ s.holders, h.ctx / 8 = s.pan → h.granted = true

/-- A command as its issue leaves it (R344, R348): what it reads is read. -/
def issuedAs (s : State) (i : Instr) (k : Cmd) (rc : Reg) (rel : Bool) (a b : Nat) (ops : List Word) (n : Nat) : Prop :=
  k.id = s.nextId ∧ k.pan = s.pan ∧ k.ctx = s.cur ∧ k.instr = i ∧ k.st = .issued ∧ k.obj = s.reg rc ∧
    k.loc = s.locate s.self true (s.reg rc).toNat ∧ k.a = a ∧ k.b = b ∧ k.ops = ops ∧ k.modefp = s.self.modefp ∧ k.ord = s.self.ord ∧
    k.left = n ∧ k.p = 0 ∧ k.q = 0 ∧ k.w = 0 ∧ k.toks = [] ∧ k.owed = 0 ∧ k.started = false ∧ s.cycle ≤ k.ready ∧
    (∀ q ∈ s.accs, q.ctx = s.cur → rel = true ∨ q.acq = true → q.id ∈ k.deps) ∧
    (∀ d ∈ s.self.heldAll ++ s.self.heldStores, d ∈ k.deps)

/-- Nothing comes before an access on an object in the order (R333, R348). -/
def nothingBefore (s : State) (rel : Bool) (obj : Word) : Prop :=
  (∀ q ∈ s.accs, q.ctx = s.cur → rel = false ∧ q.acq = false) ∧
  (∀ d ∈ s.self.heldAll ++ s.self.heldStores, (∀ q ∈ s.accs, q.id ≠ d) ∧ ∀ k ∈ s.cmds, k.id ≠ d) ∧
  ∀ k ∈ s.cmds, ¬ (k.ctx = s.cur ∧ k.obj = obj ∧ hasEntry k.instr = false)

/-- What CPLARM, CPLSIG and BARINIT make of an object before the test (R356, R358), with a the value of their register. -/
def objectChange (i : Instr) (a : Nat) (o : Obj) : Option Obj :=
  match i with
  | .cplarm _ clr _ _ => some (
    if pendTop < o.pend + a then reported o 0x0209 0
    else armedFor (if clr then { o with result := 0, eadr := 0, exp := 0, arr := 0, bar := false } else o) a)
  | .cplsig .. => some (if o.pend < a then reported { o with pend := 0 } 0x0209 0 else { o with pend := o.pend - a })
  | .barinit .. => some (
    if a % 65536 = 0 ∨ 65536 ≤ a then reported o 0x020A 0
    else { pend := 0, st := 1, err := false, bar := true, exp := a, arr := 0, code := 0, gen := o.gen, result := 0, eadr := 0 })
  | _ => none
/-- The registers, and the release bit, of the completion instructions that act on an object without a wait. -/
def objectRegs : Instr → Option (Bool × Reg × Option Reg × Option LReg)
  | .cplarm rel _ rc ra => some (rel, rc, some ra, none)
  | .cplsig rel rc ra => some (rel, rc, some ra, none)
  | .barinit rel rc ra => some (rel, rc, some ra, none)
  | .cpltest rel ln rc => some (rel, rc, none, some ln)
  | .bararr rel ln rc => some (rel, rc, none, some ln)
  | _ => none

/-- What CPLWAIT and BARWAIT wait for: the release bit, the completion register, the value that they keep, and when an object ends the wait. -/
def waitsFor (s : State) : Instr → Option (Bool × Reg × Nat × (Nat → Obj → Bool))
  | .cplwait rel rc => some (rel, rc, 0, fun _ o => o.st != 1)
  | .barwait rel rc ra => some (rel, rc, (s.reg ra).toNat % 65536, fun g o => o.gen != g)
  | _ => none
/-- The wait of an object can be tested: nothing comes before its read in the order. -/
def mayTest (s : State) (rel : Bool) (obj : Word) : Prop :=
  nothingBefore s rel obj ∧ ∀ q ∈ s.accs, q.ctx = s.cur → q.kind.stores = true → q.overlaps (s.locate s.self true obj.toNat) 32 = false

/-- The only command that an identifier names. -/
def onlyCmd (s : State) (k : Cmd) : Prop := s.cmds.find? (fun j => j.id == k.id) = some k
/-- A command leaves; a command takes its place. -/
def withoutCmd (s : State) (k : Cmd) : List Cmd := s.cmds.filter fun j => j.id != k.id
def withCmd (s : State) (k : Cmd) : List Cmd := s.cmds.map fun j => if j.id == k.id then k else j
/-- The command has ended: its object has had the last update, and its entry is free (R348, R353). -/
def endedWith (s t : State) (k : Cmd) (o : Obj → Obj) : Prop :=
  objectAt t k.loc.pa = completed { o (objectAt s k.loc.pa) with pend := (objectAt s k.loc.pa).pend - k.left } ∧
    t.cmds = withoutCmd s k ∧ onlyBytes s t [(k.loc.pa, 32)] ∧ t.ctxs = s.ctxs
/-- The header of a COLL (R472): what its command says, and that its own checks or the counts of R473 have failed. -/
def ownHeader (k : Cmd) (kind : CollKind) (op : CollOp) : CollHeader :=
  let a := k.sideA.sh.count; let b := k.sideB.sh.count; let ranks := k.w / 64 + 1
  let fits : Bool := match kind with | .ar => b == a | .ag => b == ranks * a | .rs => a == ranks * b
  { kind := kind, op := op, fmt := BitVec.ofNat 5 k.sideA.sh.fmt, count := a, ord := k.ord, flush := flushBits k.sideA.sh.fmt k.modefp,
    failed := k.code != 0 || !fits }
/-- The object of a command stands in plain memory, no byte of it poisoned. -/
def plainObject (s : State) (k : Cmd) : Prop := plain s k.loc ∧ whole s k.loc.pa 32 ∧ plainWrites s (s.ctx k.ctx).pid

end Sys2Proof.Claims

/-- R344 to R348, R353 and R354, with the counts of the entries. The object is read where plain writes reach it. Which bytes a shape names is
Shape.bytes and Shape.count. That EVICT and PREF count the register as it stands, and a malformed shape what it gives, is log 20 (DEDUCED). -/
def Obligations.EngineCommandsIssue : Prop :=
  ∀ s : State, Inv s →
    (∀ (i : Instr) (rc : Reg) (rel : Bool) (hs : List HReg) (a b : Nat) (ops : List Word) (n : Nat),
      commandOf s i = some (rc, rel, hs, a, b, ops, n) →
      let x := s.self; let c := (s.reg rc).toNat; let l := s.locate x true c
      (∀ k, faultOfAccess s true (.store []) c 64 = some k → exec i s = s.trap k c) ∧
      (faultOfAccess s true (.store []) c 64 = none → ∀ h, hs.find? (fun g => x.shapePending g) = some h → exec i s = s.trap 0x07 h.toNat) ∧
      (faultOfAccess s true (.store []) c 64 = none → (∀ h ∈ hs, x.shapePending h = false) →
        (¬ mayTake s → x.hold = none → ∃ t h, exec i s = .next t ∧ holds s t h ∧ h.fab = s.cycle ∧ t = { s with ctxs := t.ctxs, holders := t.holders } ∧
          t.holders = if (s.holders.any fun w => w.ctx == s.cur) then s.holders else s.holders ++ [⟨s.cur, s.cycle, false⟩]) ∧
        (¬ mayTake s → ∀ h, x.hold = some h → (s.holders.any fun w => w.ctx == s.cur) = true →
          ∃ t, exec i s = .next t ∧ holds s t h ∧ t = { s with ctxs := t.ctxs }) ∧
        (mayTake s → plain s l → whole s l.pa 32 → plainWrites s x.pid → ∃ t u, exec i s = .next t ∧ nopLeaves s u ∧ t.ctxs = (s.setSelf u).ctxs ∧
          t.holders = s.holders.filter (fun h => h.ctx != s.cur) ∧ onlyBytes s t [(l.pa, 32)] ∧
          ((objectAt s l.pa).pend + n ≤ pendTop → objectAt t l.pa = completed (armedFor (objectAt s l.pa) n) ∧
            (∃ k, t.cmds = s.cmds ++ [k] ∧ issuedAs s i k rc rel a b ops n ∧ (∀ h st d m y n1 t1, i = .chain h st d m y n1 t1 → k.kc = s.kc s.pan m)) ∧
            t = { s with ctxs := t.ctxs, mem := t.mem, poison := t.poison, fadds := t.fadds, home := t.home, away := t.away, holders := t.holders, cmds := t.cmds,
                         nextId := s.nextId + 1, latencies := s.latencies.tail }) ∧
          (pendTop < (objectAt s l.pa).pend + n → objectAt t l.pa = completed (reported (objectAt s l.pa) 0x0209 0) ∧
            t = { s with ctxs := t.ctxs, mem := t.mem, poison := t.poison, fadds := t.fadds, home := t.home, away := t.away, holders := t.holders })))) ∧
    (∀ pan : Nat,
      (∀ h ∈ s.holders, h.ctx / 8 = pan → h.granted = false → 0 < entriesLeft s pan →
        (∀ w ∈ s.holders, w.ctx / 8 = pan → w.granted = false → h.since < w.since ∨ (h.since = w.since ∧ h.ctx ≤ w.ctx)) →
        exec (.queueEntryFree pan) s = .next { s with holders := s.holders.map fun w => if w = h then { w with granted := true } else w }) ∧
      (entriesLeft s pan = 0 ∨ (∀ h ∈ s.holders, h.ctx / 8 = pan → h.granted = true) → exec (.queueEntryFree pan) s = .next s))

/-- R346, R350, R351 and R355 to R361. -/
def Obligations.CompletionInstructionsActOnTheirObject : Prop :=
  ∀ s : State, Inv s → let x := s.self
    (∀ i rel rc ra ln, objectRegs i = some (rel, rc, ra, ln) → let c := (s.reg rc).toNat; let l := s.locate x true c
      let ops := (ra.map fun r => s.reg r).toList
      (∀ k, faultOfAccess s true (.store []) c 64 = some k → exec i s = s.trap k c) ∧
      (faultOfAccess s true (.store []) c 64 = none →
        (ln = none → nothingBefore s rel (s.reg rc) → plain s l → whole s l.pa 32 → plainWrites s x.pid →
          ∃ t u o, exec i s = .next t ∧ nopLeaves s u ∧
            t = { s with ctxs := (s.setSelf u).ctxs, mem := t.mem, poison := t.poison, fadds := t.fadds, home := t.home, away := t.away,
                         budgetUsed := t.budgetUsed } ∧
            objectChange i ((ops.headD 0).toNat) (objectAt s l.pa) = some o ∧ objectAt t l.pa = completed o ∧ onlyBytes s t [(l.pa, 32)]) ∧
        (ln.isSome = true ∨ ¬ nothingBefore s rel (s.reg rc) → ∃ k y, issuedAs s i k rc rel 0 0 ops 0 ∧
          (∀ j ∈ s.cmds, j.ctx = s.cur → j.obj = s.reg rc → hasEntry j.instr = false → j.id ∈ k.deps) ∧
          goesOn i s { s with nextId := s.nextId + 1, cmds := s.cmds ++ [k], latencies := s.latencies.tail } y ∧
          (ln = none → y = x) ∧ (∀ r, ln = some r → y.heldAll = x.heldAll ++ (if i = .cpltest rel r rc then [s.nextId] else []) ∧
            y = { x.setLanding r { pending := true, acc := s.nextId } with heldAll := y.heldAll }))) ∧
      (∀ k : Cmd, onlyCmd s k → k.instr = i → k.ready ≤ s.cycle → s.free k.deps = true → plainObject s k →
        ∃ t, exec (.engineComplete k.id) s = .next t ∧ t.cmds = withoutCmd s k ∧
          (∀ o, objectChange i (k.ops.headD 0).toNat (objectAt s k.loc.pa) = some o →
            objectAt t k.loc.pa = completed o ∧ onlyBytes s t [(k.loc.pa, 32)] ∧ t.ctxs = s.ctxs) ∧
          (∀ r, ln = some r → ((s.ctx k.ctx).landing r).pending = true → ((s.ctx k.ctx).landing r).acc = k.id →
            let o := objectAt s k.loc.pa
            (i = .cpltest rel r rc → t.mem = s.mem ∧ t.ctxs = (s.setCtx k.ctx ((s.ctx k.ctx).setLanding r
              { val := BitVec.ofNat 64 ((s.readByte (k.loc.pa + 7)).toNat + 2 ^ 8 * o.code + 2 ^ 24 * o.gen),
                full := true })).ctxs) ∧
            (i = .bararr rel r rc → objectAt t k.loc.pa = completed { o with arr := min 65535 (o.arr + 1) } ∧ onlyBytes s t [(k.loc.pa, 32)] ∧
              t.ctxs = (s.setCtx k.ctx ((s.ctx k.ctx).setLanding r { val := BitVec.ofNat 64 o.gen, full := true })).ctxs)))) ∧
    (∀ i rel rc g ended, waitsFor s i = some (rel, rc, g, ended) →
      let obj := (x.hold.map (·.val)).getD (s.reg rc); let upto := (x.hold.map (·.upto)).getD g
      let l := s.locate x true obj.toNat; let ends := mayTest s rel obj ∧ ended upto (objectAt s l.pa) = true
      (∀ k, x.hold = none → faultOfAccess s true (.store []) (s.reg rc).toNat 64 = some k → exec i s = s.trap k (s.reg rc).toNat) ∧
      (x.hold ≠ none ∨ faultOfAccess s true (.store []) (s.reg rc).toNat 64 = none → plain s l → s.scrub = [] → quiet s →
        (ends → ∃ q, q = { s with home := q.home, away := q.away } ∧ ((objectAt s l.pa).err = false → goesOn i s q x) ∧
          ((objectAt s l.pa).err = true → exec i s = q.trap 0x11 obj.toNat)) ∧
        (¬ ends → ∃ t h, exec i s = .next t ∧ holds s t h ∧ h.val = obj ∧ h.upto = upto ∧ t = { s with ctxs := t.ctxs })) ∧
      (∀ e, e = .cplwaitEnd s.cur ∨ e = .barwaitEnd s.cur → x.hold.isSome = true → x.run = .running → s.turn.head? = some s.cur → standsAt x i →
        (e = .cplwaitEnd s.cur ↔ ∃ r c, i = .cplwait r c) → plain s l → s.scrub = [] →
        (ends → exec e s = exec i { s with turn := s.turn.tail }) ∧ (¬ ends → exec e s = .next s)))

/-- R266 to R268, R305, R348, R353, R365 to R368, R383 and R470 to R475. cmdFault and chainFault are the tables of R365 and R266. The slots of a
command change at the end of the fabric cycle, which applies slotEnds (R366). That the last unit's count goes with the completing write, and
that a COLL whose own counts do not fit says so in its header, is log 20 (DEDUCED). -/
def Obligations.EnginesAcceptPerformAndComplete : Prop :=
  ∀ (s : State) (k : Cmd), Inv s → onlyCmd s k → plainObject s k →
    (k.st = .issued → hasEntry k.instr = true → k.ready ≤ s.cycle → (isChain k.instr = true ∨ s.free k.deps = true) → isColl k.instr = false →
      (∀ c e, s.cmdFault k = some (c, e) ∨ (s.cmdFault k = none ∧ isChain k.instr = true ∧ s.chainFault k = some (c, e)) →
        (s.free k.deps = true → ∃ t, exec (.engineAccept k.id) s = .next t ∧ endedWith s t k fun o => reported o c (e % 2 ^ 64)) ∧
        (s.free k.deps = false → exec (.engineAccept k.id) s =
          .next { s with cmds := withCmd s { k with started := true, st := .waiting, code := c, eadr := e } })) ∧
      (s.cmdFault k = none → isChain k.instr = false → exec (.engineAccept k.id) s =
        .next { s with cmds := withCmd s { k with started := true, st := if k.sides.any (fun d => d.bnd.isSome) then .waiting else .running } }) ∧
      (s.cmdFault k = none → isChain k.instr = true → s.chainFault k = none → exec (.engineAccept k.id) s =
          .next { s with cmds := withCmd s { k with started := true, st := .running, w := 1, ops := s.chainDescs k } })) ∧
    (isChain k.instr = true → k.st = .waiting → s.free k.deps = true → k.code < 65536 →
      ∃ t, exec (.engineComplete k.id) s = .next t ∧ endedWith s t k fun o => reported o k.code (k.eadr % 2 ^ 64)) ∧
    (k.st = .issued → isColl k.instr = true → hasEntry k.instr = true → k.ready ≤ s.cycle → s.free k.deps = true → s.collBefore k = false → s.budgetSpent (fieldOf k.pan) = false →
      k.op 0 % 64 = 0 → s.rangeFault k.ctx 3 (k.op 0) 64 false = none → (s.engRead k.ctx 3 (k.op 0) 64).2 = none →
      ∀ g, Sys2Proof.Machine.groupOf (leNat (s.engRead k.ctx 3 (k.op 0) 64).1) = some g → let x := s.ctx k.ctx
        (s.endpoint? x.tenant g).isSome = true ∨ s.endpoints.length < 256 → ∃ t, exec (.engineAccept k.id) s = .next t ∧ t.ctxs = s.ctxs ∧
          t.endpoints = (if (s.endpoint? x.tenant g).isSome then s.endpoints
            else s.endpoints ++ [⟨x.tenant, BitVec.ofNat 32 g.gid, BitVec.ofNat 6 g.r, x.ref, 0⟩]) ∧
          t.cmds = withCmd s { k with started := true, st := .waiting, q := g.gid, w := 64 * (g.p - 1) + g.r, code := ((s.cmdFault k).getD (0, 0)).1,
                                      eadr := ((s.cmdFault k).getD (0, 0)).2 } ∧
          ∀ h kind op asp bsp gr j, k.instr = .coll h kind op asp bsp gr → j < g.p → j ≠ g.r → let tenant := (s.ctx k.ctx).tenant
            (∀ e ∈ t.endpoints, ¬ (e.tenant = tenant ∧ e.gid = BitVec.ofNat 32 g.gid ∧ e.rank = BitVec.ofNat 6 j)) →
            (∀ e ∈ s.directory, ¬ (e.1 = tenant ∧ e.2.1 = BitVec.ofNat 32 g.gid ∧ e.2.2.1 = BitVec.ofNat 6 j)) →
            ∃ n, flitOf flitCollective 2 s.ownDev s.ownDev tenant (natLe 4 g.gid ++ natLe 1 j ++ natLe 1 g.r ++ natLe 8 n ++
              collHeaderBytes (ownHeader { k with q := g.gid, w := 64 * (g.p - 1) + g.r, code := ((s.cmdFault k).getD (0, 0)).1 } kind op)) ∈ t.returned) ∧
    (isColl k.instr = true → s.budgetSpent (fieldOf k.pan) = true → exec (.engineAccept k.id) s = .next s) ∧
    (k.st ≠ .issued ∨ s.cycle < k.ready ∨ (isChain k.instr = false ∧ s.free k.deps = false) → exec (.engineAccept k.id) s = .next s) ∧
    (k.st = .waiting → isColl k.instr = false → isChain k.instr = false → let l := k.sides.map (s.bindState k.ctx)
      ((∀ b ∈ l, b = .ready) → ∃ t, exec (.engineBindingSlotReady k.id) s = .next t ∧ t.cmds = withCmd s { k with st := .running } ∧ t.mem = s.mem ∧
        t.ctxs = s.ctxs ∧ ∀ d e b, k.sides = [d, e] → d.bnd = some b → e.bnd = none → d.sp = 0 → d.dst = false → Kv.wf ({} : BindCtl) s.nodeCtl = true →
          t.nodeEntry (d.key (panOf k.ctx) b) = firstRead (s.nodeEntry (d.key (panOf k.ctx) b))) ∧
      (∀ c e, l.head? = some (.fail c e) → ∃ t, exec (.engineBindingSlotReady k.id) s = .next t ∧ endedWith s t k fun o => reported o c (e % 2 ^ 64)) ∧
      ((∀ b ∈ l, b = .ready ∨ b = .wait) → .wait ∈ l → exec (.engineBindingSlotReady k.id) s = .next s)) ∧
    (∀ m n t, exec (.engineWritePerformed k.id m) s = .next t → exec (.engineWritePerformed k.id (m + n)) s = exec (.engineWritePerformed k.id n) t) ∧
    exec (.engineWritePerformed k.id 0) s = .next s ∧
    (s.mayPerform k = false → ∀ n, exec (.engineWritePerformed k.id n) s = .next s) ∧
    (∀ h d rv, k.instr = .tfill h d rv → s.mayPerform k = true → d.bnd = false → d.sp.toNat < 2 →
      let b := shapeOf k.b; let w := b.width / 8; let base := if d.sp = 0 then 2 ^ 48 + panOf k.ctx * 2 ^ 20 else 2 ^ 49 + k.ctx / 128 * 2 ^ 23
      b.width % 8 = 0 → b.pos k.p % 8 = 0 → 0 ≤ b.pos k.p → let a := base + (b.pos k.p / 8).toNat
      apart a w k.loc.pa 32 → ∃ t, exec (.engineWritePerformed k.id 1) s = .next t ∧ t.ctxs = s.ctxs ∧
        little (bytesAt t a w) = k.op 0 % 256 ^ w ∧ onlyBytes s t [(a, w), (k.loc.pa, 32)] ∧
        let n := if k.p + 1 < b.count then (k.p + 1) * b.width / 8 - k.p * b.width / 8 else 0
        t.cmds = withCmd s { k with p := k.p + 1, left := k.left - n } ∧
        (n = 0 → objectAt t k.loc.pa = objectAt s k.loc.pa) ∧
        (n ≠ 0 → objectAt t k.loc.pa = completed { objectAt s k.loc.pa with pend := (objectAt s k.loc.pa).pend - n })) ∧
    (k.st = .running → k.performed = true → hasEntry k.instr = true → isChain k.instr = false →
      ∃ t, exec (.engineComplete k.id) s = .next t ∧
        (endedWith s t k fun o => match k.instr with | .sisect .. => { o with result := (o.result + k.w) % 2 ^ 64 } | _ => o) ∧
        t.nodeCtl = s.nodeCtl ∧ t.concCtl = s.concCtl ∧ ((∀ d ∈ k.sides, d.bnd = none) → t.slotEnds = s.slotEnds) ∧
        ∀ d b, d ∈ k.sides → (∀ e ∈ k.sides, e ≠ d → e.bnd = none) → d.bnd = some b → d.sp = 0 → s.slotEnds = [] →
          Kv.wf ({} : BindCtl) s.nodeCtl = true →
          let e := s.nodeEntry (d.key (panOf k.ctx) b)
          t.applySlotEnds.nodeEntry (d.key (panOf k.ctx) b) = if d.dst then e.complete e.wp else emptied e) ∧
    (isChain k.instr = true → k.st ≠ .waiting → k.q = 1 → s.free k.deps = true →
      ∃ t, exec (.engineComplete k.id) s = .next t ∧ endedWith s t k id) ∧
    (∀ tok, s.tokenDue k tok = false → exec (.chainToken k.id tok) s = .next s) ∧
    (∀ tok, s.tokenDue k tok = true → tok ≠ k.p → ∀ g, let gs := k.stages; let vs := k.token tok
      vs ≠ [] → gs[vs.length - 1]? = some g → g.isBq = false → vs.length = gs.length →
      exec (.chainToken k.id tok) s = .next { s with
        writes := s.writes ++ [k.chainWrite (k.enters gs (vs.length - 1) tok + g.lat + 1) tok
          (stageValue g.row (s.modeOf k.ctx) (vs.getD (vs.length - 1) 0) (Sys2Proof.Machine.operandOf vs g.b g.kb) (Sys2Proof.Machine.operandOf vs g.c g.kc))
          (decide (tok + 1 = k.sideB.sh.count))],
        cmds := withCmd s { k with toks := k.toks.filter fun e => e.1 != tok } }) ∧
    (s.tokenDue k k.p = true → k.token k.p = [] → let n := k.sideA.place ⟨0, 0, 0, 0⟩ k.p
      (∀ b, s.emptyInput k.pan n.1.toNat n.2.2 = some b → ∃ t f, exec (.chainToken k.id k.p) s = .next t ∧ t = { s with bfaults := s.bfaults ++ [f] } ∧
        f.cause = 0x07) ∧
      (s.emptyInput k.pan n.1.toNat n.2.2 = none → s.poisoned (nodeBase k.pan + n.1.toNat) n.2.2 = none →
        ∃ t j, exec (.chainToken k.id k.p) s = .next t ∧ t.bfaults = s.bfaults ∧ j ∈ t.cmds ∧ j.id = k.id ∧ j.p = k.p + 1)) ∧
    (∀ h kind op asp bsp gr headers peer data, k.instr = .coll h kind op asp bsp gr → k.st = .waiting →
      let x := s.ctx k.ctx; let rank := k.w % 64; let ranks := k.w / 64 + 1
      let earlier := fun (j : Cmd) => j ∈ s.cmds ∧ isColl j.instr = true ∧ j.st = .waiting ∧ j.id < k.id ∧ j.q = k.q ∧ j.w % 64 = rank ∧
        (s.ctx j.ctx).tenant = x.tenant
      let tells := fun (j : Nat) => if j = rank then some (ownHeader k kind op) else (headers[j]?).join
      let counted := s.endpoints.map fun (e : Endpoint) =>
        if e.tenant = x.tenant ∧ e.gid.toNat = k.q ∧ e.rank.toNat = rank then { e with k := e.k + 1 } else e
      let failed := fun (code j : Nat) => ∃ t, exec (.collHeaderMatch k.id headers peer data) s = .next t ∧ t.endpoints = counted ∧
        endedWith s t k fun o => reported (if k.code ≠ 0 then reported o k.code (k.eadr % 2 ^ 64) else o) code j
      let agrees := fun (j : Nat) => ∃ hd, tells j = some hd ∧ hd.failed = false ∧ tells 0 = some hd
      ((∃ j, earlier j) → exec (.collHeaderMatch k.id headers peer data) s = .next s) ∧
      ((¬ ∃ j, earlier j) → k.code < 65536 → ranks ≤ 64 →
        (∀ j, j < ranks → tells j = none → (∀ i, i < j → tells i ≠ none) → failed 0x0212 j) ∧
        ((∀ j, j < ranks → tells j ≠ none) →
          (∀ j, j < ranks → ¬ agrees j → (∀ i, i < j → agrees i) → failed 0x0211 j) ∧
          ((∀ j, j < ranks → agrees j) →
            let lost := peer < ranks ∧ peer ≠ rank
            (lost → data = [] → failed 0x0212 peer) ∧
            (¬ (lost ∧ data = []) → s.budgetSpent (fieldOf k.pan) = true → exec (.collHeaderMatch k.id headers peer data) s =
              .next { s with inputs := s.inputs ++ [(s.cycle + 1, .collHeaderMatch k.id headers peer data)] }) ∧
            (¬ (lost ∧ data = []) → s.budgetSpent (fieldOf k.pan) = false → (∀ a n, s.engLost k.ctx k.sideB.sp a n = none) →
              (s.getElems k.ctx k.sideA (List.range k.sideA.sh.count)).2.2 = none →
              ∃ t, exec (.collHeaderMatch k.id headers peer data) s = .next t ∧ t.endpoints = counted ∧ t.ctxs = s.ctxs ∧
                t.cmds = if lost then withoutCmd s k else withCmd s { k with st := .running, p := 1 }))))) ∧
    (∀ op fmt i count v vs, k.ord = true → collSum k op fmt i count (v :: vs) = vs.foldl (fun a b => collOp op fmt k.modefp a b) v)

namespace Sys2Proof.Claims

/-- The tables of contexts, tasks, blocks and slots are in canonical form. -/
def tidyTables (s : State) : Prop :=
  Kv.wf ({} : Ctx) s.ctxs = true ∧ Kv.wf ({ r := noRec } : SlotRec) s.slotTab = true ∧ Kv.wf ({} : Task) s.tasks = true ∧
    Kv.wf (0 : Nat) s.fieldTenant = true ∧ Kv.wf ({} : Meta) s.metas = true ∧ Kv.wf ({} : BlkRun) s.runs = true

/-- A record of a slot table that waits to be taken (R287). -/
def candidateFor (s : State) (pan : Nat) (e : SlotRec) : Prop :=
  e.r.v = true ∧ e.taken = false ∧ e.bad = false ∧ e.done = false ∧ e.r.start.toNat ≤ (s.tide pan).toNat + 1024
/-- The order of the records of a pan: PRIO, then START, then index (R287). -/
def goesBefore (a b : Nat × SlotRec) : Prop :=
  a.2.r.prio.toNat < b.2.r.prio.toNat ∨ (a.2.r.prio = b.2.r.prio ∧
    (a.2.r.start.toNat < b.2.r.start.toNat ∨ (a.2.r.start = b.2.r.start ∧ a.1 < b.1)))
/-- The dispatcher takes the record now (R287, R303, R420, R427, R494). -/
def mayBeDispatched (s : State) (pan idx : Nat) : Prop :=
  let e := s.record pan idx
  candidateFor s pan e ∧ (∀ c, c / 8 = pan → (s.ctx c).run ≠ .free → (s.ctx c).slots &&& e.r.slots = 0) ∧
    (∀ j, j < 16 → candidateFor s pan (s.record pan j) → goesBefore (j, s.record pan j) (idx, e) → (s.record pan j).r.slots &&& e.r.slots = 0) ∧
    (∃ c, c / 8 = pan ∧ (s.ctx c).run = .free) ∧ (∀ c, c / 128 = pan / 16 → (s.ctx c).run ≠ .free → (s.ctx c).tenant = e.r.tenant) ∧
    (Kv.get 0 s.fieldTenant (pan / 16) = 0 ∨ Kv.get 0 s.fieldTenant (pan / 16) = e.r.tenant.toNat + 1) ∧
    (s.part (s.owner (pan / 16))).rst = false ∧ s.taskLive (s.recRef pan e.r) = true ∧ s.bringUp = 7
/-- The lowest free context of a pan (R288). -/
def lowestFree (s : State) (pan c : Nat) : Prop :=
  c / 8 = pan ∧ (s.ctx c).run = .free ∧ ∀ b, b / 8 = pan → b < c → (s.ctx b).run ≠ .free
/-- What a record gives the context that is loaded for it (R286, R288). -/
def bearsRecord (y : Ctx) (s : State) (idx : Nat) (e : SlotRec) (inst : BitVec 24) : Prop :=
  let time := fun (v : BitVec 14) (dflt : Nat) => if v = 0 then dflt else min 10000 (max 10 v.toNat)
  y.run = .loading ∧ y.task = e.r.task ∧ y.inst = inst ∧ y.tenant = e.r.tenant ∧ y.slots = e.r.slots ∧ y.prio = e.r.prio ∧ y.recIdx = idx ∧
    y.grace.toNat = time e.r.grace Config.graceDefault ∧ y.kill.toNat = time e.r.kill Config.killDefault ∧
    s.cycle ≤ y.readyAt ∧ y.readyAt ≤ s.cycle + 1024
/-- The LPB that a record stands for (R286): the copy at SRC, or with RES = 1 the one that the task was taken with (log 63). -/
def lpbFor (s : State) (pan : Nat) (r : BindRec) : Lpb :=
  if r.res then (s.task (s.recRef pan r)).info else lpbOf (bytesAt s r.src.toNat 256)
/-- A context loaded for an instance as new (R288): the entry and the handler of its LPB, the pans of the map at MAPP (log 62), and every
register zero. -/
def loadedFor (s t : State) (c pan idx : Nat) (e : SlotRec) (inst : BitVec 24) : Prop :=
  let y := t.ctx c
  let l := lpbFor s pan e.r
  let r := s.recRef pan e.r
  bearsRecord y s idx e inst ∧ y.pid = r.pid ∧
    y.map = (List.range (l.pans * l.fields * l.dies)).map (fun k => little (bytesAt s (e.r.mapp.toNat + 2 * k) 2)) ∧ y.pc = BitVec.ofNat 56 l.entry ∧ y.tvec = BitVec.ofNat 56 l.handler ∧ y.ord = l.ord ∧ (∀ r, y.reg r = 0) ∧
    (∀ n, y.landing n = {}) ∧ y.flight = [] ∧ y.ls = [] ∧ y.hnd = false ∧ y.modefp = 0 ∧ y.hold = none ∧
    (∀ b, b ≠ c → t.ctx b = s.ctx b) ∧ t.mem = s.mem ∧ ((s.task r).state ≠ .exited → (t.task r).state = .running) ∧
    ∀ m, m < 16 → let q := Kv.get {} t.metas (16 * pan + m); q.v = 0 ∧ q.valid = false ∧ q.acc = 0

/-- A context that a halt can stop (R393). -/
def stoppable (x : Ctx) : Prop := x.run = .running ∨ x.run = .stop ∨ x.run = .loading
/-- The program tide of a context has reached a halt tide: one with its top bit set lies before τ = 0 (R458). -/
abbrev tidePast (s : State) (c : Nat) (v : Word) : Prop :=
  (s.tide (c / 8) - (s.ctx c).tb).msb = false ∧ v.toNat ≤ (s.tide (c / 8) - (s.ctx c).tb).toNat
/-- A context is at the halt point that its request asks for: wheel position 0, or its halt tide, on a domain that does not stand
(R393, R447, R458); one whose halt tide an ECALL has let pass is at it in every later cycle. -/
def atTheHaltPoint (s : State) (c : Nat) : Prop :=
  ∃ t m, (s.ctx c).haltReq = some (t, m) ∧ t < s.cycle ∧ (s.domain (s.domOf (c / 8))).stallAt = none ∧
    match m with
    | none => (s.tide (c / 8)).toNat % 8 = 0
    | some v => tidePast s c v

end Sys2Proof.Claims

/-- R286 to R291, R303, R420, R427 and R438. The reads of a load are stated with no commit under way and no line left to scrub (R324, R428), and
everything with the tables in canonical form. -/
def Obligations.ContextsAreTakenLoadedAndStarted : Prop :=
  ∀ (s : State) (pan c : Nat) (idx : BitVec 4), tidyTables s → let e := s.record pan idx.toNat
    (mayBeDispatched s pan idx.toNat → e.r.res = false → lowestFree s pan c → quiet s → s.scrub = [] → ∃ t, exec (.dispatchTake pan idx) s = .next t ∧
      loadedFor s t c pan idx.toNat e e.r.ifirst ∧ (t.ctx c).startAt = some e.r.start ∧ (t.ctx c).tb = e.r.start ∧
      t.record pan idx.toNat = { e with taken := true, ctx := BitVec.ofNat 3 c, cur := e.r.ifirst } ∧
      Kv.get 0 t.fieldTenant (pan / 16) = e.r.tenant.toNat + 1) ∧
    (¬ mayBeDispatched s pan idx.toNat ∨ e.r.res = true → exec (.dispatchTake pan idx) s = .next s) ∧
    (candidateFor s pan e → e.late = false → e.r.start.toNat ≤ (s.tide pan).toNat →
      exec (.lateStart pan idx) s = .next { s.setRecord pan idx.toNat { e with late := true } with fw := s.fw ++ [.lateStart pan idx] }) ∧
    (¬ candidateFor s pan e ∨ e.late = true ∨ (s.tide pan).toNat < e.r.start.toNat → exec (.lateStart pan idx) s = .next s) ∧
    (let x := s.ctx c; let T := s.tide (c / 8)
     let due := x.run = .loading ∧ x.readyAt ≤ s.cycle ∧ x.slots.getLsbD (T.toNat % 8) = true ∧ ∀ v, x.startAt = some v → v.toNat ≤ T.toNat
     (due → ∃ t, exec (.contextStart c) s = .next t ∧ t.ctx c = { x with run := .running, tb := if x.startAt = none then T else x.tb } ∧
        (∀ b, b ≠ c → t.ctx b = s.ctx b) ∧ t.mem = s.mem ∧ t.slotTab = s.slotTab ∧
        t.cmds = (s.cmds.map fun k =>
          if k.ctx = c ∧ k.st = .stopped ∧ ¬ (isChain k.instr = true ∧ k.code = 1) then
            { k with st := if isChain k.instr = true ∧ k.w = 1 then .running else .issued, code := 0 }
          else k) ∧
        ∀ p m, (s.runOf p m).live = true → (s.runOf p m).ctx = c → (t.runOf p m).stopped = (s.runOf p m).faulted) ∧
     (¬ due → exec (.contextStart c) s = .next s)) ∧
    (let b := 8 * pan + e.ctx.toNat; let x := s.ctx b
     let next := e.taken = true ∧ e.done = false ∧ x.run = .exited ∧ x.task = e.r.task ∧ x.inst = e.cur ∧ e.cur.toNat < e.r.ilast.toNat ∧
       ((s.task (s.recRef pan e.r)).inst e.cur).retired = true ∧ (s.part (s.owner (pan / 16))).rst = false
     (next → quiet s → s.scrub = [] → ∃ t, exec (.nextInstanceLoad pan idx) s = .next t ∧ loadedFor s t b pan idx.toNat e (e.cur + 1) ∧ (t.ctx b).startAt = none ∧
        t.record pan idx.toNat = { e with cur := e.cur + 1 }) ∧
     (¬ next → exec (.nextInstanceLoad pan idx) s = .next s))

/-- R317, R395, R397 to R408, R411, R412 and R459. What an image holds, and which bytes it is, is Image; whether it fits is State.imageBad, and
whether its configuration does State.mirrorRoom. That a table which cannot be built leaves the record bad is log 65 (DEDUCED); the slots of
the banks and the time of firmware's copy, on which State.savable rests, are log 64, and the meaning of an image's bytes is log 30. -/
def Obligations.InstancesAreSavedAndResumed : Prop :=
  ∀ (s : State) (task : TaskRef) (inst : BitVec 24) (addr : BitVec 48) (pan c : Nat) (idx : BitVec 4), let e := s.record pan idx.toNat
    (s.savable (s.ctxsOf task inst) = true → tidyTables s → ∃ t, exec (.save task inst addr) s = .next t ∧
      (∀ b, ofInstance (s.ctx b) task inst → t.ctx b = {}) ∧ (∀ b, ¬ ofInstance (s.ctx b) task inst → t.ctx b = s.ctx b) ∧
      (∀ k, k ∈ t.cmds ↔ k ∈ s.cmds ∧ ¬ ofInstance (s.ctx k.ctx) task inst) ∧
      (let i := s.imageOf task inst (s.ctxsOf task inst)
       t.images = s.images ++ [i] ∧ (s.scrub = [] → Inv s → bytesAt t addr.toNat i.bytes.length = i.bytes ∧ onlyBytes s t [(addr.toNat, i.bytes.length)])) ∧
      ((s.task task).state ≠ .exited → ((t.task task).inst inst).evicted = true ∧
        ((∀ b, (t.ctx b).run ≠ .free → (t.ctx b).ref ≠ task) → 0 < (t.task task).count →
          ((t.task task).insts.filter fun n => n.2.evicted && !n.2.retired).length = (t.task task).count → (t.task task).state = .swapped))) ∧
    (s.savable (s.ctxsOf task inst) = false → exec (.save task inst addr) s = .next s) ∧
    (s.savable (s.ctxsOf task inst) = true → ∃ t u, exec (.swap task inst addr pan idx) s = .next u ∧ exec (.save task inst addr) s = .next t ∧
      exec (.resumption pan idx) t = .next u) ∧
    (s.savable (s.ctxsOf task inst) = false → exec (.swap task inst addr pan idx) s = .next s) ∧
    (¬ candidateFor s pan e ∨ e.r.res = false → exec (.resumption pan idx) s = .next s) ∧
    (candidateFor s pan e → e.r.res = true →
      (s.imageAt (s.part (s.owner (pan / 16))) e.r.src.toNat = none → exec (.resumption pan idx) s = .next (s.setRecord pan idx.toNat { e with bad := true })) ∧
      (∀ i, s.imageAt (s.part (s.owner (pan / 16))) e.r.src.toNat = some i →
        (s.imageBad pan e i = true → exec (.resumption pan idx) s = .next (s.setRecord pan idx.toNat { e with bad := true })) ∧
        (s.imageBad pan e i = false → ¬ mayBeDispatched s pan idx.toNat → exec (.resumption pan idx) s = .next s) ∧
        (s.mirrorRoom (s.recMap pan e.r) (i.own e) = false → s.imageBad pan e i = false → exec (.resumption pan idx) s = .next s) ∧
        (∀ sec, s.imageBad pan e i = false → mayBeDispatched s pan idx.toNat → lowestFree s pan c → s.mirrorRoom (s.recMap pan e.r) (i.own e) = true →
          (i.own e).find? (fun q => q.p == q.r) = some sec → let u := s.buildTable (s.recRef pan e.r) (pan / 96) e.r.extp.toNat
          (u.2 = false → exec (.resumption pan idx) s = .next (u.1.setRecord pan idx.toNat { e with bad := true })) ∧
          (u.2 = true → quiet s → s.scrub = [] → tidyTables s → ∃ t, exec (.resumption pan idx) s = .next t ∧ let x := sec.ctx; let y := t.ctx c
            bearsRecord y s idx.toNat e e.r.ifirst ∧ y.pc = x.pc ∧ y.ls = x.ls ∧ y.h = x.h ∧ y.l = x.l ∧ y.modefp = x.modefp ∧ y.hnd = x.hnd ∧
            y.tvec = x.tvec ∧ y.tpc = x.tpc ∧ y.tval = x.tval ∧ y.yreq = false ∧ y.haltCount = i.haltCount ∧ y.startAt = some e.r.start ∧
            y.tb = e.r.start - x.tauH ∧ (i.note = true → y.loadFault = some (0x13, BitVec.ofNat 64 i.haltCount)) ∧
            ((∀ q ∈ [x.y0, x.y1, x.y2, x.y3], q.due = none ∧ (q.v = true → q.hlt = true → q.cnt ≠ 0)) → ∀ r, y.reg r = x.reg r) ∧
            (∀ b, b ≠ c → t.ctx b = s.ctx b) ∧
            (∀ k ∈ i.cmds, k.pan = sec.ctx.map.getD sec.r 0 →
              ∃ j ∈ t.cmds, j.ctx = c ∧ j.pan = c / 8 ∧ j.instr = k.instr ∧ j.p = k.p ∧ j.q = k.q ∧ j.w = k.w ∧ j.left = k.left) ∧
            t.record pan idx.toNat = { e with taken := true, ctx := BitVec.ofNat 3 c, cur := e.r.ifirst } ∧
            (t.task (s.recRef pan e.r)).state = .running))))

/-- R393 to R396, R409, R412, R414, R415, R421, R447, R458 and R493. That a context being loaded can be halted, and what a nested or debug
halt still owes, is log 14 (DEDUCED); that an accepted ECALL is answered before the halt is log 45 (DEDUCED). -/
def Obligations.RequestsHaltContextsAndTheLadderEndsThem : Prop :=
  ∀ (s : State) (c : Nat) (task : TaskRef) (inst : BitVec 24), Kv.wf ({} : Ctx) s.ctxs = true → let x := s.ctx c
    let owes := fun (w : UnitWrite) => w.unit = 2 ∧ (s.runOf w.pan w.mask).live = true ∧ (s.runOf w.pan w.mask).ctx = c
    (∀ m : Option (BitVec 64), (stoppable x → exec (.haltRequest c m) s = .next (s.setCtx c { x with
        haltReq := some (s.cycle, m.bind fun v => if tidePast s c v then none else some v) })) ∧
      (¬ stoppable x → exec (.haltRequest c m) s = .next s)) ∧
    (atTheHaltPoint s c → x.hold = none → x.occ = 0 → x.bfault = none → tidyTables s → Kv.wf (0 : Nat) s.kcnt = true →
      ∃ t, exec (.haltPoint c) s = .next t ∧ let y := t.ctx c
      y.run = .halting ∧ y.haltReq = none ∧ s.cycle < y.readyAt ∧ y.flight = [] ∧
      (x.loose.length + (x.flight.filter Flight.toS).length + (x.replays.filter (·.v)).length ≤ 4 → ∀ r, y.reg r = x.reg r) ∧ y.loose = [] ∧ y.ls = x.ls ∧ y.body = none ∧
      y.pc = (match x.body with | some b => b.pc | none => x.pc) ∧ y.tauH = s.tide (c / 8) - x.tb ∧ t.mem = s.mem ∧
      (∀ r v d long q, x.flight = [⟨.s r, v, d, long, none, q⟩] → x.loose = [] → x.y0.v = false → y.y0 = ⟨true, r, BitVec.ofNat 5 (d - x.cyc), true, v, none, none, q, none⟩) ∧
      (∀ b, b ≠ c → t.ctx b = s.ctx b) ∧ (∀ p m, (s.runOf p m).live = true → (s.runOf p m).ctx = c → (t.runOf p m).stopped = true ∧
        (blkKey p m ∉ s.clocked → t.kc p m = s.kc p m) ∧ (blkKey p m ∈ s.clocked → s.clocked.Nodup → t.kc p m = s.kc p m - 1)) ∧
      t.cmds = s.cmds.map fun k => if k.ctx = c ∧ k.runsOn = false then { k with st := .stopped } else k) ∧
    (¬ atTheHaltPoint s c → exec (.haltPoint c) s = .next s) ∧
    (∀ rd ra svc h r, atTheHaltPoint s c → standsAt x (.ecall rd ra svc) → x.hold = some h → h.stage = 1 → x.haltReq = some r →
      exec (.haltPoint c) s = .next (s.setCtx c { x with haltReq := some (r.1, some (r.2.getD (s.tide (c / 8) - x.tb))) })) ∧
    (x.run = .halting → x.readyAt ≤ s.cycle → (∀ w ∈ s.writes, ¬ owes w) → Kv.wf ({} : BlkRun) s.runs = true →
      exec (.haltComplete c) s = .next { s.setCtx c { x with run := .halted .request } with fw := s.fw ++ [.haltComplete c] }) ∧
    (x.run ≠ .halting ∨ s.cycle < x.readyAt → (∀ w, x.run ≠ .halted w) → exec (.haltComplete c) s = .next s) ∧
    ((∃ w, x.run = .halted w) → Kv.wf ({} : BlkRun) s.runs = true → ∃ t, exec (.haltComplete c) s = .next t ∧ (∀ w ∈ t.writes, ¬ owes w) ∧
      (quiet s → ∀ b, b ≠ c → t.ctx b = s.ctx b) ∧ ((∀ w ∈ s.writes, ¬ owes w) → x.occ = 0 → t = s)) ∧
    (∃ t, exec (.softRequest task inst) s = .next t ∧ t = { s with ctxs := t.ctxs } ∧ ∀ b,
      (ofInstance (s.ctx b) task inst → (∀ w, (s.ctx b).run ≠ .halted w) → (s.ctx b).run ≠ .exited → t.ctx b = { s.ctx b with yreq := true }) ∧
      (¬ ofInstance (s.ctx b) task inst ∨ (∃ w, (s.ctx b).run = .halted w) ∨ (s.ctx b).run = .exited → t.ctx b = s.ctx b)) ∧
    (∃ t, exec (.graceExpiry task inst) s = .next t ∧ t = { s with ctxs := t.ctxs, fw := s.fw ++ [.graceEnd task inst] } ∧ ∀ b,
      (ofInstance (s.ctx b) task inst → stoppable (s.ctx b) → t.ctx b = { s.ctx b with haltReq := some (s.cycle, none) }) ∧
      (¬ ofInstance (s.ctx b) task inst ∨ ¬ stoppable (s.ctx b) → t.ctx b = s.ctx b)) ∧
    (x.run = .free ∨ x.run = .exited → exec (.killExpiry c) s = .next s) ∧
    (x.run ≠ .free → x.run ≠ .exited → ∃ t, exec (.killExpiry c) s = .next t ∧
      (∀ u, s.taskLive x.ref = true → exec (.instanceEnd x.ref x.inst) s = .next u → x.inst.toNat < (s.task x.ref).info.count →
        t.ctxs = u.ctxs ∧ t.tasks = u.tasks) ∧
      ∀ p ∈ x.map, (∀ q a, q / 16 = p / 16 → a < (s.part x.pid).nodeFootprint → t.readByte (nodeBase q + a) = 0) ∧
        ∀ a, a < (s.part x.pid).fieldFootprint → t.readByte (fieldBase (p / 16) + a) = 0) ∧
    (∃ t, exec .thermalEmergency s = .next t ∧ t.thermal = true ∧ (s.thermal = false → FwEvent.thermal ∈ t.fw) ∧
      (∀ b, stoppable (s.ctx b) → ∃ q, t.ctx b = { s.ctx b with haltReq := some (q, none) } ∧
        ((∀ q, (s.ctx b).haltReq ≠ some (q, none)) → q = s.cycle)) ∧
      ∀ r i, s.boundInsts = [(r, i)] → s.savable (s.ctxsOf r i) = true → ∀ b, ofInstance (s.ctx b) r i → t.ctx b = {}) ∧
    (∃ t, exec .hardTrip s = .next t ∧ t.poweredOff = true ∧ t.bringUp = 0 ∧ t.ctxs = [] ∧ t.mem = [] ∧ t.parts = [] ∧ t.wolas = [] ∧
      (∀ link : BitVec 5, link.toNat < 17 → (t.link link).up = false) ∧ t.life = s.life ∧
      t.fuseVersion = s.fuseVersion ∧ t.keyStore = s.keyStore ∧ t.fuses = s.fuses ∧ t.remap = s.remap)

namespace Sys2Proof.Claims

/-- A TIDEW waits for the present T of a domain (R444). -/
def waitsAt (s : State) (d c : Nat) : Prop :=
  s.domOf (c / 8) = d ∧ (s.ctx c).run = .running ∧ (s.ctx c).markDone = false ∧
    ∃ m, (s.ctx c).mark = some m ∧ (s.ctx c).tb + m = (s.domain d).t

/-- The position of a slot of a stream in its sluice, as the state numbers positions (R450). -/
def placeOf (s : State) (key k : Nat) : Nat := key / 16 * 16384 + (s.stream key).first + k % max 1 (s.stream key).depth
/-- The path between two dies goes over the link of the ring from a die to the next one: the shorter way round, and of two equal ways the one
up from the lower die (log 36). -/
def crosses (link a b : Nat) : Prop :=
  let n := (b + 8 - a) % 8
  if n < 4 ∨ (n = 4 ∧ a < b) then ∃ k, k < n ∧ (a + k) % 8 = link else ∃ k, k < 8 - n ∧ (b + k) % 8 = link
/-- The CID of a partition (R418). -/
def cidFor (pid : Nat) : BitVec 16 := Config.cidCheck (BitVec.ofNat 8 pid) ++ BitVec.ofNat 8 pid
/-- What travels under an identifier, where it belongs, and when it arrives. -/
def travels (s : State) (id key due : Nat) (t : Transit) : Prop := s.inTransit id = some (key, due, t)
/-- It has left what travels on its stream. -/
def arrivedFrom (s t : State) (key id : Nat) : Prop := ∀ e ∈ (t.stream key).transit, e ∈ (s.stream key).transit ∧ e.2.1 ≠ id

end Sys2Proof.Claims

/-- R439, R444, R445, R447, R449, R451 to R454, R482 and R495. Whether a waiting context may go on is State.releasable. That a sample is known
once the latency of its path has passed is log 42 (DEDUCED); its phase, and the way round between opposite dies, are log 36 (DESIGN CHOICE). -/
def Obligations.DomainsStallAtMarksAndStreamSlotsTravel : Prop :=
  ∀ s : State, Kv.wf ({} : Ctx) s.ctxs = true → Kv.wf ({} : Domain) s.domains = true → Kv.wf ({} : Stream) s.streams = true →
    Kv.wf ({} : Place) s.sluice = true → unarmed s →
    (∀ d : Nat, let x := s.domain d
      (x.stallAt = none → s.begun = false → (∃ c, waitsAt s d c) → ∃ t, exec (.domainStall d) s = .next t ∧ (t.domain d).stallAt = some x.t ∧
        (t.domain d).t = x.t ∧ (t.domain d).reachedAt = s.cycle ∧ (t.domain d).stallCyc = 0 ∧ t.ctxs = s.ctxs ∧ t.mem = s.mem ∧
        ∀ c m, waitsAt s d c → (s.ctx c).mark = some m → ∀ f ∈ s.alignSet c, f ≠ d →
          (⟨d, (s.ctx c).task, (s.ctx c).inst, m, s.cycle⟩ : Arrival) ∈ (t.domain f).arrived) ∧
      (x.stallAt ≠ none ∨ s.begun = true ∨ (∀ c, ¬ waitsAt s d c) → exec (.domainStall d) s = .next s) ∧
      (let may := x.stallAt ≠ none ∧ (s.pwrOf d).ramp = false ∧ s.begun = false ∧ ∀ c, waitsAt s d c → s.releasable d c = true
       (may → ∃ t, exec (.markRelease d) s = .next t ∧ (t.domain d).stallAt = none ∧ (t.domain d).t = x.t ∧
          t = { s with ctxs := t.ctxs, domains := t.domains } ∧
          (Kv.wf (none : Option (Nat × Word)) x.rels = true → ∀ c f, waitsAt s d c → f ∈ s.alignSet c → f ≠ d → Kv.get none (t.domain d).rels f = some (s.cycle, x.t - (s.domain f).t)) ∧
          ∀ c, (waitsAt s d c → t.ctx c = { s.ctx c with markDone := true, markStall := x.stallCyc }) ∧ (¬ waitsAt s d c → t.ctx c = s.ctx c)) ∧
       (¬ may → exec (.markRelease d) s = .next s))) ∧
    (∀ f d : Nat, (f = d ∨ f / 8 ≠ d / 8 → exec (.tideSample f d) s = .next s) ∧
      (f ≠ d → f / 8 = d / 8 → let T := (s.domain f).t; let x := s.domain d; let l := Kv.get [] x.samples f
        Kv.wf ([] : List Sample) x.samples = true →
        let sends := s.cycle % 256 = 0 ∧ (∀ k ∈ s.uncal, ¬ crosses k (f % 8) (d % 8)) ∧ ∀ y ∈ l, y.when ≠ s.cycle
        let now := fun (y : Sample) => y.when + y.lat ≤ s.cycle
        let shows := fun (y : Sample) => ∃ r off, Kv.get none x.rels f = some (r, off) ∧ r ≤ y.when ∧
          (y.when - r + 9999) / 10000 + 2 < min (y.gap - off).toNat (off - y.gap).toNat
        ∃ t L, exec (.tideSample f d) s = .next t ∧
          (sends → L = ⟨T, s.cycle, s.sideLat f d, x.t - T, false⟩ :: currentSamples s.cycle l) ∧ (¬ sends → L = l) ∧
          Kv.get [] (t.domain d).samples f = L.map (fun y => if y.when + y.lat ≤ s.cycle then { y with came := true } else y) ∧
          (let drifts := (∃ c, (s.ctx c).run ≠ .free ∧ s.domOf (c / 8) = d ∧ f ∈ s.alignSet c) ∧ ∃ y ∈ L, y.came = false ∧ now y ∧ shows y
           (drifts → t.fw = s.fw ++ [.drift f d]) ∧ (¬ drifts → t.fw = s.fw)) ∧ t = { s with domains := t.domains, fw := t.fw } ∧
          (∀ g, g ≠ f → Kv.get [] (t.domain d).samples g = Kv.get [] x.samples g) ∧ ∀ g, g ≠ d → t.domain g = s.domain g)) ∧
    (∀ (die : BitVec 3) (lat : Option Nat), ∃ t, exec (.linkRetrain die lat) s = .next t ∧
      t = { s with sideband := t.sideband, domains := t.domains, uncal := t.uncal, freeCtr := t.freeCtr } ∧
      t.uncal = s.uncal.filter (· ≠ die.toNat) ++ (if lat = none then [die.toNat] else []) ∧
      ∀ d f, (t.domain d).t = (s.domain d).t ∧
        (crosses die.toNat (f % 8) (d % 8) → Kv.get [] (t.domain d).samples f = [] ∧ (lat = none → t.latKnown f d = false)) ∧
        (¬ crosses die.toNat (f % 8) (d % 8) → t.sideLat f d = s.sideLat f d ∧
          (Kv.wf ([] : List Sample) (s.domain d).samples = true → Kv.get [] (t.domain d).samples f = Kv.get [] (s.domain d).samples f)) ∧
        ∀ l, lat = some l → d % 8 = die.toNat → f % 8 = (die.toNat + 1) % 8 → t.sideLat d f = l ∧ t.sideLat f d = l) ∧
    (∀ id key due k, (∀ tr, travels s id key due tr → s.cycle < due → exec (.sluiceSlotArrival id) s = .next s ∧ exec (.sluicePositionFree id) s = .next s) ∧
      (s.inTransit id = none → exec (.sluiceSlotArrival id) s = .next s ∧ exec (.sluicePositionFree id) s = .next s) ∧
      (due ≤ s.cycle → let x := s.position (placeOf s key k); let st := s.stream key
        let refused := st.refusing = some k ∨ (x.used = true ∧ x.k ≠ k)
        (∀ off bs, travels s id key due (.bytes k off bs) → ∃ t, exec (.sluiceSlotArrival id) s = .next t ∧ arrivedFrom s t key id ∧
          t = { s with streams := t.streams, sluice := t.sluice } ∧
          (¬ refused → t.position (placeOf s key k) = { x with k := k, used := true, data := putBytes x.data off bs, cid := cidFor (key / 128) }) ∧
          (refused → (t.stream key).refusing = some k ∧ t.sluice = s.sluice)) ∧
        (∀ tau np, travels s id key due (.done k tau np) → ∃ t, exec (.sluiceSlotArrival id) s = .next t ∧
          (¬ refused → t.position (placeOf s key k) = { x with k := k, used := true, full := true, sTau := tau, np := np, cid := cidFor (key / 128) }) ∧
          (refused → (t.stream key).refusing = none ∧ t.sluice = s.sluice ∧
            (t.stream key).marks = st.marks ++ [{ k := k, sTau := tau, np := np, refused := true, used := true, full := true, cid := cidFor (key / 128) }]) ∧
          (st.recv.isSome = true → st.kStage = k → st.stage = [] → (∀ e ∈ st.transit, e.2.2.isMove = false) →
            ∃ j, (s.cycle + 12, j, Transit.toStage k) ∈ (t.stream key).transit)) ∧
        (travels s id key due (.free k) → x.k = k → ∃ t, exec (.sluicePositionFree id) s = .next t ∧ t.position (placeOf s key k) = {} ∧
          arrivedFrom s t key id ∧ t = { s with streams := t.streams, sluice := t.sluice } ∧
          ∀ p, p ≠ placeOf s key k → t.position p = s.position p))) ∧
    (∀ mdie q : Nat, let key := 16 * mdie + q; let st := s.stream key
      (∀ due id k, st.transit.find? (fun e => e.2.2.isMove && decide (e.1 ≤ s.cycle)) = some (due, id, .toStage k) →
        ∃ t, exec (.stageMove mdie q) s = .next t ∧ arrivedFrom s t key id ∧ t = { s with streams := t.streams } ∧
          (∀ m, st.marks.find? (fun m => m.k == k) = some m → (t.stream key).stage = st.stage ++ [m] ∧
            (t.stream key).marks = st.marks.filter fun m => m.k != k) ∧
          (st.marks.find? (fun m => m.k == k) = none → (t.stream key).stage = st.stage ++ [s.position (placeOf s key k)] ∧
            (t.stream key).marks = st.marks)) ∧
      ((∀ e ∈ st.transit, e.2.2.isMove = true → s.cycle < e.1) → exec (.stageMove mdie q) s = .next s))

namespace Sys2Proof.Claims

/-- A write to a replicated line may commit (R323, R333): its time has come, and no other committed write holds the line. -/
def mayCommit (s : State) (a : Acc) : Prop :=
  s.accReady a = true ∧ a.committed = false ∧ a.loc.rep = true ∧ a.kind.stores = true ∧ a.loc.dev = s.ownDev.toNat ∧
    (∀ v f g, a.kind ≠ .amo .fadd v f g true) ∧ ∀ b ∈ s.accs, b.committed = true → b.loc.rep = true → a.sameLine b = false

/-- An atomic may join a merge group of others: its bound of latency has passed, what comes before it is done or in the group, and it
crosses to another die of this device in plain form (R6, R460). -/
def mayJoin (s : State) (ids : List Nat) (a : Acc) : Prop :=
  a.issued + 40 ≤ s.cycle ∧ a.acq = false ∧ a.rel = false ∧ a.loc.dev = s.ownDev.toNat ∧ a.loc.rep = false ∧ a.loc.pa < 2 ^ 39 ∧
    a.loc.pa / 2 ^ 36 ≠ dieOf (panOf a.ctx) ∧ ∀ d ∈ a.deps, d ∉ ids → s.free [d] = true
/-- Two requests of a die that reach its controller within the window of a group (R460). -/
def together (a b : Acc) : Prop := dieOf (panOf a.ctx) = dieOf (panOf b.ctx) ∧ a.issued ≤ b.issued + 32

/-- An error that a log records, or counts as lost when it is full (R424). -/
def logged (s t : State) (array : Nat) (is : LogEntry → Prop) : Prop :=
  (∃ e ∈ (t.err array).log, e.valid = true ∧ is e) ∨ (t.err array).lost = (s.err array).lost + 1

/-- What a log of an array names for a CID: in the arrays of nodes, concentrators and partitions' own state the owning PID alone (R424). -/
def namedFor (k : Nat) (cid : BitVec 16) : BitVec 16 := if 16 ≤ k ∧ k < 3072 then cid &&& 0x7F else cid
/-- Where an error strikes (R424): its array, its place there, and the CID or PID that it names. -/
def struckPlace (s : State) : Struck → Nat × Nat × BitVec 16
  | .data addr _ cid => (arrayOf addr, addr, namedFor (arrayOf addr) cid)
  | .priv pid bank i => ((if bank then 2176 else 2048) + pid.toNat, i, pid.setWidth 16)
  | .shared u die i cid => (arrayShared u die.toNat, i, cid)
  | .table c => (3072 + (s.ctx c).pid, c, cidFor (s.ctx c).pid)
  | .ring die i cid => (8256 + die.toNat, i, cid)
/-- The code of the domain of an array (R422, R424). -/
def codeOf (k : Nat) : BitVec 4 :=
  if k < 8 then 0 else if 2048 ≤ k ∧ k < 2176 then 2 else if 8256 ≤ k then 3 else if 8192 ≤ k then 4 else 1

/-- The reset of a partition for an error that the log of an array records (R420). With no context running it ends at once: no context of
the partition is bound, and firmware is told the array and the entry. Else RST is 1 and every context of it that runs is to halt. -/
def resets (s t : State) (pid : BitVec 7) (k : Nat) : Prop :=
  let runs := fun (c : Nat) => (s.ctx c).pid = pid.toNat ∧ ((s.ctx c).run = .running ∨ (s.ctx c).run = .stop ∨ (s.ctx c).run = .loading)
  let halts := fun (c : Nat) => (s.ctx c).pid = pid.toNat ∧ (s.ctx c).run = .halting
  ((∀ c, ¬ runs c ∧ ¬ halts c) → FwEvent.reset pid k (s.err k).place ∈ t.fw ∧ ∀ c, (t.ctx c).pid = pid.toNat → (t.ctx c).run = .free) ∧
  (∀ c, runs c ∨ halts c → (t.part pid.toNat).rst = true ∧ (t.part pid.toNat).cause = (k, (s.err k).place) ∧ t.fw = s.fw ∧ t.mem = s.mem) ∧
  (∀ c, runs c → t.ctx c = { s.ctx c with haltReq := some (s.cycle, none) })

/-- Bytes that are poisoned. -/
def poisonedAt (s : State) (p n : Nat) : Prop := ∀ k, k < n → Kv.get false s.poison (p + k) = true
/-- Bytes that read as zero and are whole. -/
def zeroAt (s : State) (p n : Nat) : Prop := ∀ k, k < n → s.readByte (p + k) = 0
/-- No context is bound on a field. -/
def fieldFree (s : State) (f : Nat) : Prop := ∀ c, c / 128 = f → (s.ctx c).run = .free

end Sys2Proof.Claims

/-- R320, R323, R392, R422, R428, R429, R460 to R462 and R467 to R469. Floating-point sums are FaddEntry. The cycle in which a request reaches
the controller is the model's (log 61), and so is the layout of a response (DESIGN CHOICE, log 34): whether it was performed, how many bytes it
brings, a bit for each poisoned one, and the bytes. -/
def Obligations.ReplicasMergesAndRemoteRequests : Prop :=
  ∀ s : State, Inv s → s.scrub = [] → unarmed s →
    (∀ a : Acc, s.acc a.id = some a → let p := a.loc.owner.pa; let old := bytesAt s p a.n; let log := (s.part (s.ctx a.ctx).pid).dlog
      let after := fun bs bad => s.accs.map fun b =>
        if b.id = a.id then { a with committed := true, locked := List.range 8, bytes := bs, got := old, bad := bad } else b
      (mayCommit s a → whole s p a.n →
        (∀ new, writtenBy a.kind a.n old = some new → new.length = a.n → log = false → ∃ t, exec (.replicaCommit a.id) s = .next t ∧
          bytesAt t p a.n = new ∧ onlyBytes s t [(p, a.n)] ∧ t.ctxs = s.ctxs ∧ t.accs = after new false) ∧
        (∀ x y, a.kind = .cas x y → little old ≠ x → ∃ t, exec (.replicaCommit a.id) s = .next t ∧ t.mem = s.mem ∧ t.ctxs = s.ctxs ∧
          t.accs = after [] false)) ∧
      (mayCommit s a → ¬ whole s p a.n → (∀ v, a.kind ≠ .store v) → ∃ t, exec (.replicaCommit a.id) s = .next t ∧
        t.mem = s.mem ∧ t.ctxs = s.ctxs ∧ t.accs = after [] true) ∧
      (¬ mayCommit s a → exec (.replicaCommit a.id) s = .next s) ∧
      (∀ die : BitVec 3, let q := a.loc.pa / 2 ^ 39 * 2 ^ 39 + die.toNat * 2 ^ 36 + a.loc.pa % 2 ^ 36
        (a.committed = false ∨ die.toNat ∉ a.locked → exec (.replicaUnlock a.id die) s = .next s) ∧
        (a.committed = true → die.toNat ∈ a.locked → ∃ t, exec (.replicaUnlock a.id die) s = .next t ∧
          (q = p ∨ a.bytes = [] → t.mem = s.mem) ∧ (q ≠ p → bytesAt t q a.bytes.length = a.bytes ∧ onlyBytes s t [(q, a.bytes.length)]) ∧
          let left := a.locked.filter fun d => d != die.toNat
          (left ≠ [] → t.ctxs = s.ctxs ∧ t.accs = s.accs.map fun b => if b.id = a.id then { a with locked := left } else b) ∧
          (left = [] → t.accs = s.accs.filter (fun b => b.id != a.id) ∧ ∀ ln, a.ln = some ln → a.bad = false → a.got.length = a.n →
            ((s.ctx a.ctx).landing ln).pending = true → ((s.ctx a.ctx).landing ln).acc = a.id →
            (∀ v, a.kind = .store v → (t.ctx a.ctx).landing ln = { val := 0, full := true }) ∧
            (∀ op v f g o, a.kind = .amo op v f g o → (t.ctx a.ctx).landing ln = { val := loaded false a.got, full := true }) ∧
            (∀ x y, a.kind = .cas x y → (t.ctx a.ctx).landing ln = { val := loaded false a.got, full := true }))))) ∧
    (∀ ids : List Nat, (∀ a ∈ s.accs, a.id ∉ ids) → (∀ k ∈ s.cmds, k.id ∉ ids) → exec (.mergeGroupSend ids) s = .next s) ∧
    (∀ (ids : List Nat) (p n : Nat) (v : Acc → Nat), let ms := s.accs.filter fun a => ids.contains a.id
      ms ≠ [] → ms.length ≤ 16 → (s.accs.map (·.id)).Nodup → (∀ k ∈ s.cmds, k.id ∉ ids) → (∀ a ∈ ms, ∀ b ∈ ms, together a b) →
      (∀ a ∈ ms, mayJoin s ids a ∧ a.loc.pa = p ∧ a.n = n ∧ (s.part (s.ctx a.ctx).pid).dlog = false ∧ ∃ f g o, a.kind = .amo .add (v a) f g o) →
      ∃ t, exec (.mergeGroupSend ids) s = .next t ∧ t.accs = s.accs.filter (fun a => !ids.contains a.id) ∧
        (whole s p n → onlyBytes s t [(p, n)] ∧ little (bytesAt t p n) = (little (bytesAt s p n) + (ms.map v).sum) % 2 ^ (8 * n)) ∧
        (¬ whole s p n → t.mem = s.mem)) ∧
    (∀ (a : Acc) (v : Nat) (f g : Bool), s.acc a.id = some a → a.kind = .amo .fadd v f g true → a.loc.rep = false → let p := a.loc.pa
      let entry := s.fadds.find? fun e => e.dev == a.loc.dev && e.pa == p
      let mode : BitVec 6 := BitVec.ofNat 6 ((if f then 1 else 0) + if g then 2 else 0)
      (s.accReady a = false ∨ a.committed = true ∨ a.loc.dev ≠ s.ownDev.toNat ∨ (entry = none ∧ 4096 ≤ s.fadds.length) →
        exec (.orderedFadd a.id) s = .next s) ∧
      (∀ e, entry = some e ∨ (entry = none ∧ s.fadds.length < 4096 ∧
          e = FaddEntry.plus ⟨a.loc.dev, p, (s.ctx a.ctx).ref, 0, true, false, false, false, (s.ctx a.ctx).inst, a.cid⟩
            (binary32.decode mode (little (bytesAt s p 4)))) →
        s.accReady a = true → a.committed = false → a.loc.dev = s.ownDev.toNat → (s.part (s.ctx a.ctx).pid).dlog = false → whole s p a.n → a.n = 4 →
        let sum := e.plus (binary32.decode mode v)
        ∃ t, exec (.orderedFadd a.id) s = .next t ∧ sum ∈ t.fadds ∧ little (bytesAt t p 4) = binary32.encode mode .rne sum.value % 2 ^ 32 ∧
          onlyBytes s t [(p, 4)] ∧ t.accs = s.accs.filter (fun b => b.id != a.id))) ∧
    (∀ (e : FaddEntry) (x y : Val), (e.plus x).plus y = (e.plus y).plus x) ∧
    (∀ (tenant : BitVec 16) (src : BitVec 12) (addr : BitVec 48) (n : Nat) (rep : Bool) (task : BitVec 32),
      exec (.remoteRequest tenant src addr n rep (.taskExit task)) s =
        .next { s with fadds := s.fadds.filter fun f => f.task != ⟨128 + src.toNat, task⟩ }) ∧
    (∀ (tenant : BitVec 16) (src : BitVec 12) (addr : BitVec 48) (n : Nat) (rep : Bool) (op : RemoteOp), (∀ task, op ≠ .taskExit task) →
      let k := remoteBytes op; let p := if k = 128 then addr.toNat / 128 * 128 else addr.toNat
      let mdie := if p < 2 ^ 39 then p / 2 ^ 36 else 0; let pid := if src = s.ownDev then n / 8 else s.pidOf tenant
      let may := src = s.ownDev ∨ (p < 2 ^ 39 ∧ Kv.get 0 s.tags (p / 65536) = tenant.toNat)
      let answers := fun (t : State) (is : List Byte → Prop) => src ≠ s.ownDev → ∀ link, s.linkTo mdie src.toNat = some link → (s.link link).up = true →
        ∃ f, t.sent = s.sent ++ [(link, f)] ∧ f.type = 2 ∧ f.dst = src ∧ f.src = s.ownDev ∧ f.tenant = tenant ∧ is f.payload
      (¬ may → ∃ t, exec (.remoteRequest tenant src addr n rep op) s = .next t ∧ t.mem = s.mem ∧ t.ctxs = s.ctxs ∧ t.fadds = s.fadds ∧
        logged s t (arrayOf p) (fun e => e.addr = addr) ∧ answers t fun bs => bs = [1]) ∧
      (may → quiet s →
        (op = .load → ∃ t, exec (.remoteRequest tenant src addr n rep op) s = .next t ∧ t.mem = s.mem ∧ t.ctxs = s.ctxs ∧
          answers t fun bs => ∃ m : Nat, bs = [0, 128] ++ natLe 16 m ++ bytesAt s p 128 ∧ m < 2 ^ 128 ∧
            ∀ j, j < 128 → (m.testBit j = true ↔ Kv.get false s.poison (p + j) = true)) ∧
        (∀ new, writtenBy (remoteKind op) k (bytesAt s p k) = some new → whole s p k → new.length = k → p % 2 ^ 36 + k ≤ 2 ^ 36 →
          (s.part pid).dlog = false →
          let places := if rep then (List.range 8).map fun d => p / 2 ^ 39 * 2 ^ 39 + d * 2 ^ 36 + p % 2 ^ 36 else [p]
          ∃ t, exec (.remoteRequest tenant src addr n rep op) s = .next t ∧ (∀ q ∈ places, bytesAt t q k = new) ∧
            onlyBytes s t (places.map fun q => (q, k)) ∧ t.ctxs = s.ctxs) ∧
        (writtenBy (remoteKind op) k (bytesAt s p k) = none ∨ ¬ whole s p k → (∀ steps, op ≠ .update steps) → (∀ v, op ≠ .store v) →
          (∀ v o f g q, op = .amo .fadd v o f g q → ¬ whole s p k) →
          ∃ t, exec (.remoteRequest tenant src addr n rep op) s = .next t ∧ t.mem = s.mem ∧ t.ctxs = s.ctxs) ∧
        (∀ code eadr less, op = .update [.report code eadr, .less less] → code < 65536 → eadr < 2 ^ 64 → rep = false → whole s p 32 →
          (s.part pid).dlog = false → ∃ t, exec (.remoteRequest tenant src addr n rep op) s = .next t ∧ onlyBytes s t [(p, 32)] ∧ t.ctxs = s.ctxs ∧
            let o := reported (objectAt s p) code eadr; objectAt t p = completed { o with pend := o.pend - less }) ∧
        (∀ v f g q, op = .amo .fadd v true f g q → v.length = 4 → whole s p 4 →
          let entry := s.fadds.find? fun e => e.dev == s.ownDev.toNat && e.pa == p
          let mode : BitVec 6 := BitVec.ofNat 6 ((if f then 1 else 0) + if g then 2 else 0)
          let task : TaskRef := if src = s.ownDev then ⟨n / 8, q⟩ else ⟨128 + src.toNat, q⟩
          (entry = none → 4096 ≤ s.fadds.length → exec (.remoteRequest tenant src addr n rep op) s =
            .next { s with inputs := s.inputs ++ [(s.cycle + 1, .remoteRequest tenant src addr n rep op)] }) ∧
          ∀ e, rep = false → (s.part pid).dlog = false → (entry = some e ∨ (entry = none ∧ s.fadds.length < 4096 ∧
            e = FaddEntry.plus ⟨s.ownDev.toNat, p, task, 0, true, false, false, false, 0, cidFor pid⟩
              (binary32.decode mode (little (bytesAt s p 4))))) →
            let sum := e.plus (binary32.decode mode (little v))
            ∃ t, exec (.remoteRequest tenant src addr n rep op) s = .next t ∧ sum ∈ t.fadds ∧
              little (bytesAt t p 4) = binary32.encode mode .rne sum.value % 2 ^ 32 ∧ onlyBytes s t [(p, 4)] ∧ t.ctxs = s.ctxs)))

/-- R418 to R425 and R427 to R429. Which transactions a structure holds is holdersOf; which array and code a structure has is the model's where
R422 and R424 name none (log 66). That an injected error in memory comes with the write that meets the register, and never as an event of its
own, is the model's (DESIGN CHOICE, log 67), and errors as inputs are log 17 and log 15. -/
def Obligations.ErrorsAreLoggedContainedAndWiped : Prop :=
  ∀ s : State, Kv.wf ({} : Ctx) s.ctxs = true → Kv.wf ({} : ErrArray) s.errs = true → Kv.wf ({} : Part) s.parts = true → Inv s →
    (∀ x : Struck, let k := (struckPlace s x).1; let a := (struckPlace s x).2.1; let cid := (struckPlace s x).2.2; let v := (s.err k).einj
      (∀ w : Nat, let corrects := w ≠ 0 ∧ ¬ (2048 ≤ k ∧ k < 2176) ∧ (w = 1 ∨ 8192 ≤ k)
        (¬ corrects → exec (.correctableError x w false) s = .next s) ∧
        (corrects → ∃ t, exec (.correctableError x w false) s = .next t ∧ t.mem = s.mem ∧ t.poison = s.poison ∧ t.ctxs = s.ctxs ∧
        logged s t k fun e => e.addr = BitVec.ofNat 48 a ∧ e.cid = cid ∧ e.kind = 0 ∧ e.code = codeOf k ∧ e.inj = false)) ∧
      ((∃ p n c, x = .data p n c) ∨ v.getLsbD 0 = false ∨ (v.extractLsb' 20 44).toNat ≠ a / 16 % 2 ^ 44 →
        exec (.uncorrectableError x true) s = .next s ∧ ∀ w, exec (.correctableError x w true) s = .next s) ∧
      (∀ u die i c, x = .shared u die i c → s.cidBad c = false → v.getLsbD 0 = true → (v.extractLsb' 20 44).toNat = a / 16 % 2 ^ 44 →
        (v.extractLsb' 1 2).toNat < 2 → v.extractLsb' 3 8 = v.extractLsb' 11 8 → ∃ t, exec (.correctableError x 1 true) s = .next t ∧
          t.mem = s.mem ∧ t.ctxs = s.ctxs ∧ (t.err k).einj.getLsbD 0 = false ∧ logged s t k fun e => e.kind = 0 ∧ e.inj = true)) ∧
    (∀ (addr n : Nat) (cid : BitVec 16), ∃ t, exec (.uncorrectableError (.data addr n cid) false) s = .next t ∧ poisonedAt t addr n ∧
      t.mem = s.mem ∧ t.ctxs = s.ctxs ∧
      logged s t (arrayOf addr) fun e => e.addr = BitVec.ofNat 48 addr ∧ e.cid = namedFor (arrayOf addr) cid ∧ e.kind = 1 ∧
        e.code = codeOf (arrayOf addr) ∧ e.inj = false) ∧
    (∀ (die : BitVec 3) (i : Nat) (cid : BitVec 16), exec (.uncorrectableError (.ring die i cid) false) s = .next s) ∧
    (∀ (pid : BitVec 7) (bank : Bool) (i : Nat), ∃ t, exec (.uncorrectableError (.priv pid bank i) false) s = .next t ∧
      resets s t pid ((if bank then 2176 else 2048) + pid.toNat)) ∧
    (∀ (c : Nat) (pid : BitVec 7), (s.ctx c).pid = pid.toNat → ∃ t, exec (.uncorrectableError (.table c) false) s = .next t ∧
      resets s t pid (3072 + pid.toNat)) ∧
    (∀ (u : SharedUnit) (die : BitVec 3) (i : Nat) (cid : BitVec 16), ∃ t, exec (.uncorrectableError (.shared u die i cid) false) s = .next t ∧
      (s.cidBad cid = false → resets s t (cid.extractLsb' 0 7) (arrayShared u die.toNat)) ∧
      (s.cidBad cid = true → (s.holdersOf u die.toNat = [] → t.ctxs = s.ctxs ∧ t.mem = s.mem) ∧
        ∀ p ∈ s.holdersOf u die.toNat, (t.part p).rst = true ∨ FwEvent.reset (BitVec.ofNat 7 p) (arrayShared u die.toNat) (s.err (arrayShared u die.toNat)).place ∈ t.fw)) ∧
    (∀ f : Nat, (¬ fieldFree s f → exec (.tenantChangeWipe f) s = .next s) ∧
      (fieldFree s f → Kv.wf (0 : Nat) s.fieldTenant = true → ∃ t, exec (.tenantChangeWipe f) s = .next t ∧ Kv.get 0 t.fieldTenant f = 0 ∧
        (∀ q, q / 16 = f → zeroAt t (2 ^ 48 + q * 2 ^ 20) (2 ^ 20)) ∧ zeroAt t (2 ^ 49 + f * 2 ^ 23) (2 ^ 23) ∧
        (∀ key, (key / 2048 = f → (t.nodeEntry key).slots = []) ∧ (key / 2048 ≠ f → t.nodeEntry key = s.nodeEntry key)) ∧
        (∀ key, (key / 16 = f → (t.concEntry key).slots = []) ∧ (key / 16 ≠ f → t.concEntry key = s.concEntry key)) ∧
        t = { s with mem := t.mem, poison := t.poison, fieldTenant := t.fieldTenant, nodeCtl := t.nodeCtl, concCtl := t.concCtl,
                     stores := t.stores, fresh := t.fresh })) ∧
    (∀ stack : BitVec 3, let mine := fun (line : Nat) => line * 128 / 2 ^ 36 = stack.toNat ∧ line * 128 < 2 ^ 39 ∨
        2 ^ 39 + stack.toNat * 2 ^ 27 ≤ line * 128 ∧ line * 128 < 2 ^ 39 + (stack.toNat + 1) * 2 ^ 27
      ((∀ e ∈ s.scrub, e.2 = true → ¬ mine e.1) → exec (.scrubLine stack) s = .next s) ∧
      (∀ line, Kv.wf false s.scrub = true → Kv.get false s.scrub line = true → mine line →
        (∀ k, k < line → Kv.get false s.scrub k = true → ¬ mine k) → ∃ t, exec (.scrubLine stack) s = .next t ∧ zeroAt t (line * 128) 128 ∧
          Kv.get false t.scrub line = false ∧ onlyBytes s t [(line * 128, 128)] ∧ ∀ k, k ≠ line → Kv.get false t.scrub k = Kv.get false s.scrub k)) ∧
    (∀ addr : Nat, exec (.patrolScrub addr) s = .next s) ∧
    (∀ pid : BitVec 7, let p := (s.part pid.toNat).dlogp
      ((s.part pid.toNat).dlog = false → exec (.dlogRoundEnd pid) s = .next s) ∧
      ((s.part pid.toNat).dlog = true → s.scrub = [] → ∃ t, exec (.dlogRoundEnd pid) s = .next t ∧ little (bytesAt t (p + 12) 4) = 0 ∧
        little (bytesAt t (p + 20) 4) = (little (bytesAt s (p + 20) 4) + 1) % 2 ^ 32 ∧ onlyBytes s t [(p + 12, 4), (p + 20, 4)] ∧
        (∀ k, k < 2 ^ 32 → Kv.get false t.dirty (2 ^ 32 * pid.toNat + k) = false) ∧
        t = { s with mem := t.mem, poison := t.poison, dirty := t.dirty })) ∧
    (∀ (k entry : Nat) (v : BitVec 64), let free := s.life = .provisioned ∨ s.life = .returned ∨ (s.life = .deployed ∧ ∀ e ∈ s.parts, e.2.v = false)
      (¬ free → exec (.einjWrite k v) s = .next s) ∧
      (free → ∃ t, exec (.einjWrite k v) s = .next t ∧ t = { s with errs := t.errs } ∧
        ∀ b, b < 64 → (t.err k).einj.getLsbD b = (v.getLsbD b && b != 19)) ∧
      ((s.err k).log[entry]? = none → exec (.errorLogClear k entry) s = .next s) ∧
      (∀ e, (s.err k).log[entry]? = some e → ∃ t, exec (.errorLogClear k entry) s = .next t ∧ t = { s with errs := t.errs } ∧
        (t.err k).log[entry]? = some { e with valid := false }))

namespace Sys2Proof.Claims

/-- Bits of a list of 64-bit words, the first word lowest. -/
def bitsOfWords (v : List (BitVec 64)) (lo w : Nat) : Nat := ((v.zipIdx.map fun e => e.1.toNat * 2 ^ (64 * e.2)).sum) / 2 ^ lo % 2 ^ w
/-- An image or a token verifies under some keys (R431): both signatures do, under keys whose digests are held, and its version is not
below the minimum of the fuses. -/
def verified (s : State) (keys : List (BitVec 384)) (x : Signed) : Prop :=
  Config.ecdsaOk x.ecdsaKey x.digest x.ecdsa = true ∧ Config.lmsOk x.lmsKey x.digest x.lms = true ∧ x.ecdsaKey ∈ keys ∧ x.lmsKey ∈ keys ∧
    s.fuseVersion.toNat ≤ x.version.toNat
/-- What each move of the life cycle needs (R426). -/
def mayMove (s : State) (lc : LifeCycle) : Auth → Prop
  | .manufacturingKey x => s.life = .blank ∧ lc = .provisioned ∧ verified s s.keyStore.made x
  | .ownerToken x => ((s.life = .provisioned ∧ lc = .deployed) ∨ (s.life = .deployed ∧ lc = .returned)) ∧ verified s s.keyStore.owner x
  | .manufacturingToken x => s.life = .returned ∧ lc = .provisioned ∧ verified s s.keyStore.made x
/-- A power limit in watts as the module takes it (R491). -/
def watts (n : Nat) : Nat := min 1750 (max 400 n)
/-- A message that the module answers under a sequence number (R477). -/
def answers (s t : State) (type : BitVec 8) (pid : BitVec 7) (seq : BitVec 64) (body : List Byte) : Prop :=
  t.wolas = s.wolas ++ [⟨type, pid, seq, body⟩]
/-- The launcher that START stands for (R479): no extents but the granules that its addresses lie in. -/
def starter (s : State) (pid : BitVec 7) (tenant : BitVec 16) (vas : List Nat) : Ctx :=
  { pid := pid.toNat, tenant := tenant, prio := 0, ext := s.walkExtents (s.part pid.toNat).tenant.toNat vas }

end Sys2Proof.Claims

/-- R10, R307, R309, R313, R416, R417, R426, R431, R466, R471, R491, R492 and R494. The stop of an access to a reserved physical address is the one
fault of the model. That a map entry takes four bytes is the model's (log 62). -/
def Obligations.FirmwareWritesRegistersTablesAndMemory : Prop :=
  ∀ s : State, Inv s → Kv.wf ({} : Part) s.parts = true → Kv.wf (0 : Nat) s.routes = true → Kv.wf (0 : Nat) s.tenantRoot = true → Kv.wf false s.scrub = true →
    (∀ (pid : BitVec 7) (v : List (BitVec 64)), pid.toNat < 96 → ∃ t, exec (.registerWrite (.partition pid) v) s = .next t ∧
      t = { s with parts := t.parts, budgets := t.budgets } ∧ (∀ q, q ≠ pid.toNat → t.part q = s.part q) ∧ let b := bitsOfWords v
      t.part pid.toNat = { s.part pid.toNat with
        fset := BitVec.ofNat 96 (b 0 96)
        tenant := BitVec.ofNat 16 (b 96 16)
        v := b 112 1 == 1 && s.bringUp == 7
        dlog := b 114 1 == 1
        z := b 128 64
        rmap := b 192 64
        nfoot := b 256 32
        ffoot := b 288 32
        sluice := b 320 32
        budget := b 352 32
        dlogp := b 384 64 } ∧
      ∀ f, f < 48 → b f 1 = 1 → Kv.wf (0 : Nat) s.budgets = true → let cap := Kv.get 0 s.shares f
        Kv.get 0 t.budgets f = max 1024 (if cap = 0 then 1024 * b 352 32 else min (1024 * b 352 32) (cap - 1))) ∧
    (∀ (v : List (BitVec 64)) (w : BitVec 64) (pid : BitVec 7) (m : BitVec 3) (dev : BitVec 12) (tenant : BitVec 16) (line c : Nat) (link : BitVec 4), let vs := w :: v
      (s.scrub = [] → ∃ t, exec (.registerWrite (.resMap pid) vs) s = .next t ∧ t = { s with mem := t.mem, poison := t.poison } ∧
        let p := (s.part pid.toNat).rmap
        onlyBytes s t [(p, 4 * vs.length)] ∧ ∀ k u, vs[k]? = some u → little (bytesAt t (p + 4 * k) 4) = u.toNat % 2 ^ 32) ∧
      (∃ t, exec (.registerWrite (.route m dev) vs) s = .next t ∧ t = { s with routes := t.routes } ∧
        t.linkTo m.toNat dev.toNat = if w.toNat < 16 then some (BitVec.ofNat 5 w.toNat) else none) ∧
      (∃ t, exec (.registerWrite (.tenantRoot tenant) vs) s = .next t ∧ t = { s with tenantRoot := t.tenantRoot } ∧ Kv.get 0 t.tenantRoot tenant.toNat = w.toNat) ∧
      exec (.registerWrite .ownDevice vs) s = .next { s with ownDev := w.setWidth 12 } ∧
      exec (.registerWrite .floorW vs) s = .next { s with floorW := watts w.toNat, cap := if s.lease = none then watts w.toNat else s.cap } ∧
      (∃ t, exec (.registerWrite (.scrub line) vs) s = .next t ∧ t = { s with scrub := t.scrub } ∧ Kv.get false t.scrub line = w.getLsbD 0) ∧
      exec (.registerWrite (.dbg c) vs) s = .next (s.setCtx c { s.ctx c with dbg := w.getLsbD 0 }) ∧
      exec (.registerWrite (.linkUp link) vs) s = .next (s.setLink (link.setWidth 5) { up := w.getLsbD 0 })) ∧
    (∀ (die field : BitVec 3) (r : Retired), let pan := r.pan; let d := die.toNat; let f := field.toNat; let lost := Kv.get 0 s.remap (remapLost d); let pf := s.physField d f
      let n := if d ∈ s.lostDies then 0 else ((List.range 6).filter fun e => (s.harvested d e).length ≤ 1).length - lost
      (n ≤ f ∨ s.owner (6 * d + f) ≠ 127 ∨ 16 < pan.toNat ∨ ¬ verified s s.keyStore.keys r.table → exec (.remapTableChange die field r) s = .next s) ∧
      (f < n → s.owner (6 * d + f) = 127 → pan.toNat ≤ 16 → pf < 6 → verified s s.keyStore.keys r.table → Kv.wf (0 : Nat) s.remap = true →
        (Kv.get 0 s.remap (remapSpare d pf) = 0 → s.harvested d pf = [] → ∃ t, exec (.remapTableChange die field r) s = .next t ∧ t = { s with remap := t.remap } ∧
          Kv.get 0 t.remap (remapSpare d pf) = 1 ∧
          ∀ p, p < 16 → s.physPan d pf p = pan.toNat → (∀ q, q < p → s.physPan d pf q ≠ pan.toNat) → t.physPan d pf p = 16) ∧
        (Kv.get 0 s.remap (remapSpare d pf) ≠ 0 ∨ s.harvested d pf ≠ [] → (∀ k, f ≤ k → k < n → s.owner (6 * d + k) = 127) →
          ∃ t, exec (.remapTableChange die field r) s = .next t ∧ t = { s with remap := t.remap } ∧ Kv.get 0 t.remap (remapLost d) = lost + 1 ∧
            ∀ k, f ≤ k → k + 1 < n → t.physField d k = s.physField d (k + 1)))) ∧
    (∀ (lc : LifeCycle) (auth : Auth),
      (mayMove s lc auth → ∃ t, exec (.lifeCycleChange lc auth) s = .next t ∧ t.life = lc ∧ t.mem = [] ∧ t.ctxs = [] ∧ t.elems = [] ∧ t.tasks = [] ∧
        t.parts = [] ∧ t.recovery = s.recovery ∧ t.bringUp = s.bringUp ∧ (lc ≠ .returned → t.keyStore = s.keyStore) ∧
        (lc = .returned → t.keyStore.owner = [] ∧ t.keyStore.made = s.keyStore.made ∧
          ∀ k, k ∈ t.keyStore.keys ↔ k ∈ s.keyStore.keys ∧ k ∉ s.keyStore.owner)) ∧
      (¬ mayMove s lc auth → exec (.lifeCycleChange lc auth) s = .next s)) ∧
    (∀ (addr : BitVec 48) (n : Nat), let a := addr.toNat
      (a + n ≤ 0x8040000000 → s.scrub = [] → quiet s → exec (.managementCoreAccess addr n none) s = .next { s with fw := s.fw ++ [.coreRead addr (bytesAt s a n)] }) ∧
      (∀ bs : List Byte, a + bs.length ≤ 0x8040000000 → s.scrub = [] → quiet s → unarmed s → (∀ e ∈ s.parts, e.2.dlog = false) →
        ∃ t, exec (.managementCoreAccess addr n (some bs)) s = .next t ∧ bytesAt t a bs.length = bs ∧ onlyBytes s t [(a, bs.length)] ∧ t.ctxs = s.ctxs) ∧
      ((0x8040000000 ≤ a ∧ a < 0x8100000000) ∨ 0x8103000000 ≤ a → 0 < n → exec (.managementCoreAccess addr n none) s = .fault (.reservedPhysical addr))) ∧
    (∀ (tenant : BitVec 16) (gid : BitVec 32) (rank : BitVec 6) (dev : BitVec 12), ∃ t, exec (.endpointDirectoryUpdate tenant gid rank dev) s = .next t ∧
      t.directory = s.directory.filter (fun e => !(e.1 == tenant && e.2.1 == gid && e.2.2.1 == rank)) ++ [(tenant, gid, rank, dev)] ∧
      t.ctxs = s.ctxs ∧ t.mem = s.mem ∧ (s.returned = [] → t = { s with directory := t.directory }) ∧
      (dev = s.ownDev → t = { s with directory := t.directory, returned := t.returned }) ∧
      let its := fun (f : Flit) => f.tenant = tenant ∧ flitGid f = gid ∧ flitRank f = rank
      (∀ f ∈ s.returned, ¬ its f → f ∈ t.returned) ∧
      (∀ f link, s.returned = [f] → its f → dev ≠ s.ownDev → s.linkTo 0 dev.toNat = some link → (s.link link).up = true →
        t.returned = [] ∧ ∃ g, t.sent = s.sent ++ [(link, g)] ∧ g.dst = dev ∧ g.payload = f.payload ∧ g.type = f.type))

/-- R383, R432, R464, R465, R468, R477 to R479, R485 to R489, R490 to R492, R494 and R495. Layouts of bodies that the spec does not give (log 34)
are not stated, but for the answers of IMGLD and START, whose places are the model's (log 34, DESIGN CHOICE). That FCEIL falls by one index and
WACT doubles is log 33 (DESIGN CHOICE). -/
def Obligations.PowerLinksAndTheControlNodeAct : Prop :=
  ∀ s : State, Inv s → Kv.wf ({} : Part) s.parts = true → Kv.wf ({} : Pwr) s.pwr = true → Kv.wf ({} : Link) s.links = true →
    (∀ (d : Nat) (v : BitVec 64), let p := s.pwrOf d
      let shows := fun (q : Pwr) => let mv := (q.vcur.getD (Config.voltage (d % 8) 0)).toNat; let b := q.aim.toNat; let goal := Config.voltage (d % 8) b
        (q.fcur.toNat < b → mv < goal.toNat → q.moveTo = some goal ∧ q.stepTo = none ∧ q.ramp = true) ∧
        (q.fcur.toNat < b → goal.toNat ≤ mv → q.stepTo = some (q.fcur + 1) ∧ q.moveTo = none ∧ q.ramp = true) ∧
        (b < q.fcur.toNat → q.stepTo = some (q.fcur - 1) ∧ q.moveTo = none ∧ q.ramp = true) ∧
        (q.fcur.toNat = b → goal.toNat < mv → q.moveTo = some goal ∧ q.stepTo = none ∧ q.ramp = true) ∧
        (q.fcur.toNat = b → mv ≤ goal.toNat → q.moveTo = none ∧ q.stepTo = none ∧ q.ramp = false)
      (∃ t, exec (.pwrdomWrite d v) s = .next t ∧ t = { s with pwr := t.pwr } ∧ let q := t.pwrOf d
        q.ftgt = v.extractLsb' 0 6 ∧ q.fceil = v.extractLsb' 16 6 ∧ q.fcur = p.fcur ∧ q.vcur = p.vcur ∧
        (s.ganged d = false ∨ (∀ c, ¬ waitsAt s d c) → ∀ e, e ≠ d → t.pwrOf e = s.pwrOf e) ∧
        (s.ganged d = false → q.aim.toNat = min (min 60 q.ftgt.toNat) q.fceil.toNat ∧ q.hold = false ∧
          ((p.stepTo = none ∧ p.moveTo = none) → shows q) ∧ (p.stepTo ≠ none ∨ p.moveTo ≠ none → q.stepTo = p.stepTo ∧ q.moveTo = p.moveTo)) ∧
        (s.ganged d = true → (∀ c, ¬ waitsAt s d c) → q.aim = p.aim ∧ q.stepTo = p.stepTo ∧ q.moveTo = p.moveTo ∧
          (q.hold = true ↔ q.aim.toNat ≠ min (min 60 q.ftgt.toNat) q.fceil.toNat))) ∧
      (p.stepTo = none → exec (.fllStep d) s = .next s) ∧ (p.moveTo = none → exec (.voltageMoveEnd d) s = .next s) ∧
      (∀ k, p.stepTo = some k → ∃ t, exec (.fllStep d) s = .next t ∧ (t.pwrOf d).fcur = k ∧ (t.pwrOf d).vcur = p.vcur ∧ shows (t.pwrOf d) ∧
        t = { s with pwr := t.pwr, domains := t.domains }) ∧
      (∀ k, p.moveTo = some k → let mv := (p.vcur.getD (Config.voltage (d % 8) 0)).toNat
        let w := if mv < k.toNat then min k.toNat (mv + 10) else max k.toNat (mv - 10)
        ∃ t, exec (.voltageMoveEnd d) s = .next t ∧ (t.pwrOf d).vcur = some (BitVec.ofNat 10 w) ∧ (t.pwrOf d).fcur = p.fcur ∧
          (w ≠ k.toNat → t = s.setPwr d { p with vcur := some (BitVec.ofNat 10 w) }) ∧ (w = k.toNat → shows (t.pwrOf d)) ∧
          t = { s with pwr := t.pwr, domains := t.domains })) ∧
    (∀ (load f b : Nat) (share : List (Nat × Nat)), let high := ∃ d ∈ s.liveDomains, (s.pwrOf d).fceil ≠ 0
      ∃ t, exec (.powerWindow load share) s = .next t ∧ t.ctxs = s.ctxs ∧ t.mem = s.mem ∧
        (s.cap < load → high → t = { s with pwr := t.pwr } ∧ ∀ d ∈ s.liveDomains, (s.pwrOf d).fceil ≠ 0 → (t.pwrOf d).fceil = (s.pwrOf d).fceil - 1) ∧
        (s.cap < load → ¬ high → (∃ k, k < 8 ∧ s.wactOf k < 640) → t = { s with wact := t.wact } ∧ ∀ k, k < 8 → t.wactOf k = min 640 (2 * s.wactOf k)) ∧
        (load ≤ s.cap ∨ (¬ high ∧ ∀ k, k < 8 → 640 ≤ s.wactOf k) → t = { s with budgets := t.budgets, shares := t.shares } ∧
          (share.getLast? = some (f, b) → Kv.get 0 t.budgets f = max 1024 (min (1024 * (s.part (s.owner f)).budget) b)))) ∧
    exec .byteBudgetWindow s = .next { s with budgetUsed := [] } ∧
    (∀ (cseq : BitVec 64) (lease capw : BitVec 32), let newer := ∀ c, s.lastCseq = some c → c.toNat < cseq.toNat
      (newer → s.recovery = false → exec (.cap cseq lease capw) s = .next { s with
        lastCseq := some cseq
        lease := some (max 1 lease.toNat)
        cap := watts capw.toNat }) ∧
      (¬ newer ∨ s.recovery = true → exec (.cap cseq lease capw) s = .next s)) ∧
    (s.lease = none → exec .leaseExpiry s = .next s) ∧ (s.lease ≠ none → exec .leaseExpiry s = .next { s with lease := none, cap := s.floorW }) ∧
    (∀ (fw remap : Signed) (later : List Signed) (lost : List (BitVec 3)),
      let good := verified s s.keyStore.keys fw ∧ verified s s.keyStore.keys remap
      ∃ t, exec (.powerOnReset ⟨fw, remap, later, lost⟩) s = .next t ∧ t.ctxs = [] ∧ t.elems = [] ∧ t.parts = [] ∧ t.tasks = [] ∧
      t.domains = [] ∧ t.poweredOff = false ∧ t.life = s.life ∧ t.remap = s.remap ∧ t.fuses = s.fuses ∧ t.fuseVersion = s.fuseVersion ∧
      t.keyStore = s.keyStore ∧ (good → t.recovery = false ∧ t.bringUp = 7 ∧ t.mem = [] ∧ t.poison = [] ∧ (∀ link : BitVec 5, (t.link link).up = true) ∧
        (∀ die : BitVec 3, die.toNat ∈ t.lostDies ↔ die ∈ lost) ∧
        ∀ run, run = fw :: later.filter (s.verifies s.keyStore.keys) →
          t.measure = run.foldl (fun m x => Config.sha384 (natLe 48 m.toNat ++ natLe 48 x.digest.toNat)) 0) ∧
      (¬ good → t.recovery = true ∧ t.bringUp = 1 ∧ t.mem = s.mem ∧ t.poison = s.poison ∧ t.staged = s.staged ∧ t.measure = 0 ∧
        ∀ link : BitVec 5, (t.link link).up = true ↔ 16 ≤ link.toNat)) ∧
    (∀ keys x, s.verifies keys x = true ↔ verified s keys x) ∧
    (∀ (link : BitVec 5) (f : Flit) (ack : BitVec 12), let l := s.link link
      (l.up = false → exec (.flitReceive link f) s = .next s ∧ exec (.flitReplay link ack) s = .next s) ∧
      (l.up = true →
        (flitWhole f = false ∨ f.seq ≠ l.rxSeq + 1 → ∃ t g, exec (.flitReceive link f) s = .next t ∧ (t.link link).rxSeq = l.rxSeq ∧ (t.link link).nak = true ∧
          t.sent = s.sent ++ [(link, g)] ∧ g.nak = true ∧ g.ack = l.rxSeq ∧ t.mem = s.mem ∧ t.ctxs = s.ctxs) ∧
        (flitWhole f = true → f.seq = l.rxSeq + 1 → link ≠ 16 → ∃ t, exec (.flitReceive link f) s = .next t ∧ (t.link link).rxSeq = f.seq ∧
          (t.link link).nak = false ∧ t.ctxs = s.ctxs ∧ t.mem = s.mem ∧ (f.nak = true → t.agenda = s.agenda ++ [.flitReplay link f.ack]) ∧
          (f.nak = false → (t.link link).acked = f.ack ∧ (f.type ≠ 3 → t.sent = s.sent))) ∧
        (flitWhole f = true → f.seq = l.rxSeq + 1 → link = 16 → f.nak = false →
          let u := s.setLink 16 { l with rxSeq := f.seq, nak := false, acked := f.ack, resends := if f.ack = l.acked then l.resends else 0 }
          (f.type ≠ 5 → exec (.flitReceive link f) s = .next u) ∧
          (∀ (type last : Byte) (pid : BitVec 7) (seq va : BitVec 64) (body : List Byte), s.portIn = none → f.type = 5 →
            f.payload = [type, last] ++ natLe 2 pid.toNat ++ natLe 8 seq.toNat ++ natLe 4 0 ++ body →
            (last = 0 → exec (.flitReceive link f) s = .next { u with portIn := some ⟨type, pid, seq, body⟩ }) ∧
            (last = 1 → (type = 1 → ∀ bs, body = natLe 8 va.toNat ++ bs → exec (.flitReceive link f) s = exec (.imgld seq pid va bs) u) ∧
              (type = 2 → body = natLe 8 va.toNat → exec (.flitReceive link f) s = exec (.start seq pid va) u) ∧
              (type = 3 → ∀ (lease capw : BitVec 32), body = natLe 8 va.toNat ++ natLe 4 lease.toNat ++ natLe 4 capw.toNat →
                exec (.flitReceive link f) s = exec (.cap va lease capw) u) ∧
              (type = 4 → body.length ≤ 32 → exec (.flitReceive link f) s = exec (.attreq seq body) u) ∧
              (type = 6 → exec (.flitReceive link f) s = exec (.debug seq body) u) ∧
              (type ∉ [1, 2, 3, 4, 6] → ∃ t, exec (.flitReceive link f) s = .next t ∧ t.mem = s.mem ∧ t.ctxs = s.ctxs ∧ t.wolas = s.wolas ∧
                logged s t (8192 + 16) fun e => e.cid = cidFor pid.toNat)))) ∧
        (let again := flitsAfter ack l.replay; let vain := if l.acked = ack then l.resends else 0
         (again = [] → exec (.flitReplay link ack) s = .next s) ∧
         (again ≠ [] → vain < 16 → exec (.flitReplay link ack) s = .next { s.setLink link { l with acked := ack, resends := vain + 1 } with
           sent := s.sent ++ again.map fun g => (link, g) }) ∧
         (again ≠ [] → 16 ≤ vain → ∃ t, exec (.flitReplay link ack) s = .next t ∧ (t.link link).up = false ∧ t.fw = s.fw ++ [.linkDown link] ∧ t.sent = s.sent)))) ∧
    (∀ k : BitVec 4, let link : BitVec 5 := k.setWidth 5
      ((s.link link).up = true → exec (.linkTimeout k) s = .next s) ∧
      ((s.link link).up = false → ∃ t, exec (.linkTimeout k) s = .next t ∧
        (∀ a ∈ t.accs, a ∈ s.accs ∧ s.waitsOn link (dieOf (a.ctx / 8)) a.loc.dev = false) ∧ (∀ j ∈ t.cmds, j ∈ s.cmds ∧ s.cmdOver link j = none))) ∧
    (∀ (seq va : BitVec 64) (pid : BitVec 7) (body : List Byte),
      (∃ t, exec (.imgld seq 0x7F va body) s = .next t ∧ answers s t 1 0x7F seq (natLe 8 0) ∧
        t = { s with wolas := t.wolas, staged := s.staged ++ [(va, body.take 216)] }) ∧
      (s.recovery = true → pid ≠ 0x7F → exec (.imgld seq pid va body) s = .next s ∧ exec (.start seq pid va) s = .next s ∧ exec (.debug seq body) s = .next s) ∧
      (s.bringUp ≠ 7 → exec (.start seq pid va) s = .next s) ∧
      (s.recovery = false → pid ≠ 0x7F → s.scrub = [] → let tenant := (s.part pid.toNat).tenant.toNat
        (body ≠ [] → (∀ l, s.walk tenant va.toNat = some l → l.w = false) →
          ∃ t, exec (.imgld seq pid va body) s = .next t ∧ answers s t 1 pid seq (natLe 8 va.toNat) ∧ t.mem = s.mem) ∧
        (∀ b l, body = [b] → s.walk tenant va.toNat = some l → l.w = true → let p := (l.run (l.pa / 2 ^ 36 % 8) 0).locAt 0 (va.toNat % 65536)
          plain s p → plainWrites s pid.toNat → ∃ t, exec (.imgld seq pid va body) s = .next t ∧ answers s t 1 pid seq (natLe 8 0) ∧
            t.readByte p.pa = b ∧ onlyBytes s t [(p.pa, 1)]))) ∧
    (∀ (seq va : BitVec 64) (pid : BitVec 7), s.recovery = false → s.bringUp = 7 → s.scrub = [] →
      let a := va.toNat; let x := starter s pid (s.part pid.toNat).tenant [a]
      let onlyAnswers := fun (t : State) => t = { s with wolas := t.wolas, errs := t.errs, freeCtr := t.freeCtr }
      (∀ k, s.accessFault x true false a 256 = some k → ∃ t, exec (.start seq pid va) s = .next t ∧ onlyAnswers t ∧
        answers s t 2 pid seq (natLe 1 k ++ natLe 8 a)) ∧
      (∀ bs, s.accessFault x true false a 256 = none → (∀ e ∈ x.ext, ∀ r ∈ e.runs, r.dev = s.ownDev.toNat) → quiet s →
        s.readVirt x 0 a 256 = .bytes bs → let l := lpbOf bs
        let y := starter s pid (BitVec.ofNat 16 l.tenant) [l.prog, l.cpl, l.inbox]
        (∀ e ∈ y.ext, ∀ r ∈ e.runs, r.dev = s.ownDev.toNat) →
        (∀ k v, s.launchCheck y 0 pid.toNat a bs = .fault k v → ∃ t, exec (.start seq pid va) s = .next t ∧ onlyAnswers t ∧
          answers s t 2 pid seq (natLe 1 k ++ natLe 8 v)) ∧
        (s.launchCheck y 0 pid.toNat a bs = .full → ∃ t, exec (.start seq pid va) s = .next t ∧ onlyAnswers t ∧ answers s t 2 pid seq (natLe 4 0)) ∧
        (s.launchCheck y 0 pid.toNat a bs = .take → ∃ t, exec (.start seq pid va) s = .next t ∧ t.ctxs = s.ctxs ∧
          let id := t.lastTask pid.toNat
          let k := t.task ⟨pid.toNat, id⟩
          answers s t 2 pid seq (natLe 4 id.toNat) ∧ (l.count ≠ 0 → k.state = .unplaced ∧ k.lpb = bs ∧ k.pid = pid.toNat)))) ∧
    (∀ (seq : BitVec 64) (nonce body : List Byte), (∃ t m, exec (.attreq seq nonce) s = .next t ∧ t = { s with wolas := s.wolas ++ [m], freeCtr := s.freeCtr + 1 } ∧
        m.type = 5 ∧ m.seq = seq ∧ (nonce.length = 32 → nonce <:+: m.body)) ∧
      (s.recovery = false → ∃ t m, exec (.debug seq body) s = .next t ∧ m.type = 6 ∧ m.seq = seq ∧
        t = { s with fw := s.fw ++ [.wolasDebug seq body], wolas := s.wolas ++ [m], freeCtr := s.freeCtr + 1 }))
end

