-- ==== Sys2Proof/Laws/Memory.lean ====
section
/-! SUPPORT. Laws of sparse tables and of memory: what a write and a wipe change, and that both keep the canonical form. -/

namespace Sys2Proof.Machine

/-! ### Sparse tables -/

section
variable {α : Type} [DecidableEq α] (d : α)

omit [DecidableEq α] in
@[simp] theorem Kv.get_nil (k : Nat) : Kv.get d [] k = d := rfl
@[simp] theorem Kv.wfFrom_nil (lo : Nat) : Kv.wfFrom d lo [] = true := rfl

theorem Kv.wfFrom_cons (lo a : Nat) (v : α) (m : Kv α) :
    Kv.wfFrom d lo ((a, v) :: m) = true ↔ lo ≤ a ∧ v ≠ d ∧ Kv.wfFrom d (a + 1) m = true := by
  simp [Kv.wfFrom, and_assoc]

theorem Kv.wfFrom_mono {lo lo' : Nat} (h : lo' ≤ lo) {m : Kv α} (hm : Kv.wfFrom d lo m = true) : Kv.wfFrom d lo' m = true := by
  cases m with
  | nil => rfl
  | cons e m => obtain ⟨a, v⟩ := e; rw [Kv.wfFrom_cons] at *; exact ⟨h.trans hm.1, hm.2⟩

/-- A key below every listed one has the default. -/
theorem Kv.get_below {lo k : Nat} (h : k < lo) {m : Kv α} (hm : Kv.wfFrom d lo m = true) : Kv.get d m k = d := by
  cases m with
  | nil => rfl
  | cons e m =>
    obtain ⟨a, v⟩ := e
    rw [Kv.wfFrom_cons] at hm
    simp [Kv.get, show ¬ a = k by omega, show k < a by omega]

theorem Kv.wfFrom_insert {lo k : Nat} (hk : lo ≤ k) {x : α} (hx : x ≠ d) {m : Kv α} (hm : Kv.wfFrom d lo m = true) :
    Kv.wfFrom d lo (Kv.insert m k x) = true := by
  induction m generalizing lo with
  | nil => simp [Kv.insert, Kv.wfFrom, hk, hx]
  | cons e m ih =>
    obtain ⟨a, v⟩ := e
    rw [Kv.wfFrom_cons] at hm
    unfold Kv.insert
    split
    · subst_vars; rw [Kv.wfFrom_cons]; exact ⟨hk, hx, hm.2.2⟩
    · split
      · rw [Kv.wfFrom_cons, Kv.wfFrom_cons]; exact ⟨hk, hx, by omega, hm.2⟩
      · rw [Kv.wfFrom_cons]; exact ⟨hm.1, hm.2.1, ih (by omega) hm.2.2⟩

theorem Kv.wfFrom_erase {lo : Nat} (k : Nat) {m : Kv α} (hm : Kv.wfFrom d lo m = true) :
    Kv.wfFrom d lo (Kv.erase m k) = true := by
  induction m generalizing lo with
  | nil => rfl
  | cons e m ih =>
    obtain ⟨a, v⟩ := e
    have h := hm
    rw [Kv.wfFrom_cons] at hm
    unfold Kv.erase
    split
    · exact Kv.wfFrom_mono d (by omega) hm.2.2
    · split
      · exact h
      · rw [Kv.wfFrom_cons]; exact ⟨hm.1, hm.2.1, ih hm.2.2⟩

/-- A write keeps the canonical form. -/
theorem Kv.wf_set (k : Nat) (x : α) {m : Kv α} (hm : Kv.wf d m = true) : Kv.wf d (Kv.set d m k x) = true := by
  unfold Kv.set
  split
  · exact Kv.wfFrom_erase d k hm
  · next h => exact Kv.wfFrom_insert d (Nat.zero_le k) h hm

/-- So does dropping entries. -/
theorem Kv.wf_filter (p : Nat × α → Bool) {m : Kv α} (hm : Kv.wf d m = true) : Kv.wf d (m.filter p) = true := by
  have H : ∀ lo, Kv.wfFrom d lo m = true → Kv.wfFrom d lo (m.filter p) = true := by
    clear hm
    induction m with
    | nil => intros; rfl
    | cons e m ih =>
      intro lo hm
      obtain ⟨a, v⟩ := e
      rw [Kv.wfFrom_cons] at hm
      rw [List.filter_cons]
      split
      · rw [Kv.wfFrom_cons]; exact ⟨hm.1, hm.2.1, ih _ hm.2.2⟩
      · exact Kv.wfFrom_mono d (by omega) (ih _ hm.2.2)
  exact H 0 hm

omit [DecidableEq α] in
/-- The key written holds the value written, in any table. -/
@[simp] theorem Kv.get_insert_self (m : Kv α) (k : Nat) (x : α) : Kv.get d (Kv.insert m k x) k = x := by
  induction m with
  | nil => simp [Kv.insert, Kv.get]
  | cons e m ih =>
    obtain ⟨a, v⟩ := e
    unfold Kv.insert
    split
    · simp [Kv.get]
    · split
      · simp [Kv.get]
      · simp [Kv.get, *]

/-- Every other key holds what it held. -/
theorem Kv.get_insert_of_ne {m : Kv α} {j k : Nat} (h : j ≠ k) (x : α) (hm : Kv.wf d m = true) :
    Kv.get d (Kv.insert m k x) j = Kv.get d m j := by
  have H : ∀ lo, Kv.wfFrom d lo m = true → Kv.get d (Kv.insert m k x) j = Kv.get d m j := by
    clear hm
    induction m with
    | nil => intro _ _; simp [Kv.insert, Kv.get]; omega
    | cons e m ih =>
      intro lo hm
      obtain ⟨a, v⟩ := e
      rw [Kv.wfFrom_cons] at hm
      unfold Kv.insert
      split
      · subst_vars; simp [Kv.get, Ne.symm h]
      · split
        · simp only [Kv.get]
          split
          · omega
          · split
            · split
              · omega
              · rw [if_pos (by omega)]
            · rfl
        · simp only [Kv.get, ih _ hm.2.2]
  exact H 0 hm

theorem Kv.get_erase_self {m : Kv α} (k : Nat) (hm : Kv.wf d m = true) : Kv.get d (Kv.erase m k) k = d := by
  have H : ∀ lo, Kv.wfFrom d lo m = true → Kv.get d (Kv.erase m k) k = d := by
    clear hm
    induction m with
    | nil => intros; rfl
    | cons e m ih =>
      intro lo hm
      obtain ⟨a, v⟩ := e
      rw [Kv.wfFrom_cons] at hm
      unfold Kv.erase
      split
      · exact Kv.get_below d (by omega) hm.2.2
      · split
        · simp [Kv.get, *]
        · next h1 h2 => simp [Kv.get, h1, h2, ih _ hm.2.2]
  exact H 0 hm

theorem Kv.get_erase_of_ne {m : Kv α} {j k : Nat} (h : j ≠ k) (hm : Kv.wf d m = true) :
    Kv.get d (Kv.erase m k) j = Kv.get d m j := by
  have H : ∀ lo, Kv.wfFrom d lo m = true → Kv.get d (Kv.erase m k) j = Kv.get d m j := by
    clear hm
    induction m with
    | nil => intros; rfl
    | cons e m ih =>
      intro lo hm
      obtain ⟨a, v⟩ := e
      rw [Kv.wfFrom_cons] at hm
      unfold Kv.erase
      split
      · subst_vars
        simp only [Kv.get, if_neg (Ne.symm h)]
        split
        · exact Kv.get_below d (by omega) hm.2.2
        · rfl
      · split
        · rfl
        · simp only [Kv.get, ih _ hm.2.2]
  exact H 0 hm

/-- Reading back what was written. -/
theorem Kv.get_set_self (k : Nat) (x : α) {m : Kv α} (hm : Kv.wf d m = true) : Kv.get d (Kv.set d m k x) k = x := by
  unfold Kv.set
  split
  · subst_vars; exact Kv.get_erase_self _ k hm
  · simp

/-- A write leaves every other key alone. -/
theorem Kv.get_set_of_ne {j k : Nat} (h : j ≠ k) (x : α) {m : Kv α} (hm : Kv.wf d m = true) :
    Kv.get d (Kv.set d m k x) j = Kv.get d m j := by
  unfold Kv.set
  split
  · exact Kv.get_erase_of_ne d h hm
  · exact Kv.get_insert_of_ne d h x hm

end

/-! ### Memory -/

theorem Memory.wf_iff (m : List Host.Cell) : Memory.wf m = true ↔ Kv.wf (0 : Byte) m = true := Iff.rfl

theorem reset_mem_wf : Memory.wf State.reset.mem = true := rfl

theorem State.writeByte_memWf {s : State} (h : Memory.wf s.mem = true) (a : Nat) (b : Byte) :
    Memory.wf (s.writeByte a b).mem = true := Kv.wf_set 0 a b h

theorem State.writeBytes_memWf {s : State} (h : Memory.wf s.mem = true) (a : Nat) (bs : List Byte) :
    Memory.wf (s.writeBytes a bs).mem = true := by
  induction bs generalizing s a with
  | nil => exact h
  | cons b bs ih => exact ih (State.writeByte_memWf h a b) (a + 1)

theorem State.writeNat_memWf {s : State} (h : Memory.wf s.mem = true) (a n v : Nat) :
    Memory.wf (s.writeNat a n v).mem = true := State.writeBytes_memWf h a _

theorem State.wipe_memWf {s : State} (h : Memory.wf s.mem = true) (a n : Nat) : Memory.wf (s.wipe a n).mem = true :=
  Kv.wf_filter 0 _ h

theorem State.poisonBytes_mem (s : State) (a n : Nat) : (s.poisonBytes a n).mem = s.mem := by
  induction n generalizing s a with
  | zero => rfl
  | succ n ih => unfold State.poisonBytes; rw [ih]

theorem State.readByte_writeByte {s : State} (h : Memory.wf s.mem = true) (a : Nat) (b : Byte) :
    (s.writeByte a b).readByte a = b := Kv.get_set_self 0 a b h

theorem State.readByte_writeByte_of_ne {s : State} (h : Memory.wf s.mem = true) {a c : Nat} (hc : c ≠ a) (b : Byte) :
    (s.writeByte a b).readByte c = s.readByte c := Kv.get_set_of_ne 0 hc b h

/-- A store changes the bytes it covers and no others. -/
theorem State.readByte_writeBytes {s : State} (h : Memory.wf s.mem = true) (a c : Nat) (bs : List Byte) :
    (s.writeBytes a bs).readByte c = if a ≤ c ∧ c < a + bs.length then bs.getD (c - a) 0 else s.readByte c := by
  induction bs generalizing s a with
  | nil => simp [State.writeBytes]
  | cons b bs ih =>
    rw [State.writeBytes, ih (State.writeByte_memWf h a b)]
    simp only [List.length_cons]
    by_cases hc : c = a
    · subst hc
      rw [if_neg (by omega), if_pos (by omega), State.readByte_writeByte h]
      simp
    · rw [State.readByte_writeByte_of_ne h hc]
      by_cases h2 : a + 1 ≤ c ∧ c < a + 1 + bs.length
      · rw [if_pos h2, if_pos (by omega)]
        have : c - a = (c - (a + 1)) + 1 := by omega
        rw [this, List.getD_cons_succ]
      · rw [if_neg h2, if_neg (by omega)]

end Sys2Proof.Machine
end

