-- ==== Sys2Proof/Laws/Ctx.lean ====
section
/-! SUPPORT. What the end of a context cycle does to a result: one of latency 1 is in its register from the next context cycle on, a
longer one stays in flight, and neither changes anything else. -/

namespace Sys2Proof.Machine

/-! ### Registers -/

@[simp] theorem Ctx.reg_zero (x : Ctx) : x.reg 0 = 0 := rfl
@[simp] theorem Ctx.setReg_zero (x : Ctx) (v : Word) : x.setReg 0 v = x := rfl

theorem Ctx.reg_of_ne (x : Ctx) {r : Reg} (hr : r ≠ 0) : x.reg r = Kv.get 0 x.s r.toNat := if_neg hr
theorem Ctx.setReg_s (x : Ctx) {r : Reg} (hr : r ≠ 0) (v : Word) : (x.setReg r v).s = Kv.set 0 x.s r.toNat v := by
  unfold Ctx.setReg; rw [if_neg hr]

theorem Ctx.reg_setReg_self {x : Ctx} (h : Kv.wf (0 : Word) x.s = true) {r : Reg} (hr : r ≠ 0) (v : Word) :
    (x.setReg r v).reg r = v := by
  rw [Ctx.reg_of_ne _ hr, Ctx.setReg_s _ hr]; exact Kv.get_set_self 0 _ _ h

theorem Ctx.reg_setReg_of_ne {x : Ctx} (h : Kv.wf (0 : Word) x.s = true) {r q : Reg} (hq : q ≠ r) (v : Word) :
    (x.setReg r v).reg q = x.reg q := by
  by_cases h0 : q = 0
  · subst h0; rfl
  by_cases hr : r = 0
  · subst hr; rfl
  rw [Ctx.reg_of_ne _ h0, Ctx.reg_of_ne _ h0, Ctx.setReg_s _ hr]
  exact Kv.get_set_of_ne 0 (fun e => hq (BitVec.eq_of_toNat_eq e)) v h

/-! ### Results in flight -/

/-- A context with another list of results in flight. -/
def Ctx.withFlight (x : Ctx) (l : List Flight) : Ctx := { x with flight := l }

theorem Ctx.withFlight_flight (x : Ctx) (l : List Flight) : (x.withFlight l).flight = l := rfl
theorem Ctx.withFlight_cyc (x : Ctx) (l : List Flight) : (x.withFlight l).cyc = x.cyc := rfl
theorem Ctx.withFlight_withFlight (x : Ctx) (l k : List Flight) : (x.withFlight l).withFlight k = x.withFlight k := rfl
theorem Ctx.withFlight_self (x : Ctx) : x.withFlight x.flight = x := rfl

theorem Ctx.noteCorrupt_withFlight (x : Ctx) (p : Option Nat) (l : List Flight) :
    (x.withFlight l).noteCorrupt p = (x.noteCorrupt p).withFlight l := by
  cases p with
  | none => rfl
  | some a => change (if x.struck.isNone then _ else _) = (if x.struck.isNone then _ else _ : Ctx).withFlight l; split <;> rfl

theorem Ctx.strike_withFlight (x : Ctx) (l : List Flight) : (x.withFlight l).strike = x.strike.withFlight l := by
  unfold Ctx.strike
  change (match x.struck with | some _ => _ | none => _) = _
  cases x.struck <;> rfl

/-- Landing depends on registers and landing registers alone, so the list of flights may be replaced before or after it. -/
theorem Ctx.land_withFlight (x : Ctx) (f : Flight) (l : List Flight) : (x.withFlight l).land f = (x.land f).withFlight l := by
  obtain ⟨d, v, due, lo, po⟩ := f
  have hs : ∀ (z : Ctx) (r : Reg), (z.withFlight l).setReg r v = (z.setReg r v).withFlight l := by
    intro z r; unfold Ctx.setReg; split <;> rfl
  have hl : ∀ (z : Ctx) (n : LReg) (i : Nat), (if ((z.withFlight l).landing n).pending && ((z.withFlight l).landing n).acc == i then
      (z.withFlight l).setLanding n ⟨v, true, false, none, 0⟩ else z.withFlight l)
      = (if (z.landing n).pending && (z.landing n).acc == i then z.setLanding n ⟨v, true, false, none, 0⟩ else z).withFlight l := by
    intro z n i; change (if (z.landing n).pending && (z.landing n).acc == i then _ else _) = _; split <;> rfl
  cases d with
  | s r => cases po with
    | none => exact hs x r
    | some a => unfold Ctx.land; simp only [hs, Ctx.noteCorrupt_withFlight]
  | l n i => cases po with
    | none => exact hl x n i
    | some a => unfold Ctx.land; simp only [hl, Ctx.noteCorrupt_withFlight]

theorem Ctx.foldl_land_withFlight (x : Ctx) (fs l : List Flight) :
    fs.foldl Ctx.land (x.withFlight l) = (fs.foldl Ctx.land x).withFlight l := by
  induction fs generalizing x with
  | nil => rfl
  | cons f fs ih => rw [List.foldl_cons, Ctx.land_withFlight, ih]; rfl

theorem Ctx.landDue_eq (x : Ctx) (c : Nat) : x.landDue c = ((x.flight.filter fun f => decide (f.due ≤ c)).foldl Ctx.land x).withFlight
    (x.flight.filter fun f => decide (c < f.due)) := rfl

/-- A result that is due lands after all those issued before it. -/
theorem Ctx.landDue_last (x : Ctx) (f : Flight) (c : Nat) (h : f.due ≤ c) :
    (x.withFlight (x.flight ++ [f])).landDue c = (x.landDue c).land f := by
  have h2 : ¬ c < f.due := by omega
  rw [Ctx.landDue_eq, Ctx.landDue_eq, Ctx.withFlight_flight, List.filter_append, List.filter_append,
    List.filter_singleton, List.filter_singleton, decide_eq_true h, decide_eq_false h2]
  simp only [cond_true, cond_false, List.append_nil, List.foldl_append, Ctx.foldl_land_withFlight, Ctx.land_withFlight,
    List.foldl_cons, List.foldl_nil, Ctx.withFlight_withFlight]

/-- One that is not due stays in flight. -/
theorem Ctx.landDue_later (x : Ctx) (f : Flight) (c : Nat) (h : c < f.due) :
    (x.withFlight (x.flight ++ [f])).landDue c = (x.landDue c).withFlight ((x.landDue c).flight ++ [f]) := by
  have h2 : ¬ f.due ≤ c := by omega
  rw [Ctx.landDue_eq, Ctx.landDue_eq, Ctx.withFlight_flight, List.filter_append, List.filter_append,
    List.filter_singleton, List.filter_singleton, decide_eq_true h, decide_eq_false h2]
  simp only [cond_true, cond_false, List.append_nil, Ctx.foldl_land_withFlight, Ctx.withFlight_withFlight, Ctx.withFlight_flight]

theorem Ctx.landReplay_withFlight (x : Ctx) (c : Nat) (y : Replay) (l : List Flight) :
    Ctx.landReplay c (x.withFlight l) y = (Ctx.landReplay c x y).withFlight l := by
  unfold Ctx.landReplay
  split
  · rw [← Ctx.noteCorrupt_withFlight]; unfold Ctx.setReg; split <;> rfl
  · rfl

theorem Ctx.foldl_landReplay_withFlight (c : Nat) (ys : List Replay) (x : Ctx) (l : List Flight) :
    ys.foldl (Ctx.landReplay c) (x.withFlight l) = (ys.foldl (Ctx.landReplay c) x).withFlight l := by
  induction ys generalizing x with
  | nil => rfl
  | cons y ys ih => rw [List.foldl_cons, Ctx.landReplay_withFlight, ih]; rfl

theorem Ctx.landReplays_withFlight (x : Ctx) (c : Nat) (l : List Flight) :
    (x.withFlight l).landReplays c = (x.landReplays c).withFlight l := by
  unfold Ctx.landReplays
  rw [show (x.withFlight l).replayOrder = x.replayOrder from rfl, Ctx.foldl_landReplay_withFlight]
  rfl

theorem Ctx.count_withFlight (x : Ctx) (k : Spent) (l : List Flight) : (x.withFlight l).count k = (x.count k).withFlight l := by
  unfold Ctx.count
  change (if x.occ = 0 then _ else _) = _
  cases k <;> simp only <;> split <;> rfl

/-- The context at the start of its next context cycle, before anything lands. -/
def Ctx.ticked (x : Ctx) (k : Spent) : Ctx := ({ x with cyc := x.cyc + 1 } : Ctx).strike.count k

theorem Ctx.ticked_withFlight (x : Ctx) (k : Spent) (l : List Flight) : (x.withFlight l).ticked k = (x.ticked k).withFlight l := by
  unfold Ctx.ticked
  rw [← Ctx.count_withFlight, ← Ctx.strike_withFlight]; rfl

theorem Ctx.endCycle_eq (x : Ctx) (k : Spent) : x.endCycle k = ((x.ticked k).landReplays (x.cyc + 1)).landDue (x.cyc + 1) := rfl

theorem Ctx.landReplays_flight (x : Ctx) (c : Nat) : (x.landReplays c).flight = x.flight := by
  conv_lhs => rw [← Ctx.withFlight_self x, Ctx.landReplays_withFlight]
  rfl

theorem Ctx.ticked_flight (x : Ctx) (k : Spent) : (x.ticked k).flight = x.flight := by
  conv_lhs => rw [← Ctx.withFlight_self x, Ctx.ticked_withFlight]
  rfl

theorem Ctx.endCycle_last (x : Ctx) (k : Spent) (f : Flight) (h : f.due ≤ x.cyc + 1) :
    (x.withFlight (x.flight ++ [f])).endCycle k = (x.endCycle k).land f := by
  rw [Ctx.endCycle_eq, Ctx.endCycle_eq, Ctx.ticked_withFlight, Ctx.landReplays_withFlight]
  have := Ctx.landDue_last ((x.ticked k).landReplays (x.cyc + 1)) f (x.cyc + 1) h
  rwa [Ctx.landReplays_flight, Ctx.ticked_flight] at this

theorem Ctx.endCycle_later (x : Ctx) (k : Spent) (f : Flight) (h : x.cyc + 1 < f.due) :
    (x.withFlight (x.flight ++ [f])).endCycle k = (x.endCycle k).withFlight ((x.endCycle k).flight ++ [f]) := by
  rw [Ctx.endCycle_eq, Ctx.endCycle_eq, Ctx.ticked_withFlight, Ctx.landReplays_withFlight]
  have := Ctx.landDue_later ((x.ticked k).landReplays (x.cyc + 1)) f (x.cyc + 1) h
  rwa [Ctx.landReplays_flight, Ctx.ticked_flight] at this

/-! ### A result of the issuing instruction -/

theorem State.done_passed (s : State) (x : Ctx) : s.done x = .next (s.setSelf x.passed) := rfl

/-- A result of latency 1 differs from NOP in its register alone. -/
theorem State.result_one (s : State) (r : Reg) (v : Word) : s.result r v 1 = .next (s.setSelf (s.self.passed.setReg r v)) :=
  congrArg (fun z => Host.Outcome.next (s.setSelf z))
    (Ctx.endCycle_last ({ s.self.goNext s.self.next with hold := none }) .issue ⟨.s r, v, s.self.cyc + 1, decide (1 < 1), none, s.self.cyc⟩ (Nat.le_refl _))

/-- A longer one differs from NOP in the list of flights alone. -/
theorem State.result_long (s : State) (r : Reg) (v : Word) (lat : Nat) (h : 1 < lat) :
    s.result r v lat = .next (s.setSelf { s.self.passed with
      flight := s.self.passed.flight ++ [⟨.s r, v, s.self.cyc + lat, true, none, s.self.cyc⟩] }) := by
  have e : (⟨.s r, v, s.self.cyc + lat, true, none, s.self.cyc⟩ : Flight) = ⟨.s r, v, s.self.cyc + lat, decide (1 < lat), none, s.self.cyc⟩ := by
    rw [decide_eq_true h]
  rw [e]
  exact congrArg (fun z => (Host.Outcome.next (s.setSelf z) : Out))
    (Ctx.endCycle_later ({ s.self.goNext s.self.next with hold := none }) .issue ⟨.s r, v, s.self.cyc + lat, decide (1 < lat), none, s.self.cyc⟩
      (show s.self.cyc + 1 < s.self.cyc + lat by omega))

/-! ### What a context cycle leaves as it was -/

/-- Everything of a context that a context cycle passing does not touch. -/
def Ctx.kept (x : Ctx) : Ctx :=
  { x with cyc := 0, s := [], l := [], flight := [], y0 := {}, y1 := {}, y2 := {}, y3 := {}, loose := [], bfault := none, struck := none, occIssue := 0,
           occWait := 0, occOther := 0 }

theorem Ctx.setReg_kept (x : Ctx) (r : Reg) (v : Word) : (x.setReg r v).kept = x.kept := by unfold Ctx.setReg; split <;> rfl

theorem Ctx.noteCorrupt_kept (x : Ctx) (p : Option Nat) : (x.noteCorrupt p).kept = x.kept := by
  unfold Ctx.noteCorrupt
  split
  · split <;> rfl
  · rfl
theorem Ctx.strike_kept (x : Ctx) : x.strike.kept = x.kept := by
  unfold Ctx.strike
  split <;> rfl

theorem Ctx.land_kept (x : Ctx) (f : Flight) : (x.land f).kept = x.kept := by
  have hl : ∀ (n : LReg) (i : Nat), (if (x.landing n).pending && (x.landing n).acc == i then x.setLanding n ⟨f.val, true, false, none, 0⟩
      else x).kept = x.kept := by
    intro n i; split <;> rfl
  unfold Ctx.land
  cases f.dst <;> simp only [Ctx.noteCorrupt_kept, hl, Ctx.setReg_kept]

theorem Ctx.foldl_land_kept (fs : List Flight) (x : Ctx) : (fs.foldl Ctx.land x).kept = x.kept := by
  induction fs generalizing x with
  | nil => rfl
  | cons f fs ih => exact (ih _).trans (Ctx.land_kept x f)

theorem Ctx.withFlight_kept (x : Ctx) (l : List Flight) : (x.withFlight l).kept = x.kept := rfl

theorem Ctx.landDue_kept (x : Ctx) (c : Nat) : (x.landDue c).kept = x.kept := by
  rw [Ctx.landDue_eq, Ctx.withFlight_kept, Ctx.foldl_land_kept]

theorem Ctx.landReplay_kept (x : Ctx) (c : Nat) (y : Replay) : (Ctx.landReplay c x y).kept = x.kept := by
  unfold Ctx.landReplay
  split
  · exact (Ctx.noteCorrupt_kept _ _).trans (Ctx.setReg_kept _ _ _)
  · rfl
theorem Ctx.foldl_landReplay_kept (c : Nat) (ys : List Replay) (x : Ctx) : (ys.foldl (Ctx.landReplay c) x).kept = x.kept := by
  induction ys generalizing x with
  | nil => rfl
  | cons y ys ih => exact (ih _).trans (Ctx.landReplay_kept x c y)

theorem Ctx.landReplays_kept (x : Ctx) (c : Nat) : (x.landReplays c).kept = x.kept :=
  Ctx.foldl_landReplay_kept c x.replayOrder x

theorem Ctx.count_kept (x : Ctx) (k : Spent) : (x.count k).kept = x.kept := by
  unfold Ctx.count
  split
  · rfl
  · cases k <;> rfl

theorem Ctx.ticked_kept (x : Ctx) (k : Spent) : (x.ticked k).kept = x.kept :=
  (Ctx.count_kept _ k).trans ((Ctx.strike_kept _).trans rfl)

theorem Ctx.endCycle_kept (x : Ctx) (k : Spent) : (x.endCycle k).kept = x.kept := by
  rw [Ctx.endCycle_eq, Ctx.landDue_kept, Ctx.landReplays_kept, Ctx.ticked_kept]

/-! Field by field. -/

@[simp] theorem Ctx.endCycle_run (x : Ctx) (k : Spent) : (x.endCycle k).run = x.run := by have h := congrArg Ctx.run (Ctx.endCycle_kept x k); exact h
@[simp] theorem Ctx.endCycle_pc (x : Ctx) (k : Spent) : (x.endCycle k).pc = x.pc := by have h := congrArg Ctx.pc (Ctx.endCycle_kept x k); exact h
@[simp] theorem Ctx.endCycle_h (x : Ctx) (k : Spent) : (x.endCycle k).h = x.h := by have h := congrArg Ctx.h (Ctx.endCycle_kept x k); exact h
@[simp] theorem Ctx.endCycle_hpend (x : Ctx) (k : Spent) : (x.endCycle k).hpend = x.hpend := by have h := congrArg Ctx.hpend (Ctx.endCycle_kept x k); exact h
@[simp] theorem Ctx.endCycle_ls (x : Ctx) (k : Spent) : (x.endCycle k).ls = x.ls := by have h := congrArg Ctx.ls (Ctx.endCycle_kept x k); exact h
@[simp] theorem Ctx.endCycle_lss0 (x : Ctx) (k : Spent) : (x.endCycle k).lss0 = x.lss0 := by have h := congrArg Ctx.lss0 (Ctx.endCycle_kept x k); exact h
@[simp] theorem Ctx.endCycle_lss1 (x : Ctx) (k : Spent) : (x.endCycle k).lss1 = x.lss1 := by have h := congrArg Ctx.lss1 (Ctx.endCycle_kept x k); exact h
@[simp] theorem Ctx.endCycle_lss2 (x : Ctx) (k : Spent) : (x.endCycle k).lss2 = x.lss2 := by have h := congrArg Ctx.lss2 (Ctx.endCycle_kept x k); exact h
@[simp] theorem Ctx.endCycle_lss3 (x : Ctx) (k : Spent) : (x.endCycle k).lss3 = x.lss3 := by have h := congrArg Ctx.lss3 (Ctx.endCycle_kept x k); exact h
@[simp] theorem Ctx.endCycle_hnd (x : Ctx) (k : Spent) : (x.endCycle k).hnd = x.hnd := by have h := congrArg Ctx.hnd (Ctx.endCycle_kept x k); exact h
@[simp] theorem Ctx.endCycle_yreq (x : Ctx) (k : Spent) : (x.endCycle k).yreq = x.yreq := by have h := congrArg Ctx.yreq (Ctx.endCycle_kept x k); exact h
@[simp] theorem Ctx.endCycle_ord (x : Ctx) (k : Spent) : (x.endCycle k).ord = x.ord := by have h := congrArg Ctx.ord (Ctx.endCycle_kept x k); exact h
@[simp] theorem Ctx.endCycle_dgen (x : Ctx) (k : Spent) : (x.endCycle k).dgen = x.dgen := by have h := congrArg Ctx.dgen (Ctx.endCycle_kept x k); exact h
@[simp] theorem Ctx.endCycle_spd (x : Ctx) (k : Spent) : (x.endCycle k).spd = x.spd := by have h := congrArg Ctx.spd (Ctx.endCycle_kept x k); exact h
@[simp] theorem Ctx.endCycle_tvec (x : Ctx) (k : Spent) : (x.endCycle k).tvec = x.tvec := by have h := congrArg Ctx.tvec (Ctx.endCycle_kept x k); exact h
@[simp] theorem Ctx.endCycle_tcode (x : Ctx) (k : Spent) : (x.endCycle k).tcode = x.tcode := by have h := congrArg Ctx.tcode (Ctx.endCycle_kept x k); exact h
@[simp] theorem Ctx.endCycle_slsd (x : Ctx) (k : Spent) : (x.endCycle k).slsd = x.slsd := by have h := congrArg Ctx.slsd (Ctx.endCycle_kept x k); exact h
@[simp] theorem Ctx.endCycle_tpc (x : Ctx) (k : Spent) : (x.endCycle k).tpc = x.tpc := by have h := congrArg Ctx.tpc (Ctx.endCycle_kept x k); exact h
@[simp] theorem Ctx.endCycle_tval (x : Ctx) (k : Spent) : (x.endCycle k).tval = x.tval := by have h := congrArg Ctx.tval (Ctx.endCycle_kept x k); exact h
@[simp] theorem Ctx.endCycle_modefp (x : Ctx) (k : Spent) : (x.endCycle k).modefp = x.modefp := by have h := congrArg Ctx.modefp (Ctx.endCycle_kept x k); exact h
@[simp] theorem Ctx.endCycle_spillBase (x : Ctx) (k : Spent) : (x.endCycle k).spillBase = x.spillBase := by have h := congrArg Ctx.spillBase (Ctx.endCycle_kept x k); exact h
@[simp] theorem Ctx.endCycle_spillLim (x : Ctx) (k : Spent) : (x.endCycle k).spillLim = x.spillLim := by have h := congrArg Ctx.spillLim (Ctx.endCycle_kept x k); exact h
@[simp] theorem Ctx.endCycle_ovfPtr (x : Ctx) (k : Spent) : (x.endCycle k).ovfPtr = x.ovfPtr := by have h := congrArg Ctx.ovfPtr (Ctx.endCycle_kept x k); exact h
@[simp] theorem Ctx.endCycle_task (x : Ctx) (k : Spent) : (x.endCycle k).task = x.task := by have h := congrArg Ctx.task (Ctx.endCycle_kept x k); exact h
@[simp] theorem Ctx.endCycle_inst (x : Ctx) (k : Spent) : (x.endCycle k).inst = x.inst := by have h := congrArg Ctx.inst (Ctx.endCycle_kept x k); exact h
@[simp] theorem Ctx.endCycle_tenant (x : Ctx) (k : Spent) : (x.endCycle k).tenant = x.tenant := by have h := congrArg Ctx.tenant (Ctx.endCycle_kept x k); exact h
@[simp] theorem Ctx.endCycle_pid (x : Ctx) (k : Spent) : (x.endCycle k).pid = x.pid := by have h := congrArg Ctx.pid (Ctx.endCycle_kept x k); exact h
@[simp] theorem Ctx.endCycle_ridxPan (x : Ctx) (k : Spent) : (x.endCycle k).ridxPan = x.ridxPan := by have h := congrArg Ctx.ridxPan (Ctx.endCycle_kept x k); exact h
@[simp] theorem Ctx.endCycle_ridxField (x : Ctx) (k : Spent) : (x.endCycle k).ridxField = x.ridxField := by have h := congrArg Ctx.ridxField (Ctx.endCycle_kept x k); exact h
@[simp] theorem Ctx.endCycle_ridxDie (x : Ctx) (k : Spent) : (x.endCycle k).ridxDie = x.ridxDie := by have h := congrArg Ctx.ridxDie (Ctx.endCycle_kept x k); exact h
@[simp] theorem Ctx.endCycle_grace (x : Ctx) (k : Spent) : (x.endCycle k).grace = x.grace := by have h := congrArg Ctx.grace (Ctx.endCycle_kept x k); exact h
@[simp] theorem Ctx.endCycle_kill (x : Ctx) (k : Spent) : (x.endCycle k).kill = x.kill := by have h := congrArg Ctx.kill (Ctx.endCycle_kept x k); exact h
@[simp] theorem Ctx.endCycle_prio (x : Ctx) (k : Spent) : (x.endCycle k).prio = x.prio := by have h := congrArg Ctx.prio (Ctx.endCycle_kept x k); exact h
@[simp] theorem Ctx.endCycle_slots (x : Ctx) (k : Spent) : (x.endCycle k).slots = x.slots := by have h := congrArg Ctx.slots (Ctx.endCycle_kept x k); exact h
@[simp] theorem Ctx.endCycle_recIdx (x : Ctx) (k : Spent) : (x.endCycle k).recIdx = x.recIdx := by have h := congrArg Ctx.recIdx (Ctx.endCycle_kept x k); exact h
@[simp] theorem Ctx.endCycle_pans (x : Ctx) (k : Spent) : (x.endCycle k).pans = x.pans := by have h := congrArg Ctx.pans (Ctx.endCycle_kept x k); exact h
@[simp] theorem Ctx.endCycle_fields (x : Ctx) (k : Spent) : (x.endCycle k).fields = x.fields := by have h := congrArg Ctx.fields (Ctx.endCycle_kept x k); exact h
@[simp] theorem Ctx.endCycle_dies (x : Ctx) (k : Spent) : (x.endCycle k).dies = x.dies := by have h := congrArg Ctx.dies (Ctx.endCycle_kept x k); exact h
@[simp] theorem Ctx.endCycle_ext (x : Ctx) (k : Spent) : (x.endCycle k).ext = x.ext := by have h := congrArg Ctx.ext (Ctx.endCycle_kept x k); exact h
@[simp] theorem Ctx.endCycle_map (x : Ctx) (k : Spent) : (x.endCycle k).map = x.map := by have h := congrArg Ctx.map (Ctx.endCycle_kept x k); exact h
@[simp] theorem Ctx.endCycle_textBase (x : Ctx) (k : Spent) : (x.endCycle k).textBase = x.textBase := by have h := congrArg Ctx.textBase (Ctx.endCycle_kept x k); exact h
@[simp] theorem Ctx.endCycle_textLines (x : Ctx) (k : Spent) : (x.endCycle k).textLines = x.textLines := by have h := congrArg Ctx.textLines (Ctx.endCycle_kept x k); exact h
@[simp] theorem Ctx.endCycle_store (x : Ctx) (k : Spent) : (x.endCycle k).store = x.store := by have h := congrArg Ctx.store (Ctx.endCycle_kept x k); exact h
@[simp] theorem Ctx.endCycle_storeGen (x : Ctx) (k : Spent) : (x.endCycle k).storeGen = x.storeGen := by have h := congrArg Ctx.storeGen (Ctx.endCycle_kept x k); exact h
@[simp] theorem Ctx.endCycle_text (x : Ctx) (k : Spent) : (x.endCycle k).text = x.text := by have h := congrArg Ctx.text (Ctx.endCycle_kept x k); exact h
@[simp] theorem Ctx.endCycle_dict (x : Ctx) (k : Spent) : (x.endCycle k).dict = x.dict := by have h := congrArg Ctx.dict (Ctx.endCycle_kept x k); exact h
@[simp] theorem Ctx.endCycle_dictAt (x : Ctx) (k : Spent) : (x.endCycle k).dictAt = x.dictAt := by have h := congrArg Ctx.dictAt (Ctx.endCycle_kept x k); exact h
@[simp] theorem Ctx.endCycle_loadFault (x : Ctx) (k : Spent) : (x.endCycle k).loadFault = x.loadFault := by have h := congrArg Ctx.loadFault (Ctx.endCycle_kept x k); exact h
@[simp] theorem Ctx.endCycle_bubble (x : Ctx) (k : Spent) : (x.endCycle k).bubble = x.bubble := by have h := congrArg Ctx.bubble (Ctx.endCycle_kept x k); exact h
@[simp] theorem Ctx.endCycle_hold (x : Ctx) (k : Spent) : (x.endCycle k).hold = x.hold := by have h := congrArg Ctx.hold (Ctx.endCycle_kept x k); exact h
@[simp] theorem Ctx.endCycle_body (x : Ctx) (k : Spent) : (x.endCycle k).body = x.body := by have h := congrArg Ctx.body (Ctx.endCycle_kept x k); exact h
@[simp] theorem Ctx.endCycle_readyAt (x : Ctx) (k : Spent) : (x.endCycle k).readyAt = x.readyAt := by have h := congrArg Ctx.readyAt (Ctx.endCycle_kept x k); exact h
@[simp] theorem Ctx.endCycle_startAt (x : Ctx) (k : Spent) : (x.endCycle k).startAt = x.startAt := by have h := congrArg Ctx.startAt (Ctx.endCycle_kept x k); exact h
@[simp] theorem Ctx.endCycle_tb (x : Ctx) (k : Spent) : (x.endCycle k).tb = x.tb := by have h := congrArg Ctx.tb (Ctx.endCycle_kept x k); exact h
@[simp] theorem Ctx.endCycle_mark (x : Ctx) (k : Spent) : (x.endCycle k).mark = x.mark := by have h := congrArg Ctx.mark (Ctx.endCycle_kept x k); exact h
@[simp] theorem Ctx.endCycle_markStall (x : Ctx) (k : Spent) : (x.endCycle k).markStall = x.markStall := by have h := congrArg Ctx.markStall (Ctx.endCycle_kept x k); exact h
@[simp] theorem Ctx.endCycle_markDone (x : Ctx) (k : Spent) : (x.endCycle k).markDone = x.markDone := by have h := congrArg Ctx.markDone (Ctx.endCycle_kept x k); exact h
@[simp] theorem Ctx.endCycle_heldAll (x : Ctx) (k : Spent) : (x.endCycle k).heldAll = x.heldAll := by have h := congrArg Ctx.heldAll (Ctx.endCycle_kept x k); exact h
@[simp] theorem Ctx.endCycle_heldStores (x : Ctx) (k : Spent) : (x.endCycle k).heldStores = x.heldStores := by have h := congrArg Ctx.heldStores (Ctx.endCycle_kept x k); exact h
@[simp] theorem Ctx.endCycle_haltReq (x : Ctx) (k : Spent) : (x.endCycle k).haltReq = x.haltReq := by have h := congrArg Ctx.haltReq (Ctx.endCycle_kept x k); exact h
@[simp] theorem Ctx.endCycle_dbg (x : Ctx) (k : Spent) : (x.endCycle k).dbg = x.dbg := by have h := congrArg Ctx.dbg (Ctx.endCycle_kept x k); exact h
@[simp] theorem Ctx.endCycle_ckpt (x : Ctx) (k : Spent) : (x.endCycle k).ckpt = x.ckpt := by have h := congrArg Ctx.ckpt (Ctx.endCycle_kept x k); exact h
@[simp] theorem Ctx.endCycle_phase (x : Ctx) (k : Spent) : (x.endCycle k).phase = x.phase := by have h := congrArg Ctx.phase (Ctx.endCycle_kept x k); exact h
@[simp] theorem Ctx.endCycle_occ (x : Ctx) (k : Spent) : (x.endCycle k).occ = x.occ := by have h := congrArg Ctx.occ (Ctx.endCycle_kept x k); exact h
@[simp] theorem Ctx.endCycle_phases (x : Ctx) (k : Spent) : (x.endCycle k).phases = x.phases := by have h := congrArg Ctx.phases (Ctx.endCycle_kept x k); exact h
@[simp] theorem Ctx.endCycle_occRows (x : Ctx) (k : Spent) : (x.endCycle k).occRows = x.occRows := by have h := congrArg Ctx.occRows (Ctx.endCycle_kept x k); exact h
@[simp] theorem Ctx.endCycle_exitCode (x : Ctx) (k : Spent) : (x.endCycle k).exitCode = x.exitCode := by have h := congrArg Ctx.exitCode (Ctx.endCycle_kept x k); exact h
@[simp] theorem Ctx.endCycle_haltCount (x : Ctx) (k : Spent) : (x.endCycle k).haltCount = x.haltCount := by have h := congrArg Ctx.haltCount (Ctx.endCycle_kept x k); exact h
@[simp] theorem Ctx.endCycle_tauH (x : Ctx) (k : Spent) : (x.endCycle k).tauH = x.tauH := by have h := congrArg Ctx.tauH (Ctx.endCycle_kept x k); exact h
@[simp] theorem Ctx.endCycle_rowMode (x : Ctx) (k : Spent) : (x.endCycle k).rowMode = x.rowMode := by have h := congrArg Ctx.rowMode (Ctx.endCycle_kept x k); exact h
@[simp] theorem Ctx.endCycle_rowAt (x : Ctx) (k : Spent) : (x.endCycle k).rowAt = x.rowAt := by have h := congrArg Ctx.rowAt (Ctx.endCycle_kept x k); exact h
@[simp] theorem Ctx.passed_run (x : Ctx) : x.passed.run = x.run :=
  Ctx.endCycle_run { x.goNext x.next with hold := none } .issue
@[simp] theorem Ctx.passed_h (x : Ctx) : x.passed.h = x.h :=
  Ctx.endCycle_h { x.goNext x.next with hold := none } .issue
@[simp] theorem Ctx.passed_hpend (x : Ctx) : x.passed.hpend = x.hpend :=
  Ctx.endCycle_hpend { x.goNext x.next with hold := none } .issue
@[simp] theorem Ctx.passed_lss0 (x : Ctx) : x.passed.lss0 = x.lss0 :=
  Ctx.endCycle_lss0 { x.goNext x.next with hold := none } .issue
@[simp] theorem Ctx.passed_lss1 (x : Ctx) : x.passed.lss1 = x.lss1 :=
  Ctx.endCycle_lss1 { x.goNext x.next with hold := none } .issue
@[simp] theorem Ctx.passed_lss2 (x : Ctx) : x.passed.lss2 = x.lss2 :=
  Ctx.endCycle_lss2 { x.goNext x.next with hold := none } .issue
@[simp] theorem Ctx.passed_lss3 (x : Ctx) : x.passed.lss3 = x.lss3 :=
  Ctx.endCycle_lss3 { x.goNext x.next with hold := none } .issue
@[simp] theorem Ctx.passed_hnd (x : Ctx) : x.passed.hnd = x.hnd :=
  Ctx.endCycle_hnd { x.goNext x.next with hold := none } .issue
@[simp] theorem Ctx.passed_yreq (x : Ctx) : x.passed.yreq = x.yreq :=
  Ctx.endCycle_yreq { x.goNext x.next with hold := none } .issue
@[simp] theorem Ctx.passed_ord (x : Ctx) : x.passed.ord = x.ord :=
  Ctx.endCycle_ord { x.goNext x.next with hold := none } .issue
@[simp] theorem Ctx.passed_dgen (x : Ctx) : x.passed.dgen = x.dgen :=
  Ctx.endCycle_dgen { x.goNext x.next with hold := none } .issue
@[simp] theorem Ctx.passed_spd (x : Ctx) : x.passed.spd = x.spd :=
  Ctx.endCycle_spd { x.goNext x.next with hold := none } .issue
@[simp] theorem Ctx.passed_tvec (x : Ctx) : x.passed.tvec = x.tvec :=
  Ctx.endCycle_tvec { x.goNext x.next with hold := none } .issue
@[simp] theorem Ctx.passed_tcode (x : Ctx) : x.passed.tcode = x.tcode :=
  Ctx.endCycle_tcode { x.goNext x.next with hold := none } .issue
@[simp] theorem Ctx.passed_slsd (x : Ctx) : x.passed.slsd = x.slsd :=
  Ctx.endCycle_slsd { x.goNext x.next with hold := none } .issue
@[simp] theorem Ctx.passed_tpc (x : Ctx) : x.passed.tpc = x.tpc :=
  Ctx.endCycle_tpc { x.goNext x.next with hold := none } .issue
@[simp] theorem Ctx.passed_tval (x : Ctx) : x.passed.tval = x.tval :=
  Ctx.endCycle_tval { x.goNext x.next with hold := none } .issue
@[simp] theorem Ctx.passed_modefp (x : Ctx) : x.passed.modefp = x.modefp :=
  Ctx.endCycle_modefp { x.goNext x.next with hold := none } .issue
@[simp] theorem Ctx.passed_spillBase (x : Ctx) : x.passed.spillBase = x.spillBase :=
  Ctx.endCycle_spillBase { x.goNext x.next with hold := none } .issue
@[simp] theorem Ctx.passed_spillLim (x : Ctx) : x.passed.spillLim = x.spillLim :=
  Ctx.endCycle_spillLim { x.goNext x.next with hold := none } .issue
@[simp] theorem Ctx.passed_ovfPtr (x : Ctx) : x.passed.ovfPtr = x.ovfPtr :=
  Ctx.endCycle_ovfPtr { x.goNext x.next with hold := none } .issue
@[simp] theorem Ctx.passed_task (x : Ctx) : x.passed.task = x.task :=
  Ctx.endCycle_task { x.goNext x.next with hold := none } .issue
@[simp] theorem Ctx.passed_inst (x : Ctx) : x.passed.inst = x.inst :=
  Ctx.endCycle_inst { x.goNext x.next with hold := none } .issue
@[simp] theorem Ctx.passed_tenant (x : Ctx) : x.passed.tenant = x.tenant :=
  Ctx.endCycle_tenant { x.goNext x.next with hold := none } .issue
@[simp] theorem Ctx.passed_pid (x : Ctx) : x.passed.pid = x.pid :=
  Ctx.endCycle_pid { x.goNext x.next with hold := none } .issue
@[simp] theorem Ctx.passed_ridxPan (x : Ctx) : x.passed.ridxPan = x.ridxPan :=
  Ctx.endCycle_ridxPan { x.goNext x.next with hold := none } .issue
@[simp] theorem Ctx.passed_ridxField (x : Ctx) : x.passed.ridxField = x.ridxField :=
  Ctx.endCycle_ridxField { x.goNext x.next with hold := none } .issue
@[simp] theorem Ctx.passed_ridxDie (x : Ctx) : x.passed.ridxDie = x.ridxDie :=
  Ctx.endCycle_ridxDie { x.goNext x.next with hold := none } .issue
@[simp] theorem Ctx.passed_grace (x : Ctx) : x.passed.grace = x.grace :=
  Ctx.endCycle_grace { x.goNext x.next with hold := none } .issue
@[simp] theorem Ctx.passed_kill (x : Ctx) : x.passed.kill = x.kill :=
  Ctx.endCycle_kill { x.goNext x.next with hold := none } .issue
@[simp] theorem Ctx.passed_prio (x : Ctx) : x.passed.prio = x.prio :=
  Ctx.endCycle_prio { x.goNext x.next with hold := none } .issue
@[simp] theorem Ctx.passed_slots (x : Ctx) : x.passed.slots = x.slots :=
  Ctx.endCycle_slots { x.goNext x.next with hold := none } .issue
@[simp] theorem Ctx.passed_recIdx (x : Ctx) : x.passed.recIdx = x.recIdx :=
  Ctx.endCycle_recIdx { x.goNext x.next with hold := none } .issue
@[simp] theorem Ctx.passed_pans (x : Ctx) : x.passed.pans = x.pans :=
  Ctx.endCycle_pans { x.goNext x.next with hold := none } .issue
@[simp] theorem Ctx.passed_fields (x : Ctx) : x.passed.fields = x.fields :=
  Ctx.endCycle_fields { x.goNext x.next with hold := none } .issue
@[simp] theorem Ctx.passed_dies (x : Ctx) : x.passed.dies = x.dies :=
  Ctx.endCycle_dies { x.goNext x.next with hold := none } .issue
@[simp] theorem Ctx.passed_ext (x : Ctx) : x.passed.ext = x.ext :=
  Ctx.endCycle_ext { x.goNext x.next with hold := none } .issue
@[simp] theorem Ctx.passed_map (x : Ctx) : x.passed.map = x.map :=
  Ctx.endCycle_map { x.goNext x.next with hold := none } .issue
@[simp] theorem Ctx.passed_textBase (x : Ctx) : x.passed.textBase = x.textBase :=
  Ctx.endCycle_textBase { x.goNext x.next with hold := none } .issue
@[simp] theorem Ctx.passed_textLines (x : Ctx) : x.passed.textLines = x.textLines :=
  Ctx.endCycle_textLines { x.goNext x.next with hold := none } .issue
@[simp] theorem Ctx.passed_store (x : Ctx) : x.passed.store = x.store :=
  Ctx.endCycle_store { x.goNext x.next with hold := none } .issue
@[simp] theorem Ctx.passed_storeGen (x : Ctx) : x.passed.storeGen = x.storeGen :=
  Ctx.endCycle_storeGen { x.goNext x.next with hold := none } .issue
@[simp] theorem Ctx.passed_text (x : Ctx) : x.passed.text = x.text :=
  Ctx.endCycle_text { x.goNext x.next with hold := none } .issue
@[simp] theorem Ctx.passed_dict (x : Ctx) : x.passed.dict = x.dict :=
  Ctx.endCycle_dict { x.goNext x.next with hold := none } .issue
@[simp] theorem Ctx.passed_dictAt (x : Ctx) : x.passed.dictAt = x.dictAt :=
  Ctx.endCycle_dictAt { x.goNext x.next with hold := none } .issue
@[simp] theorem Ctx.passed_loadFault (x : Ctx) : x.passed.loadFault = x.loadFault :=
  Ctx.endCycle_loadFault { x.goNext x.next with hold := none } .issue
@[simp] theorem Ctx.passed_bubble (x : Ctx) : x.passed.bubble = x.bubble :=
  Ctx.endCycle_bubble { x.goNext x.next with hold := none } .issue
@[simp] theorem Ctx.passed_body (x : Ctx) : x.passed.body = x.body :=
  Ctx.endCycle_body { x.goNext x.next with hold := none } .issue
@[simp] theorem Ctx.passed_readyAt (x : Ctx) : x.passed.readyAt = x.readyAt :=
  Ctx.endCycle_readyAt { x.goNext x.next with hold := none } .issue
@[simp] theorem Ctx.passed_startAt (x : Ctx) : x.passed.startAt = x.startAt :=
  Ctx.endCycle_startAt { x.goNext x.next with hold := none } .issue
@[simp] theorem Ctx.passed_tb (x : Ctx) : x.passed.tb = x.tb :=
  Ctx.endCycle_tb { x.goNext x.next with hold := none } .issue
@[simp] theorem Ctx.passed_mark (x : Ctx) : x.passed.mark = x.mark :=
  Ctx.endCycle_mark { x.goNext x.next with hold := none } .issue
@[simp] theorem Ctx.passed_markStall (x : Ctx) : x.passed.markStall = x.markStall :=
  Ctx.endCycle_markStall { x.goNext x.next with hold := none } .issue
@[simp] theorem Ctx.passed_markDone (x : Ctx) : x.passed.markDone = x.markDone :=
  Ctx.endCycle_markDone { x.goNext x.next with hold := none } .issue
@[simp] theorem Ctx.passed_heldAll (x : Ctx) : x.passed.heldAll = x.heldAll :=
  Ctx.endCycle_heldAll { x.goNext x.next with hold := none } .issue
@[simp] theorem Ctx.passed_heldStores (x : Ctx) : x.passed.heldStores = x.heldStores :=
  Ctx.endCycle_heldStores { x.goNext x.next with hold := none } .issue
@[simp] theorem Ctx.passed_haltReq (x : Ctx) : x.passed.haltReq = x.haltReq :=
  Ctx.endCycle_haltReq { x.goNext x.next with hold := none } .issue
@[simp] theorem Ctx.passed_dbg (x : Ctx) : x.passed.dbg = x.dbg :=
  Ctx.endCycle_dbg { x.goNext x.next with hold := none } .issue
@[simp] theorem Ctx.passed_ckpt (x : Ctx) : x.passed.ckpt = x.ckpt :=
  Ctx.endCycle_ckpt { x.goNext x.next with hold := none } .issue
@[simp] theorem Ctx.passed_phase (x : Ctx) : x.passed.phase = x.phase :=
  Ctx.endCycle_phase { x.goNext x.next with hold := none } .issue
@[simp] theorem Ctx.passed_occ (x : Ctx) : x.passed.occ = x.occ :=
  Ctx.endCycle_occ { x.goNext x.next with hold := none } .issue
@[simp] theorem Ctx.passed_phases (x : Ctx) : x.passed.phases = x.phases :=
  Ctx.endCycle_phases { x.goNext x.next with hold := none } .issue
@[simp] theorem Ctx.passed_occRows (x : Ctx) : x.passed.occRows = x.occRows :=
  Ctx.endCycle_occRows { x.goNext x.next with hold := none } .issue
@[simp] theorem Ctx.passed_exitCode (x : Ctx) : x.passed.exitCode = x.exitCode :=
  Ctx.endCycle_exitCode { x.goNext x.next with hold := none } .issue
@[simp] theorem Ctx.passed_haltCount (x : Ctx) : x.passed.haltCount = x.haltCount :=
  Ctx.endCycle_haltCount { x.goNext x.next with hold := none } .issue
@[simp] theorem Ctx.passed_tauH (x : Ctx) : x.passed.tauH = x.tauH :=
  Ctx.endCycle_tauH { x.goNext x.next with hold := none } .issue
@[simp] theorem Ctx.passed_rowMode (x : Ctx) : x.passed.rowMode = x.rowMode :=
  Ctx.endCycle_rowMode { x.goNext x.next with hold := none } .issue
@[simp] theorem Ctx.passed_rowAt (x : Ctx) : x.passed.rowAt = x.rowAt :=
  Ctx.endCycle_rowAt { x.goNext x.next with hold := none } .issue
@[simp] theorem Ctx.passed_pc (x : Ctx) : x.passed.pc = (fallThrough (BitVec.ofNat 56 x.next) x.ls).1 :=
  Ctx.endCycle_pc { x.goNext x.next with hold := none } .issue
@[simp] theorem Ctx.passed_ls (x : Ctx) : x.passed.ls = (fallThrough (BitVec.ofNat 56 x.next) x.ls).2 :=
  Ctx.endCycle_ls { x.goNext x.next with hold := none } .issue
@[simp] theorem Ctx.passed_hold (x : Ctx) : x.passed.hold = none :=
  Ctx.endCycle_hold { x.goNext x.next with hold := none } .issue

/-! ### The cycle count, and a context cycle in which nothing is due -/

theorem Ctx.noteCorrupt_cyc (x : Ctx) (p : Option Nat) : (x.noteCorrupt p).cyc = x.cyc := by
  unfold Ctx.noteCorrupt
  split
  · split <;> rfl
  · rfl
theorem Ctx.land_cyc (x : Ctx) (f : Flight) : (x.land f).cyc = x.cyc := by
  unfold Ctx.land Ctx.setReg Ctx.setLanding
  cases f.dst <;> simp only [Ctx.noteCorrupt_cyc] <;> (try split) <;> rfl
theorem Ctx.foldl_land_cyc (fs : List Flight) (x : Ctx) : (fs.foldl Ctx.land x).cyc = x.cyc := by
  induction fs generalizing x with
  | nil => rfl
  | cons f fs ih => exact (ih _).trans (Ctx.land_cyc x f)
theorem Ctx.landReplay_cyc (x : Ctx) (c : Nat) (y : Replay) : (Ctx.landReplay c x y).cyc = x.cyc := by
  unfold Ctx.landReplay Ctx.setReg
  split
  · rw [Ctx.noteCorrupt_cyc]; split <;> rfl
  · rfl
theorem Ctx.foldl_landReplay_cyc (c : Nat) (ys : List Replay) (x : Ctx) : (ys.foldl (Ctx.landReplay c) x).cyc = x.cyc := by
  induction ys generalizing x with
  | nil => rfl
  | cons y ys ih => exact (ih _).trans (Ctx.landReplay_cyc x c y)
theorem Ctx.landReplays_cyc (x : Ctx) (c : Nat) : (x.landReplays c).cyc = x.cyc := Ctx.foldl_landReplay_cyc c x.replayOrder x
@[simp] theorem Ctx.endCycle_cyc (x : Ctx) (k : Spent) : (x.endCycle k).cyc = x.cyc + 1 := by
  rw [Ctx.endCycle_eq, Ctx.landDue_eq]
  refine (Ctx.foldl_land_cyc _ _).trans ?_
  rw [Ctx.landReplays_cyc]
  have hs : ({ x with cyc := x.cyc + 1 } : Ctx).strike.cyc = x.cyc + 1 := by unfold Ctx.strike; split <;> rfl
  unfold Ctx.ticked Ctx.count
  split
  · exact hs
  · cases k <;> exact hs
@[simp] theorem Ctx.passed_cyc (x : Ctx) : x.passed.cyc = x.cyc + 1 := Ctx.endCycle_cyc _ _

theorem Ctx.landDue_none (x : Ctx) (c : Nat) (h : ∀ f ∈ x.flight, c < f.due) : x.landDue c = x := by
  have h1 : (x.flight.filter fun f => decide (f.due ≤ c)) = [] :=
    List.filter_eq_nil_iff.mpr fun f hf => by have := h f hf; simp; omega
  have h2 : (x.flight.filter fun f => decide (c < f.due)) = x.flight :=
    List.filter_eq_self.mpr fun f hf => by simpa using h f hf
  rw [Ctx.landDue_eq, h1, h2]; rfl

theorem Replay.isDue_none (c : Nat) (y : Replay) (h : y.v = true → ∀ d, y.due = some d → c < d) : y.isDue c = false := by
  unfold Replay.isDue
  cases hd : y.due with
  | none => rfl
  | some d =>
    cases hv : y.v with
    | false => rfl
    | true => have := h hv d hd; simp; omega
theorem Replay.settle_none (c : Nat) (y : Replay) (h : y.isDue c = false) : y.settle c = y := if_neg (by rw [h]; exact Bool.false_ne_true)

theorem Ctx.insertReplay_mem (y z : Replay) (l : List Replay) (h : z ∈ insertReplay y l) : z = y ∨ z ∈ l := by
  induction l with
  | nil => simpa [insertReplay] using h
  | cons a l ih =>
    unfold insertReplay at h
    split at h
    · simpa using h
    · rcases List.mem_cons.mp h with h | h
      · exact .inr (List.mem_cons.mpr (.inl h))
      · exact (ih h).imp id fun h => List.mem_cons.mpr (.inr h)
theorem Ctx.replayOrder_mem (x : Ctx) (z : Replay) (h : z ∈ x.replayOrder) : z ∈ x.replays ++ x.loose := by
  have key : ∀ (ys l : List Replay), z ∈ ys.foldl (fun l y => insertReplay y l) l → z ∈ ys ∨ z ∈ l := by
    intro ys
    induction ys with
    | nil => exact fun l h => .inr h
    | cons y ys ih =>
      intro l h
      rcases ih _ h with h | h
      · exact .inl (List.mem_cons.mpr (.inr h))
      · rcases Ctx.insertReplay_mem y z l h with h | h
        · exact .inl (List.mem_cons.mpr (.inl h))
        · exact .inr h
  exact (key (x.replays ++ x.loose) [] h).resolve_right List.not_mem_nil
theorem Ctx.foldl_landReplay_none (c : Nat) (ys : List Replay) (x : Ctx) (h : ∀ y ∈ ys, y.isDue c = false) :
    ys.foldl (Ctx.landReplay c) x = x := by
  induction ys with
  | nil => rfl
  | cons y ys ih =>
    rw [List.foldl_cons, show Ctx.landReplay c x y = x from if_neg (by rw [h y (by simp)]; exact Bool.false_ne_true)]
    exact ih fun z hz => h z (by simp [hz])

theorem Ctx.landReplays_none (x : Ctx) (c : Nat) (h : ∀ y ∈ x.replays ++ x.loose, y.v = true → ∀ d, y.due = some d → c < d) :
    x.landReplays c = x := by
  have hd : ∀ y ∈ x.replays ++ x.loose, y.isDue c = false := fun y hy => Replay.isDue_none c y (h y hy)
  have hs : ∀ y ∈ x.replays, y.settle c = y := fun y hy => Replay.settle_none c y (hd y (List.mem_append_left _ hy))
  have hl : (x.loose.filter fun y => !y.isDue c) = x.loose :=
    List.filter_eq_self.mpr fun y hy => by rw [hd y (List.mem_append_right _ hy)]; rfl
  unfold Ctx.landReplays
  rw [Ctx.foldl_landReplay_none c x.replayOrder x fun y hy => hd y (x.replayOrder_mem y hy), hs x.y0 (by simp [Ctx.replays]),
    hs x.y1 (by simp [Ctx.replays]), hs x.y2 (by simp [Ctx.replays]), hs x.y3 (by simp [Ctx.replays]), hl]

/-- When nothing is due and occupancy is not counted, a context cycle only counts. -/
theorem Ctx.endCycle_quiet (x : Ctx) (k : Spent) (hf : ∀ f ∈ x.flight, x.cyc + 1 < f.due)
    (hy : ∀ y ∈ x.replays ++ x.loose, y.v = true → ∀ d, y.due = some d → x.cyc + 1 < d) (hn : x.struck = none) (ho : x.occ = 0) :
    x.endCycle k = { x with cyc := x.cyc + 1 } := by
  have hs : ({ x with cyc := x.cyc + 1 } : Ctx).strike = { x with cyc := x.cyc + 1 } := by
    unfold Ctx.strike; simp only [hn]
  have ht : x.ticked k = { x with cyc := x.cyc + 1 } := by unfold Ctx.ticked; rw [hs]; exact if_pos ho
  rw [Ctx.endCycle_eq, ht]
  exact (congrArg (fun z => Ctx.landDue z (x.cyc + 1)) (Ctx.landReplays_none { x with cyc := x.cyc + 1 } (x.cyc + 1) hy)).trans
    (Ctx.landDue_none { x with cyc := x.cyc + 1 } (x.cyc + 1) hf)

end Sys2Proof.Machine
end

