-- ==== Sys2Proof/Laws/Decode.lean ====
section
/-! SUPPORT. A word's fields read back what the word was made of (R59), and the codes of the operand kinds are inverses of their readers
(R61, R62). -/

namespace Sys2Proof

/-! ### Parts of a concatenation -/

theorem extract_high {n m : Nat} (x : BitVec n) (y : BitVec m) (k w : Nat) (h : m ≤ k) :
    (x ++ y).extractLsb' k w = x.extractLsb' (k - m) w := by
  apply BitVec.eq_of_getLsbD_eq
  intro i hi
  simp only [BitVec.getLsbD_extractLsb', BitVec.getLsbD_append, hi, decide_true, Bool.true_and]
  rw [if_neg (by omega)]
  congr 1; omega

theorem extract_low {n m : Nat} (x : BitVec n) (y : BitVec m) (k w : Nat) (h : k + w ≤ m) :
    (x ++ y).extractLsb' k w = y.extractLsb' k w := by
  apply BitVec.eq_of_getLsbD_eq
  intro i hi
  simp only [BitVec.getLsbD_extractLsb', BitVec.getLsbD_append, hi, decide_true, Bool.true_and]
  rw [if_pos (by omega)]

theorem extract_all {n : Nat} (x : BitVec n) : x.extractLsb' 0 n = x := by
  apply BitVec.eq_of_getLsbD_eq
  intro i hi
  simp [hi]

theorem bit_high {n m : Nat} (x : BitVec n) (y : BitVec m) (k : Nat) (h : m ≤ k) : (x ++ y).getLsbD k = x.getLsbD (k - m) := by
  rw [BitVec.getLsbD_append, if_neg (by omega)]
theorem bit_low {n m : Nat} (x : BitVec n) (y : BitVec m) (k : Nat) (h : k < m) : (x ++ y).getLsbD k = y.getLsbD k := by
  rw [BitVec.getLsbD_append, if_pos h]

/-! ### Fields of the formats -/

theorem bit_ofBool (b : Bool) : (BitVec.ofBool b).getLsbD 0 = b := by cases b <;> rfl

theorem op_wR (op mod rd ra rb rc imm) : (wR op mod rd ra rb rc imm).extractLsb' 88 8 = op :=
  (extract_high _ imm 88 8 (by decide)).trans <|
    (extract_high _ rc 24 8 (by decide)).trans <|
    (extract_high _ rb 19 8 (by decide)).trans <|
    (extract_high _ ra 14 8 (by decide)).trans <|
    (extract_high _ rd 9 8 (by decide)).trans <|
    (extract_high _ mod 4 8 (by decide)).trans <|
    (extract_all op)
theorem op_wM (op mod d base g ln sp off) : (wM op mod d base g ln sp off).extractLsb' 88 8 = op :=
  (extract_high _ off 88 8 (by decide)).trans <|
    (extract_high _ (0 : BitVec 2) 24 8 (by decide)).trans <|
    (extract_high _ sp 22 8 (by decide)).trans <|
    (extract_high _ ln 19 8 (by decide)).trans <|
    (extract_high _ g 16 8 (by decide)).trans <|
    (extract_high _ base 14 8 (by decide)).trans <|
    (extract_high _ d 9 8 (by decide)).trans <|
    (extract_high _ mod 4 8 (by decide)).trans <|
    (extract_all op)
theorem op_wC (op mod m id p) : (wC op mod m id p).extractLsb' 88 8 = op :=
  (extract_high _ p 88 8 (by decide)).trans <|
    (extract_high _ id 24 8 (by decide)).trans <|
    (extract_high _ m 12 8 (by decide)).trans <|
    (extract_high _ mod 4 8 (by decide)).trans <|
    (extract_all op)
theorem op_wG (op rel mod ha hb rc st p) : (wG op rel mod ha hb rc st p).extractLsb' 88 8 = op :=
  (extract_high _ p 88 8 (by decide)).trans <|
    (extract_high _ st 48 8 (by decide)).trans <|
    (extract_high _ (0 : BitVec 7) 24 8 (by decide)).trans <|
    (extract_high _ rc 17 8 (by decide)).trans <|
    (extract_high _ hb 12 8 (by decide)).trans <|
    (extract_high _ ha 8 8 (by decide)).trans <|
    (extract_high _ mod 4 8 (by decide)).trans <|
    (extract_high _ (BitVec.ofBool rel) 1 8 (by decide)).trans <|
    (extract_all op)

theorem fR_wR (op mod rd ra rb rc imm) : fR (wR op mod rd ra rb rc imm) = ⟨mod, rd, ra, rb, rc, imm⟩ := by
  have h1 : (wR op mod rd ra rb rc imm).extractLsb' 84 4 = mod :=
    (extract_high _ imm 84 4 (by decide)).trans <|
    (extract_high _ rc 20 4 (by decide)).trans <|
    (extract_high _ rb 15 4 (by decide)).trans <|
    (extract_high _ ra 10 4 (by decide)).trans <|
    (extract_high _ rd 5 4 (by decide)).trans <|
    (extract_low _ mod 0 4 (by decide)).trans <|
    (extract_all mod)
  have h2 : (wR op mod rd ra rb rc imm).extractLsb' 79 5 = rd :=
    (extract_high _ imm 79 5 (by decide)).trans <|
    (extract_high _ rc 15 5 (by decide)).trans <|
    (extract_high _ rb 10 5 (by decide)).trans <|
    (extract_high _ ra 5 5 (by decide)).trans <|
    (extract_low _ rd 0 5 (by decide)).trans <|
    (extract_all rd)
  have h3 : (wR op mod rd ra rb rc imm).extractLsb' 74 5 = ra :=
    (extract_high _ imm 74 5 (by decide)).trans <|
    (extract_high _ rc 10 5 (by decide)).trans <|
    (extract_high _ rb 5 5 (by decide)).trans <|
    (extract_low _ ra 0 5 (by decide)).trans <|
    (extract_all ra)
  have h4 : (wR op mod rd ra rb rc imm).extractLsb' 69 5 = rb :=
    (extract_high _ imm 69 5 (by decide)).trans <|
    (extract_high _ rc 5 5 (by decide)).trans <|
    (extract_low _ rb 0 5 (by decide)).trans <|
    (extract_all rb)
  have h5 : (wR op mod rd ra rb rc imm).extractLsb' 64 5 = rc :=
    (extract_high _ imm 64 5 (by decide)).trans <|
    (extract_low _ rc 0 5 (by decide)).trans <|
    (extract_all rc)
  have h6 : (wR op mod rd ra rb rc imm).extractLsb' 0 64 = imm :=
    (extract_low _ imm 0 64 (by decide)).trans <|
    (extract_all imm)
  unfold fR; rw [h1, h2, h3, h4, h5, h6]
theorem fM_wM (op mod d base g ln sp off) : fM (wM op mod d base g ln sp off) = ⟨mod, d, base, g, ln, sp, 0, off⟩ := by
  have h1 : (wM op mod d base g ln sp off).extractLsb' 84 4 = mod :=
    (extract_high _ off 84 4 (by decide)).trans <|
    (extract_high _ (0 : BitVec 2) 20 4 (by decide)).trans <|
    (extract_high _ sp 18 4 (by decide)).trans <|
    (extract_high _ ln 15 4 (by decide)).trans <|
    (extract_high _ g 12 4 (by decide)).trans <|
    (extract_high _ base 10 4 (by decide)).trans <|
    (extract_high _ d 5 4 (by decide)).trans <|
    (extract_low _ mod 0 4 (by decide)).trans <|
    (extract_all mod)
  have h2 : (wM op mod d base g ln sp off).extractLsb' 79 5 = d :=
    (extract_high _ off 79 5 (by decide)).trans <|
    (extract_high _ (0 : BitVec 2) 15 5 (by decide)).trans <|
    (extract_high _ sp 13 5 (by decide)).trans <|
    (extract_high _ ln 10 5 (by decide)).trans <|
    (extract_high _ g 7 5 (by decide)).trans <|
    (extract_high _ base 5 5 (by decide)).trans <|
    (extract_low _ d 0 5 (by decide)).trans <|
    (extract_all d)
  have h3 : (wM op mod d base g ln sp off).extractLsb' 74 5 = base :=
    (extract_high _ off 74 5 (by decide)).trans <|
    (extract_high _ (0 : BitVec 2) 10 5 (by decide)).trans <|
    (extract_high _ sp 8 5 (by decide)).trans <|
    (extract_high _ ln 5 5 (by decide)).trans <|
    (extract_high _ g 2 5 (by decide)).trans <|
    (extract_low _ base 0 5 (by decide)).trans <|
    (extract_all base)
  have h4 : (wM op mod d base g ln sp off).extractLsb' 72 2 = g :=
    (extract_high _ off 72 2 (by decide)).trans <|
    (extract_high _ (0 : BitVec 2) 8 2 (by decide)).trans <|
    (extract_high _ sp 6 2 (by decide)).trans <|
    (extract_high _ ln 3 2 (by decide)).trans <|
    (extract_low _ g 0 2 (by decide)).trans <|
    (extract_all g)
  have h5 : (wM op mod d base g ln sp off).extractLsb' 69 3 = ln :=
    (extract_high _ off 69 3 (by decide)).trans <|
    (extract_high _ (0 : BitVec 2) 5 3 (by decide)).trans <|
    (extract_high _ sp 3 3 (by decide)).trans <|
    (extract_low _ ln 0 3 (by decide)).trans <|
    (extract_all ln)
  have h6 : (wM op mod d base g ln sp off).extractLsb' 66 3 = sp :=
    (extract_high _ off 66 3 (by decide)).trans <|
    (extract_high _ (0 : BitVec 2) 2 3 (by decide)).trans <|
    (extract_low _ sp 0 3 (by decide)).trans <|
    (extract_all sp)
  have h7 : (wM op mod d base g ln sp off).extractLsb' 64 2 = (0 : BitVec 2) :=
    (extract_high _ off 64 2 (by decide)).trans <|
    (extract_low _ (0 : BitVec 2) 0 2 (by decide)).trans <|
    (extract_all (0 : BitVec 2))
  have h8 : (wM op mod d base g ln sp off).extractLsb' 0 64 = off :=
    (extract_low _ off 0 64 (by decide)).trans <|
    (extract_all off)
  unfold fM; rw [h1, h2, h3, h4, h5, h6, h7, h8]
theorem fC_wC (op mod m id p) : fC (wC op mod m id p) = ⟨mod, m, id, p⟩ := by
  have h1 : (wC op mod m id p).extractLsb' 84 4 = mod :=
    (extract_high _ p 84 4 (by decide)).trans <|
    (extract_high _ id 20 4 (by decide)).trans <|
    (extract_high _ m 8 4 (by decide)).trans <|
    (extract_low _ mod 0 4 (by decide)).trans <|
    (extract_all mod)
  have h2 : (wC op mod m id p).extractLsb' 76 8 = m :=
    (extract_high _ p 76 8 (by decide)).trans <|
    (extract_high _ id 12 8 (by decide)).trans <|
    (extract_low _ m 0 8 (by decide)).trans <|
    (extract_all m)
  have h3 : (wC op mod m id p).extractLsb' 64 12 = id :=
    (extract_high _ p 64 12 (by decide)).trans <|
    (extract_low _ id 0 12 (by decide)).trans <|
    (extract_all id)
  have h4 : (wC op mod m id p).extractLsb' 0 64 = p :=
    (extract_low _ p 0 64 (by decide)).trans <|
    (extract_all p)
  unfold fC; rw [h1, h2, h3, h4]
theorem fG_wG (op rel mod ha hb rc st p) : fG (wG op rel mod ha hb rc st p) = ⟨rel, mod, ha, hb, rc, 0, st, p⟩ := by
  have h1 : (wG op rel mod ha hb rc st p).getLsbD 87 = rel :=
    (bit_high _ p 87 (by decide)).trans <|
    (bit_high _ st 47 (by decide)).trans <|
    (bit_high _ (0 : BitVec 7) 23 (by decide)).trans <|
    (bit_high _ rc 16 (by decide)).trans <|
    (bit_high _ hb 11 (by decide)).trans <|
    (bit_high _ ha 7 (by decide)).trans <|
    (bit_high _ mod 3 (by decide)).trans <|
    (bit_low _ (BitVec.ofBool rel) 0 (by decide)).trans <|
    (bit_ofBool _)
  have h2 : (wG op rel mod ha hb rc st p).extractLsb' 84 3 = mod :=
    (extract_high _ p 84 3 (by decide)).trans <|
    (extract_high _ st 44 3 (by decide)).trans <|
    (extract_high _ (0 : BitVec 7) 20 3 (by decide)).trans <|
    (extract_high _ rc 13 3 (by decide)).trans <|
    (extract_high _ hb 8 3 (by decide)).trans <|
    (extract_high _ ha 4 3 (by decide)).trans <|
    (extract_low _ mod 0 3 (by decide)).trans <|
    (extract_all mod)
  have h3 : (wG op rel mod ha hb rc st p).extractLsb' 80 4 = ha :=
    (extract_high _ p 80 4 (by decide)).trans <|
    (extract_high _ st 40 4 (by decide)).trans <|
    (extract_high _ (0 : BitVec 7) 16 4 (by decide)).trans <|
    (extract_high _ rc 9 4 (by decide)).trans <|
    (extract_high _ hb 4 4 (by decide)).trans <|
    (extract_low _ ha 0 4 (by decide)).trans <|
    (extract_all ha)
  have h4 : (wG op rel mod ha hb rc st p).extractLsb' 76 4 = hb :=
    (extract_high _ p 76 4 (by decide)).trans <|
    (extract_high _ st 36 4 (by decide)).trans <|
    (extract_high _ (0 : BitVec 7) 12 4 (by decide)).trans <|
    (extract_high _ rc 5 4 (by decide)).trans <|
    (extract_low _ hb 0 4 (by decide)).trans <|
    (extract_all hb)
  have h5 : (wG op rel mod ha hb rc st p).extractLsb' 71 5 = rc :=
    (extract_high _ p 71 5 (by decide)).trans <|
    (extract_high _ st 31 5 (by decide)).trans <|
    (extract_high _ (0 : BitVec 7) 7 5 (by decide)).trans <|
    (extract_low _ rc 0 5 (by decide)).trans <|
    (extract_all rc)
  have h6 : (wG op rel mod ha hb rc st p).extractLsb' 64 7 = (0 : BitVec 7) :=
    (extract_high _ p 64 7 (by decide)).trans <|
    (extract_high _ st 24 7 (by decide)).trans <|
    (extract_low _ (0 : BitVec 7) 0 7 (by decide)).trans <|
    (extract_all (0 : BitVec 7))
  have h7 : (wG op rel mod ha hb rc st p).extractLsb' 40 24 = st :=
    (extract_high _ p 40 24 (by decide)).trans <|
    (extract_low _ st 0 24 (by decide)).trans <|
    (extract_all st)
  have h8 : (wG op rel mod ha hb rc st p).extractLsb' 0 40 = p :=
    (extract_low _ p 0 40 (by decide)).trans <|
    (extract_all p)
  unfold fG; rw [h1, h2, h3, h4, h5, h6, h7, h8]
theorem fE_wRow (op mod d a b c dl) (i : Imm) : fE (wRow op mod d a b c dl i) = ⟨mod, d, a, b, c, dl, i, 0⟩ := by
  have h0 : (wRow op mod d a b c dl i).bits.extractLsb' 41 6 = d :=
    (extract_high _ (0 : BitVec 2) 41 6 (by decide)).trans <|
    (extract_high _ (BitVec.ofBool i.s) 39 6 (by decide)).trans <|
    (extract_high _ i.v 38 6 (by decide)).trans <|
    (extract_high _ dl 26 6 (by decide)).trans <|
    (extract_high _ c 21 6 (by decide)).trans <|
    (extract_high _ b 14 6 (by decide)).trans <|
    (extract_high _ a 7 6 (by decide)).trans <|
    (extract_all d)
  have h1 : (wRow op mod d a b c dl i).bits.extractLsb' 34 7 = a :=
    (extract_high _ (0 : BitVec 2) 34 7 (by decide)).trans <|
    (extract_high _ (BitVec.ofBool i.s) 32 7 (by decide)).trans <|
    (extract_high _ i.v 31 7 (by decide)).trans <|
    (extract_high _ dl 19 7 (by decide)).trans <|
    (extract_high _ c 14 7 (by decide)).trans <|
    (extract_high _ b 7 7 (by decide)).trans <|
    (extract_low _ a 0 7 (by decide)).trans <|
    (extract_all a)
  have h2 : (wRow op mod d a b c dl i).bits.extractLsb' 27 7 = b :=
    (extract_high _ (0 : BitVec 2) 27 7 (by decide)).trans <|
    (extract_high _ (BitVec.ofBool i.s) 25 7 (by decide)).trans <|
    (extract_high _ i.v 24 7 (by decide)).trans <|
    (extract_high _ dl 12 7 (by decide)).trans <|
    (extract_high _ c 7 7 (by decide)).trans <|
    (extract_low _ b 0 7 (by decide)).trans <|
    (extract_all b)
  have h3 : (wRow op mod d a b c dl i).bits.extractLsb' 20 7 = c :=
    (extract_high _ (0 : BitVec 2) 20 7 (by decide)).trans <|
    (extract_high _ (BitVec.ofBool i.s) 18 7 (by decide)).trans <|
    (extract_high _ i.v 17 7 (by decide)).trans <|
    (extract_high _ dl 5 7 (by decide)).trans <|
    (extract_low _ c 0 7 (by decide)).trans <|
    (extract_all c)
  have h4 : (wRow op mod d a b c dl i).bits.extractLsb' 15 5 = dl :=
    (extract_high _ (0 : BitVec 2) 15 5 (by decide)).trans <|
    (extract_high _ (BitVec.ofBool i.s) 13 5 (by decide)).trans <|
    (extract_high _ i.v 12 5 (by decide)).trans <|
    (extract_low _ dl 0 5 (by decide)).trans <|
    (extract_all dl)
  have h5 : (wRow op mod d a b c dl i).bits.extractLsb' 3 12 = i.v :=
    (extract_high _ (0 : BitVec 2) 3 12 (by decide)).trans <|
    (extract_high _ (BitVec.ofBool i.s) 1 12 (by decide)).trans <|
    (extract_low _ i.v 0 12 (by decide)).trans <|
    (extract_all i.v)
  have h6 : (wRow op mod d a b c dl i).bits.getLsbD 2 = i.s :=
    (bit_high _ (0 : BitVec 2) 2 (by decide)).trans <|
    (bit_low _ (BitVec.ofBool i.s) 0 (by decide)).trans <|
    (bit_ofBool _)
  have h7 : (wRow op mod d a b c dl i).bits.extractLsb' 0 2 = (0 : BitVec 2) :=
    (extract_low _ (0 : BitVec 2) 0 2 (by decide)).trans <|
    (extract_all (0 : BitVec 2))
  unfold fE; rw [h0, h1, h2, h3, h4, h5, h6, h7]; rfl

/-! ### Codes of the operand kinds -/

theorem dst_dstCode (d : Dst) (k : Dst → Dec) : dst (dstCode d) k = k d := by
  cases d with
  | e n =>
    have h1 : (dstCode (.e n)).extractLsb' 5 1 = 0 := (extract_high _ n 5 1 (by decide)).trans (extract_all _)
    have h2 : (dstCode (.e n)).extractLsb' 0 5 = n := (extract_low _ n 0 5 (by decide)).trans (extract_all _)
    unfold dst; rw [h1, h2]; rfl
  | lane n =>
    have h1 : (dstCode (.lane n)).extractLsb' 5 1 = 1 := (extract_high _ n 5 1 (by decide)).trans (by decide)
    have h2 : (dstCode (.lane n)).extractLsb' 3 3 = 4 := (extract_high _ n 3 3 (by decide)).trans (extract_all _)
    have h3 : (dstCode (.lane n)).extractLsb' 0 3 = n := (extract_low _ n 0 3 (by decide)).trans (extract_all _)
    unfold dst; rw [h1, h2, h3]; rfl
  | port p => cases p <;> rfl
  | none => rfl
theorem src_srcCode (a : Src) (k : Src → Dec) : src (srcCode a) k = k a := by
  cases a with
  | e n =>
    have h1 : (srcCode (.e n)).extractLsb' 5 2 = 0 := (extract_high _ n 5 2 (by decide)).trans (extract_all _)
    have h2 : (srcCode (.e n)).extractLsb' 0 5 = n := (extract_low _ n 0 5 (by decide)).trans (extract_all _)
    unfold src; rw [h1, h2]; rfl
  | lane n =>
    have h1 : (srcCode (.lane n)).extractLsb' 5 2 = 1 := (extract_high _ n 5 2 (by decide)).trans (by decide)
    have h2 : (srcCode (.lane n)).extractLsb' 3 4 = 4 := (extract_high _ n 3 4 (by decide)).trans (extract_all _)
    have h3 : (srcCode (.lane n)).extractLsb' 0 3 = n := (extract_low _ n 0 3 (by decide)).trans (extract_all _)
    unfold src; rw [h1, h2, h3]; rfl
  | port p => cases p <;> rfl
  | imm => rfl
  | zero => rfl
theorem fsrc_srcCode {a : Src} (h : noI a = true) (k : Src → Dec) : fsrc (srcCode a) k = k a := by
  unfold fsrc; rw [src_srcCode]; cases a <;> first | rfl | simp [noI] at h
theorem wsrc_srcCode {a : Src} (h : wide a = true) (k : Src → Dec) : wsrc (srcCode a) k = k a := by
  unfold wsrc; rw [src_srcCode]; cases a <;> first | rfl | simp [wide] at h
theorem srcCode_ne (a : Src) : srcCode a ≠ 0x7F := by
  cases a with
  | e n =>
    have h : (srcCode (.e n)).extractLsb' 5 2 = 0 := (extract_high _ n 5 2 (by decide)).trans (extract_all _)
    intro e; rw [e] at h; exact absurd h (by decide)
  | lane n =>
    have h : (srcCode (.lane n)).extractLsb' 3 4 = 4 := (extract_high _ n 3 4 (by decide)).trans (extract_all _)
    intro e; rw [e] at h; exact absurd h (by decide)
  | port p => cases p <;> decide
  | imm => decide
  | zero => decide
theorem lane_laneCode (t : BitVec 3) (k : BitVec 3 → Dec) : lane (laneCode t) k = k t := by
  have h1 : (laneCode t).extractLsb' 3 3 = 4 := (extract_high _ t 3 3 (by decide)).trans (extract_all _)
  have h2 : (laneCode t).extractLsb' 0 3 = t := (extract_low _ t 0 3 (by decide)).trans (extract_all _)
  unfold lane; rw [h1, h2]; rfl
theorem lspace_lspaceCode (x) (k) : lspace (lspaceCode x) k = k x := by cases x <;> rfl
theorem gspace_gspaceCode (x) (k) : gspace (gspaceCode x) k = k x := by cases x <;> rfl
theorem amoOp_amoCode (x) (k) : amoOp (amoCode x) k = k x := by cases x <;> rfl
theorem fenceForm_fenceCode (x) (k) : fenceForm (fenceCode x) k = k x := by cases x <;> rfl
theorem scope_scopeCode (x) (k) : scope (scopeCode x) k = k x := by cases x <;> rfl
theorem routePart_routeCode (x) (k) : routePart (routeCode x) k = k x := by cases x <;> rfl
theorem rmOf_rmCode (x) (k) : rmOf (rmCode x) k = k x := by cases x <;> rfl
theorem collKind_collKindCode (x) (k) : collKind (collKindCode x) k = k x := by cases x <;> rfl
theorem collOp_collOpCode (x) (k) : collOp (collOpCode x) k = k x := by cases x <;> rfl
theorem icond_icondCode (x) (k) : icond (icondCode x) k = k x := by cases x <;> rfl
theorem ffmt_ffmtCode (x) (k) : ffmt (ffmtCode x) k = k x := by cases x <;> rfl
theorem cvtFmt_cvtCode (x) (k) : cvtFmt (cvtCode x) k = k x := by cases x <;> rfl
theorem wid_widCode (x) (k) : wid (widCode x) k = k x := by cases x <;> rfl
theorem trdlForm_trdlCode (x) (k) : trdlForm (trdlCode x) k = k x := by cases x <;> rfl
theorem setqForm_setqCode (x) (k) : setqForm (setqCode x) k = k x := by cases x <;> rfl
theorem keyFmt_keyCode (x) (k) : keyFmt (keyCode x) k = k x := by cases x <;> rfl
theorem portOf_portCode (x) : portOf (portCode x) = x := by cases x <;> rfl
theorem fcondOf_fcondCode (x) : fcondOf (fcondCode x) = x := by cases x <;> rfl
theorem dirOf_dirCode (x) : dirOf (dirCode x) = some x := by cases x <;> rfl

end Sys2Proof
end

