-- ==== Sys2Proof/Laws/ErrLog.lean ====
section
/-! SUPPORT. What the CID of a partition says: it is whole where the partition is in use, and names it (R418). -/

namespace Sys2Proof.Machine

theorem cidOf_low (p : BitVec 8) : (cidOf p).extractLsb' 0 8 = p := by
  refine BitVec.eq_of_getLsbD_eq fun i hi => ?_
  rw [BitVec.getLsbD_extractLsb', cidOf, BitVec.getLsbD_append]
  simp [hi]

/-- The CID of a partition number is corrupt exactly where the partition is not in use, and its low bits are that number. -/
theorem cidOf_whole (s : State) (p : BitVec 8) (h : p.getLsbD 7 = false) :
    s.cidBad (cidOf p) = !(Kv.get {} s.parts (p.extractLsb' 0 7).toNat : Part).v ∧ (cidOf p).extractLsb' 0 7 = p.extractLsb' 0 7 := by
  have h7 : (cidOf p).getLsbD 7 = false := by
    rw [cidOf, BitVec.getLsbD_append]
    simpa using h
  have hi : (cidOf p).extractLsb' 8 8 = Config.cidCheck p := by
    refine BitVec.eq_of_getLsbD_eq fun i hi => ?_
    rw [BitVec.getLsbD_extractLsb', cidOf, BitVec.getLsbD_append]
    simp [hi]
  have lo : (cidOf p).extractLsb' 0 7 = p.extractLsb' 0 7 := by
    refine BitVec.eq_of_getLsbD_eq fun i hi => ?_
    rw [BitVec.getLsbD_extractLsb', BitVec.getLsbD_extractLsb', cidOf, BitVec.getLsbD_append]
    simp [show i < 8 by omega]
  refine ⟨?_, lo⟩
  rw [State.cidBad, h7, hi, cidOf_low, lo]
  simp

end Sys2Proof.Machine
end

