-- ==== Sys2Proof/Laws/State.lean ====
section
/-! SUPPORT. One lemma for each field of State under each of the named updates, so that no proof unfolds a record update. -/

namespace Sys2Proof.Machine

/-! ### State.setCtx -/

@[simp] theorem State.setCtx_cycle (s : State) (c : Nat) (x : Ctx) : (s.setCtx c x).cycle = s.cycle := rfl
@[simp] theorem State.setCtx_agenda (s : State) (c : Nat) (x : Ctx) : (s.setCtx c x).agenda = s.agenda := rfl
@[simp] theorem State.setCtx_inputs (s : State) (c : Nat) (x : Ctx) : (s.setCtx c x).inputs = s.inputs := rfl
@[simp] theorem State.setCtx_begun (s : State) (c : Nat) (x : Ctx) : (s.setCtx c x).begun = s.begun := rfl
@[simp] theorem State.setCtx_turn (s : State) (c : Nat) (x : Ctx) : (s.setCtx c x).turn = s.turn := rfl
@[simp] theorem State.setCtx_cur (s : State) (c : Nat) (x : Ctx) : (s.setCtx c x).cur = s.cur := rfl
@[simp] theorem State.setCtx_site (s : State) (c : Nat) (x : Ctx) : (s.setCtx c x).site = s.site := rfl
@[simp] theorem State.setCtx_bfaults (s : State) (c : Nat) (x : Ctx) : (s.setCtx c x).bfaults = s.bfaults := rfl
@[simp] theorem State.setCtx_advs (s : State) (c : Nat) (x : Ctx) : (s.setCtx c x).advs = s.advs := rfl
@[simp] theorem State.setCtx_nextId (s : State) (c : Nat) (x : Ctx) : (s.setCtx c x).nextId = s.nextId := rfl
@[simp] theorem State.setCtx_freeCtr (s : State) (c : Nat) (x : Ctx) : (s.setCtx c x).freeCtr = s.freeCtr := rfl
@[simp] theorem State.setCtx_latencies (s : State) (c : Nat) (x : Ctx) : (s.setCtx c x).latencies = s.latencies := rfl
@[simp] theorem State.setCtx_ctxs (s : State) (c : Nat) (x : Ctx) : (s.setCtx c x).ctxs = Kv.set {} s.ctxs c x := rfl
@[simp] theorem State.setCtx_mem (s : State) (c : Nat) (x : Ctx) : (s.setCtx c x).mem = s.mem := rfl
@[simp] theorem State.setCtx_poison (s : State) (c : Nat) (x : Ctx) : (s.setCtx c x).poison = s.poison := rfl
@[simp] theorem State.setCtx_stores (s : State) (c : Nat) (x : Ctx) : (s.setCtx c x).stores = s.stores := rfl
@[simp] theorem State.setCtx_fresh (s : State) (c : Nat) (x : Ctx) : (s.setCtx c x).fresh = s.fresh := rfl
@[simp] theorem State.setCtx_fieldTenant (s : State) (c : Nat) (x : Ctx) : (s.setCtx c x).fieldTenant = s.fieldTenant := rfl
@[simp] theorem State.setCtx_accs (s : State) (c : Nat) (x : Ctx) : (s.setCtx c x).accs = s.accs := rfl
@[simp] theorem State.setCtx_cmds (s : State) (c : Nat) (x : Ctx) : (s.setCtx c x).cmds = s.cmds := rfl
@[simp] theorem State.setCtx_holders (s : State) (c : Nat) (x : Ctx) : (s.setCtx c x).holders = s.holders := rfl
@[simp] theorem State.setCtx_active (s : State) (c : Nat) (x : Ctx) : (s.setCtx c x).active = s.active := rfl
@[simp] theorem State.setCtx_shadow (s : State) (c : Nat) (x : Ctx) : (s.setCtx c x).shadow = s.shadow := rfl
@[simp] theorem State.setCtx_runs (s : State) (c : Nat) (x : Ctx) : (s.setCtx c x).runs = s.runs := rfl
@[simp] theorem State.setCtx_kcnt (s : State) (c : Nat) (x : Ctx) : (s.setCtx c x).kcnt = s.kcnt := rfl
@[simp] theorem State.setCtx_elems (s : State) (c : Nat) (x : Ctx) : (s.setCtx c x).elems = s.elems := rfl
@[simp] theorem State.setCtx_nodeCtl (s : State) (c : Nat) (x : Ctx) : (s.setCtx c x).nodeCtl = s.nodeCtl := rfl
@[simp] theorem State.setCtx_concCtl (s : State) (c : Nat) (x : Ctx) : (s.setCtx c x).concCtl = s.concCtl := rfl
@[simp] theorem State.setCtx_tiles (s : State) (c : Nat) (x : Ctx) : (s.setCtx c x).tiles = s.tiles := rfl
@[simp] theorem State.setCtx_writes (s : State) (c : Nat) (x : Ctx) : (s.setCtx c x).writes = s.writes := rfl
@[simp] theorem State.setCtx_bq (s : State) (c : Nat) (x : Ctx) : (s.setCtx c x).bq = s.bq := rfl
@[simp] theorem State.setCtx_tables (s : State) (c : Nat) (x : Ctx) : (s.setCtx c x).tables = s.tables := rfl
@[simp] theorem State.setCtx_metas (s : State) (c : Nat) (x : Ctx) : (s.setCtx c x).metas = s.metas := rfl
@[simp] theorem State.setCtx_streams (s : State) (c : Nat) (x : Ctx) : (s.setCtx c x).streams = s.streams := rfl
@[simp] theorem State.setCtx_sluice (s : State) (c : Nat) (x : Ctx) : (s.setCtx c x).sluice = s.sluice := rfl
@[simp] theorem State.setCtx_domains (s : State) (c : Nat) (x : Ctx) : (s.setCtx c x).domains = s.domains := rfl
@[simp] theorem State.setCtx_sideband (s : State) (c : Nat) (x : Ctx) : (s.setCtx c x).sideband = s.sideband := rfl
@[simp] theorem State.setCtx_clocked (s : State) (c : Nat) (x : Ctx) : (s.setCtx c x).clocked = s.clocked := rfl
@[simp] theorem State.setCtx_uncal (s : State) (c : Nat) (x : Ctx) : (s.setCtx c x).uncal = s.uncal := rfl
@[simp] theorem State.setCtx_mirror (s : State) (c : Nat) (x : Ctx) : (s.setCtx c x).mirror = s.mirror := rfl
@[simp] theorem State.setCtx_bankControl (s : State) (c : Nat) (x : Ctx) : (s.setCtx c x).bankControl = s.bankControl := rfl
@[simp] theorem State.setCtx_lostDies (s : State) (c : Nat) (x : Ctx) : (s.setCtx c x).lostDies = s.lostDies := rfl
@[simp] theorem State.setCtx_staged (s : State) (c : Nat) (x : Ctx) : (s.setCtx c x).staged = s.staged := rfl
@[simp] theorem State.setCtx_shares (s : State) (c : Nat) (x : Ctx) : (s.setCtx c x).shares = s.shares := rfl
@[simp] theorem State.setCtx_fwTold (s : State) (c : Nat) (x : Ctx) : (s.setCtx c x).fwTold = s.fwTold := rfl
@[simp] theorem State.setCtx_portAt (s : State) (c : Nat) (x : Ctx) : (s.setCtx c x).portAt = s.portAt := rfl
@[simp] theorem State.setCtx_portIn (s : State) (c : Nat) (x : Ctx) : (s.setCtx c x).portIn = s.portIn := rfl
@[simp] theorem State.setCtx_unreached (s : State) (c : Nat) (x : Ctx) : (s.setCtx c x).unreached = s.unreached := rfl
@[simp] theorem State.setCtx_slotTab (s : State) (c : Nat) (x : Ctx) : (s.setCtx c x).slotTab = s.slotTab := rfl
@[simp] theorem State.setCtx_tasks (s : State) (c : Nat) (x : Ctx) : (s.setCtx c x).tasks = s.tasks := rfl
@[simp] theorem State.setCtx_slotEnds (s : State) (c : Nat) (x : Ctx) : (s.setCtx c x).slotEnds = s.slotEnds := rfl
@[simp] theorem State.setCtx_fieldBank (s : State) (c : Nat) (x : Ctx) : (s.setCtx c x).fieldBank = s.fieldBank := rfl
@[simp] theorem State.setCtx_parts (s : State) (c : Nat) (x : Ctx) : (s.setCtx c x).parts = s.parts := rfl
@[simp] theorem State.setCtx_remap (s : State) (c : Nat) (x : Ctx) : (s.setCtx c x).remap = s.remap := rfl
@[simp] theorem State.setCtx_tenantRoot (s : State) (c : Nat) (x : Ctx) : (s.setCtx c x).tenantRoot = s.tenantRoot := rfl
@[simp] theorem State.setCtx_ownDev (s : State) (c : Nat) (x : Ctx) : (s.setCtx c x).ownDev = s.ownDev := rfl
@[simp] theorem State.setCtx_directory (s : State) (c : Nat) (x : Ctx) : (s.setCtx c x).directory = s.directory := rfl
@[simp] theorem State.setCtx_images (s : State) (c : Nat) (x : Ctx) : (s.setCtx c x).images = s.images := rfl
@[simp] theorem State.setCtx_shadowBank (s : State) (c : Nat) (x : Ctx) : (s.setCtx c x).shadowBank = s.shadowBank := rfl
@[simp] theorem State.setCtx_home (s : State) (c : Nat) (x : Ctx) : (s.setCtx c x).home = s.home := rfl
@[simp] theorem State.setCtx_away (s : State) (c : Nat) (x : Ctx) : (s.setCtx c x).away = s.away := rfl
@[simp] theorem State.setCtx_tags (s : State) (c : Nat) (x : Ctx) : (s.setCtx c x).tags = s.tags := rfl
@[simp] theorem State.setCtx_scrub (s : State) (c : Nat) (x : Ctx) : (s.setCtx c x).scrub = s.scrub := rfl
@[simp] theorem State.setCtx_dirty (s : State) (c : Nat) (x : Ctx) : (s.setCtx c x).dirty = s.dirty := rfl
@[simp] theorem State.setCtx_lineBufs (s : State) (c : Nat) (x : Ctx) : (s.setCtx c x).lineBufs = s.lineBufs := rfl
@[simp] theorem State.setCtx_fadds (s : State) (c : Nat) (x : Ctx) : (s.setCtx c x).fadds = s.fadds := rfl
@[simp] theorem State.setCtx_routes (s : State) (c : Nat) (x : Ctx) : (s.setCtx c x).routes = s.routes := rfl
@[simp] theorem State.setCtx_links (s : State) (c : Nat) (x : Ctx) : (s.setCtx c x).links = s.links := rfl
@[simp] theorem State.setCtx_endpoints (s : State) (c : Nat) (x : Ctx) : (s.setCtx c x).endpoints = s.endpoints := rfl
@[simp] theorem State.setCtx_errs (s : State) (c : Nat) (x : Ctx) : (s.setCtx c x).errs = s.errs := rfl
@[simp] theorem State.setCtx_life (s : State) (c : Nat) (x : Ctx) : (s.setCtx c x).life = s.life := rfl
@[simp] theorem State.setCtx_measure (s : State) (c : Nat) (x : Ctx) : (s.setCtx c x).measure = s.measure := rfl
@[simp] theorem State.setCtx_keyStore (s : State) (c : Nat) (x : Ctx) : (s.setCtx c x).keyStore = s.keyStore := rfl
@[simp] theorem State.setCtx_fuses (s : State) (c : Nat) (x : Ctx) : (s.setCtx c x).fuses = s.fuses := rfl
@[simp] theorem State.setCtx_fuseVersion (s : State) (c : Nat) (x : Ctx) : (s.setCtx c x).fuseVersion = s.fuseVersion := rfl
@[simp] theorem State.setCtx_recovery (s : State) (c : Nat) (x : Ctx) : (s.setCtx c x).recovery = s.recovery := rfl
@[simp] theorem State.setCtx_bringUp (s : State) (c : Nat) (x : Ctx) : (s.setCtx c x).bringUp = s.bringUp := rfl
@[simp] theorem State.setCtx_pwr (s : State) (c : Nat) (x : Ctx) : (s.setCtx c x).pwr = s.pwr := rfl
@[simp] theorem State.setCtx_wact (s : State) (c : Nat) (x : Ctx) : (s.setCtx c x).wact = s.wact := rfl
@[simp] theorem State.setCtx_cap (s : State) (c : Nat) (x : Ctx) : (s.setCtx c x).cap = s.cap := rfl
@[simp] theorem State.setCtx_floorW (s : State) (c : Nat) (x : Ctx) : (s.setCtx c x).floorW = s.floorW := rfl
@[simp] theorem State.setCtx_lastCseq (s : State) (c : Nat) (x : Ctx) : (s.setCtx c x).lastCseq = s.lastCseq := rfl
@[simp] theorem State.setCtx_lease (s : State) (c : Nat) (x : Ctx) : (s.setCtx c x).lease = s.lease := rfl
@[simp] theorem State.setCtx_budgets (s : State) (c : Nat) (x : Ctx) : (s.setCtx c x).budgets = s.budgets := rfl
@[simp] theorem State.setCtx_budgetUsed (s : State) (c : Nat) (x : Ctx) : (s.setCtx c x).budgetUsed = s.budgetUsed := rfl
@[simp] theorem State.setCtx_thermal (s : State) (c : Nat) (x : Ctx) : (s.setCtx c x).thermal = s.thermal := rfl
@[simp] theorem State.setCtx_poweredOff (s : State) (c : Nat) (x : Ctx) : (s.setCtx c x).poweredOff = s.poweredOff := rfl
@[simp] theorem State.setCtx_fw (s : State) (c : Nat) (x : Ctx) : (s.setCtx c x).fw = s.fw := rfl
@[simp] theorem State.setCtx_wolas (s : State) (c : Nat) (x : Ctx) : (s.setCtx c x).wolas = s.wolas := rfl
@[simp] theorem State.setCtx_sent (s : State) (c : Nat) (x : Ctx) : (s.setCtx c x).sent = s.sent := rfl
@[simp] theorem State.setCtx_returned (s : State) (c : Nat) (x : Ctx) : (s.setCtx c x).returned = s.returned := rfl

/-! ### State.setElem -/

@[simp] theorem State.setElem_cycle (s : State) (p e : Nat) (x : Elem) : (s.setElem p e x).cycle = s.cycle := rfl
@[simp] theorem State.setElem_agenda (s : State) (p e : Nat) (x : Elem) : (s.setElem p e x).agenda = s.agenda := rfl
@[simp] theorem State.setElem_inputs (s : State) (p e : Nat) (x : Elem) : (s.setElem p e x).inputs = s.inputs := rfl
@[simp] theorem State.setElem_begun (s : State) (p e : Nat) (x : Elem) : (s.setElem p e x).begun = s.begun := rfl
@[simp] theorem State.setElem_turn (s : State) (p e : Nat) (x : Elem) : (s.setElem p e x).turn = s.turn := rfl
@[simp] theorem State.setElem_cur (s : State) (p e : Nat) (x : Elem) : (s.setElem p e x).cur = s.cur := rfl
@[simp] theorem State.setElem_site (s : State) (p e : Nat) (x : Elem) : (s.setElem p e x).site = s.site := rfl
@[simp] theorem State.setElem_bfaults (s : State) (p e : Nat) (x : Elem) : (s.setElem p e x).bfaults = s.bfaults := rfl
@[simp] theorem State.setElem_advs (s : State) (p e : Nat) (x : Elem) : (s.setElem p e x).advs = s.advs := rfl
@[simp] theorem State.setElem_nextId (s : State) (p e : Nat) (x : Elem) : (s.setElem p e x).nextId = s.nextId := rfl
@[simp] theorem State.setElem_freeCtr (s : State) (p e : Nat) (x : Elem) : (s.setElem p e x).freeCtr = s.freeCtr := rfl
@[simp] theorem State.setElem_latencies (s : State) (p e : Nat) (x : Elem) : (s.setElem p e x).latencies = s.latencies := rfl
@[simp] theorem State.setElem_ctxs (s : State) (p e : Nat) (x : Elem) : (s.setElem p e x).ctxs = s.ctxs := rfl
@[simp] theorem State.setElem_mem (s : State) (p e : Nat) (x : Elem) : (s.setElem p e x).mem = s.mem := rfl
@[simp] theorem State.setElem_poison (s : State) (p e : Nat) (x : Elem) : (s.setElem p e x).poison = s.poison := rfl
@[simp] theorem State.setElem_stores (s : State) (p e : Nat) (x : Elem) : (s.setElem p e x).stores = s.stores := rfl
@[simp] theorem State.setElem_fresh (s : State) (p e : Nat) (x : Elem) : (s.setElem p e x).fresh = s.fresh := rfl
@[simp] theorem State.setElem_fieldTenant (s : State) (p e : Nat) (x : Elem) : (s.setElem p e x).fieldTenant = s.fieldTenant := rfl
@[simp] theorem State.setElem_accs (s : State) (p e : Nat) (x : Elem) : (s.setElem p e x).accs = s.accs := rfl
@[simp] theorem State.setElem_cmds (s : State) (p e : Nat) (x : Elem) : (s.setElem p e x).cmds = s.cmds := rfl
@[simp] theorem State.setElem_holders (s : State) (p e : Nat) (x : Elem) : (s.setElem p e x).holders = s.holders := rfl
@[simp] theorem State.setElem_active (s : State) (p e : Nat) (x : Elem) : (s.setElem p e x).active = s.active := rfl
@[simp] theorem State.setElem_shadow (s : State) (p e : Nat) (x : Elem) : (s.setElem p e x).shadow = s.shadow := rfl
@[simp] theorem State.setElem_runs (s : State) (p e : Nat) (x : Elem) : (s.setElem p e x).runs = s.runs := rfl
@[simp] theorem State.setElem_kcnt (s : State) (p e : Nat) (x : Elem) : (s.setElem p e x).kcnt = s.kcnt := rfl
@[simp] theorem State.setElem_elems (s : State) (p e : Nat) (x : Elem) : (s.setElem p e x).elems = Kv.set {} s.elems (elemKey p e) x := rfl
@[simp] theorem State.setElem_nodeCtl (s : State) (p e : Nat) (x : Elem) : (s.setElem p e x).nodeCtl = s.nodeCtl := rfl
@[simp] theorem State.setElem_concCtl (s : State) (p e : Nat) (x : Elem) : (s.setElem p e x).concCtl = s.concCtl := rfl
@[simp] theorem State.setElem_tiles (s : State) (p e : Nat) (x : Elem) : (s.setElem p e x).tiles = s.tiles := rfl
@[simp] theorem State.setElem_writes (s : State) (p e : Nat) (x : Elem) : (s.setElem p e x).writes = s.writes := rfl
@[simp] theorem State.setElem_bq (s : State) (p e : Nat) (x : Elem) : (s.setElem p e x).bq = s.bq := rfl
@[simp] theorem State.setElem_tables (s : State) (p e : Nat) (x : Elem) : (s.setElem p e x).tables = s.tables := rfl
@[simp] theorem State.setElem_metas (s : State) (p e : Nat) (x : Elem) : (s.setElem p e x).metas = s.metas := rfl
@[simp] theorem State.setElem_streams (s : State) (p e : Nat) (x : Elem) : (s.setElem p e x).streams = s.streams := rfl
@[simp] theorem State.setElem_sluice (s : State) (p e : Nat) (x : Elem) : (s.setElem p e x).sluice = s.sluice := rfl
@[simp] theorem State.setElem_domains (s : State) (p e : Nat) (x : Elem) : (s.setElem p e x).domains = s.domains := rfl
@[simp] theorem State.setElem_sideband (s : State) (p e : Nat) (x : Elem) : (s.setElem p e x).sideband = s.sideband := rfl
@[simp] theorem State.setElem_clocked (s : State) (p e : Nat) (x : Elem) : (s.setElem p e x).clocked = s.clocked := rfl
@[simp] theorem State.setElem_uncal (s : State) (p e : Nat) (x : Elem) : (s.setElem p e x).uncal = s.uncal := rfl
@[simp] theorem State.setElem_mirror (s : State) (p e : Nat) (x : Elem) : (s.setElem p e x).mirror = s.mirror := rfl
@[simp] theorem State.setElem_bankControl (s : State) (p e : Nat) (x : Elem) : (s.setElem p e x).bankControl = s.bankControl := rfl
@[simp] theorem State.setElem_lostDies (s : State) (p e : Nat) (x : Elem) : (s.setElem p e x).lostDies = s.lostDies := rfl
@[simp] theorem State.setElem_staged (s : State) (p e : Nat) (x : Elem) : (s.setElem p e x).staged = s.staged := rfl
@[simp] theorem State.setElem_shares (s : State) (p e : Nat) (x : Elem) : (s.setElem p e x).shares = s.shares := rfl
@[simp] theorem State.setElem_fwTold (s : State) (p e : Nat) (x : Elem) : (s.setElem p e x).fwTold = s.fwTold := rfl
@[simp] theorem State.setElem_portAt (s : State) (p e : Nat) (x : Elem) : (s.setElem p e x).portAt = s.portAt := rfl
@[simp] theorem State.setElem_portIn (s : State) (p e : Nat) (x : Elem) : (s.setElem p e x).portIn = s.portIn := rfl
@[simp] theorem State.setElem_unreached (s : State) (p e : Nat) (x : Elem) : (s.setElem p e x).unreached = s.unreached := rfl
@[simp] theorem State.setElem_slotTab (s : State) (p e : Nat) (x : Elem) : (s.setElem p e x).slotTab = s.slotTab := rfl
@[simp] theorem State.setElem_tasks (s : State) (p e : Nat) (x : Elem) : (s.setElem p e x).tasks = s.tasks := rfl
@[simp] theorem State.setElem_slotEnds (s : State) (p e : Nat) (x : Elem) : (s.setElem p e x).slotEnds = s.slotEnds := rfl
@[simp] theorem State.setElem_fieldBank (s : State) (p e : Nat) (x : Elem) : (s.setElem p e x).fieldBank = s.fieldBank := rfl
@[simp] theorem State.setElem_parts (s : State) (p e : Nat) (x : Elem) : (s.setElem p e x).parts = s.parts := rfl
@[simp] theorem State.setElem_remap (s : State) (p e : Nat) (x : Elem) : (s.setElem p e x).remap = s.remap := rfl
@[simp] theorem State.setElem_tenantRoot (s : State) (p e : Nat) (x : Elem) : (s.setElem p e x).tenantRoot = s.tenantRoot := rfl
@[simp] theorem State.setElem_ownDev (s : State) (p e : Nat) (x : Elem) : (s.setElem p e x).ownDev = s.ownDev := rfl
@[simp] theorem State.setElem_directory (s : State) (p e : Nat) (x : Elem) : (s.setElem p e x).directory = s.directory := rfl
@[simp] theorem State.setElem_images (s : State) (p e : Nat) (x : Elem) : (s.setElem p e x).images = s.images := rfl
@[simp] theorem State.setElem_shadowBank (s : State) (p e : Nat) (x : Elem) : (s.setElem p e x).shadowBank = s.shadowBank := rfl
@[simp] theorem State.setElem_home (s : State) (p e : Nat) (x : Elem) : (s.setElem p e x).home = s.home := rfl
@[simp] theorem State.setElem_away (s : State) (p e : Nat) (x : Elem) : (s.setElem p e x).away = s.away := rfl
@[simp] theorem State.setElem_tags (s : State) (p e : Nat) (x : Elem) : (s.setElem p e x).tags = s.tags := rfl
@[simp] theorem State.setElem_scrub (s : State) (p e : Nat) (x : Elem) : (s.setElem p e x).scrub = s.scrub := rfl
@[simp] theorem State.setElem_dirty (s : State) (p e : Nat) (x : Elem) : (s.setElem p e x).dirty = s.dirty := rfl
@[simp] theorem State.setElem_lineBufs (s : State) (p e : Nat) (x : Elem) : (s.setElem p e x).lineBufs = s.lineBufs := rfl
@[simp] theorem State.setElem_fadds (s : State) (p e : Nat) (x : Elem) : (s.setElem p e x).fadds = s.fadds := rfl
@[simp] theorem State.setElem_routes (s : State) (p e : Nat) (x : Elem) : (s.setElem p e x).routes = s.routes := rfl
@[simp] theorem State.setElem_links (s : State) (p e : Nat) (x : Elem) : (s.setElem p e x).links = s.links := rfl
@[simp] theorem State.setElem_endpoints (s : State) (p e : Nat) (x : Elem) : (s.setElem p e x).endpoints = s.endpoints := rfl
@[simp] theorem State.setElem_errs (s : State) (p e : Nat) (x : Elem) : (s.setElem p e x).errs = s.errs := rfl
@[simp] theorem State.setElem_life (s : State) (p e : Nat) (x : Elem) : (s.setElem p e x).life = s.life := rfl
@[simp] theorem State.setElem_measure (s : State) (p e : Nat) (x : Elem) : (s.setElem p e x).measure = s.measure := rfl
@[simp] theorem State.setElem_keyStore (s : State) (p e : Nat) (x : Elem) : (s.setElem p e x).keyStore = s.keyStore := rfl
@[simp] theorem State.setElem_fuses (s : State) (p e : Nat) (x : Elem) : (s.setElem p e x).fuses = s.fuses := rfl
@[simp] theorem State.setElem_fuseVersion (s : State) (p e : Nat) (x : Elem) : (s.setElem p e x).fuseVersion = s.fuseVersion := rfl
@[simp] theorem State.setElem_recovery (s : State) (p e : Nat) (x : Elem) : (s.setElem p e x).recovery = s.recovery := rfl
@[simp] theorem State.setElem_bringUp (s : State) (p e : Nat) (x : Elem) : (s.setElem p e x).bringUp = s.bringUp := rfl
@[simp] theorem State.setElem_pwr (s : State) (p e : Nat) (x : Elem) : (s.setElem p e x).pwr = s.pwr := rfl
@[simp] theorem State.setElem_wact (s : State) (p e : Nat) (x : Elem) : (s.setElem p e x).wact = s.wact := rfl
@[simp] theorem State.setElem_cap (s : State) (p e : Nat) (x : Elem) : (s.setElem p e x).cap = s.cap := rfl
@[simp] theorem State.setElem_floorW (s : State) (p e : Nat) (x : Elem) : (s.setElem p e x).floorW = s.floorW := rfl
@[simp] theorem State.setElem_lastCseq (s : State) (p e : Nat) (x : Elem) : (s.setElem p e x).lastCseq = s.lastCseq := rfl
@[simp] theorem State.setElem_lease (s : State) (p e : Nat) (x : Elem) : (s.setElem p e x).lease = s.lease := rfl
@[simp] theorem State.setElem_budgets (s : State) (p e : Nat) (x : Elem) : (s.setElem p e x).budgets = s.budgets := rfl
@[simp] theorem State.setElem_budgetUsed (s : State) (p e : Nat) (x : Elem) : (s.setElem p e x).budgetUsed = s.budgetUsed := rfl
@[simp] theorem State.setElem_thermal (s : State) (p e : Nat) (x : Elem) : (s.setElem p e x).thermal = s.thermal := rfl
@[simp] theorem State.setElem_poweredOff (s : State) (p e : Nat) (x : Elem) : (s.setElem p e x).poweredOff = s.poweredOff := rfl
@[simp] theorem State.setElem_fw (s : State) (p e : Nat) (x : Elem) : (s.setElem p e x).fw = s.fw := rfl
@[simp] theorem State.setElem_wolas (s : State) (p e : Nat) (x : Elem) : (s.setElem p e x).wolas = s.wolas := rfl
@[simp] theorem State.setElem_sent (s : State) (p e : Nat) (x : Elem) : (s.setElem p e x).sent = s.sent := rfl
@[simp] theorem State.setElem_returned (s : State) (p e : Nat) (x : Elem) : (s.setElem p e x).returned = s.returned := rfl

/-! ### State.setActive -/

@[simp] theorem State.setActive_cycle (s : State) (p : Nat) (m : BitVec 8) (b : Block) : (s.setActive p m b).cycle = s.cycle := rfl
@[simp] theorem State.setActive_agenda (s : State) (p : Nat) (m : BitVec 8) (b : Block) : (s.setActive p m b).agenda = s.agenda := rfl
@[simp] theorem State.setActive_inputs (s : State) (p : Nat) (m : BitVec 8) (b : Block) : (s.setActive p m b).inputs = s.inputs := rfl
@[simp] theorem State.setActive_begun (s : State) (p : Nat) (m : BitVec 8) (b : Block) : (s.setActive p m b).begun = s.begun := rfl
@[simp] theorem State.setActive_turn (s : State) (p : Nat) (m : BitVec 8) (b : Block) : (s.setActive p m b).turn = s.turn := rfl
@[simp] theorem State.setActive_cur (s : State) (p : Nat) (m : BitVec 8) (b : Block) : (s.setActive p m b).cur = s.cur := rfl
@[simp] theorem State.setActive_site (s : State) (p : Nat) (m : BitVec 8) (b : Block) : (s.setActive p m b).site = s.site := rfl
@[simp] theorem State.setActive_bfaults (s : State) (p : Nat) (m : BitVec 8) (b : Block) : (s.setActive p m b).bfaults = s.bfaults := rfl
@[simp] theorem State.setActive_advs (s : State) (p : Nat) (m : BitVec 8) (b : Block) : (s.setActive p m b).advs = s.advs := rfl
@[simp] theorem State.setActive_nextId (s : State) (p : Nat) (m : BitVec 8) (b : Block) : (s.setActive p m b).nextId = s.nextId := rfl
@[simp] theorem State.setActive_freeCtr (s : State) (p : Nat) (m : BitVec 8) (b : Block) : (s.setActive p m b).freeCtr = s.freeCtr := rfl
@[simp] theorem State.setActive_latencies (s : State) (p : Nat) (m : BitVec 8) (b : Block) : (s.setActive p m b).latencies = s.latencies := rfl
@[simp] theorem State.setActive_ctxs (s : State) (p : Nat) (m : BitVec 8) (b : Block) : (s.setActive p m b).ctxs = s.ctxs := rfl
@[simp] theorem State.setActive_mem (s : State) (p : Nat) (m : BitVec 8) (b : Block) : (s.setActive p m b).mem = s.mem := rfl
@[simp] theorem State.setActive_poison (s : State) (p : Nat) (m : BitVec 8) (b : Block) : (s.setActive p m b).poison = s.poison := rfl
@[simp] theorem State.setActive_stores (s : State) (p : Nat) (m : BitVec 8) (b : Block) : (s.setActive p m b).stores = s.stores := rfl
@[simp] theorem State.setActive_fresh (s : State) (p : Nat) (m : BitVec 8) (b : Block) : (s.setActive p m b).fresh = s.fresh := rfl
@[simp] theorem State.setActive_fieldTenant (s : State) (p : Nat) (m : BitVec 8) (b : Block) : (s.setActive p m b).fieldTenant = s.fieldTenant := rfl
@[simp] theorem State.setActive_accs (s : State) (p : Nat) (m : BitVec 8) (b : Block) : (s.setActive p m b).accs = s.accs := rfl
@[simp] theorem State.setActive_cmds (s : State) (p : Nat) (m : BitVec 8) (b : Block) : (s.setActive p m b).cmds = s.cmds := rfl
@[simp] theorem State.setActive_holders (s : State) (p : Nat) (m : BitVec 8) (b : Block) : (s.setActive p m b).holders = s.holders := rfl
@[simp] theorem State.setActive_active (s : State) (p : Nat) (m : BitVec 8) (b : Block) : (s.setActive p m b).active = Kv.set {} s.active (blkKey p m) b := rfl
@[simp] theorem State.setActive_shadow (s : State) (p : Nat) (m : BitVec 8) (b : Block) : (s.setActive p m b).shadow = s.shadow := rfl
@[simp] theorem State.setActive_runs (s : State) (p : Nat) (m : BitVec 8) (b : Block) : (s.setActive p m b).runs = s.runs := rfl
@[simp] theorem State.setActive_kcnt (s : State) (p : Nat) (m : BitVec 8) (b : Block) : (s.setActive p m b).kcnt = s.kcnt := rfl
@[simp] theorem State.setActive_elems (s : State) (p : Nat) (m : BitVec 8) (b : Block) : (s.setActive p m b).elems = s.elems := rfl
@[simp] theorem State.setActive_nodeCtl (s : State) (p : Nat) (m : BitVec 8) (b : Block) : (s.setActive p m b).nodeCtl = s.nodeCtl := rfl
@[simp] theorem State.setActive_concCtl (s : State) (p : Nat) (m : BitVec 8) (b : Block) : (s.setActive p m b).concCtl = s.concCtl := rfl
@[simp] theorem State.setActive_tiles (s : State) (p : Nat) (m : BitVec 8) (b : Block) : (s.setActive p m b).tiles = s.tiles := rfl
@[simp] theorem State.setActive_writes (s : State) (p : Nat) (m : BitVec 8) (b : Block) : (s.setActive p m b).writes = s.writes := rfl
@[simp] theorem State.setActive_bq (s : State) (p : Nat) (m : BitVec 8) (b : Block) : (s.setActive p m b).bq = s.bq := rfl
@[simp] theorem State.setActive_tables (s : State) (p : Nat) (m : BitVec 8) (b : Block) : (s.setActive p m b).tables = s.tables := rfl
@[simp] theorem State.setActive_metas (s : State) (p : Nat) (m : BitVec 8) (b : Block) : (s.setActive p m b).metas = s.metas := rfl
@[simp] theorem State.setActive_streams (s : State) (p : Nat) (m : BitVec 8) (b : Block) : (s.setActive p m b).streams = s.streams := rfl
@[simp] theorem State.setActive_sluice (s : State) (p : Nat) (m : BitVec 8) (b : Block) : (s.setActive p m b).sluice = s.sluice := rfl
@[simp] theorem State.setActive_domains (s : State) (p : Nat) (m : BitVec 8) (b : Block) : (s.setActive p m b).domains = s.domains := rfl
@[simp] theorem State.setActive_sideband (s : State) (p : Nat) (m : BitVec 8) (b : Block) : (s.setActive p m b).sideband = s.sideband := rfl
@[simp] theorem State.setActive_clocked (s : State) (p : Nat) (m : BitVec 8) (b : Block) : (s.setActive p m b).clocked = s.clocked := rfl
@[simp] theorem State.setActive_uncal (s : State) (p : Nat) (m : BitVec 8) (b : Block) : (s.setActive p m b).uncal = s.uncal := rfl
@[simp] theorem State.setActive_mirror (s : State) (p : Nat) (m : BitVec 8) (b : Block) : (s.setActive p m b).mirror = s.mirror := rfl
@[simp] theorem State.setActive_bankControl (s : State) (p : Nat) (m : BitVec 8) (b : Block) : (s.setActive p m b).bankControl = s.bankControl := rfl
@[simp] theorem State.setActive_lostDies (s : State) (p : Nat) (m : BitVec 8) (b : Block) : (s.setActive p m b).lostDies = s.lostDies := rfl
@[simp] theorem State.setActive_staged (s : State) (p : Nat) (m : BitVec 8) (b : Block) : (s.setActive p m b).staged = s.staged := rfl
@[simp] theorem State.setActive_shares (s : State) (p : Nat) (m : BitVec 8) (b : Block) : (s.setActive p m b).shares = s.shares := rfl
@[simp] theorem State.setActive_fwTold (s : State) (p : Nat) (m : BitVec 8) (b : Block) : (s.setActive p m b).fwTold = s.fwTold := rfl
@[simp] theorem State.setActive_portAt (s : State) (p : Nat) (m : BitVec 8) (b : Block) : (s.setActive p m b).portAt = s.portAt := rfl
@[simp] theorem State.setActive_portIn (s : State) (p : Nat) (m : BitVec 8) (b : Block) : (s.setActive p m b).portIn = s.portIn := rfl
@[simp] theorem State.setActive_unreached (s : State) (p : Nat) (m : BitVec 8) (b : Block) : (s.setActive p m b).unreached = s.unreached := rfl
@[simp] theorem State.setActive_slotTab (s : State) (p : Nat) (m : BitVec 8) (b : Block) : (s.setActive p m b).slotTab = s.slotTab := rfl
@[simp] theorem State.setActive_tasks (s : State) (p : Nat) (m : BitVec 8) (b : Block) : (s.setActive p m b).tasks = s.tasks := rfl
@[simp] theorem State.setActive_slotEnds (s : State) (p : Nat) (m : BitVec 8) (b : Block) : (s.setActive p m b).slotEnds = s.slotEnds := rfl
@[simp] theorem State.setActive_fieldBank (s : State) (p : Nat) (m : BitVec 8) (b : Block) : (s.setActive p m b).fieldBank = s.fieldBank := rfl
@[simp] theorem State.setActive_parts (s : State) (p : Nat) (m : BitVec 8) (b : Block) : (s.setActive p m b).parts = s.parts := rfl
@[simp] theorem State.setActive_remap (s : State) (p : Nat) (m : BitVec 8) (b : Block) : (s.setActive p m b).remap = s.remap := rfl
@[simp] theorem State.setActive_tenantRoot (s : State) (p : Nat) (m : BitVec 8) (b : Block) : (s.setActive p m b).tenantRoot = s.tenantRoot := rfl
@[simp] theorem State.setActive_ownDev (s : State) (p : Nat) (m : BitVec 8) (b : Block) : (s.setActive p m b).ownDev = s.ownDev := rfl
@[simp] theorem State.setActive_directory (s : State) (p : Nat) (m : BitVec 8) (b : Block) : (s.setActive p m b).directory = s.directory := rfl
@[simp] theorem State.setActive_images (s : State) (p : Nat) (m : BitVec 8) (b : Block) : (s.setActive p m b).images = s.images := rfl
@[simp] theorem State.setActive_shadowBank (s : State) (p : Nat) (m : BitVec 8) (b : Block) : (s.setActive p m b).shadowBank = s.shadowBank := rfl
@[simp] theorem State.setActive_home (s : State) (p : Nat) (m : BitVec 8) (b : Block) : (s.setActive p m b).home = s.home := rfl
@[simp] theorem State.setActive_away (s : State) (p : Nat) (m : BitVec 8) (b : Block) : (s.setActive p m b).away = s.away := rfl
@[simp] theorem State.setActive_tags (s : State) (p : Nat) (m : BitVec 8) (b : Block) : (s.setActive p m b).tags = s.tags := rfl
@[simp] theorem State.setActive_scrub (s : State) (p : Nat) (m : BitVec 8) (b : Block) : (s.setActive p m b).scrub = s.scrub := rfl
@[simp] theorem State.setActive_dirty (s : State) (p : Nat) (m : BitVec 8) (b : Block) : (s.setActive p m b).dirty = s.dirty := rfl
@[simp] theorem State.setActive_lineBufs (s : State) (p : Nat) (m : BitVec 8) (b : Block) : (s.setActive p m b).lineBufs = s.lineBufs := rfl
@[simp] theorem State.setActive_fadds (s : State) (p : Nat) (m : BitVec 8) (b : Block) : (s.setActive p m b).fadds = s.fadds := rfl
@[simp] theorem State.setActive_routes (s : State) (p : Nat) (m : BitVec 8) (b : Block) : (s.setActive p m b).routes = s.routes := rfl
@[simp] theorem State.setActive_links (s : State) (p : Nat) (m : BitVec 8) (b : Block) : (s.setActive p m b).links = s.links := rfl
@[simp] theorem State.setActive_endpoints (s : State) (p : Nat) (m : BitVec 8) (b : Block) : (s.setActive p m b).endpoints = s.endpoints := rfl
@[simp] theorem State.setActive_errs (s : State) (p : Nat) (m : BitVec 8) (b : Block) : (s.setActive p m b).errs = s.errs := rfl
@[simp] theorem State.setActive_life (s : State) (p : Nat) (m : BitVec 8) (b : Block) : (s.setActive p m b).life = s.life := rfl
@[simp] theorem State.setActive_measure (s : State) (p : Nat) (m : BitVec 8) (b : Block) : (s.setActive p m b).measure = s.measure := rfl
@[simp] theorem State.setActive_keyStore (s : State) (p : Nat) (m : BitVec 8) (b : Block) : (s.setActive p m b).keyStore = s.keyStore := rfl
@[simp] theorem State.setActive_fuses (s : State) (p : Nat) (m : BitVec 8) (b : Block) : (s.setActive p m b).fuses = s.fuses := rfl
@[simp] theorem State.setActive_fuseVersion (s : State) (p : Nat) (m : BitVec 8) (b : Block) : (s.setActive p m b).fuseVersion = s.fuseVersion := rfl
@[simp] theorem State.setActive_recovery (s : State) (p : Nat) (m : BitVec 8) (b : Block) : (s.setActive p m b).recovery = s.recovery := rfl
@[simp] theorem State.setActive_bringUp (s : State) (p : Nat) (m : BitVec 8) (b : Block) : (s.setActive p m b).bringUp = s.bringUp := rfl
@[simp] theorem State.setActive_pwr (s : State) (p : Nat) (m : BitVec 8) (b : Block) : (s.setActive p m b).pwr = s.pwr := rfl
@[simp] theorem State.setActive_wact (s : State) (p : Nat) (m : BitVec 8) (b : Block) : (s.setActive p m b).wact = s.wact := rfl
@[simp] theorem State.setActive_cap (s : State) (p : Nat) (m : BitVec 8) (b : Block) : (s.setActive p m b).cap = s.cap := rfl
@[simp] theorem State.setActive_floorW (s : State) (p : Nat) (m : BitVec 8) (b : Block) : (s.setActive p m b).floorW = s.floorW := rfl
@[simp] theorem State.setActive_lastCseq (s : State) (p : Nat) (m : BitVec 8) (b : Block) : (s.setActive p m b).lastCseq = s.lastCseq := rfl
@[simp] theorem State.setActive_lease (s : State) (p : Nat) (m : BitVec 8) (b : Block) : (s.setActive p m b).lease = s.lease := rfl
@[simp] theorem State.setActive_budgets (s : State) (p : Nat) (m : BitVec 8) (b : Block) : (s.setActive p m b).budgets = s.budgets := rfl
@[simp] theorem State.setActive_budgetUsed (s : State) (p : Nat) (m : BitVec 8) (b : Block) : (s.setActive p m b).budgetUsed = s.budgetUsed := rfl
@[simp] theorem State.setActive_thermal (s : State) (p : Nat) (m : BitVec 8) (b : Block) : (s.setActive p m b).thermal = s.thermal := rfl
@[simp] theorem State.setActive_poweredOff (s : State) (p : Nat) (m : BitVec 8) (b : Block) : (s.setActive p m b).poweredOff = s.poweredOff := rfl
@[simp] theorem State.setActive_fw (s : State) (p : Nat) (m : BitVec 8) (b : Block) : (s.setActive p m b).fw = s.fw := rfl
@[simp] theorem State.setActive_wolas (s : State) (p : Nat) (m : BitVec 8) (b : Block) : (s.setActive p m b).wolas = s.wolas := rfl
@[simp] theorem State.setActive_sent (s : State) (p : Nat) (m : BitVec 8) (b : Block) : (s.setActive p m b).sent = s.sent := rfl
@[simp] theorem State.setActive_returned (s : State) (p : Nat) (m : BitVec 8) (b : Block) : (s.setActive p m b).returned = s.returned := rfl

/-! ### State.setShadow -/

@[simp] theorem State.setShadow_cycle (s : State) (p : Nat) (m : BitVec 8) (b : Block) : (s.setShadow p m b).cycle = s.cycle := rfl
@[simp] theorem State.setShadow_agenda (s : State) (p : Nat) (m : BitVec 8) (b : Block) : (s.setShadow p m b).agenda = s.agenda := rfl
@[simp] theorem State.setShadow_inputs (s : State) (p : Nat) (m : BitVec 8) (b : Block) : (s.setShadow p m b).inputs = s.inputs := rfl
@[simp] theorem State.setShadow_begun (s : State) (p : Nat) (m : BitVec 8) (b : Block) : (s.setShadow p m b).begun = s.begun := rfl
@[simp] theorem State.setShadow_turn (s : State) (p : Nat) (m : BitVec 8) (b : Block) : (s.setShadow p m b).turn = s.turn := rfl
@[simp] theorem State.setShadow_cur (s : State) (p : Nat) (m : BitVec 8) (b : Block) : (s.setShadow p m b).cur = s.cur := rfl
@[simp] theorem State.setShadow_site (s : State) (p : Nat) (m : BitVec 8) (b : Block) : (s.setShadow p m b).site = s.site := rfl
@[simp] theorem State.setShadow_bfaults (s : State) (p : Nat) (m : BitVec 8) (b : Block) : (s.setShadow p m b).bfaults = s.bfaults := rfl
@[simp] theorem State.setShadow_advs (s : State) (p : Nat) (m : BitVec 8) (b : Block) : (s.setShadow p m b).advs = s.advs := rfl
@[simp] theorem State.setShadow_nextId (s : State) (p : Nat) (m : BitVec 8) (b : Block) : (s.setShadow p m b).nextId = s.nextId := rfl
@[simp] theorem State.setShadow_freeCtr (s : State) (p : Nat) (m : BitVec 8) (b : Block) : (s.setShadow p m b).freeCtr = s.freeCtr := rfl
@[simp] theorem State.setShadow_latencies (s : State) (p : Nat) (m : BitVec 8) (b : Block) : (s.setShadow p m b).latencies = s.latencies := rfl
@[simp] theorem State.setShadow_ctxs (s : State) (p : Nat) (m : BitVec 8) (b : Block) : (s.setShadow p m b).ctxs = s.ctxs := rfl
@[simp] theorem State.setShadow_mem (s : State) (p : Nat) (m : BitVec 8) (b : Block) : (s.setShadow p m b).mem = s.mem := rfl
@[simp] theorem State.setShadow_poison (s : State) (p : Nat) (m : BitVec 8) (b : Block) : (s.setShadow p m b).poison = s.poison := rfl
@[simp] theorem State.setShadow_stores (s : State) (p : Nat) (m : BitVec 8) (b : Block) : (s.setShadow p m b).stores = s.stores := rfl
@[simp] theorem State.setShadow_fresh (s : State) (p : Nat) (m : BitVec 8) (b : Block) : (s.setShadow p m b).fresh = s.fresh := rfl
@[simp] theorem State.setShadow_fieldTenant (s : State) (p : Nat) (m : BitVec 8) (b : Block) : (s.setShadow p m b).fieldTenant = s.fieldTenant := rfl
@[simp] theorem State.setShadow_accs (s : State) (p : Nat) (m : BitVec 8) (b : Block) : (s.setShadow p m b).accs = s.accs := rfl
@[simp] theorem State.setShadow_cmds (s : State) (p : Nat) (m : BitVec 8) (b : Block) : (s.setShadow p m b).cmds = s.cmds := rfl
@[simp] theorem State.setShadow_holders (s : State) (p : Nat) (m : BitVec 8) (b : Block) : (s.setShadow p m b).holders = s.holders := rfl
@[simp] theorem State.setShadow_active (s : State) (p : Nat) (m : BitVec 8) (b : Block) : (s.setShadow p m b).active = s.active := rfl
@[simp] theorem State.setShadow_shadow (s : State) (p : Nat) (m : BitVec 8) (b : Block) : (s.setShadow p m b).shadow = Kv.set {} s.shadow (blkKey p m) b := rfl
@[simp] theorem State.setShadow_runs (s : State) (p : Nat) (m : BitVec 8) (b : Block) : (s.setShadow p m b).runs = s.runs := rfl
@[simp] theorem State.setShadow_kcnt (s : State) (p : Nat) (m : BitVec 8) (b : Block) : (s.setShadow p m b).kcnt = s.kcnt := rfl
@[simp] theorem State.setShadow_elems (s : State) (p : Nat) (m : BitVec 8) (b : Block) : (s.setShadow p m b).elems = s.elems := rfl
@[simp] theorem State.setShadow_nodeCtl (s : State) (p : Nat) (m : BitVec 8) (b : Block) : (s.setShadow p m b).nodeCtl = s.nodeCtl := rfl
@[simp] theorem State.setShadow_concCtl (s : State) (p : Nat) (m : BitVec 8) (b : Block) : (s.setShadow p m b).concCtl = s.concCtl := rfl
@[simp] theorem State.setShadow_tiles (s : State) (p : Nat) (m : BitVec 8) (b : Block) : (s.setShadow p m b).tiles = s.tiles := rfl
@[simp] theorem State.setShadow_writes (s : State) (p : Nat) (m : BitVec 8) (b : Block) : (s.setShadow p m b).writes = s.writes := rfl
@[simp] theorem State.setShadow_bq (s : State) (p : Nat) (m : BitVec 8) (b : Block) : (s.setShadow p m b).bq = s.bq := rfl
@[simp] theorem State.setShadow_tables (s : State) (p : Nat) (m : BitVec 8) (b : Block) : (s.setShadow p m b).tables = s.tables := rfl
@[simp] theorem State.setShadow_metas (s : State) (p : Nat) (m : BitVec 8) (b : Block) : (s.setShadow p m b).metas = s.metas := rfl
@[simp] theorem State.setShadow_streams (s : State) (p : Nat) (m : BitVec 8) (b : Block) : (s.setShadow p m b).streams = s.streams := rfl
@[simp] theorem State.setShadow_sluice (s : State) (p : Nat) (m : BitVec 8) (b : Block) : (s.setShadow p m b).sluice = s.sluice := rfl
@[simp] theorem State.setShadow_domains (s : State) (p : Nat) (m : BitVec 8) (b : Block) : (s.setShadow p m b).domains = s.domains := rfl
@[simp] theorem State.setShadow_sideband (s : State) (p : Nat) (m : BitVec 8) (b : Block) : (s.setShadow p m b).sideband = s.sideband := rfl
@[simp] theorem State.setShadow_clocked (s : State) (p : Nat) (m : BitVec 8) (b : Block) : (s.setShadow p m b).clocked = s.clocked := rfl
@[simp] theorem State.setShadow_uncal (s : State) (p : Nat) (m : BitVec 8) (b : Block) : (s.setShadow p m b).uncal = s.uncal := rfl
@[simp] theorem State.setShadow_mirror (s : State) (p : Nat) (m : BitVec 8) (b : Block) : (s.setShadow p m b).mirror = s.mirror := rfl
@[simp] theorem State.setShadow_bankControl (s : State) (p : Nat) (m : BitVec 8) (b : Block) : (s.setShadow p m b).bankControl = s.bankControl := rfl
@[simp] theorem State.setShadow_lostDies (s : State) (p : Nat) (m : BitVec 8) (b : Block) : (s.setShadow p m b).lostDies = s.lostDies := rfl
@[simp] theorem State.setShadow_staged (s : State) (p : Nat) (m : BitVec 8) (b : Block) : (s.setShadow p m b).staged = s.staged := rfl
@[simp] theorem State.setShadow_shares (s : State) (p : Nat) (m : BitVec 8) (b : Block) : (s.setShadow p m b).shares = s.shares := rfl
@[simp] theorem State.setShadow_fwTold (s : State) (p : Nat) (m : BitVec 8) (b : Block) : (s.setShadow p m b).fwTold = s.fwTold := rfl
@[simp] theorem State.setShadow_portAt (s : State) (p : Nat) (m : BitVec 8) (b : Block) : (s.setShadow p m b).portAt = s.portAt := rfl
@[simp] theorem State.setShadow_portIn (s : State) (p : Nat) (m : BitVec 8) (b : Block) : (s.setShadow p m b).portIn = s.portIn := rfl
@[simp] theorem State.setShadow_unreached (s : State) (p : Nat) (m : BitVec 8) (b : Block) : (s.setShadow p m b).unreached = s.unreached := rfl
@[simp] theorem State.setShadow_slotTab (s : State) (p : Nat) (m : BitVec 8) (b : Block) : (s.setShadow p m b).slotTab = s.slotTab := rfl
@[simp] theorem State.setShadow_tasks (s : State) (p : Nat) (m : BitVec 8) (b : Block) : (s.setShadow p m b).tasks = s.tasks := rfl
@[simp] theorem State.setShadow_slotEnds (s : State) (p : Nat) (m : BitVec 8) (b : Block) : (s.setShadow p m b).slotEnds = s.slotEnds := rfl
@[simp] theorem State.setShadow_fieldBank (s : State) (p : Nat) (m : BitVec 8) (b : Block) : (s.setShadow p m b).fieldBank = s.fieldBank := rfl
@[simp] theorem State.setShadow_parts (s : State) (p : Nat) (m : BitVec 8) (b : Block) : (s.setShadow p m b).parts = s.parts := rfl
@[simp] theorem State.setShadow_remap (s : State) (p : Nat) (m : BitVec 8) (b : Block) : (s.setShadow p m b).remap = s.remap := rfl
@[simp] theorem State.setShadow_tenantRoot (s : State) (p : Nat) (m : BitVec 8) (b : Block) : (s.setShadow p m b).tenantRoot = s.tenantRoot := rfl
@[simp] theorem State.setShadow_ownDev (s : State) (p : Nat) (m : BitVec 8) (b : Block) : (s.setShadow p m b).ownDev = s.ownDev := rfl
@[simp] theorem State.setShadow_directory (s : State) (p : Nat) (m : BitVec 8) (b : Block) : (s.setShadow p m b).directory = s.directory := rfl
@[simp] theorem State.setShadow_images (s : State) (p : Nat) (m : BitVec 8) (b : Block) : (s.setShadow p m b).images = s.images := rfl
@[simp] theorem State.setShadow_shadowBank (s : State) (p : Nat) (m : BitVec 8) (b : Block) : (s.setShadow p m b).shadowBank = s.shadowBank := rfl
@[simp] theorem State.setShadow_home (s : State) (p : Nat) (m : BitVec 8) (b : Block) : (s.setShadow p m b).home = s.home := rfl
@[simp] theorem State.setShadow_away (s : State) (p : Nat) (m : BitVec 8) (b : Block) : (s.setShadow p m b).away = s.away := rfl
@[simp] theorem State.setShadow_tags (s : State) (p : Nat) (m : BitVec 8) (b : Block) : (s.setShadow p m b).tags = s.tags := rfl
@[simp] theorem State.setShadow_scrub (s : State) (p : Nat) (m : BitVec 8) (b : Block) : (s.setShadow p m b).scrub = s.scrub := rfl
@[simp] theorem State.setShadow_dirty (s : State) (p : Nat) (m : BitVec 8) (b : Block) : (s.setShadow p m b).dirty = s.dirty := rfl
@[simp] theorem State.setShadow_lineBufs (s : State) (p : Nat) (m : BitVec 8) (b : Block) : (s.setShadow p m b).lineBufs = s.lineBufs := rfl
@[simp] theorem State.setShadow_fadds (s : State) (p : Nat) (m : BitVec 8) (b : Block) : (s.setShadow p m b).fadds = s.fadds := rfl
@[simp] theorem State.setShadow_routes (s : State) (p : Nat) (m : BitVec 8) (b : Block) : (s.setShadow p m b).routes = s.routes := rfl
@[simp] theorem State.setShadow_links (s : State) (p : Nat) (m : BitVec 8) (b : Block) : (s.setShadow p m b).links = s.links := rfl
@[simp] theorem State.setShadow_endpoints (s : State) (p : Nat) (m : BitVec 8) (b : Block) : (s.setShadow p m b).endpoints = s.endpoints := rfl
@[simp] theorem State.setShadow_errs (s : State) (p : Nat) (m : BitVec 8) (b : Block) : (s.setShadow p m b).errs = s.errs := rfl
@[simp] theorem State.setShadow_life (s : State) (p : Nat) (m : BitVec 8) (b : Block) : (s.setShadow p m b).life = s.life := rfl
@[simp] theorem State.setShadow_measure (s : State) (p : Nat) (m : BitVec 8) (b : Block) : (s.setShadow p m b).measure = s.measure := rfl
@[simp] theorem State.setShadow_keyStore (s : State) (p : Nat) (m : BitVec 8) (b : Block) : (s.setShadow p m b).keyStore = s.keyStore := rfl
@[simp] theorem State.setShadow_fuses (s : State) (p : Nat) (m : BitVec 8) (b : Block) : (s.setShadow p m b).fuses = s.fuses := rfl
@[simp] theorem State.setShadow_fuseVersion (s : State) (p : Nat) (m : BitVec 8) (b : Block) : (s.setShadow p m b).fuseVersion = s.fuseVersion := rfl
@[simp] theorem State.setShadow_recovery (s : State) (p : Nat) (m : BitVec 8) (b : Block) : (s.setShadow p m b).recovery = s.recovery := rfl
@[simp] theorem State.setShadow_bringUp (s : State) (p : Nat) (m : BitVec 8) (b : Block) : (s.setShadow p m b).bringUp = s.bringUp := rfl
@[simp] theorem State.setShadow_pwr (s : State) (p : Nat) (m : BitVec 8) (b : Block) : (s.setShadow p m b).pwr = s.pwr := rfl
@[simp] theorem State.setShadow_wact (s : State) (p : Nat) (m : BitVec 8) (b : Block) : (s.setShadow p m b).wact = s.wact := rfl
@[simp] theorem State.setShadow_cap (s : State) (p : Nat) (m : BitVec 8) (b : Block) : (s.setShadow p m b).cap = s.cap := rfl
@[simp] theorem State.setShadow_floorW (s : State) (p : Nat) (m : BitVec 8) (b : Block) : (s.setShadow p m b).floorW = s.floorW := rfl
@[simp] theorem State.setShadow_lastCseq (s : State) (p : Nat) (m : BitVec 8) (b : Block) : (s.setShadow p m b).lastCseq = s.lastCseq := rfl
@[simp] theorem State.setShadow_lease (s : State) (p : Nat) (m : BitVec 8) (b : Block) : (s.setShadow p m b).lease = s.lease := rfl
@[simp] theorem State.setShadow_budgets (s : State) (p : Nat) (m : BitVec 8) (b : Block) : (s.setShadow p m b).budgets = s.budgets := rfl
@[simp] theorem State.setShadow_budgetUsed (s : State) (p : Nat) (m : BitVec 8) (b : Block) : (s.setShadow p m b).budgetUsed = s.budgetUsed := rfl
@[simp] theorem State.setShadow_thermal (s : State) (p : Nat) (m : BitVec 8) (b : Block) : (s.setShadow p m b).thermal = s.thermal := rfl
@[simp] theorem State.setShadow_poweredOff (s : State) (p : Nat) (m : BitVec 8) (b : Block) : (s.setShadow p m b).poweredOff = s.poweredOff := rfl
@[simp] theorem State.setShadow_fw (s : State) (p : Nat) (m : BitVec 8) (b : Block) : (s.setShadow p m b).fw = s.fw := rfl
@[simp] theorem State.setShadow_wolas (s : State) (p : Nat) (m : BitVec 8) (b : Block) : (s.setShadow p m b).wolas = s.wolas := rfl
@[simp] theorem State.setShadow_sent (s : State) (p : Nat) (m : BitVec 8) (b : Block) : (s.setShadow p m b).sent = s.sent := rfl
@[simp] theorem State.setShadow_returned (s : State) (p : Nat) (m : BitVec 8) (b : Block) : (s.setShadow p m b).returned = s.returned := rfl

/-! ### State.setRun -/

@[simp] theorem State.setRun_cycle (s : State) (p : Nat) (m : BitVec 8) (r : BlkRun) : (s.setRun p m r).cycle = s.cycle := rfl
@[simp] theorem State.setRun_agenda (s : State) (p : Nat) (m : BitVec 8) (r : BlkRun) : (s.setRun p m r).agenda = s.agenda := rfl
@[simp] theorem State.setRun_inputs (s : State) (p : Nat) (m : BitVec 8) (r : BlkRun) : (s.setRun p m r).inputs = s.inputs := rfl
@[simp] theorem State.setRun_begun (s : State) (p : Nat) (m : BitVec 8) (r : BlkRun) : (s.setRun p m r).begun = s.begun := rfl
@[simp] theorem State.setRun_turn (s : State) (p : Nat) (m : BitVec 8) (r : BlkRun) : (s.setRun p m r).turn = s.turn := rfl
@[simp] theorem State.setRun_cur (s : State) (p : Nat) (m : BitVec 8) (r : BlkRun) : (s.setRun p m r).cur = s.cur := rfl
@[simp] theorem State.setRun_site (s : State) (p : Nat) (m : BitVec 8) (r : BlkRun) : (s.setRun p m r).site = s.site := rfl
@[simp] theorem State.setRun_bfaults (s : State) (p : Nat) (m : BitVec 8) (r : BlkRun) : (s.setRun p m r).bfaults = s.bfaults := rfl
@[simp] theorem State.setRun_advs (s : State) (p : Nat) (m : BitVec 8) (r : BlkRun) : (s.setRun p m r).advs = s.advs := rfl
@[simp] theorem State.setRun_nextId (s : State) (p : Nat) (m : BitVec 8) (r : BlkRun) : (s.setRun p m r).nextId = s.nextId := rfl
@[simp] theorem State.setRun_freeCtr (s : State) (p : Nat) (m : BitVec 8) (r : BlkRun) : (s.setRun p m r).freeCtr = s.freeCtr := rfl
@[simp] theorem State.setRun_latencies (s : State) (p : Nat) (m : BitVec 8) (r : BlkRun) : (s.setRun p m r).latencies = s.latencies := rfl
@[simp] theorem State.setRun_ctxs (s : State) (p : Nat) (m : BitVec 8) (r : BlkRun) : (s.setRun p m r).ctxs = s.ctxs := rfl
@[simp] theorem State.setRun_mem (s : State) (p : Nat) (m : BitVec 8) (r : BlkRun) : (s.setRun p m r).mem = s.mem := rfl
@[simp] theorem State.setRun_poison (s : State) (p : Nat) (m : BitVec 8) (r : BlkRun) : (s.setRun p m r).poison = s.poison := rfl
@[simp] theorem State.setRun_stores (s : State) (p : Nat) (m : BitVec 8) (r : BlkRun) : (s.setRun p m r).stores = s.stores := rfl
@[simp] theorem State.setRun_fresh (s : State) (p : Nat) (m : BitVec 8) (r : BlkRun) : (s.setRun p m r).fresh = s.fresh := rfl
@[simp] theorem State.setRun_fieldTenant (s : State) (p : Nat) (m : BitVec 8) (r : BlkRun) : (s.setRun p m r).fieldTenant = s.fieldTenant := rfl
@[simp] theorem State.setRun_accs (s : State) (p : Nat) (m : BitVec 8) (r : BlkRun) : (s.setRun p m r).accs = s.accs := rfl
@[simp] theorem State.setRun_cmds (s : State) (p : Nat) (m : BitVec 8) (r : BlkRun) : (s.setRun p m r).cmds = s.cmds := rfl
@[simp] theorem State.setRun_holders (s : State) (p : Nat) (m : BitVec 8) (r : BlkRun) : (s.setRun p m r).holders = s.holders := rfl
@[simp] theorem State.setRun_active (s : State) (p : Nat) (m : BitVec 8) (r : BlkRun) : (s.setRun p m r).active = s.active := rfl
@[simp] theorem State.setRun_shadow (s : State) (p : Nat) (m : BitVec 8) (r : BlkRun) : (s.setRun p m r).shadow = s.shadow := rfl
@[simp] theorem State.setRun_runs (s : State) (p : Nat) (m : BitVec 8) (r : BlkRun) : (s.setRun p m r).runs = Kv.set {} s.runs (blkKey p m) r := rfl
@[simp] theorem State.setRun_kcnt (s : State) (p : Nat) (m : BitVec 8) (r : BlkRun) : (s.setRun p m r).kcnt = s.kcnt := rfl
@[simp] theorem State.setRun_elems (s : State) (p : Nat) (m : BitVec 8) (r : BlkRun) : (s.setRun p m r).elems = s.elems := rfl
@[simp] theorem State.setRun_nodeCtl (s : State) (p : Nat) (m : BitVec 8) (r : BlkRun) : (s.setRun p m r).nodeCtl = s.nodeCtl := rfl
@[simp] theorem State.setRun_concCtl (s : State) (p : Nat) (m : BitVec 8) (r : BlkRun) : (s.setRun p m r).concCtl = s.concCtl := rfl
@[simp] theorem State.setRun_tiles (s : State) (p : Nat) (m : BitVec 8) (r : BlkRun) : (s.setRun p m r).tiles = s.tiles := rfl
@[simp] theorem State.setRun_writes (s : State) (p : Nat) (m : BitVec 8) (r : BlkRun) : (s.setRun p m r).writes = s.writes := rfl
@[simp] theorem State.setRun_bq (s : State) (p : Nat) (m : BitVec 8) (r : BlkRun) : (s.setRun p m r).bq = s.bq := rfl
@[simp] theorem State.setRun_tables (s : State) (p : Nat) (m : BitVec 8) (r : BlkRun) : (s.setRun p m r).tables = s.tables := rfl
@[simp] theorem State.setRun_metas (s : State) (p : Nat) (m : BitVec 8) (r : BlkRun) : (s.setRun p m r).metas = s.metas := rfl
@[simp] theorem State.setRun_streams (s : State) (p : Nat) (m : BitVec 8) (r : BlkRun) : (s.setRun p m r).streams = s.streams := rfl
@[simp] theorem State.setRun_sluice (s : State) (p : Nat) (m : BitVec 8) (r : BlkRun) : (s.setRun p m r).sluice = s.sluice := rfl
@[simp] theorem State.setRun_domains (s : State) (p : Nat) (m : BitVec 8) (r : BlkRun) : (s.setRun p m r).domains = s.domains := rfl
@[simp] theorem State.setRun_sideband (s : State) (p : Nat) (m : BitVec 8) (r : BlkRun) : (s.setRun p m r).sideband = s.sideband := rfl
@[simp] theorem State.setRun_clocked (s : State) (p : Nat) (m : BitVec 8) (r : BlkRun) : (s.setRun p m r).clocked = s.clocked := rfl
@[simp] theorem State.setRun_uncal (s : State) (p : Nat) (m : BitVec 8) (r : BlkRun) : (s.setRun p m r).uncal = s.uncal := rfl
@[simp] theorem State.setRun_mirror (s : State) (p : Nat) (m : BitVec 8) (r : BlkRun) : (s.setRun p m r).mirror = s.mirror := rfl
@[simp] theorem State.setRun_bankControl (s : State) (p : Nat) (m : BitVec 8) (r : BlkRun) : (s.setRun p m r).bankControl = s.bankControl := rfl
@[simp] theorem State.setRun_lostDies (s : State) (p : Nat) (m : BitVec 8) (r : BlkRun) : (s.setRun p m r).lostDies = s.lostDies := rfl
@[simp] theorem State.setRun_staged (s : State) (p : Nat) (m : BitVec 8) (r : BlkRun) : (s.setRun p m r).staged = s.staged := rfl
@[simp] theorem State.setRun_shares (s : State) (p : Nat) (m : BitVec 8) (r : BlkRun) : (s.setRun p m r).shares = s.shares := rfl
@[simp] theorem State.setRun_fwTold (s : State) (p : Nat) (m : BitVec 8) (r : BlkRun) : (s.setRun p m r).fwTold = s.fwTold := rfl
@[simp] theorem State.setRun_portAt (s : State) (p : Nat) (m : BitVec 8) (r : BlkRun) : (s.setRun p m r).portAt = s.portAt := rfl
@[simp] theorem State.setRun_portIn (s : State) (p : Nat) (m : BitVec 8) (r : BlkRun) : (s.setRun p m r).portIn = s.portIn := rfl
@[simp] theorem State.setRun_unreached (s : State) (p : Nat) (m : BitVec 8) (r : BlkRun) : (s.setRun p m r).unreached = s.unreached := rfl
@[simp] theorem State.setRun_slotTab (s : State) (p : Nat) (m : BitVec 8) (r : BlkRun) : (s.setRun p m r).slotTab = s.slotTab := rfl
@[simp] theorem State.setRun_tasks (s : State) (p : Nat) (m : BitVec 8) (r : BlkRun) : (s.setRun p m r).tasks = s.tasks := rfl
@[simp] theorem State.setRun_slotEnds (s : State) (p : Nat) (m : BitVec 8) (r : BlkRun) : (s.setRun p m r).slotEnds = s.slotEnds := rfl
@[simp] theorem State.setRun_fieldBank (s : State) (p : Nat) (m : BitVec 8) (r : BlkRun) : (s.setRun p m r).fieldBank = s.fieldBank := rfl
@[simp] theorem State.setRun_parts (s : State) (p : Nat) (m : BitVec 8) (r : BlkRun) : (s.setRun p m r).parts = s.parts := rfl
@[simp] theorem State.setRun_remap (s : State) (p : Nat) (m : BitVec 8) (r : BlkRun) : (s.setRun p m r).remap = s.remap := rfl
@[simp] theorem State.setRun_tenantRoot (s : State) (p : Nat) (m : BitVec 8) (r : BlkRun) : (s.setRun p m r).tenantRoot = s.tenantRoot := rfl
@[simp] theorem State.setRun_ownDev (s : State) (p : Nat) (m : BitVec 8) (r : BlkRun) : (s.setRun p m r).ownDev = s.ownDev := rfl
@[simp] theorem State.setRun_directory (s : State) (p : Nat) (m : BitVec 8) (r : BlkRun) : (s.setRun p m r).directory = s.directory := rfl
@[simp] theorem State.setRun_images (s : State) (p : Nat) (m : BitVec 8) (r : BlkRun) : (s.setRun p m r).images = s.images := rfl
@[simp] theorem State.setRun_shadowBank (s : State) (p : Nat) (m : BitVec 8) (r : BlkRun) : (s.setRun p m r).shadowBank = s.shadowBank := rfl
@[simp] theorem State.setRun_home (s : State) (p : Nat) (m : BitVec 8) (r : BlkRun) : (s.setRun p m r).home = s.home := rfl
@[simp] theorem State.setRun_away (s : State) (p : Nat) (m : BitVec 8) (r : BlkRun) : (s.setRun p m r).away = s.away := rfl
@[simp] theorem State.setRun_tags (s : State) (p : Nat) (m : BitVec 8) (r : BlkRun) : (s.setRun p m r).tags = s.tags := rfl
@[simp] theorem State.setRun_scrub (s : State) (p : Nat) (m : BitVec 8) (r : BlkRun) : (s.setRun p m r).scrub = s.scrub := rfl
@[simp] theorem State.setRun_dirty (s : State) (p : Nat) (m : BitVec 8) (r : BlkRun) : (s.setRun p m r).dirty = s.dirty := rfl
@[simp] theorem State.setRun_lineBufs (s : State) (p : Nat) (m : BitVec 8) (r : BlkRun) : (s.setRun p m r).lineBufs = s.lineBufs := rfl
@[simp] theorem State.setRun_fadds (s : State) (p : Nat) (m : BitVec 8) (r : BlkRun) : (s.setRun p m r).fadds = s.fadds := rfl
@[simp] theorem State.setRun_routes (s : State) (p : Nat) (m : BitVec 8) (r : BlkRun) : (s.setRun p m r).routes = s.routes := rfl
@[simp] theorem State.setRun_links (s : State) (p : Nat) (m : BitVec 8) (r : BlkRun) : (s.setRun p m r).links = s.links := rfl
@[simp] theorem State.setRun_endpoints (s : State) (p : Nat) (m : BitVec 8) (r : BlkRun) : (s.setRun p m r).endpoints = s.endpoints := rfl
@[simp] theorem State.setRun_errs (s : State) (p : Nat) (m : BitVec 8) (r : BlkRun) : (s.setRun p m r).errs = s.errs := rfl
@[simp] theorem State.setRun_life (s : State) (p : Nat) (m : BitVec 8) (r : BlkRun) : (s.setRun p m r).life = s.life := rfl
@[simp] theorem State.setRun_measure (s : State) (p : Nat) (m : BitVec 8) (r : BlkRun) : (s.setRun p m r).measure = s.measure := rfl
@[simp] theorem State.setRun_keyStore (s : State) (p : Nat) (m : BitVec 8) (r : BlkRun) : (s.setRun p m r).keyStore = s.keyStore := rfl
@[simp] theorem State.setRun_fuses (s : State) (p : Nat) (m : BitVec 8) (r : BlkRun) : (s.setRun p m r).fuses = s.fuses := rfl
@[simp] theorem State.setRun_fuseVersion (s : State) (p : Nat) (m : BitVec 8) (r : BlkRun) : (s.setRun p m r).fuseVersion = s.fuseVersion := rfl
@[simp] theorem State.setRun_recovery (s : State) (p : Nat) (m : BitVec 8) (r : BlkRun) : (s.setRun p m r).recovery = s.recovery := rfl
@[simp] theorem State.setRun_bringUp (s : State) (p : Nat) (m : BitVec 8) (r : BlkRun) : (s.setRun p m r).bringUp = s.bringUp := rfl
@[simp] theorem State.setRun_pwr (s : State) (p : Nat) (m : BitVec 8) (r : BlkRun) : (s.setRun p m r).pwr = s.pwr := rfl
@[simp] theorem State.setRun_wact (s : State) (p : Nat) (m : BitVec 8) (r : BlkRun) : (s.setRun p m r).wact = s.wact := rfl
@[simp] theorem State.setRun_cap (s : State) (p : Nat) (m : BitVec 8) (r : BlkRun) : (s.setRun p m r).cap = s.cap := rfl
@[simp] theorem State.setRun_floorW (s : State) (p : Nat) (m : BitVec 8) (r : BlkRun) : (s.setRun p m r).floorW = s.floorW := rfl
@[simp] theorem State.setRun_lastCseq (s : State) (p : Nat) (m : BitVec 8) (r : BlkRun) : (s.setRun p m r).lastCseq = s.lastCseq := rfl
@[simp] theorem State.setRun_lease (s : State) (p : Nat) (m : BitVec 8) (r : BlkRun) : (s.setRun p m r).lease = s.lease := rfl
@[simp] theorem State.setRun_budgets (s : State) (p : Nat) (m : BitVec 8) (r : BlkRun) : (s.setRun p m r).budgets = s.budgets := rfl
@[simp] theorem State.setRun_budgetUsed (s : State) (p : Nat) (m : BitVec 8) (r : BlkRun) : (s.setRun p m r).budgetUsed = s.budgetUsed := rfl
@[simp] theorem State.setRun_thermal (s : State) (p : Nat) (m : BitVec 8) (r : BlkRun) : (s.setRun p m r).thermal = s.thermal := rfl
@[simp] theorem State.setRun_poweredOff (s : State) (p : Nat) (m : BitVec 8) (r : BlkRun) : (s.setRun p m r).poweredOff = s.poweredOff := rfl
@[simp] theorem State.setRun_fw (s : State) (p : Nat) (m : BitVec 8) (r : BlkRun) : (s.setRun p m r).fw = s.fw := rfl
@[simp] theorem State.setRun_wolas (s : State) (p : Nat) (m : BitVec 8) (r : BlkRun) : (s.setRun p m r).wolas = s.wolas := rfl
@[simp] theorem State.setRun_sent (s : State) (p : Nat) (m : BitVec 8) (r : BlkRun) : (s.setRun p m r).sent = s.sent := rfl
@[simp] theorem State.setRun_returned (s : State) (p : Nat) (m : BitVec 8) (r : BlkRun) : (s.setRun p m r).returned = s.returned := rfl

/-! ### State.setDomain -/

@[simp] theorem State.setDomain_cycle (s : State) (d : Nat) (x : Domain) : (s.setDomain d x).cycle = s.cycle := rfl
@[simp] theorem State.setDomain_agenda (s : State) (d : Nat) (x : Domain) : (s.setDomain d x).agenda = s.agenda := rfl
@[simp] theorem State.setDomain_inputs (s : State) (d : Nat) (x : Domain) : (s.setDomain d x).inputs = s.inputs := rfl
@[simp] theorem State.setDomain_begun (s : State) (d : Nat) (x : Domain) : (s.setDomain d x).begun = s.begun := rfl
@[simp] theorem State.setDomain_turn (s : State) (d : Nat) (x : Domain) : (s.setDomain d x).turn = s.turn := rfl
@[simp] theorem State.setDomain_cur (s : State) (d : Nat) (x : Domain) : (s.setDomain d x).cur = s.cur := rfl
@[simp] theorem State.setDomain_site (s : State) (d : Nat) (x : Domain) : (s.setDomain d x).site = s.site := rfl
@[simp] theorem State.setDomain_bfaults (s : State) (d : Nat) (x : Domain) : (s.setDomain d x).bfaults = s.bfaults := rfl
@[simp] theorem State.setDomain_advs (s : State) (d : Nat) (x : Domain) : (s.setDomain d x).advs = s.advs := rfl
@[simp] theorem State.setDomain_nextId (s : State) (d : Nat) (x : Domain) : (s.setDomain d x).nextId = s.nextId := rfl
@[simp] theorem State.setDomain_freeCtr (s : State) (d : Nat) (x : Domain) : (s.setDomain d x).freeCtr = s.freeCtr := rfl
@[simp] theorem State.setDomain_latencies (s : State) (d : Nat) (x : Domain) : (s.setDomain d x).latencies = s.latencies := rfl
@[simp] theorem State.setDomain_ctxs (s : State) (d : Nat) (x : Domain) : (s.setDomain d x).ctxs = s.ctxs := rfl
@[simp] theorem State.setDomain_mem (s : State) (d : Nat) (x : Domain) : (s.setDomain d x).mem = s.mem := rfl
@[simp] theorem State.setDomain_poison (s : State) (d : Nat) (x : Domain) : (s.setDomain d x).poison = s.poison := rfl
@[simp] theorem State.setDomain_stores (s : State) (d : Nat) (x : Domain) : (s.setDomain d x).stores = s.stores := rfl
@[simp] theorem State.setDomain_fresh (s : State) (d : Nat) (x : Domain) : (s.setDomain d x).fresh = s.fresh := rfl
@[simp] theorem State.setDomain_fieldTenant (s : State) (d : Nat) (x : Domain) : (s.setDomain d x).fieldTenant = s.fieldTenant := rfl
@[simp] theorem State.setDomain_accs (s : State) (d : Nat) (x : Domain) : (s.setDomain d x).accs = s.accs := rfl
@[simp] theorem State.setDomain_cmds (s : State) (d : Nat) (x : Domain) : (s.setDomain d x).cmds = s.cmds := rfl
@[simp] theorem State.setDomain_holders (s : State) (d : Nat) (x : Domain) : (s.setDomain d x).holders = s.holders := rfl
@[simp] theorem State.setDomain_active (s : State) (d : Nat) (x : Domain) : (s.setDomain d x).active = s.active := rfl
@[simp] theorem State.setDomain_shadow (s : State) (d : Nat) (x : Domain) : (s.setDomain d x).shadow = s.shadow := rfl
@[simp] theorem State.setDomain_runs (s : State) (d : Nat) (x : Domain) : (s.setDomain d x).runs = s.runs := rfl
@[simp] theorem State.setDomain_kcnt (s : State) (d : Nat) (x : Domain) : (s.setDomain d x).kcnt = s.kcnt := rfl
@[simp] theorem State.setDomain_elems (s : State) (d : Nat) (x : Domain) : (s.setDomain d x).elems = s.elems := rfl
@[simp] theorem State.setDomain_nodeCtl (s : State) (d : Nat) (x : Domain) : (s.setDomain d x).nodeCtl = s.nodeCtl := rfl
@[simp] theorem State.setDomain_concCtl (s : State) (d : Nat) (x : Domain) : (s.setDomain d x).concCtl = s.concCtl := rfl
@[simp] theorem State.setDomain_tiles (s : State) (d : Nat) (x : Domain) : (s.setDomain d x).tiles = s.tiles := rfl
@[simp] theorem State.setDomain_writes (s : State) (d : Nat) (x : Domain) : (s.setDomain d x).writes = s.writes := rfl
@[simp] theorem State.setDomain_bq (s : State) (d : Nat) (x : Domain) : (s.setDomain d x).bq = s.bq := rfl
@[simp] theorem State.setDomain_tables (s : State) (d : Nat) (x : Domain) : (s.setDomain d x).tables = s.tables := rfl
@[simp] theorem State.setDomain_metas (s : State) (d : Nat) (x : Domain) : (s.setDomain d x).metas = s.metas := rfl
@[simp] theorem State.setDomain_streams (s : State) (d : Nat) (x : Domain) : (s.setDomain d x).streams = s.streams := rfl
@[simp] theorem State.setDomain_sluice (s : State) (d : Nat) (x : Domain) : (s.setDomain d x).sluice = s.sluice := rfl
@[simp] theorem State.setDomain_domains (s : State) (d : Nat) (x : Domain) : (s.setDomain d x).domains = Kv.set {} s.domains d x := rfl
@[simp] theorem State.setDomain_sideband (s : State) (d : Nat) (x : Domain) : (s.setDomain d x).sideband = s.sideband := rfl
@[simp] theorem State.setDomain_clocked (s : State) (d : Nat) (x : Domain) : (s.setDomain d x).clocked = s.clocked := rfl
@[simp] theorem State.setDomain_uncal (s : State) (d : Nat) (x : Domain) : (s.setDomain d x).uncal = s.uncal := rfl
@[simp] theorem State.setDomain_mirror (s : State) (d : Nat) (x : Domain) : (s.setDomain d x).mirror = s.mirror := rfl
@[simp] theorem State.setDomain_bankControl (s : State) (d : Nat) (x : Domain) : (s.setDomain d x).bankControl = s.bankControl := rfl
@[simp] theorem State.setDomain_lostDies (s : State) (d : Nat) (x : Domain) : (s.setDomain d x).lostDies = s.lostDies := rfl
@[simp] theorem State.setDomain_staged (s : State) (d : Nat) (x : Domain) : (s.setDomain d x).staged = s.staged := rfl
@[simp] theorem State.setDomain_shares (s : State) (d : Nat) (x : Domain) : (s.setDomain d x).shares = s.shares := rfl
@[simp] theorem State.setDomain_fwTold (s : State) (d : Nat) (x : Domain) : (s.setDomain d x).fwTold = s.fwTold := rfl
@[simp] theorem State.setDomain_portAt (s : State) (d : Nat) (x : Domain) : (s.setDomain d x).portAt = s.portAt := rfl
@[simp] theorem State.setDomain_portIn (s : State) (d : Nat) (x : Domain) : (s.setDomain d x).portIn = s.portIn := rfl
@[simp] theorem State.setDomain_unreached (s : State) (d : Nat) (x : Domain) : (s.setDomain d x).unreached = s.unreached := rfl
@[simp] theorem State.setDomain_slotTab (s : State) (d : Nat) (x : Domain) : (s.setDomain d x).slotTab = s.slotTab := rfl
@[simp] theorem State.setDomain_tasks (s : State) (d : Nat) (x : Domain) : (s.setDomain d x).tasks = s.tasks := rfl
@[simp] theorem State.setDomain_slotEnds (s : State) (d : Nat) (x : Domain) : (s.setDomain d x).slotEnds = s.slotEnds := rfl
@[simp] theorem State.setDomain_fieldBank (s : State) (d : Nat) (x : Domain) : (s.setDomain d x).fieldBank = s.fieldBank := rfl
@[simp] theorem State.setDomain_parts (s : State) (d : Nat) (x : Domain) : (s.setDomain d x).parts = s.parts := rfl
@[simp] theorem State.setDomain_remap (s : State) (d : Nat) (x : Domain) : (s.setDomain d x).remap = s.remap := rfl
@[simp] theorem State.setDomain_tenantRoot (s : State) (d : Nat) (x : Domain) : (s.setDomain d x).tenantRoot = s.tenantRoot := rfl
@[simp] theorem State.setDomain_ownDev (s : State) (d : Nat) (x : Domain) : (s.setDomain d x).ownDev = s.ownDev := rfl
@[simp] theorem State.setDomain_directory (s : State) (d : Nat) (x : Domain) : (s.setDomain d x).directory = s.directory := rfl
@[simp] theorem State.setDomain_images (s : State) (d : Nat) (x : Domain) : (s.setDomain d x).images = s.images := rfl
@[simp] theorem State.setDomain_shadowBank (s : State) (d : Nat) (x : Domain) : (s.setDomain d x).shadowBank = s.shadowBank := rfl
@[simp] theorem State.setDomain_home (s : State) (d : Nat) (x : Domain) : (s.setDomain d x).home = s.home := rfl
@[simp] theorem State.setDomain_away (s : State) (d : Nat) (x : Domain) : (s.setDomain d x).away = s.away := rfl
@[simp] theorem State.setDomain_tags (s : State) (d : Nat) (x : Domain) : (s.setDomain d x).tags = s.tags := rfl
@[simp] theorem State.setDomain_scrub (s : State) (d : Nat) (x : Domain) : (s.setDomain d x).scrub = s.scrub := rfl
@[simp] theorem State.setDomain_dirty (s : State) (d : Nat) (x : Domain) : (s.setDomain d x).dirty = s.dirty := rfl
@[simp] theorem State.setDomain_lineBufs (s : State) (d : Nat) (x : Domain) : (s.setDomain d x).lineBufs = s.lineBufs := rfl
@[simp] theorem State.setDomain_fadds (s : State) (d : Nat) (x : Domain) : (s.setDomain d x).fadds = s.fadds := rfl
@[simp] theorem State.setDomain_routes (s : State) (d : Nat) (x : Domain) : (s.setDomain d x).routes = s.routes := rfl
@[simp] theorem State.setDomain_links (s : State) (d : Nat) (x : Domain) : (s.setDomain d x).links = s.links := rfl
@[simp] theorem State.setDomain_endpoints (s : State) (d : Nat) (x : Domain) : (s.setDomain d x).endpoints = s.endpoints := rfl
@[simp] theorem State.setDomain_errs (s : State) (d : Nat) (x : Domain) : (s.setDomain d x).errs = s.errs := rfl
@[simp] theorem State.setDomain_life (s : State) (d : Nat) (x : Domain) : (s.setDomain d x).life = s.life := rfl
@[simp] theorem State.setDomain_measure (s : State) (d : Nat) (x : Domain) : (s.setDomain d x).measure = s.measure := rfl
@[simp] theorem State.setDomain_keyStore (s : State) (d : Nat) (x : Domain) : (s.setDomain d x).keyStore = s.keyStore := rfl
@[simp] theorem State.setDomain_fuses (s : State) (d : Nat) (x : Domain) : (s.setDomain d x).fuses = s.fuses := rfl
@[simp] theorem State.setDomain_fuseVersion (s : State) (d : Nat) (x : Domain) : (s.setDomain d x).fuseVersion = s.fuseVersion := rfl
@[simp] theorem State.setDomain_recovery (s : State) (d : Nat) (x : Domain) : (s.setDomain d x).recovery = s.recovery := rfl
@[simp] theorem State.setDomain_bringUp (s : State) (d : Nat) (x : Domain) : (s.setDomain d x).bringUp = s.bringUp := rfl
@[simp] theorem State.setDomain_pwr (s : State) (d : Nat) (x : Domain) : (s.setDomain d x).pwr = s.pwr := rfl
@[simp] theorem State.setDomain_wact (s : State) (d : Nat) (x : Domain) : (s.setDomain d x).wact = s.wact := rfl
@[simp] theorem State.setDomain_cap (s : State) (d : Nat) (x : Domain) : (s.setDomain d x).cap = s.cap := rfl
@[simp] theorem State.setDomain_floorW (s : State) (d : Nat) (x : Domain) : (s.setDomain d x).floorW = s.floorW := rfl
@[simp] theorem State.setDomain_lastCseq (s : State) (d : Nat) (x : Domain) : (s.setDomain d x).lastCseq = s.lastCseq := rfl
@[simp] theorem State.setDomain_lease (s : State) (d : Nat) (x : Domain) : (s.setDomain d x).lease = s.lease := rfl
@[simp] theorem State.setDomain_budgets (s : State) (d : Nat) (x : Domain) : (s.setDomain d x).budgets = s.budgets := rfl
@[simp] theorem State.setDomain_budgetUsed (s : State) (d : Nat) (x : Domain) : (s.setDomain d x).budgetUsed = s.budgetUsed := rfl
@[simp] theorem State.setDomain_thermal (s : State) (d : Nat) (x : Domain) : (s.setDomain d x).thermal = s.thermal := rfl
@[simp] theorem State.setDomain_poweredOff (s : State) (d : Nat) (x : Domain) : (s.setDomain d x).poweredOff = s.poweredOff := rfl
@[simp] theorem State.setDomain_fw (s : State) (d : Nat) (x : Domain) : (s.setDomain d x).fw = s.fw := rfl
@[simp] theorem State.setDomain_wolas (s : State) (d : Nat) (x : Domain) : (s.setDomain d x).wolas = s.wolas := rfl
@[simp] theorem State.setDomain_sent (s : State) (d : Nat) (x : Domain) : (s.setDomain d x).sent = s.sent := rfl
@[simp] theorem State.setDomain_returned (s : State) (d : Nat) (x : Domain) : (s.setDomain d x).returned = s.returned := rfl

/-! ### State.writeByte -/

@[simp] theorem State.writeByte_cycle (s : State) (a : Nat) (b : Byte) : (s.writeByte a b).cycle = s.cycle := rfl
@[simp] theorem State.writeByte_agenda (s : State) (a : Nat) (b : Byte) : (s.writeByte a b).agenda = s.agenda := rfl
@[simp] theorem State.writeByte_inputs (s : State) (a : Nat) (b : Byte) : (s.writeByte a b).inputs = s.inputs := rfl
@[simp] theorem State.writeByte_begun (s : State) (a : Nat) (b : Byte) : (s.writeByte a b).begun = s.begun := rfl
@[simp] theorem State.writeByte_turn (s : State) (a : Nat) (b : Byte) : (s.writeByte a b).turn = s.turn := rfl
@[simp] theorem State.writeByte_cur (s : State) (a : Nat) (b : Byte) : (s.writeByte a b).cur = s.cur := rfl
@[simp] theorem State.writeByte_site (s : State) (a : Nat) (b : Byte) : (s.writeByte a b).site = s.site := rfl
@[simp] theorem State.writeByte_bfaults (s : State) (a : Nat) (b : Byte) : (s.writeByte a b).bfaults = s.bfaults := rfl
@[simp] theorem State.writeByte_advs (s : State) (a : Nat) (b : Byte) : (s.writeByte a b).advs = s.advs := rfl
@[simp] theorem State.writeByte_nextId (s : State) (a : Nat) (b : Byte) : (s.writeByte a b).nextId = s.nextId := rfl
@[simp] theorem State.writeByte_freeCtr (s : State) (a : Nat) (b : Byte) : (s.writeByte a b).freeCtr = s.freeCtr := rfl
@[simp] theorem State.writeByte_latencies (s : State) (a : Nat) (b : Byte) : (s.writeByte a b).latencies = s.latencies := rfl
@[simp] theorem State.writeByte_ctxs (s : State) (a : Nat) (b : Byte) : (s.writeByte a b).ctxs = s.ctxs := rfl
@[simp] theorem State.writeByte_mem (s : State) (a : Nat) (b : Byte) : (s.writeByte a b).mem = Kv.set 0 s.mem a b := rfl
@[simp] theorem State.writeByte_poison (s : State) (a : Nat) (b : Byte) : (s.writeByte a b).poison = Kv.set false s.poison a false := rfl
@[simp] theorem State.writeByte_stores (s : State) (a : Nat) (b : Byte) : (s.writeByte a b).stores = s.stores := rfl
@[simp] theorem State.writeByte_fresh (s : State) (a : Nat) (b : Byte) : (s.writeByte a b).fresh = s.fresh := rfl
@[simp] theorem State.writeByte_fieldTenant (s : State) (a : Nat) (b : Byte) : (s.writeByte a b).fieldTenant = s.fieldTenant := rfl
@[simp] theorem State.writeByte_accs (s : State) (a : Nat) (b : Byte) : (s.writeByte a b).accs = s.accs := rfl
@[simp] theorem State.writeByte_cmds (s : State) (a : Nat) (b : Byte) : (s.writeByte a b).cmds = s.cmds := rfl
@[simp] theorem State.writeByte_holders (s : State) (a : Nat) (b : Byte) : (s.writeByte a b).holders = s.holders := rfl
@[simp] theorem State.writeByte_active (s : State) (a : Nat) (b : Byte) : (s.writeByte a b).active = s.active := rfl
@[simp] theorem State.writeByte_shadow (s : State) (a : Nat) (b : Byte) : (s.writeByte a b).shadow = s.shadow := rfl
@[simp] theorem State.writeByte_runs (s : State) (a : Nat) (b : Byte) : (s.writeByte a b).runs = s.runs := rfl
@[simp] theorem State.writeByte_kcnt (s : State) (a : Nat) (b : Byte) : (s.writeByte a b).kcnt = s.kcnt := rfl
@[simp] theorem State.writeByte_elems (s : State) (a : Nat) (b : Byte) : (s.writeByte a b).elems = s.elems := rfl
@[simp] theorem State.writeByte_nodeCtl (s : State) (a : Nat) (b : Byte) : (s.writeByte a b).nodeCtl = s.nodeCtl := rfl
@[simp] theorem State.writeByte_concCtl (s : State) (a : Nat) (b : Byte) : (s.writeByte a b).concCtl = s.concCtl := rfl
@[simp] theorem State.writeByte_tiles (s : State) (a : Nat) (b : Byte) : (s.writeByte a b).tiles = s.tiles := rfl
@[simp] theorem State.writeByte_writes (s : State) (a : Nat) (b : Byte) : (s.writeByte a b).writes = s.writes := rfl
@[simp] theorem State.writeByte_bq (s : State) (a : Nat) (b : Byte) : (s.writeByte a b).bq = s.bq := rfl
@[simp] theorem State.writeByte_tables (s : State) (a : Nat) (b : Byte) : (s.writeByte a b).tables = s.tables := rfl
@[simp] theorem State.writeByte_metas (s : State) (a : Nat) (b : Byte) : (s.writeByte a b).metas = s.metas := rfl
@[simp] theorem State.writeByte_streams (s : State) (a : Nat) (b : Byte) : (s.writeByte a b).streams = s.streams := rfl
@[simp] theorem State.writeByte_sluice (s : State) (a : Nat) (b : Byte) : (s.writeByte a b).sluice = s.sluice := rfl
@[simp] theorem State.writeByte_domains (s : State) (a : Nat) (b : Byte) : (s.writeByte a b).domains = s.domains := rfl
@[simp] theorem State.writeByte_sideband (s : State) (a : Nat) (b : Byte) : (s.writeByte a b).sideband = s.sideband := rfl
@[simp] theorem State.writeByte_clocked (s : State) (a : Nat) (b : Byte) : (s.writeByte a b).clocked = s.clocked := rfl
@[simp] theorem State.writeByte_uncal (s : State) (a : Nat) (b : Byte) : (s.writeByte a b).uncal = s.uncal := rfl
@[simp] theorem State.writeByte_mirror (s : State) (a : Nat) (b : Byte) : (s.writeByte a b).mirror = s.mirror := rfl
@[simp] theorem State.writeByte_bankControl (s : State) (a : Nat) (b : Byte) : (s.writeByte a b).bankControl = s.bankControl := rfl
@[simp] theorem State.writeByte_lostDies (s : State) (a : Nat) (b : Byte) : (s.writeByte a b).lostDies = s.lostDies := rfl
@[simp] theorem State.writeByte_staged (s : State) (a : Nat) (b : Byte) : (s.writeByte a b).staged = s.staged := rfl
@[simp] theorem State.writeByte_shares (s : State) (a : Nat) (b : Byte) : (s.writeByte a b).shares = s.shares := rfl
@[simp] theorem State.writeByte_fwTold (s : State) (a : Nat) (b : Byte) : (s.writeByte a b).fwTold = s.fwTold := rfl
@[simp] theorem State.writeByte_portAt (s : State) (a : Nat) (b : Byte) : (s.writeByte a b).portAt = s.portAt := rfl
@[simp] theorem State.writeByte_portIn (s : State) (a : Nat) (b : Byte) : (s.writeByte a b).portIn = s.portIn := rfl
@[simp] theorem State.writeByte_unreached (s : State) (a : Nat) (b : Byte) : (s.writeByte a b).unreached = s.unreached := rfl
@[simp] theorem State.writeByte_slotTab (s : State) (a : Nat) (b : Byte) : (s.writeByte a b).slotTab = s.slotTab := rfl
@[simp] theorem State.writeByte_tasks (s : State) (a : Nat) (b : Byte) : (s.writeByte a b).tasks = s.tasks := rfl
@[simp] theorem State.writeByte_slotEnds (s : State) (a : Nat) (b : Byte) : (s.writeByte a b).slotEnds = s.slotEnds := rfl
@[simp] theorem State.writeByte_fieldBank (s : State) (a : Nat) (b : Byte) : (s.writeByte a b).fieldBank = s.fieldBank := rfl
@[simp] theorem State.writeByte_parts (s : State) (a : Nat) (b : Byte) : (s.writeByte a b).parts = s.parts := rfl
@[simp] theorem State.writeByte_remap (s : State) (a : Nat) (b : Byte) : (s.writeByte a b).remap = s.remap := rfl
@[simp] theorem State.writeByte_tenantRoot (s : State) (a : Nat) (b : Byte) : (s.writeByte a b).tenantRoot = s.tenantRoot := rfl
@[simp] theorem State.writeByte_ownDev (s : State) (a : Nat) (b : Byte) : (s.writeByte a b).ownDev = s.ownDev := rfl
@[simp] theorem State.writeByte_directory (s : State) (a : Nat) (b : Byte) : (s.writeByte a b).directory = s.directory := rfl
@[simp] theorem State.writeByte_images (s : State) (a : Nat) (b : Byte) : (s.writeByte a b).images = s.images := rfl
@[simp] theorem State.writeByte_shadowBank (s : State) (a : Nat) (b : Byte) : (s.writeByte a b).shadowBank = s.shadowBank := rfl
@[simp] theorem State.writeByte_home (s : State) (a : Nat) (b : Byte) : (s.writeByte a b).home = s.home := rfl
@[simp] theorem State.writeByte_away (s : State) (a : Nat) (b : Byte) : (s.writeByte a b).away = s.away := rfl
@[simp] theorem State.writeByte_tags (s : State) (a : Nat) (b : Byte) : (s.writeByte a b).tags = s.tags := rfl
@[simp] theorem State.writeByte_scrub (s : State) (a : Nat) (b : Byte) : (s.writeByte a b).scrub = s.scrub := rfl
@[simp] theorem State.writeByte_dirty (s : State) (a : Nat) (b : Byte) : (s.writeByte a b).dirty = s.dirty := rfl
@[simp] theorem State.writeByte_lineBufs (s : State) (a : Nat) (b : Byte) : (s.writeByte a b).lineBufs = s.lineBufs := rfl
@[simp] theorem State.writeByte_fadds (s : State) (a : Nat) (b : Byte) : (s.writeByte a b).fadds = s.fadds := rfl
@[simp] theorem State.writeByte_routes (s : State) (a : Nat) (b : Byte) : (s.writeByte a b).routes = s.routes := rfl
@[simp] theorem State.writeByte_links (s : State) (a : Nat) (b : Byte) : (s.writeByte a b).links = s.links := rfl
@[simp] theorem State.writeByte_endpoints (s : State) (a : Nat) (b : Byte) : (s.writeByte a b).endpoints = s.endpoints := rfl
@[simp] theorem State.writeByte_errs (s : State) (a : Nat) (b : Byte) : (s.writeByte a b).errs = s.errs := rfl
@[simp] theorem State.writeByte_life (s : State) (a : Nat) (b : Byte) : (s.writeByte a b).life = s.life := rfl
@[simp] theorem State.writeByte_measure (s : State) (a : Nat) (b : Byte) : (s.writeByte a b).measure = s.measure := rfl
@[simp] theorem State.writeByte_keyStore (s : State) (a : Nat) (b : Byte) : (s.writeByte a b).keyStore = s.keyStore := rfl
@[simp] theorem State.writeByte_fuses (s : State) (a : Nat) (b : Byte) : (s.writeByte a b).fuses = s.fuses := rfl
@[simp] theorem State.writeByte_fuseVersion (s : State) (a : Nat) (b : Byte) : (s.writeByte a b).fuseVersion = s.fuseVersion := rfl
@[simp] theorem State.writeByte_recovery (s : State) (a : Nat) (b : Byte) : (s.writeByte a b).recovery = s.recovery := rfl
@[simp] theorem State.writeByte_bringUp (s : State) (a : Nat) (b : Byte) : (s.writeByte a b).bringUp = s.bringUp := rfl
@[simp] theorem State.writeByte_pwr (s : State) (a : Nat) (b : Byte) : (s.writeByte a b).pwr = s.pwr := rfl
@[simp] theorem State.writeByte_wact (s : State) (a : Nat) (b : Byte) : (s.writeByte a b).wact = s.wact := rfl
@[simp] theorem State.writeByte_cap (s : State) (a : Nat) (b : Byte) : (s.writeByte a b).cap = s.cap := rfl
@[simp] theorem State.writeByte_floorW (s : State) (a : Nat) (b : Byte) : (s.writeByte a b).floorW = s.floorW := rfl
@[simp] theorem State.writeByte_lastCseq (s : State) (a : Nat) (b : Byte) : (s.writeByte a b).lastCseq = s.lastCseq := rfl
@[simp] theorem State.writeByte_lease (s : State) (a : Nat) (b : Byte) : (s.writeByte a b).lease = s.lease := rfl
@[simp] theorem State.writeByte_budgets (s : State) (a : Nat) (b : Byte) : (s.writeByte a b).budgets = s.budgets := rfl
@[simp] theorem State.writeByte_budgetUsed (s : State) (a : Nat) (b : Byte) : (s.writeByte a b).budgetUsed = s.budgetUsed := rfl
@[simp] theorem State.writeByte_thermal (s : State) (a : Nat) (b : Byte) : (s.writeByte a b).thermal = s.thermal := rfl
@[simp] theorem State.writeByte_poweredOff (s : State) (a : Nat) (b : Byte) : (s.writeByte a b).poweredOff = s.poweredOff := rfl
@[simp] theorem State.writeByte_fw (s : State) (a : Nat) (b : Byte) : (s.writeByte a b).fw = s.fw := rfl
@[simp] theorem State.writeByte_wolas (s : State) (a : Nat) (b : Byte) : (s.writeByte a b).wolas = s.wolas := rfl
@[simp] theorem State.writeByte_sent (s : State) (a : Nat) (b : Byte) : (s.writeByte a b).sent = s.sent := rfl
@[simp] theorem State.writeByte_returned (s : State) (a : Nat) (b : Byte) : (s.writeByte a b).returned = s.returned := rfl

/-! ### State.wipe -/

@[simp] theorem State.wipe_cycle (s : State) (a n : Nat) : (s.wipe a n).cycle = s.cycle := rfl
@[simp] theorem State.wipe_agenda (s : State) (a n : Nat) : (s.wipe a n).agenda = s.agenda := rfl
@[simp] theorem State.wipe_inputs (s : State) (a n : Nat) : (s.wipe a n).inputs = s.inputs := rfl
@[simp] theorem State.wipe_begun (s : State) (a n : Nat) : (s.wipe a n).begun = s.begun := rfl
@[simp] theorem State.wipe_turn (s : State) (a n : Nat) : (s.wipe a n).turn = s.turn := rfl
@[simp] theorem State.wipe_cur (s : State) (a n : Nat) : (s.wipe a n).cur = s.cur := rfl
@[simp] theorem State.wipe_site (s : State) (a n : Nat) : (s.wipe a n).site = s.site := rfl
@[simp] theorem State.wipe_bfaults (s : State) (a n : Nat) : (s.wipe a n).bfaults = s.bfaults := rfl
@[simp] theorem State.wipe_advs (s : State) (a n : Nat) : (s.wipe a n).advs = s.advs := rfl
@[simp] theorem State.wipe_nextId (s : State) (a n : Nat) : (s.wipe a n).nextId = s.nextId := rfl
@[simp] theorem State.wipe_freeCtr (s : State) (a n : Nat) : (s.wipe a n).freeCtr = s.freeCtr := rfl
@[simp] theorem State.wipe_latencies (s : State) (a n : Nat) : (s.wipe a n).latencies = s.latencies := rfl
@[simp] theorem State.wipe_ctxs (s : State) (a n : Nat) : (s.wipe a n).ctxs = s.ctxs := rfl
@[simp] theorem State.wipe_mem (s : State) (a n : Nat) :
    (s.wipe a n).mem = s.mem.filter fun e => !(decide (a ≤ e.1) && decide (e.1 < a + n)) := rfl
@[simp] theorem State.wipe_poison (s : State) (a n : Nat) :
    (s.wipe a n).poison = s.poison.filter fun e => !(decide (a ≤ e.1) && decide (e.1 < a + n)) := rfl
@[simp] theorem State.wipe_stores (s : State) (a n : Nat) :
    (s.wipe a n).stores = s.stores.filter fun e => !(decide (a ≤ e.2.1) && decide (e.2.1 < a + n)) := rfl
@[simp] theorem State.wipe_fresh (s : State) (a n : Nat) :
    (s.wipe a n).fresh = s.fresh.filter fun e => !(decide (a ≤ e.2.1) && decide (e.2.1 < a + n)) := rfl
@[simp] theorem State.wipe_fieldTenant (s : State) (a n : Nat) : (s.wipe a n).fieldTenant = s.fieldTenant := rfl
@[simp] theorem State.wipe_accs (s : State) (a n : Nat) : (s.wipe a n).accs = s.accs := rfl
@[simp] theorem State.wipe_cmds (s : State) (a n : Nat) : (s.wipe a n).cmds = s.cmds := rfl
@[simp] theorem State.wipe_holders (s : State) (a n : Nat) : (s.wipe a n).holders = s.holders := rfl
@[simp] theorem State.wipe_active (s : State) (a n : Nat) : (s.wipe a n).active = s.active := rfl
@[simp] theorem State.wipe_shadow (s : State) (a n : Nat) : (s.wipe a n).shadow = s.shadow := rfl
@[simp] theorem State.wipe_runs (s : State) (a n : Nat) : (s.wipe a n).runs = s.runs := rfl
@[simp] theorem State.wipe_kcnt (s : State) (a n : Nat) : (s.wipe a n).kcnt = s.kcnt := rfl
@[simp] theorem State.wipe_elems (s : State) (a n : Nat) : (s.wipe a n).elems = s.elems := rfl
@[simp] theorem State.wipe_nodeCtl (s : State) (a n : Nat) : (s.wipe a n).nodeCtl = s.nodeCtl := rfl
@[simp] theorem State.wipe_concCtl (s : State) (a n : Nat) : (s.wipe a n).concCtl = s.concCtl := rfl
@[simp] theorem State.wipe_tiles (s : State) (a n : Nat) : (s.wipe a n).tiles = s.tiles := rfl
@[simp] theorem State.wipe_writes (s : State) (a n : Nat) : (s.wipe a n).writes = s.writes := rfl
@[simp] theorem State.wipe_bq (s : State) (a n : Nat) : (s.wipe a n).bq = s.bq := rfl
@[simp] theorem State.wipe_tables (s : State) (a n : Nat) : (s.wipe a n).tables = s.tables := rfl
@[simp] theorem State.wipe_metas (s : State) (a n : Nat) : (s.wipe a n).metas = s.metas := rfl
@[simp] theorem State.wipe_streams (s : State) (a n : Nat) : (s.wipe a n).streams = s.streams := rfl
@[simp] theorem State.wipe_sluice (s : State) (a n : Nat) : (s.wipe a n).sluice = s.sluice := rfl
@[simp] theorem State.wipe_domains (s : State) (a n : Nat) : (s.wipe a n).domains = s.domains := rfl
@[simp] theorem State.wipe_sideband (s : State) (a n : Nat) : (s.wipe a n).sideband = s.sideband := rfl
@[simp] theorem State.wipe_clocked (s : State) (a n : Nat) : (s.wipe a n).clocked = s.clocked := rfl
@[simp] theorem State.wipe_uncal (s : State) (a n : Nat) : (s.wipe a n).uncal = s.uncal := rfl
@[simp] theorem State.wipe_mirror (s : State) (a n : Nat) : (s.wipe a n).mirror = s.mirror := rfl
@[simp] theorem State.wipe_bankControl (s : State) (a n : Nat) : (s.wipe a n).bankControl = s.bankControl := rfl
@[simp] theorem State.wipe_lostDies (s : State) (a n : Nat) : (s.wipe a n).lostDies = s.lostDies := rfl
@[simp] theorem State.wipe_staged (s : State) (a n : Nat) : (s.wipe a n).staged = s.staged := rfl
@[simp] theorem State.wipe_shares (s : State) (a n : Nat) : (s.wipe a n).shares = s.shares := rfl
@[simp] theorem State.wipe_fwTold (s : State) (a n : Nat) : (s.wipe a n).fwTold = s.fwTold := rfl
@[simp] theorem State.wipe_portAt (s : State) (a n : Nat) : (s.wipe a n).portAt = s.portAt := rfl
@[simp] theorem State.wipe_portIn (s : State) (a n : Nat) : (s.wipe a n).portIn = s.portIn := rfl
@[simp] theorem State.wipe_unreached (s : State) (a n : Nat) : (s.wipe a n).unreached = s.unreached := rfl
@[simp] theorem State.wipe_slotTab (s : State) (a n : Nat) : (s.wipe a n).slotTab = s.slotTab := rfl
@[simp] theorem State.wipe_tasks (s : State) (a n : Nat) : (s.wipe a n).tasks = s.tasks := rfl
@[simp] theorem State.wipe_slotEnds (s : State) (a n : Nat) : (s.wipe a n).slotEnds = s.slotEnds := rfl
@[simp] theorem State.wipe_fieldBank (s : State) (a n : Nat) : (s.wipe a n).fieldBank = s.fieldBank := rfl
@[simp] theorem State.wipe_parts (s : State) (a n : Nat) : (s.wipe a n).parts = s.parts := rfl
@[simp] theorem State.wipe_remap (s : State) (a n : Nat) : (s.wipe a n).remap = s.remap := rfl
@[simp] theorem State.wipe_tenantRoot (s : State) (a n : Nat) : (s.wipe a n).tenantRoot = s.tenantRoot := rfl
@[simp] theorem State.wipe_ownDev (s : State) (a n : Nat) : (s.wipe a n).ownDev = s.ownDev := rfl
@[simp] theorem State.wipe_directory (s : State) (a n : Nat) : (s.wipe a n).directory = s.directory := rfl
@[simp] theorem State.wipe_images (s : State) (a n : Nat) : (s.wipe a n).images = s.images := rfl
@[simp] theorem State.wipe_shadowBank (s : State) (a n : Nat) : (s.wipe a n).shadowBank = s.shadowBank := rfl
@[simp] theorem State.wipe_home (s : State) (a n : Nat) : (s.wipe a n).home = s.home := rfl
@[simp] theorem State.wipe_away (s : State) (a n : Nat) : (s.wipe a n).away = s.away := rfl
@[simp] theorem State.wipe_tags (s : State) (a n : Nat) : (s.wipe a n).tags = s.tags := rfl
@[simp] theorem State.wipe_scrub (s : State) (a n : Nat) : (s.wipe a n).scrub = s.scrub := rfl
@[simp] theorem State.wipe_dirty (s : State) (a n : Nat) : (s.wipe a n).dirty = s.dirty := rfl
@[simp] theorem State.wipe_lineBufs (s : State) (a n : Nat) : (s.wipe a n).lineBufs = s.lineBufs := rfl
@[simp] theorem State.wipe_fadds (s : State) (a n : Nat) : (s.wipe a n).fadds = s.fadds := rfl
@[simp] theorem State.wipe_routes (s : State) (a n : Nat) : (s.wipe a n).routes = s.routes := rfl
@[simp] theorem State.wipe_links (s : State) (a n : Nat) : (s.wipe a n).links = s.links := rfl
@[simp] theorem State.wipe_endpoints (s : State) (a n : Nat) : (s.wipe a n).endpoints = s.endpoints := rfl
@[simp] theorem State.wipe_errs (s : State) (a n : Nat) : (s.wipe a n).errs = s.errs := rfl
@[simp] theorem State.wipe_life (s : State) (a n : Nat) : (s.wipe a n).life = s.life := rfl
@[simp] theorem State.wipe_measure (s : State) (a n : Nat) : (s.wipe a n).measure = s.measure := rfl
@[simp] theorem State.wipe_keyStore (s : State) (a n : Nat) : (s.wipe a n).keyStore = s.keyStore := rfl
@[simp] theorem State.wipe_fuses (s : State) (a n : Nat) : (s.wipe a n).fuses = s.fuses := rfl
@[simp] theorem State.wipe_fuseVersion (s : State) (a n : Nat) : (s.wipe a n).fuseVersion = s.fuseVersion := rfl
@[simp] theorem State.wipe_recovery (s : State) (a n : Nat) : (s.wipe a n).recovery = s.recovery := rfl
@[simp] theorem State.wipe_bringUp (s : State) (a n : Nat) : (s.wipe a n).bringUp = s.bringUp := rfl
@[simp] theorem State.wipe_pwr (s : State) (a n : Nat) : (s.wipe a n).pwr = s.pwr := rfl
@[simp] theorem State.wipe_wact (s : State) (a n : Nat) : (s.wipe a n).wact = s.wact := rfl
@[simp] theorem State.wipe_cap (s : State) (a n : Nat) : (s.wipe a n).cap = s.cap := rfl
@[simp] theorem State.wipe_floorW (s : State) (a n : Nat) : (s.wipe a n).floorW = s.floorW := rfl
@[simp] theorem State.wipe_lastCseq (s : State) (a n : Nat) : (s.wipe a n).lastCseq = s.lastCseq := rfl
@[simp] theorem State.wipe_lease (s : State) (a n : Nat) : (s.wipe a n).lease = s.lease := rfl
@[simp] theorem State.wipe_budgets (s : State) (a n : Nat) : (s.wipe a n).budgets = s.budgets := rfl
@[simp] theorem State.wipe_budgetUsed (s : State) (a n : Nat) : (s.wipe a n).budgetUsed = s.budgetUsed := rfl
@[simp] theorem State.wipe_thermal (s : State) (a n : Nat) : (s.wipe a n).thermal = s.thermal := rfl
@[simp] theorem State.wipe_poweredOff (s : State) (a n : Nat) : (s.wipe a n).poweredOff = s.poweredOff := rfl
@[simp] theorem State.wipe_fw (s : State) (a n : Nat) : (s.wipe a n).fw = s.fw := rfl
@[simp] theorem State.wipe_wolas (s : State) (a n : Nat) : (s.wipe a n).wolas = s.wolas := rfl
@[simp] theorem State.wipe_sent (s : State) (a n : Nat) : (s.wipe a n).sent = s.sent := rfl
@[simp] theorem State.wipe_returned (s : State) (a n : Nat) : (s.wipe a n).returned = s.returned := rfl

/-! ### State.emit -/

@[simp] theorem State.emit_cycle (s : State) (e : FwEvent) : (s.emit e).cycle = s.cycle := rfl
@[simp] theorem State.emit_agenda (s : State) (e : FwEvent) : (s.emit e).agenda = s.agenda := rfl
@[simp] theorem State.emit_inputs (s : State) (e : FwEvent) : (s.emit e).inputs = s.inputs := rfl
@[simp] theorem State.emit_begun (s : State) (e : FwEvent) : (s.emit e).begun = s.begun := rfl
@[simp] theorem State.emit_turn (s : State) (e : FwEvent) : (s.emit e).turn = s.turn := rfl
@[simp] theorem State.emit_cur (s : State) (e : FwEvent) : (s.emit e).cur = s.cur := rfl
@[simp] theorem State.emit_site (s : State) (e : FwEvent) : (s.emit e).site = s.site := rfl
@[simp] theorem State.emit_bfaults (s : State) (e : FwEvent) : (s.emit e).bfaults = s.bfaults := rfl
@[simp] theorem State.emit_advs (s : State) (e : FwEvent) : (s.emit e).advs = s.advs := rfl
@[simp] theorem State.emit_nextId (s : State) (e : FwEvent) : (s.emit e).nextId = s.nextId := rfl
@[simp] theorem State.emit_freeCtr (s : State) (e : FwEvent) : (s.emit e).freeCtr = s.freeCtr := rfl
@[simp] theorem State.emit_latencies (s : State) (e : FwEvent) : (s.emit e).latencies = s.latencies := rfl
@[simp] theorem State.emit_ctxs (s : State) (e : FwEvent) : (s.emit e).ctxs = s.ctxs := rfl
@[simp] theorem State.emit_mem (s : State) (e : FwEvent) : (s.emit e).mem = s.mem := rfl
@[simp] theorem State.emit_poison (s : State) (e : FwEvent) : (s.emit e).poison = s.poison := rfl
@[simp] theorem State.emit_stores (s : State) (e : FwEvent) : (s.emit e).stores = s.stores := rfl
@[simp] theorem State.emit_fresh (s : State) (e : FwEvent) : (s.emit e).fresh = s.fresh := rfl
@[simp] theorem State.emit_fieldTenant (s : State) (e : FwEvent) : (s.emit e).fieldTenant = s.fieldTenant := rfl
@[simp] theorem State.emit_accs (s : State) (e : FwEvent) : (s.emit e).accs = s.accs := rfl
@[simp] theorem State.emit_cmds (s : State) (e : FwEvent) : (s.emit e).cmds = s.cmds := rfl
@[simp] theorem State.emit_holders (s : State) (e : FwEvent) : (s.emit e).holders = s.holders := rfl
@[simp] theorem State.emit_active (s : State) (e : FwEvent) : (s.emit e).active = s.active := rfl
@[simp] theorem State.emit_shadow (s : State) (e : FwEvent) : (s.emit e).shadow = s.shadow := rfl
@[simp] theorem State.emit_runs (s : State) (e : FwEvent) : (s.emit e).runs = s.runs := rfl
@[simp] theorem State.emit_kcnt (s : State) (e : FwEvent) : (s.emit e).kcnt = s.kcnt := rfl
@[simp] theorem State.emit_elems (s : State) (e : FwEvent) : (s.emit e).elems = s.elems := rfl
@[simp] theorem State.emit_nodeCtl (s : State) (e : FwEvent) : (s.emit e).nodeCtl = s.nodeCtl := rfl
@[simp] theorem State.emit_concCtl (s : State) (e : FwEvent) : (s.emit e).concCtl = s.concCtl := rfl
@[simp] theorem State.emit_tiles (s : State) (e : FwEvent) : (s.emit e).tiles = s.tiles := rfl
@[simp] theorem State.emit_writes (s : State) (e : FwEvent) : (s.emit e).writes = s.writes := rfl
@[simp] theorem State.emit_bq (s : State) (e : FwEvent) : (s.emit e).bq = s.bq := rfl
@[simp] theorem State.emit_tables (s : State) (e : FwEvent) : (s.emit e).tables = s.tables := rfl
@[simp] theorem State.emit_metas (s : State) (e : FwEvent) : (s.emit e).metas = s.metas := rfl
@[simp] theorem State.emit_streams (s : State) (e : FwEvent) : (s.emit e).streams = s.streams := rfl
@[simp] theorem State.emit_sluice (s : State) (e : FwEvent) : (s.emit e).sluice = s.sluice := rfl
@[simp] theorem State.emit_domains (s : State) (e : FwEvent) : (s.emit e).domains = s.domains := rfl
@[simp] theorem State.emit_sideband (s : State) (e : FwEvent) : (s.emit e).sideband = s.sideband := rfl
@[simp] theorem State.emit_clocked (s : State) (e : FwEvent) : (s.emit e).clocked = s.clocked := rfl
@[simp] theorem State.emit_uncal (s : State) (e : FwEvent) : (s.emit e).uncal = s.uncal := rfl
@[simp] theorem State.emit_mirror (s : State) (e : FwEvent) : (s.emit e).mirror = s.mirror := rfl
@[simp] theorem State.emit_bankControl (s : State) (e : FwEvent) : (s.emit e).bankControl = s.bankControl := rfl
@[simp] theorem State.emit_lostDies (s : State) (e : FwEvent) : (s.emit e).lostDies = s.lostDies := rfl
@[simp] theorem State.emit_staged (s : State) (e : FwEvent) : (s.emit e).staged = s.staged := rfl
@[simp] theorem State.emit_shares (s : State) (e : FwEvent) : (s.emit e).shares = s.shares := rfl
@[simp] theorem State.emit_fwTold (s : State) (e : FwEvent) : (s.emit e).fwTold = s.fwTold := rfl
@[simp] theorem State.emit_portAt (s : State) (e : FwEvent) : (s.emit e).portAt = s.portAt := rfl
@[simp] theorem State.emit_portIn (s : State) (e : FwEvent) : (s.emit e).portIn = s.portIn := rfl
@[simp] theorem State.emit_unreached (s : State) (e : FwEvent) : (s.emit e).unreached = s.unreached := rfl
@[simp] theorem State.emit_slotTab (s : State) (e : FwEvent) : (s.emit e).slotTab = s.slotTab := rfl
@[simp] theorem State.emit_tasks (s : State) (e : FwEvent) : (s.emit e).tasks = s.tasks := rfl
@[simp] theorem State.emit_slotEnds (s : State) (e : FwEvent) : (s.emit e).slotEnds = s.slotEnds := rfl
@[simp] theorem State.emit_fieldBank (s : State) (e : FwEvent) : (s.emit e).fieldBank = s.fieldBank := rfl
@[simp] theorem State.emit_parts (s : State) (e : FwEvent) : (s.emit e).parts = s.parts := rfl
@[simp] theorem State.emit_remap (s : State) (e : FwEvent) : (s.emit e).remap = s.remap := rfl
@[simp] theorem State.emit_tenantRoot (s : State) (e : FwEvent) : (s.emit e).tenantRoot = s.tenantRoot := rfl
@[simp] theorem State.emit_ownDev (s : State) (e : FwEvent) : (s.emit e).ownDev = s.ownDev := rfl
@[simp] theorem State.emit_directory (s : State) (e : FwEvent) : (s.emit e).directory = s.directory := rfl
@[simp] theorem State.emit_images (s : State) (e : FwEvent) : (s.emit e).images = s.images := rfl
@[simp] theorem State.emit_shadowBank (s : State) (e : FwEvent) : (s.emit e).shadowBank = s.shadowBank := rfl
@[simp] theorem State.emit_home (s : State) (e : FwEvent) : (s.emit e).home = s.home := rfl
@[simp] theorem State.emit_away (s : State) (e : FwEvent) : (s.emit e).away = s.away := rfl
@[simp] theorem State.emit_tags (s : State) (e : FwEvent) : (s.emit e).tags = s.tags := rfl
@[simp] theorem State.emit_scrub (s : State) (e : FwEvent) : (s.emit e).scrub = s.scrub := rfl
@[simp] theorem State.emit_dirty (s : State) (e : FwEvent) : (s.emit e).dirty = s.dirty := rfl
@[simp] theorem State.emit_lineBufs (s : State) (e : FwEvent) : (s.emit e).lineBufs = s.lineBufs := rfl
@[simp] theorem State.emit_fadds (s : State) (e : FwEvent) : (s.emit e).fadds = s.fadds := rfl
@[simp] theorem State.emit_routes (s : State) (e : FwEvent) : (s.emit e).routes = s.routes := rfl
@[simp] theorem State.emit_links (s : State) (e : FwEvent) : (s.emit e).links = s.links := rfl
@[simp] theorem State.emit_endpoints (s : State) (e : FwEvent) : (s.emit e).endpoints = s.endpoints := rfl
@[simp] theorem State.emit_errs (s : State) (e : FwEvent) : (s.emit e).errs = s.errs := rfl
@[simp] theorem State.emit_life (s : State) (e : FwEvent) : (s.emit e).life = s.life := rfl
@[simp] theorem State.emit_measure (s : State) (e : FwEvent) : (s.emit e).measure = s.measure := rfl
@[simp] theorem State.emit_keyStore (s : State) (e : FwEvent) : (s.emit e).keyStore = s.keyStore := rfl
@[simp] theorem State.emit_fuses (s : State) (e : FwEvent) : (s.emit e).fuses = s.fuses := rfl
@[simp] theorem State.emit_fuseVersion (s : State) (e : FwEvent) : (s.emit e).fuseVersion = s.fuseVersion := rfl
@[simp] theorem State.emit_recovery (s : State) (e : FwEvent) : (s.emit e).recovery = s.recovery := rfl
@[simp] theorem State.emit_bringUp (s : State) (e : FwEvent) : (s.emit e).bringUp = s.bringUp := rfl
@[simp] theorem State.emit_pwr (s : State) (e : FwEvent) : (s.emit e).pwr = s.pwr := rfl
@[simp] theorem State.emit_wact (s : State) (e : FwEvent) : (s.emit e).wact = s.wact := rfl
@[simp] theorem State.emit_cap (s : State) (e : FwEvent) : (s.emit e).cap = s.cap := rfl
@[simp] theorem State.emit_floorW (s : State) (e : FwEvent) : (s.emit e).floorW = s.floorW := rfl
@[simp] theorem State.emit_lastCseq (s : State) (e : FwEvent) : (s.emit e).lastCseq = s.lastCseq := rfl
@[simp] theorem State.emit_lease (s : State) (e : FwEvent) : (s.emit e).lease = s.lease := rfl
@[simp] theorem State.emit_budgets (s : State) (e : FwEvent) : (s.emit e).budgets = s.budgets := rfl
@[simp] theorem State.emit_budgetUsed (s : State) (e : FwEvent) : (s.emit e).budgetUsed = s.budgetUsed := rfl
@[simp] theorem State.emit_thermal (s : State) (e : FwEvent) : (s.emit e).thermal = s.thermal := rfl
@[simp] theorem State.emit_poweredOff (s : State) (e : FwEvent) : (s.emit e).poweredOff = s.poweredOff := rfl
@[simp] theorem State.emit_fw (s : State) (e : FwEvent) : (s.emit e).fw = s.fw ++ [e] := rfl
@[simp] theorem State.emit_wolas (s : State) (e : FwEvent) : (s.emit e).wolas = s.wolas := rfl
@[simp] theorem State.emit_sent (s : State) (e : FwEvent) : (s.emit e).sent = s.sent := rfl
@[simp] theorem State.emit_returned (s : State) (e : FwEvent) : (s.emit e).returned = s.returned := rfl

/-! ### State.takeLatency -/

@[simp] theorem State.takeLatency_cycle (s : State) : (s.takeLatency).cycle = s.cycle := rfl
@[simp] theorem State.takeLatency_agenda (s : State) : (s.takeLatency).agenda = s.agenda := rfl
@[simp] theorem State.takeLatency_inputs (s : State) : (s.takeLatency).inputs = s.inputs := rfl
@[simp] theorem State.takeLatency_begun (s : State) : (s.takeLatency).begun = s.begun := rfl
@[simp] theorem State.takeLatency_turn (s : State) : (s.takeLatency).turn = s.turn := rfl
@[simp] theorem State.takeLatency_cur (s : State) : (s.takeLatency).cur = s.cur := rfl
@[simp] theorem State.takeLatency_site (s : State) : (s.takeLatency).site = s.site := rfl
@[simp] theorem State.takeLatency_bfaults (s : State) : (s.takeLatency).bfaults = s.bfaults := rfl
@[simp] theorem State.takeLatency_advs (s : State) : (s.takeLatency).advs = s.advs := rfl
@[simp] theorem State.takeLatency_nextId (s : State) : (s.takeLatency).nextId = s.nextId := rfl
@[simp] theorem State.takeLatency_freeCtr (s : State) : (s.takeLatency).freeCtr = s.freeCtr := rfl
@[simp] theorem State.takeLatency_latencies (s : State) : (s.takeLatency).latencies = s.latencies.tail := rfl
@[simp] theorem State.takeLatency_ctxs (s : State) : (s.takeLatency).ctxs = s.ctxs := rfl
@[simp] theorem State.takeLatency_mem (s : State) : (s.takeLatency).mem = s.mem := rfl
@[simp] theorem State.takeLatency_poison (s : State) : (s.takeLatency).poison = s.poison := rfl
@[simp] theorem State.takeLatency_stores (s : State) : (s.takeLatency).stores = s.stores := rfl
@[simp] theorem State.takeLatency_fresh (s : State) : (s.takeLatency).fresh = s.fresh := rfl
@[simp] theorem State.takeLatency_fieldTenant (s : State) : (s.takeLatency).fieldTenant = s.fieldTenant := rfl
@[simp] theorem State.takeLatency_accs (s : State) : (s.takeLatency).accs = s.accs := rfl
@[simp] theorem State.takeLatency_cmds (s : State) : (s.takeLatency).cmds = s.cmds := rfl
@[simp] theorem State.takeLatency_holders (s : State) : (s.takeLatency).holders = s.holders := rfl
@[simp] theorem State.takeLatency_active (s : State) : (s.takeLatency).active = s.active := rfl
@[simp] theorem State.takeLatency_shadow (s : State) : (s.takeLatency).shadow = s.shadow := rfl
@[simp] theorem State.takeLatency_runs (s : State) : (s.takeLatency).runs = s.runs := rfl
@[simp] theorem State.takeLatency_kcnt (s : State) : (s.takeLatency).kcnt = s.kcnt := rfl
@[simp] theorem State.takeLatency_elems (s : State) : (s.takeLatency).elems = s.elems := rfl
@[simp] theorem State.takeLatency_nodeCtl (s : State) : (s.takeLatency).nodeCtl = s.nodeCtl := rfl
@[simp] theorem State.takeLatency_concCtl (s : State) : (s.takeLatency).concCtl = s.concCtl := rfl
@[simp] theorem State.takeLatency_tiles (s : State) : (s.takeLatency).tiles = s.tiles := rfl
@[simp] theorem State.takeLatency_writes (s : State) : (s.takeLatency).writes = s.writes := rfl
@[simp] theorem State.takeLatency_bq (s : State) : (s.takeLatency).bq = s.bq := rfl
@[simp] theorem State.takeLatency_tables (s : State) : (s.takeLatency).tables = s.tables := rfl
@[simp] theorem State.takeLatency_metas (s : State) : (s.takeLatency).metas = s.metas := rfl
@[simp] theorem State.takeLatency_streams (s : State) : (s.takeLatency).streams = s.streams := rfl
@[simp] theorem State.takeLatency_sluice (s : State) : (s.takeLatency).sluice = s.sluice := rfl
@[simp] theorem State.takeLatency_domains (s : State) : (s.takeLatency).domains = s.domains := rfl
@[simp] theorem State.takeLatency_sideband (s : State) : (s.takeLatency).sideband = s.sideband := rfl
@[simp] theorem State.takeLatency_clocked (s : State) : (s.takeLatency).clocked = s.clocked := rfl
@[simp] theorem State.takeLatency_uncal (s : State) : (s.takeLatency).uncal = s.uncal := rfl
@[simp] theorem State.takeLatency_mirror (s : State) : (s.takeLatency).mirror = s.mirror := rfl
@[simp] theorem State.takeLatency_bankControl (s : State) : (s.takeLatency).bankControl = s.bankControl := rfl
@[simp] theorem State.takeLatency_lostDies (s : State) : (s.takeLatency).lostDies = s.lostDies := rfl
@[simp] theorem State.takeLatency_staged (s : State) : (s.takeLatency).staged = s.staged := rfl
@[simp] theorem State.takeLatency_shares (s : State) : (s.takeLatency).shares = s.shares := rfl
@[simp] theorem State.takeLatency_fwTold (s : State) : (s.takeLatency).fwTold = s.fwTold := rfl
@[simp] theorem State.takeLatency_portAt (s : State) : (s.takeLatency).portAt = s.portAt := rfl
@[simp] theorem State.takeLatency_portIn (s : State) : (s.takeLatency).portIn = s.portIn := rfl
@[simp] theorem State.takeLatency_unreached (s : State) : (s.takeLatency).unreached = s.unreached := rfl
@[simp] theorem State.takeLatency_slotTab (s : State) : (s.takeLatency).slotTab = s.slotTab := rfl
@[simp] theorem State.takeLatency_tasks (s : State) : (s.takeLatency).tasks = s.tasks := rfl
@[simp] theorem State.takeLatency_slotEnds (s : State) : (s.takeLatency).slotEnds = s.slotEnds := rfl
@[simp] theorem State.takeLatency_fieldBank (s : State) : (s.takeLatency).fieldBank = s.fieldBank := rfl
@[simp] theorem State.takeLatency_parts (s : State) : (s.takeLatency).parts = s.parts := rfl
@[simp] theorem State.takeLatency_remap (s : State) : (s.takeLatency).remap = s.remap := rfl
@[simp] theorem State.takeLatency_tenantRoot (s : State) : (s.takeLatency).tenantRoot = s.tenantRoot := rfl
@[simp] theorem State.takeLatency_ownDev (s : State) : (s.takeLatency).ownDev = s.ownDev := rfl
@[simp] theorem State.takeLatency_directory (s : State) : (s.takeLatency).directory = s.directory := rfl
@[simp] theorem State.takeLatency_images (s : State) : (s.takeLatency).images = s.images := rfl
@[simp] theorem State.takeLatency_shadowBank (s : State) : (s.takeLatency).shadowBank = s.shadowBank := rfl
@[simp] theorem State.takeLatency_home (s : State) : (s.takeLatency).home = s.home := rfl
@[simp] theorem State.takeLatency_away (s : State) : (s.takeLatency).away = s.away := rfl
@[simp] theorem State.takeLatency_tags (s : State) : (s.takeLatency).tags = s.tags := rfl
@[simp] theorem State.takeLatency_scrub (s : State) : (s.takeLatency).scrub = s.scrub := rfl
@[simp] theorem State.takeLatency_dirty (s : State) : (s.takeLatency).dirty = s.dirty := rfl
@[simp] theorem State.takeLatency_lineBufs (s : State) : (s.takeLatency).lineBufs = s.lineBufs := rfl
@[simp] theorem State.takeLatency_fadds (s : State) : (s.takeLatency).fadds = s.fadds := rfl
@[simp] theorem State.takeLatency_routes (s : State) : (s.takeLatency).routes = s.routes := rfl
@[simp] theorem State.takeLatency_links (s : State) : (s.takeLatency).links = s.links := rfl
@[simp] theorem State.takeLatency_endpoints (s : State) : (s.takeLatency).endpoints = s.endpoints := rfl
@[simp] theorem State.takeLatency_errs (s : State) : (s.takeLatency).errs = s.errs := rfl
@[simp] theorem State.takeLatency_life (s : State) : (s.takeLatency).life = s.life := rfl
@[simp] theorem State.takeLatency_measure (s : State) : (s.takeLatency).measure = s.measure := rfl
@[simp] theorem State.takeLatency_keyStore (s : State) : (s.takeLatency).keyStore = s.keyStore := rfl
@[simp] theorem State.takeLatency_fuses (s : State) : (s.takeLatency).fuses = s.fuses := rfl
@[simp] theorem State.takeLatency_fuseVersion (s : State) : (s.takeLatency).fuseVersion = s.fuseVersion := rfl
@[simp] theorem State.takeLatency_recovery (s : State) : (s.takeLatency).recovery = s.recovery := rfl
@[simp] theorem State.takeLatency_bringUp (s : State) : (s.takeLatency).bringUp = s.bringUp := rfl
@[simp] theorem State.takeLatency_pwr (s : State) : (s.takeLatency).pwr = s.pwr := rfl
@[simp] theorem State.takeLatency_wact (s : State) : (s.takeLatency).wact = s.wact := rfl
@[simp] theorem State.takeLatency_cap (s : State) : (s.takeLatency).cap = s.cap := rfl
@[simp] theorem State.takeLatency_floorW (s : State) : (s.takeLatency).floorW = s.floorW := rfl
@[simp] theorem State.takeLatency_lastCseq (s : State) : (s.takeLatency).lastCseq = s.lastCseq := rfl
@[simp] theorem State.takeLatency_lease (s : State) : (s.takeLatency).lease = s.lease := rfl
@[simp] theorem State.takeLatency_budgets (s : State) : (s.takeLatency).budgets = s.budgets := rfl
@[simp] theorem State.takeLatency_budgetUsed (s : State) : (s.takeLatency).budgetUsed = s.budgetUsed := rfl
@[simp] theorem State.takeLatency_thermal (s : State) : (s.takeLatency).thermal = s.thermal := rfl
@[simp] theorem State.takeLatency_poweredOff (s : State) : (s.takeLatency).poweredOff = s.poweredOff := rfl
@[simp] theorem State.takeLatency_fw (s : State) : (s.takeLatency).fw = s.fw := rfl
@[simp] theorem State.takeLatency_wolas (s : State) : (s.takeLatency).wolas = s.wolas := rfl
@[simp] theorem State.takeLatency_sent (s : State) : (s.takeLatency).sent = s.sent := rfl
@[simp] theorem State.takeLatency_returned (s : State) : (s.takeLatency).returned = s.returned := rfl

/-! ### State.takeFree -/

@[simp] theorem State.takeFree_cycle (s : State) : (s.takeFree).cycle = s.cycle := rfl
@[simp] theorem State.takeFree_agenda (s : State) : (s.takeFree).agenda = s.agenda := rfl
@[simp] theorem State.takeFree_inputs (s : State) : (s.takeFree).inputs = s.inputs := rfl
@[simp] theorem State.takeFree_begun (s : State) : (s.takeFree).begun = s.begun := rfl
@[simp] theorem State.takeFree_turn (s : State) : (s.takeFree).turn = s.turn := rfl
@[simp] theorem State.takeFree_cur (s : State) : (s.takeFree).cur = s.cur := rfl
@[simp] theorem State.takeFree_site (s : State) : (s.takeFree).site = s.site := rfl
@[simp] theorem State.takeFree_bfaults (s : State) : (s.takeFree).bfaults = s.bfaults := rfl
@[simp] theorem State.takeFree_advs (s : State) : (s.takeFree).advs = s.advs := rfl
@[simp] theorem State.takeFree_nextId (s : State) : (s.takeFree).nextId = s.nextId := rfl
@[simp] theorem State.takeFree_freeCtr (s : State) : (s.takeFree).freeCtr = s.freeCtr + 1 := rfl
@[simp] theorem State.takeFree_latencies (s : State) : (s.takeFree).latencies = s.latencies := rfl
@[simp] theorem State.takeFree_ctxs (s : State) : (s.takeFree).ctxs = s.ctxs := rfl
@[simp] theorem State.takeFree_mem (s : State) : (s.takeFree).mem = s.mem := rfl
@[simp] theorem State.takeFree_poison (s : State) : (s.takeFree).poison = s.poison := rfl
@[simp] theorem State.takeFree_stores (s : State) : (s.takeFree).stores = s.stores := rfl
@[simp] theorem State.takeFree_fresh (s : State) : (s.takeFree).fresh = s.fresh := rfl
@[simp] theorem State.takeFree_fieldTenant (s : State) : (s.takeFree).fieldTenant = s.fieldTenant := rfl
@[simp] theorem State.takeFree_accs (s : State) : (s.takeFree).accs = s.accs := rfl
@[simp] theorem State.takeFree_cmds (s : State) : (s.takeFree).cmds = s.cmds := rfl
@[simp] theorem State.takeFree_holders (s : State) : (s.takeFree).holders = s.holders := rfl
@[simp] theorem State.takeFree_active (s : State) : (s.takeFree).active = s.active := rfl
@[simp] theorem State.takeFree_shadow (s : State) : (s.takeFree).shadow = s.shadow := rfl
@[simp] theorem State.takeFree_runs (s : State) : (s.takeFree).runs = s.runs := rfl
@[simp] theorem State.takeFree_kcnt (s : State) : (s.takeFree).kcnt = s.kcnt := rfl
@[simp] theorem State.takeFree_elems (s : State) : (s.takeFree).elems = s.elems := rfl
@[simp] theorem State.takeFree_nodeCtl (s : State) : (s.takeFree).nodeCtl = s.nodeCtl := rfl
@[simp] theorem State.takeFree_concCtl (s : State) : (s.takeFree).concCtl = s.concCtl := rfl
@[simp] theorem State.takeFree_tiles (s : State) : (s.takeFree).tiles = s.tiles := rfl
@[simp] theorem State.takeFree_writes (s : State) : (s.takeFree).writes = s.writes := rfl
@[simp] theorem State.takeFree_bq (s : State) : (s.takeFree).bq = s.bq := rfl
@[simp] theorem State.takeFree_tables (s : State) : (s.takeFree).tables = s.tables := rfl
@[simp] theorem State.takeFree_metas (s : State) : (s.takeFree).metas = s.metas := rfl
@[simp] theorem State.takeFree_streams (s : State) : (s.takeFree).streams = s.streams := rfl
@[simp] theorem State.takeFree_sluice (s : State) : (s.takeFree).sluice = s.sluice := rfl
@[simp] theorem State.takeFree_domains (s : State) : (s.takeFree).domains = s.domains := rfl
@[simp] theorem State.takeFree_sideband (s : State) : (s.takeFree).sideband = s.sideband := rfl
@[simp] theorem State.takeFree_clocked (s : State) : (s.takeFree).clocked = s.clocked := rfl
@[simp] theorem State.takeFree_uncal (s : State) : (s.takeFree).uncal = s.uncal := rfl
@[simp] theorem State.takeFree_mirror (s : State) : (s.takeFree).mirror = s.mirror := rfl
@[simp] theorem State.takeFree_bankControl (s : State) : (s.takeFree).bankControl = s.bankControl := rfl
@[simp] theorem State.takeFree_lostDies (s : State) : (s.takeFree).lostDies = s.lostDies := rfl
@[simp] theorem State.takeFree_staged (s : State) : (s.takeFree).staged = s.staged := rfl
@[simp] theorem State.takeFree_shares (s : State) : (s.takeFree).shares = s.shares := rfl
@[simp] theorem State.takeFree_fwTold (s : State) : (s.takeFree).fwTold = s.fwTold := rfl
@[simp] theorem State.takeFree_portAt (s : State) : (s.takeFree).portAt = s.portAt := rfl
@[simp] theorem State.takeFree_portIn (s : State) : (s.takeFree).portIn = s.portIn := rfl
@[simp] theorem State.takeFree_unreached (s : State) : (s.takeFree).unreached = s.unreached := rfl
@[simp] theorem State.takeFree_slotTab (s : State) : (s.takeFree).slotTab = s.slotTab := rfl
@[simp] theorem State.takeFree_tasks (s : State) : (s.takeFree).tasks = s.tasks := rfl
@[simp] theorem State.takeFree_slotEnds (s : State) : (s.takeFree).slotEnds = s.slotEnds := rfl
@[simp] theorem State.takeFree_fieldBank (s : State) : (s.takeFree).fieldBank = s.fieldBank := rfl
@[simp] theorem State.takeFree_parts (s : State) : (s.takeFree).parts = s.parts := rfl
@[simp] theorem State.takeFree_remap (s : State) : (s.takeFree).remap = s.remap := rfl
@[simp] theorem State.takeFree_tenantRoot (s : State) : (s.takeFree).tenantRoot = s.tenantRoot := rfl
@[simp] theorem State.takeFree_ownDev (s : State) : (s.takeFree).ownDev = s.ownDev := rfl
@[simp] theorem State.takeFree_directory (s : State) : (s.takeFree).directory = s.directory := rfl
@[simp] theorem State.takeFree_images (s : State) : (s.takeFree).images = s.images := rfl
@[simp] theorem State.takeFree_shadowBank (s : State) : (s.takeFree).shadowBank = s.shadowBank := rfl
@[simp] theorem State.takeFree_home (s : State) : (s.takeFree).home = s.home := rfl
@[simp] theorem State.takeFree_away (s : State) : (s.takeFree).away = s.away := rfl
@[simp] theorem State.takeFree_tags (s : State) : (s.takeFree).tags = s.tags := rfl
@[simp] theorem State.takeFree_scrub (s : State) : (s.takeFree).scrub = s.scrub := rfl
@[simp] theorem State.takeFree_dirty (s : State) : (s.takeFree).dirty = s.dirty := rfl
@[simp] theorem State.takeFree_lineBufs (s : State) : (s.takeFree).lineBufs = s.lineBufs := rfl
@[simp] theorem State.takeFree_fadds (s : State) : (s.takeFree).fadds = s.fadds := rfl
@[simp] theorem State.takeFree_routes (s : State) : (s.takeFree).routes = s.routes := rfl
@[simp] theorem State.takeFree_links (s : State) : (s.takeFree).links = s.links := rfl
@[simp] theorem State.takeFree_endpoints (s : State) : (s.takeFree).endpoints = s.endpoints := rfl
@[simp] theorem State.takeFree_errs (s : State) : (s.takeFree).errs = s.errs := rfl
@[simp] theorem State.takeFree_life (s : State) : (s.takeFree).life = s.life := rfl
@[simp] theorem State.takeFree_measure (s : State) : (s.takeFree).measure = s.measure := rfl
@[simp] theorem State.takeFree_keyStore (s : State) : (s.takeFree).keyStore = s.keyStore := rfl
@[simp] theorem State.takeFree_fuses (s : State) : (s.takeFree).fuses = s.fuses := rfl
@[simp] theorem State.takeFree_fuseVersion (s : State) : (s.takeFree).fuseVersion = s.fuseVersion := rfl
@[simp] theorem State.takeFree_recovery (s : State) : (s.takeFree).recovery = s.recovery := rfl
@[simp] theorem State.takeFree_bringUp (s : State) : (s.takeFree).bringUp = s.bringUp := rfl
@[simp] theorem State.takeFree_pwr (s : State) : (s.takeFree).pwr = s.pwr := rfl
@[simp] theorem State.takeFree_wact (s : State) : (s.takeFree).wact = s.wact := rfl
@[simp] theorem State.takeFree_cap (s : State) : (s.takeFree).cap = s.cap := rfl
@[simp] theorem State.takeFree_floorW (s : State) : (s.takeFree).floorW = s.floorW := rfl
@[simp] theorem State.takeFree_lastCseq (s : State) : (s.takeFree).lastCseq = s.lastCseq := rfl
@[simp] theorem State.takeFree_lease (s : State) : (s.takeFree).lease = s.lease := rfl
@[simp] theorem State.takeFree_budgets (s : State) : (s.takeFree).budgets = s.budgets := rfl
@[simp] theorem State.takeFree_budgetUsed (s : State) : (s.takeFree).budgetUsed = s.budgetUsed := rfl
@[simp] theorem State.takeFree_thermal (s : State) : (s.takeFree).thermal = s.thermal := rfl
@[simp] theorem State.takeFree_poweredOff (s : State) : (s.takeFree).poweredOff = s.poweredOff := rfl
@[simp] theorem State.takeFree_fw (s : State) : (s.takeFree).fw = s.fw := rfl
@[simp] theorem State.takeFree_wolas (s : State) : (s.takeFree).wolas = s.wolas := rfl
@[simp] theorem State.takeFree_sent (s : State) : (s.takeFree).sent = s.sent := rfl
@[simp] theorem State.takeFree_returned (s : State) : (s.takeFree).returned = s.returned := rfl

/-! ### State.setSelf -/

@[simp] theorem State.setSelf_cycle (s : State) (x : Ctx) : (s.setSelf x).cycle = s.cycle := rfl
@[simp] theorem State.setSelf_agenda (s : State) (x : Ctx) : (s.setSelf x).agenda = s.agenda := rfl
@[simp] theorem State.setSelf_inputs (s : State) (x : Ctx) : (s.setSelf x).inputs = s.inputs := rfl
@[simp] theorem State.setSelf_begun (s : State) (x : Ctx) : (s.setSelf x).begun = s.begun := rfl
@[simp] theorem State.setSelf_turn (s : State) (x : Ctx) : (s.setSelf x).turn = s.turn := rfl
@[simp] theorem State.setSelf_cur (s : State) (x : Ctx) : (s.setSelf x).cur = s.cur := rfl
@[simp] theorem State.setSelf_site (s : State) (x : Ctx) : (s.setSelf x).site = s.site := rfl
@[simp] theorem State.setSelf_bfaults (s : State) (x : Ctx) : (s.setSelf x).bfaults = s.bfaults := rfl
@[simp] theorem State.setSelf_advs (s : State) (x : Ctx) : (s.setSelf x).advs = s.advs := rfl
@[simp] theorem State.setSelf_nextId (s : State) (x : Ctx) : (s.setSelf x).nextId = s.nextId := rfl
@[simp] theorem State.setSelf_freeCtr (s : State) (x : Ctx) : (s.setSelf x).freeCtr = s.freeCtr := rfl
@[simp] theorem State.setSelf_latencies (s : State) (x : Ctx) : (s.setSelf x).latencies = s.latencies := rfl
@[simp] theorem State.setSelf_ctxs (s : State) (x : Ctx) : (s.setSelf x).ctxs = Kv.set {} s.ctxs s.cur x := rfl
@[simp] theorem State.setSelf_mem (s : State) (x : Ctx) : (s.setSelf x).mem = s.mem := rfl
@[simp] theorem State.setSelf_poison (s : State) (x : Ctx) : (s.setSelf x).poison = s.poison := rfl
@[simp] theorem State.setSelf_stores (s : State) (x : Ctx) : (s.setSelf x).stores = s.stores := rfl
@[simp] theorem State.setSelf_fresh (s : State) (x : Ctx) : (s.setSelf x).fresh = s.fresh := rfl
@[simp] theorem State.setSelf_fieldTenant (s : State) (x : Ctx) : (s.setSelf x).fieldTenant = s.fieldTenant := rfl
@[simp] theorem State.setSelf_accs (s : State) (x : Ctx) : (s.setSelf x).accs = s.accs := rfl
@[simp] theorem State.setSelf_cmds (s : State) (x : Ctx) : (s.setSelf x).cmds = s.cmds := rfl
@[simp] theorem State.setSelf_holders (s : State) (x : Ctx) : (s.setSelf x).holders = s.holders := rfl
@[simp] theorem State.setSelf_active (s : State) (x : Ctx) : (s.setSelf x).active = s.active := rfl
@[simp] theorem State.setSelf_shadow (s : State) (x : Ctx) : (s.setSelf x).shadow = s.shadow := rfl
@[simp] theorem State.setSelf_runs (s : State) (x : Ctx) : (s.setSelf x).runs = s.runs := rfl
@[simp] theorem State.setSelf_kcnt (s : State) (x : Ctx) : (s.setSelf x).kcnt = s.kcnt := rfl
@[simp] theorem State.setSelf_elems (s : State) (x : Ctx) : (s.setSelf x).elems = s.elems := rfl
@[simp] theorem State.setSelf_nodeCtl (s : State) (x : Ctx) : (s.setSelf x).nodeCtl = s.nodeCtl := rfl
@[simp] theorem State.setSelf_concCtl (s : State) (x : Ctx) : (s.setSelf x).concCtl = s.concCtl := rfl
@[simp] theorem State.setSelf_tiles (s : State) (x : Ctx) : (s.setSelf x).tiles = s.tiles := rfl
@[simp] theorem State.setSelf_writes (s : State) (x : Ctx) : (s.setSelf x).writes = s.writes := rfl
@[simp] theorem State.setSelf_bq (s : State) (x : Ctx) : (s.setSelf x).bq = s.bq := rfl
@[simp] theorem State.setSelf_tables (s : State) (x : Ctx) : (s.setSelf x).tables = s.tables := rfl
@[simp] theorem State.setSelf_metas (s : State) (x : Ctx) : (s.setSelf x).metas = s.metas := rfl
@[simp] theorem State.setSelf_streams (s : State) (x : Ctx) : (s.setSelf x).streams = s.streams := rfl
@[simp] theorem State.setSelf_sluice (s : State) (x : Ctx) : (s.setSelf x).sluice = s.sluice := rfl
@[simp] theorem State.setSelf_domains (s : State) (x : Ctx) : (s.setSelf x).domains = s.domains := rfl
@[simp] theorem State.setSelf_sideband (s : State) (x : Ctx) : (s.setSelf x).sideband = s.sideband := rfl
@[simp] theorem State.setSelf_clocked (s : State) (x : Ctx) : (s.setSelf x).clocked = s.clocked := rfl
@[simp] theorem State.setSelf_uncal (s : State) (x : Ctx) : (s.setSelf x).uncal = s.uncal := rfl
@[simp] theorem State.setSelf_mirror (s : State) (x : Ctx) : (s.setSelf x).mirror = s.mirror := rfl
@[simp] theorem State.setSelf_bankControl (s : State) (x : Ctx) : (s.setSelf x).bankControl = s.bankControl := rfl
@[simp] theorem State.setSelf_lostDies (s : State) (x : Ctx) : (s.setSelf x).lostDies = s.lostDies := rfl
@[simp] theorem State.setSelf_staged (s : State) (x : Ctx) : (s.setSelf x).staged = s.staged := rfl
@[simp] theorem State.setSelf_shares (s : State) (x : Ctx) : (s.setSelf x).shares = s.shares := rfl
@[simp] theorem State.setSelf_fwTold (s : State) (x : Ctx) : (s.setSelf x).fwTold = s.fwTold := rfl
@[simp] theorem State.setSelf_portAt (s : State) (x : Ctx) : (s.setSelf x).portAt = s.portAt := rfl
@[simp] theorem State.setSelf_portIn (s : State) (x : Ctx) : (s.setSelf x).portIn = s.portIn := rfl
@[simp] theorem State.setSelf_unreached (s : State) (x : Ctx) : (s.setSelf x).unreached = s.unreached := rfl
@[simp] theorem State.setSelf_slotTab (s : State) (x : Ctx) : (s.setSelf x).slotTab = s.slotTab := rfl
@[simp] theorem State.setSelf_tasks (s : State) (x : Ctx) : (s.setSelf x).tasks = s.tasks := rfl
@[simp] theorem State.setSelf_slotEnds (s : State) (x : Ctx) : (s.setSelf x).slotEnds = s.slotEnds := rfl
@[simp] theorem State.setSelf_fieldBank (s : State) (x : Ctx) : (s.setSelf x).fieldBank = s.fieldBank := rfl
@[simp] theorem State.setSelf_parts (s : State) (x : Ctx) : (s.setSelf x).parts = s.parts := rfl
@[simp] theorem State.setSelf_remap (s : State) (x : Ctx) : (s.setSelf x).remap = s.remap := rfl
@[simp] theorem State.setSelf_tenantRoot (s : State) (x : Ctx) : (s.setSelf x).tenantRoot = s.tenantRoot := rfl
@[simp] theorem State.setSelf_ownDev (s : State) (x : Ctx) : (s.setSelf x).ownDev = s.ownDev := rfl
@[simp] theorem State.setSelf_directory (s : State) (x : Ctx) : (s.setSelf x).directory = s.directory := rfl
@[simp] theorem State.setSelf_images (s : State) (x : Ctx) : (s.setSelf x).images = s.images := rfl
@[simp] theorem State.setSelf_shadowBank (s : State) (x : Ctx) : (s.setSelf x).shadowBank = s.shadowBank := rfl
@[simp] theorem State.setSelf_home (s : State) (x : Ctx) : (s.setSelf x).home = s.home := rfl
@[simp] theorem State.setSelf_away (s : State) (x : Ctx) : (s.setSelf x).away = s.away := rfl
@[simp] theorem State.setSelf_tags (s : State) (x : Ctx) : (s.setSelf x).tags = s.tags := rfl
@[simp] theorem State.setSelf_scrub (s : State) (x : Ctx) : (s.setSelf x).scrub = s.scrub := rfl
@[simp] theorem State.setSelf_dirty (s : State) (x : Ctx) : (s.setSelf x).dirty = s.dirty := rfl
@[simp] theorem State.setSelf_lineBufs (s : State) (x : Ctx) : (s.setSelf x).lineBufs = s.lineBufs := rfl
@[simp] theorem State.setSelf_fadds (s : State) (x : Ctx) : (s.setSelf x).fadds = s.fadds := rfl
@[simp] theorem State.setSelf_routes (s : State) (x : Ctx) : (s.setSelf x).routes = s.routes := rfl
@[simp] theorem State.setSelf_links (s : State) (x : Ctx) : (s.setSelf x).links = s.links := rfl
@[simp] theorem State.setSelf_endpoints (s : State) (x : Ctx) : (s.setSelf x).endpoints = s.endpoints := rfl
@[simp] theorem State.setSelf_errs (s : State) (x : Ctx) : (s.setSelf x).errs = s.errs := rfl
@[simp] theorem State.setSelf_life (s : State) (x : Ctx) : (s.setSelf x).life = s.life := rfl
@[simp] theorem State.setSelf_measure (s : State) (x : Ctx) : (s.setSelf x).measure = s.measure := rfl
@[simp] theorem State.setSelf_keyStore (s : State) (x : Ctx) : (s.setSelf x).keyStore = s.keyStore := rfl
@[simp] theorem State.setSelf_fuses (s : State) (x : Ctx) : (s.setSelf x).fuses = s.fuses := rfl
@[simp] theorem State.setSelf_fuseVersion (s : State) (x : Ctx) : (s.setSelf x).fuseVersion = s.fuseVersion := rfl
@[simp] theorem State.setSelf_recovery (s : State) (x : Ctx) : (s.setSelf x).recovery = s.recovery := rfl
@[simp] theorem State.setSelf_bringUp (s : State) (x : Ctx) : (s.setSelf x).bringUp = s.bringUp := rfl
@[simp] theorem State.setSelf_pwr (s : State) (x : Ctx) : (s.setSelf x).pwr = s.pwr := rfl
@[simp] theorem State.setSelf_wact (s : State) (x : Ctx) : (s.setSelf x).wact = s.wact := rfl
@[simp] theorem State.setSelf_cap (s : State) (x : Ctx) : (s.setSelf x).cap = s.cap := rfl
@[simp] theorem State.setSelf_floorW (s : State) (x : Ctx) : (s.setSelf x).floorW = s.floorW := rfl
@[simp] theorem State.setSelf_lastCseq (s : State) (x : Ctx) : (s.setSelf x).lastCseq = s.lastCseq := rfl
@[simp] theorem State.setSelf_lease (s : State) (x : Ctx) : (s.setSelf x).lease = s.lease := rfl
@[simp] theorem State.setSelf_budgets (s : State) (x : Ctx) : (s.setSelf x).budgets = s.budgets := rfl
@[simp] theorem State.setSelf_budgetUsed (s : State) (x : Ctx) : (s.setSelf x).budgetUsed = s.budgetUsed := rfl
@[simp] theorem State.setSelf_thermal (s : State) (x : Ctx) : (s.setSelf x).thermal = s.thermal := rfl
@[simp] theorem State.setSelf_poweredOff (s : State) (x : Ctx) : (s.setSelf x).poweredOff = s.poweredOff := rfl
@[simp] theorem State.setSelf_fw (s : State) (x : Ctx) : (s.setSelf x).fw = s.fw := rfl
@[simp] theorem State.setSelf_wolas (s : State) (x : Ctx) : (s.setSelf x).wolas = s.wolas := rfl
@[simp] theorem State.setSelf_sent (s : State) (x : Ctx) : (s.setSelf x).sent = s.sent := rfl
@[simp] theorem State.setSelf_returned (s : State) (x : Ctx) : (s.setSelf x).returned = s.returned := rfl

end Sys2Proof.Machine
end

