-- ==== Sys2Proof/Tests/Slice0.lean ====
section
/-! SUPPORT. The model's own tests: ill-formed terms, words written out from the spec's encodings, the spec's worked examples, and for every
statement a state and operands that meet its hypotheses. Expected values come from the rules that each test names. -/

namespace Sys2Proof.Tests

open Sys2Proof Sys2Proof.Machine Sys2Proof.Claims

set_option Elab.async false

/-- What a word decodes to, if it decodes. -/
def decoded (r : Except DecErr Instr) : Option Instr := match r with | .ok i => some i | .error _ => none
/-- A word decodes to an instruction that is well formed and that has this word. -/
def decodesTo (p : IWord × Instr) : Bool := decoded (decodeWord p.1) == some p.2 && wf p.2 && encodeWord p.2 == some p.1
/-- The same for the row entry that a row word carries in its bits [95:84] and [46:0]. -/
def rowDecodesTo (p : IWord × Instr) : Bool :=
  let e : RowEntry := ⟨p.1.extractLsb' 88 8, p.1.extractLsb' 84 4, p.1.extractLsb' 0 47⟩
  decoded (decodeRow e) == some p.2 && wfRow p.2 && encodeRow p.2 == some e &&
    decoded (decodeWord p.1) == some (.bodyRowWord ⟨e, p.1.extractLsb' 68 16, p.1.extractLsb' 52 16, p.1.extractLsb' 47 5⟩)

/-- Words of the scalar group (R59, R61, R64, R99 to R132; two of them are the words of R121). -/
theorem test_scalar_words_1 :
    ([(0x000000000000000000000000, .nop),
      (0x0101F8A00000000000000000, .add 3 30 5),
      (0x020274C00000000000000000, .sub 4 29 6),
      (0x0302F0E00000000000000000, .and 5 28 7),
      (0x04036D000000000000000000, .or 6 27 8),
      (0x0503E9200000000000000000, .xor 7 26 9),
      (0x060465400000000000000000, .shl 8 25 10),
      (0x0704E1600000000000000000, .shr 9 24 11),
      (0x0801DD800000000000000000, .sar 3 23 12),
      (0x090259A00000000000000000, .mul 4 22 13),
      (0x0A02D5C00000000000000000, .mulh 5 21 14),
      (0x0B0351E00000000000000000, .mulhu 6 20 15),
      (0x0C03CE000000000000000000, .div 7 19 16)] : List (IWord × Instr)).all decodesTo = true := by decide

/-- Words of the scalar group (R59, R61, R64, R99 to R132; two of them are the words of R121). -/
theorem test_scalar_words_2 :
    ([(0x0D044A200000000000000000, .divu 8 18 17),
      (0x0E04C6400000000000000000, .rem 9 17 18),
      (0x0F01C2600000000000000000, .remu 3 16 19),
      (0x10023E800000000000000000, .min 4 15 20),
      (0x1102BAA00000000000000000, .max 5 14 21),
      (0x120336C00000000000000000, .minu 6 13 22),
      (0x1303B2E00000000000000000, .maxu 7 12 23),
      (0x14042F000000000000000000, .slt 8 11 24),
      (0x1504AB200000000000000000, .sltu 9 10 25),
      (0x1601A7400000000000000000, .seq 3 9 26),
      (0x170088640000000000000000, .sel 1 2 3 4),
      (0x1804FC00FFFFFFFFFFFFFFFE, .addi 9 31 (-2)),
      (0x1904FC00FFFFFFFFFFFFFFFD, .andi 9 31 (-3))] : List (IWord × Instr)).all decodesTo = true := by decide

/-- Words of the scalar group (R59, R61, R64, R99 to R132; two of them are the words of R121). -/
theorem test_scalar_words_3 :
    ([(0x1A04FC00FFFFFFFFFFFFFFFC, .ori 9 31 (-4)),
      (0x1B04FC00FFFFFFFFFFFFFFFB, .xori 9 31 (-5)),
      (0x1C04C400000000000000003F, .shli 9 17 63),
      (0x1D04C400000000000000003E, .shri 9 17 62),
      (0x1E04C400000000000000003D, .sari 9 17 61),
      (0x1F010C00FFFFFFFFFFFFFFF9, .slti 2 3 (-7)),
      (0x20010C00FFFFFFFFFFFFFFFF, .sltui 2 3 (-1)),
      (0x21028000123456789ABCDEF0, .li 5 0x123456789ABCDEF0),
      (0x220224000000000000000000, .clz 4 9),
      (0x230224000000000000000000, .ctz 4 9),
      (0x240224000000000000000000, .popc 4 9),
      (0x250224000000000000000000, .brev 4 9),
      (0x260088600000000000000000, .bext false 1 2 3)] : List (IWord × Instr)).all decodesTo = true := by decide

/-- Words of the scalar group (R59, R61, R64, R99 to R132; two of them are the words of R121). -/
theorem test_scalar_words_4 :
    ([(0x261088600000000000000000, .bext true 1 2 3),
      (0x270088640000000000000000, .bins 1 2 3 4),
      (0x28000000FFFFFFFFFFFFFFF0, .j (-16)),
      (0x29007C000000000000000040, .jal 31 64),
      (0x2A007C000000000000000004, .jr 31 4),
      (0x2B000680FFFFFFFFFFFFFFC0, .beq 1 20 (-64)),
      (0x2C000A60FFFFFFFFFFFFFFC8, .bne 2 19 (-56)),
      (0x2D000E40FFFFFFFFFFFFFFD0, .blt 3 18 (-48)),
      (0x2E001220FFFFFFFFFFFFFFD8, .bge 4 17 (-40)),
      (0x2F001600FFFFFFFFFFFFFFE0, .bltu 5 16 (-32)),
      (0x300019E0FFFFFFFFFFFFFFE8, .bgeu 6 15 (-24)),
      (0x310018000000000000000028, .loop 6 40),
      (0x3209C4000000000000000030, .loopi 40000 48)] : List (IWord × Instr)).all decodesTo = true := by decide

/-- Words of the scalar group (R59, R61, R64, R99 to R132; two of them are the words of R121). -/
theorem test_scalar_words_5 :
    ([(0x330000000000000000000000, .lbrk),
      (0x34638804FFFFFFFFFFFFFFF8, .ld .field 2 true 7 2 (-8)),
      (0x343388000000000000000008, .ld .node 3 false 7 2 8),
      (0x351388040000000000000010, .st .field 1 7 2 16),
      (0x360580000000000000000000, .push 11),
      (0x370000C00000000000000000, .pop 6),
      (0x38A0114C0000000000000008, .gld .virt 2 false true 2 4 8 1),
      (0x39B292280000000000000018, .gst .res 3 true 1 5 4 24 2),
      (0x3A4013EC0000000000000001, .gldi .virt 0 true 7 4 1 3),
      (0x3B0680A00000000000000000, .mvl 13 5),
      (0x3C0680A00000000000000000, .tstl 13 5),
      (0x3DD3266C0000000000000000, .amo .virt .add true 3 3 6 9 0 2),
      (0x3D110C2C0400000000000010, .amo .virt .min true 0 1 2 3 16 0)] : List (IWord × Instr)).all decodesTo = true := by decide

/-- Words of the scalar group (R59, R61, R64, R99 to R132; two of them are the words of R121). -/
theorem test_scalar_words_6 :
    ([(0x3E941148FFFFFFFFFFFFFFFC, .cas .res true 2 2 8 4 (-4) 1),
      (0x3F1000000000000000000084, .fence .acq .sys 8),
      (0x4000000000000000000000F3, .sbar .pkg 15),
      (0x4105114C0000000000000040, .hld .virt 10 2 4 64 1),
      (0x420591480000000000000080, .hst .res 11 2 4 128 1),
      (0x430088600000000000000000, .hset 1 2 3),
      (0x440088000000000000000000, .hget 1 2),
      (0x4507906C0000000000000000, .mdld .virt 15 3 4 0 0),
      (0x460088000000000000000000, .launch 1 2),
      (0x470004430000000000000000, .msg 1 2 3)] : List (IWord × Instr)).all decodesTo = true := by decide

/-- Words of the configuration group (R207, R211 to R233). -/
theorem test_configuration_words_1 :
    ([(0x6010F1230000A18180000001, .blk true 0x0F 0x123 0x80000001 0x81 33 2),
      (0x6100F12380010003000ABCDE, .fuse 0x0F 0x123 0x8001 3 0xABCDE),
      (0x6110F1230000052100FF00FF, .fuseLive 0x0F 0x123 0xFF00FF 0x21 5),
      (0x6200F1230001000200020015, .route .lo 0x0F 0x123 1 2 0x20015),
      (0x6210F1230001000200030000, .route .hi 0x0F 0x123 1 2 0x30000),
      (0x6220F1230001000200004321, .route .dly 0x0F 0x123 1 2 0x4321),
      (0x6300F1235BEEF0700F123039, .bind 0x0F 0x123 (.node 9 3 0x1230 15 7 0xBEEF .out true)),
      (0x6310F12357DDFF4007812344, .bind 0x0F 0x123 (.conc 4 0x1234 15 1000 0xBEEF .both false)),
      (0x6320F12300000100012C83F6, .bind 0x0F 0x123 (.stream 6 true 31 true 300 0x100)),
      (0x6330F1230000000000007772, .bind 0x0F 0x123 (.expectNode 9 3 0x77)),
      (0x6330F1230000000000007709, .bind 0x0F 0x123 (.expectConc 4 0x77)),
      (0x6400F1230001000200030004, .nest 0x0F 0x123 (.counts 0x0001000200030004)),
      (0x6410F12300000005000000F0, .nest 0x0F 0x123 (.stage 0xF0 5))] : List (IWord × Instr)).all decodesTo = true := by decide

/-- Words of the configuration group (R207, R211 to R233). -/
theorem test_configuration_words_2 :
    ([(0x6500F12300000000DEADBEEF, .bend 0x0F 0x123 0xDEADBEEF),
      (0x6600F1230000090004FFFF10, .bstamp 0x0F 0x123 16 0xFFFF 4 9),
      (0x6700F1230000000000ABCDEF, .bgo 0x0F 0x123 0xABCDEF),
      (0x680F00000000000000000000, .bdrain 0xF0),
      (0x690F00000000000000000000, .brel 0xF0),
      (0x6A0000000000000000012340, .gtab 0x12340),
      (0x6B1000000000000000012342, .vtab true 0x12342),
      (0x6B0000000000000000012344, .vtab false 0x12344),
      (0x6C0F00000000000000123405, .trd 0xF0 5 0x12340),
      (0x6D0F00000000000000000024, .tdisc 0xF0 0x24)] : List (IWord × Instr)).all decodesTo = true := by decide

/-- Rows as the entries of a plane (R62, R223, R234 to R274). -/
theorem test_row_words_1 :
    ([(0x800000580011820947F00000, .iadd (.e 1) (.e 2) (.port .n) ⟨0, false⟩),
      (0x810000580011840D4FF00000, .isub (.e 2) (.e 3) (.port .e) ⟨0, false⟩),
      (0x820000580011861157F00000, .imul (.e 3) (.e 4) (.port .s) ⟨0, false⟩),
      (0x830000580011C0855AD07FDC, .imac (.lane 0) (.lane 1) (.port .w) .imm ⟨0xFFB, true⟩),
      (0x840000580011D00177F00000, .iand (.port .n) (.e 0) .zero ⟨0, false⟩),
      (0x850000580011D00577F00000, .ior (.port .n) (.e 1) .zero ⟨0, false⟩),
      (0x860000580011D00977F00000, .ixor (.port .n) (.e 2) .zero ⟨0, false⟩),
      (0x870000580011D00D77F00000, .ishl (.port .n) (.e 3) .zero ⟨0, false⟩),
      (0x880000580011D01177F00000, .ishr (.port .n) (.e 4) .zero ⟨0, false⟩),
      (0x890000580011D01577F00000, .isar (.port .n) (.e 5) .zero ⟨0, false⟩),
      (0x8A10005800118A183FF00000, .imin true (.e 5) (.e 6) (.e 7) ⟨0, false⟩),
      (0x8B00005800118A183FF00000, .imax false (.e 5) (.e 6) (.e 7) ⟨0, false⟩),
      (0x8C40005800118A183FF00000, .icmp .ltu (.e 5) (.e 6) (.e 7) ⟨0, false⟩)] : List (IWord × Instr)).all rowDecodesTo = true := by decide

/-- Rows as the entries of a plane (R62, R223, R234 to R274). -/
theorem test_row_words_2 :
    ([(0x8D00005800118A1838800000, .isel (.e 5) (.e 6) (.e 7) (.e 8) ⟨0, false⟩),
      (0x8E0000580011FE1BFFF00000, .iabs .none (.e 6) ⟨0, false⟩),
      (0x8F00005800118AB7FFF03FF8, .iclz (.e 5) .imm ⟨0x7FF, false⟩),
      (0x9000005800118A183FF00008, .fadd .f32 .rtz (.e 5) (.e 6) (.e 7)),
      (0x9110005800118A183FF00010, .fsub .f16 .rup (.e 5) (.e 6) (.e 7)),
      (0x9220005800118A183FF00018, .fmul .bf16 .rdn (.e 5) (.e 6) (.e 7)),
      (0x9300005800118A1838800020, .ffma .f32 .rna (.e 5) (.e 6) (.e 7) (.e 8)),
      (0x9400005800118A183FF00000, .fmin .f32 (.e 5) (.e 6) (.e 7)),
      (0x9510005800118A183FF00000, .fmax .f16 (.e 5) (.e 6) (.e 7)),
      (0x9620005800118A183FF00080, .fcmp .bf16 .le (.e 5) (.e 6) (.e 7)),
      (0x9700005800118A1BFFF00000, .fabs .f32 (.e 5) (.e 6)),
      (0x9800005800118A1BFFF00008, .frint .f32 .rtz (.e 5) (.e 6)),
      (0x9900005800118A1BFFF00000, .fexpf (.e 5) (.e 6))] : List (IWord × Instr)).all rowDecodesTo = true := by decide

/-- Rows as the entries of a plane (R62, R223, R234 to R274). -/
theorem test_row_words_3 :
    ([(0x9A00005800118A183FF00008, .fexpins .rtz (.e 5) (.e 6) (.e 7)),
      (0x9B10005800118A1BFFF00000, .frcp .f16 .rne (.e 5) (.e 6)),
      (0x9C20005800118A1BFFF00000, .frsq .bf16 .rne (.e 5) (.e 6)),
      (0x9D00005800118A1BFFF00CC8, .fcvt .rtz .i32 .e5m2 (.e 5) (.e 6)),
      (0x9E10005800118A1BFFF00000, .fclass .f16 (.e 5) (.e 6)),
      (0x9F20005800118A1838800000, .fdot2 true .rne (.e 5) (.e 6) (.e 7) (.e 8)),
      (0xA02000580011D2ABFFF88000, .mov .w128 17 (.port .e) (.port .s) ⟨0, false⟩),
      (0xA11000580011C81BFFF68000, .nld .w64 true 5 (.lane 4) (.e 6) ⟨0, false⟩),
      (0xA20000580011FEB44FF30020, .nst .w32 false 6 .imm (.e 9) ⟨4, false⟩),
      (0xA32000580011FEA3FFF00CB8, .send .w128 true 7 9 (.port .n)),
      (0xA400005800118BFFFFF004B8, .recv .w32 false 7 9 (.e 5)),
      (0xA500005800118A183FF00000, .hdr (.e 5) (.e 6) (.e 7) ⟨0, false⟩),
      (0xA600005800118BFFFFF00030, .iter (.e 5) 6)] : List (IWord × Instr)).all rowDecodesTo = true := by decide

/-- Rows as the entries of a plane (R62, R223, R234 to R274). -/
theorem test_row_words_4 :
    ([(0xA88000580011C56539FD831C, .tstep 8 11 2 1 2 3 4 (-5) 99 true),
      (0xA91000580011C2A15FF00000, .macf true (.lane 1) (.port .n) (some (.port .w))),
      (0xA90000580011C2A3FFF00000, .macf false (.lane 1) (.port .n) none),
      (0xAA0000580011C6255FF00000, .dmac false (.lane 3) (.e 9) (some (.port .w))),
      (0xAB1000580011C46572300038, .spmx 1 3 2 1 2 14 4 1 2 7 false),
      (0xAC30005800118A9838800940, .rq true true 40 4 (.e 5) (.lane 6) (.e 7) (.e 8)),
      (0xAD0000580011FE1BFFF02C70, .bq .bf16 3 4 5 (.e 6)),
      (0xAE0000580011C28BFFF003F8, .tacc 1 (.lane 2) (-1)),
      (0xAF3000580011D297FFF00000, .trdl .l64 (.port .e) 5),
      (0xB00000580011FE1BFFFC8F30, .rank 6 2 .i16 15 ⟨true, 9⟩),
      (0xB13000580011C21BFFF48058, .racc true true true 5 1 (.e 6) ⟨false, 9⟩),
      (0xB200005800118A1BFFF98000, .rval false (.e 5) (.e 6) ⟨true, 3⟩),
      (0xB80000580011800000000000, .rnop)] : List (IWord × Instr)).all rowDecodesTo = true := by decide

/-- Rows as the entries of a plane (R62, R223, R234 to R274). -/
theorem test_row_words_5 :
    ([(0xB91000580011FEA3FFF00000, .setq .loadSwap (some (.port .n)))] : List (IWord × Instr)).all rowDecodesTo = true := by decide

/-- Engine words (R266, R344 to R382, R470 to R476); the words of R370 and R476 are the spec's. -/
theorem test_engine_words_1 :
    ([(0xC08233800000000000001083, .tcopy ⟨true, 2, 3, 7⟩ ⟨3, false, 0⟩ ⟨0, true, 1⟩),
      (0xC1023380000000000064000A, .tcopyc ⟨false, 2, 3, 7⟩ ⟨2, false, 0⟩ ⟨1, false, 0⟩ .rna 12),
      (0xD4003380000000000060D088, .tfill ⟨false, 0, 3, 7⟩ ⟨1, true, 13⟩ 12),
      (0xC2023380000000000000130B, .sgath ⟨false, 2, 3, 7⟩ 3 1 12 2),
      (0xC30233800000000000000B02, .sscat ⟨false, 2, 3, 7⟩ 2 0 12 1),
      (0xD38233800000000000000B02, .sscata ⟨true, 2, 3, 7⟩ 2 0 12 1),
      (0xC4123380000000000000130B, .sisect ⟨false, 2, 3, 7⟩ true 3 1 12 2),
      (0xC6023380ABCDEF149F012340, .chain ⟨false, 2, 3, 7⟩ 0xABCDEF 0x12340 0xF0 9 4 2),
      (0xC7900380000000000000000C, .cplarm true true 7 12),
      (0xC88003800000000000000000, .cplwait true 7),
      (0xC90003800000000000000005, .cpltest false 5 7),
      (0xCA000380000000000000000C, .barinit false 7 12),
      (0xCB8003800000000000000005, .bararr true 5 7)] : List (IWord × Instr)).all decodesTo = true := by decide

/-- Engine words (R266, R344 to R382, R470 to R476); the words of R370 and R476 are the spec's. -/
theorem test_engine_words_2 :
    ([(0xCC000380000000000000000C, .barwait false 7 12),
      (0xD2000380000000000000000C, .cplsig false 7 12),
      (0xCD8454800000000000006360, .coll ⟨true, 4, 5, 9⟩ .ar .add 3 3 12),
      (0xCE00038000000005F77918A1, .rput false 7 1 true 2 3 4 0xBEEF),
      (0xCF0003800000000000011881, .rget false 7 1 false 2 3 4),
      (0xD58003800000000000011881, .rpeek true 7 1 false 2 3 4),
      (0xD000038000000000000038A1, .evict false 7 1 true 2 true 3),
      (0xD10003800000000000003081, .pref false 7 1 false 2 false 3),
      (0xC5823380000000000001530B, .prune ⟨true, 2, 3, 7⟩ 3 1 12 2 1 1)] : List (IWord × Instr)).all decodesTo = true := by decide

/-- System words (R133, R292, R441; the TIDEW is the spec's). -/
theorem test_system_words_1 :
    ([(0xE00000000000000000000055, .trap 0x55),
      (0xE10000000000000000000000, .rft),
      (0xE20300000000000000000044, .sysr 6 0x44),
      (0xE30018000000000000000005, .sysw 5 6),
      (0xE40000000000000000000000, .halt),
      (0xE50088000000000000000301, .waite 1 2 0x301),
      (0xE60008000000000000001000, .dictld 2 4096),
      (0xE70380000000000000000000, .tider 7),
      (0xE71380000000000000000000, .tiderRaw 7),
      (0xE80280000000000000010000, .tidew 5 65536),
      (0xE900000000000000000000FE, .phase 0xFE),
      (0xEA0200000000000000000000, .yield 4),
      (0xEB000C000000000000000000, .exit 3)] : List (IWord × Instr)).all decodesTo = true := by decide

/-- System words (R133, R292, R441; the TIDEW is the spec's). -/
theorem test_system_words_2 :
    ([(0xEC00000000000000CAFEF00D, .ckpt 0xCAFEF00D),
      (0xED0000000000000000000000, .flushi),
      (0xEE0000000000000000000003, .brk 3),
      (0xEF0088000000000000001234, .ecall 1 2 0x1234)] : List (IWord × Instr)).all decodesTo = true := by decide

/-- One ill-formed term for each check of `wf`, each refused. -/
theorem test_ill_formed_terms : ([
    .ld .node 3 true 1 2 0, .gld .res 3 true false 0 1 0 0, .gldi .virt 3 true 0 1 0 0, .amo .res .fadd true 0 0 1 2 0 0, .cas .res true 0 0 31 1 0 0,
    .fuse 1 1 1 1 0x00100000, .route .dly 1 1 1 1 0x00010000, .route .lo 1 1 1 1 0x00000020, .route .hi 1 1 1 1 0x00000004,
    .bodyRowWord ⟨⟨0xA7, 0, 0⟩, 1, 1, 0⟩, .bstamp 1 1 0 0 0 0, .bstamp 1 1 33 0 0 0,
    .tcopy ⟨false, 0, 0, 1⟩ ⟨2, true, 0⟩ ⟨0, false, 0⟩, .tcopyc ⟨false, 0, 0, 1⟩ ⟨0, false, 0⟩ ⟨0, true, 8⟩ .rne 0, .tcopy ⟨false, 0, 0, 1⟩ ⟨0, false, 1⟩ ⟨0, false, 0⟩,
    .tfill ⟨false, 1, 0, 1⟩ ⟨0, false, 0⟩ 0, .sgath ⟨false, 0, 0, 1⟩ 1 0 0 0, .sscat ⟨false, 0, 0, 1⟩ 0 0 0 0, .sscata ⟨false, 0, 0, 1⟩ 1 0 0 0,
    .sisect ⟨false, 0, 0, 1⟩ false 0 0 1 0, .sisect ⟨false, 0, 0, 1⟩ false 0 0 0 1, .prune ⟨false, 0, 0, 1⟩ 0 0 0 0 3 0, .prune ⟨false, 0, 0, 1⟩ 0 0 0 0 0 2,
    .coll ⟨false, 0, 0, 1⟩ .ag .min 0 0 0, .waite 1 0 0] : List Instr).all (fun i => !wf i) = true := by decide

/-- The same for rows (R62, R234 to R274). -/
theorem test_ill_formed_rows : ([
    .iadd .none (.e 0) (.e 1) ⟨1, false⟩, .iabs .none .zero ⟨0, true⟩, .fadd .f32 .rne .none .imm (.e 0), .ffma .f32 .rne .none (.e 0) (.e 0) .imm, .fcvt .rne .f32 .f32 .none .imm,
    .mov .w128 0 (.e 0) (.port .n) ⟨0, false⟩, .mov .w128 0 (.port .n) (.e 0) ⟨0, false⟩, .nld .w32 false 0 (.lane 0) (.e 0) ⟨0, false⟩,
    .nst .w64 false 0 (.e 0) (.e 0) ⟨0, false⟩, .send .w32 false 0 0 .imm, .iter .none 7, .tstep 15 0 0 0 0 0 0 0 0 false, .tstep 0 0 0 0 0 1 0 0 0 false,
    .tstep 5 12 0 0 0 0 1 0 0 false, .spmx 5 0 0 0 0 0 0 0 0 0 false, .spmx 0 0 0 0 0 0 0 3 0 0 false, .spmx 0 0 0 0 0 0 0 0 2 0 false,
    .macf false .none .zero none, .dmac false .none (.e 0) (some .imm), .rq false false 0 6 .none (.e 0) (.e 0) .zero, .rq false false 0 0 .none (.port .n) (.e 0) .zero,
    .bq .f32 7 0 0 (.e 0), .bq .f32 0 0 0 .imm, .tacc 0 .zero 0, .trdl .l64 (.e 0) 0, .trdl .lo .none 0, .rank 0 0 .i8 8 ⟨false, 0⟩,
    .racc false false false 0 0 (.port .n) ⟨false, 0⟩, .racc false false false 1 0 (.e 0) ⟨false, 0⟩, .racc true false false 0 0 .imm ⟨false, 0⟩, .rval false .none (.e 0) ⟨false, 0⟩,
    .setq .swap (some (.e 0)), .setq .load none, .setq .load (some .zero)] : List Instr).all (fun i => !wfRow i && !wf i) = true := by decide

/-- The same for events: a context, an element, a pan or a domain that does not exist (R3, R13), and lists of the wrong length. -/
theorem test_ill_formed_events : ([
    .replayLanding 6144, .haltPoint 6144, .elementResultLanding 196608, .edgeFeed 196608 .n, .tstepContribution 1 0 16 0, .bqBlockWrite 0 16, .rankPacketWrite 768,
    .queueEntryFree 768, .dispatchTake 768 0, .domainStall 1024, .tideSample 0 1024, .fllStep 1024, .tenantChangeWipe 48,
    .imgld 0 0 0 (List.replicate 217 0), .attreq 0 []] : List Instr).all (fun i => !wf i) = true := by decide +kernel
/-- And the last ones that exist. -/
theorem test_well_formed_events : ([
    .replayLanding 6143, .elementResultLanding 196607, .tstepContribution 1 0 15 15, .bqBlockWrite 767 15, .domainStall 1023, .tenantChangeWipe 47,
    .imgld 0 0 0 (List.replicate 216 0), .attreq 0 (List.replicate 32 7)] : List Instr).all wf = true := by decide +kernel

/-- Words that break R60 to R62, the entries of R99 to R142, or R441: fields that must be zero, unlisted MODs, spaces and operand codes. -/
theorem test_malformed_words : ([
    0x5FF000000000000000000000, 0x010184410000000000000000, 0x011184400000000000000000, 0x000000000000000000000001, 0x1C04C4000000000000000040,
    0x347388000000000000000008, 0x343388080000000000000008, 0x382011440000000000000008, 0x3F0000000000000000000005, 0x3F0000000000000000000088,
    0x401000000000000000000080, 0x4109900C0000000000000000, 0x3D110C2C0A00000000000000, 0x3D110C2C0900000000000000, 0x3E1F840C0000000000000000,
    0xE20300000000000000001000, 0xE50080000000000000000000, 0xE50088000000000000000400, 0xE90000000000000000000100, 0xE72380000000000000000000,
    0xE70384000000000000000000, 0x320000510000000000000008, 0x800000580011820818400000, 0x800000580011DA081FF00000, 0x80000058001182BC1FF00000,
    0x800000580011820BFFF00000, 0x8C600058001182081FF00000, 0x90300058001182081FF00000, 0x90000058001182081FF00028, 0x90000058001182B41FF00000,
    0x94000058001182081FF00008, 0xA600005800118BFFFFF00038, 0x602010010000000000000000, 0x630010013000000000000000, 0x630010018000000000000000,
    0x623010010000000000000000, 0x660010010000000000000000, 0x680010010000000000000000, 0xC00233800000000000000004, 0xC01233800000000000000000,
    0xC7010380000000000000000C, 0xCD0454800000000000000003, 0xCD0454800000000000000018, 0xC50233800000000000020000] : List IWord).all (fun w => decoded (decodeWord w) == none) = true := by decide

/-- The bytes of R121, R292 and R441 in their short classes, and an X13 form that ends at the twelfth byte of its word (R53). -/
theorem test_short_classes :
    decodeBytes [0xE0, 0xA7, 0x53, 0x04, 0x20, 0, 0, 0] = some (.gld .virt 2 false true 2 4 8 1) ∧
    decodeBytes [0xEA, 0xD7, 0x9B, 0xC9, 0, 0, 0, 0] = some (.amo .virt .add true 3 3 6 9 0 2) ∧
    decodeBytes [0xB6, 0x03, 0, 0] = some (.exit 0) ∧ decodeBytes [0xD8, 0x43, 0x01, 0, 0, 0x01] = some (.tidew 5 65536) ∧
    decodeBytes [0xAE, 0x03, 0, 0x38] = some (.tider 7) ∧
    decodeBytes [0xFE, 0x83, 0x10, 0, 0, 0, 0, 0, 0, 0x80, 0x33, 0x82, 0xC0] = some (.tcopy ⟨true, 2, 3, 7⟩ ⟨3, false, 0⟩ ⟨0, true, 1⟩) ∧
    decodeBytes [0xFF] = none := by decide

/-! ### Witnesses: a state and operands that meet the hypotheses of each statement -/

/-- The state that an outcome leaves; reset for a stop. -/
def left (o : Host.Outcome State Fault Refusal) : State := match o with | .next t => t | _ => State.reset
/-- Whether an outcome is a next state. -/
def goes (o : Host.Outcome State Fault Refusal) : Bool := match o with | .next _ => true | _ => false

/-- A context that runs a text of one line of two-byte instructions, with an extent of 1 MiB that may be written, and one that may not. -/
def ctx0 : Ctx := { placedCtx (List.replicate 32 [0x10, 0x08]).flatten with
  tvec := 0x10020
  spillBase := 0x1000
  spillLim := 0x1010
  ovfPtr := 0x108000
  ext := [⟨0, 0x100000, 0x200000, true, [⟨0, 16, 0x40000, 0, 0, false, 0⟩], 0⟩, ⟨1, 0x200000, 0x210000, false, [⟨0, 1, 0x400000, 0, 0, false, 0⟩], 0⟩] }
/-- The machine with one context, which issues. -/
def own (x : Ctx) : State := { State.reset.setCtx 0 x with begun := true, turn := [0] }
/-- The context with some of its registers set. -/
def regs (l : Kv Word) : Ctx := { ctx0 with s := l }

theorem witness_SequencerWordsRoundTrip : wf (.add 3 1 2) = true ∧ encodeWord (.add 3 1 2) = some 0x010184400000000000000000 := by decide
theorem witness_RowEntriesRoundTrip : wfRow (.rnop) = true ∧ encodeRow .rnop = some ⟨0xB8, 0, 0⟩ := by decide
theorem witness_DecodedWordsReencode : decodeWord 0xE10000000000000000000000 = .ok .rft := rfl
theorem witness_InstructionBytesRoundTrip : wf .rft = true ∧ encodeWord .rft = some 0xE10000000000000000000000 := by decide
theorem witness_ReservedOpcodesRefused :
    let s := State.reset.place (x13 0xFF0000000000000000000000)
    reservedOp 0xFF = true ∧ s.agenda = [] ∧ s.begun = true ∧ s.poweredOff = false ∧ s.turn = [0] ∧ readyToIssue (s.ctx 0) ∧
    textAtPc (s.ctx 0) = some (.word 0xFF0000000000000000000000) := by unfold readyToIssue; decide +kernel
/-- The ends of each reserved range, and their neighbours (R63). -/
theorem test_reserved_ops : ([0x48, 0x5F, 0x6E, 0x7F, 0xA7, 0xB3, 0xB7, 0xBA, 0xBF, 0xD6, 0xDF, 0xF0, 0xFF].all reservedOp &&
    [0x47, 0x60, 0x6D, 0x80, 0xA6, 0xA8, 0xB2, 0xB8, 0xB9, 0xC0, 0xD5, 0xE0, 0xEF].all fun o => !reservedOp o) = true := by decide
theorem witness_StepRunsTheDecodedInstruction_word :
    let s := State.reset.place (encode (.addi 4 0 7))
    s.agenda = [] ∧ s.begun = true ∧ s.poweredOff = false ∧ s.turn = [0] ∧ readyToIssue (s.ctx 0) ∧
    textAtPc (s.ctx 0) = some (.word 0x180200000000000000000007) ∧ decodeWord 0x180200000000000000000007 = .ok (.addi 4 0 7) ∧
    (turnOf s 0 []).misplaced (.addi 4 0 7) = false ∧ (left (step s)).reg 4 = 7 := by unfold readyToIssue; decide +kernel
theorem witness_StepRunsTheDecodedInstruction_fill :
    let s := State.reset.place [0xF1]
    readyToIssue (s.ctx 0) ∧ textAtPc (s.ctx 0) = some .fill := by unfold readyToIssue; decide +kernel
theorem witness_StepRunsTheDecodedInstruction_none :
    let s := own { ctx0 with pc := 0x10001 }
    let u := own { ctx0 with pc := 0x10040 }
    readyToIssue (s.ctx 0) ∧ textAtPc (s.ctx 0) = none ∧ (s.ctx 0).textBase ≤ 0x10001 ∧ 0x10001 < (s.ctx 0).textEnd ∧
    readyToIssue (u.ctx 0) ∧ textAtPc (u.ctx 0) = none ∧ (u.ctx 0).textEnd ≤ 0x10040 := by unfold readyToIssue; decide +kernel
theorem witness_StepRunsTheDueEvent :
    ({ State.reset with agenda := [.leaseExpiry] } : State).agenda = [.leaseExpiry] ∧ State.reset.agenda = [] ∧ State.reset.begun = false ∧
    State.reset.poweredOff = false ∧ ({ State.reset with begun := true } : State).turn = [] ∧ ({ State.reset with poweredOff := true } : State).poweredOff = true := by decide
theorem witness_PlacedInstructionRuns : wf (.tidew 5 65536) = true ∧ encodeWord (.tidew 5 65536) = some 0xE80280000000000000010000 ∧ inBody (.tidew 5 65536) = false := by decide
theorem witness_StepKeepsMemoryCanonical : Inv State.reset ∧ goes (step State.reset) = true := by unfold Inv; decide +kernel
theorem witness_ScalarOperationsWriteTheirResult_quick :
    quickResult (own (regs [(1, 5), (2, 7)])).reg (.add 3 1 2) = some (3, 12) ∧ (left (exec (.add 3 1 2) (own (regs [(1, 5), (2, 7)])))).reg 3 = 12 := by decide +kernel
theorem witness_ScalarOperationsWriteTheirResult_long :
    longResult (own (regs [(1, 5), (2, 7)])).reg (.mul 3 1 2) = some (3, 35, 3) ∧ (own (regs [(1, 5), (2, 7)])).self.inFlight = 0 := by decide +kernel
/-- Four results in flight: the fifth faults (R25). -/
def busy : Ctx := { ctx0 with flight := [⟨.s 1, 0, 9, true, none, 0⟩, ⟨.s 2, 0, 9, true, none, 0⟩, ⟨.s 3, 0, 9, true, none, 0⟩, ⟨.s 4, 0, 9, true, none, 0⟩] }
theorem witness_ScalarOperationsWriteTheirResult_full : (longResult (own busy).reg (.div 3 1 2)).isSome = true ∧ 4 ≤ (own busy).self.inFlight := by decide +kernel
theorem witness_NopPasses : (∀ f ∈ ctx0.flight, ctx0.cyc + 1 < f.due) ∧ ctx0.occ = 0 := by decide +kernel
theorem witness_ResultsLandWhenDue :
    ({ ctx0 with y0 := { v := true, due := some 5 } } : Ctx).y0.due = some 5 ∧ Kv.wf (0 : Word) ctx0.s = true ∧
    (∀ f ∈ ({ ctx0 with flight := [⟨.s 3, 1, 0, true, none, 0⟩] } : Ctx).flight, f.due ≤ ctx0.cyc → f.dst ≠ .s 4) := by decide +kernel
theorem witness_BranchesGoOrFallThrough :
    let s := own (regs [(1, 5), (2, 7)])
    branchOf s (.beq 1 2 8) = some (false, 0x10008) ∧ branchOf s (.jal 31 8) = some (true, 0x10008) ∧ targetFault s.self 0x10008 = none ∧
    (left (exec (.jal 31 8) s)).self.pc = 0x10008 ∧ (left (exec (.jal 31 8) s)).reg 31 = 0x10002 ∧
    branchOf s (.j 9) = some (true, 0x10009) ∧ targetFault s.self 0x10009 = some 3 ∧ targetFault s.self 0x10040 = some 9 ∧ targetFault s.self 0xFFFE = some 9 ∧
    targetFault s.self 0x1003E = none := by decide +kernel
theorem witness_LoopsOpenSkipReturnAndEnd :
    let s := own (regs [(1, 0xFFFFFFFF), (2, 0x100000000)])
    let full := own { ctx0 with ls := List.replicate 4 { start := 0x10000, stop := 0x10020, count := 2 } }
    4 ≤ full.self.ls.length ∧ loopOf full (.loopi 1 8) = some (1, 8) ∧ loopOf s (.loop 2 8) = some (0x100000000, 8) ∧ loopOf s (.loop 1 8) = some (0xFFFFFFFF, 8) ∧
    s.self.ls.length < 4 ∧ targetFault s.self (aim s 0x40) = some 9 ∧ targetFault s.self (aim s 9) = some 3 ∧
    targetFault s.self (aim s 2) = none ∧ aim s 2 ≤ s.self.next ∧ targetFault s.self (aim s 4) = none ∧ s.self.next < aim s 4 ∧
    (left (exec (.loopi 0 4) s)).self.pc = 0x10004 ∧ (left (exec (.loopi 3 4) s)).self.ls = [⟨0x10002, 0x10004, 3⟩] := by decide +kernel
theorem witness_LoopsOpenSkipReturnAndEnd_close :
    let done : List LoopEntry := [⟨0x10000, 0x10002, 1⟩, ⟨0x10000, 0x10002, 0⟩]
    let s := own { ctx0 with ls := done ++ [⟨0x10000, 0x10002, 2⟩] }
    (∀ e ∈ done, e.stop = BitVec.ofNat 56 s.self.next ∧ e.count.toNat ≤ 1) ∧ s.self.ls = done ++ [⟨0x10000, 0x10002, 2⟩] ∧
    (left (exec .nop s)).self.ls = [⟨0x10000, 0x10002, 1⟩] ∧ (left (exec .nop s)).self.pc = 0x10000 := by decide +kernel
def twoLoops : State := own { ctx0 with ls := [⟨0x10000, 0x10002, 5⟩, ⟨0x10000, 0x10008, 2⟩] }
theorem witness_LbrkPopsTheTopBody :
    (∀ e, twoLoops.self.ls.tail.head? = some e → e.stop ≠ BitVec.ofNat 56 twoLoops.self.next) ∧ (left (exec .lbrk twoLoops)).self.ls = [⟨0x10000, 0x10008, 2⟩] := by
  refine ⟨fun e h => ?_, by decide +kernel⟩
  rw [show twoLoops.self.ls.tail.head? = some ⟨0x10000, 0x10008, 2⟩ by decide +kernel] at h
  cases h
  decide +kernel
theorem witness_TrapEntrySavesAndJumps : ctx0.hnd = false ∧ plainCtx (own ctx0).self ∧ targetFault (own ctx0).self (own ctx0).self.tvec.toNat = none ∧
    (left ((own ctx0).trap 0x0A 5)).self.pc = 0x10020 ∧ (left ((own ctx0).trap 0x0A 5)).self.tval = 5 := by unfold plainCtx; decide +kernel
theorem witness_TrapEntrySavesAndJumps_replay :
    let x : Ctx := { ctx0 with flight := [⟨.s 3, 9, 4, true, none, 0⟩], cyc := 2 }
    (own x).self.flight = [⟨.s 3, 9, 4, true, none, 0⟩] ∧ x.y0.v = false ∧ (left ((own x).trap 0x0A 5)).self.y0.cnt = 2 := by decide +kernel
theorem witness_NestedFaultHalts :
    plainCtx (own { ctx0 with hnd := true }).self ∧ (own { ctx0 with hnd := true }).self.hnd = true ∧ plainCtx (own { ctx0 with tvec := 1 }).self ∧
    targetFault (own { ctx0 with tvec := 1 }).self 1 = some 9 := by unfold plainCtx; decide +kernel
theorem witness_TrapAndBrkRaiseTheirFault : (own ctx0).self.dbg = false ∧ (own { ctx0 with dbg := true }).self.dbg = true ∧ plainCtx (own { ctx0 with dbg := true }).self ∧
    (left (exec (.brk 7) (own ctx0))).self.tpc = 0x10002 ∧ (left (exec (.trap 7) (own ctx0))).self.tcode = 0x15 := by unfold plainCtx; decide +kernel
theorem witness_RftReturnsFromTheHandler :
    let s := own { ctx0 with hnd := true, tpc := 0x10004, y0 := { v := true, dst := 3, cnt := 2, val := 9 } }
    s.self.hnd = true ∧ targetFault s.self s.self.tpc.toNat = none ∧ s.runsOf s.cur = [] ∧ (∀ k ∈ s.cmds, isChain k.instr = false) ∧ s.self.y0.hlt = false ∧
    plainCtx (own { ctx0 with hnd := true, tpc := 0x10003 }).self ∧ targetFault (own { ctx0 with hnd := true, tpc := 0x10003 }).self 0x10003 = some 3 ∧
    (left (exec .rft s)).self.pc = 0x10004 ∧ (left (exec .rft s)).self.y0.due = some 3 := by unfold plainCtx; decide +kernel
theorem witness_LoopStackSurvivesTheHandler : (own { ctx0 with ls := [⟨0x10000, 0x10002, 5⟩] }).self.ls.length ≤ 4 ∧ (own { ctx0 with hnd := true, tpc := 0x10004 }).self.hnd = true ∧
    (left ((own { ctx0 with ls := [⟨0x10000, 0x10002, 5⟩] }).trap 1 0)).self.lss0 = ⟨0x10000, 0x10002, 5⟩ := by decide +kernel

/-- Bytes at a place of memory, in canonical form. -/
def bytesIn (a : Nat) (bs : List Byte) : List Host.Cell := (bs.zipIdx.filter fun e => e.1 != 0).map fun e => (a + e.2, e.1)
/-- A launch parameter block: format 1, COUNT n, program record at 0x110100, entry 0x10000, slots 0xFF, inbox of 4 slots at 0x110200,
object at 0x110400, and extent 0 at 0x100000, 1 MiB, that may be written (R276, R277). -/
def lpb (n : Nat) : List Byte :=
  natLe 4 1 ++ natLe 4 n ++ natLe 8 0x110100 ++ natLe 8 0x10000 ++ natLe 8 0x10020 ++ [0, 0, 0, 0, 0xFF, 0, 0, 0] ++ natLe 24 0 ++
    natLe 8 0x110200 ++ natLe 8 4 ++ natLe 8 0x110400 ++ natLe 40 0 ++ natLe 8 (0x10 + 16 * 2 ^ 40 + 2 ^ 63) ++ natLe 120 0
/-- The machine with one context and partition 127 on every field, with a launch parameter block at virtual address 0x110000. -/
def world (x : Ctx) (n : Nat) : State :=
  { own x with mem := bytesIn 0x50000 (lpb n), parts := [(127, { fset := 0xFFFFFFFFFFFFFFFFFFFFFFFF, v := true, z := 0x1000 })] }

theorem witness_SpaceAccessesCheckLoadAndStore :
    let s := own (regs [(1, 0xFFFF8), (2, 0x7FFFF8), (3, 9)])
    (s.reg 1 + 1).toNat % 8 ≠ 0 ∧ bytesOfSpace .node < (s.reg 1 + 8).toNat + 8 ∧ (s.reg 1 + 0).toNat + 8 ≤ bytesOfSpace .node ∧
    (s.reg 2 + 0).toNat + 8 ≤ bytesOfSpace .field ∧ bytesOfSpace .field < (s.reg 2 + 8).toNat + 8 ∧ s.self.inFlight < 4 ∧ 4 ≤ (own busy).self.inFlight ∧
    s.ownView.poisoned (s.spaceBase .node + 0xFFFF8) 8 = none ∧
    (left (exec (.ld .node 3 false 4 1 0) { s with fresh := [(0, 2 ^ 48 + 0xFFFF8, [5])] })).self.flight.map (·.val) = [5] ∧
    (left (exec (.st .field 0 3 2 7) s)).fresh = [(0, 2 ^ 49 + 0x7FFFFF, [9])] := by decide +kernel
theorem witness_SpillStackPushesAndPops :
    let s := own (regs [(1, 0x0102030405060708)])
    let full := own { ctx0 with spd := 2 }
    let none' := own { ctx0 with spd := 2, ovfPtr := 0x300000 }
    let pop := own { ctx0 with spd := 3, ovfPtr := 0x108008 }
    (own { ctx0 with spd := 0xFFFFFFFF }).self.spd.toNat = 2 ^ 32 - 1 ∧ s.self.spd.toNat = 0 ∧ 0 < (s.self.spillLim - s.self.spillBase) / 8 ∧
    (full.self.spillLim - full.self.spillBase) / 8 ≤ full.self.spd.toNat ∧ (full.self.extentOf full.self.ovfPtr.toNat).map (·.w) = some true ∧
    none'.self.extentOf none'.self.ovfPtr.toNat = none ∧ 0 < full.self.spd.toNat ∧ full.self.spd.toNat - 1 < 2 ∧
    2 ≤ pop.self.spd.toNat - 1 ∧ faultOfAccess pop true (.load true) (pop.self.ovfPtr - 8).toNat 8 = none ∧
    (left (exec (.push 1) s)).fresh = [(0, 2 ^ 48 + 0x1000, [8, 7, 6, 5, 4, 3, 2, 1])] ∧ (left (exec (.push 1) full)).self.ovfPtr = 0x108008 := by decide +kernel
theorem witness_GlobalAccessesIssueOrFault :
    let s := world (regs [(1, 0x100000), (2, 0x200000), (3, 0x1000)]) 1
    (globalOf s (.gst .virt 3 false 0 4 1 0 0)).map (·.2.2.1) = some 0x100000 ∧ faultOfAccess s true (.store []) 0x100000 8 = none ∧
    faultOfAccess s true (.store []) 0x200000 8 = some 9 ∧ faultOfAccess s true (.load true) 0x20FFF8 8 = none ∧ faultOfAccess s true (.load true) 0x210000 8 = some 9 ∧
    faultOfAccess s true (.load true) (2 ^ 56) 8 = some 9 ∧ faultOfAccess s true (.load true) 0x100004 8 = some 0x0A ∧
    faultOfAccess s false (.load true) 0xFF8 8 = none ∧ faultOfAccess s false (.load true) 0x1000 8 = some 9 ∧
    (left (exec (.gst .virt 3 false 0 4 1 0 0) s)).accs.map (·.loc.pa) = [0x40000] ∧ s.self.shapePending 3 = false := by decide +kernel
/-- A store, a load, an addition and a compare-and-swap of context 0 at physical address 0x40000, ready to be performed. -/
def accs0 : List Acc :=
  let a := fun (id : Nat) (k : AccKind) (ln : LReg) => (⟨id, 0, k, 0x100000, 8, true, ⟨0, 0x40000, false, 0⟩, 0, false, false, some ln, [], 0, [], false, [], [], false, false, 0, 0⟩ : Acc)
  [a 1 (.store [1, 2, 3, 4, 5, 6, 7, 0xF8]) 1, a 2 (.load false) 2, a 3 (.amo .add 5 false false false) 3, a 4 (.cas 7 9) 4]
def accState : State := { own { ctx0 with l := [(1, { pending := true, acc := 1 }), (2, { pending := true, acc := 2 }), (3, { pending := true, acc := 3 }), (4, { pending := true, acc := 4 })] } with
  accs := accs0, nextId := 5, mem := [(0x40000, 7)] }
theorem witness_AccessesPerformAndLand :
    (∀ a ∈ accs0, accState.acc a.id = some a ∧ accState.accReady a = true ∧ a.loc.dev = accState.ownDev.toNat ∧ a.loc.rep = false ∧
      accState.lineLocked (dieOf (panOf a.ctx)) a.loc.pa a.n = false ∧ accState.poisoned a.loc.pa a.n = none ∧ 0 < a.n) ∧ Memory.wf accState.mem = true ∧
    accState.scrub = [] ∧ unarmed accState ∧ (accState.part accState.self.pid).dlog = false ∧
    ((left (exec (.landingArrival 1 none) accState)).readByte 0x40007 = 0xF8) ∧
    ((left (exec (.landingArrival 2 none) accState)).self.landing 2).val = 7 ∧
    (left (exec (.landingArrival 3 none) accState)).readByte 0x40000 = 12 ∧ (left (exec (.landingArrival 4 none) accState)).readByte 0x40000 = 9 := by
  unfold unarmed
  decide +kernel
theorem witness_LandingRegistersAndFences :
    let s := own { ctx0 with l := [(1, { full := true, val := 5 }), (2, { full := true, poison := some 9 }), (3, { pending := true })] }
    ((s.self.landing 1).full = true ∧ (s.self.landing 1).poison = none) ∧ ((s.self.landing 2).full = true ∧ (s.self.landing 2).poison = some 9) ∧
    ((s.self.landing 3).full = false ∧ (s.self.landing 3).pending = true) ∧ ((s.self.landing 4).full = false ∧ (s.self.landing 4).pending = false) ∧
    (left (exec (.mvl 7 1) s)).reg 7 = 5 ∧ (left (exec (.tstl 7 3) s)).reg 7 = 2 ∧ (left (exec (.mvl 7 4) s)).self.tcode = 7 ∧
    (∀ a ∈ accState.accs, a.ctx = accState.cur → (2 : BitVec 4).getLsbD a.stream.toNat = false) ∧
    (∃ a ∈ accState.accs, a.ctx = accState.cur ∧ (1 : BitVec 4).getLsbD a.stream.toNat = true ∧ a.id < accState.nextId) ∧
    (left (exec (.fence .acq .sys 1) accState)).self.heldAll = [2, 3, 4] := by decide +kernel
theorem witness_ShapeFieldsReadAndWrite :
    let s := own (regs [(1, 0x803), (2, 0x903), (3, 0xFFFF), (4, 0x10000), (5, 0xFFFFFFFFFFF80000), (6, 0xFFFFFFFFFFF7FFFF), (7, 0x703)])
    s.self.shapePending 3 = false ∧ ((s.reg 7).extractLsb' 8 5).toNat = 7 ∧ (own { ctx0 with hpend := [(3, 1)] }).self.shapePending 3 = true ∧
    (left (exec (.hset 8 1 3) s)).self.h.map (·.1) = [3] ∧ (left (exec (.hset 8 1 4) s)).self.tcode = 0x0B ∧
    (left (exec (.hget 8 2) (left (exec (.hset 8 2 5) s)))).reg 8 = 0xFFFFFFFFFFF80000 ∧ (left (exec (.hset 8 2 6) s)).self.tcode = 0x0B := by decide +kernel
theorem witness_SystemRegistersReadAndWrite :
    let s := own { ctx0 with tpc := 0x10004, s := [(1, 0xFFFFFFFFFFFFFFFF)] }
    0x800 ≤ (0x800 : BitVec 12).toNat ∧ sysRegister s s.self 0x006 = none ∧ sysRegister s s.self 0x003 = some 0x10004 ∧
    (left (exec (.sysr 4 3) s)).reg 4 = 0x10004 ∧ (left (exec (.sysw 3 1) s)).self.tpc = 0xFFFFFFFFFFFFFF ∧ (left (exec (.sysw 0x7FF 1) s)).self.tcode = 1 ∧
    (left (exec (.sysw 0x800 1) s)).self.tcode = 0x10 := by decide +kernel
theorem witness_ContextsStopForFirmware :
    let s := own ctx0
    let held := own { ctx0 with hold := some { stage := 1 }, store := expandText [] 1 0 ((encode (.ecall 1 2 3) ++ List.replicate 64 0xFF).take 64) }
    allLanded s.self ∧ ¬ allLanded (own busy).self ∧ ((own { ctx0 with run := .stop }).ctx 0).run = .stop ∧ s.self.hold = none ∧
    held.self.hold = some { stage := 1 } ∧ textAtPc held.self = some (.word 0xEF0088000000000000000003) ∧ decodeWord 0xEF0088000000000000000003 = .ok (.ecall 1 2 3) ∧
    (left (exec .halt s)).self.run = .stop ∧ (left (exec (.haltResume 0 true) (left (exec .halt s)))).self.pc = 0x10002 ∧
    (left (exec (.ecall 1 2 3) (left (exec (.ecallAnswer 0 77) held)))).reg 1 = 77 := by unfold allLanded; decide +kernel

/-- A context that stands at an instruction, with a hold. -/
def standing (i : Instr) (h : Option Hold) : Ctx := { ctx0 with hold := h, store := expandText [] 1 0 ((encode i ++ List.replicate 64 0xFF).take 64) }

theorem witness_ContextsStopForFirmware_waits :
    let s := own { ctx0 with s := [(2, 9)], hold := some { stage := 0, val := 5 } }
    let b := own { busy with s := [(2, 9)] }
    allLanded s.self ∧ s.self.hold = some { stage := 0, val := 5 } ∧ (left (exec (.ecall 1 2 3) s)).fw = [.ecall 0 3 5] ∧
    (left (exec (.launch 3 2) s)).self.hold.map (·.val) = some 5 ∧ ¬ allLanded b.self ∧ b.self.hold = none ∧
    (left (exec (.ecall 1 2 3) b)).self.hold.map (fun h => (h.stage, h.val)) = some (0, 9) := by unfold allLanded; decide +kernel

theorem witness_WaitsEndOnEventOrTimeout :
    let w : Instr := .waite 1 2 0x302
    let s := own { ctx0 with l := [(1, { full := true })] }
    let held := { own { standing w (some { since := 0, val := 5 }) with cyc := 5 } with }
    let run := fun (c : Nat) => own { standing w (some { since := 0, val := 5 }) with cyc := c }
    (left (exec w s)).reg 1 = 2 ∧ (left (exec w (own { ctx0 with yreq := true }))).reg 1 = 0x200 ∧ (own ctx0).self.hold = none ∧
    held.self.hold = some { since := 0, val := 5 } ∧ held.self.cyc - 0 = 5 ∧ (left (exec w held)).reg 1 = 0x400 ∧ (left (exec w (run 4))).self.hold.isSome = true ∧
    textAtPc held.self = (encodeWord w).map .word ∧ held.turn.head? = some 0 ∧ held.self.run = .running ∧ held.cur = 0 ∧
    (left (exec (.waiteEnd 0) held)).reg 1 = 0x400 ∧ left (exec (.waiteEnd 0) (run 4)) = run 4 := by decide +kernel
/-- Task 1 of partition 127. -/
def ref1 : TaskRef := ⟨127, 1⟩
/-- A task with an inbox at 0x110200 in the first extent, whose message count stands one above its read count. -/
def task0 : Task := { pid := 127, state := .running, count := 1, lpb := lpb 1, cpl := ⟨0, 0x50400, false, 0⟩, inbox := [⟨0, 1, 0x50000, 0, 0, false, 0⟩], insts := [], built := [] }
theorem witness_WaitsEndOnEventOrTimeout_inbox :
    let s := { world { ctx0 with task := 1 } 1 with tasks := [(taskKey ref1, task0)], mem := [(0x50200, 1)] }
    s.task? ref1 = some task0 ∧ (task0.inboxLoc 0).dev = s.ownDev.toNat ∧ (task0.inboxLoc 0).rep = false ∧ (task0.inboxLoc 0).pa = 0x50200 ∧ s.scrub = [] ∧
    little (bytesAt s 0x50200 8) = 1 ∧ (left (exec (.waite 1 0 0x100) s)).reg 1 = 0x100 := by decide +kernel
theorem witness_DictionaryAndTextAreExpandedAgain :
    let s := own (regs [(1, 0x100000), (2, 0x1FF040), (3, 0x20F040)])
    let done := { own { standing .flushi (some { stage := 1, since := 0, upto := 40 }) with cyc := 11 } with cycle := 40 }
    let early := { own { standing .flushi (some { stage := 1, since := 0, upto := 40 }) with cyc := 11 } with cycle := 39 }
    (s.reg 1 + 8).toNat % 64 ≠ 0 ∧ (s.self.extentOf 0x1FF040).isSome = true ∧ (s.self.extentOf (0x1FF040 + 4095)).isSome = true ∧
    (s.self.extentOf (0x20F040 + 4095)).isSome = false ∧ s.self.hold = none ∧ allLanded s.self ∧
    (left (exec (.dictld 3 0) s)).self.tcode = 9 ∧ (left (exec (.dictld 1 8) s)).self.tcode = 0x0A ∧ (left (exec (.dictld 2 0) s)).self.hold.isSome = true ∧
    quiet done ∧ done.scrub = [] ∧ done.readFree false = true ∧ early.cycle < 40 ∧ textAtPc done.self = (encodeWord .flushi).map .word ∧ done.turn.head? = some 0 := by unfold allLanded quiet; decide +kernel
theorem witness_TideIsReadAndAwaited :
    let at5 := fun (x : Ctx) => { own x with domains := [(1016, { t := 5 })] }
    let s := at5 ctx0
    s.domOf s.pan = 1016 ∧ (left (exec (.tider 1) s)).reg 1 = 5 ∧ (left (exec (.tidew 1 5) s)).reg 1 = 0x8000000000000000 ∧ (left (exec (.tidew 1 6) s)).self.mark = some 6 ∧
    (left (exec (.tidew 1 6) (at5 { ctx0 with hold := some {}, mark := some 6, markDone := true, markStall := 3 }))).reg 1 = 3 ∧ ctx0.occ = 0 ∧
    (left (exec (.phase 9) s)).self.phase = 9 := by decide +kernel
theorem witness_LaunchTakesOrRefuses :
    let h : Hold := { stage := 1, val := 0x110000, upto := 40 }
    let s := { world { standing (.launch 3 1) (some h) with pid := 127 } 1 with cycle := 40 }
    let full := { s with parts := [(127, { fset := 0xFFFFFFFFFFFFFFFFFFFFFFFF, v := true, queue := List.range 64 })] }
    allLanded s.self ∧ quiet s ∧ s.readFree true = true ∧ ¬ allLanded (own busy).self ∧ faultOfAccess s true (.load true) 0x110000 256 = none ∧ faultOfAccess s true (.load true) 0x110080 256 = some 0x0A ∧
    s.readVirt s.self 0 0x110000 256 = .bytes (lpb 1) ∧ s.launchCheck s.self 0 127 0x110000 (lpb 1) = .take ∧ full.launchCheck s.self 0 127 0x110000 (lpb 1) = .full ∧
    s.launchCheck s.self 0 127 0x110000 (natLe 4 2 ++ (lpb 1).drop 4) = .fault 1 0x110000 ∧ (lpbOf (lpb 1)).count = 1 ∧ (lpbOf (lpb 0)).count = 0 ∧
    s.taskLive ⟨127, s.lastTask 127 + 1⟩ = false := by unfold allLanded quiet; decide +kernel
theorem test_launch_takes :
    let s := { world { standing (.launch 3 1) (some { stage := 1, val := 0x110000, upto := 40 }) with pid := 127 } 1 with cycle := 40 }
    let t := left (exec (.launch 3 1) s)
    t.reg 3 = 1 ∧ t.lastTask 127 = 1 ∧ (t.part 127).queue = [1] ∧ (objectAt t 0x50400).pend = 1 ∧ (objectAt t 0x50400).st = 1 := by decide +kernel

/-- A message from context 0 to task 1, with its completion object at physical address 0x40000. -/
def msgState (w r : Nat) : State :=
  { world (regs [(1, 1), (2, 0x100040), (3, 0x100000)]) 1 with
    tasks := [(taskKey ref1, task0)]
    mem := bytesIn 0x40000 [1, 0, 0, 0, 0, 0, 0, 1] ++ bytesIn 0x50200 (natLe 8 w ++ natLe 8 r)
    nextId := 2
    accs := [⟨1, 0, .msg 1 ⟨0, 0x40000, false, 0⟩, 0x100040, 64, true, ⟨0, 0x40040, false, 0⟩, 0, false, true, none, [], 0, [], false, [], [], false, false, 0, 0⟩] }
theorem witness_MessagesAreArmedAndDelivered_issue :
    let s := { msgState 0 0 with accs := [] }
    let top := { s with mem := bytesIn 0x40000 [0xFF, 0xFF, 0xFF, 0xFF, 0xFF, 0xFF, 0xFF, 1] }
    Memory.wf s.mem = true ∧ plain s (s.locate s.self true 0x100000) ∧ whole s 0x40000 32 ∧ plainWrites s s.self.pid ∧ faultOfAccess s true (.load true) 0x100040 64 = none ∧ faultOfAccess s true (.store []) 0x100000 64 = none ∧
    faultOfAccess s true (.store []) 0x200000 64 = some 9 ∧ faultOfAccess s true (.load true) 0x100020 64 = some 0x0A ∧ (s.locate s.self true 0x100000).pa = 0x40000 ∧
    (s.locate s.self true 0x100000).rep = false ∧ (objectAt s 0x40000).pend + 1 ≤ pendTop ∧ pendTop < (objectAt top 0x40000).pend + 1 ∧ s.scrub = [] ∧
    (s.part s.self.pid).dlog = false ∧ (objectAt (left (exec (.msg 1 2 3) s)) 0x40000).pend = 2 ∧ (objectAt (left (exec (.msg 1 2 3) top)) 0x40000).code = 0x0209 := by
  unfold plainWrites quiet unarmed plain whole
  decide +kernel
theorem witness_MessagesAreArmedAndDelivered_delivery :
    let s := msgState 3 0
    let full := msgState 4 0
    let dead := { s with tasks := [(taskKey ref1, { task0 with state := .exited })] }
    plain s ⟨0, 0x40000, false, 0⟩ ∧ whole s 0x40000 32 ∧ plainWrites s s.self.pid ∧ plain s (task0.inboxLoc 0) ∧ plainWrites s task0.pid ∧
    (s.acc 1).map (·.kind) = some (.msg 1 ⟨0, 0x40000, false, 0⟩) ∧ ((s.acc 1).map fun a => s.accReady a) = some true ∧ dead.taskLive ref1 = false ∧
    s.task? ref1 = some task0 ∧ task0.state ≠ .exited ∧ task0.inboxSlots = 4 ∧ (task0.inboxLoc 0).pa = 0x50200 ∧ (task0.inboxLoc 4).pa = 0x50300 ∧
    little (bytesAt s 0x50200 8) < little (bytesAt s 0x50208 8) + 4 ∧ little (bytesAt full 0x50208 8) + 4 ≤ little (bytesAt full 0x50200 8) ∧
    (objectAt (left (exec (.msgDelivery 1) s)) 0x40000).pend = 0 ∧ little (bytesAt (left (exec (.msgDelivery 1) s)) 0x50200 8) = 4 ∧
    (objectAt (left (exec (.msgDelivery 1) full)) 0x40000).code = 0x0102 ∧ little (bytesAt (left (exec (.msgDelivery 1) full)) 0x50214 4) = 1 ∧
    (objectAt (left (exec (.msgDelivery 1) dead)) 0x40000).code = 0x0101 := by
  unfold plainWrites quiet unarmed plain whole
  decide +kernel
/-- A context of instance 0 of task 1, whose region has as many pans as `n`. -/
def member (n : Nat) : Ctx := { regs [(1, 0x10007)] with task := 1, pans := n }
def memberState (n : Nat) : State := { world (member n) 1 with tasks := [(taskKey ref1, task0)], mem := bytesIn 0x50400 [1, 0, 0, 0, 0, 0, 0, 1] }
theorem witness_YieldAndExitHandTheContextOver :
    let s := memberState 2
    let y := own { ctx0 with yreq := true }
    s.runsOf s.cur = [] ∧ s.self.body = none ∧ s.self.occ = 0 ∧ s.self.hold = none ∧ allLanded s.self ∧ (∀ k ∈ s.cmds, k.ctx ≠ s.cur) ∧ s.writesOf s.cur = [] ∧
    s.moreInstances s.cur = false ∧ Kv.wf ({} : Ctx) s.ctxs = true ∧ y.self.yreq = true ∧ allLanded y.self ∧ ¬ allLanded (own { busy with yreq := true }).self ∧
    (left (exec (.yield 5) (own ctx0))).reg 5 = 0 ∧ (left (exec (.yield 5) y)).reg 5 = 1 ∧ (left (exec (.yield 5) y)).self.run = .halted .yield ∧
    s.self.regionSize = 2 ∧ (memberState 1).self.regionSize = 1 ∧ Memory.wf (memberState 1).mem = true ∧ plain (memberState 1) ((memberState 1).task ref1).cpl ∧
    whole (memberState 1) 0x50400 32 ∧ plainWrites (memberState 1) ((memberState 1).task ref1).pid := by
  unfold allLanded plainWrites quiet unarmed plain whole
  decide +kernel
theorem test_exit :
    let two := { memberState 2 with ctxs := [(0, member 2), (8, { member 2 with ridxPan := 1 })] }
    (left (exec (.exit 1) two)).self = {} ∧ ((left (exec (.exit 1) two)).task ref1).state = .running ∧
    ((left (exec (.exit 1) (memberState 1))).task ref1).state = .exited ∧ (objectAt (left (exec (.exit 1) (memberState 1))) 0x50400).code = 7 ∧
    (objectAt (left (exec (.exit 1) (memberState 1))) 0x50400).st = 2 := by decide +kernel
theorem witness_FirmwareEndsAndBindsInstances :
    let s := memberState 1
    let r : BindRec := { noRec with v := true, task := 1, slots := 0xFF }
    quiet s ∧ s.taskLive ref1 = true ∧ (0 : BitVec 24).toNat < (s.task ref1).info.count ∧ Kv.wf ({} : Ctx) s.ctxs = true ∧ ((own { member 1 with run := .stop }).ctx 0).run = .stop ∧ r.v = true ∧
    Kv.wf ({ r := noRec } : SlotRec) s.slotTab = true ∧ (left (exec (.instanceEnd ref1 0) s)).self.run = .free ∧ (objectAt (left (exec (.instanceEnd ref1 0) s)) 0x50400).code = 0xFFFF ∧
    ((left (exec (.bindRecordWrite 3 2 r) s)).record 3 2).r = r ∧ ((left (exec (.bindRecordWrite 3 2 { r with slots := 0 }) s)).record 3 2).bad = true := by
  unfold quiet
  decide +kernel
theorem witness_FirmwareEndsAndBindsInstances_build :
    let s := memberState 1
    (match s.buildExtents 0 0 [] with | .ok es => es == [] | .error _ => false : Bool) = true ∧
    (match s.buildExtents 0 0 (s.task ref1).info.ext with | .ok _ => false | .error e => e == (0, 0x100000) : Bool) = true := by decide +kernel

/-- A block of one row slot at row 0: every element holds FCW 0x10000 with one group, which R148 allows, and RNOP. -/
def blk0 : Block := { live := true, id := 5, clr := true, ii := 1, twin := 1, elems := (List.range 256).map fun e => (e, { fcw := 0x100 }) }
/-- The same with one element written. -/
def blk1 : Block := { blk0 with elems := [(19, { fcw := 0x100 })] }
/-- Context 0 with a body open on mask 1. -/
def bodyState (x : Ctx) (b : Block) : State := { own { x with body := some ⟨1, 5, 0x10000, none, none, []⟩ } with shadow := [(1, { b with live := false })] }
theorem witness_BodiesOpenAndAreChecked_blk :
    let busyStamp := { own ctx0 with shadow := [(1, { blk1 with owner := 3, copy := 1 })] }
    (bodyState ctx0 {}).self.body.isSome = true ∧ (own ctx0).self.body = none ∧ busyStamp.stampBusy 1 = true ∧ (own ctx0).stampBusy 1 = false ∧
    Kv.wf ({} : Block) (own ctx0).shadow = true ∧ (left (exec (.blk true 1 5 3 1 1 0) (own ctx0))).self.body = some ⟨1, 5, 0x10000, none, none, []⟩ ∧
    (left (exec (.blk true 1 5 3 1 1 0) (own ctx0))).shadowBlk 0 1 = { id := 5, clr := true, ewin := 3, twin := 1, ii := 1, blkPc := 0x10000 } ∧
    (left (exec (.blk true 1 5 3 1 1 0) (bodyState ctx0 {}))).self.tcode = 4 := by decide +kernel

theorem crcBits_lt : ∀ (n c : Nat), c < 2 ^ 32 → crcBits n c < 2 ^ 32
  | 0, _, h => h
  | n + 1, c, h => by
    rw [crcBits]
    apply crcBits_lt n
    split
    · exact Nat.xor_lt_two_pow (by omega) (by decide)
    · omega
theorem crc32c_lt (bs : List Byte) : crc32c bs < 2 ^ 32 := by
  have h : ∀ (l : List Byte) (c : Nat), c < 2 ^ 32 → l.foldl crcByte c < 2 ^ 32 := by
    intro l
    induction l with
    | nil => exact fun c h => h
    | cons b l ih => exact fun c h => ih _ (crcBits_lt 8 _ (Nat.xor_lt_two_pow h (by have := b.isLt; omega)))
  exact Nat.xor_lt_two_pow (h bs _ (by decide)) (by decide)
/-- Context 0 at the BEND of a body that R165 allows: every element holds the one configuration of `blk0`. -/
def endState : State := bodyState { ctx0 with hold := some { since := 0 }, cyc := 5 } blk0
def endBlk : Block := endState.shadowBlk 0 1
theorem get_all_of (c : ElemCfg) (e : Nat) : ∀ (n k : Nat), Kv.get {} ((List.range' k n).map fun e => (e, c)) e = if k ≤ e ∧ e < k + n then c else {}
  | 0, k => by rw [if_neg (by omega)]; rfl
  | n + 1, k => by
    rw [List.range'_succ, List.map_cons, Kv.get]
    split
    · rw [if_pos (by omega)]
    · split
      · rw [if_neg (by omega)]
      · rw [get_all_of c e n (k + 1)]
        congr 1
        simp only [eq_iff_iff]
        omega
theorem endBlk_cfg {e : Nat} (he : e < 256) : endBlk.elemCfg e = { fcw := 0x100 } := by
  have h := get_all_of { fcw := 0x100 } e 256 0
  rw [← List.range_eq_range', if_pos (by omega)] at h
  exact h
theorem endBlk_row {e : Nat} (he : e < 256) (j : Nat) : endBlk.rowAt e j = .rnop := by
  rw [Block.rowAt, endBlk_cfg he]
  exact (by decide : rowOf ⟨0xB8, 0, 0⟩ = .rnop)
theorem endBlk_indices : endBlk.indices = [0] := by decide +kernel
theorem firstElem_none {f : Nat → Option (Nat × Nat)} (h : ∀ e, e < 256 → f e = none) : firstElem f = none :=
  List.findSome?_eq_none_iff.mpr fun e he => by rw [h e (List.mem_range.mp he)]; rfl
theorem endBlk_firstRow {f : Nat → Option Nat} (h : f 0 = none) : endBlk.firstRow f = none := by
  rw [Block.firstRow, endBlk_indices, List.findSome?_cons, h]; rfl
theorem endBlk_live {e : Nat} (he : e < 256) (j : Nat) : endBlk.liveRegs e j = [] := by
  rw [Block.liveRegs, endBlk_cfg he]
  exact (by decide : maskRegs 0 0 = [])
theorem endBlk_unitsAt {e : Nat} (he : e < 256) (j : Nat) : endBlk.unitsAt e j = [] := by rw [Block.unitsAt, endBlk_row he]
theorem endBlk_units : endBlk.units = [] := by
  have h : (allElems.flatMap fun e => endBlk.indices.flatMap (endBlk.unitsAt e)) = [] :=
    List.flatMap_eq_nil_iff.mpr fun e he => List.flatMap_eq_nil_iff.mpr fun j _ => endBlk_unitsAt (List.mem_range.mp he) j
  rw [Block.units, h]; rfl
theorem endBlk_kinds : (allElems.map fun e => endBlk.trim (endBlk.elemCfg e)).dedup.length ≤ 256 := by
  refine (List.Sublist.length_le (List.dedup_sublist _)).trans ?_
  simp [allElems]
theorem endBlk_pending {e : Nat} (he : e < 256) : endBlk.pending e = 0 := by
  have h : (endBlk.indices.filter fun j => isTile (endBlk.rowAt e j) && (endBlk.tileWait e j).1 != 0) = [] :=
    List.filter_eq_nil_iff.mpr fun j _ => by rw [endBlk_row he, show isTile .rnop = false from rfl, Bool.false_and]; decide
  simp only [Block.pending, h, List.flatMap_nil, List.map_nil, List.foldl_nil]
  decide +kernel
theorem endBlk_bound {e : Nat} (he : e < 256) : endBlk.bound e = ⟨0, [], 0, 0, 0⟩ := by
  simp only [Block.bound, Block.usedPorts, endBlk_cfg he, endBlk_row he, endBlk_indices, endBlk_pending he]
  decide +kernel
theorem endState_blocks : endState.maskBlocks endBlk 1 0 0 = [⟨none, some endBlk⟩] := by
  have h1 : endState.residents 0 = [] := rfl
  simp only [State.maskBlocks, h1]
  rfl
theorem endState_bound {e : Nat} (he : e < 256) : (MaskBlocks.mk none (some endBlk)).bound e = ⟨0, [], 0, 0, 0⟩ := by
  have h : (MaskBlocks.mk none (some endBlk)).live e = 0 := by
    simp only [MaskBlocks.live, Option.map_some, Option.map_none, Option.getD_some, Option.getD_none, endBlk_cfg he, endBlk_indices]
    decide +kernel
  simp only [MaskBlocks.bound, h, MaskBlocks.all, Option.toList, List.nil_append, List.map_cons, List.map_nil, endBlk_bound he]
  rfl
theorem endState_image : endState.checkImage endBlk 1 0 0 = none := by
  have hc : endBlk.configBytes ≤ 1600 + 256 + 40 * 256 := by
    rw [Block.configBytes, endBlk_units, show endBlk.ii.toNat = 1 from by decide +kernel]
    have := endBlk_kinds
    simp only [List.filter_nil, List.length_nil]
    omega
  have h1 : endState.residents 0 = [] := rfl
  have h2 : endState.cmds = [] := rfl
  have hu : ([(MaskBlocks.mk none (some endBlk))].flatMap MaskBlocks.all).flatMap Block.units = [] := by
    simp [MaskBlocks.all, endBlk_units]
  have ht : (([(MaskBlocks.mk none (some endBlk))].flatMap MaskBlocks.all).foldl (fun t d => t ||| d.twin) (0 : BitVec 8)) = 1 := by decide +kernel
  simp only [State.checkImage, endState_blocks, h1, h2, hu, ht, List.dedup_nil]
  rw [firstElem_none fun e h => by
    simp only [List.map_cons, List.map_nil, endState_bound h, List.contains_nil]
    decide]
  rw [Option.orElse_none, if_neg (by decide), if_neg (by simpa using by omega)]
theorem endState_passes : endState.bendCheck 0 0 1 endBlk 0 [] none = none := by
  refine List.findSome?_eq_none_iff.mpr fun i hi => ?_
  have hi : i < 16 := List.mem_range.mp hi
  interval_cases i <;> simp only [State.checkAt, Option.map_eq_none_iff]
  · exact List.find?_eq_none.mpr fun e he => by rw [endBlk_cfg (List.mem_range.mp he)]; decide
  · decide +kernel
  · exact firstElem_none fun e he => endBlk_firstRow (by rw [endBlk_row he]; rfl)
  · decide +kernel
  · exact firstElem_none fun e he => endBlk_firstRow (by rw [endBlk_row he]; rfl)
  · exact firstElem_none fun e he => endBlk_firstRow (by simp only [endBlk_live he]; rfl)
  · exact firstElem_none fun e he => endBlk_firstRow (by
      rw [endBlk_indices]
      simp only [Block.flightsAt, Block.flightSpan, endBlk_row he, show isTile .rnop = false from rfl, Bool.false_eq_true, if_false, Bool.false_and]
      decide +kernel)
  · exact firstElem_none fun e he => endBlk_firstRow (by
      rw [endBlk_indices]
      simp only [Block.brickClash, Block.brickHold, endBlk_row he]
      rfl)
  · exact firstElem_none fun e he => by
      rw [endBlk_cfg he]
      rfl
  · decide +kernel
  · exact firstElem_none fun e he => by
      rw [endBlk_cfg he]
      simp only [Block.needs, endBlk_row he]
      rw [if_neg (by rw [show (allPorts.any fun p => ElemCfg.kind { fcw := 0x100 } p == 1 && _) = false from rfl]; decide)]
      exact endBlk_firstRow rfl
  · decide +kernel
  · exact firstElem_none fun e he => endBlk_firstRow (by rw [Block.rowBad, endBlk_row he]; rfl)
  · exact endState_image
theorem witness_BodiesOpenAndAreChecked_bend :
    let d := bodyState { ctx0 with hold := some { since := 0 }, cyc := 5 } { blk1 with ii := 0 }
    endState.self.body = some ⟨1, 5, 0x10000, none, none, []⟩ ∧ endState.self.hold = some { since := 0 } ∧ 0 + 5 ≤ endState.self.cyc ∧
    (bodyState { ctx0 with hold := some { since := 0 }, cyc := 4 } blk1).self.cyc < 0 + 5 ∧ endState.bendCheck 0 0 1 (endState.shadowBlk 0 1) 0 [] none = none ∧
    d.bendCheck 0 0 1 (d.shadowBlk 0 1) 0 [] none = some (refusal 0x07 0 0 0x3F 0) :=
  ⟨rfl, rfl, by decide +kernel, by decide +kernel, endState_passes, by decide +kernel⟩
theorem witness_BodiesOpenAndAreChecked_crc (b : Block) (m : BitVec 8) : (∃ crc : BitVec 32, b.checksum m = crc.toNat) ∧ ∃ crc : BitVec 32, b.checksum m ≠ crc.toNat := by
  have h : b.checksum m < 2 ^ 32 := crc32c_lt _
  refine ⟨⟨BitVec.ofNat 32 (b.checksum m), by rw [BitVec.toNat_ofNat, Nat.mod_eq_of_lt h]⟩, ?_⟩
  by_cases h0 : b.checksum m = 0
  · exact ⟨1, by simp [h0]⟩
  · exact ⟨0, by simpa using h0⟩
theorem witness_BodyWordsWriteTheShadowBlock :
    let s := bodyState ctx0 { blk1 with f := 3, ii := 2 }
    let o : OpenBody := ⟨1, 5, 0x10000, none, some (2, 4), []⟩
    let b := s.shadowBlk 0 1
    let w : RowWord := ⟨⟨0xB8, 0, 0⟩, 1, 1, 4⟩
    inBody (.nest 1 5 (.counts 7)) = true ∧ (own ctx0).self.body = none ∧ repeats (.nest 1 5 (.counts 7)) = some (1, 5) ∧
    (elementPart o b (.fuse 1 5 1 2 9)).isSome = true ∧ (elementPart o b (.fuseLive 1 5 9 9 4)).isSome = true ∧ (elementPart o b (.bodyRowWord w)).isSome = true ∧
    (elementPart o b (.bodyRowWord { w with idx := 5 })).isSome = false ∧ (elementPart { o with last := none } b (.fuseLive 1 5 9 9 4)).isSome = false ∧
    Kv.wf ({} : ElemCfg) b.elems = true ∧ Kv.wf (0 : Nat) b.stages = true ∧
    (((left (exec (.fuse 1 5 1 2 9) s)).shadowBlk 0 1).elemCfg 16).fcw = 9 ∧ (((left (exec (.fuse 1 5 1 2 9) s)).shadowBlk 0 1).elemCfg 19).fcw = 0x100 ∧
    ((left (exec (.nest 1 5 (.counts 7)) s)).shadowBlk 0 1).nest = 7 ∧
    (left (exec (.bind 1 5 (.node 0 0 0 0 0 0 .inn false)) s)).shadowBlk 0 1 = { b with nodeB := [(0, 1)] } := by decide +kernel
/-- A block loaded on mask 1, and one active on mask 2 whose one element has a dirty lane. -/
def blkState (x : Ctx) : State := { own x with
  shadow := [(1, blk1)], active := [(2, blk1)], runs := [(2, { live := true, start := 3 })], kcnt := [(2, 4)], elems := [(19, { t := [(0, { valid := true, dirty := true, l := 9 })] })] }
theorem witness_BlocksStampAndStart :
    let s := blkState ctx0
    let held := blkState { ctx0 with hold := some { since := 0 }, cyc := 127, map := [0, 1], pans := 2 }
    (s.shadowBlk 0 4).live = false ∧ (s.shadowBlk 0 1).id ≠ 6 ∧ (s.shadowBlk 0 1).live = true ∧ (s.shadowBlk 0 1).id = 5 ∧ s.self.hold = none ∧
    0 + 127 + 2 * ((1 : BitVec 6).toNat - 1) ≤ held.self.cyc ∧ (s.shadowBlk 0 1).stampN = 0 ∧ s.copies 0 1 = [0] ∧ s.flipReady 1 0 = true ∧
    ({ s with shadow := [(2, blk1)], kcnt := [(2, 2)] } : State).flipReady 2 0 = false ∧
    (held.dropCopies 0 1).stampCheck 0 1 { blk0 with stampN := 1 } 1 = none ∧ held.copyPan 0 0 = some 0 ∧
    ((left (exec (.bgo 1 5 7) s)).runOf 0 1).start = 10 ∧ ((left (exec (.bgo 1 6 7) s)).self.tcode = 5) := by decide +kernel
theorem witness_BlocksDrainAndAreReleased :
    let s := blkState ctx0
    let early := { s with kcnt := [(2, 2)] }
    let clean := { s with elems := [(19, { t := [(0, { valid := true, l := 9 })] })] }
    s.copies 0 2 = [0] ∧ s.finished (blkKey 0 2) = true ∧ s.pendingResults 2 0 = false ∧ s.pendingWrites 2 0 = false ∧ s.lanesBusy 0 1 = false ∧
    early.finished (blkKey 0 2) = false ∧ early.lastQuiet (blkKey 0 2) = false ∧ (s.activeBlk 0 2).live = true ∧ (s.activeBlk 0 4).live = false ∧
    s.dirtyFault 2 [0] = some 0x1301 ∧ clean.dirtyFault 2 [0] = none ∧ Kv.wf ({} : BlkRun) s.runs = true ∧ Kv.wf ({} : Elem) s.elems = true ∧
    (left (exec (.brel 2) s)).self.tcode = 0x0C ∧ (left (exec (.brel 2) s)).self.tval = 0x1301 ∧ ((left (exec (.brel 2) clean)).runOf 0 2).live = false ∧
    ((left (exec (.tdisc 2 1) s)).elem 0 19).lane 0 = {} := by decide +kernel
theorem get_all {α : Type} (P : α → Prop) (d : α) (hd : P d) (k : Nat) : ∀ m : Kv α, (∀ e ∈ m, P e.2) → P (Kv.get d m k)
  | [], _ => hd
  | (a, v) :: m, h => by
    rw [Kv.get]
    split
    · exact h (a, v) (by simp)
    · split
      · exact hd
      · exact get_all P d hd k m fun e he => h e (by simp [he])
theorem witness_tidyElems : tidyElems (blkState ctx0) :=
  ⟨by decide +kernel, fun e => get_all (fun x : Elem => Kv.wf ({} : Lane) x.t = true) {} rfl _ _ (by decide +kernel)⟩
theorem witness_TablesLoadAndLanesAreReadOut :
    let s := { blkState ctx0 with mem := bytesIn (2 ^ 48 + 0x40) ([1, 0, 0, 0] ++ natLe 4 0 ++ [0, 0, 5, 0] ++ natLe 2 8 ++ natLe 2 2 ++ natLe 4 0x100 ++ natLe 12 0) }
    let held := { s with ctxs := [(0, { ctx0 with hold := some { since := 0 }, cyc := 4 })] }
    (0x21 : BitVec 20).toNat % 64 ≠ 0 ∧ 0x100000 < (0xFFFFC : BitVec 20).toNat + 260 ∧ (0xFFFC0 : BitVec 20).toNat + 64 ≤ 0x100000 ∧ s.ownView.poisoned (nodeBase 0 + 0x40) 64 = none ∧
    s.self.hold = none ∧ held.self.hold = some { since := 0 } ∧ 0 + 5 ≤ held.self.cyc + 1 ∧ (Kv.get {} (left (exec (.gtab 0x40) held)).tables 0).gS % 256 = 1 ∧
    s.trdFault 2 0 0x40 (trdDesc (little (bytesAt s.ownView (nodeBase 0 + 0x40) 32))) = none ∧ s.trdFault 2 0 0x41 (trdDesc 0) = some (0x0A, 0x41) ∧
    s.trdFault 2 1 0x40 (trdDesc 0) = some (9, 1) ∧ (trdDesc (little (bytesAt s.ownView (nodeBase 0 + 0x40) 32))).els = [19] ∧ s.laneBusy 0 19 0 = false ∧
    ({ s with elems := [(19, { flight := [⟨2, 9, .lane 0, .bits 0, true, 3⟩] })] } : State).laneBusy 0 19 0 = true ∧
    (left (exec (.trd 2 0 0x40) s)).self.hold.map (fun h => (h.stage, h.upto, h.data)) = some (1, 8, [9, 0, 0, 0]) := by decide +kernel

/-- An element that is to issue a row: element (3, 1) of pan 0, in a block on mask 2, with some values in its registers. -/
def rowState (fcw : BitVec 32) : State := { own ctx0 with
  site := { pan := 0, mask := 2, elem := 19, kc := 4, ent := ⟨0xB8, 0, 0⟩ }
  active := [(2, { blk0 with elems := [(19, { fcw := fcw })] })]
  runs := [(2, { live := true, start := 3, iter := 7 })]
  kcnt := [(2, 4)]
  elems := [(19, { e := [(1, 0x40490FDB), (2, 0xC0000000), (3, 5), (4, 0xFFFFFFFE)], t := [(1, { l := 0xFFFFFFFFFFFFFFF0, valid := true })], latchActive := 3, latchLoad := 9 })]
  nodeCtl := [(0, { base := 0x100, size := 64, depth := 2, dir := 2, xctr := 7, slots := [(0, { full := true, tag := 7 })] })]
  mem := bytesIn (2 ^ 48 + 0x100) [1, 2, 3, 4, 5, 6, 7, 8] }
def flightOf (s : State) : List EFlight := (s.elem 0 19).flight
theorem witness_ArithmeticRowsEmitTheirResults :
    let s := rowState 0
    (integerRow s (.iadd (.e 5) (.e 3) (.e 4) ⟨0, false⟩)).isSome = true ∧ (floatRow s (.fadd .f32 .rne (.e 5) (.e 1) (.e 2))).isSome = true ∧ (codeRow s (.fclass .f32 (.e 5) (.e 2))).isSome = true ∧
    flightOf (left (exec (.iadd (.lane 5) (.e 3) .imm ⟨0xFF0, true⟩) s)) = [⟨2, 5, .lane 5, .bits 0xFFFFFFFFFFFFFFF5, false, 3⟩] ∧
    flightOf (left (exec (.imac (.e 5) (.e 3) (.e 4) (.e 3) ⟨0, false⟩) s)) = [⟨2, 6, .e 5, .bits 0xFFFFFFFB, true, 3⟩] ∧
    flightOf (left (exec (.fclass .f32 (.e 5) (.e 2)) s)) = [⟨2, 5, .e 5, .bits 2, false, 3⟩] := by decide +kernel
/-- The sequence of R240 for x = -137.75 and the other corners of R236, R237, R240 and R241. -/
theorem test_exp2_of_R240 :
    let s := { rowState 0 with elems := [(19, { e := [(1, 0xC309C000), (2, 0xC30A0000), (3, 0x3E800000), (4, 0x3F9837F0), (5, 0x80000000), (6, 0x7F800000), (7, 0x7FA00000)] })] }
    let f := fun (i : Instr) => (flightOf (left (exec i s))).map (·.val)
    f (.frint .f32 .rne (.e 8) (.e 1)) = [.bits 0xC30A0000] ∧ f (.fsub .f32 .rne (.e 8) (.e 1) (.e 2)) = [.bits 0x3E800000] ∧ f (.fexpf (.e 8) (.e 3)) = [.bits 0x3F9837F0] ∧
    f (.fexpins .rne (.e 8) (.e 4) (.e 2)) = [.bits 0x00000983] ∧ f (.frsq .f32 .rne (.e 8) (.e 5)) = [.bits 0xFF800000] ∧ f (.fadd .f32 .rne (.e 8) (.e 6) (.e 7)) = [.bits 0x7FC00000] ∧
    f (.fmin .f32 (.e 8) (.e 5) .zero) = [.bits 0x80000000] ∧ f (.fcmp .f32 .eq (.e 8) (.e 5) .zero) = [.bits 1] ∧ f (.fcvt .rtz .f32 .i32 (.e 8) (.e 1)) = [.bits 0xFFFFFF77] := by decide +kernel
theorem witness_ExactValuesAndTheirCodes : ratOf (.fin true 3 (-1)) = some (-3 / 2) ∧ binary32 ∈ formats ∧ (3 : Nat) ≠ 0 ∧ ratOf (.fin false 3 (-1)) = some (3 / 2) := by
  simp [ratOf, formats]
  norm_num
theorem witness_MoveBufferAndStreamRows :
    let s := rowState 0
    0 < (bufferOf s 0).size ∧ slotStop s (bufferOf s 0) (nodeSlotAddr (bufferKey s 0) (bufferOf s 0) 0 4) 4 = none ∧
    slotStop s { bufferOf s 0 with xctr := 8 } 0 4 = some (8, 2, 7, 8) ∧ slotStop s { bufferOf s 0 with rp := 1 } 0 4 = some (7, 0, 0, 0) ∧
    flightOf (left (exec (.nld .w32 true 0 (.e 5) .imm ⟨70, false⟩) s)) = [⟨2, 6, .e 5, .bits 0x08070605, true, 3⟩] ∧
    ((left (exec (.nld .w32 true 0 (.e 5) .imm ⟨70, false⟩) s)).nodeEntry 0).rp = 1 ∧
    (left (exec (.nst .w64 true 0 (.lane 1) .imm ⟨13, false⟩) s)).writes.map (fun w => (w.due, w.off, w.bytes)) = [(6, 8, [0xF0, 0xFF, 0xFF, 0xFF, 0xFF, 0xFF, 0xFF, 0xFF])] := by decide +kernel
theorem witness_MoveBufferAndStreamRows_streams :
    let s := rowState 0
    let k := streamKey s 3
    let at' := fun (tide : Word) (r : Bool) => { s with streams := [(k, { g := 4, stage := [{ k := 0, sTau := 10, data := 0x77, refused := r }] })], domains := [(1016, { t := tide })] }
    (left (exec (.send .w32 true 3 2 (.e 3)) s)).advs.map (fun a => (a.kind, a.key)) = [(2, k)] ∧ ((left (exec (.send .w32 false 3 2 (.e 3)) s)).stream k).transit.map (·.1) = [12] ∧
    (left (exec (.recv .w32 false 3 0 (.e 5)) s)).bfaults.map (·.cause) = [0x0D] ∧ (left (exec (.recv .w32 false 3 0 (.e 5)) (at' 37 false))).bfaults.map (·.cause) = [0x0D] ∧
    flightOf (left (exec (.recv .w32 false 3 0 (.e 5)) (at' 38 false))) = [⟨2, 6, .e 5, .bits 0x77, true, 3⟩] ∧
    (left (exec (.recv .w32 false 3 0 (.e 5)) (at' 38 true))).bfaults.map (·.cause) = [0x0E] := by decide +kernel
theorem witness_FusedAndLaneRows :
    (fuseWord (rowState 0x80100)).getLsbD 19 = true ∧ (fuseWord (rowState 0x100)).getLsbD 19 = false ∧ Kv.wf ({} : Elem) (rowState 0).elems = true ∧
    flightOf (left (exec (.macf true (.lane 2) (.e 3) (some (.e 3))) (rowState 0x80100))) = [⟨2, 7, .lane 2, .setLane 1, true, 3⟩] ∧
    flightOf (left (exec (.macf false (.lane 2) (.e 3) none) (rowState 0x0001C0))) = [⟨2, 7, .lane 2, .addLane (-1) false, true, 3⟩] ∧
    flightOf (left (exec (.tacc 2 (.lane 1) (-2)) (rowState 0))) = [⟨2, 6, .lane 2, .addLane (-4) false, true, 3⟩] ∧
    flightOf (left (exec (.trdl .st (.e 5) 1) (rowState 0))) = [⟨2, 5, .e 5, .bits 4, false, 3⟩] ∧
    ((left (exec (.setq .loadSwap (some (.e 3))) (rowState 0))).elem 0 19).latchActive = 5 ∧ ((left (exec (.setq .swap none) (rowState 0))).elem 0 19).latchLoad = 3 := by decide +kernel

/-- A one-element tile of 4-bit integers under FCW AW = BW = 1, NG = 16 (R250 to R252), with the A and B slots of element (3, 1) full. -/
def tileEnt : RowEntry := ⟨0xA8, 1, 0x20 <<< 41 ||| 1 <<< 37 ||| 0 <<< 34 ||| 1 <<< 31⟩
def tileState : State := { rowState 0x81009 with
  site := { pan := 0, mask := 2, row := 0, elem := 19, kc := 4, ent := tileEnt }
  active := [(2, { blk0 with elems := [(19, { fcw := 0x81009, rows := [(0, { ent := tileEnt })] })] })]
  nodeCtl := [(0, { base := 0x100, size := 256, depth := 2, dir := 2, slots := [(0, { full := true })] }), (1, { base := 0x1000, size := 256, depth := 2, dir := 2, slots := [(0, { full := true })] })] }
theorem witness_TileStepsReadAndContribute :
    let i : Instr := .tstep 1 1 0 0 1 0 0 0 0 false
    let s := tileState
    let t := left (exec i s)
    tileRow i = some (0, false) ∧ tileRow (.spmx 0 0 3 0 0 0 0 0 0 0 true) = some (3, true) ∧ s.site.elem < 256 ∧ Kv.wf ({} : Elem) s.elems = true ∧ Kv.wf ({} : Lane) (s.elem 0 19).t = true ∧
    (((s.activeBlk 0 2).elemCfg 19).row 0).ent = tileEnt ∧ (((s.activeBlk 0 2).elemCfg 18).row 0).ent ≠ tileEnt ∧ (((s.activeBlk 0 2).elemCfg 3).row 0).ent ≠ tileEnt ∧
    decoded (decodeRow tileEnt) = some i ∧ (t.elem 0 19).contrib.length = 1 ∧ (t.elem 0 19).contrib.map (·.due) = [15] ∧ (t.nodeEntry 0).rp = 1 ∧ t.tiles = [] := by decide +kernel
/-- The same tile with a second step to read, and the contribution of its first one. -/
def stepState : State := { tileState with
  tiles := [⟨1, 0, 2, { tileEnt with bits := tileEnt.bits ||| 8 }, 0, 0, 0, 4, 3, 1, 1, 1, 1⟩], kcnt := [(2, 10)]
  elems := [(19, { t := [(0, { l := 0x7FFFFFFFFFFFFFFF, valid := true })], contrib := [⟨1, 0, 2, 10, 0, 1, false, 3, 3⟩] })] }
theorem witness_TileStepsReadAndContribute_steps :
    let s := stepState
    s.tiles.find? (fun v => v.id == 1) = some (s.tiles.headD ⟨0, 0, 0, ⟨0, 0, 0⟩, 0, 0, 0, 0, 0, 0, 0, 0, 0⟩) ∧ (s.runOf 0 2).stopped = false ∧
    ((left (exec (.tstepStepRead 1) s)).elem 0 19).contrib.length = 2 ∧ left (exec (.tstepStepRead 1) { s with kcnt := [(2, 9)] }) = { s with kcnt := [(2, 9)] } ∧
    (s.elems.find? fun p => p.1 % 256 == 16 * 1 + 3 && p.2.contrib.any fun c => c.id == 1 && c.r == 0).isSome = true ∧
    ((left (exec (.tstepContribution 1 0 3 1) s)).elem 0 19).lane 0 = { l := 0x7FFFFFFFFFFFFFFF, ovf := true, valid := true, dirty := true, re := 3 } := by decide +kernel
/-- A concentrator packet of the example of R270 and R273: positions 2, 5, 7 and 0. -/
def pktState : State := { rowState 0 with
  concCtl := [(3, { base := 0x200, size := 8, depth := 2, dir := 2, pktX := 7, slots := [(0, { full := true })] })]
  mem := bytesIn (2 ^ 49 + 0x200) [7, 0, 3, 2, 2, 5, 7, 0]
  tables := [(0, { gA := 0x1B171207, vA := 0x3F800000 + 0x3F000000 * 2 ^ 32 })]
  elems := [(19, { e := [(4, 0x0104FF03), (5, 0xFA0209FB), (6, 5), (7, 3)] })] }
theorem witness_UnitsRankQuantiseAndScatter :
    let s := pktState
    s.readPacket ⟨false, 3⟩ = .packet [2, 5, 7, 0] 8 ∧ s.raccFault false 0 (.e 4) [2, 5, 7, 0] = none ∧
    flightOf (left (exec (.racc false true true 0 1 (.e 4) ⟨false, 3⟩) s)) = [⟨2, 8, .lane 1, .setLane 568, true, 3⟩] ∧
    flightOf (left (exec (.rval false (.e 9) (.e 6) ⟨false, 3⟩) s)) = [⟨2, 7, .e 9, .bits 0x3F000000, true, 3⟩] ∧
    flightOf (left (exec (.rval false (.e 9) (.e 7) ⟨false, 3⟩) s)) = [⟨2, 7, .e 9, .bits 0, true, 3⟩] ∧
    (match s.readPacket ⟨false, 4⟩ with | .fault .. => true | .packet .. => false : Bool) = true := by decide +kernel
/-- The rake's example of R270, and its order of BF16 keys. -/
theorem test_rank_of_R270 :
    rankPacket 7 0 4 ([5, -3, 9, 5, 0, 9, -32768, 7].map fun k => keyVal .i16 0 ((k : BitVec 16).toNat)) = [7, 0, 3, 2, 2, 5, 7, 0] ∧
    (rankKeys ([0x7FC0, 0xFF80, 0x8000, 0x0000].map fun k => (keyVal .bf16 0 k).1)).map (·.2) = [2, 3, 1, 0] := by decide +kernel
theorem witness_UnitsRankQuantiseAndScatter_units :
    let s := { rowState 0 with nodeCtl := [(0, { base := 0x100, size := 16, depth := 1, dir := 2, slots := [(0, { full := true })] })], mem := bytesIn (2 ^ 48 + 0x100) [5, 0xFD, 9, 5, 0, 9, 0x80, 7] }
    let t := left (exec (.rank 0 0 .i8 3 ⟨false, 3⟩) s)
    let q := left (exec (.bq .f32 0 0 1 (.e 3)) { s with bq := [(1, { toks := List.replicate 31 (0, 0) })] })
    unarmed t ∧ slotStop s (bufferOf s 0) (2 ^ 48 + 0x100) 8 = none ∧ slotStop s { bufferOf s 0 with xctr := 1 } 0 8 = some (8, 2, 0, 1) ∧
    t.writes.map (fun w => (w.unit, w.due, w.bytes)) = [(0, 11, [0, 0, 3, 2, 2, 5, 7, 0])] ∧ (left (exec (.bq .f32 0 0 1 (.e 3)) s)).bq = [(1, { toks := [(5, 0)] })] ∧
    q.writes.map (fun w => (w.unit, w.due)) = [(1, 7)] ∧ ({ t with kcnt := [(2, 11)] } : State).unitDue (t.writes.headD ⟨0, 0, 0, 0, 0, 0, false, 0, 0, [], false, 0, 0, 0⟩) = true ∧
    t.unitDue (t.writes.headD ⟨0, 0, 0, 0, 0, 0, false, 0, 0, [], false, 0, 0, 0⟩) = false ∧ (left (exec (.rankPacketWrite 0) { t with kcnt := [(2, 11)] })).writes = [] := by
  unfold unarmed
  decide +kernel
theorem witness_ElementResultsLandAndLeave :
    let s := { rowState 0 with kcnt := [(2, 5)], elems := [(19, { e := [(5, 1)], flight := [⟨2, 5, .e 5, .bits 0x77, true, 3⟩, ⟨2, 6, .e 6, .bits 1, true, 3⟩], delay := [⟨.e, 2, 5, none, 9⟩] })] }
    Kv.wf ({} : Elem) s.elems = true ∧ Kv.wf (0 : BitVec 32) (s.elem 0 19).e = true ∧ (∀ f ∈ (s.elem 0 19).flight, ∀ p, f.dst ≠ .port p) ∧ Kv.wf ({} : PortVal) (s.elem 0 19).ports = true ∧
    ((left (exec (.elementResultLanding 19) s)).elem 0 19).e = [(5, 0x77)] ∧ ((left (exec (.elementResultLanding 19) s)).elem 0 19).flight.length = 1 ∧
    ((left (exec (.portDelayExit 19) s)).elem 0 19).ports = [(portIdx .e, ⟨9, 0⟩)] := by
  refine ⟨by decide +kernel, by decide +kernel, fun f hf p => ?_, by decide +kernel, by decide +kernel, by decide +kernel, by decide +kernel⟩
  have h : f = ⟨2, 5, .e 5, .bits 0x77, true, 3⟩ ∨ f = ⟨2, 6, .e 6, .bits 1, true, 3⟩ := by simpa [State.elem, elemKey, Kv.get] using hf
  obtain rfl | rfl := h <;> simp
theorem witness_ElementResultsLandAndLeave_feed :
    let s := { rowState 0 with domains := [(1016, { t := 1 })], runs := [(2, { live := true, start := 3 })], kcnt := [(2, 3)], clocked := [2], active := [(2, { blk0 with elems := [(19, { route := 1 })] })] }
    Kv.keysWhere (fun k (r : BlkRun) => r.live && k / 256 == 0) s.runs = [2] ∧ s.windowStart 2 = some 0 ∧ ((s.activeBlk 0 2).elemCfg 19).kind .n = 1 ∧ ((s.activeBlk 0 2).elemCfg 19).kind .e ≠ 1 ∧
    (left (exec (.edgeFeed 19 .n) s)).bfaults = [] ∧ ((left (exec (.edgeFeed 19 .n) { s with nodeCtl := [] })).bfaults.map (·.cause)) = [7] := by decide +kernel

/-- A shape of `n` elements of a format in extent 0 from a base on, dimension 0 packed (R125, R362). -/
def shape (fmt base n : Nat) : Nat := 1 * 2 ^ 508 + fmt * 2 ^ 502 + base * 2 ^ 432 + 2 ^ 16 + (n - 1)
/-- Context 0 with an object at virtual 0x100000 (register 7), shapes of four bytes in node space, and some registers. -/
def engCtx : Ctx := { regs [(1, 3), (2, 0x200000), (3, 0x100020), (7, 0x100000)] with h := [(2, shape 1 0x100 4), (3, shape 1 0x200 4)] }
def engState : State := { world engCtx 1 with mem := bytesIn (2 ^ 48 + 0x100) [1, 2, 3, 4] }
theorem witness_EngineCommandsIssue :
    let i : Instr := .tcopy ⟨false, 2, 3, 7⟩ ⟨0, false, 0⟩ ⟨0, false, 0⟩
    let s := engState
    let full := { s with cmds := List.replicate 64 (⟨1, 0, 3, i, .running, 0, ⟨0, 0, false, 0⟩, 0, 0, [], 0, false, 0, 0, 0, 0, [], 0, 0, 0, 0, [], 0, 0, false⟩ : Cmd) }
    let top := { s with mem := bytesIn 0x40000 [0xFE, 0xFF, 0xFF, 0xFF, 0xFF, 0xFF, 0xFF, 1] }
    let t := left (exec i s)
    plain s (s.locate s.self true 0x100000) ∧ whole s 0x40000 32 ∧ plainWrites s s.self.pid ∧
    (commandOf s i).map (fun c => c.2.2.2.2.2.2) = some 4 ∧ (commandOf s (.rput false 7 1 false 1 0 1 5)).map (fun c => c.2.2.2.2.2.2) = some 16 ∧
    faultOfAccess s true (.store []) 0x100000 64 = none ∧ faultOfAccess s true (.store []) 0x100020 64 = some 0x0A ∧ faultOfAccess s true (.store []) 0x200000 64 = some 9 ∧
    (∀ h ∈ ([2, 3] : List HReg), s.self.shapePending h = false) ∧ (own { engCtx with hpend := [(2, 1)] }).self.shapePending 2 = true ∧ entriesLeft s 0 = 64 ∧
    entriesLeft full 0 = 0 ∧ s.holders = [] ∧ (s.locate s.self true 0x100000).pa = 0x40000 ∧ (objectAt s 0x40000).pend + 4 ≤ pendTop ∧ pendTop < (objectAt top 0x40000).pend + 4 ∧
    (objectAt t 0x40000).pend = 4 ∧ (objectAt t 0x40000).st = 1 ∧ t.cmds.map (fun k => (k.st, k.left)) = [(.issued, 4)] ∧ (left (exec i full)).self.hold.isSome = true ∧
    (left (exec i full)).holders = [⟨0, 0, false⟩] ∧ (left (exec (.queueEntryFree 0) { s with holders := [⟨0, 0, false⟩] })).holders = [⟨0, 0, true⟩] ∧
    (objectAt (left (exec i top)) 0x40000).code = 0x0209 := by
  unfold plainWrites quiet unarmed plain whole
  decide +kernel
/-- The barrier of R361 seen by one pan: three parties, GEN 4, and PEND 5. -/
def barState (arr : BitVec 8) : State := { world engCtx 1 with mem := bytesIn 0x40000 [5, 0, 0, 0, 0, 0, 0, 9, 3, 0, arr, 0, 0, 0, 4, 0] }
theorem witness_CompletionInstructionsActOnTheirObject :
    let s := barState 2
    let k : Cmd := ⟨1, 0, 0, .bararr false 2 7, .issued, 0x100000, ⟨0, 0x40000, false, 0⟩, 0, 0, [], 0, false, 0, 0, 0, 0, [], 0, 0, 0, 0, [], 0, 0, false⟩
    let a := { s with cmds := [k], ctxs := [(0, { engCtx with l := [(2, { pending := true, acc := 1 })] })] }
    let b := { a with mem := bytesIn 0x40000 [0, 0, 0, 0, 0, 0, 0, 9, 3, 0, 2, 0, 0, 0, 4, 0] }
    plain s (s.locate s.self true 0x100000) ∧ whole s 0x40000 32 ∧ plainWrites s s.self.pid ∧ nothingBefore s false 0x100000 ∧ ¬ nothingBefore a false 0x100000 ∧ plainObject a k ∧
    objectRegs (.cplarm false true 7 1) = some (false, 7, some 1, none) ∧ faultOfAccess s true (.store []) 0x100000 64 = none ∧ (objectAt s 0x40000).gen = 4 ∧
    objectChange (.barinit false 7 1) 3 (objectAt s 0x40000) = some { pend := 0, st := 1, err := false, bar := true, exp := 3, arr := 0, code := 0, gen := 4, result := 0, eadr := 0 } ∧
    (objectAt (left (exec (.cplsig false 7 1) s)) 0x40000).pend = 2 ∧ (objectAt (left (exec (.cplarm false false 7 1) s)) 0x40000).pend = 8 ∧
    onlyCmd a k ∧ k.ready ≤ a.cycle ∧ a.free k.deps = true ∧ (objectAt (left (exec (.engineComplete 1) a)) 0x40000).arr = 3 ∧
    (objectAt (left (exec (.engineComplete 1) b)) 0x40000).gen = 5 ∧ (objectAt (left (exec (.engineComplete 1) b)) 0x40000).arr = 0 ∧
    ((left (exec (.engineComplete 1) b)).self.landing 2).val = 4 ∧ waitsFor s (.barwait false 7 1) = some (false, 7, 3, fun g o => o.gen != g) ∧
    (left (exec (.barwait false 7 1) s)).self.pc = 0x10002 ∧ (left (exec (.cplwait false 7) s)).self.hold.isSome = true ∧
    (left (exec (.cplwait false 7) { s with mem := bytesIn 0x40000 [0, 0, 0, 0, 0, 0, 0, 6] })).self.tcode = 0x11 := by
  unfold plainObject plainWrites quiet unarmed plain whole nothingBefore
  refine ⟨?_, ?_, ?_, ?_, ?_, ?_, ?_, ?_, ?_, ?_, ?_, ?_, ?_, ?_, ?_, ?_, ?_, ?_, ?_, rfl, ?_, ?_, ?_⟩ <;> first | decide +kernel | (unfold onlyCmd; decide +kernel)
theorem witness_CompletionInstructionsActOnTheirObject_end :
    let s := { barState 2 with ctxs := [(0, { standing (.barwait false 7 1) (some { val := 0x100000, upto := 3 }) with s := engCtx.s })] }
    let u := { barState 2 with ctxs := [(0, { standing (.barwait false 7 1) (some { val := 0x100000, upto := 4 }) with s := engCtx.s })] }
    s.self.hold.isSome = true ∧ s.turn.head? = some 0 ∧ textAtPc s.self = (encodeWord (.barwait false 7 1)).map .word ∧ s.accs = [] ∧ s.cmds = [] ∧
    (left (exec (.barwaitEnd 0) s)).self.hold = none ∧ left (exec (.barwaitEnd 0) u) = u := by decide +kernel
/-- A TFILL of four bytes at node address 0x200, as issue leaves it. -/
def fillCmd (st : CmdState) (p lft : Nat) : Cmd :=
  ⟨1, 0, 0, .tfill ⟨false, 0, 3, 7⟩ ⟨0, false, 0⟩ 1, st, 0x100000, ⟨0, 0x40000, false, 0⟩, 0, shape 1 0x200 4, [0x155], 0, false, lft, p, 0, 0, [], 0, 0, 0, 0, [], 0, 0, st != .issued⟩
def cmdState (k : Cmd) : State := { world engCtx 1 with cmds := [k], mem := bytesIn 0x40000 [4, 0, 0, 0, 0, 0, 0, 1] }
theorem witness_EnginesAcceptPerformAndComplete :
    let s := cmdState (fillCmd .issued 0 4)
    let bad := cmdState { fillCmd .issued 0 4 with b := 0 }
    let run := cmdState (fillCmd .running 3 1)
    plainObject s (fillCmd .issued 0 4) ∧ onlyCmd s (fillCmd .issued 0 4) ∧ hasEntry (fillCmd .issued 0 4).instr = true ∧ s.free [] = true ∧ s.cmdFault (fillCmd .issued 0 4) = none ∧
    bad.cmdFault { fillCmd .issued 0 4 with b := 0 } = some (0x0201, 1) ∧ (left (exec (.engineAccept 1) s)).cmds = [fillCmd .running 0 4] ∧
    (objectAt (left (exec (.engineAccept 1) bad)) 0x40000).code = 0x0201 ∧ run.mayPerform (fillCmd .running 3 1) = true ∧
    (left (exec (.engineWritePerformed 1 1) run)).readByte (2 ^ 48 + 0x203) = 0x55 ∧ (left (exec (.engineWritePerformed 1 1) run)).cmds = [fillCmd .running 4 1] ∧
    (objectAt (left (exec (.engineWritePerformed 1 1) { run with cmds := [fillCmd .running 2 2] })) 0x40000).pend = 3 ∧ (cmdState (fillCmd .running 4 1)).mayPerform (fillCmd .running 4 1) = false ∧
    (fillCmd .running 4 1).performed = true ∧ (left (exec (.engineComplete 1) (cmdState (fillCmd .running 4 1)))).cmds = [] := by
  unfold onlyCmd plainObject plainWrites quiet unarmed plain whole
  decide +kernel

/-- An all-reduce of four bytes over group 5, whose descriptor at virtual 0x100100 names two participants and this rank 0 (R471). -/
def collCmd (st : CmdState) (q w code : Nat) : Cmd :=
  ⟨1, 0, 0, .coll ⟨false, 2, 3, 7⟩ .ar .add 0 0 8, st, 0x100000, ⟨0, 0x40000, false, 0⟩, shape 1 0x100 4, shape 1 0x200 4, [0x100100], 0, false, 4, 0, q, w, [], 0, 0, code, 0, [], 0, 0, st != .issued⟩
theorem witness_EnginesAcceptPerformAndComplete_coll :
    let i := cmdState (collCmd .issued 0 0 0)
    let a := { i with mem := i.mem ++ bytesIn 0x40100 [5, 0, 0, 0, 1] }
    let w := { cmdState (collCmd .waiting 5 64 0) with endpoints := [⟨0, 5, 0, ⟨127, 0⟩, 0⟩] }
    let k := collCmd .waiting 5 64 0
    let h0 := ownHeader k .ar .add
    plainObject a (collCmd .issued 0 0 0) ∧ plainObject w k ∧ onlyCmd a (collCmd .issued 0 0 0) ∧ a.collBefore (collCmd .issued 0 0 0) = false ∧ (collCmd .issued 0 0 0).op 0 % 64 = 0 ∧ a.rangeFault 0 3 0x100100 64 false = none ∧
    (a.engRead 0 3 0x100100 64).2 = none ∧ Sys2Proof.Machine.groupOf (leNat (a.engRead 0 3 0x100100 64).1) = some ⟨5, 2, 0⟩ ∧ a.cmdFault (collCmd .issued 0 0 0) = none ∧
    (left (exec (.engineAccept 1) a)).cmds = [k] ∧ (left (exec (.engineAccept 1) a)).endpoints = [⟨0, 5, 0, ⟨127, 0⟩, 0⟩] ∧
    k.collCounts .ar = true ∧ k.collCounts .ag = false ∧ (w.getElems 0 k.sideA (List.range k.sideA.sh.count)).2.2 = none ∧
    (left (exec (.collHeaderMatch 1 [none, some h0] 2 [[1], [2], [3], [4]]) w)).cmds.map (·.st) = [.running] ∧
    (objectAt (left (exec (.collHeaderMatch 1 [none, some h0] 1 []) w)) 0x40000).code = 0x0212 ∧
    (objectAt (left (exec (.collHeaderMatch 1 [] 2 [[1]]) w)) 0x40000).code = 0x0212 ∧
    (left (exec (.collHeaderMatch 1 [none, some { h0 with op := .min }] 2 [[1]]) w)).endpoints.map (·.k) = [1] ∧
    (objectAt (left (exec (.collHeaderMatch 1 [none, some { h0 with op := .min }] 2 [[1]]) w)) 0x40000).code = 0x0211 ∧
    (objectAt (left (exec (.collHeaderMatch 1 [none, some { h0 with op := .min }] 2 [[1]]) w)) 0x40000).eadr = 1 := by
  unfold onlyCmd plainObject plainWrites quiet unarmed plain whole
  decide +kernel
/-- A chain of one integer addition of 5 over four bytes, as issue, acceptance, and its first token's read leave it. -/
def chainCmd (st : CmdState) (p q : Nat) (ops : List Word) (toks : List (Nat × List Nat)) : Cmd :=
  ⟨1, 0, 0, .chain ⟨false, 2, 3, 7⟩ 0 0x300 1 0 0 0, st, 0x100000, ⟨0, 0x40000, false, 0⟩, shape 1 0x100 4, shape 1 0x200 4, ops, 0, false, 4, p, q, 1, [], 0, 0, 0, 0, toks, 0, 0, st != .issued⟩
def chainState (k : Cmd) (n : Nat) : State := { cmdState k with
  mem := (cmdState k).mem ++ bytesIn (2 ^ 48 + 0x100) [1, 2, 3, 4] ++ bytesIn (2 ^ 48 + 0x300) [0x80, 0, 0, 0, 1, 0, 0, 0, 5], kcnt := [(1, n)] }
theorem witness_EnginesAcceptPerformAndComplete_chain :
    let d : List Word := [0x0000000100000080, 5]
    let c := chainCmd .issued 0 0 [] []
    let s := chainState { c with w := 0 } 0
    let r := chainCmd .running 0 0 d []
    let v := chainCmd .running 1 0 d [(0, [1, 6])]
    let f := chainCmd .running 4 1 d []
    isChain c.instr = true ∧ plainObject s { c with w := 0 } ∧ plainObject (chainState f 9) f ∧ onlyCmd s { c with w := 0 } ∧ s.cmdFault { c with w := 0 } = none ∧ s.chainFault { c with w := 0 } = none ∧ (left (exec (.engineAccept 1) s)).cmds = [r] ∧
    s.chainFault { c with w := 0, instr := .chain ⟨false, 2, 3, 7⟩ 0 0x301 1 0 0 0 } = some (0x0205, 0x301) ∧
    (chainState r 3).tokenDue r 0 = true ∧ (chainState r 2).tokenDue r 0 = false ∧ r.token 0 = [] ∧ (chainState r 3).emptyInput 0 0x100 1 = none ∧
    (left (exec (.chainToken 1 0) (chainState r 3))).cmds.map (·.p) = [1] ∧ (chainState v 9).tokenDue v 0 = false ∧ onlyCmd (chainState f 9) f ∧ f.q = 1 ∧
    (left (exec (.engineComplete 1) (chainState f 9))).cmds = [] := by
  unfold onlyCmd plainObject plainWrites quiet unarmed plain whole
  decide +kernel
theorem witness_EnginesAcceptPerformAndComplete_result :
    let k := chainCmd .running 1 0 [0x0000000100000080, 5] [(0, [1])]
    let s := chainState k 9
    s.tokenDue k 0 = true ∧ k.token 0 = [1] ∧ (k.stages.map fun g => (g.isBq, g.lat)) = [(false, 1)] ∧ k.stages.length = 1 ∧
    (left (exec (.chainToken 1 0) s)).cmds.map (·.toks) = [[]] ∧ (left (exec (.chainToken 1 0) s)).writes.length = 1 := by decide +kernel
/-- A pan whose record 2 waits for a context: task 1, entry 0x10000, START 0, its LPB at 0x210000 and its map at 0x210200 (R286). -/
def rec0 : BindRec := { noRec with v := true, task := 1, slots := 0x0F, src := 0x210000, mapp := 0x210200 }
def dispState (r : BindRec) : State := { world {} 1 with ctxs := [], tasks := [(taskKey ref1, { task0 with state := .unplaced })], slotTab := [(2, { r := r })], mem := bytesIn 0x210000 (lpb 1) }
theorem witness_ContextsAreTakenLoadedAndStarted :
    let s := dispState rec0
    let e := s.record 0 2
    let t := left (exec (.dispatchTake 0 2) s)
    (e.r.v = true ∧ e.taken = false ∧ e.bad = false ∧ e.done = false ∧ e.r.start.toNat ≤ (s.tide 0).toNat + 1024) ∧ (s.ctx 0).run = .free ∧ e.r.res = false ∧ e.late = false ∧
    (Kv.get 0 s.fieldTenant 0 = 0) ∧ (s.part (s.owner 0)).rst = false ∧ s.taskLive ⟨127, e.r.task⟩ = true ∧ (t.ctx 0).run = .loading ∧ (t.ctx 0).pc = 0x10000 ∧ (t.record 0 2).taken = true ∧
    (left (exec (.lateStart 0 2) s)).fw = [.lateStart 0 2] ∧ left (exec (.dispatchTake 0 2) (dispState { rec0 with start := 1025 })) = dispState { rec0 with start := 1025 } ∧
    ((left (exec (.dispatchTake 0 2) (dispState { rec0 with start := 1024 }))).ctx 0).run = .loading := by decide +kernel
theorem witness_dispStateIsQuiet : quiet (dispState rec0) ∧ (dispState rec0).scrub = [] ∧ rec0.res = false := by unfold quiet; decide +kernel
/-- The dispatcher takes the record: no other record, no bound context. -/
theorem witness_mayBeDispatched : mayBeDispatched (dispState rec0) 0 2 ∧ lowestFree (dispState rec0) 0 0 := by
  have free : ∀ c, (dispState rec0).ctx c = {} := fun _ => rfl
  refine ⟨⟨⟨by decide +kernel, by decide +kernel, by decide +kernel, by decide +kernel, by decide +kernel⟩, fun c _ h => absurd (congrArg Ctx.run (free c)) h, ?_, ⟨0, rfl, congrArg Ctx.run (free 0)⟩,
    fun c _ h => absurd (congrArg Ctx.run (free c)) h, by decide +kernel, by decide +kernel, by decide +kernel⟩, rfl, congrArg Ctx.run (free 0), fun b h h0 => by omega⟩
  intro j hj h1 h2
  by_cases h : j = 2
  · subst h
    rcases h2 with h2 | ⟨-, h2 | ⟨-, h2⟩⟩ <;> omega
  · interval_cases j <;> first | exact absurd rfl h | exact absurd h1.1 (by decide +kernel)
theorem witness_ContextsAreTakenLoadedAndStarted_start :
    let s := { own { ctx0 with run := .loading, slots := 1, startAt := some 8, tb := 8 } with domains := [(1016, { t := 8 })] }
    let n := { dispState { rec0 with ilast := 3 } with
      tasks := [(taskKey ref1, { task0 with insts := [(0, { retired := true })] })]
      slotTab := [(2, { r := { rec0 with ilast := 3 }, taken := true, ctx := 1, cur := 0 })]
      ctxs := [(1, { ctx0 with run := .exited, task := 1 })] }
    let x := s.ctx 0
    x.run = .loading ∧ x.readyAt ≤ s.cycle ∧ x.slots.getLsbD ((s.tide 0).toNat % 8) = true ∧ (∀ v, x.startAt = some v → v.toNat ≤ (s.tide 0).toNat) ∧
    ((left (exec (.contextStart 0) s)).ctx 0).run = .running ∧ ((left (exec (.contextStart 0) { s with domains := [(1016, { t := 7 })] })).ctx 0).run = .loading ∧
    ((n.task ref1).inst 0).retired = true ∧ ((left (exec (.nextInstanceLoad 0 2) n)).ctx 1).inst = 1 ∧ ((left (exec (.nextInstanceLoad 0 2) n)).record 0 2).cur = 1 := by
  refine ⟨by decide +kernel, by decide +kernel, by decide +kernel, fun v h => ?_, by decide +kernel, by decide +kernel, by decide +kernel, by decide +kernel, by decide +kernel⟩
  have h : v = 8 := (Option.some.inj h).symm
  subst h
  decide +kernel
/-- Instance 0 of task 1 stands halted on context 0, with a register, an open replay entry and a landed result. -/
def haltedCtx : Ctx := { ctx0 with run := .halted .request, task := 1, pid := 127, s := [(3, 9)], y0 := { v := true, hlt := true, dst := 4, cnt := 2, val := 7 }, map := [0], haltCount := 2, tauH := 5 }
def haltedState : State := { world haltedCtx 1 with parts := [(127, { fset := 0xFFFFFFFFFFFFFFFFFFFFFFFF, v := true, nfoot := 16, ffoot := 16 })], tasks := [(taskKey ref1, task0)], mem := [] }
/-- Bytes at a place, in canonical form, by recursion. -/
def laid (a : Nat) : List Byte → List Host.Cell
  | [] => []
  | b :: bs => if b = 0 then laid (a + 1) bs else (a, b) :: laid (a + 1) bs
theorem laid_below {k : Nat} : ∀ (bs : List Byte) (a : Nat), k < a → Kv.get (0 : Byte) (laid a bs) k = 0
  | [], _, _ => rfl
  | b :: bs, a, h => by
    rw [laid]
    split
    · exact laid_below bs (a + 1) (by omega)
    · rw [Kv.get, if_neg (by omega), if_pos h]
theorem peeks_laid {s : State} (hs : s.scrub = []) : ∀ (bs : List Byte) (a : Nat), (∀ k, a ≤ k → s.readByte k = Kv.get 0 (laid a bs) k) → s.peeks a bs.length = bs
  | [], _, _ => rfl
  | b :: bs, a, h => by
    have h0 : s.peek a = b := by
      rw [State.peek, hs, Kv.get, if_neg (by simp), h a (by omega), laid]
      split
      · rename_i hb
        rw [hb, laid_below bs (a + 1) (by omega)]
      · rw [Kv.get, if_pos rfl]
    rw [List.length_cons, State.peeks, h0, peeks_laid hs bs (a + 1)]
    intro k hk
    rw [h k (by omega), laid]
    split
    · rfl
    · rw [Kv.get, if_neg (by omega), if_neg (by omega)]
/-- The image of the halted instance, and a pan whose record 2 resumes it. -/
def image0 : Image := haltedState.imageOf ref1 0 [0]
def resumeIn (l : Kv Task) (i : Image) : State := { haltedState with
  tasks := l, ctxs := [], mem := laid 0x80000 i.bytes, images := [i]
  slotTab := [(2, { r := { rec0 with slots := 0xFF, res := true, src := 0x80000, start := 8 } })] }
def resumeOf : Image → State := resumeIn haltedState.tasks
/-- The same pan where the task, swapped out, has no extent of its own, so that its table can be built again. -/
def resumable : State := resumeIn [(taskKey ref1, { task0 with lpb := (lpb 1).take 128 ++ natLe 128 0, state := .swapped })] image0
theorem readByte_mem (s : State) (m : List Host.Cell) (h : s.mem = m) (k : Nat) : s.readByte k = Kv.get 0 m k := by rw [← h]; rfl
theorem imageAt_resumeOf (p : Part) (i : Image) (l : Kv Task) : (resumeIn l i).imageAt p 0x80000 = some i := by
  have hp := peeks_laid (s := resumeIn l i) rfl i.bytes 0x80000 (fun k _ => readByte_mem _ _ (by rw [resumeIn]) k)
  simp only [State.imageAt, show (resumeIn l i).images = [i] from rfl, List.findSome?_cons, List.find?_cons, hp, beq_self_eq_true]
theorem witness_InstancesAreSavedAndResumed_image : (∀ p, (resumeOf image0).imageAt p 0x80000 = some image0) ∧ (∀ p, resumable.imageAt p 0x80000 = some image0) ∧
    (State.reset).imageAt {} 0x80000 = none :=
  ⟨fun p => imageAt_resumeOf p image0 _, fun p => imageAt_resumeOf p image0 _, by decide +kernel⟩
/-- The record is the only one, and no context is bound; the new table of the task without extents is empty, and that of its two extents fails. -/
theorem witness_InstancesAreSavedAndResumed_taken :
    let e := resumable.record 0 2
    quiet resumable ∧ resumable.scrub = [] ∧ e.r.res = true ∧ resumable.imageBad 0 e image0 = false ∧ resumable.mirrorRoom (resumable.recMap 0 e.r) (image0.own e) = true ∧
    (resumable.buildTable (resumable.recRef 0 e.r) 0 e.r.extp.toNat).2 = true ∧ ((resumeOf image0).buildTable ref1 0 e.r.extp.toNat).2 = false := by
  unfold quiet
  decide +kernel
theorem witness_mayBeResumed : mayBeDispatched resumable 0 2 ∧ lowestFree resumable 0 0 := by
  have free : ∀ c, resumable.ctx c = {} := fun _ => rfl
  refine ⟨⟨⟨by decide +kernel, by decide +kernel, by decide +kernel, by decide +kernel, by decide +kernel⟩, fun c _ h => absurd (congrArg Ctx.run (free c)) h, ?_, ⟨0, rfl, congrArg Ctx.run (free 0)⟩,
    fun c _ h => absurd (congrArg Ctx.run (free c)) h, by decide +kernel, by decide +kernel, by decide +kernel⟩, rfl, congrArg Ctx.run (free 0), fun b h h0 => by omega⟩
  intro j hj h1 h2
  by_cases h : j = 2
  · subst h
    rcases h2 with h2 | ⟨-, h2 | ⟨-, h2⟩⟩ <;> omega
  · interval_cases j <;> first | exact absurd rfl h | exact absurd h1.1 (by decide +kernel)
theorem witness_InstancesAreSavedAndResumed :
    let s := haltedState
    let n := { resumeOf image0 with mem := [] }
    let e := n.record 0 2
    s.savable (s.ctxsOf ref1 0) = true ∧ Kv.wf ({} : Ctx) s.ctxs = true ∧ s.scrub = [] ∧ Memory.wf s.mem = true ∧ (own { haltedCtx with run := .running }).savable [0] = false ∧
    e.r.res = true ∧ e.taken = false ∧ n.imageBad 0 e image0 = false ∧ n.imageBad 0 { e with r := { e.r with slots := 1 } } image0 = true ∧
    ((image0.own e).find? fun q => q.p == q.r).map (fun q => (q.ctx.pc, q.ctx.s)) = some (0x10000, [(3, 9)]) ∧ (n.ctx 0).run = .free ∧
    image0.cmds = [] ∧ image0.note = false := by decide +kernel
/-- A halt request of cycle 0 on context 0, seen in cycle 1; and the contexts of its task in other states. -/
def askState (m : Option Word) : State := { own { ctx0 with task := 1, haltReq := some (0, m), flight := [⟨.s 3, 9, 5, true, none, 0⟩], cyc := 2 } with cycle := 1, domains := [(1016, { t := 8 })] }
theorem witness_RequestsHaltContextsAndTheLadderEndsThem :
    let s := askState none
    let hs := { own { ctx0 with task := 1, run := .halting } with tasks := [(taskKey ref1, task0)] }
    let map : Ctx := { ctx0 with task := 1, map := [0] }
    let ks := { world map 1 with tasks := [(taskKey ref1, task0)], mem := [(2 ^ 48 + 3, 7)], parts := [(127, { nfoot := 16, ffoot := 16, fset := 1, v := true })] }
    quiet s ∧ Kv.wf ({} : Ctx) s.ctxs = true ∧ stoppable s.self ∧ ¬ stoppable ({} : Ctx) ∧ s.self.hold = none ∧ s.self.occ = 0 ∧ s.self.bfault = none ∧ s.self.y0.v = false ∧
    ofInstance s.self ref1 0 ∧ hs.self.run = .halting ∧ hs.self.readyAt ≤ hs.cycle ∧ hs.writes = [] ∧
    (left (exec (.haltPoint 0) s)).self.y0 = ⟨true, 3, 3, true, 9, none, none, 0, none⟩ ∧ (left (exec (.haltPoint 0) (askState (some 9)))).self.run = .running ∧
    ((left (exec (.haltRequest 0 (some 9)) s)).self.haltReq = some (1, some 9)) ∧ (left (exec (.haltComplete 0) hs)).self.run = .halted .request ∧
    (left (exec (.softRequest ref1 0) s)).self.yreq = true ∧ (left (exec (.graceExpiry ref1 0) s)).fw = [.graceEnd ref1 0] ∧ ks.taskLive ks.self.ref = true ∧
    ks.self.inst.toNat < (ks.task ks.self.ref).info.count ∧ (left (exec (.killExpiry 0) ks)).readByte (2 ^ 48 + 3) = 0 ∧
    (left (exec (.killExpiry 0) ks)).self.run = .free ∧ (left (exec .thermalEmergency s)).self.haltReq = some (0, none) ∧ (left (exec .thermalEmergency s)).fw = [.thermal] ∧
    (left (exec .hardTrip s)).poweredOff = true := by
  unfold stoppable ofInstance quiet
  decide +kernel
/-- Context 0 waits at an ECALL that has been sent, with a halt requested in cycle 0. -/
def askedState : State :=
  { own { ctx0 with hold := some { stage := 1 }, haltReq := some (0, none), store := expandText [] 1 0 ((encode (.ecall 1 2 3) ++ List.replicate 64 0xFF).take 64) } with
    cycle := 1, domains := [(1016, { t := 8 })] }
theorem witness_RequestsHaltContextsAndTheLadderEndsThem_ecall :
    textAtPc askedState.self = some (.word 0xEF0088000000000000000003) ∧ decodeWord 0xEF0088000000000000000003 = .ok (.ecall 1 2 3) ∧
    askedState.self.hold = some { stage := 1 } ∧ askedState.self.haltReq = some (0, none) ∧ (askedState.tide 0).toNat % 8 = 0 ∧
    (left (exec (.haltPoint 0) askedState)).self.haltReq = some (0, some 8) ∧ (left (exec (.haltPoint 0) askedState)).self.run = .running ∧
    (left (exec (.haltPoint 0) (left (exec (.ecallAnswer 0 77) (left (exec (.haltPoint 0) askedState)))))).self.y0 = ⟨true, 1, 0, true, 77, none, none, 0, none⟩ := by
  decide +kernel
theorem witness_atTheHaltPoint : atTheHaltPoint (askState none) 0 ∧ atTheHaltPoint (askState (some 8)) 0 ∧ ¬ atTheHaltPoint (askState (some 9)) 0 := by
  refine ⟨⟨0, none, by decide +kernel⟩, ⟨0, some 8, by decide +kernel⟩, fun ⟨t, m, h, _, _, h4⟩ => ?_⟩
  have hm : (0, some (9 : Word)) = (t, m) := Option.some.inj h
  cases hm
  exact absurd h4 (by decide +kernel)

/-- Context 0 waits in TIDEW for T = 8, and its domain, on its own, has reached it. -/
def tidewState (st : Option Word) : State := { own { ctx0 with mark := some 8 } with domains := [(1016, { t := 8, stallAt := st })], begun := false, cycle := 3 }
theorem witness_DomainsStallAndAreReleased :
    let s := tidewState none
    let r := tidewState (some 8)
    Kv.wf ({} : Ctx) s.ctxs = true ∧ Kv.wf ({} : Domain) s.domains = true ∧ Kv.wf ({} : Stream) s.streams = true ∧ Kv.wf ({} : Place) s.sluice = true ∧
    waitsAt s 1016 0 ∧ (s.domain 1016).stallAt = none ∧ s.begun = false ∧ r.releasable 1016 0 = true ∧ waitsAt r 1016 0 ∧
    ((left (exec (.domainStall 1016) s)).domain 1016).stallAt = some 8 ∧ (left (exec (.markRelease 1016) r)).self.markDone = true ∧
    (Kv.get [] ((left (exec (.tideSample 1017 1016) { s with cycle := 256, sideband := [(8, 50)] })).domain 1016).samples 1017).map (fun y => (y.t, y.gap, y.came)) = [(0, 8, false)] ∧
    Kv.get [] ((left (exec (.tideSample 1017 1016) s)).domain 1016).samples 1017 = [] ∧
    (left (exec (.linkRetrain 0 (some 7)) s)).sideLat 1016 1017 = 7 := by
  refine ⟨?_, ?_, ?_, ?_, ⟨?_, ?_, ?_, 8, ?_⟩, ?_, ?_, ?_, ⟨?_, ?_, ?_, 8, ?_⟩, ?_, ?_, ?_, ?_, ?_⟩ <;> decide +kernel
/-- A sample that has come two million cycles after a release and shows another offset than it (R439). -/
theorem witness_DomainsStallAndAreReleased_drift :
    let m := { own { ctx0 with map := [0, 96] } with
      cycle := 2 * 10 ^ 6 + 100
      domains := [(1016, { samples := [(1017, [⟨5, 2 * 10 ^ 6, 50, 999, false⟩])], rels := [(1017, some (0, 0))] })] }
    (m.ctx 0).run ≠ .free ∧ m.domOf 0 = 1016 ∧ 1017 ∈ m.alignSet 0 ∧ (left (exec (.tideSample 1017 1016) m)).fw = [.drift 1017 1016] := by decide +kernel
/-- Stream 1 of M-die 0 with its first four positions, and something of it on its way under identifier 5. -/
def moving (due : Nat) (t : Transit) : State := { own ctx0 with
  streams := [(1, { send := some 0, recv := some 0, depth := 4, kStage := 1, transit := [(due, 5, t)], marks := [{ k := 7, refused := true }] })]
  sluice := [(2, { k := 6, used := true })], cycle := 20 }
theorem witness_StreamSlotsTravel :
    let a := moving 20 (.bytes 1 2 [3, 4])
    let full := moving 20 (.bytes 2 0 [3, 4])
    let d := moving 20 (.done 1 9 2)
    let f := moving 20 (.free 6)
    placeOf a 1 1 = 1 ∧ placeOf a 1 6 = 2 ∧ travels a 5 1 20 (.bytes 1 2 [3, 4]) ∧ a.inTransit 6 = none ∧ travels (moving 21 (.free 6)) 5 1 21 (.free 6) ∧
    ((left (exec (.sluiceSlotArrival 5) a)).position 1).data = 0x04030000 ∧ ((left (exec (.sluiceSlotArrival 5) full)).stream 1).refusing = some 2 ∧
    (d.stream 1).recv.isSome = true ∧ (d.stream 1).kStage = 1 ∧ ((left (exec (.sluiceSlotArrival 5) d)).position 1).np = 2 ∧
    ((left (exec (.sluicePositionFree 5) f)).position 2) = {} ∧
    ((moving 20 (.toStage 7)).stream 1).transit.find? (fun e => e.2.2.isMove && decide (e.1 ≤ 20)) = some (20, 5, .toStage 7) ∧
    ((left (exec (.stageMove 0 1) (moving 20 (.toStage 7)))).stream 1).stage = [{ k := 7, refused := true }] ∧
    ((left (exec (.stageMove 0 1) (moving 20 (.toStage 6)))).stream 1).stage = [{ k := 6, used := true }] ∧
    left (exec (.stageMove 0 1) (moving 21 (.toStage 6))) = moving 21 (.toStage 6) := by unfold travels; decide +kernel

/-- An access of context 0 to four bytes at physical address 0x40000. -/
def acc0 (id : Nat) (k : AccKind) (rep : Bool) : Acc := ⟨id, 0, k, 0x100000, 4, true, ⟨0, 0x40000, rep, 0⟩, 0, false, false, some 1, [], 0, [], false, [], [], false, false, 0, 0⟩
def repState (l : List Acc) : State := { own { ctx0 with l := [(1, { pending := true, acc := 1 })] } with accs := l, nextId := 9, mem := [(0x40000, 7)] }
theorem witness_ReplicasCommitAndUnlock :
    let a := acc0 1 (.store [1, 2, 3, 4]) true
    let w := acc0 1 (.cas 9 5) true
    let b := { a with committed := true, locked := [0, 1], bytes := [1, 2, 3, 4], got := [7, 0, 0, 0] }
    let s := repState [a]
    (repState [a]).acc 1 = some a ∧ Inv s ∧ s.scrub = [] ∧ unarmed s ∧ (s.part (s.ctx a.ctx).pid).dlog = false ∧ whole s a.loc.owner.pa a.n ∧ ¬ whole { s with poison := [(0x40001, true)] } a.loc.owner.pa a.n ∧ writtenBy a.kind a.n (bytesAt s a.loc.owner.pa 4) = some [1, 2, 3, 4] ∧
    little (bytesAt (repState [w]) w.loc.owner.pa 4) = 7 ∧ (left (exec (.replicaCommit 1) (repState [a]))).readByte 0x40002 = 3 ∧ (left (exec (.replicaCommit 1) (repState [w]))).accs.map (·.committed) = [true] ∧
    (left (exec (.replicaUnlock 1 1) (repState [b]))).readByte (2 ^ 36 + 0x40002) = 3 ∧ (left (exec (.replicaUnlock 1 1) (repState [b]))).accs.map (·.locked) = [[0]] ∧
    ((left (exec (.replicaUnlock 1 1) (repState [{ b with locked := [1] }]))).self.landing 1) = { full := true } := by
  unfold Inv unarmed whole
  decide +kernel
theorem witness_mayCommit : mayCommit (repState [acc0 1 (.store [1, 2, 3, 4]) true]) (acc0 1 (.store [1, 2, 3, 4]) true) := by
  refine ⟨by decide +kernel, rfl, rfl, by decide +kernel, by decide +kernel, (fun _ _ _ h => by cases h), fun b hb hc => ?_⟩
  obtain rfl : b = acc0 1 (.store [1, 2, 3, 4]) true := List.mem_singleton.mp hb
  exact absurd hc (by decide +kernel)
/-- Two additions from die 0 that merge on their way to stack 1, an ordered sum of 1.0, and a request of device 5. -/
theorem witness_MergesOrderedSumsAndRemoteRequests :
    let m := fun (id v : Nat) => { acc0 id (.amo .add v false false false) false with loc := ⟨0, 2 ^ 36, false, 0⟩ }
    let s := { repState [m 1 5, m 2 6] with mem := [(2 ^ 36, 7)], cycle := 40 }
    let o := acc0 1 (.amo .fadd 0x3F800000 false false true) false
    let f := { repState [o] with mem := [] }
    let r := { own ctx0 with tags := [(4, 3)], routes := [(5, 3)], links := [(2, { up := true })], mem := [(0x40000, 7)] }
    let q := { r with fadds := List.replicate 4096 ⟨0, 0x80000, ref1, 0, true, false, false, false, 0, 0⟩ }
    (∀ a ∈ s.accs, mayJoin s [1, 2] a ∧ ∀ b ∈ s.accs, together a b) ∧ (s.accs.map (·.id)).Nodup ∧ whole s (2 ^ 36) 4 ∧ s.scrub = [] ∧ unarmed s ∧ quiet r ∧ unarmed r ∧ (left (exec (.mergeGroupSend [1, 2]) s)).mem = [(2 ^ 36, 18)] ∧
    (left (exec (.mergeGroupSend [1, 2]) s)).accs = [] ∧ f.accReady o = true ∧ (f.part (f.ctx o.ctx).pid).dlog = false ∧ whole f 0x40000 4 ∧
    little (bytesAt (left (exec (.orderedFadd 1) f)) 0x40000 4) = 0x3F800000 ∧ (left (exec (.orderedFadd 1) f)).fadds.length = 1 ∧
    Kv.get 0 r.tags 4 = 3 ∧ remoteBytes (.store [1, 2]) = 2 ∧ writtenBy (remoteKind (.store [1, 2])) 2 [7, 0] = some [1, 2] ∧ whole r 0x40000 4 ∧ (r.part (r.pidOf 3)).dlog = false ∧
    bytesAt (left (exec (.remoteRequest 3 5 0x40000 0 false (.store [1, 2])) r)) 0x40000 2 = [1, 2] ∧
    (left (exec (.remoteRequest 4 5 0x40000 0 false (.store [1, 2])) r)).mem = r.mem ∧ (left (exec (.remoteRequest 3 5 0x40000 4 false .load) r)).mem = r.mem ∧
    bytesAt (left (exec (.remoteRequest 3 5 0x40000 0 true (.store [1, 2])) r)) (7 * 2 ^ 36 + 0x40000) 2 = [1, 2] ∧
    (left (exec (.remoteRequest 3 5 0x40000 0 false (.amo .fadd (natLe 4 0x3F800000) true false false)) { r with mem := [] })).fadds.length = 1 ∧
    (left (exec (.remoteRequest 3 5 0x40000 0 false (.amo .fadd (natLe 4 0x3F800000) true false false)) q)).inputs.length = 1 := by
  unfold mayJoin together unarmed quiet whole
  decide +kernel
theorem witness_MergesOrderedSumsAndRemoteRequests_answer :
    let r := { own ctx0 with tags := [(4, 3)], routes := [(5, 3)], links := [(2, { up := true })], mem := [(0x40000, 7)] }
    r.linkTo 0 5 = some 2 ∧ (r.link 2).up = true ∧ (left (exec (.remoteRequest 3 5 0x40000 4 false .load) r)).sent.map (fun e => (e.1, e.2.payload)) =
      [(2, [0, 128] ++ List.replicate 16 0 ++ [7] ++ List.replicate 127 0)] ∧
    (left (exec (.remoteRequest 4 5 0x40000 4 false .load) r)).sent.map (fun e => e.2.payload) = [[1]] := by decide +kernel
theorem witness_ErrorsAreLoggedContainedAndWiped :
    let s := { own { ctx0 with pid := 5 } with fieldTenant := [(0, 3), (1, 3)], mem := [(2 ^ 20 * 16 + 2 ^ 48, 8), (2 ^ 48, 7), (2 ^ 49, 6)], scrub := [(3, true), (2 ^ 29, true)], life := .provisioned, parts := [(5, { dlog := true, dlogp := 0x40000, v := true })], dirty := [(2 ^ 32 * 5 + 9, true)] }
    let g := { s with errs := [(0, { log := [⟨5, 0, 0, 1, 0, false, true, 0⟩] })] }
    let line : Nat := 3
    Kv.wf ({} : Ctx) s.ctxs = true ∧ Inv { s with mem := [] } ∧ ((s.err (arrayOf 0x80)).einj.getLsbD 0 = false) ∧ (s.ctx 0).pid = (5 : BitVec 7).toNat ∧
    (5 : BitVec 7) = (5 : BitVec 16).extractLsb' 0 7 ∧ Kv.wf (0 : Nat) s.fieldTenant = true ∧ (s.ctx 0).run ≠ .free ∧
    Kv.wf false s.scrub = true ∧ Kv.get false s.scrub line = true ∧ line * 128 / 2 ^ 36 = (0 : BitVec 3).toNat ∧ (s.part (5 : BitVec 7).toNat).dlog = true ∧ (s.part 6).dlog = false ∧
    (g.err 0).log[0]?.isSome = true ∧ (g.err 0).log[1]? = none ∧ Kv.wf ({} : ErrArray) g.errs = true ∧
    Kv.get false (left (exec (.uncorrectableError (.data 0x80 8 0) false) s)).poison 0x87 = true ∧ ((left (exec (.uncorrectableError (.priv 5 false 0) false) s)).part 5).rst = true ∧ ((left (exec (.uncorrectableError (.priv 5 false 0) false) s)).ctx 0).haltReq = some (0, none) ∧
    (left (exec (.uncorrectableError (.priv 4 false 0) false) s)).fw = [.reset 4 2052 (some 0)] ∧ s.holdersOf .generator 0 = [] ∧
    (left (exec (.tenantChangeWipe 1) s)).mem = [(2 ^ 48, 7), (2 ^ 49, 6)] ∧ left (exec (.tenantChangeWipe 0) s) = s ∧ Kv.get false (left (exec (.scrubLine 0) s)).scrub line = false ∧
    (left (exec (.scrubLine 1) s)).scrub = [(3, true)] ∧ left (exec (.scrubLine 2) s) = s ∧
    (left (exec (.dlogRoundEnd 5) s)).dirty = [] ∧ ((left (exec (.einjWrite 0 0xFFFFFFFFFFFFFFFF) s)).err 0).einj = 0xFFFFFFFFFFF7FFFF ∧
    ((left (exec (.errorLogClear 0 0) g)).err 0).log.map (·.valid) = [false] ∧ ((left (exec (.correctableError (.data 0x80 8 0) 1 false) s)).err (arrayOf 0x80)).log.map (·.code) = [0] := by unfold Inv; decide +kernel
/-- An armed injection at a shared structure of die 0 whose transaction carries the CID of partition 5, and the CID of a partition that is not in
use. -/
theorem witness_ErrorsAreLoggedContainedAndWiped_shared :
    let s := { own { ctx0 with pid := 5 } with parts := [(5, { v := true })], errs := [(4096, { einj := 1 })] }
    let x := Struck.shared .generator 0 0 (cidOf 5)
    s.cidBad (cidOf 5) = false ∧ s.cidBad (cidOf 6) = true ∧ (s.err (struckPlace s x).1).einj.getLsbD 0 = true ∧
    ((left (exec (.correctableError x 1 true) s)).err 4096).log.map (·.inj) = [true] := by
  have h5 := fun s => cidOf_whole s 5 (by decide)
  have h6 := fun s => cidOf_whole s 6 (by decide)
  refine ⟨by rw [(h5 _).1]; decide +kernel, by rw [(h6 _).1]; decide +kernel, by decide +kernel, ?_⟩
  simp only [exec, execCorrectableError, State.mayInject, State.struckAt, (h5 _).1]
  decide +kernel
theorem witness_fieldFree : fieldFree State.reset 0 := fun _ _ => rfl
/-- An image or a token whose signatures verify under the first key. -/
def good0 : Signed := ⟨0, 0, 0, [], [], 0⟩
theorem witness_FirmwareWritesRegistersTablesAndMemory_stop : exec (.managementCoreAccess 0x8040000000 1 none) State.reset = .fault (.reservedPhysical 0x8040000000) := rfl
/-! Whether a signature verifies is a free value of Config, so the witnesses about signed images take it as their premise. -/

theorem good0_verifies (he : Config.ecdsaOk 0 0 [] = true) (hl : Config.lmsOk 0 0 [] = true) {s : State} (hv : s.fuseVersion = 0) : s.verifies [0] good0 = true := by
  show (Config.ecdsaOk 0 0 [] && Config.lmsOk 0 0 [] && _ && _ && !(0 : BitVec 32).ult s.fuseVersion) = true
  rw [he, hl, hv]
  rfl
theorem witness_FirmwareWritesRegistersTablesAndMemory_signed (he : Config.ecdsaOk 0 0 [] = true) (hl : Config.lmsOk 0 0 [] = true) :
    let s := State.reset
    let lost := { s with remap := [(remapSpare 0 0, 1)] }
    let gone := { s with life := .deployed }
    let r : BitVec 5 → State → State := fun p s => left (exec (.remapTableChange 0 0 ⟨p, good0⟩) s)
    s.owner 0 = 127 ∧ s.physField 0 0 = 0 ∧ Kv.get 0 s.remap (remapSpare 0 0) = 0 ∧ s.harvested 0 0 = [] ∧ (r 3 s).physPan 0 0 3 = 16 ∧ (r 3 s).physPan 0 0 2 = 2 ∧
    Kv.get 0 lost.remap (remapSpare 0 0) ≠ 0 ∧ (r 4 lost).physField 0 0 = 1 ∧ r 17 s = s ∧
    (left (exec (.lifeCycleChange .provisioned (.manufacturingKey good0)) s)).life = .provisioned ∧
    (left (exec (.lifeCycleChange .returned (.ownerToken good0)) gone)).keyStore = { made := [0], owner := [], keys := [] } ∧
    left (exec (.lifeCycleChange .deployed (.ownerToken good0)) s) = s := by
  intro s lost gone r
  have hs : s.verifies s.keyStore.keys good0 = true := good0_verifies he hl rfl
  have hm : s.verifies s.keyStore.made good0 = true := good0_verifies he hl rfl
  have hw : lost.verifies lost.keyStore.keys good0 = true := good0_verifies he hl rfl
  have hg : gone.verifies gone.keyStore.owner good0 = true := good0_verifies he hl rfl
  have r0 : ∀ p u, r p u = left (execRemapTableChange 0 0 ⟨p, good0⟩ u) := fun _ _ => rfl
  have l0 : ∀ c a u, exec (.lifeCycleChange c a) u = execLifeCycleChange c a u := fun _ _ _ => rfl
  have b0 : s.life = .blank := rfl
  have b1 : gone.life = .deployed := rfl
  simp only [r0, l0, execRemapTableChange, execLifeCycleChange, b0, b1, hs, hm, hw, hg]
  decide +kernel
theorem witness_FirmwareWritesRegistersTablesAndMemory :
    let s := State.reset
    Inv s ∧ Kv.wf ({} : Part) s.parts = true ∧ Kv.wf (0 : Nat) s.routes = true ∧ Kv.wf (0 : Nat) s.tenantRoot = true ∧ Kv.wf false s.scrub = true ∧
    ((left (exec (.registerWrite (.partition 5) [0x0001000000000003, 0x0001000700000000]) s)).part 5).tenant = 7 ∧
    ((left (exec (.registerWrite (.partition 5) [0x0001000000000003, 0x0001000700000000]) s)).part 5).v = true ∧
    (left (exec (.registerWrite (.route 0 9) [4]) s)).linkTo 0 9 = some 4 ∧ (left (exec (.registerWrite (.route 0 9) [16]) s)).linkTo 0 9 = none ∧
    (left (exec (.registerWrite .ownDevice [0x1005]) s)).ownDev = 5 ∧ (left (exec (.registerWrite .floorW [300]) s)).floorW = 400 ∧
    left (exec (.remapTableChange 0 6 ⟨0, good0⟩) s) = s ∧
    (left (exec (.managementCoreAccess 0x40 2 (some [1, 2])) s)).mem = [(0x40, 1), (0x41, 2)] ∧ (left (exec (.managementCoreAccess 0x40 1 none) s)).fw = [.coreRead 0x40 [0]] ∧
    (left (exec (.endpointDirectoryUpdate 1 2 3 4) s)).directory = [(1, 2, 3, 4)] ∧ s.scrub = [] ∧ unarmed s ∧
    (left (exec (.registerWrite (.resMap 5) [7, 8]) { s with parts := [(5, { rmap := 0x40 })] })).mem = [(0x40, 7), (0x44, 8)] := by unfold Inv unarmed; decide +kernel
theorem witness_mayMove (he : Config.ecdsaOk 0 0 [] = true) (hl : Config.lmsOk 0 0 [] = true) :
    mayMove State.reset .provisioned (.manufacturingKey good0) ∧ ¬ mayMove State.reset .deployed (.ownerToken good0) ∧
    mayMove { State.reset with life := .deployed } .returned (.ownerToken good0) := by
  have hv : ∀ k : List (BitVec 384), 0 ∈ k → verified State.reset k good0 := fun k hk => ⟨he, hl, hk, hk, Nat.le_refl 0⟩
  exact ⟨⟨rfl, rfl, hv _ (List.mem_singleton.mpr rfl)⟩, (fun h => by rcases h.1 with ⟨h, -⟩ | ⟨h, -⟩ <;> cases h), .inr ⟨rfl, rfl⟩, hv _ (List.mem_singleton.mpr rfl)⟩
/-- A whole flit of a type with sequence number 0. -/
def flit0 (nak : Bool) : Flit :=
  let f : Flit := ⟨0, 4, 0xFFF, nak, 0, 0, 0, 0, [], 0, 0⟩
  { f with crc := flitCrc (flitBytes f) }
def linked (r : List Flit) : State := { State.reset with links := [(0, { up := true, replay := r })] }
theorem witness_PowerLinksAndTheControlNodeAct_power :
    let s := { State.reset with bringUp := 7, pwr := [(1016, { ftgt := 5, fcur := 4, stepTo := some 5, moveTo := some 700 })], domains := [(1016, { t := 8 })], parts := [(127, { fset := 0x3F, v := true })] }
    let hot := { s with cap := 500 }
    let cold := { hot with pwr := List.map (fun d => (d, ({ fceil := 0 } : Pwr))) hot.liveDomains }
    Inv s ∧ Kv.wf ({} : Pwr) s.pwr = true ∧ (s.pwrOf 1016).stepTo = some 5 ∧ (s.pwrOf 1016).moveTo = some 700 ∧ (s.pwrOf 0).stepTo = none ∧ (s.pwrOf 0).moveTo = none ∧
    hot.cap < 501 ∧ (∃ d ∈ hot.liveDomains, (hot.pwrOf d).fceil ≠ 0) ∧ (¬ ∃ d ∈ cold.liveDomains, (cold.pwrOf d).fceil ≠ 0) ∧ cold.wactOf 3 < 640 ∧
    ((left (exec (.powerWindow 501 []) hot)).pwrOf 1016).fceil = 59 ∧ (left (exec (.powerWindow 501 []) cold)).wactOf 3 = 80 ∧ ((s.cap < 100) = False) ∧
    (left (exec (.cap 3 9 600) s)).cap = 600 ∧ left (exec (.cap 3 9 600) { s with lastCseq := some 3 }) = { s with lastCseq := some 3 } ∧
    (left (exec .leaseExpiry { s with lease := some 4 })).lease = none ∧ ¬ verified s s.keyStore.keys { good0 with lmsKey := 1 } ∧
    ((left (exec (.voltageMoveEnd 1016) { s with pwr := [(1016, { vcur := some 600, moveTo := some 700 })] })).pwrOf 1016).vcur = some 610 ∧ s.ganged 1016 = false := by
  unfold Inv verified
  refine ⟨?_, ?_, ?_, ?_, ?_, ?_, ?_, ?_, ?_, ?_, ?_, ?_, ?_, ?_, ?_, ?_, (fun h => absurd h.2.2.2.1 (by decide)), ?_, ?_⟩ <;> decide +kernel
theorem witness_PowerLinksAndTheControlNodeAct_bringUp (he : Config.ecdsaOk 0 0 [] = true) (hl : Config.lmsOk 0 0 [] = true) :
    let t := left (exec (.powerOnReset ⟨good0, good0, [], [2]⟩) State.reset)
    let u := left (exec (.powerOnReset ⟨{ good0 with lmsKey := 1 }, good0, [], []⟩) State.reset)
    verified State.reset State.reset.keyStore.keys good0 ∧ t.bringUp = 7 ∧ t.lostDies = [2] ∧ u.recovery = true ∧ u.bringUp = 1 ∧ (u.link 3).up = false ∧ (u.link 16).up = true := by
  have h : ∀ v : State, v.fuseVersion = 0 → v.keyStore = {} → v.verifies v.keyStore.keys good0 = true := fun v hv hk => by
    rw [hk]
    exact good0_verifies he hl hv
  have h' : ∀ v : State, v.keyStore = {} → v.verifies v.keyStore.keys { good0 with lmsKey := 1 } = false := fun v hk => by
    rw [hk, State.verifies, show ((({} : KeyStore).keys).contains ({ good0 with lmsKey := 1 } : Signed).lmsKey) = false from by decide]
    simp
  have e : ∀ b, exec (.powerOnReset b) State.reset = execPowerOnReset b State.reset := fun _ => rfl
  refine ⟨⟨he, hl, List.mem_singleton.mpr rfl, List.mem_singleton.mpr rfl, Nat.le_refl 0⟩, ?_⟩
  simp only [e, execPowerOnReset, h State.reset.lasting rfl rfl, h' State.reset.lasting rfl]
  decide +kernel
theorem witness_PowerLinksAndTheControlNodeAct_links :
    let s := linked [flit0 false]
    let w : Acc := { acc0 1 (.load false) false with loc := ⟨5, 0x40000, false, 0⟩ }
    let down := { own ctx0 with routes := [(5, 1)], links := [(0, { up := false })], accs := [w, acc0 2 (.load false) false] }
    (s.link 0).up = true ∧ (down.link 0).up = false ∧ flitWhole (flit0 true) = true ∧ flitWhole { flit0 false with crc := 0 } = false ∧ (flit0 true).seq = (s.link 0).rxSeq + 1 ∧
    ((left (exec (.flitReceive 0 { flit0 false with crc := 0 }) s)).link 0).nak = true ∧ (left (exec (.flitReceive 0 (flit0 true)) s)).agenda = [.flitReplay 0 0xFFF] ∧
    ((left (exec (.flitReceive 0 (flit0 false)) s)).link 0).rxSeq = 0 ∧ flitsAfter 0xFFF [flit0 false] = [flit0 false] ∧ flitsAfter 0 [flit0 false] = [] ∧
    (left (exec (.flitReplay 0 0xFFF) s)).sent = [(0, flit0 false)] ∧ ((left (exec (.flitReplay 0 0xFFF) { s with links := [(0, { up := true, replay := [flit0 false], resends := 16 })] })).link 0).up = false ∧
    down.waitsOn 0 (dieOf 0) 5 = true ∧ (left (exec (.linkTimeout 0) down)).accs.map (·.id) = [2] := by decide +kernel
/-- Tables of partition 127 (tenant 0) at 0x80000, one a level, that map the 64 KiB granules of 0x100000 to 0x40000 and of 0x110000 to 0x50000,
both writable (R313), and the launch parameter block of `lpb` there. -/
def tabled : State :=
  let ptr := fun (k : Nat) => bytesIn (0x80000 + 4096 * k) (natLe 8 (0x80001 + 4096 * (k + 1)))
  { world { ctx0 with run := .free } 1 with
    tenantRoot := [(0, 0x80000)]
    mem := bytesIn 0x50000 (lpb 1) ++ ptr 0 ++ ptr 1 ++ ptr 2 ++ ptr 3 ++ bytesIn 0x84080 (natLe 8 0x40007 ++ natLe 8 0x50007) }
theorem witness_PowerLinksAndTheControlNodeAct_start :
    let s := tabled
    let a := 0x110000
    let x := starter s 127 (s.part 127).tenant [a]
    let l := lpbOf (lpb 1)
    let y := starter s 127 (BitVec.ofNat 16 l.tenant) [l.prog, l.cpl, l.inbox]
    (∀ e ∈ x.ext, ∀ r ∈ e.runs, r.dev = s.ownDev.toNat) ∧ (∀ e ∈ y.ext, ∀ r ∈ e.runs, r.dev = s.ownDev.toNat) ∧ plainWrites s 127 ∧ Inv s ∧ s.recovery = false ∧ s.walk 0 0x300000 = none ∧ s.accessFault x true false 0x300000 256 = some 9 ∧ (s.walk 0 0x100000).map (·.pa) = some 0x40000 ∧
    (s.walk 0 0x100000).map (·.w) = some true ∧ s.accessFault x true false a 256 = none ∧ s.readVirt x 0 a 256 = .bytes (lpb 1) ∧ s.launchCheck y 0 127 a (lpb 1) = .take ∧
    (left (exec (.start 3 127 0x110000) s)).wolas.map (·.type) = [2] := by
  unfold Inv plainWrites quiet unarmed
  decide +kernel
theorem witness_PowerLinksAndTheControlNodeAct_answers :
    let s := { world { ctx0 with run := .free } 1 with recovery := false }
    let a := 0x110000
    let x := starter s 127 (s.part 127).tenant [a]
    s.recovery = false ∧ (s.part 5).tenant.toNat = 0 ∧ s.walk 0 0x100000 = none ∧ s.accessFault x true false a 256 = some 9 ∧
    (left (exec (.start 3 5 0x110000) s)).wolas = [⟨2, 5, 3, natLe 1 9 ++ natLe 8 0x110000⟩] ∧ (left (exec (.imgld 3 5 0x100000 [1]) s)).wolas = [⟨1, 5, 3, natLe 8 0x100000⟩] ∧
    (left (exec (.imgld 3 0x7F 0x100000 [1]) s)).wolas = [⟨1, 0x7F, 3, natLe 8 0⟩] ∧ left (exec (.imgld 3 5 0x100000 [1]) { s with recovery := true }) = { s with recovery := true } ∧
    (left (exec (.attreq 3 (List.replicate 32 7)) s)).wolas.map (·.type) = [5] ∧ (left (exec (.debug 3 [1]) s)).fw = [.wolasDebug 3 [1]] := by decide +kernel
/-- A body word where no body is open, and an instruction that is none inside a body (R66). -/
theorem witness_StepRunsTheDecodedInstruction_misplaced :
    let n : Instr := .nest 1 5 (.counts 7)
    let s := State.reset.place (encode n)
    let u := own { standing (.addi 4 0 7) none with body := some ⟨1, 5, 0x10008, none, none, []⟩ }
    readyToIssue (s.ctx 0) ∧ textAtPc (s.ctx 0) = (encodeWord n).map .word ∧ inBody n = true ∧ (s.ctx 0).body = none ∧ readyToIssue (u.ctx 0) ∧
    textAtPc (u.ctx 0) = (encodeWord (.addi 4 0 7)).map .word ∧ inBody (.addi 4 0 7) = false ∧ (u.ctx 0).body ≠ none ∧
    (left (step u)).self.tcode = 4 ∧ (left (step u)).self.tpc = 0x10000 ∧ (left (step { s with ctxs := [(0, { s.ctx 0 with tvec := 0x10000 })] })).self.tcode = 4 := by
  unfold readyToIssue
  decide +kernel
/-- Results due and not due, two of them to one register, and replayed results, one of them set loose. -/
def dueCtx : Ctx := { ctx0 with
  cyc := 5, flight := [⟨.s 3, 1, 5, true, none, 1⟩, ⟨.s 3, 2, 4, true, none, 2⟩, ⟨.s 4, 3, 6, true, none, 3⟩]
  y1 := { v := true, dst := 6, due := some 5, val := 8, seq := 1 }, y3 := { v := true, dst := 6, due := some 4, val := 9, seq := 2, held := some 10 }
  loose := [{ v := true, dst := 7, due := some 5, val := 11 }] }
theorem witness_ResultsLandWhenDue_lands :
    let t := left (exec (.resultLanding 0) (own dueCtx))
    let u := left (exec (.replayLanding 0) (own dueCtx))
    t.reg 3 = 2 ∧ t.self.flight.map (·.due) = [6] ∧ u.reg 6 = 10 ∧ u.reg 7 = 11 ∧ u.self.loose = [] ∧ u.self.y1.v = false ∧ u.self.y3.v = false := by decide +kernel
theorem witness_lastTo : lastTo (replaysOf dueCtx) (fun z => runsOut z 5) 3 dueCtx.y3 := by
  refine ⟨rfl, ⟨rfl, 4, rfl, by decide⟩, fun j z hj hz hd hne => ?_⟩
  match j, hj with
  | 0, hj => cases hj; exact absurd hz.1 (by decide)
  | 1, hj => cases hj; exact .inl (by decide)
  | 2, hj => cases hj; exact absurd hz.1 (by decide)
  | 3, _ => exact absurd rfl hne
  | 4, hj => cases hj; exact absurd hd (by decide)
theorem witness_SpaceAccessesCheckLoadAndStore_corrupt :
    let s := { own (regs [(1, 8)]) with poison := [(2 ^ 48 + 9, true)] }
    s.self.inFlight < 4 ∧ s.ownView.poisoned (s.spaceBase .node + 8) 8 ≠ none ∧ (left (exec (.ld .node 3 false 4 1 0) s)).self.flight.map (·.poison) = [some 8] := by decide +kernel
theorem witness_SpillStackPushesAndPops_faults :
    let ro := own { ctx0 with spd := 2, ovfPtr := 0x208000 }
    let bad := own { ctx0 with spd := 3, ovfPtr := 0x108004 }
    let low := own { ctx0 with spd := 1 }
    (ro.self.extentOf ro.self.ovfPtr.toNat).map (·.w) = some false ∧ (left (exec (.push 1) ro)).self.tcode = 9 ∧ 2 ≤ bad.self.spd.toNat - 1 ∧
    faultOfAccess bad true (.load true) (bad.self.ovfPtr - 8).toNat 8 = some 0x0A ∧ (left (exec (.pop 1) bad)).self.tcode = 0x0A ∧
    low.self.struck = none ∧ low.self.flight = [] ∧ low.self.spd.toNat - 1 < 2 ∧ (left (exec (.pop 1) low)).self.flight.map (·.due) = [low.self.cyc + 4] := by decide +kernel
theorem witness_GlobalAccessesIssueOrFault_pending :
    let s := world { ctx0 with s := [(4, 0x100000)], hpend := [(3, 1)] } 1
    (globalOf s (.hst .virt 3 2 4 0 1)).map (·.2.2.1) = some 0x100000 ∧ faultOfAccess s true (.store []) 0x100000 64 = none ∧ Kv.get 0 s.self.hpend 3 ≠ 0 ∧
    Kv.get 0 s.self.hpend 4 = 0 ∧ (left (exec (.hst .virt 3 2 4 0 1) s)).self.tcode = 7 ∧ (left (exec (.hst .virt 4 2 4 0 1) s)).accs.length = 1 := by decide +kernel
/-- One access of each other kind to physical address 0x40000: a sum of floats, a shape, a metadata register, an invariant load, and a load
of a replicated page. -/
def landing (k : AccKind) (n : Nat) (rep : Bool) : State := { own { ctx0 with l := [(1, { pending := true, acc := 1 })], hpend := [(3, 1)] } with
  accs := [⟨1, 0, k, 0x100000, n, true, ⟨0, 0x40000, rep, 0⟩, 0, false, false, some 1, [], 0, [], false, [], [], false, false, 0, 0⟩]
  metas := [(5, { acc := 1 })], nextId := 5, mem := bytesIn 0x40000 [0, 0, 0x80, 0x3F] }
theorem witness_AccessesPerformAndLand_kinds :
    let t := fun (k : AccKind) (n : Nat) => left (exec (.landingArrival 1 none) (landing k n false))
    let old := { landing (.inv false) 4 false with lineBufs := [⟨0, 0, 0, 0, 0x40000 / 128, natLe 128 7, 0, 127, []⟩] }
    let bad := { landing (.load false) 4 false with poison := [(0x40001, true)] }
    ((landing (.hload 3) 64 false).acc 1).isSome = true ∧ (landing (.load false) 4 true).lineLocked 0 0x40000 4 = false ∧
    bytesAt (t (.amo .fadd 0x40000000 false false false) 4) 0x40000 4 = [0, 0, 0x40, 0x40] ∧ (t (.hload 3) 64).self.h = [(3, 0x3F800000)] ∧
    (t (.hload 3) 64).self.shapePending 3 = false ∧ Kv.wf ({} : Meta) (landing (.mload 5) 128 false).metas = true ∧ (Kv.get {} (t (.mload 5) 128).metas 5).valid = true ∧
    (t (.inv false) 4).lineBufs.map (fun b => (b.line, b.bytes.take 4)) = [(0x800, [0, 0, 0x80, 0x3F])] ∧
    ((left (exec (.landingArrival 1 none) (landing (.load false) 4 true))).self.landing 1).val = 0x3F800000 ∧
    (old.bufferOf (old.accs.headD (acc0 1 (.inv false) false))).map (·.bad) = some [] ∧ ((left (exec (.landingArrival 1 none) old)).self.landing 1).val = 7 ∧
    bad.poisoned 0x40000 4 ≠ none ∧ ((left (exec (.landingArrival 1 none) bad)).self.landing 1).poison = some 0x100000 := by decide +kernel
theorem witness_SystemRegistersReadAndWrite_replays :
    let s := own { busy with s := [(1, 1)] }
    let r := own { ctx0 with y0 := { v := true, dst := 3, due := some 9, val := 5 }, s := [(1, 0)] }
    fifth s.self 0x041 (s.reg 1) ∧ (left (exec (.sysw 0x041 1) s)).self.tcode = 7 ∧ running r.self 0 = [r.self.y0] ∧ ¬ fifth r.self 0x041 (r.reg 1) ∧
    (left (exec (.sysw 0x041 1) r)).self.loose = [r.self.y0] ∧ (left (exec (.sysw 0x041 1) r)).self.y0.v = false := by
  refine ⟨⟨by decide, by decide, by decide, by decide +kernel, by decide +kernel, fun y h => ?_⟩, by decide +kernel, by decide +kernel, fun h => absurd h.2.2.2.1 (by decide +kernel),
    by decide +kernel, by decide +kernel⟩
  cases h
  exact .inl rfl
/-- Context 0 at its text in the first extent, which holds FLUSHI, or at a DICTLD of a dictionary whose first entry is 5, its wait at its end. -/
def readAgain (i : Instr) (m : List Host.Cell) : State :=
  { own { standing i (some { stage := 1, since := 0, upto := 40, val := 0x100000 }) with textBase := 0x110000, pc := 0x110000, cyc := 11 } with cycle := 40, mem := m }
theorem witness_DictionaryAndTextAreExpandedAgain_read :
    let s := readAgain .flushi (bytesIn 0x50000 (encode (.addi 4 0 7)))
    quiet s ∧ s.scrub = [] ∧ s.self.hold.map (fun h => (h.stage, h.upto)) = some (1, 40) ∧ s.readFree false = true ∧ s.linesFree 0x110000 64 = true ∧
    s.readVirt s.self 0 0x110000 64 = .bytes (encode (.addi 4 0 7) ++ List.replicate 51 0) ∧
    (left (exec .flushi s)).self.text.take 13 = encode (.addi 4 0 7) ∧ (left (exec .flushi s)).self.store.head?.map (·.cell) = (encodeWord (.addi 4 0 7)).map .word := by
  unfold quiet
  decide +kernel
theorem witness_LaunchTakesOrRefuses_corrupt :
    let s := { world { standing (.launch 3 1) (some { stage := 1, val := 0x110000, upto := 40 }) with pid := 127 } 1 with cycle := 40, poison := [(0x50005, true)] }
    (match s.readVirt s.self 0 0x110000 256 with | .corrupt _ => true | _ => false : Bool) = true ∧ (left (exec (.launch 3 1) s)).self.tcode = 0x12 ∧
    (left (exec (.launch 3 1) { s with cycle := 39 })).self.hold.isSome = true := by decide +kernel
/-- Context 0 returns from a handler that a block fault has entered: its block, its chain and a captured result wait. -/
theorem witness_RftReturnsFromTheHandler_resumes :
    let s := { own { ctx0 with hnd := true, tpc := 0x10004, y3 := { v := true, dst := 4, val := 8 } } with
      runs := [(2, { live := true, stopped := true, faulted := true })], kcnt := [(2, 4)], cmds := [{ chainCmd .stopped 1 0 [] [] with code := 1 }]
      elems := [(19, { ye := [⟨2, 3, .e 5, .bits 7, false, 0, 0⟩] })] }
    let t := left (exec .rft s)
    (∀ y ∈ [s.self.y0, s.self.y1, s.self.y2, s.self.y3], y.due = none) ∧ Kv.wf (0 : Word) s.self.s = true ∧ s.self.loose = [] ∧ s.self.flight = [] ∧
    Kv.wf ({} : BlkRun) s.runs = true ∧ Kv.wf ({} : Elem) s.elems = true ∧ (s.elem 0 19).ye.map (fun y => (y.hlt, y.ctx)) = [(false, 0)] ∧
    t.reg 4 = 8 ∧ t.self.y3.v = false ∧ (t.runOf 0 2).stopped = false ∧ t.cmds.map (fun k => (k.st, k.code)) = [(.running, 0)] ∧
    (t.elem 0 19).flight = [⟨2, 7, .e 5, .bits 7, true, 0⟩] ∧ (t.elem 0 19).ye = [] := by decide +kernel
theorem witness_ElementResultsLandAndLeave_kinds :
    let s := { rowState 0 with kcnt := [(2, 5)], elems := [(19, { t := [(1, { re := 3 })], flight := [⟨2, 5, .port .e, .bits 0x77, true, 3⟩, ⟨2, 5, .lane 1, .setLane (-1), true, 3⟩,
      ⟨2, 5, .lane 2, .bits 6, true, 3⟩] })] }
    let t := left (exec (.elementResultLanding 19) s)
    let d := left (exec (.portDelayExit 19) { s with elems := [(19, { delay := [⟨.e, 2, 5, none, 9⟩, ⟨.n, 2, 6, none, 8⟩] })] })
    Kv.wf ({} : Elem) s.elems = true ∧ (s.runOf 0 2).stopped = false ∧ (t.elem 0 20).delay.map (fun d => (d.port, d.due, d.val)) = [(.w, 6, 0x77)] ∧
    (sentBy s 0 19 ⟨2, 5, .port .e, .bits 0x77, true, 3⟩).map (·.1) = [20] ∧ ((t.elem 0 19).lane 1).l = 0xFFFFFFFFFFFFFFFF ∧ ((t.elem 0 19).lane 2).l = 6 ∧
    (d.elem 0 19).delay.map (·.due) = [6] ∧ (d.elem 0 19).ports.map (fun p => p.2.v) = [9] := by decide +kernel
theorem witness_tidyTables : tidyTables (dispState rec0) ∧ tidyTables haltedState ∧ tidyTables resumable := by unfold tidyTables; decide +kernel
theorem peeks_mirror (s : State) (m : Kv (List MirrorPart)) (n : Nat) : ∀ a, ({ s with mirror := m }).peeks a n = s.peeks a n := by
  induction n with
  | zero => exact fun _ => rfl
  | succ n h => exact fun a => congrArg₂ List.cons rfl (h (a + 1))
theorem recMap_mirror (s : State) (m : Kv (List MirrorPart)) (pan : Nat) (r : BindRec) : ({ s with mirror := m }).recMap pan r = s.recMap pan r := by
  simp only [State.recMap, State.recLpb, State.peekNat, peeks_mirror]
  rfl
/-- The mirror of a pan is full: 200 saved parts of 250 bytes stand in it. -/
def mirrored (s : State) (pan : Nat) : State := { s with mirror := [(pan, List.replicate 200 ⟨ref1, 0, 1, List.replicate 250 0⟩)] }
theorem mirrorBytes_full (s : State) (pan : Nat) (c : s.cycle = 0) : 49152 < (mirrored s pan).mirrorBytes pan := by
  have f : (List.replicate 200 250).foldl (· + ·) 0 = 50000 := by decide +kernel
  simp only [mirrored, State.mirrorBytes, Kv.get, if_true, c]
  rw [List.filter_replicate, if_pos (by decide), List.map_replicate, List.length_replicate, f]
  omega
theorem mirrorRoom_full (s : State) (map : List Nat) (secs : List Section) (c : s.cycle = 0) (p : secs.map (·.p) = [0]) :
    (mirrored s (map.getD 0 0)).mirrorRoom map secs = false := by
  cases secs with
  | nil => simp at p
  | cons x l =>
    have r : x.p = 0 := by simp only [List.map_cons, List.cons.injEq] at p; exact p.1
    have h := mirrorBytes_full s (map.getD 0 0) c
    have g : decide ((mirrored s (map.getD 0 0)).mirrorBytes (map.getD x.p 0) + x.mirrorBytes ≤ 49152) = false := decide_eq_false (by rw [r]; omega)
    simp only [State.mirrorRoom, List.all_cons, g, Bool.false_and]
def mirrorPan : Nat := (resumable.recMap 0 (resumable.record 0 2).r).getD 0 0
theorem witness_InstancesAreSavedAndResumed_swap :
    haltedState.savable (haltedState.ctxsOf ref1 0) = true ∧ (own { haltedCtx with run := .running }).savable [0] = false ∧
    (mirrored resumable mirrorPan).imageBad 0 ((mirrored resumable mirrorPan).record 0 2) image0 = false := by decide +kernel
theorem witness_InstancesAreSavedAndResumed_full : let s := mirrored resumable mirrorPan
    s.mirrorRoom (s.recMap 0 (s.record 0 2).r) (image0.own (s.record 0 2)) = false := by
  show (mirrored resumable mirrorPan).mirrorRoom ((mirrored resumable mirrorPan).recMap 0 (resumable.record 0 2).r) (image0.own (resumable.record 0 2)) = false
  unfold mirrored
  rw [recMap_mirror]
  exact mirrorRoom_full resumable _ _ rfl (by decide +kernel)
/-- A TFILL whose side is binding 4 of the node at 0, which a running block binds as the engine's destination, or as its source. -/
def boundCmd : Cmd := { fillCmd .waiting 0 4 with instr := .tfill ⟨false, 0, 3, 7⟩ ⟨0, true, 4⟩ 1 }
def boundState (dir : Nat) (c : List (Nat × BindCtl)) : State :=
  { cmdState boundCmd with active := [(2, { blk0 with live := true, nodeB := [(4, 2 ^ 60 * dir + 1)] })], nodeCtl := c }
theorem witness_EnginesAcceptPerformAndComplete_bindings :
    let r := boundState 2 [(4, { base := 0x100, size := 16, depth := 2 })]
    let w := boundState 2 [(4, { base := 0x100, size := 16, depth := 2, slots := [(0, { full := true })] })]
    (boundCmd.sides.map (r.bindState 0)) = [.ready] ∧ (boundCmd.sides.map (w.bindState 0)) = [.wait] ∧
    ((boundCmd.sides.map ((boundState 1 []).bindState 0)).head?.map fun b => match b with | .fail c _ => c | _ => 0) = some 0x0204 ∧
    (left (exec (.engineBindingSlotReady 1) r)).cmds.map (·.st) = [.running] ∧ (left (exec (.engineBindingSlotReady 1) w)).cmds.map (·.st) = [.waiting] ∧
    (objectAt (left (exec (.engineBindingSlotReady 1) (boundState 1 []))) 0x40000).code = 0x0204 := by decide +kernel
/-- Two COLLs of one endpoint wait; and a COLL whose field has spent its byte budget. -/
theorem witness_EnginesAcceptPerformAndComplete_order :
    let two := { cmdState (collCmd .waiting 5 64 0) with cmds := [collCmd .waiting 5 64 0, { collCmd .waiting 5 64 0 with id := 2 }] }
    let spent := { cmdState (collCmd .issued 0 0 0) with budgets := [(0, 1024)], budgetUsed := [(0, 1024)] }
    left (exec (.collHeaderMatch 2 [] 2 []) two) = two ∧ (left (exec (.collHeaderMatch 1 [] 2 []) two)).cmds.map (·.id) = [2] ∧
    spent.budgetSpent 0 = true ∧ left (exec (.engineAccept 1) spent) = spent ∧ ({ spent with budgetUsed := [(0, 1023)] }).budgetSpent 0 = false := by decide +kernel
/-- Context 0 reaches its halt point in a cycle whose kernel cycle its running block has counted; and it stands halted while a write of its
block is owed. -/
theorem witness_RequestsHaltContextsAndTheLadderEndsThem_blocks :
    let s := { askState none with runs := [(2, { live := true, start := 3 })], kcnt := [(2, 5)], clocked := [2] }
    let n := { askState none with runs := [(2, { live := true, start := 3 })], kcnt := [(2, 5)] }
    let w : UnitWrite := ⟨0, 2, 9, 2, 0, 0, false, 0, 0x100, [1], false, 0, 0, 0⟩
    let h := { own { ctx0 with run := .halted .debug } with runs := [(2, { live := true, stopped := true })], writes := [w] }
    tidyTables s ∧ Kv.wf (0 : Nat) s.kcnt = true ∧ s.clocked.Nodup ∧ (left (exec (.haltPoint 0) s)).kc 0 2 = 4 ∧ (left (exec (.haltPoint 0) n)).kc 0 2 = 5 ∧
    ((left (exec (.haltPoint 0) s)).runOf 0 2).stopped = true ∧ (h.runOf 0 2).ctx = 0 ∧ (left (exec (.haltComplete 0) h)).writes = [] := by
  unfold tidyTables
  decide +kernel
theorem witness_DomainsStallAtMarksAndStreamSlotsTravel_retrain :
    let s := { tidewState none with cycle := 256, domains := [(1016, { t := 8, samples := [(1017, [⟨5, 0, 50, 999, true⟩]), (1023, [⟨5, 0, 50, 999, true⟩])] })] }
    let t := left (exec (.linkRetrain 0 none) s)
    crosses 0 (1017 % 8) (1016 % 8) ∧ ¬ crosses 0 (1023 % 8) (1016 % 8) ∧ t.uncal = [0] ∧ t.latKnown 1017 1016 = false ∧
    Kv.get [] (t.domain 1016).samples 1017 = [] ∧ (Kv.get [] (t.domain 1016).samples 1023).length = 1 ∧ (left (exec (.tideSample 1017 1016) t)).domains = t.domains := by
  refine ⟨?_, ?_, ?_⟩
  · rw [crosses, if_neg (by decide)]
    exact ⟨0, by decide, by decide⟩
  · rw [crosses, if_pos (by decide)]
    rintro ⟨k, h, e⟩
    omega
  · decide +kernel
/-- Requests of device 5 at stack 0: a load of a line that holds a poisoned byte, an update of a completion object, an addition to a sum that is
open, and the exit of the task that opened it. -/
theorem witness_ReplicasMergesAndRemoteRequests_kinds :
    let r := { own ctx0 with tags := [(4, 3)], routes := [(5, 3)], links := [(2, { up := true })], mem := bytesIn 0x40000 [4, 0, 0, 0, 0, 0, 0, 1] }
    let open5 : FaddEntry := ⟨0, 0x40000, ⟨133, 9⟩, 0, true, false, false, false, 0, 0⟩
    (left (exec (.remoteRequest 3 5 0x40000 0 false .load) { r with poison := [(0x40003, true)] })).sent.map (fun e => e.2.payload.take 4) = [[0, 128, 8, 0]] ∧
    whole r 0x40000 32 ∧ (objectAt (left (exec (.remoteRequest 3 5 0x40000 0 false (.update [.report 0 0, .less 4])) r)) 0x40000).pend = 0 ∧
    (objectAt (left (exec (.remoteRequest 3 5 0x40000 0 false (.update [.report 0x0210 7, .less 4])) r)) 0x40000).code = 0x0210 ∧
    (left (exec (.remoteRequest 3 5 0 0 false (.taskExit 9)) { r with fadds := [open5, { open5 with pa := 0x40004, task := ⟨133, 8⟩ }] })).fadds.map (·.pa) = [0x40004] ∧
    (left (exec (.remoteRequest 3 5 0x40000 0 false (.amo .fadd (natLe 4 0x3F800000) true false false 9)) { r with mem := [], fadds := [open5] })).fadds.length = 1 ∧
    (left (exec (.remoteRequest 3 5 0x40000 0 false (.amo .fadd (natLe 4 0x3F800000) true false false 9)) { r with mem := [] })).fadds.map (·.task) = [⟨133, 9⟩] ∧
    bytesAt (left (exec (.remoteRequest 4 0 0x40000 0 false (.store [1, 2])) r)) 0x40000 2 = [1, 2] ∧ r.ownDev = 0 := by
  unfold whole
  decide +kernel
theorem witness_ErrorsAreLoggedContainedAndWiped_ring :
    left (exec (.uncorrectableError (.ring 0 3 0) false) State.reset) = State.reset ∧ namedFor 2048 0x1205 = 5 ∧ namedFor 3072 0x1205 = 0x1205 ∧ namedFor 15 0x1205 = 0x1205 := by decide +kernel
theorem witness_FirmwareWritesRegistersTablesAndMemory_budgets :
    let v : List Word := [3, 0x0001000000000000, 0, 0, 0, 2 * 2 ^ 32, 0]
    let s := { State.reset with bringUp := 7, shares := [(0, 1501)] }
    let t := left (exec (.registerWrite (.partition 5) v) s)
    Kv.wf (0 : Nat) s.budgets = true ∧ Kv.get 0 t.budgets 0 = 1500 ∧ Kv.get 0 t.budgets 1 = 2048 ∧ (t.part 5).v = true ∧
    ((left (exec (.registerWrite (.partition 5) v) { s with bringUp := 6 })).part 5).v = false := by decide +kernel
/-- A message on the Wolas port in one flit, or begun and not ended by it (R477). -/
def portFlit (seq : BitVec 12) (type last : Byte) (body : List Byte) : Flit :=
  let f : Flit := ⟨seq, 5, 0xFFF, false, 0, 0xFFE, 0xFFF, 0, [type, last] ++ natLe 2 0x7F ++ natLe 8 3 ++ natLe 4 0 ++ body, 0, 0⟩
  { f with crc := flitCrc (flitBytes f) }
theorem witness_PowerLinksAndTheControlNodeAct_port :
    let s := { State.reset with links := [(16, { up := true })] }
    let cap := natLe 8 9 ++ natLe 4 5 ++ natLe 4 600
    let q := left (exec (.flitReceive 16 (portFlit 0 3 0 (cap.take 8))) s)
    flitWhole (portFlit 0 3 1 cap) = true ∧ (s.link 16).up = true ∧ (portFlit 0 3 1 cap).seq = (s.link 16).rxSeq + 1 ∧
    (left (exec (.flitReceive 16 (portFlit 0 3 1 cap)) s)).cap = 600 ∧ q.portIn = some ⟨3, 0x7F, 3, natLe 8 9⟩ ∧ q.cap = s.cap ∧
    (left (exec (.flitReceive 16 (portFlit 0 9 1 [])) s)).errs.map (·.1) = [8208] ∧
    (left (exec (.flitReceive 16 (portFlit 0 6 1 [1])) { s with recovery := false })).fw = [.wolasDebug 3 [1]] := by decide +kernel

end Sys2Proof.Tests
end

/-! # Memory stays in its canonical form (O10), and what a step is (O8)

The invariant `Inv` speaks of the bytes of memory alone. So every function of the model gets one lemma, in the order of the model: either it
leaves memory as it was (`f_mem`), or it keeps memory canonical, since all its writes go through `State.writeByte` and `State.wipe`
(`f_memWf`).
`exec_memWf` puts the arms of `exec` together, and `State.advancePart_memWf` the parts of a fabric cycle. -/

section
namespace Sys2Proof.Machine

/-! ## The memory of an outcome, and of a fold -/

/-- The memory of the next state; an outcome without one has nothing to keep canonical. -/
def Out.mem (o : Out) : List Host.Cell := match o with | .next t => t.mem | _ => []

@[simp] theorem Out.mem_next (t : State) : Out.mem (.next t) = t.mem := rfl

@[simp] theorem State.foldl_mem {α : Type} {f : State → α → State} (hf : ∀ s a, (f s a).mem = s.mem) (l : List α) (s : State) :
    (l.foldl f s).mem = s.mem :=
  List.foldlRecOn (motive := fun t => t.mem = s.mem) l f rfl fun t ht a _ => (hf t a).trans ht

theorem State.foldl_memWf {α : Type} {f : State → α → State}
    (hf : ∀ s a, Memory.wf s.mem = true → Memory.wf (f s a).mem = true) (l : List α) {s : State} (h : Memory.wf s.mem = true) :
    Memory.wf (l.foldl f s).mem = true :=
  List.foldlRecOn (motive := fun t => Memory.wf t.mem = true) l f h fun t ht a _ => hf t a ht

theorem State.ite_memWf {c : Prop} [Decidable c] {a b : State} (ha : Memory.wf a.mem = true) (hb : Memory.wf b.mem = true) :
    Memory.wf (if c then a else b).mem = true := by
  split
  · exact ha
  · exact hb

theorem Memory.wf_of_eq {m n : List Host.Cell} (e : n = m) (h : Memory.wf m = true) : Memory.wf n = true := e ▸ h

/-! ## What leaves memory as it was -/

/-! ### The fields of a state beside its memory -/

theorem State.mem_with_banks (t : State) (a : Kv Place) (b : Kv Stream) (c d : Kv (List BankSlot)) (e : Kv (List MirrorPart))
    (f : Kv Byte) :
    ({ t with sluice := a, streams := b, shadowBank := c, fieldBank := d, mirror := e, bankControl := f } : State).mem = t.mem := rfl

/-! ### Traps, branches and holds -/

@[simp] theorem State.done_mem (s : State) (x : Ctx) : Out.mem (s.done x) = s.mem := by rfl

@[simp] theorem State.result_mem (s : State) (r : Reg) (v : Word) (lat : Nat) : Out.mem (s.result r v lat) = s.mem := by rfl

@[simp] theorem State.branchTo_mem (s : State) (x : Ctx) (t : Nat) : Out.mem (s.branchTo x t) = s.mem := by rfl

@[simp] theorem State.holdOn_mem (s : State) (x : Ctx) (h : Hold) (k : Spent) : Out.mem (s.holdOn x h k) = s.mem := by rfl

@[simp] theorem State.dropShadow_mem (s : State) (pan : Nat) (mask : BitVec 8) : (s.dropShadow pan mask).mem = s.mem := by rfl

@[simp] theorem State.abandonBody_mem (s : State) (c : Nat) : (s.abandonBody c).mem = s.mem := by
  unfold State.abandonBody; split <;> rfl

@[simp] theorem State.mapElems_mem (s : State) (pan : Nat) (f : Elem → Elem) : (s.mapElems pan f).mem = s.mem := by rfl

@[simp] theorem State.stopRun_mem (hlt : Bool) (s : State) (key : Nat) : (State.stopRun hlt s key).mem = s.mem := by rfl

@[simp] theorem State.resumeRun_mem (hlt : Bool) (s : State) (key : Nat) : (State.resumeRun hlt s key).mem = s.mem := by rfl

@[simp] theorem State.uncount_mem (s : State) (keys : List Nat) : (s.uncount keys).mem = s.mem := by simp [State.uncount]

@[simp] theorem State.replayGone_mem (s : State) (c : Nat) (hlt : Bool) : (s.replayGone c hlt).mem = s.mem := by rfl

@[simp] theorem State.stopChains_mem (s : State) (c : Nat) : (s.stopChains c).mem = s.mem := by rfl

@[simp] theorem State.resumeChains_mem (s : State) (c : Nat) : (s.resumeChains c).mem = s.mem := by rfl

@[simp] theorem State.haltCmds_mem (s : State) (c : Nat) : (s.haltCmds c).mem = s.mem := by rfl

@[simp] theorem State.resumeCmds_mem (s : State) (c : Nat) : (s.resumeCmds c).mem = s.mem := by rfl

@[simp] theorem State.leaveQueue_mem (s : State) (c : Nat) : (s.leaveQueue c).mem = s.mem := by rfl

@[simp] theorem State.undoHold_mem (s : State) (c : Nat) : (s.undoHold c).mem = s.mem := by
  unfold State.undoHold; split
  · exact State.foldl_mem (fun _ _ => by rfl) _ _
  · rfl

@[simp] theorem State.haltCtx_mem (s : State) (c : Nat) (run : Run) : (s.haltCtx c run).mem = s.mem := by simp [State.haltCtx]

@[simp] theorem State.nestedFault_mem (s : State) (c : Nat) (cause : Nat) :
    (s.nestedFault c cause).mem = s.mem := by simp [State.nestedFault]

@[simp] theorem State.enterTrap_mem (s : State) (c : Nat) (cause tval tpc : Nat) :
    (s.enterTrap c cause tval tpc).mem = s.mem := by
  unfold State.enterTrap; dsimp only; (repeat' split) <;> simp

@[simp] theorem State.trap_mem (s : State) (cause tval : Nat) : Out.mem (s.trap cause tval) = s.mem := by simp [State.trap]

@[simp] theorem State.returnTrap_mem (s : State) (c : Nat) : (s.returnTrap c).mem = s.mem := by
  unfold State.returnTrap; dsimp only; (repeat' split) <;> simp

/-! ### The error log and injected errors -/

@[simp] theorem State.setErr_mem (s : State) (n : Nat) (x : ErrArray) : (s.setErr n x).mem = s.mem := by rfl

@[simp] theorem State.logError_mem (s : State) (array die : Nat) (addr : BitVec 48) (cid : BitVec 16) (kind code : BitVec 4)
    (inj : Bool) :
    (s.logError array die addr cid kind code inj).mem = s.mem := by rfl

@[simp] theorem State.logRequest_mem (s : State) (die p : Nat) (cid : BitVec 16) : (s.logRequest die p cid).mem = s.mem := by rfl

@[simp] theorem State.logPoison_mem (s : State) (p : Nat) (cid : BitVec 16) : (s.logPoison p cid).mem = s.mem := by rfl

@[simp] theorem State.disarm_mem (s : State) (array : Nat) : (s.disarm array).mem = s.mem := by rfl

@[simp] theorem State.injectIndex_mem (s : State) (array i n : Nat) (cid : BitVec 16) (x : Nat → BitVec 16 → Struck) :
    (s.injectIndex array i n cid x).mem = s.mem := by
  unfold State.injectIndex; dsimp only; (repeat' split) <;> simp

/-! ### Flits and links -/

@[simp] theorem State.setLink_mem (s : State) (link : BitVec 5) (l : Link) : (s.setLink link l).mem = s.mem := by rfl

@[simp] theorem State.sendFlit_mem (s : State) (link : BitVec 5) (f : Flit) : (s.sendFlit link f).mem = s.mem := by
  unfold State.sendFlit; dsimp only; (repeat' split) <;> simp

@[simp] theorem State.forward_mem (s : State) (mdie dev : Nat) (tenant : BitVec 16) (payload : List Byte) :
    (s.forward mdie dev tenant payload).mem = s.mem := by
  unfold State.forward; split <;> simp

/-! ### Accesses and their replicas -/

@[simp] theorem State.issue_mem (s : State) (x : Ctx) (kind : AccKind) (virt : Bool) (a n : Nat) (g : GStream) (acq rel : Bool)
    (ln : Option LReg) :
    (s.issue x kind virt a n g acq rel ln).1.mem = s.mem := by rfl

@[simp] theorem State.countAccess_mem (s : State) (die p n : Nat) : (s.countAccess die p n).mem = s.mem := by
  unfold State.countAccess; (repeat' split) <;> simp

@[simp] theorem State.closeFadds_mem (s : State) (p n : Nat) : (s.closeFadds p n).mem = s.mem := by rfl

@[simp] theorem State.landIn_mem (s : State) (c : Nat) (ln : Option LReg) (id : Nat) (v : Word) (poison : Option Word) :
    (s.landIn c ln id v poison).mem = s.mem := by
  unfold State.landIn; dsimp only; (repeat' split) <;> simp

@[simp] theorem State.dropAcc_mem (s : State) (id : Nat) : (s.dropAcc id).mem = s.mem := by rfl

@[simp] theorem State.arrive_mem (s : State) (a : Acc) (bs : List Byte) (bad : Bool) : (s.arrive a bs bad).mem = s.mem := by
  unfold State.arrive; dsimp only; (repeat' split) <;> simp

theorem State.foldl_countAccess_mem (s : State) (die n : Nat) (p : Nat → Nat) (l : List Nat) :
    (l.foldl (fun s k => s.countAccess die (p k) n) s).mem = s.mem :=
  State.foldl_mem (fun t _ => t.countAccess_mem _ _ _) _ _

@[simp] theorem State.countWrite_mem (s : State) (die : Nat) (l : Loc) (n : Nat) : (s.countWrite die l n).mem = s.mem := by
  unfold State.countWrite
  rw [apply_ite State.mem, s.foldl_countAccess_mem die n (atStack l.pa), s.countAccess_mem, ite_self]

@[simp] theorem State.committedEnd_mem (s : State) (a : Acc) : (s.committedEnd a).mem = s.mem := by simp [State.committedEnd]

@[simp] theorem State.spend_mem (s : State) (c sp n : Nat) : (s.spend c sp n).mem = s.mem := by
  unfold State.spend; split <;> rfl

@[simp] theorem State.poisonEach_mem (s : State) (ps : List Nat) :
    (s.poisonEach ps).mem = s.mem := by simp [State.poisonEach, State.poisonBytes_mem]

@[simp] theorem State.askLine_mem (s : State) (mdie : Nat) (tenant : BitVec 16) (l : Loc) :
    (s.askLine mdie tenant l).mem = s.mem := by simp [State.askLine]

/-! ### Memory instructions -/

@[simp] theorem State.setNodeEntry_mem (s : State) (key : Nat) (c : BindCtl) : (s.setNodeEntry key c).mem = s.mem := by rfl

@[simp] theorem State.setConcEntry_mem (s : State) (key : Nat) (c : BindCtl) : (s.setConcEntry key c).mem = s.mem := by rfl

@[simp] theorem State.store_mem (s : State) (a : Nat) (bs : List Byte) : (s.store a bs).mem = s.mem := by rfl

@[simp] theorem State.notePoison_mem (s : State) (p n : Nat) (v : State) : (s.notePoison p n v).mem = s.mem := by
  unfold State.notePoison; split <;> rfl

@[simp] theorem State.access_mem (s : State) (sp : GSpace) (kind : AccKind) (base : Reg) (off : Word) (n : Nat) (g : GStream)
    (acq rel : Bool) (ln : LReg) :
    Out.mem (s.access sp kind base off n g acq rel ln) = s.mem := by
  unfold State.access; dsimp only; (repeat' split) <;> simp

@[simp] theorem State.fillBuffer_mem (s : State) (a : Acc) (bytes : List Byte) (bad : List Nat) :
    (s.fillBuffer a bytes bad).mem = s.mem := by simp [State.fillBuffer]

@[simp] theorem State.sendAcc_mem (s : State) (a : Acc) : (s.sendAcc a).mem = s.mem := by
  unfold State.sendAcc; dsimp only; (repeat' split) <;> simp

@[simp] theorem State.keepFadd_mem (s : State) (f : FaddEntry) : (s.keepFadd f).mem = s.mem := by rfl

@[simp] theorem State.countOthers_mem (s : State) (die : Nat) (l : Loc) (n : Nat) : (s.countOthers die l n).mem = s.mem := by
  unfold State.countOthers; split
  · exact State.foldl_mem (fun t k => by split <;> simp) _ _
  · rfl

/-! ### Operands and results of rows -/

@[simp] theorem State.setFocus_mem (s : State) (x : Elem) : (s.setFocus x).mem = s.mem := by rfl

@[simp] theorem State.emitResult_mem (s : State) (d : Dst) (v : EVal) (lat : Nat) : (s.emitResult d v lat).mem = s.mem := by
  unfold State.emitResult; split <;> rfl

@[simp] theorem State.row32_mem (s : State) (signed : Bool) (d : Dst) (v : BitVec 32) (lat : Nat) :
    Out.mem (s.row32 signed d v lat) = s.mem := by simp [State.row32]

@[simp] theorem State.enterDelay_mem (s : State) (pan e : Nat) (p : Port) (mask : BitVec 8) (due : Nat) (fab : Option Nat)
    (v : BitVec 128) :
    (s.enterDelay pan e p mask due fab v).mem = s.mem := by rfl

@[simp] theorem State.send_mem (s : State) (pan e : Nat) (mask : BitVec 8) (p : Port) (v : BitVec 128) :
    (s.send pan e mask p v).mem = s.mem := by
  unfold State.send; dsimp only; (repeat' split) <;> simp

@[simp] theorem State.landOne_mem (pan e : Nat) (s : State) (f : EFlight) : (State.landOne pan e s f).mem = s.mem := by
  unfold State.landOne; split <;> simp

@[simp] theorem State.landContrib_mem (pan e : Nat) (s : State) (c : Contrib) :
    (State.landContrib pan e s c).mem = s.mem := by rfl

@[simp] theorem State.landElem_mem (s : State) (key : Nat) : (s.landElem key).mem = s.mem := by simp [State.landElem]

@[simp] theorem State.exitElem_mem (s : State) (key : Nat) : (s.exitElem key).mem = s.mem := by
  unfold State.exitElem; dsimp only; (repeat' split) <;> simp

@[simp] theorem State.blockFault_mem (s : State) (cause x y row kind num copy unit found expected : Nat) :
    (s.blockFault cause x y row kind num copy unit found expected).mem = s.mem := by rfl

@[simp] theorem State.rowFault_mem (s : State) (cause kind num found expected : Nat) :
    (s.rowFault cause kind num found expected).mem = s.mem := by rfl

/-! ### Streams and sluices -/

@[simp] theorem State.setStream_mem (s : State) (k : Nat) (x : Stream) : (s.setStream k x).mem = s.mem := by rfl

@[simp] theorem State.setPosition_mem (s : State) (p : Nat) (x : Place) : (s.setPosition p x).mem = s.mem := by rfl

@[simp] theorem State.travel_mem (s : State) (key : Nat) (t : Transit) : (s.travel key t).mem = s.mem := by rfl

@[simp] theorem State.startMove_mem (s : State) (key : Nat) : (s.startMove key).mem = s.mem := by
  unfold State.startMove; dsimp only; (repeat' split) <;> simp

@[simp] theorem State.startMoves_mem (s : State) (key : Nat) : (s.startMoves key).mem = s.mem := by simp [State.startMoves]

@[simp] theorem State.openEnd_mem (s : State) (key blk pay : Nat) : (s.openEnd key blk pay).mem = s.mem := by simp [State.openEnd]

@[simp] theorem State.freePositions_mem (s : State) (key : Nat) (st : Stream) : (s.freePositions key st).mem = s.mem := by rfl

@[simp] theorem State.closeEnd_mem (s : State) (key : Nat) (recv : Bool) : (s.closeEnd key recv).mem = s.mem := by
  unfold State.closeEnd; dsimp only; (repeat' split) <;> simp

@[simp] theorem State.sendBytes_mem (s : State) (key off : Nat) (bs : List Byte) : (s.sendBytes key off bs).mem = s.mem := by rfl

@[simp] theorem State.sendDone_mem (s : State) (key : Nat) (tau : Word) : (s.sendDone key tau).mem = s.mem := by rfl

@[simp] theorem State.injectSluice_mem (s : State) (key place off n : Nat) :
    (s.injectSluice key place off n).mem = s.mem := by simp [State.injectSluice]

@[simp] theorem State.arriveBytes_mem (s : State) (key k off : Nat) (bs : List Byte) :
    (s.arriveBytes key k off bs).mem = s.mem := by
  unfold State.arriveBytes; dsimp only; (repeat' split) <;> simp

@[simp] theorem State.arriveDone_mem (s : State) (key k : Nat) (tau : Word) (np : Nat) :
    (s.arriveDone key k tau np).mem = s.mem := by
  unfold State.arriveDone; dsimp only; (repeat' split) <;> simp

@[simp] theorem State.arriveStage_mem (s : State) (key k : Nat) : (s.arriveStage key k).mem = s.mem := by
  unfold State.arriveStage; dsimp only; (repeat' split) <;> simp

@[simp] theorem State.arriveFree_mem (s : State) (key k : Nat) : (s.arriveFree key k).mem = s.mem := by
  unfold State.arriveFree; dsimp only; (repeat' split) <;> simp

@[simp] theorem State.landTransit_mem (s : State) (key id : Nat) : (s.landTransit key id).mem = s.mem := by rfl

@[simp] theorem State.releaseSlot_mem (s : State) (key : Nat) : (s.releaseSlot key).mem = s.mem := by simp [State.releaseSlot]

@[simp] theorem State.passPacket_mem (s : State) (key : Nat) : (s.passPacket key).mem = s.mem := by
  unfold State.passPacket; dsimp only; (repeat' split) <;> simp

/-! ### Moves of rows -/

@[simp] theorem State.noteAdv_mem (s : State) (kind key : Nat) (whole : Bool) : (s.noteAdv kind key whole).mem = s.mem := by
  unfold State.noteAdv; dsimp only; (repeat' split) <;> simp

@[simp] theorem State.sluiceFault_mem (s : State) (q : BitVec 4) (key cause reason : Nat) :
    (s.sluiceFault q key cause reason).mem = s.mem := by rfl

/-! ### Row units -/

@[simp] theorem State.tileFaults_mem (s : State) (t : TileRun) : (s.tileFaults t).mem = s.mem := by
  unfold State.tileFaults; split
  · split
    · exact State.foldl_mem (fun _ _ => by split <;> rfl) _ _
    · exact (State.blockFault_mem ..).trans (State.foldl_mem (fun _ _ => by split <;> rfl) _ _)
  · exact State.foldl_mem (fun _ _ => by split <;> rfl) _ _

@[simp] theorem State.useSlot_mem (s : State) (key : Nat) : (s.useSlot key).mem = s.mem := by rfl

@[simp] theorem State.addContribs_mem (s : State) (t : TileRun) (mode : BitVec 6) : (s.addContribs t mode).mem = s.mem :=
  State.foldl_mem (fun _ _ => by rfl) _ _

@[simp] theorem State.tileRead_mem (s : State) (t : TileRun) : (s.tileRead t).mem = s.mem := by
  unfold State.tileRead; dsimp only; (repeat' split) <;> simp

@[simp] theorem State.startTile_mem (s : State) (t : BitVec 3) (z : Bool) : Out.mem (s.startTile t z) = s.mem := by
  unfold State.startTile; dsimp only; (repeat' split) <;> simp

@[simp] theorem State.drewB_mem (s : State) (fcw : BitVec 32) (b : Option Src) : (s.drewB fcw b).mem = s.mem := by
  unfold State.drewB; split <;> rfl

@[simp] theorem State.nextTag_mem (s : State) (stream : Bool) (key : Nat) : (s.nextTag stream key).2.mem = s.mem := by
  unfold State.nextTag; split <;> rfl

@[simp] theorem State.sendPacket_mem (s : State) (key : Nat) (tau : Word) (bs : List Byte) :
    (s.sendPacket key tau bs).mem = s.mem := by
  unfold State.sendPacket; dsimp only; (repeat' split) <;> simp

@[simp] theorem State.tookPacket_mem (s : State) (p : PktPort) (adv : Bool) : (s.tookPacket p adv).mem = s.mem := by
  unfold State.tookPacket; (repeat' split) <;> simp

@[simp] theorem State.passConc_mem (s : State) (key : Nat) : (s.passConc key).mem = s.mem := by rfl

@[simp] theorem State.advance_mem (s : State) (a : Adv) : (s.advance a).mem = s.mem := by
  unfold State.advance; (repeat' split) <;> simp

@[simp] theorem State.weightSlotFault_mem (s : State) (n : Bool) (b : BitVec 3) : (s.weightSlotFault n b).mem = s.mem := by
  unfold State.weightSlotFault; dsimp only; (repeat' split) <;> simp

@[simp] theorem State.feedPort_mem (e : Nat) (p : Port) (s : State) (key : Nat) : (State.feedPort e p s key).mem = s.mem := by
  unfold State.feedPort; dsimp only; (repeat' split) <;> simp

/-! ### System instructions -/

@[simp] theorem State.takeTurn_mem (s : State) (c : Nat) : (s.takeTurn c).mem = s.mem := by rfl

@[simp] theorem State.startLong_mem (s : State) (v : Word) : Out.mem (s.startLong v) = s.mem := by
  unfold State.startLong; dsimp only; (repeat' split) <;> simp

/-! ### Blocks -/

@[simp] theorem State.placeFault_mem (s : State) (tval : Nat) : (s.placeFault tval).mem = s.mem := by simp [State.placeFault]

@[simp] theorem State.bodyWord_mem (s : State) (i : Instr) (f : OpenBody → Block → OpenBody × Block) :
    Out.mem (s.bodyWord i f) = s.mem := by
  unfold State.bodyWord; split <;> simp

@[simp] theorem State.cfgWord_mem (s : State) (i : Instr) (m : BitVec 8) (id : BitVec 12)
    (f : OpenBody → Block → OpenBody × Block) :
    Out.mem (s.cfgWord i m id f) = s.mem := by simp [State.cfgWord]

@[simp] theorem State.dropCopies_mem (s : State) (c : Nat) (mask : BitVec 8) :
    (s.dropCopies c mask).mem = s.mem := by simp [State.dropCopies]

@[simp] theorem State.flipNodes_mem (s : State) (pan : Nat) (old new : Block) : (s.flipNodes pan old new).mem = s.mem :=
  State.foldl_mem (fun _ _ => by dsimp only; split <;> rfl) _ _

@[simp] theorem State.flipConcs_mem (s : State) (key : Nat) (old new : Block) : (s.flipConcs key old new).mem = s.mem :=
  State.foldl_mem (fun _ _ => by dsimp only; split <;> rfl) _ _

@[simp] theorem State.closeStreams_mem (s : State) (pan : Nat) (old new : Block) : (s.closeStreams pan old new).mem = s.mem :=
  State.foldl_mem (fun _ _ => by split <;> simp) _ _

@[simp] theorem State.flipStreams_mem (s : State) (key : Nat) (old new : Block) : (s.flipStreams key old new).mem = s.mem :=
  (State.foldl_mem (fun _ _ => by split <;> simp) _ _).trans (s.closeStreams_mem _ old new)

@[simp] theorem State.flipTables_mem (s : State) (pan : Nat) : (s.flipTables pan).mem = s.mem := by rfl

@[simp] theorem State.resetBq_mem (s : State) (pan : Nat) (b : Block) : (s.resetBq pan b).mem = s.mem := by simp [State.resetBq]

@[simp] theorem State.flipPan_mem (s : State) (pan : Nat) (m : BitVec 8) (home k : Nat) (off : Nat) (c : Nat) :
    (s.flipPan pan m home k off c).mem = s.mem := by simp [State.flipPan]

@[simp] theorem State.endBlock_mem (m : BitVec 8) (s : State) (pan : Nat) : (State.endBlock m s pan).mem = s.mem := by
  unfold State.endBlock; dsimp only; (repeat' split) <;> simp

@[simp] theorem State.discardLanes_mem (s : State) (t : BitVec 8) (pan : Nat) : (s.discardLanes t pan).mem = s.mem := by rfl

/-! ### Branches and loops -/

@[simp] theorem State.jump_mem (s : State) (x : Ctx) (t : Nat) : Out.mem (s.jump x t) = s.mem := by
  unfold State.jump; split <;> simp

@[simp] theorem State.branchIf_mem (s : State) (c : Bool) (disp : Word) : Out.mem (s.branchIf c disp) = s.mem := by
  unfold State.branchIf; split <;> simp

@[simp] theorem State.enterLoop_mem (s : State) (n : Nat) (disp : Word) : Out.mem (s.enterLoop n disp) = s.mem := by
  unfold State.enterLoop; dsimp only; (repeat' split) <;> simp

/-! ### Shapes and tables -/

@[simp] theorem State.setSideEntry_mem (s : State) (d : Side) (pan b : Nat) (c : BindCtl) :
    (s.setSideEntry d pan b c).mem = s.mem := by
  unfold State.setSideEntry; split <;> rfl

@[simp] theorem State.engNote_mem (s : State) (c sp : Nat) (bad : Option Nat) : (s.engNote c sp bad).mem = s.mem := by
  unfold State.engNote; dsimp only; (repeat' split) <;> simp

/-! ### Engine commands -/

@[simp] theorem State.setCmd_mem (s : State) (k : Cmd) : (s.setCmd k).mem = s.mem := by rfl

@[simp] theorem State.dropCmd_mem (s : State) (id : Nat) : (s.dropCmd id).mem = s.mem := by rfl

@[simp] theorem State.dropOwed_mem (s : State) (id : Nat) : (s.dropOwed id).mem = s.mem := by rfl

@[simp] theorem State.waitEntry_mem (s : State) : Out.mem s.waitEntry = s.mem := by
  unfold State.waitEntry; split <;> rfl

@[simp] theorem State.checkSide_mem (c : Nat) (s : State) (d : Side) : (State.checkSide c s d).mem = s.mem := by
  unfold State.checkSide; (repeat' split) <;> simp

@[simp] theorem State.endSideSlot_mem (c : Nat) (s : State) (d : Side) : (State.endSideSlot c s d).mem = s.mem := by
  unfold State.endSideSlot; split <;> rfl

@[simp] theorem State.applySlotEnds_mem (s : State) : s.applySlotEnds.mem = s.mem :=
  State.foldl_mem (fun _ _ => by dsimp only; split <;> rfl) _ _

/-! ### What engines do -/

@[simp] theorem State.sieveAsk_mem (s : State) (k : Cmd) (a : Nat) (cs : List Nat) :
    (s.sieveAsk k a cs).mem = s.mem := by simp [State.sieveAsk]

/-! ### Chains -/

@[simp] theorem State.chainBlock_mem (s : State) (k : Cmd) (g : Stage) (fin : FFmt) (fout : BitVec 3) (j t : Nat)
    (vs : List Nat) (due : Nat) :
    (s.chainBlock k g fin fout j t vs due).mem = s.mem := by
  unfold State.chainBlock; split <;> rfl

@[simp] theorem State.tokenStages_mem (s : State) (id t : Nat) (gs : List Stage) (n : Nat) :
    (s.tokenStages id t gs n).mem = s.mem := by
  induction n generalizing s with
  | zero => rfl
  | succ n ih => unfold State.tokenStages; dsimp only; (repeat' split) <;> simp [ih]

@[simp] theorem State.tokenRead_mem (s : State) (k : Cmd) (t : Nat) : (s.tokenRead k t).mem = s.mem := by
  unfold State.tokenRead; dsimp only; (repeat' split) <;> simp

@[simp] theorem execChainToken_mem (id t : Nat) (s : State) : Out.mem (execChainToken id t s) = s.mem := by
  unfold execChainToken; (repeat' split) <;> simp

/-! ### Collectives -/

@[simp] theorem State.sendColl_mem (s : State) (dev : BitVec 12) (f : Flit) : (s.sendColl dev f).mem = s.mem := by
  unfold State.sendColl; split <;> simp

@[simp] theorem State.sendHeader_mem (s : State) (k : Cmd) (h : CollHeader) (j : Nat) : (s.sendHeader k h j).mem = s.mem := by
  unfold State.sendHeader; dsimp only; (repeat' split) <;> simp

@[simp] theorem State.sendHeaders_mem (s : State) (k : Cmd) : (s.sendHeaders k).mem = s.mem := by
  unfold State.sendHeaders; split <;> simp

@[simp] theorem State.advanceEndpoint_mem (s : State) (tenant : BitVec 16) (g : Group) :
    (s.advanceEndpoint tenant g).mem = s.mem := by rfl

/-! ### Eviction and prefetch -/

@[simp] theorem State.touchTable_mem (s : State) (extp : Nat) (cid : BitVec 16) : (s.touchTable extp cid).mem = s.mem := by
  unfold State.touchTable; split <;> rfl

/-! ### Tasks and contexts -/

@[simp] theorem State.setTask_mem (s : State) (r : TaskRef) (t : Task) : (s.setTask r t).mem = s.mem := by rfl

@[simp] theorem State.setPart_mem (s : State) (pid : Nat) (p : Part) : (s.setPart pid p).mem = s.mem := by rfl

@[simp] theorem State.tellExit_mem (s : State) (r : TaskRef) : (s.tellExit r).mem = s.mem :=
  State.foldl_mem (fun _ _ => by split <;> simp) _ _

@[simp] theorem State.endTask_mem (s : State) (r : TaskRef) : (s.endTask r).mem = s.mem := by simp [State.endTask]

@[simp] theorem State.markDone_mem (s : State) (r : TaskRef) (i : BitVec 24) : (s.markDone r i).mem = s.mem := by rfl

@[simp] theorem State.replaceTask_mem (s : State) (r : TaskRef) : (s.replaceTask r).mem = s.mem := by
  unfold State.replaceTask; split <;> rfl

@[simp] theorem State.setRecord_mem (s : State) (pan idx : Nat) (r : SlotRec) : (s.setRecord pan idx r).mem = s.mem := by rfl

@[simp] theorem State.noteLeft_mem (s : State) (c : Nat) : (s.noteLeft c).mem = s.mem := by
  unfold State.noteLeft; dsimp only; (repeat' split) <;> simp

@[simp] theorem State.freeCtx_mem (s : State) (c : Nat) : (s.freeCtx c).mem = s.mem := by
  unfold State.freeCtx; dsimp only; (repeat' split) <;> simp

@[simp] theorem State.dropReads_mem (s : State) (c : Nat) : (s.dropReads c).mem = s.mem := by rfl

@[simp] theorem State.releaseBlock_mem (s : State) (key : Nat) : (s.releaseBlock key).mem = s.mem := by simp [State.releaseBlock]

@[simp] theorem State.dropLoaded_mem (s : State) (c : Nat) : (s.dropLoaded c).mem = s.mem := by simp [State.dropLoaded]

@[simp] theorem State.releaseAll_mem (s : State) (c : Nat) : (s.releaseAll c).mem = s.mem := by simp [State.releaseAll]

@[simp] theorem State.clearLatches_mem (s : State) (pan : Nat) : (s.clearLatches pan).mem = s.mem := by rfl

@[simp] theorem State.markTaken_mem (s : State) (c pan idx : Nat) (e : SlotRec) : (s.markTaken c pan idx e).mem = s.mem := by rfl

/-! ### Resets and wipes -/

@[simp] theorem State.clearCtl_mem (s : State) (field : Nat) : (s.clearCtl field).mem = s.mem := by rfl

/-! ### Halts, saves and resumptions -/

@[simp] theorem State.withdrawFault_mem (s : State) (c : Nat) : (s.withdrawFault c).mem = s.mem := by
  unfold State.withdrawFault; dsimp only; (repeat' split) <;> simp

@[simp] theorem State.evictCtx_mem (s : State) (c : Nat) : (s.evictCtx c).mem = s.mem := by simp [State.evictCtx]

@[simp] theorem State.bankPan_mem (b : BankSlot) (secs : List Section) (s : State) (pan : Nat) :
    (State.bankPan b secs s pan).mem = s.mem := by simp [State.bankPan]

@[simp] theorem State.bankField_mem (b : BankSlot) (secs : List Section) (s : State) (f : Nat) :
    (State.bankField b secs s f).mem = s.mem := by rfl

@[simp] theorem State.bankInst_mem (s : State) (a : Nat) (cs : List Nat) :
    (s.bankInst a cs).mem = s.mem := by simp [State.bankInst]

@[simp] theorem State.evicted_mem (s : State) (task : TaskRef) (inst : BitVec 24) :
    (s.evicted task inst).mem = s.mem := by simp [State.evicted]

@[simp] theorem State.restoreElems_mem (s : State) (c pan : Nat) (sec : Section) : (s.restoreElems c pan sec).mem = s.mem :=
  State.foldl_mem (fun _ _ => by rfl) _ _

@[simp] theorem State.restoreStream_mem (sec : Section) (pan : Nat) (s : State) (ent : Nat × Nat × Nat) :
    (State.restoreStream sec pan s ent).mem = s.mem := by rfl

@[simp] theorem State.restoreSection_mem (c : Nat) (map : List Nat) (s : State) (sec : Section) :
    (State.restoreSection c map s sec).mem = s.mem := by simp [State.restoreSection]

@[simp] theorem State.resumeInst_mem (s : State) (r : TaskRef) (inst : BitVec 24) (i : Image) (first : Bool) :
    (s.resumeInst r inst i first).mem = s.mem := by
  unfold State.resumeInst; split <;> simp

/-! ### Tide -/

@[simp] theorem State.setPwr_mem (s : State) (d : Nat) (p : Pwr) : (s.setPwr d p).mem = s.mem := by rfl

@[simp] theorem State.takeTarget_mem (s : State) (d : Nat) (p : Pwr) : (s.takeTarget d p).mem = s.mem := by rfl

@[simp] theorem State.rampSet_mem (s : State) (c : Nat) : (s.rampSet c).mem = s.mem := by
  unfold State.rampSet; dsimp only; (repeat' split) <;> simp

@[simp] theorem State.retarget_mem (s : State) (d : Nat) : (s.retarget d).mem = s.mem := by
  unfold State.retarget; split <;> simp

@[simp] theorem State.freeHolds_mem (s : State) : s.freeHolds.mem = s.mem := by simp [State.freeHolds]

@[simp] theorem State.release_mem (s : State) (dom : Nat) : (s.release dom).mem = s.mem :=
  State.foldl_mem (fun _ _ => by rfl) _ _

@[simp] theorem State.sendSample_mem (s : State) (src dst : Nat) : (s.sendSample src dst).mem = s.mem := by
  unfold State.sendSample; dsimp only; (repeat' split) <;> simp

@[simp] theorem State.settle_mem (s : State) (d : Nat) : (s.settle d).mem = s.mem := by
  unfold State.settle; dsimp only; (repeat' split) <;> simp

/-! ### Power -/

@[simp] theorem State.lowerCeilings_mem (s : State) (ds : List Nat) :
    (s.lowerCeilings ds).mem = s.mem := by simp [State.lowerCeilings]

@[simp] theorem State.setBudgets_mem (s : State) (share : List (Nat × Nat)) : (s.setBudgets share).mem = s.mem := by rfl

@[simp] theorem State.emsave_mem (s : State) (pid : BitVec 7) (slot off : Nat) (bs : List Byte) :
    (s.emsave pid slot off bs).mem = s.mem := by rfl

@[simp] theorem State.emsaveInst_mem (s : State) (task : TaskRef) (inst : BitVec 24) (cs : List Nat) :
    (s.emsaveInst task inst cs).mem = s.mem := by simp [State.emsaveInst]

/-! ### Integrity -/

@[simp] theorem State.setRemap_mem (s : State) (k v : Nat) : (s.setRemap k v).mem = s.mem := by rfl

/-! ### Devices and links -/

@[simp] theorem State.linkDown_mem (s : State) (link : BitVec 5) : (s.linkDown link).mem = s.mem := by rfl

@[simp] theorem State.refuseFlit_mem (s : State) (link : BitVec 5) : (s.refuseFlit link).mem = s.mem := by simp [State.refuseFlit]

@[simp] theorem State.resend_mem (s : State) (f : Flit) : (s.resend f).mem = s.mem := by
  unfold State.resend; (repeat' split) <;> simp

@[simp] theorem State.takeFlit_mem (s : State) (link : BitVec 5) (f : Flit) : (s.takeFlit link f).mem = s.mem := by
  unfold State.takeFlit; (repeat' split) <;> simp

@[simp] theorem State.respond_mem (s : State) (mdie : Nat) (dev : BitVec 12) (tenant : BitVec 16) (r : Option Answer) :
    (s.respond mdie dev tenant r).mem = s.mem := by
  unfold State.respond; (repeat' split) <;> simp

theorem State.remoteFadd_mem {s t : State} {p : Nat} {task : TaskRef} {cid : BitVec 16} {old bs : List Byte} {v : Nat}
    {mode : BitVec 6}
    (h : s.remoteFadd p task cid old v mode = some (t, bs)) : t.mem = s.mem := by
  unfold State.remoteFadd at h; split at h
  · cases h
  · injection h with h; injection h with h; rw [← h]; rfl

@[simp] theorem State.answer_mem (s : State) (type : BitVec 8) (pid : BitVec 7) (seq : BitVec 64) (body : List Byte) :
    (s.answer type pid seq body).mem = s.mem := by rfl

@[simp] theorem State.tellEvents_mem (s : State) : s.tellEvents.mem = s.mem := by
  unfold State.tellEvents; dsimp only; split
  · rfl
  · exact State.foldl_mem (fun _ _ => by split <;> rfl) _ _

@[simp] theorem State.sendPort_mem (s : State) : s.sendPort.mem = s.mem := by
  unfold State.sendPort; (repeat' split) <;> simp

/-! ### Scalar instructions -/

@[simp] theorem State.longResult_mem (s : State) (rd : Reg) (v : Word) (lat : Nat) : Out.mem (s.longResult rd v lat) = s.mem := by
  unfold State.longResult; split <;> simp

/-! ### The cycle -/

@[simp] theorem State.takeLoadFault_mem (s : State) (cause : Nat) (tval : Word) :
    (s.takeLoadFault cause tval).mem = s.mem := by simp [State.takeLoadFault]

@[simp] theorem State.takeBlockFault_mem (s : State) (f : BlockFault) :
    (s.takeBlockFault f).mem = s.mem := by simp [State.takeBlockFault]

@[simp] theorem State.after_mem (s : State) {o : Out} (h : Out.mem o = s.mem) : (s.after o).mem = s.mem := by
  cases o with
  | next t => exact h
  | fault r => rfl
  | refused r => rfl

@[simp] theorem State.blockFeeds_mem (s : State) (key : Nat) : (s.blockFeeds key).mem = s.mem := by simp [State.blockFeeds]

@[simp] theorem State.tileSteps_mem (s : State) (c : Nat) : (s.tileSteps c).mem = s.mem := by simp [State.tileSteps]

@[simp] theorem State.chainSteps_mem (s : State) (c : Nat) : (s.chainSteps c).mem = s.mem :=
  State.foldl_mem (fun _ _ => State.foldl_mem (fun u _ => u.after_mem (execChainToken_mem _ _ u)) _ _) _ _

@[simp] theorem State.strike_mem (s : State) (c : Nat) (fs : List BlockFault) : (s.strike c fs).mem = s.mem := by
  unfold State.strike; dsimp only; (repeat' split) <;> simp

@[simp] theorem State.advanceTide_mem (s : State) : s.advanceTide.mem = s.mem := State.foldl_mem (fun _ _ => by rfl) _ _

@[simp] theorem State.nextCycle_mem (s : State) : s.nextCycle.mem = s.mem := by simp [State.nextCycle]

/-! ## What writes, and keeps memory canonical -/

section
variable {s : State} (h : Memory.wf s.mem = true)
include h

/-! ### The error log and injected errors -/

@[simp] theorem State.inject_memWf (cid : BitVec 16) (p n : Nat) : Memory.wf (s.inject cid p n).mem = true := by
  unfold State.inject; dsimp only; (repeat' split) <;> simp [State.writeBytes_memWf, State.poisonBytes_mem, h]

/-! ### Accesses and their replicas -/

@[simp] theorem State.scrubOne_memWf (line : Nat) : Memory.wf (s.scrubOne line).mem = true := by
  unfold State.scrubOne; split
  · exact State.wipe_memWf h _ _
  · exact h

@[simp] theorem State.scrubLines_memWf (line n : Nat) : Memory.wf (s.scrubLines line n).mem = true := by
  induction n generalizing s line with
  | zero => exact h
  | succ n ih => exact ih (State.scrubOne_memWf h line) (line + 1)

@[simp] theorem State.scrubFor_memWf (p n : Nat) : Memory.wf (s.scrubFor p n).mem = true := State.scrubLines_memWf h _ _

@[simp] theorem State.touchMap_memWf (p : Part) (a : Nat) : Memory.wf (s.touchMap p a).mem = true := by
  simp [State.touchMap, h]

@[simp] theorem State.markDirty_memWf (pid p : Nat) : Memory.wf (s.markDirty pid p).mem = true := by
  unfold State.markDirty; dsimp only
  split
  · exact h
  split
  · exact State.writeNat_memWf (State.scrubFor_memWf (by exact h) _ _) _ _ _
  · exact State.writeNat_memWf (State.writeNat_memWf (State.scrubFor_memWf (State.scrubFor_memWf (by exact h) _ _) _ _) _ _ _) _ _ _

@[simp] theorem State.plainWrite_memWf (p : Nat) (bs : List Byte) : Memory.wf (s.plainWrite p bs).mem = true := by
  simp [State.plainWrite, State.writeBytes_memWf, h]

@[simp] theorem State.putWrite_memWf (pid p : Nat) (bs : List Byte) : Memory.wf (s.putWrite pid p bs).mem = true := by
  simp [State.putWrite, h]

@[simp] theorem State.memWrite_memWf (pid p : Nat) (bs : List Byte) : Memory.wf (s.memWrite pid p bs).mem = true := by
  simp [State.memWrite, h]

theorem State.foldl_putWrite_memWf (pid : Nat) (p : Nat → Nat) (bs : List Byte) (l : List Nat) :
    Memory.wf (l.foldl (fun s k => s.putWrite pid (p k) bs) s).mem = true :=
  State.foldl_memWf (fun _ _ ht => State.putWrite_memWf ht _ _ _) l h

@[simp] theorem State.writeLoc_memWf (pid : Nat) (l : Loc) (bs : List Byte) : Memory.wf (s.writeLoc pid l bs).mem = true := by
  unfold State.writeLoc; split
  · exact State.foldl_putWrite_memWf (State.markDirty_memWf h _ _) pid (atStack l.pa) bs _
  · exact State.memWrite_memWf h _ _ _

@[simp] theorem State.unlockOne_memWf (a : Acc) (k : Nat) : Memory.wf (s.unlockOne a k).mem = true := by
  unfold State.unlockOne; dsimp only; (repeat' split) <;> simp [h]

@[simp] theorem State.finishCommit_memWf (a : Acc) : Memory.wf (s.finishCommit a).mem = true := by
  rw [State.finishCommit, State.committedEnd_mem]
  exact State.foldl_memWf (fun _ k ht => State.unlockOne_memWf ht a k) _ h

@[simp] theorem State.settleAt_memWf (l : Loc) (n : Nat) : Memory.wf (s.settleAt l n).mem = true :=
  State.foldl_memWf (fun _ a ht => State.finishCommit_memWf ht a) _ h

@[simp] theorem State.settleAll_memWf : Memory.wf s.settleAll.mem = true :=
  State.foldl_memWf (fun _ a ht => State.finishCommit_memWf ht a) _ h

@[simp] theorem State.writeAt_memWf (pid : Nat) (l : Loc) (bs : List Byte) : Memory.wf (s.writeAt pid l bs).mem = true := by
  unfold State.writeAt; (repeat' split) <;> simp [h]

/-! ### Completion objects -/

@[simp] theorem State.touchObj_memWf (die : Nat) (tenant : BitVec 16) (l : Loc) :
    Memory.wf (s.touchObj die tenant l).mem = true := by
  unfold State.touchObj; (repeat' split) <;> simp [h]

@[simp] theorem State.updateObj_memWf (pid : Nat) (l : Loc) (f : Obj → Obj) : Memory.wf (s.updateObj pid l f).mem = true := by
  have hs := State.scrubFor_memWf (State.settleAt_memWf h l 32) l.owner.pa 32
  unfold State.updateObj; dsimp only
  split
  · split
    · simpa using hs
    · exact State.writeLoc_memWf hs _ _ _
  · simpa using h

@[simp] theorem State.updateFor_memWf (die pid : Nat) (l : Loc) (f : Obj → Obj) :
    Memory.wf (s.updateFor die pid l f).mem = true := by
  unfold State.updateFor; (repeat' split) <;> simp [h]

/-! ### Memory instructions -/

@[simp] theorem State.writeAll_memWf (l : List (Nat × List Byte)) : Memory.wf (s.writeAll l).mem = true :=
  State.foldl_memWf (fun _ e ht => State.writeBytes_memWf ht e.1 e.2) l h

@[simp] theorem State.injectAll_memWf (cid : BitVec 16) (l : List (Nat × List Byte)) : Memory.wf (s.injectAll cid l).mem = true :=
  State.foldl_memWf (fun _ e ht => State.inject_memWf ht cid e.1 e.2.length) l h

@[simp] theorem State.serveAt_memWf (a : Acc) (p : Nat) : Memory.wf (s.serveAt a p).1.mem = true := by
  unfold State.serveAt; dsimp only; (repeat' split) <;> simp [h]

@[simp] theorem State.serve_memWf (a : Acc) : Memory.wf (s.serve a).1.mem = true := by
  simp [State.serve, h]

@[simp] theorem State.serveInv_memWf (a : Acc) : Memory.wf (s.serveInv a).1.mem = true := by
  unfold State.serveInv; dsimp only; (repeat' split) <;> simp [h]

@[simp] theorem State.performLocal_memWf (a : Acc) : Memory.wf (s.performLocal a).mem = true := by
  unfold State.performLocal; dsimp only; (repeat' split) <;> simp [h]

@[simp] theorem State.deliver_memWf (task : TaskRef) (bs : List Byte) (bad : List Nat) :
    Memory.wf (s.deliver task bs bad).1.mem = true := by
  unfold State.deliver; dsimp only
  split
  · exact h
  split
  · exact h
  split
  · exact State.writeAt_memWf (State.foldl_memWf (fun _ _ ht => by rw [State.poisonBytes_mem]; exact ht) _
      (State.writeAt_memWf (State.scrubFor_memWf (State.settleAt_memWf h _ _) _ _) _ _ _)) _ _ _
  · exact State.writeAt_memWf (State.scrubFor_memWf (State.settleAt_memWf h _ _) _ _) _ _ _

@[simp] theorem State.handOver_memWf (a : Acc) (task : BitVec 32) (cpl : Loc) (bs : List Byte) (bad : List Nat) :
    Memory.wf (s.handOver a task cpl bs bad).mem = true := by
  simp [State.handOver, h]

@[simp] theorem State.lose_memWf (a : Acc) : Memory.wf (s.lose a).mem = true := by
  unfold State.lose; (repeat' split) <;> simp [h]

@[simp] theorem State.answered_memWf (a : Acc) (r : Answer) : Memory.wf (s.answered a r).mem = true := by
  unfold State.answered; (repeat' split) <;> simp [h]

@[simp] theorem State.commit_memWf (a : Acc) (old : List Byte) (bad : Bool) (new : Option (List Byte)) :
    Memory.wf (s.commit a old bad new).mem = true := by
  unfold State.commit; (repeat' split) <;> simp [h]

@[simp] theorem State.performNow_memWf (id : Nat) : Memory.wf (s.performNow id).mem = true := by
  unfold State.performNow; dsimp only
  split
  · exact h
  next a _ =>
  split
  · exact State.finishCommit_memWf h _
  split
  · split
    · exact State.handOver_memWf (State.serve_memWf (State.settleAt_memWf h _ _) _) _ _ _ _ _
    · exact State.lose_memWf h _
  split
  · exact h
  split
  · exact h
  split
  · rw [State.dropAcc_mem]; split <;> simp [h]
  · rw [State.dropAcc_mem]
    have hs := State.serveAt_memWf (State.settleAt_memWf h a.loc a.n) a a.loc.owner.pa
    split
    · rw [State.keepFadd_mem]
      exact State.writeLoc_memWf (by rw [State.countOthers_mem]; exact hs) _ _ _
    · split
      · exact State.writeLoc_memWf (by rw [State.countOthers_mem]; exact hs) _ _ _
      · rw [State.countOthers_mem]; exact hs

@[simp] theorem State.performIssued_memWf (c : Nat) : Memory.wf (s.performIssued c).mem = true :=
  State.foldl_memWf (fun _ id ht => State.performNow_memWf ht id) _ h

/-! ### Loading text -/

@[simp] theorem State.touchVirt_memWf (x : Ctx) (by' : Option Nat) (a n : Nat) :
    Memory.wf (s.touchVirt x by' a n).mem = true := by
  refine State.foldl_memWf (fun t v ht => ?_) _ h
  dsimp only; (repeat' split) <;> simp [ht]

/-! ### Row units -/

@[simp] theorem State.chainWrote_memWf (w : UnitWrite) : Memory.wf (s.chainWrote w).mem = true := by
  unfold State.chainWrote; dsimp only; (repeat' split) <;> simp [h]

@[simp] theorem State.makeWrite_memWf (w : UnitWrite) : Memory.wf (s.makeWrite w).mem = true := by
  have hs := State.injectAll_memWf (State.writeAll_memWf h (s.unitBytes w)) (s.ownerCid w.pan) (s.unitBytes w)
  unfold State.makeWrite; dsimp only
  split
  · exact State.chainWrote_memWf (by rw [State.poisonEach_mem]; exact hs) w
  · split <;> exact hs
  · (repeat' split) <;> exact hs
  · split
    · rw [State.sendPacket_mem]; exact hs
    · exact hs

@[simp] theorem State.makeWrites_memWf (p : UnitWrite → Bool) : Memory.wf (s.makeWrites p).mem = true :=
  State.foldl_memWf (fun _ w ht => State.makeWrite_memWf ht w) _ h

/-! ### System instructions -/

@[simp] theorem State.touchText_memWf : Memory.wf s.touchText.mem = true := by
  simp [State.touchText, h]

@[simp] theorem State.putDict_memWf (a : Nat) : Memory.wf (Out.mem (s.putDict a)) = true := by
  unfold State.putDict; dsimp only; (repeat' split) <;> simp [h]

@[simp] theorem State.reexpand_memWf : Memory.wf (Out.mem s.reexpand) = true := by
  simp [State.reexpand, h]

@[simp] theorem State.addWord_memWf (x : Ctx) (die a : Nat) (v : Word) : Memory.wf (s.addWord x die a v).mem = true := by
  unfold State.addWord; dsimp only
  split
  · exact h
  · next e _ =>
    have hs := State.scrubFor_memWf (s := (s.settleAt (e.locOf a) 8).countWrite die (e.locOf a) 8) (by simp [h]) (e.locOf a).owner.pa 8
    split
    · split
      · simpa using hs
      · exact State.writeLoc_memWf hs _ _ _
    · simpa using h

@[simp] theorem State.flushOcc_memWf (c : Nat) : Memory.wf (s.flushOcc c).mem = true := by
  unfold State.flushOcc; dsimp only; split
  · exact h
  · rw [State.setCtx_mem]
    exact State.addWord_memWf (State.addWord_memWf (State.addWord_memWf (State.addWord_memWf h _ _ _ _) _ _ _ _) _ _ _ _) _ _ _ _

/-! ### Blocks -/

@[simp] theorem State.loadTable_memWf (a n align hold : Nat) (f : Tables → Nat → Tables) :
    Memory.wf (Out.mem (s.loadTable a n align hold f)) = true := by
  unfold State.loadTable; (repeat' split) <;> simp [h]

/-! ### Shapes and tables -/

@[simp] theorem State.engTouch_memWf (c sp a n : Nat) (data : Option (List Byte)) :
    Memory.wf (s.engTouch c sp a n data).mem = true := by
  have hit : ∀ {t : State} (_ : Memory.wf t.mem = true) (p : Nat),
      Memory.wf ((t.countAccess (dieOf (panOf c)) p 1).scrubFor p 1).mem = true :=
    fun ht p => State.scrubFor_memWf (by rw [State.countAccess_mem]; exact ht) p 1
  have hits : ∀ {t : State} (_ : Memory.wf t.mem = true) (p : Nat → Nat) (l : List Nat),
      Memory.wf (l.foldl (fun t k => (t.countAccess (dieOf (panOf c)) (p k) 1).scrubFor (p k) 1) t).mem = true :=
    fun ht p l => State.foldl_memWf (fun _ k ht => hit ht (p k)) l ht
  unfold State.engTouch; dsimp only
  split
  · exact h
  refine State.foldl_memWf (fun t v ht => ?_) _ h
  have hu : Memory.wf (if sp = 2 then t.touchMap (t.part (t.ctx c).pid) v else t).mem = true := by split <;> simp [ht]
  generalize (if sp = 2 then t.touchMap (t.part (t.ctx c).pid) v else t) = u at hu ⊢
  split
  · split <;> simpa using hu
  · split
    · exact hits hu (atStack _) _
    · exact hit hu _

@[simp] theorem State.engLoad_memWf (c sp a n : Nat) : Memory.wf (s.engLoad c sp a n).1.mem = true := by
  simp [State.engLoad, h]

@[simp] theorem writeEach_memWf (c sp a : Nat) (bs : List Byte) : Memory.wf (writeEach c sp s a bs).mem = true := by
  induction bs generalizing s a with
  | nil => exact h
  | cons b bs ih =>
    refine ih ?_ (a + 1)
    split
    · exact State.writeByte_memWf h _ _
    · split
      · exact State.writeLoc_memWf h _ _ _
      · exact h

@[simp] theorem State.engStore_memWf (c sp a : Nat) (bs : List Byte) : Memory.wf (s.engStore c sp a bs).mem = true := by
  have he : ∀ {t : State} (_ : Memory.wf t.mem = true),
      Memory.wf (writeEach c sp ((t.engTouch c sp a bs.length (some bs)).spend c sp bs.length) a bs).mem = true :=
    fun ht => writeEach_memWf (by rw [State.spend_mem]; exact State.engTouch_memWf ht _ _ _ _ _) _ _ _ _
  unfold State.engStore; dsimp only
  split
  · split <;> exact State.inject_memWf (he (by exact h)) _ _ _
  · split <;> exact he (by exact h)

@[simp] theorem State.getElem_memWf (c : Nat) (d : Side) (i : Nat) : Memory.wf (s.getElem c d i).1.mem = true := by
  unfold State.getElem; dsimp only; (repeat' split) <;> simp [h]

@[simp] theorem State.putElem_memWf (c : Nat) (d : Side) (i v : Nat) : Memory.wf (s.putElem c d i v).mem = true := by
  simp [State.putElem, h]

@[simp] theorem State.getElems_memWf (c : Nat) (d : Side) (l : List Nat) : Memory.wf (s.getElems c d l).1.mem = true := by
  induction l generalizing s with
  | nil => exact h
  | cons i l ih =>
    have hi := State.getElem_memWf h c d i
    unfold State.getElems; dsimp only; split <;> simp [*]

@[simp] theorem State.putElems_memWf (c : Nat) (d : Side) (l : List (Nat × Nat)) : Memory.wf (s.putElems c d l).mem = true :=
  State.foldl_memWf (fun _ e ht => State.putElem_memWf ht c d e.1 e.2) l h

/-! ### Engine commands -/

@[simp] theorem State.report_memWf (k : Cmd) (f : Obj → Obj) : Memory.wf (s.report k f).mem = true := by
  simp [State.report, h]

@[simp] theorem State.endCmd_memWf (k : Cmd) (f : Obj → Obj) : Memory.wf (s.endCmd k f).mem = true := by
  simp [State.endCmd, h]

@[simp] theorem State.failCmd_memWf (k : Cmd) (code eadr : Nat) : Memory.wf (s.failCmd k code eadr).mem = true := by
  simp [State.failCmd, h]

@[simp] theorem State.takeEntry_memWf (k : Cmd) : Memory.wf (Out.mem (s.takeEntry k)) = true := by
  unfold State.takeEntry; dsimp only; (repeat' split) <;> simp [h]

@[simp] theorem State.issueCmd_memWf (rc : Reg) (shapes : List HReg) (k : State → Cmd) :
    Memory.wf (Out.mem (s.issueCmd rc shapes k)) = true := by
  unfold State.issueCmd; (repeat' split) <;> simp [h]

@[simp] theorem State.issueHdr_memWf (i : Instr) (e : EngHdr) (shapes : List HReg) (ops : List Word) (n : Shape → Shape → Nat) :
    Memory.wf (Out.mem (s.issueHdr i e shapes ops n)) = true := State.issueCmd_memWf h _ _ _

@[simp] theorem State.doCpl_memWf (k : Cmd) : Memory.wf (s.doCpl k).mem = true := by
  unfold State.doCpl; (repeat' split) <;> simp [h]

@[simp] theorem State.issueCpl_memWf (i : Instr) (rc : Reg) (rel : Bool) (ops : List Word) (ln : Option LReg) :
    Memory.wf (Out.mem (s.issueCpl i rc rel ops ln)) = true := by
  unfold State.issueCpl; dsimp only; (repeat' split) <;> simp [h]

@[simp] theorem State.waitObj_memWf (rel : Bool) (obj : Word) (w : Hold) (ended : Obj → Bool) :
    Memory.wf (Out.mem (s.waitObj rel obj w ended)) = true := by
  have ht := fun l => State.touchObj_memWf h (dieOf s.pan) s.self.tenant l
  unfold State.waitObj; dsimp only
  split
  · split
    · rw [State.trap_mem]; exact State.ite_memWf (ht _) (State.ite_memWf h (ht _))
    · rw [State.done_mem]; exact State.ite_memWf (ht _) (State.ite_memWf h (ht _))
  · rw [State.holdOn_mem]; exact State.ite_memWf h (ht _)

/-! ### What engines do -/

@[simp] theorem State.convertUnit_memWf (k : Cmd) (rm : RM) : Memory.wf (s.convertUnit k rm).1.mem = true := by
  have hs := State.getElems_memWf h k.ctx k.sideA (groupIdx k.group k.p)
  unfold State.convertUnit; dsimp only
  split
  · exact hs
  split
  · split
    · exact State.engLoad_memWf hs _ _ _ _
    · exact State.putElems_memWf (State.engLoad_memWf hs _ _ _ _) _ _ _
  split
  · exact State.engStore_memWf (State.putElems_memWf hs _ _ _) _ _ _ _
  · exact State.putElems_memWf hs _ _ _

@[simp] theorem State.copyUnit_memWf (k : Cmd) : Memory.wf (s.copyUnit k).1.mem = true := by
  unfold State.copyUnit; dsimp only; (repeat' split) <;> simp [h]

@[simp] theorem State.getRows_memWf (c : Nat) (d : Side) (l : List Nat) : Memory.wf (s.getRows c d l).1.mem = true := by
  induction l generalizing s with
  | nil => exact h
  | cons r l ih =>
    have hr := State.getElems_memWf h c d (d.sh.rowElems r)
    unfold State.getRows; dsimp only; split <;> simp [*]

@[simp] theorem State.sieveIndices_memWf (k : Cmd) (isp : BitVec 2) : Memory.wf (s.sieveIndices k isp).1.mem = true := by
  simp [State.sieveIndices, h]

@[simp] theorem State.sieveUpdate_memWf (k : Cmd) (i : Nat) (cs : List Nat) : Memory.wf (s.sieveUpdate k i cs).mem = true := by
  unfold State.sieveUpdate; (repeat' split) <;> simp [h]

@[simp] theorem State.sieveAddRow_memWf (k : Cmd) (r : Nat) (rows : List (List Nat)) :
    Memory.wf (s.sieveAddRow k r rows).mem = true :=
  State.foldl_memWf (fun _ _ ht => State.sieveUpdate_memWf ht _ _ _) _ h

@[simp] theorem State.sieveReport_memWf (k : Cmd) (bad : List Nat) : Memory.wf (s.sieveReport k bad).mem = true := by
  unfold State.sieveReport; (repeat' split) <;> simp [h]

@[simp] theorem State.sieveUnit_memWf (k : Cmd) (isp : BitVec 2) : Memory.wf (s.sieveUnit k isp).1.mem = true := by
  have hs := State.sieveIndices_memWf h k isp
  unfold State.sieveUnit; dsimp only
  split
  · exact hs
  split
  · split
    · exact State.getRows_memWf hs _ _ _
    · exact State.sieveReport_memWf
        (State.foldl_memWf (fun _ _ ht => State.putElems_memWf ht _ _ _) _ (State.getRows_memWf hs _ _ _)) _ _
  · split
    · exact State.getRows_memWf hs _ _ _
    · exact State.sieveReport_memWf
        (State.foldl_memWf (fun _ _ ht => State.putElems_memWf ht _ _ _) _ (State.getRows_memWf hs _ _ _)) _ _
  · split
    · exact State.getRows_memWf hs _ _ _
    · exact State.sieveReport_memWf
        (State.foldl_memWf (fun _ _ ht => State.sieveAddRow_memWf ht _ _ _) _ (State.getRows_memWf hs _ _ _)) _ _

@[simp] theorem State.isectRead_memWf (c : Nat) (d : Side) (i : Nat) : Memory.wf (s.isectRead c d i).1.mem = true := by
  unfold State.isectRead; dsimp only; (repeat' split) <;> simp [h]

@[simp] theorem State.isectStop_memWf (k : Cmd) (code eadr : Nat) : Memory.wf (s.isectStop k code eadr).mem = true := by
  simp [State.isectStop, h]

@[simp] theorem State.isectStep_memWf (k : Cmd) (emit : Bool) (osp : BitVec 2) :
    Memory.wf (s.isectStep k emit osp).mem = true := by
  have hs := State.isectRead_memWf (State.isectRead_memWf h k.ctx k.sideA k.p) k.ctx k.sideB k.q
  unfold State.isectStep; dsimp only
  split
  · exact State.isectStop_memWf hs _ _ _
  refine State.ite_memWf (State.isectStop_memWf hs _ _ _) (State.ite_memWf (State.isectStop_memWf hs _ _ _) ?_)
  refine State.ite_memWf (by exact hs) (State.ite_memWf (by exact hs) ?_)
  split
  · exact State.isectStop_memWf hs _ _ _
  · rw [State.setCmd_mem]; exact State.ite_memWf (State.engStore_memWf hs _ _ _ _) hs

@[simp] theorem State.pruneUnit_memWf (k : Cmd) (msp mc nc : BitVec 2) : Memory.wf (s.pruneUnit k msp mc nc).1.mem = true := by
  unfold State.pruneUnit; dsimp only
  split
  · exact State.getRows_memWf h _ _ _
  · exact State.engStore_memWf (State.foldl_memWf (fun _ _ ht => State.putElems_memWf ht _ _ _) _ (State.getRows_memWf h _ _ _)) _ _ _ _

@[simp] theorem State.moveUnit_memWf (k : Cmd) (fsp fa tsp ta : Nat) : Memory.wf (s.moveUnit k fsp fa tsp ta).1.mem = true := by
  unfold State.moveUnit; dsimp only; (repeat' split) <;> simp [h]

@[simp] theorem State.ringPut_memWf (c : Nat) (r : Ring) (off n v : Nat) : Memory.wf (s.ringPut c r off n v).mem = true := by
  simp [State.ringPut, h]

@[simp] theorem State.payload_memWf (c sp a n : Nat) : Memory.wf (s.payload c sp a n).1.mem = true := by
  unfold State.payload; dsimp only; (repeat' split) <;> simp [h]

@[simp] theorem State.ringWrite_memWf (k : Cmd) (r : Ring) (asp : BitVec 2) (type : BitVec 16) :
    Memory.wf (s.ringWrite k r asp type).mem = true := by
  unfold State.ringWrite; dsimp only
  refine State.ite_memWf (State.failCmd_memWf (State.ringPut_memWf h _ _ _ _ _) _ _ _) ?_
  split
  · refine State.failCmd_memWf (State.ringPut_memWf (State.ringPut_memWf (State.ringPut_memWf ?_ _ _ _ _ _) _ _ _ _ _) _ _ _ _ _) _ _ _
    split <;> exact State.engStore_memWf (State.payload_memWf (State.ite_memWf (State.engStore_memWf h _ _ _ _) h) _ _ _ _) _ _ _ _
  · refine State.endCmd_memWf (State.ringPut_memWf (State.ringPut_memWf (State.ringPut_memWf ?_ _ _ _ _ _) _ _ _ _ _) _ _ _ _ _) _ _
    split <;> exact State.engStore_memWf (State.payload_memWf (State.ite_memWf (State.engStore_memWf h _ _ _ _) h) _ _ _ _) _ _ _ _

@[simp] theorem State.ringRead_memWf (k : Cmd) (r : Ring) (asp : BitVec 2) (get : Bool) :
    Memory.wf (s.ringRead k r asp get).mem = true := by
  unfold State.ringRead; dsimp only
  refine State.ite_memWf (State.endCmd_memWf (State.ite_memWf (State.ringPut_memWf h _ _ _ _ _) h) _ _) ?_
  split
  · exact State.failCmd_memWf h _ _ _
  split
  · exact State.endCmd_memWf (State.engLoad_memWf h _ _ _ _) _ _
  have hs := fun b p n a => State.engStore_memWf (State.engLoad_memWf h k.ctx r.sp p n) k.ctx asp.toNat a b
  split
  · exact State.failCmd_memWf (by exact hs _ _ _ _) _ _ _
  · exact State.endCmd_memWf (State.ite_memWf (State.ringPut_memWf (hs _ _ _ _) _ _ _ _ _) (hs _ _ _ _)) _ _

@[simp] theorem State.ringStep_memWf (k : Cmd) : Memory.wf (s.ringStep k).mem = true := by
  unfold State.ringStep; dsimp only; (repeat' split) <;> simp [h]

@[simp] theorem State.unit_memWf (k : Cmd) : Memory.wf (s.unit k).1.mem = true := by
  unfold State.unit; (repeat' split) <;> simp [h]

@[simp] theorem State.failUnreached_memWf (id : Nat) : Memory.wf (s.failUnreached id).mem = true := by
  unfold State.failUnreached; (repeat' split) <;> simp [h]

@[simp] theorem State.performUnit_memWf (k : Cmd) : Memory.wf (s.performUnit k).mem = true := by
  unfold State.performUnit; dsimp only; (repeat' split) <;> simp [h]

@[simp] theorem State.performUnits_memWf (id n : Nat) : Memory.wf (s.performUnits id n).mem = true := by
  induction n generalizing s with
  | zero => exact h
  | succ n ih =>
    unfold State.performUnits; split
    · exact h
    · split
      · exact ih (State.performUnit_memWf h _)
      · exact h

@[simp] theorem State.performMember_memWf (bad : Bool) (g : GroupKey) (m : Member) :
    Memory.wf (State.performMember bad g s m).mem = true := by
  unfold State.performMember; dsimp only; (repeat' split) <;> simp [h]

/-! ### Collectives -/

@[simp] theorem State.acceptColl_memWf (k : Cmd) : Memory.wf (s.acceptColl k).mem = true := by
  have hs := State.settleAll_memWf h
  have hl := State.engLoad_memWf hs k.ctx 3 (k.op 0) 64
  unfold State.acceptColl; dsimp only
  split
  · exact State.failCmd_memWf hs _ _ _
  split
  · exact State.failCmd_memWf hl _ _ _
  split
  · exact State.failCmd_memWf hl _ _ _
  refine State.ite_memWf (State.failCmd_memWf hl _ _ _) ?_
  rw [State.setCmd_mem, State.sendHeaders_mem]
  exact State.ite_memWf hl (by exact hl)

@[simp] theorem State.failOrWait_memWf (k : Cmd) (code e : Nat) : Memory.wf (s.failOrWait k code e).mem = true := by
  unfold State.failOrWait; (repeat' split) <;> simp [h]

@[simp] theorem State.accept_memWf (k : Cmd) : Memory.wf (s.accept k).mem = true := by
  unfold State.accept; (repeat' split) <;> simp [h]

@[simp] theorem State.collRun_memWf (k : Cmd) (kind : CollKind) (op : CollOp) (count peer : Nat) (full : Bool)
    (data : List (List Byte)) :
    Memory.wf (s.collRun k kind op count peer full data).mem = true := by
  have hs := State.getElems_memWf (s := { s.settleAll with unreached := none }) (State.settleAll_memWf h)
    k.ctx k.sideA (List.range k.sideA.sh.count)
  have hp := fun l => State.putElems_memWf hs k.ctx k.sideB l
  unfold State.collRun; dsimp only
  split
  · exact State.failCmd_memWf hs _ _ _
  split
  · exact State.failCmd_memWf (by exact hp _) _ _ _
  · exact State.ite_memWf (by exact hp _) (State.failCmd_memWf (by exact hp _) _ _ _)

/-! ### Eviction and prefetch -/

@[simp] theorem State.touchWalks_memWf (tenant : Nat) (vas : List Nat) : Memory.wf (s.touchWalks tenant vas).mem = true := by
  refine State.foldl_memWf (fun t a ht => ?_) _ h
  dsimp only; split <;> simp [ht]

@[simp] theorem State.physWrite_memWf (a : Nat) (bs : List Byte) : Memory.wf (s.physWrite a bs).mem = true := by
  simp [State.physWrite, State.writeBytes_memWf, h]

@[simp] theorem State.writeTable_memWf (extp : Nat) (es : List Extent) : Memory.wf (s.writeTable extp es).mem = true := by
  exact List.foldlRecOn (motive := fun p : State × Nat => Memory.wf p.1.mem = true) es _ (State.physWrite_memWf h _ _)
    fun _ hp _ _ => State.physWrite_memWf (State.physWrite_memWf hp _ _) _ _

/-! ### Tasks and contexts -/

@[simp] theorem State.retireInst_memWf (r : TaskRef) (i : BitVec 24) (code : Nat) :
    Memory.wf (s.retireInst r i code).mem = true := by
  unfold State.retireInst; dsimp only; (repeat' split) <;> simp [h]

@[simp] theorem State.countExit_memWf (task : TaskRef) (i : BitVec 24) (r size code : Nat) :
    Memory.wf (s.countExit task i r size code).mem = true := by
  unfold State.countExit; dsimp only; (repeat' split) <;> simp [h]

@[simp] theorem State.resetCtx_memWf (c : Nat) : Memory.wf (s.resetCtx c).mem = true := by
  unfold State.resetCtx; dsimp only
  rw [State.dropReads_mem, State.leaveQueue_mem, State.releaseAll_mem]
  exact State.foldl_memWf (fun _ _ ht => State.failCmd_memWf (by exact ht) _ _ _) _ h

@[simp] theorem State.killCtx_memWf (c : Nat) : Memory.wf (s.killCtx c).mem = true := by
  simp [State.killCtx, h]

@[simp] theorem State.endInstance_memWf (r : TaskRef) (i : BitVec 24) : Memory.wf (s.endInstance r i).mem = true :=
  State.retireInst_memWf (State.foldl_memWf (fun t c ht => by rw [State.freeCtx_mem]; exact State.killCtx_memWf ht c) _ h) _ _ _

@[simp] theorem State.takeTask_memWf (pid : Nat) (tenant : BitVec 16) (x : Ctx) (bs : List Byte) :
    Memory.wf (s.takeTask pid tenant x bs).1.mem = true := by
  unfold State.takeTask; dsimp only
  split
  · rw [State.endTask_mem]
    exact State.updateObj_memWf (State.writeAt_memWf (by exact State.touchWalks_memWf h _ _) _ _ _) _ _ _
  · rw [State.injectIndex_mem, State.setPart_mem]
    exact State.updateObj_memWf (State.writeAt_memWf (by exact State.touchWalks_memWf h _ _) _ _ _) _ _ _

@[simp] theorem State.touchRecord_memWf (x : Ctx) (by' : Option Nat) (bs : List Byte) :
    Memory.wf (s.touchRecord x by' bs).mem = true := by
  unfold State.touchRecord; dsimp only; (repeat' split) <;> simp [h]

@[simp] theorem State.buildTable_memWf (r : TaskRef) (die extp : Nat) : Memory.wf (s.buildTable r die extp).1.mem = true := by
  unfold State.buildTable; dsimp only; (repeat' split) <;> simp [h]

@[simp] theorem State.touchProgram_memWf (x : Ctx) (die prog : Nat) (dictAt : Option Word) :
    Memory.wf (s.touchProgram x die prog dictAt).mem = true := by
  unfold State.touchProgram; dsimp only
  split
  · exact State.touchVirt_memWf (State.touchVirt_memWf (State.touchVirt_memWf h _ _ _ _) _ _ _ _) _ _ _ _
  · exact State.touchVirt_memWf h _ _ _ _

@[simp] theorem State.loadCtx_memWf (c pan idx : Nat) (e : SlotRec) (inst : BitVec 24) (first : Bool) :
    Memory.wf (s.loadCtx c pan idx e inst first).mem = true := by
  simp [State.loadCtx, h]

/-! ### Images -/

@[simp] theorem State.putCells_memWf (a n : Nat) (l : List Host.Cell) : Memory.wf (s.putCells a n l).mem = true :=
  State.foldl_memWf (fun _ _ ht => State.writeByte_memWf ht _ _) l (State.wipe_memWf h a n)

@[simp] theorem State.putFoot_memWf (a n : Nat) (f : Foot) : Memory.wf (s.putFoot a n f).mem = true := by
  simp [State.putFoot, State.poisonBytes_mem, h]

/-! ### Resets and wipes -/

@[simp] theorem State.wipeFoot_memWf (p : Part) (field : Nat) : Memory.wf (s.wipeFoot p field).mem = true :=
  State.wipe_memWf (State.foldl_memWf (s := s.dropStores field) (fun _ _ ht => State.wipe_memWf ht _ _) _ h) _ _

@[simp] theorem State.endPartition_memWf (pid : Nat) : Memory.wf (s.endPartition pid).mem = true := by
  have update := fun (g : State → Loc) (t : State) (ht : Memory.wf t.mem = true) =>
    State.updateObj_memWf ht pid (g t) fun o => o.report 0x020D 0
  exact State.foldl_memWf (fun _ _ ht => by exact ht) _
    (State.foldl_memWf (fun _ _ ht => State.foldl_memWf (fun _ _ hu => State.retireInst_memWf hu _ _ _) _ ht) _
      (State.foldl_memWf (fun t r ht => update (fun t => (t.task r).cpl) t ht) _
        (State.foldl_memWf (fun t l ht => update (fun _ => l) t ht) _
          (State.foldl_memWf (fun _ c ht => State.resetCtx_memWf ht c) _ h))))

@[simp] theorem State.dropSave_memWf (b : BankSlot) : Memory.wf (s.dropSave b).mem = true := by
  unfold State.dropSave; split <;> simp [h]

/-- The values of the steps are cleared one by one: the kernel would otherwise evaluate the wipes while it compares the states. -/
@[simp] theorem State.wipePartition_memWf (pid : Nat) : Memory.wf (s.wipePartition pid).mem = true := by
  unfold State.wipePartition
  extract_lets p s1 s2 pans mine slots
  have h1 : Memory.wf s1.mem = true :=
    State.foldl_memWf (fun _ f ht => by rw [State.clearCtl_mem]; exact State.wipeFoot_memWf ht _ f) _ h
  clear_value s1
  have h2 : Memory.wf s2.mem = true := State.foldl_memWf (fun _ _ ht => State.wipe_memWf ht _ _) _ h1
  clear_value slots s2
  rw [State.mem_with_banks]
  exact State.foldl_memWf (fun _ b ht => State.dropSave_memWf ht b) slots h2

@[simp] theorem State.endReset_memWf (pid : Nat) : Memory.wf (s.endReset pid).mem = true := by
  unfold State.endReset; dsimp only
  split
  · rw [State.emit_mem, State.setPart_mem]
    exact State.wipePartition_memWf (State.endPartition_memWf h pid) pid
  · exact h

@[simp] theorem State.endResets_memWf : Memory.wf s.endResets.mem = true :=
  State.foldl_memWf (fun _ e ht => State.endReset_memWf ht e.1) _ h

@[simp] theorem State.resetPartition_memWf (pid array : Nat) (entry : Option Nat) :
    Memory.wf (s.resetPartition pid array entry).mem = true :=
  State.endReset_memWf (State.foldl_memWf (fun _ _ ht => by dsimp only; split <;> exact ht) _ (by exact h)) pid

/-! ### Halts, saves and resumptions -/

@[simp] theorem State.haltNow_memWf (c : Nat) (run : Run) : Memory.wf (s.haltNow c run).mem = true := by
  simp [State.haltNow, h]

@[simp] theorem State.finishStores_memWf (c : Nat) : Memory.wf (s.finishStores c).mem = true :=
  State.foldl_memWf (fun _ w ht => State.makeWrite_memWf ht w) _ h

@[simp] theorem State.writeImage_memWf (a : Nat) (i : Image) : Memory.wf (s.writeImage a i).mem = true := by
  simp [State.writeImage, h]

@[simp] theorem State.saveInst_memWf (task : TaskRef) (inst : BitVec 24) (addr : Nat) :
    Memory.wf (s.saveInst task inst addr).mem = true := by
  simp [State.saveInst, h]

@[simp] theorem State.restoreFeet_memWf (i : Image) (map ps : List Nat) : Memory.wf (s.restoreFeet i map ps).mem = true :=
  State.foldl_memWf (fun _ _ ht =>
    have hf := State.ite_memWf (State.putFoot_memWf ht _ _ _) ht
    State.ite_memWf (State.putFoot_memWf hf _ _ _) hf) _ h

@[simp] theorem State.resumeRec_memWf (pan idx : Nat) (e : SlotRec) (i : Image) (secs : List Section) (c : Nat) :
    Memory.wf (s.resumeRec pan idx e i secs c).mem = true := by
  unfold State.resumeRec; (repeat' split) <;> simp [h]

@[simp] theorem State.resume_memWf (pan idx : Nat) : Memory.wf (s.resume pan idx).mem = true := by
  unfold State.resume; dsimp only; (repeat' split) <;> simp [h]

/-! ### Integrity -/

@[simp] theorem State.physStore_memWf (a : Nat) (b : Byte) : Memory.wf (s.physStore a b).mem = true := by
  unfold State.physStore; dsimp only
  split
  · exact State.inject_memWf (State.writeByte_memWf (by rw [State.closeFadds_mem]; exact State.scrubFor_memWf h a 1) _ _) _ _ _
  · split <;> exact h
  · exact h
  · exact h

@[simp] theorem State.physStores_memWf (a : Nat) (bs : List Byte) : Memory.wf (s.physStores a bs).mem = true := by
  induction bs generalizing s a with
  | nil => exact h
  | cons b bs ih => exact ih (State.physStore_memWf h a b) (a + 1)

@[simp] theorem State.physTouch_memWf (a n : Nat) : Memory.wf (s.physTouch a n).mem = true := by
  refine State.foldl_memWf (fun t k ht => ?_) _ h
  split
  · exact State.scrubFor_memWf ht _ _
  · exact ht

/-! ### Devices and links -/

@[simp] theorem State.remoteWrite_memWf (die pid p : Nat) (rep : Bool) (bs : List Byte) :
    Memory.wf (s.remoteWrite die pid p rep bs).mem = true := by
  simp [State.remoteWrite, h]

@[simp] theorem State.writeWalk_memWf (pid tenant va : Nat) (bs : List Byte) :
    Memory.wf (s.writeWalk pid tenant va bs).1.mem = true := by
  induction bs generalizing s va with
  | nil => exact h
  | cons b bs ih =>
    have hw := State.touchWalks_memWf h tenant [va]
    unfold State.writeWalk; dsimp only; (repeat' split) <;> simp [*]

/-! ### The cycle -/

@[simp] theorem State.settleNode_memWf : Memory.wf s.settleNode.mem = true :=
  State.foldl_memWf (fun _ _ ht => State.inject_memWf (State.writeBytes_memWf ht _ _) _ _ _) _ (State.makeWrites_memWf h _)

@[simp] theorem State.beginCycle_memWf : Memory.wf s.beginCycle.mem = true := by
  simp [State.beginCycle, h]

end

/-! ## Instructions and events that leave memory as it was -/

/-! ### Memory instructions -/

@[simp] theorem execSt_mem (sp : LSpace) (sz : BitVec 2) (rs base : Reg) (off : Word) (s : State) :
    Out.mem (execSt sp sz rs base off s) = s.mem := by
  unfold execSt; dsimp only; (repeat' split) <;> simp

@[simp] theorem execPush_mem (rs : Reg) (s : State) : Out.mem (execPush rs s) = s.mem := by
  unfold execPush; dsimp only; (repeat' split) <;> simp

@[simp] theorem execMvl_mem (rd : Reg) (ln : LReg) (s : State) : Out.mem (execMvl rd ln s) = s.mem := by
  unfold execMvl; dsimp only; (repeat' split) <;> simp

@[simp] theorem execFence_mem (form : FenceForm) (_scope : Scope) (mask : BitVec 4) (s : State) :
    Out.mem (execFence form _scope mask s) = s.mem := by
  unfold execFence; split <;> rfl

@[simp] theorem execSbar_mem (_scope : Scope) (mask : BitVec 4) (s : State) : Out.mem (execSbar _scope mask s) = s.mem := by
  unfold execSbar; split <;> rfl

@[simp] theorem execHld_mem (sp : GSpace) (h : HReg) (ln : LReg) (base : Reg) (off : Word) (g : GStream) (s : State) :
    Out.mem (execHld sp h ln base off g s) = s.mem := by
  unfold execHld; dsimp only; (repeat' split) <;> simp

@[simp] theorem execHst_mem (sp : GSpace) (h : HReg) (ln : LReg) (base : Reg) (off : Word) (g : GStream) (s : State) :
    Out.mem (execHst sp h ln base off g s) = s.mem := by
  unfold execHst; dsimp only; (repeat' split) <;> simp

@[simp] theorem execMdld_mem (sp : GSpace) (m : BitVec 4) (ln : LReg) (base : Reg) (off : Word) (g : GStream) (s : State) :
    Out.mem (execMdld sp m ln base off g s) = s.mem := by
  unfold execMdld; dsimp only; (repeat' split) <;> simp

@[simp] theorem execHget_mem (rd ra : Reg) (s : State) : Out.mem (execHget rd ra s) = s.mem := by
  unfold execHget; dsimp only; (repeat' split) <;> simp

@[simp] theorem execHset_mem (rd ra rb : Reg) (s : State) : Out.mem (execHset rd ra rb s) = s.mem := by
  unfold execHset; dsimp only; (repeat' split) <;> simp

/-! ### Streams and sluices -/

@[simp] theorem execSluiceSlotArrival_mem (id : Nat) (s : State) : Out.mem (execSluiceSlotArrival id s) = s.mem := by
  unfold execSluiceSlotArrival; (repeat' split) <;> simp

@[simp] theorem execStageMove_mem (mdie q : Nat) (s : State) : Out.mem (execStageMove mdie q s) = s.mem := by
  unfold execStageMove; dsimp only; (repeat' split) <;> simp

@[simp] theorem execSluicePositionFree_mem (id : Nat) (s : State) : Out.mem (execSluicePositionFree id s) = s.mem := by
  unfold execSluicePositionFree; (repeat' split) <;> simp

/-! ### Moves of rows -/

@[simp] theorem execNld_mem (w : Wid) (adv : Bool) (b : BitVec 3) (d : Dst) (off : Src) (i : Imm) (s : State) :
    Out.mem (execNld w adv b d off i s) = s.mem := by
  unfold execNld; dsimp only; (repeat' split) <;> simp

@[simp] theorem execSend_mem (w : Wid) (adv : Bool) (q u : BitVec 4) (a : Src) (s : State) :
    Out.mem (execSend w adv q u a s) = s.mem := by
  unfold execSend; split <;> simp

@[simp] theorem execRecv_mem (w : Wid) (adv : Bool) (q u : BitVec 4) (d : Dst) (s : State) :
    Out.mem (execRecv w adv q u d s) = s.mem := by
  unfold execRecv; dsimp only; (repeat' split) <;> simp

/-! ### Row units -/

@[simp] theorem execTstepStepRead_mem (id : Nat) (s : State) : Out.mem (execTstepStepRead id s) = s.mem := by
  unfold execTstepStepRead; (repeat' split) <;> simp

@[simp] theorem execTstepContribution_mem (id r x y : Nat) (s : State) : Out.mem (execTstepContribution id r x y s) = s.mem := by
  unfold execTstepContribution; dsimp only; (repeat' split) <;> simp

@[simp] theorem execMacf_mem (wr : Bool) (d : Dst) (a : Src) (b : Option Src) (s : State) :
    Out.mem (execMacf wr d a b s) = s.mem := by
  simp [execMacf]

@[simp] theorem execDmac_mem (wr : Bool) (d : Dst) (a : Src) (b : Option Src) (s : State) :
    Out.mem (execDmac wr d a b s) = s.mem := by
  simp [execDmac]

@[simp] theorem execSetq_mem (form : SetqForm) (a : Option Src) (s : State) : Out.mem (execSetq form a s) = s.mem := by
  unfold execSetq; (repeat' split) <;> simp

@[simp] theorem execTrdl_mem (form : TrdlForm) (d : Dst) (t : BitVec 3) (s : State) : Out.mem (execTrdl form d t s) = s.mem := by
  unfold execTrdl; split <;> simp

@[simp] theorem execBq_mem (fin : FFmt) (fout bD bS : BitVec 3) (a : Src) (s : State) :
    Out.mem (execBq fin fout bD bS a s) = s.mem := by
  unfold execBq; dsimp only; (repeat' split) <;> simp

@[simp] theorem execRank_mem (bI : BitVec 3) (g : BitVec 2) (kf : KeyFmt) (c1 : BitVec 6) (out : PktPort) (s : State) :
    Out.mem (execRank bI g kf c1 out s) = s.mem := by
  unfold execRank; dsimp only; (repeat' split) <;> simp

@[simp] theorem execRacc_mem (n z adv : Bool) (b t : BitVec 3) (w : Src) (src : PktPort) (s : State) :
    Out.mem (execRacc n z adv b t w src s) = s.mem := by
  unfold execRacc; (repeat' split) <;> simp

@[simp] theorem execRval_mem (adv : Bool) (d : Dst) (a : Src) (src : PktPort) (s : State) :
    Out.mem (execRval adv d a src s) = s.mem := by
  unfold execRval; split
  · rfl
  · simp [State.row32]

@[simp] theorem execEdgeFeed_mem (elem : Nat) (p : Port) (s : State) : Out.mem (execEdgeFeed elem p s) = s.mem :=
  State.foldl_mem (fun _ _ => by simp) _ _

/-! ### System instructions -/

@[simp] theorem execBrk_mem (imm : Word) (s : State) : Out.mem (execBrk imm s) = s.mem := by
  unfold execBrk; dsimp only; (repeat' split) <;> simp

@[simp] theorem execRft_mem (s : State) : Out.mem (execRft s) = s.mem := by
  unfold execRft; split <;> simp

@[simp] theorem execSysr_mem (rd : Reg) (n : BitVec 12) (s : State) : Out.mem (execSysr rd n s) = s.mem := by
  unfold execSysr; split <;> simp

@[simp] theorem execSysw_mem (n : BitVec 12) (ra : Reg) (s : State) : Out.mem (execSysw n ra s) = s.mem := by
  unfold execSysw; dsimp only; (repeat' split) <;> simp

@[simp] theorem execHalt_mem (s : State) : Out.mem (execHalt s) = s.mem := by
  unfold execHalt; dsimp only; (repeat' split) <;> simp

@[simp] theorem execWaite_mem (rd ra : Reg) (mask : BitVec 10) (s : State) : Out.mem (execWaite rd ra mask s) = s.mem := by
  unfold execWaite; dsimp only; (repeat' split) <;> simp

@[simp] theorem execWaiteEnd_mem (ctx : Nat) (s : State) : Out.mem (execWaiteEnd ctx s) = s.mem := by
  unfold execWaiteEnd; dsimp only; (repeat' split) <;> simp

@[simp] theorem execEcall_mem (rd ra : Reg) (svc : BitVec 16) (s : State) : Out.mem (execEcall rd ra svc s) = s.mem := by
  unfold execEcall; dsimp only; (repeat' split) <;> simp

@[simp] theorem execEcallAnswer_mem (ctx : Nat) (v : Word) (s : State) : Out.mem (execEcallAnswer ctx v s) = s.mem := by
  unfold execEcallAnswer; dsimp only; (repeat' split) <;> simp

@[simp] theorem execTidew_mem (rd : Reg) (m : Word) (s : State) : Out.mem (execTidew rd m s) = s.mem := by
  unfold execTidew; dsimp only; (repeat' split) <;> simp

/-! ### Blocks -/

@[simp] theorem execFuse_mem (m : BitVec 8) (id : BitVec 12) (cols rows : BitVec 16) (fcw : BitVec 32) (s : State) :
    Out.mem (execFuse m id cols rows fcw s) = s.mem := by simp [execFuse]

@[simp] theorem execFuseLive_mem (m : BitVec 8) (id : BitVec 12) (em : BitVec 32) (tm : BitVec 8) (idx : BitVec 5) (s : State) :
    Out.mem (execFuseLive m id em tm idx s) = s.mem := by simp [execFuseLive]

@[simp] theorem execRoute_mem (part : RoutePart) (m : BitVec 8) (id : BitVec 12) (cols rows : BitVec 16) (v : BitVec 32)
    (s : State) :
    Out.mem (execRoute part m id cols rows v s) = s.mem := by simp [execRoute]

@[simp] theorem execBind_mem (m : BitVec 8) (id : BitVec 12) (spec : BindSpec) (s : State) :
    Out.mem (execBind m id spec s) = s.mem := by simp [execBind]

@[simp] theorem execNest_mem (m : BitVec 8) (id : BitVec 12) (n : NestSpec) (s : State) :
    Out.mem (execNest m id n s) = s.mem := by simp [execNest]

@[simp] theorem execBodyRowWord_mem (w : RowWord) (s : State) :
    Out.mem (execBodyRowWord w s) = s.mem := by simp [execBodyRowWord]

@[simp] theorem execBlk_mem (clr : Bool) (m : BitVec 8) (id : BitVec 12) (ewin : BitVec 32) (twin : BitVec 8) (ii : BitVec 6)
    (f : BitVec 5) (s : State) :
    Out.mem (execBlk clr m id ewin twin ii f s) = s.mem := by
  unfold execBlk; dsimp only; (repeat' split) <;> simp

@[simp] theorem execBend_mem (m : BitVec 8) (id : BitVec 12) (crc : BitVec 32) (s : State) :
    Out.mem (execBend m id crc s) = s.mem := by
  unfold execBend; dsimp only; (repeat' split) <;> simp

@[simp] theorem execBstamp_mem (m : BitVec 8) (id : BitVec 12) (n : BitVec 6) (base step ostep : BitVec 16) (s : State) :
    Out.mem (execBstamp m id n base step ostep s) = s.mem := by
  unfold execBstamp; split
  · simp
  split
  · simp
  dsimp only; split
  · simp
  · rw [State.done_mem]
    exact (State.foldl_mem (fun _ _ => by split <;> rfl) _ _).trans (s.dropCopies_mem _ _)

@[simp] theorem execBgo_mem (m : BitVec 8) (id : BitVec 12) (off : BitVec 24) (s : State) :
    Out.mem (execBgo m id off s) = s.mem := by
  unfold execBgo; dsimp only; (repeat' split) <;> simp

@[simp] theorem execBdrain_mem (m : BitVec 8) (s : State) : Out.mem (execBdrain m s) = s.mem := by
  unfold execBdrain; dsimp only; (repeat' split) <;> simp

@[simp] theorem execBrel_mem (m : BitVec 8) (s : State) : Out.mem (execBrel m s) = s.mem := by
  unfold execBrel; dsimp only; (repeat' split) <;> simp

@[simp] theorem execTdisc_mem (m : BitVec 8) (tm : BitVec 8) (s : State) : Out.mem (execTdisc m tm s) = s.mem := by
  unfold execTdisc; dsimp only; (repeat' split) <;> simp

/-! ### Engine commands -/

@[simp] theorem execQueueEntryFree_mem (pan : Nat) (s : State) : Out.mem (execQueueEntryFree pan s) = s.mem := by
  unfold execQueueEntryFree; dsimp only; (repeat' split) <;> simp

/-! ### Tasks and contexts -/

@[simp] theorem execLateStart_mem (pan : Nat) (idx : BitVec 4) (s : State) : Out.mem (execLateStart pan idx s) = s.mem := by
  unfold execLateStart; dsimp only; (repeat' split) <;> simp

@[simp] theorem execContextStart_mem (ctx : Nat) (s : State) : Out.mem (execContextStart ctx s) = s.mem := by
  unfold execContextStart; dsimp only; (repeat' split) <;> simp

/-! ### Halts, saves and resumptions -/

@[simp] theorem execHaltRequest_mem (ctx : Nat) (tauH : Option (BitVec 64)) (s : State) :
    Out.mem (execHaltRequest ctx tauH s) = s.mem := by
  unfold execHaltRequest; dsimp only; (repeat' split) <;> simp

@[simp] theorem execSoftRequest_mem (task : TaskRef) (inst : BitVec 24) (s : State) :
    Out.mem (execSoftRequest task inst s) = s.mem :=
  State.foldl_mem (fun _ _ => by dsimp only; split <;> rfl) _ _

@[simp] theorem execGraceExpiry_mem (task : TaskRef) (inst : BitVec 24) (s : State) :
    Out.mem (execGraceExpiry task inst s) = s.mem :=
  State.foldl_mem (fun _ _ => by dsimp only; split <;> rfl) _ _

/-! ### Tide -/

@[simp] theorem execDomainStall_mem (dom : Nat) (s : State) : Out.mem (execDomainStall dom s) = s.mem := by
  unfold execDomainStall; dsimp only; split
  · rfl
  · exact (State.foldl_mem (fun _ _ => by simp) _ _).trans
      (State.foldl_mem (fun _ _ => State.foldl_mem (fun _ _ => by split <;> rfl) _ _) _ _)

@[simp] theorem execMarkRelease_mem (dom : Nat) (s : State) : Out.mem (execMarkRelease dom s) = s.mem := by
  unfold execMarkRelease; dsimp only; (repeat' split) <;> simp

@[simp] theorem execTideSample_mem (src dst : Nat) (s : State) : Out.mem (execTideSample src dst s) = s.mem := by
  unfold execTideSample; dsimp only; (repeat' split) <;> simp

@[simp] theorem execFllStep_mem (dom : Nat) (s : State) : Out.mem (execFllStep dom s) = s.mem := by
  unfold execFllStep; dsimp only; (repeat' split) <;> simp

@[simp] theorem execVoltageMoveEnd_mem (dom : Nat) (s : State) : Out.mem (execVoltageMoveEnd dom s) = s.mem := by
  unfold execVoltageMoveEnd; dsimp only; (repeat' split) <;> simp

/-! ### Power -/

@[simp] theorem execCap_mem (cseq : BitVec 64) (lease capw : BitVec 32) (s : State) :
    Out.mem (execCap cseq lease capw s) = s.mem := by
  unfold execCap; dsimp only; (repeat' split) <;> simp

@[simp] theorem execLeaseExpiry_mem (s : State) : Out.mem (execLeaseExpiry s) = s.mem := by
  unfold execLeaseExpiry; split <;> rfl

@[simp] theorem execPowerWindow_mem (load : Nat) (share : List (Nat × Nat)) (s : State) :
    Out.mem (execPowerWindow load share s) = s.mem := by
  unfold execPowerWindow; dsimp only; (repeat' split) <;> simp

@[simp] theorem execThermalEmergency_mem (s : State) : Out.mem (execThermalEmergency s) = s.mem := by
  have hr : ∀ l : List Nat, (l.foldl (fun (s : State) c => match (s.ctx c).haltReq with
      | some (_, none) => s
      | _ => s.setCtx c { s.ctx c with haltReq := some (s.cycle, none) }) { s with thermal := true }).mem = s.mem :=
    fun l => State.foldl_mem (fun _ _ => by split <;> rfl) l _
  refine (State.foldl_mem (fun _ _ => by dsimp only; split <;> simp) _ _).trans ?_
  split
  · exact hr _
  · exact hr _

@[simp] theorem execLinkRetrain_mem (die : BitVec 3) (lat : Option Nat) (s : State) :
    Out.mem (execLinkRetrain die lat s) = s.mem := by
  unfold execLinkRetrain; split <;> rfl

/-! ### Integrity -/

@[simp] theorem execEinjWrite_mem (array : Nat) (v : BitVec 64) (s : State) : Out.mem (execEinjWrite array v s) = s.mem := by
  unfold execEinjWrite; dsimp only; (repeat' split) <;> simp

@[simp] theorem execErrorLogClear_mem (array entry : Nat) (s : State) : Out.mem (execErrorLogClear array entry s) = s.mem := by
  unfold execErrorLogClear; dsimp only; (repeat' split) <;> simp

@[simp] theorem execCorrectableError_mem (x : Struck) (wrong : Nat) (injected : Bool) (s : State) :
    Out.mem (execCorrectableError x wrong injected s) = s.mem := by
  unfold execCorrectableError; (repeat' split) <;> simp

@[simp] theorem execRemapTableChange_mem (die : BitVec 3) (field : BitVec 3) (pan : Retired) (s : State) :
    Out.mem (execRemapTableChange die field pan s) = s.mem := by
  unfold execRemapTableChange; dsimp only; (repeat' split) <;> simp

/-! ### Devices and links -/

@[simp] theorem execFlitReplay_mem (link : BitVec 5) (ack : BitVec 12) (s : State) :
    Out.mem (execFlitReplay link ack s) = s.mem := by
  unfold execFlitReplay; dsimp only; (repeat' split) <;> simp

@[simp] theorem execEndpointDirectoryUpdate_mem (tenant : BitVec 16) (gid : BitVec 32) (rank : BitVec 6) (dev : BitVec 12)
    (s : State) :
    Out.mem (execEndpointDirectoryUpdate tenant gid rank dev s) = s.mem := by
  unfold execEndpointDirectoryUpdate; split <;> simp

@[simp] theorem execDebug_mem (seq : BitVec 64) (body : List Byte) (s : State) : Out.mem (execDebug seq body s) = s.mem := by
  unfold execDebug; split <;> rfl

/-! ## Instructions and events that may write -/

section
variable {s : State} (h : Memory.wf s.mem = true)
include h

/-! ### Memory instructions -/

theorem execLd_memWf (sp : LSpace) (sz : BitVec 2) (zx : Bool) (rd base : Reg) (off : Word) :
    Memory.wf (Out.mem (execLd sp sz zx rd base off s)) = true := by
  unfold execLd; dsimp only; (repeat' split) <;> simp [h]

theorem execPop_memWf (ln : LReg) : Memory.wf (Out.mem (execPop ln s)) = true := by
  unfold execPop; dsimp only; (repeat' split) <;> simp [h]

theorem execMsg_memWf (ra rb rc : Reg) : Memory.wf (Out.mem (execMsg ra rb rc s)) = true := by
  unfold execMsg; dsimp only; (repeat' split) <;> simp [h]

theorem execLandingArrival_memWf (id : Nat) (remote : Option Answer) :
    Memory.wf (Out.mem (execLandingArrival id remote s)) = true := by
  unfold execLandingArrival; (repeat' split) <;> simp [h]

theorem execReplicaCommit_memWf (id : Nat) : Memory.wf (Out.mem (execReplicaCommit id s)) = true := by
  unfold execReplicaCommit; dsimp only; (repeat' split) <;> simp [h]

theorem execReplicaUnlock_memWf (id : Nat) (die : BitVec 3) : Memory.wf (Out.mem (execReplicaUnlock id die s)) = true := by
  unfold execReplicaUnlock; dsimp only; (repeat' split) <;> simp [h]

theorem execOrderedFadd_memWf (id : Nat) : Memory.wf (Out.mem (execOrderedFadd id s)) = true := by
  unfold execOrderedFadd; dsimp only; (repeat' split) <;> simp [h]

theorem execMsgDelivery_memWf (id : Nat) : Memory.wf (Out.mem (execMsgDelivery id s)) = true := by
  unfold execMsgDelivery; dsimp only; (repeat' split) <;> simp [h]

/-! ### System instructions -/

theorem execDictld_memWf (ra : Reg) (off : Word) : Memory.wf (Out.mem (execDictld ra off s)) = true := by
  unfold execDictld; dsimp only; (repeat' split) <;> simp [h]

theorem execDictldComplete_memWf (ctx : Nat) : Memory.wf (Out.mem (execDictldComplete ctx s)) = true := by
  unfold execDictldComplete; dsimp only; (repeat' split) <;> simp [h]

theorem execFlushi_memWf : Memory.wf (Out.mem (execFlushi s)) = true := by
  unfold execFlushi; (repeat' split) <;> simp [h]

theorem execFlushiComplete_memWf (ctx : Nat) : Memory.wf (Out.mem (execFlushiComplete ctx s)) = true := by
  unfold execFlushiComplete; dsimp only; (repeat' split) <;> simp [h]

theorem execPhase_memWf (n : BitVec 8) : Memory.wf (Out.mem (execPhase n s)) = true := by
  simp [execPhase, h]

/-! ### Blocks -/

theorem execGtab_memWf (addr : BitVec 20) :
    Memory.wf (Out.mem (execGtab addr s)) = true := State.loadTable_memWf h ..

theorem execVtab_memWf (i16 : Bool) (addr : BitVec 20) : Memory.wf (Out.mem (execVtab i16 addr s)) = true := by
  unfold execVtab; split <;> exact State.loadTable_memWf h ..

theorem execTrd_memWf (m : BitVec 8) (k : BitVec 3) (desc : BitVec 20) : Memory.wf (Out.mem (execTrd m k desc s)) = true := by
  unfold execTrd; dsimp only
  split
  · split <;> simp [h]
  split
  · simp [h]
  split
  · simp [h]
  · exact State.foldl_memWf (fun _ _ ht => by exact ht) _ h

/-! ### Engine commands -/

theorem execTcopy_memWf (e : EngHdr) (sd d : EngEnd) :
    Memory.wf (Out.mem (execTcopy e sd d s)) = true := State.issueHdr_memWf h ..

theorem execTcopyc_memWf (e : EngHdr) (sd d : EngEnd) (rm : RM) (xr : Reg) :
    Memory.wf (Out.mem (execTcopyc e sd d rm xr s)) = true := State.issueHdr_memWf h ..

theorem execTfill_memWf (e : EngHdr) (d : EngEnd) (rv : Reg) :
    Memory.wf (Out.mem (execTfill e d rv s)) = true := State.issueHdr_memWf h ..

theorem execSgath_memWf (e : EngHdr) (tsp rsp : BitVec 2) (ir : Reg) (isp : BitVec 2) :
    Memory.wf (Out.mem (execSgath e tsp rsp ir isp s)) = true := State.issueHdr_memWf h ..

theorem execSscat_memWf (e : EngHdr) (tsp rsp : BitVec 2) (ir : Reg) (isp : BitVec 2) :
    Memory.wf (Out.mem (execSscat e tsp rsp ir isp s)) = true := State.issueHdr_memWf h ..

theorem execSscata_memWf (e : EngHdr) (tsp rsp : BitVec 2) (ir : Reg) (isp : BitVec 2) :
    Memory.wf (Out.mem (execSscata e tsp rsp ir isp s)) = true := State.issueHdr_memWf h ..

theorem execSisect_memWf (e : EngHdr) (emit : Bool) (asp bsp : BitVec 2) (ro : Reg) (osp : BitVec 2) :
    Memory.wf (Out.mem (execSisect e emit asp bsp ro osp s)) = true := State.issueHdr_memWf h ..

theorem execPrune_memWf (e : EngHdr) (asp bsp : BitVec 2) (mr : Reg) (msp mc nc : BitVec 2) :
    Memory.wf (Out.mem (execPrune e asp bsp mr msp mc nc s)) = true := State.issueHdr_memWf h ..

theorem execColl_memWf (e : EngHdr) (kind : CollKind) (op : CollOp) (asp bsp : BitVec 2) (gr : Reg) :
    Memory.wf (Out.mem (execColl e kind op asp bsp gr s)) = true := State.issueHdr_memWf h ..

theorem execRput_memWf (rel : Bool) (rc rr : Reg) (fld : Bool) (ar : Reg) (asp : BitVec 2) (lr : Reg) (type : BitVec 16) :
    Memory.wf (Out.mem (execRput rel rc rr fld ar asp lr type s)) = true := State.issueCmd_memWf h ..

theorem execRget_memWf (rel : Bool) (rc rr : Reg) (fld : Bool) (ar : Reg) (asp : BitVec 2) (lr : Reg) :
    Memory.wf (Out.mem (execRget rel rc rr fld ar asp lr s)) = true := State.issueCmd_memWf h ..

theorem execRpeek_memWf (rel : Bool) (rc rr : Reg) (fld : Bool) (ar : Reg) (asp : BitVec 2) (lr : Reg) :
    Memory.wf (Out.mem (execRpeek rel rc rr fld ar asp lr s)) = true := State.issueCmd_memWf h ..

theorem execEvict_memWf (rel : Bool) (rc br : Reg) (fld : Bool) (mr : Reg) (res : Bool) (nr : Reg) :
    Memory.wf (Out.mem (execEvict rel rc br fld mr res nr s)) = true := State.issueCmd_memWf h ..

theorem execPref_memWf (rel : Bool) (rc br : Reg) (fld : Bool) (mr : Reg) (res : Bool) (nr : Reg) :
    Memory.wf (Out.mem (execPref rel rc br fld mr res nr s)) = true := State.issueCmd_memWf h ..

theorem execCplwait_memWf (rel : Bool) (rc : Reg) : Memory.wf (Out.mem (execCplwait rel rc s)) = true := by
  unfold execCplwait; (repeat' split) <;> simp [h]

theorem execBarwait_memWf (rel : Bool) (rc ra : Reg) : Memory.wf (Out.mem (execBarwait rel rc ra s)) = true := by
  unfold execBarwait; (repeat' split) <;> simp [h]

theorem execCplwaitEnd_memWf (ctx : Nat) : Memory.wf (Out.mem (execCplwaitEnd ctx s)) = true := by
  unfold execCplwaitEnd; dsimp only; (repeat' split) <;> simp [h]

theorem execBarwaitEnd_memWf (ctx : Nat) : Memory.wf (Out.mem (execBarwaitEnd ctx s)) = true := by
  unfold execBarwaitEnd; dsimp only; (repeat' split) <;> simp [h]

theorem execEngineBindingSlotReady_memWf (id : Nat) : Memory.wf (Out.mem (execEngineBindingSlotReady id s)) = true := by
  unfold execEngineBindingSlotReady; dsimp only; (repeat' split) <;> simp [h]

/-! ### What engines do -/

theorem execMergeGroupSend_memWf (ids : List Nat) : Memory.wf (Out.mem (execMergeGroupSend ids s)) = true := by
  unfold execMergeGroupSend; dsimp only; split
  · exact h
  · exact State.foldl_memWf (fun _ m ht => State.performMember_memWf ht _ _ m) _ h

theorem execEngineComplete_memWf (id : Nat) : Memory.wf (Out.mem (execEngineComplete id s)) = true := by
  unfold execEngineComplete; (repeat' split) <;> simp [h]

/-! ### Chains -/

theorem execChain_memWf (e : EngHdr) (start : BitVec 24) (desc : BitVec 20) (m : BitVec 8) (y : BitVec 4) (n1 : BitVec 3)
    (tau1 : BitVec 2) :
    Memory.wf (Out.mem (execChain e start desc m y n1 tau1 s)) = true := State.issueCmd_memWf h ..

/-! ### Collectives -/

theorem execEngineAccept_memWf (id : Nat) : Memory.wf (Out.mem (execEngineAccept id s)) = true := by
  unfold execEngineAccept; (repeat' split) <;> simp [h]

theorem execCollHeaderMatch_memWf (id : Nat) (headers : List (Option CollHeader)) (peer : Nat) (data : List (List Byte)) :
    Memory.wf (Out.mem (execCollHeaderMatch id headers peer data s)) = true := by
  unfold execCollHeaderMatch; dsimp only; (repeat' split) <;> simp [h]

/-! ### Tasks and contexts -/

theorem execExit_memWf (ra : Reg) : Memory.wf (Out.mem (execExit ra s)) = true := by
  unfold execExit; dsimp only; (repeat' split) <;> simp [h]

theorem execYield_memWf (rd : Reg) : Memory.wf (Out.mem (execYield rd s)) = true := by
  unfold execYield; dsimp only; (repeat' split) <;> simp [h]

theorem execInstanceEnd_memWf (task : TaskRef) (inst : BitVec 24) : Memory.wf (Out.mem (execInstanceEnd task inst s)) = true := by
  unfold execInstanceEnd; (repeat' split) <;> simp [h]

theorem execHaltResume_memWf (ctx : Nat) (resume : Bool) : Memory.wf (Out.mem (execHaltResume ctx resume s)) = true := by
  unfold execHaltResume; dsimp only; (repeat' split) <;> simp [h]

theorem execLaunch_memWf (rd ra : Reg) : Memory.wf (Out.mem (execLaunch rd ra s)) = true := by
  unfold execLaunch; dsimp only
  split
  · split <;> simp [h]
  split
  · simp [h]
  split
  · simp [h]
  split
  · simp [h]
  · simp [h]
  · split
    · simp [h]
    · simp [h]
    · exact State.takeTask_memWf (State.touchRecord_memWf (State.touchVirt_memWf h _ _ _ _) _ _ _) _ _ _ _

theorem execTranslatorBuild_memWf (task : TaskRef) (die : BitVec 3) (extp : BitVec 48) :
    Memory.wf (Out.mem (execTranslatorBuild task die extp s)) = true := by
  unfold execTranslatorBuild; (repeat' split) <;> simp [h]

theorem execDispatchTake_memWf (pan : Nat) (idx : BitVec 4) : Memory.wf (Out.mem (execDispatchTake pan idx s)) = true := by
  unfold execDispatchTake; dsimp only; (repeat' split) <;> simp [h]

theorem execNextInstanceLoad_memWf (pan : Nat) (idx : BitVec 4) :
    Memory.wf (Out.mem (execNextInstanceLoad pan idx s)) = true := by
  unfold execNextInstanceLoad; dsimp only; (repeat' split) <;> simp [h]

/-! ### Halts, saves and resumptions -/

theorem execHaltPoint_memWf (ctx : Nat) : Memory.wf (Out.mem (execHaltPoint ctx s)) = true := by
  unfold execHaltPoint; (repeat' split) <;> simp [h]

theorem execHaltComplete_memWf (ctx : Nat) : Memory.wf (Out.mem (execHaltComplete ctx s)) = true := by
  unfold execHaltComplete; dsimp only; (repeat' split) <;> simp [h]

theorem execSave_memWf (task : TaskRef) (inst : BitVec 24) (addr : BitVec 48) :
    Memory.wf (Out.mem (execSave task inst addr s)) = true := by
  unfold execSave; (repeat' split) <;> simp [h]

theorem execSwap_memWf (task : TaskRef) (inst : BitVec 24) (addr : BitVec 48) (pan : Nat) (idx : BitVec 4) :
    Memory.wf (Out.mem (execSwap task inst addr pan idx s)) = true := by
  unfold execSwap; (repeat' split) <;> simp [h]

theorem execKillExpiry_memWf (ctx : Nat) : Memory.wf (Out.mem (execKillExpiry ctx s)) = true := by
  unfold execKillExpiry; dsimp only; split
  · exact h
  · exact State.foldl_memWf (fun _ f ht => State.wipeFoot_memWf ht _ f) _ (State.endInstance_memWf h _ _)

/-! ### Power -/

/-- A power-on reset ends with the wiped memory of bring-up, or, where the firmware is not verified, with the memory as it was. -/
theorem execPowerOnReset_memWf (boot : BootImages) : Memory.wf (Out.mem (execPowerOnReset boot s)) = true := by
  unfold execPowerOnReset; dsimp only; split
  · rfl
  · exact h

/-! ### Integrity -/

theorem execUncorrectableError_memWf (x : Struck) (injected : Bool) :
    Memory.wf (Out.mem (execUncorrectableError x injected s)) = true := by
  have hd : ∀ k, Memory.wf (if injected then s.disarm k else s).mem = true := fun k => State.ite_memWf (by exact h) h
  have hl : ∀ k die a cid kind code, Memory.wf ((if injected then s.disarm k else s).logError k die a cid kind code injected).mem = true :=
    fun k _ _ _ _ _ => by rw [State.logError_mem]; exact hd k
  unfold execUncorrectableError; dsimp only
  split
  · exact h
  split
  · exact hd _
  · rw [Out.mem_next, State.poisonBytes_mem]; exact hl _ _ _ _ _ _
  · exact State.resetPartition_memWf (hl _ _ _ _ _ _) _ _ _
  · exact State.resetPartition_memWf (hl _ _ _ _ _ _) _ _ _
  · exact State.foldl_memWf (fun _ p ht => State.resetPartition_memWf ht p _ _) _ (hl _ _ _ _ _ _)

theorem execTenantChangeWipe_memWf (field : Nat) : Memory.wf (Out.mem (execTenantChangeWipe field s)) = true := by
  unfold execTenantChangeWipe; split
  · extract_lets s1 s2 s3
    have h2 : Memory.wf s2.mem = true := by
      unfold s2; rw [State.clearCtl_mem]
      exact State.foldl_memWf (fun _ _ ht => State.wipe_memWf ht _ _) _ h
    have h3 : Memory.wf s3.mem = true := State.wipe_memWf h2 _ _
    clear_value s3
    exact h3
  · exact h

theorem execScrubLine_memWf (stack : BitVec 3) : Memory.wf (Out.mem (execScrubLine stack s)) = true := by
  unfold execScrubLine; dsimp only; (repeat' split) <;> simp [h]

theorem execLifeCycleChange_memWf (lc : LifeCycle) (auth : Auth) :
    Memory.wf (Out.mem (execLifeCycleChange lc auth s)) = true := by
  unfold execLifeCycleChange; extract_lets made owner allowed keys; split
  · rfl
  · exact h

theorem execDlogRoundEnd_memWf (pid : BitVec 7) : Memory.wf (Out.mem (execDlogRoundEnd pid s)) = true := by
  unfold execDlogRoundEnd; dsimp only; split
  · exact h
  · exact State.writeNat_memWf (State.writeNat_memWf (State.scrubFor_memWf (by exact h) _ _) _ _ _) _ _ _

theorem execRegisterWrite_memWf (r : FwReg) (v : List (BitVec 64)) : Memory.wf (Out.mem (execRegisterWrite r v s)) = true := by
  unfold execRegisterWrite; (repeat' split) <;> simp [h]

theorem execManagementCoreAccess_memWf (addr : BitVec 48) (n : Nat) (data : Option (List Byte)) :
    Memory.wf (Out.mem (execManagementCoreAccess addr n data s)) = true := by
  unfold execManagementCoreAccess; extract_lets a m; split
  · rfl
  split
  · exact State.physStores_memWf (State.settleAt_memWf h _ _) _ _
  · exact State.physTouch_memWf (State.settleAt_memWf h _ _) _ _

/-! ### Devices and links -/

theorem execRemoteRequest_memWf (tenant : BitVec 16) (src : BitVec 12) (addr : BitVec 48) (n : Nat) (rep : Bool) (op : RemoteOp) :
    Memory.wf (Out.mem (execRemoteRequest tenant src addr n rep op s)) = true := by
  unfold execRemoteRequest; extract_lets own len p mdie die pid cid
  split
  · exact h
  split
  · simp [h]
  rename_i s0 got bad s1 s2 _ _ _
  have h0 : Memory.wf s0.mem = true := State.scrubFor_memWf (by rw [State.countAccess_mem]; exact State.settleAt_memWf h _ _) _ _
  have h1 : Memory.wf s1.mem = true := by unfold s1; (repeat' split) <;> simp [h0]
  have h2 : Memory.wf s2.mem = true := by
    unfold s2; split
    · exact State.remoteWrite_memWf h1 _ _ _ _ _
    · exact h1
  clear_value s1 s2
  split
  · rw [Out.mem_next, State.respond_mem]; exact State.updateObj_memWf h1 _ _ _
  · split
    · simp [h1]
    split
    · exact h
    · next t bs he =>
      have ht : Memory.wf t.mem = true := Memory.wf_of_eq (State.remoteFadd_mem he) h1
      simp [ht]
  · simp [h2]

theorem execLinkTimeout_memWf (link : BitVec 4) : Memory.wf (Out.mem (execLinkTimeout link s)) = true := by
  unfold execLinkTimeout; dsimp only; split
  · exact h
  · rw [Out.mem_next, State.logError_mem]
    refine State.foldl_memWf (fun t k ht => ?_) _ (State.foldl_memWf (fun _ a ht => State.lose_memWf ht a) _ h)
    split
    · exact State.failCmd_memWf ht _ _ _
    · exact ht

theorem execImgld_memWf (seq : BitVec 64) (pid : BitVec 7) (va : BitVec 64) (body : List Byte) :
    Memory.wf (Out.mem (execImgld seq pid va body s)) = true := by
  unfold execImgld; dsimp only; (repeat' split) <;> simp [h]

theorem execStart_memWf (seq : BitVec 64) (pid : BitVec 7) (va : BitVec 64) :
    Memory.wf (Out.mem (execStart seq pid va s)) = true := by
  unfold execStart; dsimp only
  split
  · exact h
  have hw := State.touchWalks_memWf h (s.part pid.toNat).tenant.toNat [va.toNat]
  split
  · exact hw
  have hv := fun x => State.touchVirt_memWf hw x none va.toNat 256
  split
  · exact hv _
  · exact hv _
  have hr := fun x l bs y => State.touchRecord_memWf (State.touchWalks_memWf (hv x) (s.part pid.toNat).tenant.toNat l) y none bs
  split
  · exact hr _ _ _ _
  · exact hr _ _ _ _
  · exact State.takeTask_memWf (hr _ _ _ _) _ _ _ _

theorem State.takeMessage_memWf (m : WolasMsg) : Memory.wf (Out.mem (s.takeMessage m)) = true := by
  unfold State.takeMessage; dsimp only
  split
  · exact execImgld_memWf h _ _ _ _
  split
  · exact execStart_memWf h _ _ _
  split
  · exact Memory.wf_of_eq (execCap_mem ..) h
  split
  · exact h
  split
  · exact Memory.wf_of_eq (execDebug_mem ..) h
  · exact h

theorem State.takePort_memWf (f : Flit) : Memory.wf (Out.mem (s.takePort f)) = true := by
  unfold State.takePort; dsimp only
  split
  · exact h
  split
  · exact State.takeMessage_memWf (by exact h) _
  · exact h

theorem execFlitReceive_memWf (link : BitVec 5) (f : Flit) : Memory.wf (Out.mem (execFlitReceive link f s)) = true := by
  unfold execFlitReceive; dsimp only
  split
  · exact h
  split
  · simp [h]
  split
  · simp [h]
  split
  · exact h
  split
  · exact State.takePort_memWf (by exact h) f
  · simp [h]

/-! ## Every instruction and event, and the parts of a cycle -/

/-- Whatever the instruction, event or row. The arms are in the order of `exec`; those that share a meaning up to its operands
share the lemma about it. -/
theorem exec_memWf (i : Instr) : Memory.wf (Out.mem (exec i s)) = true := by
  cases i with
  | nop | lbrk => exact Memory.wf_of_eq (State.done_mem ..) h
  | add | sub | and | or | xor | shl | shr | sar | min | max | minu | maxu | slt | sltu | seq | sel | addi | andi | ori | xori | shli |
    shri | sari | slti | sltui | li | clz | ctz | popc | brev | bext | bins | tstl | tider | tiderRaw =>
    exact Memory.wf_of_eq (State.result_mem ..) h
  | mul | mulh | mulhu | div | divu | rem | remu => exact Memory.wf_of_eq (State.longResult_mem ..) h
  | j | jal | jr => exact Memory.wf_of_eq (State.jump_mem ..) h
  | beq | bne | blt | bge | bltu | bgeu => exact Memory.wf_of_eq (State.branchIf_mem ..) h
  | loop | loopi => exact Memory.wf_of_eq (State.enterLoop_mem ..) h
  | ld => exact execLd_memWf h ..
  | st => exact Memory.wf_of_eq (execSt_mem ..) h
  | push => exact Memory.wf_of_eq (execPush_mem ..) h
  | pop => exact execPop_memWf h ..
  | gld | gst | gldi | amo | cas => exact Memory.wf_of_eq (State.access_mem ..) h
  | mvl => exact Memory.wf_of_eq (execMvl_mem ..) h
  | fence form scope mask => exact Memory.wf_of_eq (execFence_mem form scope mask s) h
  | sbar scope mask => exact Memory.wf_of_eq (execSbar_mem scope mask s) h
  | hld => exact Memory.wf_of_eq (execHld_mem ..) h
  | hst => exact Memory.wf_of_eq (execHst_mem ..) h
  | hset => exact Memory.wf_of_eq (execHset_mem ..) h
  | hget => exact Memory.wf_of_eq (execHget_mem ..) h
  | mdld => exact Memory.wf_of_eq (execMdld_mem ..) h
  | launch => exact execLaunch_memWf h ..
  | msg => exact execMsg_memWf h ..
  | msgDelivery => exact execMsgDelivery_memWf h ..
  | blk => exact Memory.wf_of_eq (execBlk_mem ..) h
  | fuse => exact Memory.wf_of_eq (execFuse_mem ..) h
  | fuseLive => exact Memory.wf_of_eq (execFuseLive_mem ..) h
  | route => exact Memory.wf_of_eq (execRoute_mem ..) h
  | bind => exact Memory.wf_of_eq (execBind_mem ..) h
  | nest => exact Memory.wf_of_eq (execNest_mem ..) h
  | bodyRowWord => exact Memory.wf_of_eq (execBodyRowWord_mem ..) h
  | bend => exact Memory.wf_of_eq (execBend_mem ..) h
  | bstamp => exact Memory.wf_of_eq (execBstamp_mem ..) h
  | bgo => exact Memory.wf_of_eq (execBgo_mem ..) h
  | bdrain => exact Memory.wf_of_eq (execBdrain_mem ..) h
  | brel => exact Memory.wf_of_eq (execBrel_mem ..) h
  | gtab => exact execGtab_memWf h ..
  | vtab => exact execVtab_memWf h ..
  | trd => exact execTrd_memWf h ..
  | tdisc => exact Memory.wf_of_eq (execTdisc_mem ..) h
  | iadd | isub | imul | imac | iand | ior | ixor | ishl | ishr | isar | imin | imax | icmp | isel | iabs | iclz | fadd | fsub | fmul |
    ffma | fmin | fmax | fcmp | fabs | frint | fexpf | fexpins | frcp | frsq | fcvt | fclass | fdot2 | hdr | iter | rq =>
    exact Memory.wf_of_eq (State.row32_mem ..) h
  | mov => exact Memory.wf_of_eq (State.emitResult_mem ..) h
  | nld => exact Memory.wf_of_eq (execNld_mem ..) h
  | nst | tacc | rnop | replayLanding | resultLanding | ckpt | bindRecordWrite | patrolScrub | attreq | byteBudgetWindow => exact h
  | send => exact Memory.wf_of_eq (execSend_mem ..) h
  | recv => exact Memory.wf_of_eq (execRecv_mem ..) h
  | tstep | spmx => exact Memory.wf_of_eq (State.startTile_mem ..) h
  | tstepStepRead => exact Memory.wf_of_eq (execTstepStepRead_mem ..) h
  | tstepContribution => exact Memory.wf_of_eq (execTstepContribution_mem ..) h
  | macf => exact Memory.wf_of_eq (execMacf_mem ..) h
  | dmac => exact Memory.wf_of_eq (execDmac_mem ..) h
  | bq => exact Memory.wf_of_eq (execBq_mem ..) h
  | bqBlockWrite | rankPacketWrite => exact State.makeWrites_memWf h ..
  | trdl => exact Memory.wf_of_eq (execTrdl_mem ..) h
  | rank => exact Memory.wf_of_eq (execRank_mem ..) h
  | racc => exact Memory.wf_of_eq (execRacc_mem ..) h
  | rval => exact Memory.wf_of_eq (execRval_mem ..) h
  | setq => exact Memory.wf_of_eq (execSetq_mem ..) h
  | elementResultLanding => exact Memory.wf_of_eq (State.landElem_mem ..) h
  | portDelayExit => exact Memory.wf_of_eq (State.exitElem_mem ..) h
  | edgeFeed => exact Memory.wf_of_eq (execEdgeFeed_mem ..) h
  | tcopy => exact execTcopy_memWf h ..
  | tcopyc => exact execTcopyc_memWf h ..
  | tfill => exact execTfill_memWf h ..
  | sgath => exact execSgath_memWf h ..
  | sscat => exact execSscat_memWf h ..
  | sscata => exact execSscata_memWf h ..
  | sisect => exact execSisect_memWf h ..
  | prune => exact execPrune_memWf h ..
  | chain => exact execChain_memWf h ..
  | chainToken => exact Memory.wf_of_eq (execChainToken_mem ..) h
  | cplarm | cpltest | barinit | bararr | cplsig => exact State.issueCpl_memWf h ..
  | cplwait => exact execCplwait_memWf h ..
  | cplwaitEnd => exact execCplwaitEnd_memWf h ..
  | barwait => exact execBarwait_memWf h ..
  | barwaitEnd => exact execBarwaitEnd_memWf h ..
  | coll => exact execColl_memWf h ..
  | collHeaderMatch => exact execCollHeaderMatch_memWf h ..
  | rput => exact execRput_memWf h ..
  | rget => exact execRget_memWf h ..
  | rpeek => exact execRpeek_memWf h ..
  | evict => exact execEvict_memWf h ..
  | pref => exact execPref_memWf h ..
  | queueEntryFree => exact Memory.wf_of_eq (execQueueEntryFree_mem ..) h
  | engineAccept => exact execEngineAccept_memWf h ..
  | engineBindingSlotReady => exact execEngineBindingSlotReady_memWf h ..
  | engineWritePerformed => exact State.performUnits_memWf h ..
  | engineComplete => exact execEngineComplete_memWf h ..
  | trap => exact Memory.wf_of_eq (State.enterTrap_mem ..) h
  | brk => exact Memory.wf_of_eq (execBrk_mem ..) h
  | rft => exact Memory.wf_of_eq (execRft_mem ..) h
  | landingArrival => exact execLandingArrival_memWf h ..
  | sysr => exact Memory.wf_of_eq (execSysr_mem ..) h
  | sysw => exact Memory.wf_of_eq (execSysw_mem ..) h
  | halt => exact Memory.wf_of_eq (execHalt_mem ..) h
  | haltResume => exact execHaltResume_memWf h ..
  | waite => exact Memory.wf_of_eq (execWaite_mem ..) h
  | waiteEnd => exact Memory.wf_of_eq (execWaiteEnd_mem ..) h
  | dictld => exact execDictld_memWf h ..
  | tidew => exact Memory.wf_of_eq (execTidew_mem ..) h
  | domainStall => exact Memory.wf_of_eq (execDomainStall_mem ..) h
  | markRelease => exact Memory.wf_of_eq (execMarkRelease_mem ..) h
  | phase => exact execPhase_memWf h ..
  | yield => exact execYield_memWf h ..
  | exit => exact execExit_memWf h ..
  | flushi => exact execFlushi_memWf h ..
  | ecall => exact Memory.wf_of_eq (execEcall_mem ..) h
  | ecallAnswer => exact Memory.wf_of_eq (execEcallAnswer_mem ..) h
  | dispatchTake => exact execDispatchTake_memWf h ..
  | contextStart => exact Memory.wf_of_eq (execContextStart_mem ..) h
  | lateStart => exact Memory.wf_of_eq (execLateStart_mem ..) h
  | nextInstanceLoad => exact execNextInstanceLoad_memWf h ..
  | translatorBuild => exact execTranslatorBuild_memWf h ..
  | haltRequest => exact Memory.wf_of_eq (execHaltRequest_mem ..) h
  | haltPoint => exact execHaltPoint_memWf h ..
  | haltComplete => exact execHaltComplete_memWf h ..
  | save => exact execSave_memWf h ..
  | swap => exact execSwap_memWf h ..
  | resumption => exact State.resume_memWf h ..
  | softRequest => exact Memory.wf_of_eq (execSoftRequest_mem ..) h
  | graceExpiry => exact Memory.wf_of_eq (execGraceExpiry_mem ..) h
  | killExpiry => exact execKillExpiry_memWf h ..
  | thermalEmergency => exact Memory.wf_of_eq (execThermalEmergency_mem ..) h
  | hardTrip => rfl
  | uncorrectableError => exact execUncorrectableError_memWf h ..
  | correctableError => exact Memory.wf_of_eq (execCorrectableError_mem ..) h
  | tenantChangeWipe => exact execTenantChangeWipe_memWf h ..
  | scrubLine => exact execScrubLine_memWf h ..
  | dlogRoundEnd => exact execDlogRoundEnd_memWf h ..
  | einjWrite => exact Memory.wf_of_eq (execEinjWrite_mem ..) h
  | errorLogClear => exact Memory.wf_of_eq (execErrorLogClear_mem ..) h
  | pwrdomWrite => exact Memory.wf_of_eq (State.retarget_mem ..) h
  | registerWrite => exact execRegisterWrite_memWf h ..
  | lifeCycleChange => exact execLifeCycleChange_memWf h ..
  | replicaCommit => exact execReplicaCommit_memWf h ..
  | replicaUnlock => exact execReplicaUnlock_memWf h ..
  | mergeGroupSend => exact execMergeGroupSend_memWf h ..
  | orderedFadd => exact execOrderedFadd_memWf h ..
  | tideSample => exact Memory.wf_of_eq (execTideSample_mem ..) h
  | sluiceSlotArrival => exact Memory.wf_of_eq (execSluiceSlotArrival_mem ..) h
  | stageMove => exact Memory.wf_of_eq (execStageMove_mem ..) h
  | sluicePositionFree => exact Memory.wf_of_eq (execSluicePositionFree_mem ..) h
  | flitReceive => exact execFlitReceive_memWf h ..
  | flitReplay => exact Memory.wf_of_eq (execFlitReplay_mem ..) h
  | remoteRequest => exact execRemoteRequest_memWf h ..
  | linkTimeout => exact execLinkTimeout_memWf h ..
  | imgld => exact execImgld_memWf h ..
  | start => exact execStart_memWf h ..
  | cap => exact Memory.wf_of_eq (execCap_mem ..) h
  | leaseExpiry => exact Memory.wf_of_eq (execLeaseExpiry_mem ..) h
  | debug => exact Memory.wf_of_eq (execDebug_mem ..) h
  | fllStep => exact Memory.wf_of_eq (execFllStep_mem ..) h
  | voltageMoveEnd => exact Memory.wf_of_eq (execVoltageMoveEnd_mem ..) h
  | powerWindow => exact Memory.wf_of_eq (execPowerWindow_mem ..) h
  | powerOnReset => exact execPowerOnReset_memWf h ..
  | linkRetrain => exact Memory.wf_of_eq (execLinkRetrain_mem ..) h
  | instanceEnd => exact execInstanceEnd_memWf h ..
  | managementCoreAccess => exact execManagementCoreAccess_memWf h ..
  | remapTableChange => exact Memory.wf_of_eq (execRemapTableChange_mem ..) h
  | endpointDirectoryUpdate => exact Memory.wf_of_eq (execEndpointDirectoryUpdate_mem ..) h
  | dictldComplete => exact execDictldComplete_memWf h ..
  | flushiComplete => exact execFlushiComplete_memWf h ..

theorem State.after_memWf {o : Out} (ho : Memory.wf (Out.mem o) = true) : Memory.wf (s.after o).mem = true := by
  cases o with
  | next t => exact ho
  | fault r => exact h
  | refused r => exact h

theorem State.issueFetched_memWf : Memory.wf (Out.mem s.issueFetched) = true := by
  unfold State.issueFetched; (repeat' split)
  · simp [h]
  · simp [h]
  · exact exec_memWf h _

theorem State.contextCycle_memWf (c : Nat) : Memory.wf (Out.mem (s.contextCycle c)) = true := by
  unfold State.contextCycle; dsimp only; (repeat' split) <;> simp [State.issueFetched_memWf, h]

theorem State.issueRow_memWf (c key j iter w : Nat) (b : Block) (r : BlkRun) (e : Nat) :
    Memory.wf (State.issueRow c key j iter w b r s e).mem = true := by
  unfold State.issueRow; dsimp only; split
  · exact h
  · exact State.after_memWf (by exact h) (exec_memWf (by exact h) _)

theorem State.blockRows_memWf (c key : Nat) : Memory.wf (State.blockRows c s key).mem = true := by
  unfold State.blockRows; dsimp only; (repeat' split)
  · exact h
  · exact h
  · exact State.foldl_memWf (fun _ _ ht => State.issueRow_memWf ht _ _ _ _ _ _ _ _) _ h

theorem State.kernelCycle_memWf (c : Nat) : Memory.wf (s.kernelCycle c).mem = true := by
  have hrows : ∀ (l : List Nat) (t : State), Memory.wf t.mem = true → Memory.wf (l.foldl (State.blockRows c) t).mem = true :=
    fun l t ht => State.foldl_memWf (fun _ _ hu => State.blockRows_memWf hu c _) l ht
  unfold State.kernelCycle; dsimp only; split <;> simp [hrows, h]

/-- The rows of a context that meets a fault are thrown away: then the state before them stays, with its memory (R178). -/
theorem State.kernelPhase_memWf : Memory.wf s.kernelPhase.mem = true := by
  unfold State.kernelPhase; dsimp only
  rw [State.foldl_mem fun _ _ => State.strike_mem _ _ _]
  refine State.foldl_memWf (fun t c ht => ?_) _ h
  (repeat' split)
  · exact ht
  · exact State.kernelCycle_memWf ht c
  · rwa [State.strike_mem]

theorem State.endFabric_memWf : Memory.wf s.endFabric.mem = true := by
  unfold State.endFabric; split <;> simp [State.kernelPhase_memWf, h]

/-- The invariant that O10 states, over every part of a fabric cycle. -/
theorem State.advancePart_memWf : Memory.wf (Out.mem s.advancePart) = true := by
  unfold State.advancePart; (repeat' split)
  · exact exec_memWf (by exact h) _
  · exact State.endFabric_memWf h
  · exact State.beginCycle_memWf h
  · exact State.contextCycle_memWf (by exact h) _
  · exact State.endFabric_memWf h

end

/-! ## The obligations -/

/-- Settles O10: a step is one part of a fabric cycle, and each part keeps memory canonical. -/
theorem stepKeepsMemoryCanonical : Obligations.StepKeepsMemoryCanonical := by
  unfold Obligations.StepKeepsMemoryCanonical
  intro s t hs ht
  have hn := State.advancePart_memWf hs
  rwa [show s.advancePart = .next t from ht] at hn

/-- Settles O8, by the four branches of `State.advancePart`. -/
theorem stepRunsTheDueEvent : Obligations.StepRunsTheDueEvent := by
  unfold Obligations.StepRunsTheDueEvent
  intro s
  refine ⟨fun i rest ha => ?_, fun ha hp hb => ?_, fun ha hp hb ht => ?_, fun ha hp => ?_⟩
  · simp [step, State.advancePart, ha]
  · simp [step, State.advancePart, ha, hp, hb]
  · simp [step, State.advancePart, ha, hp, hb, ht]
  · simp [step, State.advancePart, State.endFabric, ha, hp]

end Sys2Proof.Machine
end

/-! # A row entry decodes to the row that it encodes (O2) -/

section
namespace Sys2Proof

/-! ## Readers of one field of a row -/

theorem ffmt_low_ffmtCode (f : FFmt) (k : FFmt → Dec) : ffmt (0#2 ++ (ffmtCode f).extractLsb' 0 2) k = k f := by cases f <;> rfl

theorem wsrcO_none (k : Option Src → Dec) : wsrcO (srcCodeO none) k = k none := rfl

theorem wsrcO_some {a : Src} (h : wide a = true) (k : Option Src → Dec) :
    wsrcO (srcCodeO (some a)) k = k (some a) := by
  rw [srcCodeO, wsrcO, if_neg (by simpa using srcCode_ne a), wsrc_srcCode h]

theorem lane7_srcCode (t : BitVec 3) (k : BitVec 3 → Dec) : lane7 (srcCode (.lane t)) k = k t := by
  have h1 : (srcCode (.lane t)).extractLsb' 3 4 = 4 := (extract_high _ t 3 4 (by decide)).trans (extract_all _)
  have h2 : (srcCode (.lane t)).extractLsb' 0 3 = t := (extract_low _ t 0 3 (by decide)).trans (extract_all _)
  unfold lane7; rw [h1, h2]; rfl

/-! ## Rows -/

theorem decodeRow_encodeRow (i : Instr) (e : RowEntry) (hw : wfRow i = true) (h : encodeRow i = some e) : decodeRow e = .ok i := by
  cases i <;> cases h <;> unfold wfRow at hw <;> dsimp only [Bool.and_eq_true] at hw
  case rnop => rfl
  case tstep | spmx =>
    rw [decodeRow]
    change lane _ _ = _
    simp (disch := decide) only [extract_high, extract_low, extract_all, bit_high, bit_low]
    simp_all [need, lane_laneCode]
  all_goals rw [decodeRow, fE_wRow]
  case iadd | isub | imul | iand | ior | ixor | ishl | ishr | isar | hdr | imac | isel | iabs | iclz =>
    change dst _ _ = _
    simp [need, dst_dstCode, src_srcCode, hw]
  case icmp =>
    change icond _ _ = _
    simp [need, icond_icondCode, dst_dstCode, src_srcCode, hw]
  case imin | imax =>
    change dst _ _ = _
    simp (disch := decide) only [extract_high, bit_low, bit_ofBool]
    simp [need, dst_dstCode, src_srcCode, hw]
  case mov | recv | nld | nst =>
    change wid _ _ = _
    simp (disch := decide) only [extract_high, extract_low, extract_all, bit_high, bit_low]
    simp_all [need, wid_widCode, dst_dstCode, src_srcCode]
  case send =>
    change wid _ _ = _
    simp (disch := decide) only [extract_high, extract_low, extract_all, bit_high, bit_low]
    simp [need, wid_widCode, fsrc_srcCode, hw]
  case fadd | fsub | fmul | ffma | frint | frcp | frsq | fmin | fmax | fabs | fclass | fcmp =>
    change ffmt _ _ = _
    simp (disch := decide) only [extract_high, extract_low, extract_all]
    simp_all [need, ffmt_ffmtCode, rmOf_rmCode, fcondOf_fcondCode, dst_dstCode, fsrc_srcCode]
  case fexpf =>
    change dst _ _ = _
    simp [need, dst_dstCode, fsrc_srcCode, hw]
  case rval =>
    change dst _ _ = _
    simp (disch := decide) only [extract_high, extract_low, extract_all, bit_high, bit_low, bit_ofBool]
    simp_all [need, dst_dstCode, fsrc_srcCode]
  case fexpins | fcvt =>
    change rmOf _ _ = _
    simp (disch := decide) only [extract_high, extract_low, extract_all]
    simp_all [need, rmOf_rmCode, cvtFmt_cvtCode, dst_dstCode, fsrc_srcCode]
  case fdot2 bf rm d a b c =>
    change rmOf _ _ = _
    simp (disch := decide) only [extract_high, extract_low, extract_all]
    cases bf <;> simp_all [need, rmOf_rmCode, dst_dstCode, fsrc_srcCode]
  case iter d sel =>
    have hsel : ∀ x : BitVec 3, x ≠ 7 → (0 : BitVec 9) ++ x ≠ 7 := by decide
    change dst _ _ = _
    simp (disch := decide) only [extract_high, extract_low, extract_all]
    simp_all [need, dst_dstCode]
  case macf wr d a b | dmac wr d a b =>
    change dst _ _ = _
    simp (disch := decide) only [extract_high, bit_low, bit_ofBool]
    cases b <;> simp_all [need, dst_dstCode, wsrc_srcCode, wsrcO_none, wsrcO_some]
  case rq =>
    change dst _ _ = _
    simp (disch := decide) only [extract_high, extract_low, extract_all, bit_high, bit_low, bit_ofBool]
    simp_all [need, dst_dstCode, src_srcCode]
  case bq =>
    change fsrc _ _ = _
    simp (disch := decide) only [extract_high, extract_low, extract_all]
    simp_all [need, fsrc_srcCode, ffmt_low_ffmtCode]
  case tacc =>
    change lane _ _ = _
    simp (disch := decide) only [extract_high, extract_low, extract_all]
    simp [need, lane_laneCode, wsrc_srcCode, hw]
  case trdl =>
    change trdlForm _ _ = _
    simp [need, trdlForm_trdlCode, dst_dstCode, lane7_srcCode, hw]
  case rank =>
    change keyFmt _ _ = _
    simp (disch := decide) only [extract_high, extract_low, extract_all, bit_high]
    simp_all [need, keyFmt_keyCode]
  case racc =>
    change lane _ _ = _
    simp (disch := decide) only [extract_high, extract_low, extract_all, bit_high, bit_low, bit_ofBool]
    simp_all [need, lane_laneCode, fsrc_srcCode]
  case setq fm a =>
    change setqForm _ _ = _
    cases a <;> simp_all [need, setqForm_setqCode, wsrcO_none, wsrcO_some]

/-- Settles O2, row by row: each field that the decoder reads is the field that the encoder wrote. -/
theorem rowEntriesRoundTrip : Obligations.RowEntriesRoundTrip := decodeRow_encodeRow

end Sys2Proof
end

/-! # A word decodes to the instruction that it encodes (O1) -/

section
namespace Sys2Proof

/-! ## Readers of several fields of a word -/

theorem decodeBind_bindPayload (b : BindSpec) (k : BindSpec → Dec) : decodeBind (bindMod b) (bindPayload b) k = k b := by
  cases b
  all_goals
    simp (disch := decide) only [decodeBind, bindMod, bindPayload, extract_high, extract_low, extract_all, bit_high, bit_low,
      BitVec.ofNat_eq_ofNat, BitVec.reduceToNat]
    simp [dirOf_dirCode]

theorem engEnds_endsCode {s d : EngEnd} (hs : engEndOk s = true) (hd : engEndOk d = true) (x : BitVec 24) (k : EngEnd → EngEnd → Dec) :
    engEnds (x ++ endsCode s d) k = k s d := by
  simp (disch := decide) only [engEnds, endsCode, extract_high, extract_low, extract_all, bit_high, bit_low]
  simp [hs, hd]

theorem mod_of_loadOk : ∀ {sz : BitVec 2} {zx : Bool}, loadOk sz zx = true → 0#1 ++ BitVec.ofBool zx ++ sz ≠ 7#4 := by decide

theorem low_mod_of_loadOk : ∀ {sz : BitVec 2} {zx : Bool} (b : Bool), loadOk sz zx = true →
    (BitVec.ofBool b ++ BitVec.ofBool zx ++ sz).extractLsb' 0 3 ≠ 7#3 := by decide

theorem space_of_sieveOk {n : Nat} (x : BitVec n) {t : BitVec 2} (h : sieveOk t = true) :
    (x ++ 0#1 ++ t).extractLsb' 1 2 = 1#2 := by
  have ht : ∀ t : BitVec 2, sieveOk t = true → t.getLsbD 1 = true := by decide
  apply BitVec.eq_of_getLsbD_eq
  intro i hi
  interval_cases i
  · rw [BitVec.getLsbD_extractLsb', bit_low _ _ _ (by decide), ht t h]; rfl
  · rw [BitVec.getLsbD_extractLsb', bit_high _ _ _ (by decide), bit_low _ _ _ (by decide)]; rfl

/-! ## The words of one format -/

/-- The M words (R59). -/
def isMemWord : Instr → Bool
  | .ld .. | .st .. | .push .. | .pop .. | .gld .. | .gst .. | .gldi .. | .mvl .. | .tstl .. | .amo .. | .cas .. | .hld .. | .hst ..
  | .mdld .. => true
  | _ => false

/-- The C words (R59). -/
def isCfgWord : Instr → Bool
  | .blk .. | .fuse .. | .fuseLive .. | .route .. | .bind .. | .nest .. | .bend .. | .bstamp .. | .bgo .. | .bdrain .. | .brel ..
  | .gtab .. | .vtab .. | .trd .. | .tdisc .. => true
  | _ => false

/-- The G words (R59). -/
def isEngWord : Instr → Bool
  | .tcopy .. | .tcopyc .. | .tfill .. | .sgath .. | .sscat .. | .sscata .. | .sisect .. | .prune .. | .chain .. | .cplarm ..
  | .cplwait .. | .cpltest .. | .barinit .. | .bararr .. | .barwait .. | .cplsig .. | .coll .. | .rput .. | .rget .. | .rpeek ..
  | .evict .. | .pref .. => true
  | _ => false

theorem decodeWord_encodeWord_mem {i : Instr} {w : IWord} (hi : isMemWord i = true) (hw : wf i = true)
    (h : encodeWord i = some w) : decodeWord w = .ok i := by
  cases i <;> cases hi <;> cases h <;> rw [decodeWord, op_wM, fM_wM]
  case push | pop | mvl | tstl => rfl
  case ld sp sz zx rd base off =>
    change lspace _ _ = _
    rw [lspace_lspaceCode]
    simp (disch := decide) only [extract_high, extract_low, extract_all, bit_high, bit_low, Nat.reduceSub, bit_ofBool]
    exact if_pos (by simp [mod_of_loadOk (show loadOk sz zx = true from hw)])
  case st =>
    change lspace _ _ = _
    rw [lspace_lspaceCode]
    simp (disch := decide) only [extract_high, extract_low, extract_all]
    rfl
  case gld sp sz zx acq ln base off g =>
    change gspace _ _ = _
    rw [gspace_gspaceCode]
    simp (disch := decide) only [extract_low, extract_all, bit_high, bit_low, Nat.reduceSub, bit_ofBool]
    exact if_pos (by simp [low_mod_of_loadOk acq (show loadOk sz zx = true from hw)])
  case gldi sp sz zx ln base off g =>
    change gspace _ _ = _
    rw [gspace_gspaceCode]
    simp (disch := decide) only [extract_high, extract_low, extract_all, bit_high, bit_low, Nat.reduceSub, bit_ofBool]
    exact if_pos (by simp [mod_of_loadOk (show loadOk sz zx = true from hw)])
  case gst | hld | hst | mdld =>
    change gspace _ _ = _
    rw [gspace_gspaceCode]
    simp (disch := decide) only [extract_high, extract_low, extract_all, bit_high, Nat.reduceSub, bit_ofBool]
    rfl
  case amo =>
    change gspace _ _ = _
    rw [gspace_gspaceCode]
    simp (disch := decide) only [extract_high, extract_low, extract_all, bit_low, Nat.reduceSub, bit_ofBool]
    rw [amoOp_amoCode]
    exact if_pos hw
  case cas =>
    change gspace _ _ = _
    rw [gspace_gspaceCode]
    simp (disch := decide) only [extract_high, extract_low, extract_all, bit_low, Nat.reduceSub, bit_ofBool]
    exact if_pos hw

theorem decodeWord_encodeWord_cfg {i : Instr} {w : IWord} (hi : isCfgWord i = true) (hw : wf i = true)
    (h : encodeWord i = some w) : decodeWord w = .ok i := by
  cases i
  case nest m id n =>
    cases n <;> cases h <;> rw [decodeWord, op_wC, fC_wC]
    · rfl
    · change need _ _ _ = _
      simp (disch := decide) only [extract_high, extract_low, extract_all, Nat.reduceSub]
      rfl
  all_goals cases hi <;> cases h <;> rw [decodeWord, op_wC, fC_wC]
  case bdrain | brel => rfl
  case blk | bend | bgo | gtab | vtab | trd | tdisc | fuseLive =>
    change need _ _ _ = _
    simp (disch := decide) only [extract_high, extract_low, extract_all, bit_low, bit_ofBool, Nat.reduceSub]
    rfl
  case bstamp =>
    change need _ _ _ = _
    simp (disch := decide) only [extract_high, extract_low, extract_all, Nat.reduceSub]
    exact if_pos hw
  case fuse =>
    change need _ _ _ = _
    simp (disch := decide) only [extract_high, extract_low, extract_all, Nat.reduceSub]
    exact if_pos hw
  case route =>
    change routePart _ _ = _
    simp (disch := decide) only [extract_high, extract_low, extract_all, Nat.reduceSub, routePart_routeCode]
    exact if_pos hw
  case bind => exact decodeBind_bindPayload _ _

theorem decodeWord_encodeWord_eng {i : Instr} {w : IWord} (hi : isEngWord i = true) (hw : wf i = true)
    (h : encodeWord i = some w) : decodeWord w = .ok i := by
  cases i <;> cases hi <;> cases h <;> rw [decodeWord, op_wG, fG_wG]
  case cplwait =>
    rfl
  case tcopy h s d =>
    obtain ⟨hs, hd⟩ : engEndOk s = true ∧ engEndOk d = true := Bool.and_eq_true_iff.mp hw
    change engEnds _ _ = _
    rw [engEnds_endsCode hs hd]
    simp (disch := decide) only [extract_high, Nat.reduceSub]
    rfl
  case tcopyc h s d rm xr =>
    obtain ⟨hs, hd⟩ : engEndOk s = true ∧ engEndOk d = true := Bool.and_eq_true_iff.mp hw
    change engEnds _ _ = _
    rw [engEnds_endsCode hs hd]
    simp (disch := decide) only [extract_high, extract_low, extract_all, Nat.reduceSub]
    rw [rmOf_rmCode]
    rfl
  case tfill h d rv =>
    obtain ⟨hd, hh⟩ : engEndOk d = true ∧ (h.ha == 0) = true := Bool.and_eq_true_iff.mp hw
    change engEnds _ _ = _
    rw [engEnds_endsCode (by rfl) hd]
    simp (disch := decide) only [extract_high, extract_low, extract_all, Nat.reduceSub]
    exact if_pos (by simpa [FG.m0] using hh)
  case sgath | sscat | sscata =>
    change need _ _ _ = _
    simp (disch := decide) only [extract_high, extract_low, extract_all, Nat.reduceSub]
    exact if_pos (by simp [FG.m0, space_of_sieveOk _ hw])
  case sisect h emit asp bsp ro osp =>
    change need _ _ _ = _
    simp (disch := decide) only [extract_high, extract_low, extract_all, bit_low, Nat.reduceSub, bit_ofBool]
    exact if_pos hw
  case prune =>
    change need _ _ _ = _
    simp (disch := decide) only [extract_high, extract_low, extract_all, Nat.reduceSub]
    exact if_pos hw
  case chain | cplarm | cpltest | bararr | barinit | barwait | cplsig | rput | rget | rpeek | evict | pref =>
    change need _ _ _ = _
    simp (disch := decide) only [extract_high, extract_low, extract_all, bit_high, bit_low, Nat.reduceSub, bit_ofBool]
    rfl
  case coll =>
    change collKind _ _ = _
    simp (disch := decide) only [extract_high, extract_low, extract_all, Nat.reduceSub]
    rw [collKind_collKindCode, collOp_collOpCode]
    exact if_pos hw

/-! ## Row words, and the other words of the R format -/

theorem op_loopi (n : BitVec 16) (d : Word) :
    ((0x32 : BitVec 8) ++ (0 : BitVec 4) ++ n ++ (0 : BitVec 4) ++ d).extractLsb' 88 8 = 0x32 := by
  simp (disch := decide) only [extract_high, Nat.reduceSub]
  rfl

theorem rowWord_append (r : RowWord) : rowWord (r.ent.op ++ r.ent.mod ++ r.cols ++ r.rows ++ r.idx ++ r.ent.bits) = r := by
  simp (disch := decide) only [rowWord, extract_high, extract_low, extract_all, Nat.reduceSub]

theorem op_row_of_decodeRow {e : RowEntry} {i : Instr} (h : decodeRow e = .ok i) : 0x80 ≤ e.op.toNat ∧ e.op.toNat ≤ 0xB9 := by
  unfold decodeRow at h
  dsimp only at h
  split at h
  any_goals omega
  cases h

/-- A word whose OP is one of the rows' decodes to a row word when its entry decodes. -/
theorem decodeWord_row {w : IWord} (h : 0x80 ≤ (w.extractLsb' 88 8).toNat ∧ (w.extractLsb' 88 8).toNat ≤ 0xB9) :
    decodeWord w = (decodeRow (rowWord w).ent).bind fun _ => .ok (.bodyRowWord (rowWord w)) := by
  unfold decodeWord
  dsimp only
  split
  any_goals omega
  rw [if_pos h]
  cases decodeRow (rowWord w).ent <;> rfl

theorem decodeWord_bodyRowWord {r : RowWord} (hw : wf (.bodyRowWord r) = true) :
    decodeWord (r.ent.op ++ r.ent.mod ++ r.cols ++ r.rows ++ r.idx ++ r.ent.bits) = .ok (.bodyRowWord r) := by
  have hr : rowWord _ = r := rowWord_append r
  change (match decodeRow r.ent with | .ok _ => true | .error _ => false) = true at hw
  cases hd : decodeRow r.ent with
  | error e => simp [hd] at hw
  | ok i =>
    have hop : BitVec.extractLsb' 88 8 (r.ent.op ++ r.ent.mod ++ r.cols ++ r.rows ++ r.idx ++ r.ent.bits) = r.ent.op :=
      congrArg (·.ent.op) hr
    rw [decodeWord_row (by rw [hop]; exact op_row_of_decodeRow hd), hr, hd]
    rfl

theorem decodeWord_encodeWord_reg {i : Instr} {w : IWord} (hm : isMemWord i = false) (hc : isCfgWord i = false)
    (he : isEngWord i = false) (hw : wf i = true) (h : encodeWord i = some w) : decodeWord w = .ok i := by
  cases i <;> cases hm <;> cases hc <;> cases he <;> cases h
  case bodyRowWord r => exact decodeWord_bodyRowWord hw
  case loopi n d =>
    rw [decodeWord, op_loopi]
    change need _ _ _ = _
    simp (disch := decide) only [fR, extract_high, extract_low, extract_all, Nat.reduceSub]
    rfl
  all_goals rw [decodeWord, op_wR, fR_wR]
  case shli | shri | sari | sysr | sysw | phase | ckpt | ecall =>
    change need _ _ _ = _
    simp (disch := decide) only [extract_high, extract_low, extract_all, Nat.reduceSub]
    rfl
  case bext sx rd ra rb =>
    change need _ _ _ = _
    simp (disch := decide) only [extract_high, Nat.reduceSub]
    cases sx <;> rfl
  case waite rd ra mask =>
    have hmask : (0#54 ++ mask == 0#64) = (mask == 0#10) := by
      rw [Bool.eq_iff_iff, beq_iff_eq, beq_iff_eq]; exact BitVec.append_right_inj 0#54 (t₂ := 0#10)
    change need _ _ _ = _
    simp (disch := decide) only [extract_high, extract_low, extract_all, Nat.reduceSub, BitVec.ofNat_eq_ofNat, hmask]
    exact if_pos hw
  case fence =>
    change fenceForm _ _ = _
    rw [fenceForm_fenceCode]
    simp (disch := decide) only [extract_high, extract_low, extract_all, Nat.reduceSub]
    rw [scope_scopeCode]
    rfl
  case sbar =>
    change scope _ _ = _
    simp (disch := decide) only [extract_high, extract_low, extract_all, Nat.reduceSub]
    rw [scope_scopeCode]
    rfl
  -- Every other word is read field by field, as a whole.
  all_goals rfl

theorem decodeWord_encodeWord (i : Instr) (w : IWord) (hw : wf i = true) (h : encodeWord i = some w) : decodeWord w = .ok i := by
  cases hm : isMemWord i with
  | true => exact decodeWord_encodeWord_mem hm hw h
  | false =>
    cases hc : isCfgWord i with
    | true => exact decodeWord_encodeWord_cfg hc hw h
    | false =>
      cases he : isEngWord i with
      | true => exact decodeWord_encodeWord_eng he hw h
      | false => exact decodeWord_encodeWord_reg hm hc he hw h

/-- Settles O1, format by format: each field that the decoder reads is the field that the encoder wrote. -/
theorem sequencerWordsRoundTrip : Obligations.SequencerWordsRoundTrip := decodeWord_encodeWord

end Sys2Proof
end

/-! # A word that decodes is the one encoding of its instruction (O3) -/

section
namespace Sys2Proof

/-! ## Two fields side by side are one field of the word -/

theorem const_join {l n m k : Nat} {x : BitVec l} {c : BitVec n} (h : x.extractLsb' (k + m) n = c) :
    c ++ x.extractLsb' k m = x.extractLsb' k (n + m) := by
  rw [← h, BitVec.extractLsb'_append_extractLsb'_eq_extractLsb' rfl]

theorem join_const {l n m j : Nat} {x : BitVec l} {c : BitVec m} (hj : m ≤ j) (h : x.extractLsb' (j - m) m = c) :
    x.extractLsb' j n ++ c = x.extractLsb' (j - m) (n + m) := by
  rw [← h, BitVec.extractLsb'_append_extractLsb'_eq_extractLsb' (by omega)]

theorem const_const_join {l n m k o : Nat} {x : BitVec l} {a : BitVec n} {b : BitVec o} (ha : x.extractLsb' (k + m + o) n = a)
    (hb : x.extractLsb' (k + m) o = b) :
    a ++ b ++ x.extractLsb' k m = x.extractLsb' k (n + o + m) := by
  rw [← ha, ← hb, BitVec.extractLsb'_append_extractLsb'_eq_extractLsb' rfl, BitVec.extractLsb'_append_extractLsb'_eq_extractLsb' rfl]

theorem ofBool_getLsbD {l : Nat} (x : BitVec l) (k : Nat) : BitVec.ofBool (x.getLsbD k) = x.extractLsb' k 1 := by
  rw [BitVec.getLsbD_eq_extractLsb']
  generalize x.extractLsb' k 1 = b
  revert b; decide

theorem bit_false {l : Nat} (x : BitVec l) (k : Nat) : x.getLsbD k = false ↔ x.extractLsb' k 1 = 0#1 := by
  rw [BitVec.getLsbD_eq_extractLsb']
  generalize x.extractLsb' k 1 = b
  revert b; decide

theorem bit_true {l : Nat} (x : BitVec l) (k : Nat) : x.getLsbD k = true ↔ x.extractLsb' k 1 = 1#1 := by
  rw [BitVec.getLsbD_eq_extractLsb']
  generalize x.extractLsb' k 1 = b
  revert b; decide

/-! ## The fields of a format make up the word -/

theorem wR_fR (w : IWord) : wR (w.extractLsb' 88 8) (fR w).mod (fR w).rd (fR w).ra (fR w).rb (fR w).rc (fR w).imm = w := by
  simp (disch := rfl) only [wR, fR, const_join, extract_all]

theorem wM_fM {w : IWord} (hz : (fM w).z = 0) :
    wM (w.extractLsb' 88 8) (fM w).mod (fM w).d (fM w).base (fM w).g (fM w).ln (fM w).sp (fM w).off = w := by
  replace hz : w.extractLsb' 64 2 = 0 := hz
  simp (disch := simp [hz]) only [wM, fM, join_const, const_join, extract_all]

theorem wC_fC (w : IWord) : wC (w.extractLsb' 88 8) (fC w).mod (fC w).m (fC w).id (fC w).p = w := by
  simp (disch := rfl) only [wC, fC, const_join, extract_all]

theorem wG_fG {w : IWord} (hz : (fG w).z = 0) :
    wG (w.extractLsb' 88 8) (fG w).rel (fG w).mod (fG w).ha (fG w).hb (fG w).rc (fG w).st (fG w).p = w := by
  replace hz : w.extractLsb' 64 7 = 0 := hz
  simp (disch := simp [hz]) only [wG, fG, ofBool_getLsbD, join_const, const_join, extract_all]

/-! A word is the one that its OP and its fields make. -/

section
variable {w : IWord} {op : BitVec 8}

theorem wR_eq {mod rd ra rb rc imm} (hop : (w.extractLsb' 88 8).toNat = op.toNat) (hmod : (fR w).mod = mod)
    (hrd : (fR w).rd = rd) (hra : (fR w).ra = ra) (hrb : (fR w).rb = rb) (hrc : (fR w).rc = rc) (himm : imm = (fR w).imm) :
    wR op mod rd ra rb rc imm = w := by
  rw [← BitVec.eq_of_toNat_eq hop, ← hmod, ← hrd, ← hra, ← hrb, ← hrc, himm, wR_fR]

theorem wM_eq {mod d base g ln sp off} (hop : (w.extractLsb' 88 8).toNat = op.toNat) (hmod : mod = (fM w).mod)
    (hd : d = (fM w).d) (hbase : (fM w).base = base) (hg : (fM w).g = g) (hln : (fM w).ln = ln) (hsp : (fM w).sp = sp)
    (hoff : off = (fM w).off) (hz : (fM w).z = 0) : wM op mod d base g ln sp off = w := by
  rw [← BitVec.eq_of_toNat_eq hop, hmod, hd, ← hbase, ← hg, ← hln, ← hsp, hoff, wM_fM hz]

theorem wC_eq {mod m id p} (hop : (w.extractLsb' 88 8).toNat = op.toNat) (hmod : mod = (fC w).mod) (hm : (fC w).m = m)
    (hid : (fC w).id = id) (hp : p = (fC w).p) : wC op mod m id p = w := by
  rw [← BitVec.eq_of_toNat_eq hop, hmod, ← hm, ← hid, hp, wC_fC]

theorem wG_eq {rel mod ha hb rc st p} (hop : (w.extractLsb' 88 8).toNat = op.toNat) (hrel : (fG w).rel = rel)
    (hmod : mod = (fG w).mod) (hha : (fG w).ha = ha) (hhb : (fG w).hb = hb) (hrc : (fG w).rc = rc) (hst : (fG w).st = st)
    (hp : p = (fG w).p) (hz : (fG w).z = 0) : wG op rel mod ha hb rc st p = w := by
  rw [← BitVec.eq_of_toNat_eq hop, ← hrel, hmod, ← hha, ← hhb, ← hrc, ← hst, hp, wG_fG hz]

end

/-! ## What a reader can answer -/

/-- Every instruction that a reader answers has the property. -/
def Answers (P : Instr → Prop) (d : Dec) : Prop := ∀ i, d = .ok i → P i

section
variable {P : Instr → Prop}

theorem answers_ok (i : Instr) : Answers P (.ok i) ↔ P i := by simp [Answers]

theorem answers_error (e : DecErr) : Answers P (.error e) ↔ True := by simp [Answers]

theorem answers_need (c : Bool) (e : DecErr) (i : Instr) : Answers P (need c e i) ↔ (c = true → P i) := by
  cases c <;> simp [Answers, need]

theorem answers_ite (c : Prop) [Decidable c] (a b : Dec) :
    Answers P (if c then a else b) ↔ (c → Answers P a) ∧ (¬ c → Answers P b) := by
  split <;> simp_all

/-- What a reader of a coded field answers: `hread` says that it reads no code but those of `code`. -/
theorem answers_reader {α : Type} {n : Nat} {read : BitVec n → (α → Dec) → Dec} {code : α → BitVec n}
    (hcode : ∀ x k, read (code x) k = k x) (c : BitVec n) (k : α → Dec)
    (hread : (∀ x, c = code x → Answers P (k x)) → Answers P (read c k)) :
    Answers P (read c k) ↔ ∀ x, c = code x → Answers P (k x) :=
  ⟨fun h x hx => by rwa [hx, hcode] at h, hread⟩

theorem answers_lspace (c : BitVec 3) (k : LSpace → Dec) :
    Answers P (lspace c k) ↔ ∀ x, c = lspaceCode x → Answers P (k x) :=
  answers_reader lspace_lspaceCode c k fun h => by
    unfold lspace; split
    any_goals exact h _ (BitVec.eq_of_toNat_eq ‹_›)
    exact (answers_error _).mpr trivial

theorem answers_gspace (c : BitVec 3) (k : GSpace → Dec) :
    Answers P (gspace c k) ↔ ∀ x, c = gspaceCode x → Answers P (k x) :=
  answers_reader gspace_gspaceCode c k fun h => by
    unfold gspace; split
    any_goals exact h _ (BitVec.eq_of_toNat_eq ‹_›)
    exact (answers_error _).mpr trivial

theorem answers_amoOp (c : BitVec 8) (k : AmoOp → Dec) : Answers P (amoOp c k) ↔ ∀ x, c = amoCode x → Answers P (k x) :=
  answers_reader amoOp_amoCode c k fun h => by
    unfold amoOp; split
    any_goals exact h _ (BitVec.eq_of_toNat_eq ‹_›)
    exact (answers_error _).mpr trivial

theorem answers_fenceForm (c : BitVec 4) (k : FenceForm → Dec) :
    Answers P (fenceForm c k) ↔ ∀ x, c = fenceCode x → Answers P (k x) :=
  answers_reader fenceForm_fenceCode c k fun h => by
    unfold fenceForm; split
    any_goals exact h _ (BitVec.eq_of_toNat_eq ‹_›)
    exact (answers_error _).mpr trivial

theorem answers_scope (c : BitVec 3) (k : Scope → Dec) :
    Answers P (scope c k) ↔ ∀ x, c = scopeCode x → Answers P (k x) :=
  answers_reader scope_scopeCode c k fun h => by
    unfold scope; split
    any_goals exact h _ (BitVec.eq_of_toNat_eq ‹_›)
    exact (answers_error _).mpr trivial

theorem answers_routePart (c : BitVec 4) (k : RoutePart → Dec) :
    Answers P (routePart c k) ↔ ∀ x, c = routeCode x → Answers P (k x) :=
  answers_reader routePart_routeCode c k fun h => by
    unfold routePart; split
    any_goals exact h _ (BitVec.eq_of_toNat_eq ‹_›)
    exact (answers_error _).mpr trivial

theorem answers_rmOf (c : BitVec 3) (k : RM → Dec) : Answers P (rmOf c k) ↔ ∀ x, c = rmCode x → Answers P (k x) :=
  answers_reader rmOf_rmCode c k fun h => by
    unfold rmOf; split
    any_goals exact h _ (BitVec.eq_of_toNat_eq ‹_›)
    exact (answers_error _).mpr trivial

theorem answers_collKind (c : BitVec 2) (k : CollKind → Dec) :
    Answers P (collKind c k) ↔ ∀ x, c = collKindCode x → Answers P (k x) :=
  answers_reader collKind_collKindCode c k fun h => by
    unfold collKind; split
    any_goals exact h _ (BitVec.eq_of_toNat_eq ‹_›)
    exact (answers_error _).mpr trivial

theorem answers_collOp (c : BitVec 3) (k : CollOp → Dec) :
    Answers P (collOp c k) ↔ ∀ x, c = collOpCode x → Answers P (k x) :=
  answers_reader collOp_collOpCode c k fun h => by
    unfold collOp; split
    any_goals exact h _ (BitVec.eq_of_toNat_eq ‹_›)
    exact (answers_error _).mpr trivial

theorem eq_dirCode_of_dirOf {c : BitVec 2} {d : Dir} (h : dirOf c = some d) : c = dirCode d := by
  unfold dirOf at h
  split at h <;> cases h
  all_goals exact BitVec.eq_of_toNat_eq ‹_›

theorem answers_engEnds (p : BitVec 40) (k : EngEnd → EngEnd → Dec) : Answers P (engEnds p k) ↔
    ∀ s d, p.extractLsb' 0 16 = endsCode s d → engEndOk s = true → engEndOk d = true → Answers P (k s d) := by
  constructor
  · intro h s d hp hs hd
    have he : p = p.extractLsb' 16 24 ++ endsCode s d := by
      rw [join_const (x := p) (j := 16) (by decide) hp]; exact (extract_all p).symm
    rwa [he, engEnds_endsCode hs hd] at h
  · intro h
    unfold engEnds
    simp only [answers_ite, answers_error, Bool.or_eq_true, not_or, Bool.not_eq_true, bit_false, Bool.and_eq_true, implies_true,
      true_and, and_true]
    rintro ⟨h2, h5⟩ ⟨hs, hd⟩
    refine h _ _ ?_ hs hd
    simp (disch := simp [*]) only [endsCode, ofBool_getLsbD, const_join, join_const]

theorem answers_decodeBind (mod : BitVec 4) (p : BitVec 64) (k : BindSpec → Dec) : Answers P (decodeBind mod p k) ↔
    ∀ b, mod = bindMod b → p = bindPayload b → Answers P (k b) := by
  refine ⟨fun h b hm hp => by rwa [hm, hp, decodeBind_bindPayload] at h, fun h => ?_⟩
  unfold decodeBind; split
  case h_5 => exact (answers_error _).mpr trivial
  case h_1 hm =>
    split
    case h_2 => exact (answers_error _).mpr trivial
    case h_1 d hd =>
      simp only [answers_ite, answers_error, Bool.or_eq_true, not_or, Bool.not_eq_true, bit_false, implies_true, true_and]
      rintro ⟨h7, h63⟩
      have hd := eq_dirCode_of_dirOf hd
      refine h _ (BitVec.eq_of_toNat_eq hm) ?_
      simp (disch := simp [*]) only [bindPayload, ofBool_getLsbD, const_join, join_const]
      exact (extract_all p).symm
  case h_2 hm =>
    split
    case h_2 => exact (answers_error _).mpr trivial
    case h_1 d hd =>
      have hd := eq_dirCode_of_dirOf hd
      refine h _ (BitVec.eq_of_toNat_eq hm) ?_
      simp (disch := simp [*]) only [bindPayload, ofBool_getLsbD, const_join, join_const]
      exact (extract_all p).symm
  case h_3 hm =>
    simp only [answers_ite, answers_error, beq_iff_eq, implies_true, and_true]
    intro hz
    refine h _ (BitVec.eq_of_toNat_eq hm) ?_
    simp (disch := simp [*]) only [bindPayload, ofBool_getLsbD, const_join]
    exact (extract_all p).symm
  case h_4 hm =>
    simp only [answers_ite, answers_error, beq_iff_eq, bne_iff_ne, ne_eq, Decidable.not_not, Bool.not_eq_true,
      implies_true, and_true, true_and]
    intro hz
    rw [bit_true, bit_false]
    refine ⟨fun h0 h5 => h _ (BitVec.eq_of_toNat_eq hm) ?_, fun h0 => h _ (BitVec.eq_of_toNat_eq hm) ?_⟩
    all_goals
      simp (disch := simp [*]) only [bindPayload, const_join, join_const]
      exact (extract_all p).symm

end

/-! ## Words -/

theorem reencodes {w x : IWord} {i : Instr} (hwf : wf i = true) (he : encodeWord i = some x) (hx : x = w) :
    wf i = true ∧ encodeWord i = some w := ⟨hwf, hx ▸ he⟩

theorem loadOk_of_mod : ∀ {m : BitVec 4}, (m != 7) = true → m.extractLsb' 3 1 = 0 →
    loadOk (m.extractLsb' 0 2) (m.getLsbD 2) = true := by decide

theorem loadOk_of_low_mod : ∀ {m : BitVec 4}, (m.extractLsb' 0 3 != 7) = true →
    loadOk (m.extractLsb' 0 2) (m.getLsbD 2) = true := by decide

theorem signBit_of_mod : ∀ {m : BitVec 4}, m.extractLsb' 1 3 = 0 → (0 : BitVec 3) ++ BitVec.ofBool (m == 1) = m := by decide

theorem fcw_of_payload {p : BitVec 64} (h : p.extractLsb' 20 12 = 0) : ((p.extractLsb' 0 32).extractLsb' 20 12 == 0) = true := by
  rw [BitVec.extractLsb'_extractLsb'_of_le (by decide), h]; rfl

theorem sieveOk_of_space {p : BitVec 40} (h : p.extractLsb' 1 2 = 1) : sieveOk (p.extractLsb' 0 2) = true := by
  have ht : ∀ t : BitVec 2, t.getLsbD 1 = true → sieveOk t = true := by decide
  refine ht _ ?_
  have h1 : (p.extractLsb' 1 2).getLsbD 0 = true := by rw [h]; rfl
  simpa only [BitVec.getLsbD_extractLsb', Nat.reduceLT, decide_true, Bool.true_and, Nat.zero_add, Nat.add_zero] using h1

theorem high_of_space {p : BitVec 40} (h : p.extractLsb' 1 2 = 1) : p.extractLsb' 2 1 = 0 := by
  have h2 : (p.extractLsb' 1 2).getLsbD 1 = false := by rw [h]; rfl
  refine (bit_false p 2).mp ?_
  simpa only [BitVec.getLsbD_extractLsb', Nat.reduceLT, decide_true, Bool.true_and, Nat.reduceAdd] using h2

theorem join_tcopy {p : BitVec 40} {e : BitVec 16} (he : p.extractLsb' 0 16 = e) (hl : p.extractLsb' 16 8 = 0)
    (hh : p.extractLsb' 24 16 = 0) : (0 : BitVec 24) ++ e = p := by
  have hz : p.extractLsb' 16 24 = 0 := by
    have hj : p.extractLsb' 24 16 ++ p.extractLsb' 16 8 = p.extractLsb' 16 24 := BitVec.extractLsb'_append_extractLsb'_eq_extractLsb' rfl
    rw [← hj, hl, hh]; rfl
  rw [← he, const_join hz]
  exact extract_all p

theorem mask_of_payload {x : BitVec 64} {ra : Reg} (h : x.extractLsb' 10 54 = 0) (hx : (!(x == 0 && ra == 0)) = true) :
    (!(x.extractLsb' 0 10 == 0 && ra == 0)) = true := by
  suffices hm : x.extractLsb' 0 10 = 0 → x = 0 by
    rw [Bool.not_eq_true', Bool.and_eq_false_iff, beq_eq_false_iff_ne] at hx ⊢
    exact hx.imp_left (mt hm)
  intro hm
  have hs : x.extractLsb' 10 54 ++ x.extractLsb' 0 10 = x := BitVec.extractLsb'_append_extractLsb'
  rw [h, hm] at hs
  exact hs.symm

theorem join_loopi {w : IWord} (hop : (w.extractLsb' 88 8).toNat = 0x32) (hmod : (fR w).mod = 0) (hz : w.extractLsb' 64 4 = 0) :
    (0x32 : BitVec 8) ++ (0 : BitVec 4) ++ w.extractLsb' 68 16 ++ (0 : BitVec 4) ++ (fR w).imm = w := by
  replace hop : w.extractLsb' 88 8 = 0x32 := BitVec.eq_of_toNat_eq hop
  replace hmod : w.extractLsb' 84 4 = 0 := hmod
  simp (disch := simp [*]) only [fR, const_const_join, const_join, join_const, extract_all]

theorem append_rowWord (w : IWord) :
    (rowWord w).ent.op ++ (rowWord w).ent.mod ++ (rowWord w).cols ++ (rowWord w).rows ++ (rowWord w).idx ++ (rowWord w).ent.bits = w := by
  simp (disch := rfl) only [rowWord, const_join, extract_all]

theorem wf_bodyRowWord {r : RowWord} {i : Instr} (h : decodeRow r.ent = .ok i) : wf (.bodyRowWord r) = true := by
  change (match decodeRow r.ent with | .ok _ => true | .error _ => false) = true
  rw [h]

/-- Whatever instruction the decoder answers is well formed, and encodes to the word that it read. -/
theorem decodeWord_answers (w : IWord) : Answers (fun i => wf i = true ∧ encodeWord i = some w) (decodeWord w) := by
  unfold decodeWord
  dsimp only
  split
  all_goals
    simp only [answers_need, answers_ok, answers_error, answers_ite, answers_lspace, answers_gspace, answers_amoOp, answers_fenceForm,
      answers_scope, answers_routePart, answers_rmOf, answers_collKind, answers_collOp, answers_engEnds, answers_decodeBind, FR.m0,
      FR.noRegs, FR.noImm, FG.m0, Bool.and_eq_true, beq_iff_eq, and_imp]
    intros
  any_goals refine ⟨fun _ => ?_, fun _ => ?_⟩
  all_goals intros
  any_goals refine reencodes ?_ rfl ?_
  -- The instruction is well formed.
  any_goals rfl
  case h_53.refine_1 | h_59.refine_1 => exact loadOk_of_mod ‹_› ‹_› -- LD, GLDI
  case h_57.refine_1 => exact loadOk_of_low_mod ‹_› -- GLD
  case h_62.refine_1 | h_63.refine_1 | h_75.refine_1 | h_93.refine_1 | h_94.refine_1 | h_103.refine_1 =>
    assumption -- AMO, CAS, ROUTE, SISECT, PRUNE, COLL
  case h_74.refine_1.refine_1 => exact fcw_of_payload ‹_› -- FUSE
  case h_79.refine_1 | h_87.refine_1 | h_88.refine_1 => exact Bool.and_eq_true_iff.mpr ⟨‹_›, ‹_›⟩ -- BSTAMP, TCOPY, TCOPYC
  case h_89.refine_1 => exact Bool.and_eq_true_iff.mpr ⟨‹_›, beq_iff_eq.mpr ‹_›⟩ -- TFILL
  case h_90.refine_1 | h_91.refine_1 | h_92.refine_1 => exact sieveOk_of_space ‹_› -- SGATH, SSCAT, SSCATA
  case h_116.refine_1 => exact mask_of_payload ‹_› ‹_› -- WAITE
  case h_51.refine_2 => exact join_loopi ‹_› ‹_› ‹_›
  case h_125.refine_2 => trivial
  case h_125.refine_1 =>
    cases hd : decodeRow (rowWord w).ent with
    | error e => exact (answers_error e).mpr trivial
    | ok i => exact (answers_ok _).mpr (reencodes (wf_bodyRowWord hd) rfl (append_rowWord w))
  any_goals
    with_reducible refine wR_eq ?_ ?_ ?_ ?_ ?_ ?_ ?_
    · assumption
    all_goals simp (disch := simp [*]) only [*, signBit_of_mod, const_join, join_const, extract_all, Nat.reduceSub]
  any_goals
    with_reducible refine wM_eq ?_ ?_ ?_ ?_ ?_ ?_ ?_ ?_ ?_
    · assumption
    all_goals simp (disch := simp [*]) only [*, const_join, join_const, ofBool_getLsbD, extract_all, Nat.reduceSub]
  any_goals
    with_reducible refine wC_eq ?_ ?_ ?_ ?_ ?_
    · assumption
    all_goals simp (disch := simp [*]) only [*, const_join, join_const, ofBool_getLsbD, extract_all, Nat.reduceSub]
  case' h_90.refine_2 | h_91.refine_2 | h_92.refine_2 => have hp := high_of_space ‹_›
  case' h_87.refine_2 => have hp := join_tcopy ‹_› ‹_› ‹_›
  all_goals
    refine wG_eq ?_ ?_ ?_ ?_ ?_ ?_ ?_ ?_ ?_
    · assumption
    all_goals simp (disch := simp [*]) only [*, const_join, const_const_join, join_const, ofBool_getLsbD, extract_all, Nat.reduceSub]

/-- Settles O3, over every word: the reader of each field inverts its encoder, and what no field reads must be zero. -/
theorem decodedWordsReencode : Obligations.DecodedWordsReencode := fun i w h => decodeWord_answers w i h

end Sys2Proof
end

/-! # Words written out from the encoding tables (O6) -/

section
namespace Sys2Proof

/-- Settles O6, word by word. -/
theorem writtenWordsDecode : Obligations.WrittenWordsDecode := by
  refine ⟨?_, ?_, ?_, ?_, ?_, ?_, ?_, ?_, ?_, ?_⟩ <;> rfl

end Sys2Proof
end

/-! # Reserved opcodes, the bytes of an instruction, and a placed instruction (O4, O5, O9)

A context that issues does what its fetch says (`step_of_readyToIssue`): O4 and O9 differ in what it fetches. -/

section
namespace Sys2Proof.Machine
open Sys2Proof.Claims

/-! ## A context that issues -/

/-- What is written is read back from any table, unless it is the default. -/
theorem Kv.get_set_of_ne_default {α : Type} [DecidableEq α] {d x : α} (h : x ≠ d) (m : Kv α) (k : Nat) :
    Kv.get d (Kv.set d m k x) k = x := by
  rw [Kv.set, if_neg h, Kv.get_insert_self]

theorem State.ctx_setCtx {x : Ctx} (h : x ≠ {}) (s : State) (c : Nat) : (s.setCtx c x).ctx c = x := Kv.get_set_of_ne_default h _ _

theorem turnOf_self (s : State) (c : Nat) (rest : List Nat) :
    (turnOf s c rest).self = { s.ctx c with rowMode := (s.ctx c).modefp, rowAt := some s.cycle } :=
  State.ctx_setCtx (fun h => Option.some_ne_none _ (congrArg Ctx.rowAt h)) _ c

theorem State.contextCycle_of_readyToIssue {s : State} {c : Nat} {rest : List Nat} (h : readyToIssue (turnOf s c rest).self) :
    ({ s with turn := rest } : State).contextCycle c = (turnOf s c rest).issueFetched := by
  unfold State.contextCycle
  extract_lets u y t x
  obtain ⟨hrun, hload, hbf, hbub⟩ : readyToIssue x := h
  change _ = t.issueFetched
  simp [hrun, hload, hbf, hbub]

/-- The step of a context that is due and ready: it does what its fetch says. -/
theorem step_of_readyToIssue {s : State} {c : Nat} {rest : List Nat} (ha : s.agenda = []) (hb : s.begun = true) (hp : s.poweredOff = false)
    (ht : s.turn = c :: rest) (hr : readyToIssue (s.ctx c)) : step s = (turnOf s c rest).issueFetched := by
  rw [← State.contextCycle_of_readyToIssue (by rw [turnOf_self]; exact hr)]
  simp [step, State.advancePart, ha, hb, hp, ht]

theorem Ctx.fetch_of_ok {x : Ctx} {w : IWord} {i : Instr} (h : textAtPc x = some (.word w)) (hd : decodeWord w = .ok i) :
    x.fetch = .instr i := by
  obtain ⟨e, he, hc⟩ := Option.map_eq_some_iff.mp h
  simp only [Ctx.fetch, he, hc, hd]

theorem Ctx.fetch_of_error {x : Ctx} {w : IWord} {e : DecErr} (h : textAtPc x = some (.word w)) (hd : decodeWord w = .error e) :
    x.fetch = .fault 0x01 (wordTval w) := by
  obtain ⟨e, he, hc⟩ := Option.map_eq_some_iff.mp h
  simp only [Ctx.fetch, he, hc, hd]

theorem textAtPc_turnOf (s : State) (c : Nat) (rest : List Nat) : textAtPc (turnOf s c rest).self = textAtPc (s.ctx c) := by
  rw [turnOf_self]; rfl

/-- The step of a context that stands at a word which decodes to no instruction (R60). -/
theorem State.issueFetched_of_error {s : State} {w : IWord} {e : DecErr} (h : textAtPc s.self = some (.word w))
    (hd : decodeWord w = .error e) :
    s.issueFetched = s.trap 0x01 (w.toNat / 2 ^ 32) := by
  rw [State.issueFetched, Ctx.fetch_of_error h hd]; rfl

theorem State.issueFetched_of_ok {s : State} {w : IWord} {i : Instr} (h : textAtPc s.self = some (.word w)) (hd : decodeWord w = .ok i)
    (hm : s.misplaced i = false) : s.issueFetched = exec i s := by
  rw [State.issueFetched, Ctx.fetch_of_ok h hd]
  exact if_neg (by simp [hm])

/-! ## Reserved opcodes -/

theorem decodeRow_of_reservedOp {e : RowEntry} (h : reservedOp e.op.toNat = true) : decodeRow e = .error .reservedOp := by
  unfold decodeRow
  dsimp only
  split
  any_goals (rename_i hop; rw [hop] at h; cases h)
  rfl

theorem decodeWord_of_reservedOp {w : IWord} (h : reservedOp (w.extractLsb' 88 8).toNat = true) : decodeWord w = .error .reservedOp := by
  by_cases hr : 0x80 ≤ (w.extractLsb' 88 8).toNat ∧ (w.extractLsb' 88 8).toNat ≤ 0xB9
  · rw [decodeWord_row hr, decodeRow_of_reservedOp (e := (rowWord w).ent) h]; rfl
  · unfold decodeWord
    dsimp only
    split
    any_goals (rename_i hop; rw [hop] at h; cases h)
    exact if_neg hr

/-- Settles O4: no arm of either decoder has such an OP, and the context is at the fetch. -/
theorem reservedOpcodesRefused : Obligations.ReservedOpcodesRefused := by
  unfold Obligations.ReservedOpcodesRefused
  intro w hw
  have hd := decodeWord_of_reservedOp hw
  refine ⟨hd, fun s c rest ha hb hp ht hr htext => ?_⟩
  rw [step_of_readyToIssue ha hb hp ht hr]
  exact State.issueFetched_of_error (by rw [textAtPc_turnOf, htext]) hd

/-! ## The bytes of an instruction -/

theorem natLe_length (n v : Nat) : (natLe n v).length = n := by
  induction n generalizing v with
  | zero => rfl
  | succ n ih => rw [natLe, List.length_cons, ih]

theorem leNat_natLe {n v : Nat} (h : v < 256 ^ n) : leNat (natLe n v) = v := by
  induction n generalizing v with
  | zero => exact (Nat.lt_one_iff.mp h).symm
  | succ n ih =>
    have hdiv : v / 256 < 256 ^ n := Nat.div_lt_of_lt_mul (by rwa [Nat.pow_succ'] at h)
    rw [natLe, leNat, ih hdiv, BitVec.toNat_ofNat]
    omega

theorem x13_length (w : IWord) : (x13 w).length = 13 := by rw [x13, List.length_cons, natLe_length]

theorem encode_eq_x13 {i : Instr} {w : IWord} (h : encodeWord i = some w) : encode i = x13 w := by rw [encode, h]

theorem expandBytes_x13 (dict : List Nat) (w : IWord) : expandBytes dict (x13 w) = w := by
  have hw : leNat (natLe 12 w.toNat) = w.toNat := leNat_natLe w.isLt
  change BitVec.ofNat 96 ((254 + 256 * leNat (natLe 12 w.toNat)) / 256) = w
  rw [hw, Nat.add_mul_div_left _ _ (by decide), Nat.zero_add, BitVec.ofNat_toNat, BitVec.setWidth_eq]

theorem expandBytes_take_x13 (dict : List Nat) (w : IWord) (more : List Byte) : expandBytes dict ((x13 w ++ more).take 13) = w := by
  rw [← x13_length w, List.take_left, expandBytes_x13]

theorem head_expandLine_x13 (dict : List Nat) (base : Nat) (w : IWord) (more : List Byte) :
    (expandLine dict base (x13 w ++ more)).head? = some ⟨base, 13, .word w⟩ := by
  have he := expandBytes_take_x13 dict w more
  change some (Expanded.mk (base + 0) 13 (.word (expandBytes dict ((x13 w ++ more).take 13)))) = _
  rw [he, Nat.add_zero]

theorem decodeBytes_x13 {w : IWord} {i : Instr} (h : decodeWord w = .ok i) (more : List Byte) : decodeBytes (x13 w ++ more) = some i := by
  have he := expandBytes_take_x13 [] w more
  change (match decodeWord (expandBytes [] ((x13 w ++ more).take 13)) with | .ok i => some i | .error _ => none) = _
  rw [he, h]

/-- Settles O5: the byte 0xFE opens the class of thirteen bytes, and twelve bytes hold the word. -/
theorem instructionBytesRoundTrip : Obligations.InstructionBytesRoundTrip := by
  unfold Obligations.InstructionBytesRoundTrip
  intro i w more hwf hw
  rw [encode_eq_x13 hw]
  exact ⟨x13_length w, rfl, decodeBytes_x13 (decodeWord_encodeWord i w hwf hw) more,
    fun dict base => head_expandLine_x13 dict base w more⟩

/-! ## A placed instruction -/

theorem placedCtx_ne_default (bs : List Byte) : placedCtx bs ≠ {} := fun h => by cases congrArg Ctx.run h

theorem State.place_ctx (s : State) (bs : List Byte) : (s.place bs).ctx 0 = placedCtx bs := State.ctx_setCtx (placedCtx_ne_default bs) s 0

theorem textAtPc_placedCtx (w : IWord) : textAtPc (placedCtx (x13 w)) = some (.word w) := by
  have hline : ∃ more, ((x13 w ++ List.replicate 64 0xFF).take 64).take 64 = x13 w ++ more := by
    refine ⟨(List.replicate 64 0xFF).take 51, ?_⟩
    rw [List.take_take, Nat.min_self, List.take_append, x13_length, List.take_of_length_le (by rw [x13_length]; decide)]
  obtain ⟨more, hmore⟩ := hline
  obtain ⟨tail, hstore⟩ := List.head?_eq_some_iff.mp (head_expandLine_x13 [] 0 w more)
  have hctx : (placedCtx (x13 w)).store = ⟨0, 13, .word w⟩ :: tail := by
    change expandLine [] 0 (((x13 w ++ List.replicate 64 0xFF).take 64).take 64) ++ [] = _
    rw [hmore, hstore, List.append_nil]
  have hpc : (placedCtx (x13 w)).pc.toNat = (placedCtx (x13 w)).textBase := rfl
  simp [textAtPc, Ctx.startAtPc, hctx, hpc]

/-- Settles O9: the placed context is ready, and stands at the word of the instruction. -/
theorem placedInstructionRuns : Obligations.PlacedInstructionRuns := by
  unfold Obligations.PlacedInstructionRuns
  intro s i w hwf hw hbody
  rw [encode_eq_x13 hw]
  have hctx := State.place_ctx s (x13 w)
  rw [step_of_readyToIssue rfl rfl rfl rfl (by rw [hctx]; exact ⟨rfl, rfl, rfl, rfl⟩)]
  refine State.issueFetched_of_ok ?_ (decodeWord_encodeWord i w hwf hw) ?_
  · rw [textAtPc_turnOf, hctx, textAtPc_placedCtx]
  · rw [State.misplaced, turnOf_self, hctx, hbody]; rfl

end Sys2Proof.Machine
end

/-! # BLK and BEND (O38) -/

section
namespace Sys2Proof.Machine
open Sys2Proof.Claims

/-! ## Tables: entries dropped, and entries rewritten one by one -/

section
variable {α : Type} [DecidableEq α] {d : α} {m : Kv α}

/-- What each value of a table becomes when it is rewritten; one that becomes the default is dropped. -/
def Kv.mapped (d : α) (f : α → α) (m : Kv α) : Kv α := m.filterMap fun e => if f e.2 = d then none else some (e.1, f e.2)

theorem Kv.wfFrom_mapped {f : α → α} {lo : Nat} (h : Kv.wfFrom d lo m = true) : Kv.wfFrom d lo (Kv.mapped d f m) = true := by
  induction m generalizing lo with
  | nil => rfl
  | cons e m ih =>
    obtain ⟨hlo, -, hm⟩ := (Kv.wfFrom_cons d lo e.1 e.2 m).mp h
    rw [Kv.mapped, List.filterMap_cons]
    split
    · exact ih (Kv.wfFrom_mono d (by omega) hm)
    · next hf =>
      split at hf <;> cases hf
      exact (Kv.wfFrom_cons ..).mpr ⟨hlo, ‹_›, ih hm⟩

theorem Kv.get_mapped {f : α → α} (hf : f d = d) (h : Kv.wf d m = true) (k : Nat) :
    Kv.get d (Kv.mapped d f m) k = f (Kv.get d m k) := by
  suffices H : ∀ lo, Kv.wfFrom d lo m = true → Kv.get d (Kv.mapped d f m) k = f (Kv.get d m k) from H 0 h
  clear h
  induction m with
  | nil => intro _ _; exact hf.symm
  | cons e m ih =>
    intro lo h
    obtain ⟨-, -, hm⟩ := (Kv.wfFrom_cons d lo e.1 e.2 m).mp h
    have hbelow : k ≤ e.1 → Kv.get d (Kv.mapped d f m) k = d := fun hk => Kv.get_below d (by omega) (Kv.wfFrom_mapped hm)
    rw [Kv.mapped, List.filterMap_cons]
    split
    · next hdrop =>
      have he : f e.2 = d := by by_contra hne; simp [hne] at hdrop
      change Kv.get d (Kv.mapped d f m) k = _
      simp only [Kv.get]
      split
      · rw [he, hbelow (by omega)]
      · split
        · rw [hf, hbelow (by omega)]
        · exact ih _ hm
    · next hkeep =>
      split at hkeep <;> cases hkeep
      change Kv.get d (_ :: Kv.mapped d f m) k = _
      simp only [Kv.get]
      split
      · rfl
      · split
        · exact hf.symm
        · exact ih _ hm

theorem Kv.get_filter {p : Nat → Bool} (h : Kv.wf d m = true) (k : Nat) :
    Kv.get d (m.filter fun e => p e.1) k = if p k = true then Kv.get d m k else d := by
  suffices H : ∀ lo, Kv.wfFrom d lo m = true → Kv.get d (m.filter fun e => p e.1) k = if p k = true then Kv.get d m k else d from H 0 h
  clear h
  induction m with
  | nil => intro _ _; simp
  | cons e m ih =>
    intro lo h
    obtain ⟨-, -, hm⟩ := (Kv.wfFrom_cons d lo e.1 e.2 m).mp h
    have hbelow : k ≤ e.1 → Kv.get d m k = d := fun hk => Kv.get_below d (by omega) hm
    have ih := ih _ hm
    rw [List.filter_cons]
    simp only [Kv.get]
    split
    · next hp =>
      simp only [Kv.get]
      split
      · subst_vars; rw [if_pos hp]
      · split
        · rw [ite_self]
        · exact ih
    · next hp =>
      rw [ih]
      split
      · next hk =>
        rw [if_neg (by rintro rfl; exact hp hk)]
        split
        · exact hbelow (by omega)
        · rfl
      · rfl

end

/-! ## A BLK's copy of the active block -/

theorem Block.trim_default (b : Block) : b.trim {} = {} := rfl

theorem Block.owned_elems (b : Block) : b.owned.elems = Kv.mapped {} b.trim b.elems := rfl

theorem Block.trim_row (b : Block) {c : ElemCfg} (h : Kv.wf ({} : RowCfg) c.rows = true) (j : Nat) :
    (b.trim c).row j = if b.f.toNat ≤ j ∧ j < b.f.toNat + b.ii.toNat then c.row j else {} := by
  have hf := Kv.get_filter (p := fun j => decide (b.f.toNat ≤ j) && decide (j < b.f.toNat + b.ii.toNat)) h j
  simpa [Block.trim, ElemCfg.row] using hf

theorem State.dropCopies_eq (s : State) (c : Nat) (mask : BitVec 8) :
    s.dropCopies c mask = { s with shadow := (s.dropCopies c mask).shadow } := by
  refine List.foldlRecOn (motive := fun t : State => t = { s with shadow := t.shadow }) _ _ rfl fun t ht k _ => ?_
  rw [ht]; rfl

theorem State.dropCopies_shadowWf {s : State} (h : Kv.wf ({} : Block) s.shadow = true) (c : Nat) (mask : BitVec 8) :
    Kv.wf ({} : Block) (s.dropCopies c mask).shadow = true :=
  List.foldlRecOn (motive := fun t : State => Kv.wf ({} : Block) t.shadow = true) _ _ h fun _ ht _ _ => Kv.wf_set _ _ _ ht

theorem State.shadowBlk_setShadow {s : State} (h : Kv.wf ({} : Block) s.shadow = true) (pan : Nat) (mask : BitVec 8) (b : Block) :
    (s.setShadow pan mask b).shadowBlk pan mask = b := Kv.get_set_self _ _ _ h

theorem instrTval_of_encodeWord {i : Instr} {w : IWord} (h : encodeWord i = some w) : instrTval i = w.toNat / 2 ^ 32 := by
  rw [instrTval, h]; rfl

section
variable {s : State} {clr : Bool} {m : BitVec 8} {id : BitVec 12} {ewin : BitVec 32} {twin : BitVec 8} {ii : BitVec 6} {f : BitVec 5}

theorem exec_blk_misplaced {w : IWord} (h : s.self.body.isSome = true) (hw : encodeWord (.blk clr m id ewin twin ii f) = some w) :
    exec (.blk clr m id ewin twin ii f) s = .next (s.enterTrap s.cur 0x04 (w.toNat / 2 ^ 32) s.self.pc.toNat) := by
  change execBlk clr m id ewin twin ii f s = _
  rw [execBlk, if_pos h, instrTval_of_encodeWord hw]; rfl

theorem exec_blk_busy (hbody : s.self.body = none) (hbusy : s.stampBusy m = true) :
    exec (.blk clr m id ewin twin ii f) s = s.trap 0x05 (reasonOnly 0x04) := by
  change execBlk clr m id ewin twin ii f s = _
  rw [execBlk, if_neg (by simp [hbody]), if_pos hbusy]; rfl

/-- The block that a BLK opens a body on: a copy of the active one's own parts, or the cleared image. -/
def blkImage (a : Block) (clr : Bool) : Block := if clr || !a.live then {} else a.owned

theorem exec_blk_opens (hbody : s.self.body = none) (hbusy : s.stampBusy m = false) :
    goesOn (.blk clr m id ewin twin ii f) s
      ((s.dropCopies s.cur m).setShadow s.pan m { blkImage (s.activeBlk s.pan m) clr with
          live := false, id := id, clr := clr, ewin := ewin, twin := twin, ii := ii, f := f, stampN := 0, stampBase := 0, stampStep := 0,
          stampOstep := 0, owner := s.cur, copy := 0, blkPc := s.self.pc })
      { s.self with body := some ⟨m, id, s.self.pc, none, none, []⟩ } := by
  have hself : (s.dropCopies s.cur m).self = s.self := by rw [State.dropCopies_eq]; rfl
  change execBlk clr m id ewin twin ii f s = _
  unfold execBlk
  extract_lets x a b0 b t
  rw [if_neg (by simp [x, hbody]), if_neg (by simp [hbusy])]
  change t.done { (s.dropCopies s.cur m).self with body := _ } = _
  rw [hself]; rfl
end

theorem blkImage_of_not_kept {a : Block} {clr : Bool} (h : ¬ (clr = false ∧ a.live = true)) : blkImage a clr = {} := by
  cases clr <;> simp_all [blkImage]

theorem blkImage_of_kept {a : Block} {clr : Bool} (h : clr = false ∧ a.live = true) : blkImage a clr = a.owned := by
  obtain ⟨hc, ha⟩ := h
  simp [blkImage, hc, ha]

/-! ## A BEND's hold -/

theorem State.holding_six {s : State} (h : s.holdNow.since ≤ s.self.cyc) : s.holding 6 = decide (s.self.cyc < s.holdNow.since + 5) := by
  rw [State.holding, decide_eq_decide]; omega

theorem State.holdNow_since (s : State) : s.holdNow.since = match s.self.hold with | some h => h.since | none => s.self.cyc := by
  unfold State.holdNow
  cases s.self.hold <;> rfl

theorem State.self_setSelf {x : Ctx} (h : x ≠ {}) (s : State) : (s.setSelf x).self = x := State.ctx_setCtx h s s.cur

theorem State.holdOn_holds {s t : State} {h : Hold} {k : Spent} (ht : s.holdOn s.self h k = .next t) :
    holds s t h ∧ t = { s with ctxs := t.ctxs } := by
  cases ht
  have hself : (s.setSelf ({ s.self with hold := some h }.endCycle k)).self = { s.self with hold := some h }.endCycle k :=
    State.self_setSelf (fun he => Option.some_ne_none h ((Ctx.endCycle_hold _ k).symm.trans (congrArg Ctx.hold he))) s
  refine ⟨?_, rfl⟩
  simp [holds, hself]

/-! ## The record of an open body -/

theorem OpenBody.note_fixed (o : OpenBody) (v : Nat) : o.note v = { o with defect := (o.note v).defect } := by
  unfold OpenBody.note
  (repeat' split) <;> rfl

theorem OpenBody.note_defect (o : OpenBody) (v : Nat) : (o.note v).defect.isSome = true := by
  unfold OpenBody.note
  split
  · rfl
  · next hd => split <;> simp [hd]

/-- The body after a word that repeats a mask and an identifier: others than its own leave a defect (R207). -/
def OpenBody.told (o : OpenBody) (m : BitVec 8) (id : BitVec 12) : OpenBody :=
  if m = o.mask ∧ id = o.id then o else o.note (refusal0 0x0C)

theorem OpenBody.fold_told (o : OpenBody) (m : BitVec 8) (id : BitVec 12) :
    (if m = o.mask ∧ id = o.id then o else o.note (refusal0 0x0C)) = o.told m id := rfl

theorem OpenBody.told_fixed (o : OpenBody) (m : BitVec 8) (id : BitVec 12) : o.told m id = { o with defect := (o.told m id).defect } := by
  unfold OpenBody.told
  split
  · rfl
  · exact o.note_fixed _

theorem OpenBody.told_mask (o : OpenBody) (m : BitVec 8) (id : BitVec 12) : (o.told m id).mask = o.mask := by rw [o.told_fixed]
theorem OpenBody.told_named (o : OpenBody) (m : BitVec 8) (id : BitVec 12) : (o.told m id).named = o.named := by rw [o.told_fixed]
theorem OpenBody.told_last (o : OpenBody) (m : BitVec 8) (id : BitVec 12) : (o.told m id).last = o.last := by rw [o.told_fixed]

theorem OpenBody.told_own {o : OpenBody} {m : BitVec 8} {id : BitVec 12} (h : m = o.mask ∧ id = o.id) : o.told m id = o := if_pos h

theorem OpenBody.told_other {o : OpenBody} {m : BitVec 8} {id : BitVec 12} (h : ¬ (m = o.mask ∧ id = o.id)) :
    (o.told m id).defect.isSome = true := by
  rw [OpenBody.told, if_neg h]; exact o.note_defect _

theorem blkImage_kept_elem {a : Block} {clr : Bool} (h : clr = false ∧ a.live = true)
    (hwf : Kv.wf ({} : ElemCfg) a.elems = true) (e : Nat) :
    Kv.get {} (blkImage a clr).elems e = a.trim (Kv.get {} a.elems e) := by
  rw [blkImage_of_kept h, Block.owned_elems, Kv.get_mapped a.trim_default hwf]

theorem exec_bend_misplaced {s : State} {m : BitVec 8} {id : BitVec 12} {crc : BitVec 32} {w : IWord} (h : s.self.body = none)
    (hw : encodeWord (.bend m id crc) = some w) :
    exec (.bend m id crc) s = .next (s.enterTrap s.cur 0x04 (w.toNat / 2 ^ 32) s.self.pc.toNat) := by
  change execBend m id crc s = _
  simp only [execBend, h, instrTval_of_encodeWord hw]; rfl

section
variable {s : State} {o : OpenBody} {m : BitVec 8} {id : BitVec 12} {crc : BitVec 32}

theorem exec_bend_holds (h : s.self.body = some o) (hh : s.holding 6 = true) :
    exec (.bend m id crc) s = s.holdOn s.self s.holdNow .other := by
  change execBend m id crc s = _
  simp only [execBend, h, hh, if_true]

/-! In the last context cycle of its hold BEND checks, and loads the block. -/

theorem exec_bend_badSum (h : s.self.body = some o) (hh : s.holding 6 = false)
    (hsum : (s.shadowBlk s.pan o.mask).checksum o.mask ≠ crc.toNat) :
    exec (.bend m id crc) s = s.trap 0x06 ((s.shadowBlk s.pan o.mask).checksum o.mask) := by
  change execBend m id crc s = _
  simp only [execBend, h, hh, Bool.false_eq_true, if_false, OpenBody.fold_told, OpenBody.told_mask, if_pos hsum]

theorem exec_bend_refused {v : Nat} (h : s.self.body = some o) (hh : s.holding 6 = false)
    (hsum : (s.shadowBlk s.pan o.mask).checksum o.mask = crc.toNat)
    (hv : s.bendCheck s.cur s.pan o.mask (s.shadowBlk s.pan o.mask) 0 o.named (o.told m id).defect = some v) :
    exec (.bend m id crc) s = s.trap 0x05 v := by
  change execBend m id crc s = _
  simp only [execBend, h, hh, Bool.false_eq_true, if_false, OpenBody.fold_told, OpenBody.told_mask, OpenBody.told_named,
    if_neg (not_not_intro hsum), hv]

theorem exec_bend_loads (h : s.self.body = some o) (hh : s.holding 6 = false)
    (hsum : (s.shadowBlk s.pan o.mask).checksum o.mask = crc.toNat)
    (hv : s.bendCheck s.cur s.pan o.mask (s.shadowBlk s.pan o.mask) 0 o.named (o.told m id).defect = none) :
    goesOn (.bend m id crc) s (s.setShadow s.pan o.mask { s.shadowBlk s.pan o.mask with live := true }) { s.self with body := none } := by
  change execBend m id crc s = _
  simp only [execBend, h, hh, Bool.false_eq_true, if_false, OpenBody.fold_told, OpenBody.told_mask, OpenBody.told_named,
    if_neg (not_not_intro hsum), hv]
  rfl
end

/-- Settles O38: BLK by its three branches, BEND by those of its hold and of its checks. -/
theorem bodiesOpenAndAreChecked : Obligations.BodiesOpenAndAreChecked := by
  unfold Obligations.BodiesOpenAndAreChecked
  intro s clr m id ewin twin ii f crc x blk bend
  refine ⟨fun h => ⟨_, rfl, exec_blk_misplaced h rfl⟩, fun h hb => exec_blk_busy h hb, fun h hb => ?_,
    fun h => ⟨_, rfl, exec_bend_misplaced h rfl⟩, fun o h => ?_⟩
  · refine ⟨_, exec_blk_opens h hb, ?_, fun hwf => ?_⟩
    · rw [State.dropCopies_eq]; rfl
    intro a kept
    rw [State.shadowBlk_setShadow (State.dropCopies_shadowWf hwf _ _)]
    refine ⟨?_, fun hk => ?_, fun hk hwfa e => ?_⟩
    · by_cases hk : kept
      · rw [if_pos hk, blkImage_of_kept hk]; rfl
      · rw [if_neg hk, blkImage_of_not_kept hk]
    · change (blkImage a clr).elems = []
      rw [blkImage_of_not_kept hk]
    · change let p := Kv.get {} (blkImage a clr).elems e; _
      rw [blkImage_kept_elem hk hwfa]
      exact ⟨rfl, rfl, rfl, fun hrows j => a.trim_row hrows j⟩
  · intro since b
    have hs : s.holdNow.since = since := s.holdNow_since
    have hholding : since ≤ x.cyc → s.holding 6 = decide (x.cyc < since + 5) := fun hle => by
      rw [State.holding_six (by rwa [hs]), hs]
    have hover : since + 5 ≤ x.cyc → s.holding 6 = false := fun hhi => (hholding (by omega)).trans (decide_eq_false (by omega))
    refine ⟨fun hlo hle => ?_, fun hhi hsum => exec_bend_badSum h (hover hhi) hsum, fun hhi hsum => ?_⟩
    · obtain ⟨hhold, hframe⟩ := State.holdOn_holds (s := s) (h := s.holdNow) (k := .other) rfl
      exact ⟨_, _, exec_bend_holds h ((hholding hle).trans (decide_eq_true hlo)), hhold, hs, hframe⟩
    · exact ⟨(o.told m id).defect, fun hm hid => by rw [OpenBody.told_own ⟨hm, hid⟩], fun hne => OpenBody.told_other (by tauto),
        fun v hv => exec_bend_refused h (hover hhi) hsum hv, fun hv => exec_bend_loads h (hover hhi) hsum hv⟩

end Sys2Proof.Machine
end

/-! # The words of a body (O39)

`bodyEffect` is what a word makes of its body and of the shadow block; each clause of O39 is a fact about it. -/

section
namespace Sys2Proof.Machine
open Sys2Proof.Claims

/-! ## Tables: one value rewritten at each of several keys -/

section
variable {α : Type} [DecidableEq α] {d : α} {f : α → α}

theorem Kv.get_foldl_set {es : List Nat} (hes : es.Nodup) {m : Kv α} (h : Kv.wf d m = true) (k : Nat) :
    Kv.get d (es.foldl (fun t e => Kv.set d t e (f (Kv.get d t e))) m) k = if k ∈ es then f (Kv.get d m k) else Kv.get d m k := by
  induction es generalizing m with
  | nil => simp
  | cons e es ih =>
    obtain ⟨he, hes⟩ := List.nodup_cons.mp hes
    rw [List.foldl_cons, ih hes (Kv.wf_set d _ _ h)]
    by_cases hk : k = e
    · subst hk
      rw [if_neg he, if_pos List.mem_cons_self, Kv.get_set_self d _ _ h]
    · simp only [List.mem_cons, hk, false_or, Kv.get_set_of_ne d hk _ h]
end

theorem crossElems_nodup (cols rows : BitVec 16) : (crossElems cols rows).Nodup := List.Nodup.filter _ List.nodup_range

theorem mem_crossElems {cols rows : BitVec 16} {e : Nat} : e ∈ crossElems cols rows ↔ inCross cols rows e := by
  simp [crossElems, allElems, inCross, elemX, elemY]

theorem Block.write_get {b : Block} (h : Kv.wf ({} : ElemCfg) b.elems = true) (cols rows : BitVec 16) (g : ElemCfg → ElemCfg) (e : Nat) :
    (inCross cols rows e → Kv.get {} (b.write (crossElems cols rows) g).elems e = g (Kv.get {} b.elems e)) ∧
    (¬ inCross cols rows e → Kv.get {} (b.write (crossElems cols rows) g).elems e = Kv.get {} b.elems e) := by
  rw [← mem_crossElems]
  have hget : Kv.get {} (b.write (crossElems cols rows) g).elems e = _ := Kv.get_foldl_set (crossElems_nodup cols rows) h e
  rw [hget]
  exact ⟨fun he => if_pos he, fun he => if_neg he⟩

theorem Block.indices_nodup (b : Block) : b.indices.Nodup :=
  List.Nodup.map (fun _ _ h => Nat.add_left_cancel h) List.nodup_range

theorem Block.mem_indices {b : Block} {j : Nat} : j ∈ b.indices ↔ b.f.toNat ≤ j ∧ j < b.f.toNat + b.ii.toNat := by
  simp only [Block.indices, List.mem_map, List.mem_range]
  exact ⟨fun ⟨k, hk, h⟩ => by omega, fun h => ⟨j - b.f.toNat, by omega, by omega⟩⟩

theorem nestWrite_stage_get {b : Block} (h : Kv.wf (0 : Nat) b.stages = true) (rows : BitVec 32) (sg : BitVec 3) (j : Nat) :
    Kv.get 0 (nestWrite (.stage rows sg) b).stages j =
      if rows.getLsbD j = true ∧ b.f.toNat ≤ j ∧ j < b.f.toNat + b.ii.toNat then sg.toNat else Kv.get 0 b.stages j := by
  have hget : Kv.get 0 (nestWrite (.stage rows sg) b).stages j = _ :=
    Kv.get_foldl_set (f := fun _ => sg.toNat) (b.indices_nodup.filter _) h j
  rw [hget]
  simp only [List.mem_filter, Block.mem_indices, and_comm]

theorem payloadOf_bind (m : BitVec 8) (id : BitVec 12) (spec : BindSpec) : payloadOf (.bind m id spec) (bindPayload spec).toNat := by
  refine ⟨_, rfl, ?_⟩
  have hp := congrArg (fun x : FC => x.p.toNat) (fC_wC 0x63 (bindMod spec) m id (bindPayload spec))
  simpa [fC] using hp.symm

/-! ## What a body word makes of its body and of the shadow block -/

/-- The body words but BEND. -/
def writesBody (i : Instr) : Prop := inBody i = true ∧ ∀ m id crc, i ≠ .bend m id crc

/-- What a body word makes of the body and of the shadow block. -/
def bodyEffect : Instr → OpenBody → Block → OpenBody × Block
  | .fuse m id cols rows fcw, o, b => (o.told m id, b.write (crossElems cols rows) fun c => { c with fcw := fcw })
  | .fuseLive m id em tm idx, o, b =>
    match (o.told m id).last with
    | none => ((o.told m id).note (refusal0 0x0C), b)
    | some (cols, rows) => (o.told m id, b.write (crossElems cols rows) fun c =>
        { c with rows := Kv.set {} c.rows idx.toNat { c.row idx.toNat with elive := em, tlive := tm } })
  | .route part m id cols rows v, o, b => (o.told m id, b.write (crossElems cols rows) (routeWrite part v))
  | .bind m id spec, o, b => bindWrite spec (o.told m id) b
  | .nest m id n, o, b => (o.told m id, nestWrite n b)
  | .bodyRowWord w, o, b => rowWrite w o b
  | _, o, b => (o, b)

theorem exec_writesBody {i : Instr} (h : writesBody i) (s : State) : exec i s = s.bodyWord i (bodyEffect i) := by
  obtain ⟨hi, hbend⟩ := h
  cases i <;> cases hi
  case bend m id crc => exact absurd rfl (hbend m id crc)
  all_goals rfl

theorem State.bodyWord_misplaced {s : State} {i : Instr} {w : IWord} (h : s.self.body = none) (hw : encodeWord i = some w)
    (f : OpenBody → Block → OpenBody × Block) :
    s.bodyWord i f = .next (s.enterTrap s.cur 0x04 (w.toNat / 2 ^ 32) s.self.pc.toNat) := by
  simp only [State.bodyWord, h, instrTval_of_encodeWord hw]; rfl

theorem bodyEffect_fixed (i : Instr) (o : OpenBody) (b : Block) :
    (bodyEffect i o b).1.mask = o.mask ∧ (bodyEffect i o b).1.id = o.id ∧ (bodyEffect i o b).1.pc = o.pc := by
  have ht : ∀ m id, (o.told m id).mask = o.mask ∧ (o.told m id).id = o.id ∧ (o.told m id).pc = o.pc := fun m id => by
    rw [o.told_fixed]; exact ⟨rfl, rfl, rfl⟩
  have hn : ∀ (q : OpenBody) v, (q.note v).mask = q.mask ∧ (q.note v).id = q.id ∧ (q.note v).pc = q.pc := fun q v => by
    rw [q.note_fixed]; exact ⟨rfl, rfl, rfl⟩
  cases i
  case fuse m id _ _ _ | route _ m id _ _ _ | nest m id _ => exact ht m id
  case bind m id spec => cases spec <;> exact ht m id
  case fuseLive m id em tm idx =>
    simp only [bodyEffect]
    split
    · simp only [hn, ht, and_self]
    · exact ht m id
  case bodyRowWord w =>
    simp only [bodyEffect, rowWrite]
    split
    · exact ⟨rfl, rfl, rfl⟩
    · simp only [hn, and_self]
  all_goals exact ⟨rfl, rfl, rfl⟩

theorem bodyEffect_told {i : Instr} (hi : writesBody i) {m : BitVec 8} {id : BitVec 12} (h : repeats i = some (m, id))
    (o : OpenBody) (b : Block) :
    (m = o.mask ∧ id = o.id) ∨ (bodyEffect i o b).1.defect.isSome = true := by
  refine or_iff_not_imp_left.mpr fun hne => ?_
  have ht := OpenBody.told_other hne
  cases i <;> cases h
  case fuse | route | nest => exact ht
  case bind spec => cases spec <;> exact ht
  case bend crc => exact absurd rfl (hi.2 m id crc)
  case fuseLive =>
    simp only [bodyEffect]
    split
    · exact OpenBody.note_defect _ _
    · exact ht

theorem bodyEffect_last (w : RowWord) (o : OpenBody) (b : Block) : (bodyEffect (.bodyRowWord w) o b).1.last = some (w.cols, w.rows) := by
  simp only [bodyEffect, rowWrite]
  split
  · rfl
  · rw [OpenBody.note_fixed]

/-- A row word or a liveness word that writes no part of any element leaves a defect, and nothing else. -/
theorem bodyEffect_of_elementPart_none {i : Instr}
    (hi : (∃ w, i = .bodyRowWord w) ∨ ∃ m id em tm j, i = .fuseLive m id em tm j) {o : OpenBody} {b : Block}
    (h : elementPart o b i = none) : (bodyEffect i o b).1.defect.isSome = true ∧ (bodyEffect i o b).2 = b := by
  obtain ⟨w, rfl⟩ | ⟨m, id, em, tm, j, rfl⟩ := hi
  · have hidx : ¬ (b.f.toNat ≤ w.idx.toNat ∧ w.idx.toNat < b.f.toNat + b.ii.toNat) := fun hc => by simp [elementPart, hc] at h
    simp only [bodyEffect, rowWrite, if_neg hidx]
    exact ⟨OpenBody.note_defect _ _, trivial⟩
  · have hlast : o.last = none := Option.map_eq_none_iff.mp h
    simp only [bodyEffect, OpenBody.told_last, hlast]
    exact ⟨OpenBody.note_defect _ _, trivial⟩

theorem bodyEffect_of_elementPart {i : Instr} {o : OpenBody} {b : Block} {cols rows : BitVec 16} {g : ElemCfg → ElemCfg}
    (h : elementPart o b i = some (cols, rows, g)) : (bodyEffect i o b).2 = b.write (crossElems cols rows) g := by
  cases i
  case fuse => cases h; rfl
  case route part _ _ _ _ _ => cases part <;> cases h <;> rfl
  case fuseLive m id em tm j =>
    obtain ⟨q, hq, hg⟩ := Option.map_eq_some_iff.mp h
    cases hg
    simp only [bodyEffect, OpenBody.told_last, hq]
    rfl
  case bodyRowWord w =>
    change (if _ then _ else _) = _ at h
    split at h <;> cases h
    simp only [bodyEffect, rowWrite, if_pos ‹_›]
    rfl
  all_goals cases h

/-- Settles O39: what a body word hands to `State.bodyWord`, one fact of `bodyEffect` per clause. -/
theorem bodyWordsWriteTheShadowBlock : Obligations.BodyWordsWriteTheShadowBlock := by
  unfold Obligations.BodyWordsWriteTheShadowBlock
  intro s i x
  refine ⟨fun w hi h hw => ?_, fun o h => ?_⟩
  · by_cases hb : ∀ m id crc, i ≠ .bend m id crc
    · rw [exec_writesBody ⟨hi, hb⟩, State.bodyWord_misplaced h hw]
    · push Not at hb
      obtain ⟨m, id, crc, rfl⟩ := hb
      exact exec_bend_misplaced h hw
  · intro b hi hbend
    obtain ⟨hmask, hid, hpc⟩ := bodyEffect_fixed i o b
    refine ⟨(bodyEffect i o b).2, (bodyEffect i o b).1, ?_, hmask, hid, hpc, fun m id hr => bodyEffect_told ⟨hi, hbend⟩ hr o b, ?_,
      fun hw hn => bodyEffect_of_elementPart_none hw hn, fun cols rows g hg => ?_, ?_, ?_, ?_, ?_, ?_, ?_, ?_⟩
    · rw [goesOn, exec_writesBody ⟨hi, hbend⟩, State.bodyWord, h]
      change (s.setShadow s.pan (bodyEffect i o b).1.mask (bodyEffect i o b).2).done _ = _
      rw [hmask]; rfl
    · rintro w rfl; exact bodyEffect_last w o b
    · rw [bodyEffect_of_elementPart hg]
      exact ⟨rfl, fun hwf e => Block.write_get hwf cols rows g e⟩
    · rintro m id k j base sz dp ctr dir clr rfl; exact ⟨_, payloadOf_bind .., rfl⟩
    · rintro m id c base sz dp ctr dir clr rfl; exact ⟨_, payloadOf_bind .., rfl⟩
    · rintro m id q rv dp sd g fs rfl; exact ⟨_, payloadOf_bind .., rfl⟩
    · rintro m id k j ctr rfl; exact ⟨rfl, List.mem_append_right _ List.mem_cons_self⟩
    · rintro m id c ctr rfl; exact ⟨rfl, List.mem_append_right _ List.mem_cons_self⟩
    · rintro m id v rfl; rfl
    · rintro m id rows sg rfl
      exact ⟨rfl, fun hwf j => nestWrite_stage_get hwf rows sg j⟩

end Sys2Proof.Machine
end

/-! # DICTLD and FLUSHI (O32)

Both begin one wait (`State.startLong`) and end it by one read of virtual memory, which changes no context (`ReadsFrom`). -/

section
namespace Sys2Proof.Machine
open Sys2Proof.Claims

/-! ## What a read of memory leaves as it was -/

/-- What a read on the memory side leaves as it was: the contexts, the accesses under way and, with nothing to scrub, memory. -/
structure ReadsFrom (s t : State) : Prop where
  ctxs : t.ctxs = s.ctxs
  cur : t.cur = s.cur
  accs : t.accs = s.accs
  mem : s.scrub = [] → t.mem = s.mem ∧ t.scrub = []

theorem ReadsFrom.refl (s : State) : ReadsFrom s s := ⟨rfl, rfl, rfl, fun h => ⟨rfl, h⟩⟩

theorem ReadsFrom.trans {s t u : State} (h : ReadsFrom s t) (k : ReadsFrom t u) : ReadsFrom s u where
  ctxs := k.ctxs.trans h.ctxs
  cur := k.cur.trans h.cur
  accs := k.accs.trans h.accs
  mem := fun hs => ⟨(k.mem (h.mem hs).2).1.trans (h.mem hs).1, (k.mem (h.mem hs).2).2⟩

theorem State.sendFlit_readsFrom (s : State) (link : BitVec 5) (f : Flit) : ReadsFrom s (s.sendFlit link f) := by
  unfold State.sendFlit
  dsimp only
  split
  · exact ⟨rfl, rfl, rfl, fun h => ⟨rfl, h⟩⟩
  · exact .refl s

theorem State.askLine_readsFrom (s : State) (mdie : Nat) (tenant : BitVec 16) (l : Loc) : ReadsFrom s (s.askLine mdie tenant l) := by
  unfold State.askLine State.forward
  split
  · exact s.sendFlit_readsFrom ..
  · exact .refl s

theorem State.countAccess_readsFrom (s : State) (die p n : Nat) : ReadsFrom s (s.countAccess die p n) := by
  unfold State.countAccess
  split
  · exact .refl s
  · dsimp only
    split <;> exact ⟨rfl, rfl, rfl, fun h => ⟨rfl, h⟩⟩

theorem State.scrubOne_readsFrom (s : State) (line : Nat) : ReadsFrom s (s.scrubOne line) := by
  unfold State.scrubOne
  split
  · next hline => exact ⟨rfl, rfl, rfl, fun h => by rw [h] at hline; cases hline⟩
  · exact .refl s

theorem State.scrubLines_readsFrom (n : Nat) (s : State) (line : Nat) : ReadsFrom s (s.scrubLines line n) := by
  induction n generalizing s line with
  | zero => exact .refl s
  | succ n ih => exact (s.scrubOne_readsFrom line).trans (ih _ _)

theorem State.settleAt_of_quiet {s : State} (h : quiet s) (l : Loc) (n : Nat) : s.settleAt l n = s := by
  have hnone : (s.accs.filter fun a => a.locks l n) = [] := List.filter_eq_nil_iff.mpr fun a ha => by simp [Acc.locks, h a ha]
  rw [State.settleAt, hnone]; rfl

/-- With no commit under way a read of virtual memory is a read. -/
theorem State.touchVirt_readsFrom {s : State} (h : quiet s) (x : Ctx) (die a n : Nat) : ReadsFrom s (s.touchVirt x (some die) a n) := by
  refine List.foldlRecOn (motive := fun t => ReadsFrom s t) _ _ (.refl s) fun t ht v _ => ht.trans ?_
  have hq : quiet t := fun b hb => h b (by rwa [ht.accs] at hb)
  split
  · exact .refl t
  · dsimp only
    split
    · exact t.askLine_readsFrom ..
    · rw [State.settleAt_of_quiet hq]
      exact (t.countAccess_readsFrom ..).trans (State.scrubLines_readsFrom ..)


/-! ## Bytes read through an extent table -/

/-- A read of bytes is a read of the first ones and of the others. -/
theorem State.readVirt_add {s : State} {x : Ctx} {die m n a : Nat} {bs : List Byte} (h : s.readVirt x die a (m + n) = .bytes bs) :
    ∃ as cs, s.readVirt x die a m = .bytes as ∧ s.readVirt x die (a + m) n = .bytes cs ∧ bs = as ++ cs := by
  induction m generalizing a bs with
  | zero => exact ⟨[], bs, rfl, by rwa [Nat.zero_add] at h, rfl⟩
  | succ m ih =>
    rw [Nat.add_right_comm, State.readVirt] at h
    rw [State.readVirt]
    split at h
    · next b hb =>
      split at h
      · next ds hds =>
        cases h
        obtain ⟨as, cs, has, hcs, rfl⟩ := ih hds
        exact ⟨b ++ as, cs, by simp only [has], by rwa [Nat.add_right_comm, Nat.add_assoc] at hcs, by rw [List.append_assoc]⟩
      · next hds => exact absurd h (hds _)
    · next hb => exact absurd h (hb _)

/-- The lines of a text that can be read are its bytes. -/
theorem State.readLines_of_readVirt {s : State} {x : Ctx} {die n a : Nat} {bs : List Byte} (h : s.readVirt x die a (64 * n) = .bytes bs) :
    (s.readLines x die a n).1 = bs := by
  induction n generalizing a bs with
  | zero => cases h; rfl
  | succ n ih =>
    rw [Nat.mul_succ, Nat.add_comm] at h
    obtain ⟨as, cs, has, hcs, rfl⟩ := State.readVirt_add h
    simp only [State.readLines, has, ih hcs]

/-! ## Dictionary entries -/

theorem leNat_eq_little (bs : List Byte) : leNat bs = little bs := by
  induction bs with
  | nil => rfl
  | cons b bs ih => rw [leNat, ih]; rfl

theorem dictEntries_length (n : Nat) (bs : List Byte) : (dictEntries n bs).length = n := by
  induction n generalizing bs with
  | zero => rfl
  | succ n ih => rw [dictEntries, List.length_cons, ih]

theorem dictEntries_getD {n k : Nat} (h : k < n) (bs : List Byte) : (dictEntries n bs).getD k 0 = little ((bs.drop (16 * k)).take 16) := by
  induction n generalizing k bs with
  | zero => exact absurd h (Nat.not_lt_zero k)
  | succ n ih =>
    cases k with
    | zero => rw [dictEntries, List.getD_cons_zero, leNat_eq_little]; rfl
    | succ k => rw [dictEntries, List.getD_cons_succ, ih (by omega), List.drop_drop, Nat.mul_succ, Nat.add_comm]

/-! ## The long holds -/

theorem Ctx.drained_iff (x : Ctx) : x.drained = true ↔ allLanded x := by
  have hf : (x.flight.all fun f => match f.dst with | .s _ => false | .l _ _ => true) = true ↔ ∀ f ∈ x.flight, ∀ r, f.dst ≠ .s r := by
    rw [List.all_eq_true]
    refine forall₂_congr fun f _ => ?_
    cases f.dst <;> simp
  have hy : (x.replays.all fun y => !y.due.isSome) = true ↔ ∀ y ∈ [x.y0, x.y1, x.y2, x.y3], y.due = none := by
    simp [Ctx.replays]
  rw [Ctx.drained, Bool.and_eq_true, Bool.and_eq_true]
  exact (and_congr (and_congr hf hy) List.isEmpty_iff).trans (by rw [allLanded]; tauto)

theorem State.holdWith_of_none {s : State} (h : s.self.hold = none) (v : Word) (n : Nat) :
    s.holdWith v n = { since := s.self.cyc, fab := s.cycle, val := v, upto := n } := by rw [State.holdWith, h]; rfl

theorem State.holdWith_of_some {s : State} {h : Hold} (hh : s.self.hold = some h) (v : Word) (n : Nat) : s.holdWith v n = h := by
  rw [State.holdWith, hh]; rfl

theorem State.longOver_iff (s : State) (lo n : Nat) : s.longOver lo n = true ↔
    ∃ h, s.self.hold = some h ∧ h.stage = 1 ∧ h.since + 11 ≤ s.self.cyc ∧ h.upto ≤ s.cycle ∧ s.readFree false = true ∧
      s.linesFree lo n = true := by
  unfold State.longOver
  cases s.self.hold with
  | none => simp
  | some h =>
    have hcyc : 11 ≤ s.self.cyc - h.since ↔ h.since + 11 ≤ s.self.cyc := by omega
    simp [longHold, hcyc, and_assoc]

/-- Once every result has landed, the wait begins (R69, R141). -/
theorem State.startLong_begins {s : State} {v : Word} {h : Hold} (hh : s.holdWith v 0 = h) (hst : h.stage = 0) (hl : allLanded s.self) :
    ∃ t g, s.startLong v = .next t ∧ holds s t g ∧ g.stage = 1 ∧ g.since = h.since ∧ g.val = h.val ∧ s.cycle + 40 ≤ g.upto ∧
      t = { s with ctxs := t.ctxs, latencies := s.latencies.tail } := by
  have hlong : s.startLong v = s.takeLatency.holdOn s.self { h with stage := 1, upto := s.cycle + s.nextLatency } .other := by
    rw [State.startLong, hh]
    exact if_pos ⟨hst, s.self.drained_iff.mpr hl⟩
  have hlat : 40 ≤ s.nextLatency := Nat.le_max_left _ _
  obtain ⟨hhold, hframe⟩ :=
    State.holdOn_holds (s := s.takeLatency) (h := { h with stage := 1, upto := s.cycle + s.nextLatency }) (k := .other) rfl
  exact ⟨_, _, hlong, hhold, rfl, rfl, rfl, Nat.add_le_add_left hlat _, hframe⟩

/-- Until then, and while it lasts, the hold goes on. -/
theorem State.startLong_waits {s : State} {v : Word} {h : Hold} (hh : s.holdWith v 0 = h) (hst : ¬ (h.stage = 0 ∧ allLanded s.self)) :
    ∃ t, s.startLong v = .next t ∧ holds s t h ∧ t = { s with ctxs := t.ctxs } := by
  have hlong : s.startLong v = s.holdOn s.self h .other := by
    rw [State.startLong, hh]
    exact if_neg (by rwa [s.self.drained_iff])
  exact ⟨_, hlong, State.holdOn_holds rfl⟩

/-! ## DICTLD and FLUSHI -/

/-- The address of a DICTLD: its base is read in the first cycle of the hold (log 26). -/
def State.dictAddr (s : State) (ra : Reg) (off : Word) : Nat := ((s.holdWith (s.reg ra) 0).val + off).toNat

theorem exec_dictld_of_fault {s : State} {ra : Reg} {off : Word} {k : Nat} (h : s.dictFault (s.dictAddr ra off) = some k) :
    exec (.dictld ra off) s = s.trap k (s.dictAddr ra off) := by
  change execDictld ra off s = _
  unfold State.dictAddr at h ⊢
  simp only [execDictld, h]

theorem exec_dictld_of_ok {s : State} {ra : Reg} {off : Word} (h : s.dictFault (s.dictAddr ra off) = none) :
    exec (.dictld ra off) s =
      if s.longOver (s.dictAddr ra off) 4096 then s.putDict (s.dictAddr ra off) else s.startLong (s.holdWith (s.reg ra) 0).val := by
  change execDictld ra off s = _
  unfold State.dictAddr at h ⊢
  simp only [execDictld, h]

theorem exec_flushi (s : State) : exec .flushi s =
    if s.longOver s.self.textBase (64 * s.self.textLines) then s.reexpand else s.startLong 0 := rfl

theorem State.dictFault_unaligned {s : State} {a : Nat} (h : a % 64 ≠ 0) : s.dictFault a = some 0x0A := if_pos h

/-- All bytes of a dictionary lie in extents. -/
def State.dictInExtent (s : State) (a : Nat) : Prop :=
  a + 4096 ≤ 2 ^ 56 ∧ (s.self.extentOf a).isSome = true ∧ (s.self.extentOf (a + 4095)).isSome = true

theorem State.dictFault_aligned (s : State) {a : Nat} (h : a % 64 = 0) :
    (s.dictInExtent a → s.dictFault a = none) ∧ (¬ s.dictInExtent a → s.dictFault a = some 0x09) := by
  have hout : (2 ^ 56 < a + 4096 ∨ (s.self.extentOf a).isNone = true ∨ (s.self.extentOf (a + 4095)).isNone = true) ↔
      ¬ s.dictInExtent a := by
    simp only [State.dictInExtent, not_and_or, Nat.not_le, Bool.not_eq_true, ← Option.not_isSome, Bool.not_eq_true']
  rw [State.dictFault, if_neg (not_not_intro h)]
  exact ⟨fun hi => if_neg (by rw [hout]; exact not_not_intro hi), fun hi => if_pos (hout.mpr hi)⟩

theorem Ctx.instr?_of_standsAt {x : Ctx} {i : Instr} (h : standsAt x i) : x.instr? = some i := by
  obtain ⟨w, hw, hd⟩ := h
  obtain ⟨e, he, hc⟩ := Option.map_eq_some_iff.mp hw
  simp only [Ctx.instr?, he, Option.bind_some, Expanded.instr?, hc, hd]

section
variable {s t : State} (h : ReadsFrom s t)
include h

theorem ReadsFrom.self : t.self = s.self := by rw [State.self, State.ctx, h.ctxs, h.cur]; rfl
theorem ReadsFrom.pan : t.pan = s.pan := by rw [State.pan, h.cur]; rfl
end

/-! ## The end of the wait -/

/-- FLUSHI's read: the text comes from memory, under the current dictionary. -/
theorem State.reexpand_of_quiet {s f : State} (h : quiet s)
    (hf : f = s.touchVirt s.self (some (dieOf s.pan)) s.self.textBase (64 * s.self.textLines)) :
    s.reexpand = .next (f.setSelf
      ({ s.self with text := (f.readLines s.self (dieOf s.pan) s.self.textBase s.self.textLines).1 } : Ctx).expand.passed) := by
  have hr : ReadsFrom s f := hf ▸ State.touchVirt_readsFrom h _ _ _ _
  rw [State.reexpand, State.touchText, ← hf, hr.self, hr.pan]
  rfl

/-- DICTLD's read: the dictionary comes from memory, and the text that the context has is expanded under it. -/
theorem State.putDict_of_bytes {s d : State} {a : Nat} {bs : List Byte} (h : quiet s)
    (hd : d = s.touchVirt s.self (some (dieOf s.pan)) a 4096)
    (hbs : d.readVirt s.self (dieOf s.pan) a 4096 = .bytes bs) :
    s.putDict a = .next (d.setSelf
      ({ s.self with dict := dictEntries 256 bs, dictAt := BitVec.ofNat 64 a, dgen := s.self.dgen + 1 } : Ctx).expand.passed) := by
  have hr : ReadsFrom s d := hd ▸ State.touchVirt_readsFrom h _ _ _ _
  simp only [State.putDict, ← hd, hr.self, hr.pan, hbs]
  rfl

theorem State.putDict_of_corrupt {s d : State} {a b : Nat} (h : quiet s) (hd : d = s.touchVirt s.self (some (dieOf s.pan)) a 4096)
    (hb : d.readVirt s.self (dieOf s.pan) a 4096 = .corrupt b) : s.putDict a = d.trap 0x12 a := by
  have hr : ReadsFrom s d := hd ▸ State.touchVirt_readsFrom h _ _ _ _
  simp only [State.putDict, ← hd, hr.self, hr.pan, hb]

section
variable {s : State} (hturn : s.turn.head? = some s.cur) (hrun : s.self.run = .running)
include hturn hrun

theorem State.heldNow_of_longOver {lo n : Nat} (ho : s.longOver lo n = true) : s.heldNow s.cur = true := by
  obtain ⟨g, hg, -⟩ := (s.longOver_iff lo n).mp ho
  have hhold : (s.ctx s.cur).hold = some g := hg
  have hrun : (s.ctx s.cur).run = .running := hrun
  simp [State.heldNow, hturn, hhold, hrun]

theorem exec_flushiComplete (hi : s.self.instr? = some .flushi) (ho : s.longOver s.self.textBase (64 * s.self.textLines) = true) :
    exec (.flushiComplete s.cur) s = exec .flushi { s with turn := s.turn.tail } := by
  have hi : (s.ctx s.cur).instr? = some .flushi := hi
  change execFlushiComplete s.cur s = if s.longOver s.self.textBase (64 * s.self.textLines) then State.reexpand _ else _
  rw [if_pos ho]
  simp only [execFlushiComplete, hi]
  exact if_pos (Bool.and_eq_true_iff.mpr ⟨State.heldNow_of_longOver hturn hrun ho, ho⟩)

theorem exec_dictldComplete {ra : Reg} {off : Word} (hi : s.self.instr? = some (.dictld ra off))
    (hok : s.dictFault (s.dictAddr ra off) = none) (ho : s.longOver (s.dictAddr ra off) 4096 = true) :
    exec (.dictldComplete s.cur) s = exec (.dictld ra off) { s with turn := s.turn.tail } := by
  have hi : (s.ctx s.cur).instr? = some (.dictld ra off) := hi
  rw [exec_dictld_of_ok (s := { s with turn := s.turn.tail }) (by exact hok), if_pos (by exact ho)]
  change execDictldComplete s.cur s = _
  simp only [execDictldComplete, hi]
  exact if_pos (Bool.and_eq_true_iff.mpr ⟨State.heldNow_of_longOver hturn hrun ho, ho⟩)
end

/-- Settles O32: the checks, the wait that `State.startLong` begins and goes on with, and the two reads that end it. -/
theorem dictionaryAndTextAreExpandedAgain : Obligations.DictionaryAndTextAreExpandedAgain := by
  unfold Obligations.DictionaryAndTextAreExpandedAgain
  intro s ra off c x a inExtent past pastText pastDict d f
  have ha : s.dictAddr ra off = a := by
    change ((x.hold.getD _).val + off).toNat = a
    cases hx : x.hold <;> simp [a, hx]
  have hover : ∀ lo n, s.longOver lo n = true ↔ past lo n := s.longOver_iff
  have hok : a % 64 = 0 → inExtent → s.dictFault (s.dictAddr ra off) = none := fun h64 hin => by
    rw [ha]; exact (s.dictFault_aligned h64).1 hin
  have hwaits : ∀ i v, (i = .flushi ∧ v = 0 ∧ ¬ pastText) ∨
      (i = .dictld ra off ∧ a % 64 = 0 ∧ inExtent ∧ v = (s.holdWith (s.reg ra) 0).val ∧ ¬ pastDict) → exec i s = s.startLong v := by
    rintro i v (⟨rfl, rfl, hp⟩ | ⟨rfl, h64, hin, rfl, hp⟩)
    · rw [exec_flushi, if_neg (by rwa [hover])]
    · rw [exec_dictld_of_ok (hok h64 hin), if_neg (by rwa [ha, hover])]
  have hstarts : ∀ i, (i = .flushi ∧ ¬ pastText) ∨ (i = .dictld ra off ∧ a % 64 = 0 ∧ inExtent ∧ ¬ pastDict) →
      ∃ v, exec i s = s.startLong v := by
    rintro i (⟨rfl, hp⟩ | ⟨rfl, h64, hin, hp⟩)
    · exact ⟨_, hwaits _ _ (.inl ⟨rfl, rfl, hp⟩)⟩
    · exact ⟨_, hwaits _ _ (.inr ⟨rfl, h64, hin, rfl, hp⟩)⟩
  have hidle : (∀ h, x.hold = some h → h.stage = 0) → ∀ lo n, ¬ past lo n := by
    rintro hx lo n ⟨g, hg, hst, -⟩
    exact absurd ((hx g hg).symm.trans hst) (by decide)
  refine ⟨fun h64 => ?_, fun h64 hin => ?_, fun i v hi hx => ?_, fun i h hi hx hst => ?_, fun i h hi hx hst => ?_, fun hq => ?_,
    fun hp hq => ?_, fun h64 hin hp hq => ⟨fun bs hbs => ?_, fun b hb => ?_⟩, fun ht hrun hc => ?_⟩
  · rw [exec_dictld_of_fault (by rw [ha]; exact State.dictFault_unaligned h64), ha]
  · rw [exec_dictld_of_fault (by rw [ha]; exact (s.dictFault_aligned h64).2 hin), ha]
  · have hp := hidle fun h hh => absurd (hh.symm.trans hx) (Option.some_ne_none h)
    have hexec : exec i s = s.startLong v := hwaits i v <| hi.imp (fun ⟨hi, hv⟩ => ⟨hi, hv, hp _ _⟩)
      fun ⟨hi, h64, hin, hv⟩ => ⟨hi, h64, hin, by rw [hv, State.holdWith_of_none hx], hp _ _⟩
    rw [hexec]
    refine ⟨State.startLong_begins (State.holdWith_of_none hx v 0) rfl, fun hl => ?_⟩
    obtain ⟨t, ht, hhold, hframe⟩ := State.startLong_waits (State.holdWith_of_none hx v 0) fun hc => hl hc.2
    exact ⟨t, _, ht, hhold, rfl, rfl, rfl, hframe⟩
  · have hp := hidle fun g hg => by cases hx.symm.trans hg; exact hst
    obtain ⟨v, hexec⟩ := hstarts i <| hi.imp (fun hi => ⟨hi, hp _ _⟩) fun ⟨hi, h64, hin⟩ => ⟨hi, h64, hin, hp _ _⟩
    rw [hexec]
    refine ⟨fun hl => ?_, fun hl => State.startLong_waits (State.holdWith_of_some hx v 0) fun hc => hl hc.2⟩
    obtain ⟨t, g, ht, hg⟩ := State.startLong_begins (State.holdWith_of_some hx v 0) hst hl
    exact ⟨t, ht, g, hg⟩
  · obtain ⟨v, hexec⟩ := hstarts i hi
    rw [hexec]
    exact State.startLong_waits (State.holdWith_of_some hx v 0) fun hc => by omega
  · have hd : ReadsFrom s d := State.touchVirt_readsFrom hq ..
    have hf : ReadsFrom s f := State.touchVirt_readsFrom hq ..
    exact ⟨hd.ctxs, hf.ctxs, fun hs => ⟨(hd.mem hs).1, (hf.mem hs).1⟩⟩
  · have hexec : exec .flushi s = s.reexpand := by rw [exec_flushi, if_pos ((hover _ _).mpr hp)]
    exact ⟨_, hexec.trans (State.reexpand_of_quiet (f := f) hq rfl), rfl, rfl, rfl, fun bs hbs => State.readLines_of_readVirt hbs⟩
  · have hexec : exec (.dictld ra off) s = s.putDict a := by rw [exec_dictld_of_ok (hok h64 hin), ha, if_pos ((hover _ _).mpr hp)]
    exact ⟨_, hexec.trans (State.putDict_of_bytes (d := d) hq rfl hbs), rfl, dictEntries_length 256 bs, fun k hk => dictEntries_getD hk bs,
      rfl, rfl⟩
  · rw [exec_dictld_of_ok (hok h64 hin), ha, if_pos ((hover _ _).mpr hp), State.putDict_of_corrupt hq rfl hb]
  · subst hc
    exact ⟨fun hp hi => exec_flushiComplete ht hrun (Ctx.instr?_of_standsAt hi) ((hover _ _).mpr hp),
      fun hp hi h64 hin => exec_dictldComplete ht hrun (Ctx.instr?_of_standsAt hi) (hok h64 hin) (by rw [ha]; exact (hover _ _).mpr hp)⟩

end Sys2Proof.Machine
end

/-! # HALT, ECALL and CKPT (O30) -/

section
namespace Sys2Proof.Machine
open Sys2Proof.Claims

/-! ## A context cycle in which nothing is due -/

theorem Ctx.endCycle_of_nothingDue {x : Ctx} (h : nothingDue x) (ho : x.occ = 0) (k : Spent) : x.endCycle k = { x with cyc := x.cyc + 1 } := by
  obtain ⟨hflight, hreplays, hstruck⟩ := h
  refine x.endCycle_quiet k hflight (fun y hy hv d hd => ?_) hstruck ho
  have hnot := hreplays y hy
  by_contra hle
  exact hnot ⟨hv, d, hd, by omega⟩

/-! ## HALT -/

/-- The context that HALT leaves. -/
def Ctx.stopped (x : Ctx) : Ctx := ({ x with run := .stop, hold := none } : Ctx).endCycle .issue

theorem Ctx.stopped_run (x : Ctx) : x.stopped.run = .stop := Ctx.endCycle_run _ _

theorem Ctx.stopped_ne_default (x : Ctx) : x.stopped ≠ {} := fun h => by
  have hrun := (x.stopped_run).symm.trans (congrArg Ctx.run h)
  cases hrun

theorem exec_halt_stops {s : State} (h : allLanded s.self) :
    exec .halt s = .next ((s.setSelf s.self.stopped).emit (.halt s.cur s.self.task s.self.inst)) :=
  if_pos (s.self.drained_iff.mpr h)

theorem exec_halt_waits {s : State} (h : ¬ allLanded s.self) : exec .halt s = s.holdOn s.self s.holdNow .other :=
  if_neg (by rwa [s.self.drained_iff])

theorem exec_haltResume_of_stop {s : State} {c : Nat} (h : (s.ctx c).run = .stop) (b : Bool) :
    exec (.haltResume c b) s = if b then .next (s.setCtx c { (s.ctx c).goNext (s.ctx c).next with run := .running })
      else .next (s.endInstance (s.ctx c).ref (s.ctx c).inst) := if_pos h

/-! ## ECALL -/

/-- The hold that an ECALL has not sent its request in keeps the argument as it was read at issue (log 26). -/
theorem State.holdWith_unsent {s : State} {a v : Word}
    (h : s.self.hold = none ∧ a = v ∨ ∃ g, s.self.hold = some g ∧ g.stage = 0 ∧ a = g.val) :
    (s.holdWith v 0).stage = 0 ∧ (s.holdWith v 0).val = a := by
  obtain ⟨hnone, rfl⟩ | ⟨g, hg, hst, rfl⟩ := h
  · rw [State.holdWith_of_none hnone]; exact ⟨rfl, rfl⟩
  · rw [State.holdWith_of_some hg]; exact ⟨hst, rfl⟩

section
variable {s : State} {rd ra : Reg} {svc : BitVec 16}

theorem exec_ecall_sends {h : Hold} (hh : s.holdWith (s.reg ra) 0 = h) (hst : h.stage = 0) (hl : allLanded s.self) :
    exec (.ecall rd ra svc) s = (s.emit (.ecall s.cur svc h.val)).holdOn s.self { h with stage := 1 } .other := by
  change execEcall rd ra svc s = _
  simp [execEcall, hh, hst, s.self.drained_iff.mpr hl]

theorem exec_ecall_waits {h : Hold} (hh : s.holdWith (s.reg ra) 0 = h) (hst : h.stage = 0 ∧ ¬ allLanded s.self ∨ h.stage = 1) :
    exec (.ecall rd ra svc) s = s.holdOn s.self h .other := by
  change execEcall rd ra svc s = _
  obtain ⟨hst, hl⟩ | hst := hst
  · simp [execEcall, hh, hst, s.self.drained_iff, hl]
  · simp [execEcall, hh, hst]

theorem exec_ecall_answered {h : Hold} (hh : s.self.hold = some h) (hst : h.stage = 2) :
    exec (.ecall rd ra svc) s = .next (s.setSelf (s.self.passed.setReg rd h.val)) := by
  rw [← State.result_one]
  change execEcall rd ra svc s = _
  simp [execEcall, State.holdWith_of_some hh, hst]

end

theorem exec_ecallAnswer {s : State} {c : Nat} {rd ra : Reg} {svc : BitVec 16} {h : Hold} (hi : (s.ctx c).instr? = some (.ecall rd ra svc))
    (hh : (s.ctx c).hold = some h) (hst : h.stage = 1) (v : Word) :
    exec (.ecallAnswer c v) s = .next (s.setCtx c { s.ctx c with hold := some { h with stage := 2, val := v } }) := by
  change execEcallAnswer c v s = _
  simp [execEcallAnswer, hi, hh, hst]

/-- Settles O30: HALT by whether every result has landed, ECALL by the stage of its hold. -/
theorem contextsStopForFirmware : Obligations.ContextsStopForFirmware := by
  unfold Obligations.ContextsStopForFirmware
  intro s rd ra svc tag c v x
  refine ⟨fun hl => ?_, fun hl => ?_, fun hstop => ?_, fun a ha => ⟨fun hl => ?_, fun hl => ?_⟩, fun h hh hst => ?_,
    fun h hh hst hi => exec_ecallAnswer (Ctx.instr?_of_standsAt hi) hh hst v, fun h hh hst => ⟨_, rfl, exec_ecall_answered hh hst⟩, rfl⟩
  · have hself : ((s.setSelf x.stopped).emit (.halt s.cur x.task x.inst)).self = x.stopped := State.self_setSelf x.stopped_ne_default s
    refine ⟨_, exec_halt_stops hl, rfl, ?_, ?_, ?_, rfl, fun hnd ho => ?_⟩ <;> rw [hself]
    · exact x.stopped_run
    · exact Ctx.endCycle_pc _ _
    · exact Ctx.endCycle_ls _ _
    · exact Ctx.endCycle_of_nothingDue (x := { x with run := .stop, hold := none }) hnd ho .issue
  · obtain ⟨hhold, hframe⟩ := State.holdOn_holds (s := s) (h := s.holdNow) (k := .other) rfl
    exact ⟨_, _, exec_halt_waits hl, hhold, hframe⟩
  · exact ⟨_, exec_haltResume_of_stop hstop true, rfl, rfl⟩
  · obtain ⟨hst, rfl⟩ := State.holdWith_unsent ha
    obtain ⟨hhold, hframe⟩ := State.holdOn_holds (s := s.emit (.ecall s.cur svc (s.holdWith (s.reg ra) 0).val))
      (h := { s.holdWith (s.reg ra) 0 with stage := 1 }) (k := .other) rfl
    exact ⟨_, _, exec_ecall_sends rfl hst hl, hhold, rfl, hframe⟩
  · obtain ⟨hst, rfl⟩ := State.holdWith_unsent ha
    obtain ⟨hhold, hframe⟩ := State.holdOn_holds (s := s) (h := s.holdWith (s.reg ra) 0) (k := .other) rfl
    exact ⟨_, _, exec_ecall_waits rfl (.inl ⟨hst, hl⟩), hhold, hst, rfl, hframe⟩
  · obtain ⟨hhold, hframe⟩ := State.holdOn_holds (s := s) (h := h) (k := .other) rfl
    exact ⟨_, exec_ecall_waits (State.holdWith_of_some hh _ _) (.inr hst), hhold, hframe⟩

end Sys2Proof.Machine
end

/-! # WAITE (O31) -/

section
namespace Sys2Proof.Machine
open Sys2Proof.Claims

/-! ## The events of a WAITE -/

/-- The full landing registers that a WAITE names, those below `n`, as a number. -/
def Ctx.fullMask (x : Ctx) (mask : BitVec 10) (n : Nat) : Nat :=
  (List.range n).foldl (fun v k => if mask.getLsbD k && (Kv.get {} x.l k).full then v + 2 ^ k else v) 0

theorem Ctx.fullMask_succ (x : Ctx) (mask : BitVec 10) (n : Nat) :
    x.fullMask mask (n + 1) = x.fullMask mask n + 2 ^ n * (mask.getLsbD n && (Kv.get {} x.l n).full).toNat := by
  rw [Ctx.fullMask, List.range_succ, List.foldl_append]
  change (if _ then x.fullMask mask n + 2 ^ n else x.fullMask mask n) = _
  split <;> simp_all

theorem Ctx.fullMask_lt (x : Ctx) (mask : BitVec 10) (n : Nat) : x.fullMask mask n < 2 ^ n := by
  induction n with
  | zero => exact Nat.one_pos
  | succ n ih =>
    have hb := Bool.toNat_le (mask.getLsbD n && (Kv.get {} x.l n).full)
    have hm := Nat.mul_le_mul_left (2 ^ n) hb
    rw [Ctx.fullMask_succ, Nat.pow_succ]
    omega

theorem Ctx.testBit_fullMask (x : Ctx) (mask : BitVec 10) {n k : Nat} (h : k < n) :
    (x.fullMask mask n).testBit k = (mask.getLsbD k && (Kv.get {} x.l k).full) := by
  induction n with
  | zero => exact absurd h (Nat.not_lt_zero k)
  | succ n ih =>
    rw [Ctx.fullMask_succ, Nat.add_comm, Nat.testBit_two_pow_mul_add _ (x.fullMask_lt mask n)]
    split
    · next hk => exact ih hk
    · next hk =>
      have hkn : k = n := by omega
      subst hkn
      rw [Nat.sub_self]
      cases mask.getLsbD k && (Kv.get {} x.l k).full <;> rfl

/-- Whether the two counters of the inbox of a context's task differ (R138, R284). -/
def State.unread (s : State) (x : Ctx) : Bool :=
  match s.task? x.ref with
  | some t =>
    let l := (t.inboxLoc 0).owner
    if l.dev = s.ownDev.toNat then s.peekNat l.pa 8 != s.peekNat (l.pa + 8) 8 else s.readAt l 8 != s.readAt { l with pa := l.pa + 8 } 8
  | none => false

/-- The events that a WAITE finds, as a number. -/
def State.waitNat (s : State) (c : Nat) (mask : BitVec 10) : Nat :=
  2 ^ 8 * (2 * (mask.getLsbD 9 && (s.ctx c).yreq).toNat + (mask.getLsbD 8 && s.unread (s.ctx c)).toNat) + (s.ctx c).fullMask mask 8

theorem State.waitNat_lt (s : State) (c : Nat) (mask : BitVec 10) : s.waitNat c mask < 2 ^ 10 := by
  have hfull := (s.ctx c).fullMask_lt mask 8
  have hy := Bool.toNat_le (mask.getLsbD 9 && (s.ctx c).yreq)
  have hu := Bool.toNat_le (mask.getLsbD 8 && s.unread (s.ctx c))
  unfold State.waitNat
  omega

theorem State.waitEvents_eq (s : State) (c : Nat) (mask : BitVec 10) : s.waitEvents c mask = BitVec.ofNat 64 (s.waitNat c mask) := by
  change BitVec.ofNat 64 ((s.ctx c).fullMask mask 8 + (if mask.getLsbD 8 && s.unread (s.ctx c) then 2 ^ 8 else 0)
    + (if mask.getLsbD 9 && (s.ctx c).yreq then 2 ^ 9 else 0)) = _
  congr 1
  unfold State.waitNat
  cases mask.getLsbD 8 && s.unread (s.ctx c) <;> cases mask.getLsbD 9 && (s.ctx c).yreq <;> simp <;> omega

theorem State.waitEvents_toNat (s : State) (c : Nat) (mask : BitVec 10) : (s.waitEvents c mask).toNat = s.waitNat c mask := by
  have hlt := s.waitNat_lt c mask
  rw [s.waitEvents_eq, BitVec.toNat_ofNat, Nat.mod_eq_of_lt (by omega)]

theorem State.waitEvents_getLsbD (s : State) (c : Nat) (mask : BitVec 10) (k : Nat) :
    (s.waitEvents c mask).getLsbD k = if k < 8 then ((s.ctx c).fullMask mask 8).testBit k
      else (2 * (mask.getLsbD 9 && (s.ctx c).yreq).toNat + (mask.getLsbD 8 && s.unread (s.ctx c)).toNat).testBit (k - 8) := by
  rw [BitVec.getLsbD, s.waitEvents_toNat, State.waitNat, Nat.testBit_two_pow_mul_add _ ((s.ctx c).fullMask_lt mask 8)]

theorem State.waitEvents_full (s : State) (c : Nat) (mask : BitVec 10) {k : Nat} (h : k < 8) :
    (s.waitEvents c mask).getLsbD k = (mask.getLsbD k && (Kv.get {} (s.ctx c).l k).full) := by
  rw [s.waitEvents_getLsbD, if_pos h, Ctx.testBit_fullMask _ _ h]

theorem State.waitEvents_yield (s : State) (c : Nat) (mask : BitVec 10) :
    (s.waitEvents c mask).getLsbD 9 = (mask.getLsbD 9 && (s.ctx c).yreq) := by
  rw [s.waitEvents_getLsbD, if_neg (by decide)]
  cases mask.getLsbD 9 && (s.ctx c).yreq <;> cases mask.getLsbD 8 && s.unread (s.ctx c) <;> rfl

theorem State.waitEvents_inbox (s : State) (c : Nat) (mask : BitVec 10) :
    (s.waitEvents c mask).getLsbD 8 = (mask.getLsbD 8 && s.unread (s.ctx c)) := by
  rw [s.waitEvents_getLsbD, if_neg (by decide)]
  cases mask.getLsbD 9 && (s.ctx c).yreq <;> cases mask.getLsbD 8 && s.unread (s.ctx c) <;> rfl

/-! ## Bytes read with nothing left to scrub -/

theorem State.peek_of_scrubbed {s : State} (h : s.scrub = []) (p : Nat) : s.peek p = s.readByte p := by
  rw [State.peek, h]; rfl

theorem bytesAt_succ (s : State) (p n : Nat) : bytesAt s p (n + 1) = s.readByte p :: bytesAt s (p + 1) n := by
  rw [bytesAt, List.range_succ_eq_map, List.map_cons, List.map_map, bytesAt]
  exact congrArg _ (List.map_congr_left fun k _ => congrArg s.readByte (by simp only [Nat.succ_eq_add_one]; omega))

theorem State.peeks_of_scrubbed {s : State} (h : s.scrub = []) (p n : Nat) : s.peeks p n = bytesAt s p n := by
  induction n generalizing p with
  | zero => rfl
  | succ n ih => rw [State.peeks, ih, State.peek_of_scrubbed h, bytesAt_succ]

theorem State.peekNat_of_scrubbed {s : State} (h : s.scrub = []) (p n : Nat) : s.peekNat p n = little (bytesAt s p n) := by
  rw [State.peekNat, State.peeks_of_scrubbed h, leNat_eq_little]

theorem Loc.owner_of_single {l : Loc} (h : l.rep = false) : l.owner = l := by rw [Loc.owner, if_neg (by simp [h])]

theorem State.unread_iff {s : State} {x : Ctx} {y : Task} (hy : s.task? x.ref = some y) (hdev : (y.inboxLoc 0).dev = s.ownDev.toNat)
    (hrep : (y.inboxLoc 0).rep = false) (hscrub : s.scrub = []) :
    s.unread x = true ↔ little (bytesAt s (y.inboxLoc 0).pa 8) ≠ little (bytesAt s ((y.inboxLoc 0).pa + 8) 8) := by
  simp [State.unread, hy, Loc.owner_of_single hrep, hdev, State.peekNat_of_scrubbed hscrub]

/-! ## The wait -/

theorem timedOut_iff (a : Word) (since now : Nat) : timedOut a since now = true ↔ a ≠ 0 ∧ a.toNat ≤ now - since := by
  simp [timedOut]

section
variable {s : State} {rd ra : Reg} {mask : BitVec 10}

theorem exec_waite_event (h : s.waitEvents s.cur mask ≠ 0) :
    exec (.waite rd ra mask) s = .next (s.setSelf (s.self.passed.setReg rd (s.waitEvents s.cur mask))) := by
  rw [← State.result_one]
  exact if_pos (bne_iff_ne.mpr h)

theorem exec_waite_issues (h : s.waitEvents s.cur mask = 0) (hh : s.self.hold = none) :
    exec (.waite rd ra mask) s = s.holdOn s.self { since := s.self.cyc, fab := s.cycle, val := s.reg ra } .wait := by
  have hnow : s.holdNow = { since := s.self.cyc, fab := s.cycle } := by rw [State.holdNow, hh]; rfl
  have hout : timedOut (s.reg ra) s.self.cyc s.self.cyc = false := by
    rw [Bool.eq_false_iff, ne_eq, timedOut_iff]
    rintro ⟨hne, hle⟩
    exact hne (BitVec.eq_of_toNat_eq (by simpa using hle))
  change execWaite rd ra mask s = _
  simp [execWaite, h, hh, hnow, hout]

section
variable {h : Hold} (hd : s.waitEvents s.cur mask = 0) (hh : s.self.hold = some h)
include hd hh

theorem exec_waite_held : exec (.waite rd ra mask) s =
    if timedOut h.val h.since s.self.cyc then s.result rd (2 ^ 10) 1 else s.holdOn s.self h .wait := by
  have hnow : s.holdNow = h := by rw [State.holdNow, hh]; rfl
  change execWaite rd ra mask s = _
  simp [execWaite, hd, hh, hnow]

theorem exec_waite_timeout (ho : timedOut h.val h.since s.self.cyc = true) :
    exec (.waite rd ra mask) s = .next (s.setSelf (s.self.passed.setReg rd 0x400)) := by
  rw [exec_waite_held hd hh, if_pos ho]
  exact s.result_one rd _

theorem exec_waite_waits (ho : timedOut h.val h.since s.self.cyc = false) : exec (.waite rd ra mask) s = s.holdOn s.self h .wait := by
  rw [exec_waite_held hd hh, if_neg (by rw [ho]; exact Bool.false_ne_true)]

end

section
variable (hturn : s.turn.head? = some s.cur) (hrun : s.self.run = .running)
include hturn hrun

theorem State.heldNow_of_hold {h : Hold} (hh : s.self.hold = some h) : s.heldNow s.cur = true := by
  have hhold : (s.ctx s.cur).hold = some h := hh
  have hrun : (s.ctx s.cur).run = .running := hrun
  simp [State.heldNow, hturn, hhold, hrun]

variable {h : Hold} (hi : s.self.instr? = some (.waite rd ra mask)) (hh : s.self.hold = some h)
include hi hh

theorem exec_waiteEnd_held : exec (.waiteEnd s.cur) s =
    if s.waitEvents s.cur mask != 0 then (s.takeTurn s.cur).result rd (s.waitEvents s.cur mask) 1
    else if timedOut h.val h.since s.self.cyc then (s.takeTurn s.cur).result rd (2 ^ 10) 1 else .next s := by
  have hheld := State.heldNow_of_hold hturn hrun hh
  have hi' : (s.ctx s.cur).instr? = some (.waite rd ra mask) := hi
  have hh' : (s.ctx s.cur).hold = some h := hh
  change execWaiteEnd s.cur s = _
  simp only [execWaiteEnd, hi', hheld, hh', if_true, Option.getD_some]
  rfl

theorem exec_waiteEnd_ends (ho : s.waitEvents s.cur mask ≠ 0 ∨ timedOut h.val h.since s.self.cyc = true) :
    exec (.waiteEnd s.cur) s = exec (.waite rd ra mask) { s with turn := s.turn.tail } := by
  rw [exec_waiteEnd_held hturn hrun hi hh]
  by_cases hd : s.waitEvents s.cur mask = 0
  · have ho := ho.resolve_left (not_not_intro hd)
    rw [if_neg (by simp [hd]), if_pos ho, exec_waite_timeout (s := { s with turn := s.turn.tail }) hd hh ho]
    exact (s.takeTurn s.cur).result_one rd _
  · rw [if_pos (bne_iff_ne.mpr hd), exec_waite_event (s := { s with turn := s.turn.tail }) hd]
    exact (s.takeTurn s.cur).result_one rd _

theorem exec_waiteEnd_waits (hd : s.waitEvents s.cur mask = 0) (ho : timedOut h.val h.since s.self.cyc = false) :
    exec (.waiteEnd s.cur) s = .next s := by
  rw [exec_waiteEnd_held hturn hrun hi hh, if_neg (by simp [hd]), if_neg (by rw [ho]; exact Bool.false_ne_true)]

end

end

/-- Settles O31: the events are those of `State.waitEvents`, and the wait ends by them or by its timeout. -/
theorem waitsEndOnEventOrTimeout : Obligations.WaitsEndOnEventOrTimeout := by
  unfold Obligations.WaitsEndOnEventOrTimeout
  intro s rd ra mask x
  have hgoesOn : ∀ h : Hold, h.val = 0 ∨ x.cyc - h.since < h.val.toNat → timedOut h.val h.since x.cyc = false := by
    intro h hor
    rw [Bool.eq_false_iff, ne_eq, timedOut_iff, not_and_or, not_not]
    exact hor.imp_right Nat.not_le_of_lt
  refine ⟨s.waitEvents s.cur mask, ?_, fun k hk => s.waitEvents_full s.cur mask hk, s.waitEvents_yield s.cur mask, fun hm => ?_,
    fun y hy hdev hrep hscrub hm => ?_, fun hd => ⟨_, rfl, exec_waite_event hd⟩, fun hd hh => ?_, fun hd h hh => ⟨fun hne hle => ?_, fun hor => ?_⟩,
    fun h c hi hturn hrun hh hc => ?_⟩
  · rw [s.waitEvents_toNat]; exact s.waitNat_lt s.cur mask
  · rw [s.waitEvents_inbox, hm]; rfl
  · rw [s.waitEvents_inbox, hm, Bool.true_and]
    exact State.unread_iff hy hdev hrep hscrub
  · obtain ⟨hhold, hframe⟩ := State.holdOn_holds (s := s) (h := { since := s.self.cyc, fab := s.cycle, val := s.reg ra }) (k := .wait) rfl
    exact ⟨_, _, exec_waite_issues hd hh, hhold, rfl, rfl, hframe⟩
  · exact ⟨_, rfl, exec_waite_timeout hd hh ((timedOut_iff ..).mpr ⟨hne, hle⟩)⟩
  · obtain ⟨hhold, hframe⟩ := State.holdOn_holds (s := s) (h := h) (k := .wait) rfl
    exact ⟨_, exec_waite_waits hd hh (hgoesOn h hor), hhold, hframe⟩
  · subst hc
    have hi := Ctx.instr?_of_standsAt hi
    exact ⟨fun ho => exec_waiteEnd_ends hturn hrun hi hh (ho.imp_right (timedOut_iff ..).mpr),
      fun hd hor => exec_waiteEnd_waits hturn hrun hi hh hd (hgoesOn h hor)⟩

end Sys2Proof.Machine
end

/-! # HGET and HSET (O28) -/

section
namespace Sys2Proof.Machine
open Sys2Proof.Claims

/-! ## Bits of a number -/

theorem testBit_bitsN (x lo w i : Nat) : (bitsN x lo w).testBit i = (decide (i < w) && x.testBit (lo + i)) := by
  rw [bitsN, Nat.testBit_mod_two_pow, Nat.testBit_div_two_pow, Nat.add_comm]

theorem bitsN_lt (x lo w : Nat) : bitsN x lo w < 2 ^ w := Nat.mod_lt _ (Nat.two_pow_pos w)

theorem bitsN_eq_of_testBit {x y lo w : Nat} (h : ∀ i, i < w → x.testBit (lo + i) = y.testBit (lo + i)) : bitsN x lo w = bitsN y lo w := by
  refine Nat.eq_of_testBit_eq fun i => ?_
  rw [testBit_bitsN, testBit_bitsN]
  by_cases hi : i < w
  · rw [h i hi]
  · simp [hi]

theorem setBits_eq (old lo w v : Nat) : setBits old lo w v = 2 ^ lo * (2 ^ w * (old / 2 ^ (lo + w)) + v % 2 ^ w) + old % 2 ^ lo := by
  rw [setBits, Nat.pow_add]; ring

theorem testBit_setBits (old lo w v i : Nat) :
    (setBits old lo w v).testBit i = if lo ≤ i ∧ i < lo + w then v.testBit (i - lo) else old.testBit i := by
  rw [setBits_eq, Nat.testBit_two_pow_mul_add _ (Nat.mod_lt _ (Nat.two_pow_pos lo)),
    Nat.testBit_two_pow_mul_add _ (Nat.mod_lt _ (Nat.two_pow_pos w)), Nat.testBit_mod_two_pow, Nat.testBit_mod_two_pow,
    Nat.testBit_div_two_pow]
  split
  · next hlo => rw [if_neg (by omega)]; simp [hlo]
  · split
    · next hw => rw [if_pos (by omega)]; simp [hw]
    · rw [if_neg (by omega)]; congr 1; omega

theorem bitsN_setBits_same (old lo w v : Nat) : bitsN (setBits old lo w v) lo w = v % 2 ^ w := by
  refine Nat.eq_of_testBit_eq fun i => ?_
  rw [testBit_bitsN, testBit_setBits, Nat.testBit_mod_two_pow, Nat.add_sub_cancel_left]
  by_cases hi : i < w
  · rw [if_pos (by omega)]
  · simp [hi]

theorem bitsN_setBits_apart (old v : Nat) {lo w l n : Nat} (h : l + n ≤ lo ∨ lo + w ≤ l) :
    bitsN (setBits old lo w v) l n = bitsN old l n :=
  bitsN_eq_of_testBit fun i hi => by rw [testBit_setBits, if_neg (by omega)]

/-! ## Shape fields -/

theorem shapeMask_eq (v : Nat) : shapeMask v = 2 ^ 480 * (2 ^ 4 * bitsN v 484 28) + v % 2 ^ 480 := by
  rw [shapeMask, bitsN, ← Nat.mul_assoc, ← Nat.pow_add, Nat.add_comm, Nat.mul_comm]

/-- Bits from two numbers, with `m` clear ones between them. -/
theorem testBit_gap (v y n m i : Nat) : (2 ^ n * (2 ^ m * y) + v % 2 ^ n).testBit i =
    if i < n then v.testBit i else decide (m ≤ i - n) && y.testBit (i - n - m) := by
  rw [Nat.testBit_two_pow_mul_add _ (Nat.mod_lt _ (Nat.two_pow_pos n)), Nat.testBit_mod_two_pow, Nat.testBit_two_pow_mul]
  split
  · next hlo => simp [hlo]
  · rfl

theorem testBit_shapeMask (v : Nat) {i : Nat} (h : i < 480 ∨ 484 ≤ i ∧ i < 512) : (shapeMask v).testBit i = v.testBit i := by
  rw [shapeMask_eq, testBit_gap, testBit_bitsN]
  split
  · rfl
  · have hsum : 484 + (i - 480 - 4) = i := by omega
    have h4 : 4 ≤ i - 480 := by omega
    have h28 : i - 480 - 4 < 28 := by omega
    simp [h4, h28, hsum]

/-- Where a field of a shape register lies: beside the bits [483:480], which read as 0; and the signed ones have 20 bits (R125). -/
theorem shapeField_place : ∀ k < 32, (shapeField k).all fun f =>
    decide ((f.1 + f.2.1 ≤ 480 ∨ 484 ≤ f.1 ∧ f.1 + f.2.1 ≤ 512) ∧ f.2.1 < 64 ∧ (f.2.2 = true → f.2.1 = 20)) := by decide

/-- Two fields have no bit in common (R125). -/
theorem shapeField_apart : ∀ j < 32, ∀ k < 32, j ≠ k → (shapeField j).all fun f => (shapeField k).all fun g =>
    decide (f.1 + f.2.1 ≤ g.1 ∨ g.1 + g.2.1 ≤ f.1) := by decide

theorem shapeField_none : ∀ k < 32, (shapeField k = none ↔ k = 7) := by decide

/-- What a shape register reads as in a field (R129). -/
def readField (v k : Nat) : Option Word := (shapeField k).map fun f => fieldValue v f.1 f.2.1 f.2.2

theorem readField_of {k : Nat} {f : Nat × Nat × Bool} (h : shapeField k = some f) (v : Nat) :
    readField v k = some (fieldValue v f.1 f.2.1 f.2.2) := by rw [readField, h]; rfl

theorem fieldValue_congr {v v' lo w : Nat} (h : bitsN v lo w = bitsN v' lo w) (sgn : Bool) : fieldValue v lo w sgn = fieldValue v' lo w sgn := by
  rw [fieldValue, fieldValue, h]

theorem fieldFits_fieldValue (v lo : Nat) {w : Nat} {sgn : Bool} (hw : w < 64) (h20 : sgn = true → w = 20) :
    fieldFits (fieldValue v lo w sgn) w sgn = true := by
  have hlt := bitsN_lt v lo w
  cases sgn with
  | false =>
    have h64 : bitsN v lo w < 2 ^ 64 := hlt.trans (Nat.pow_lt_pow_right (by decide) hw)
    have hval : (fieldValue v lo w false).toNat = bitsN v lo w := by
      rw [fieldValue, if_neg Bool.false_ne_true, BitVec.toNat_ofNat, Nat.mod_eq_of_lt h64]
    rw [fieldFits, if_neg Bool.false_ne_true, hval]
    exact decide_eq_true hlt
  | true =>
    obtain rfl := h20 rfl
    have hrange : -2 ^ 19 ≤ sextN (bitsN v lo 20) 20 ∧ sextN (bitsN v lo 20) 20 < 2 ^ 19 := by unfold sextN; split <;> omega
    have hval : (fieldValue v lo 20 true).toInt = sextN (bitsN v lo 20) 20 := by
      rw [fieldValue, if_pos rfl]
      exact BitVec.toInt_ofInt_eq_self (by decide) (by omega) (by omega)
    rw [fieldFits, if_pos rfl, hval]
    simpa using hrange

theorem fieldValue_of_fits {v lo w : Nat} {sgn : Bool} {b : Word} (h20 : sgn = true → w = 20) (hfits : fieldFits b w sgn = true)
    (hv : bitsN v lo w = b.toNat % 2 ^ w) : fieldValue v lo w sgn = b := by
  rw [fieldValue, hv]
  cases sgn with
  | false =>
    have hlt : b.toNat < 2 ^ w := of_decide_eq_true hfits
    rw [if_neg Bool.false_ne_true, Nat.mod_eq_of_lt hlt, BitVec.ofNat_toNat, BitVec.setWidth_eq]
  | true =>
    obtain rfl := h20 rfl
    obtain ⟨hlo, hhi⟩ : -2 ^ 19 ≤ b.toInt ∧ b.toInt < 2 ^ 19 := by simpa [fieldFits] using hfits
    have hext : sextN (b.toNat % 2 ^ 20) 20 = b.toInt := by
      have hb := b.isLt
      rw [BitVec.toInt_eq_toNat_cond] at hlo hhi ⊢
      unfold sextN
      split at hlo <;> split <;> omega
    rw [if_pos rfl, hext, BitVec.ofInt_toInt]

section
variable {k : Nat} {f : Nat × Nat × Bool} (hk : k < 32) (hf : shapeField k = some f)
include hk hf

theorem shapeField_place_of : (f.1 + f.2.1 ≤ 480 ∨ 484 ≤ f.1 ∧ f.1 + f.2.1 ≤ 512) ∧ f.2.1 < 64 ∧ (f.2.2 = true → f.2.1 = 20) := by
  have h := shapeField_place k hk
  rw [hf] at h
  exact of_decide_eq_true h

theorem bitsN_shapeMask (v : Nat) : bitsN (shapeMask v) f.1 f.2.1 = bitsN v f.1 f.2.1 := by
  obtain ⟨hplace, -⟩ := shapeField_place_of hk hf
  exact bitsN_eq_of_testBit fun i hi => testBit_shapeMask v (by omega)

/-- A value fits a field exactly when the field can read as it (R129). -/
theorem fieldFits_iff (b : Word) : fieldFits b f.2.1 f.2.2 = true ↔ ∃ v, readField v k = some b := by
  obtain ⟨-, hw, h20⟩ := shapeField_place_of hk hf
  refine ⟨fun h => ⟨setBits 0 f.1 f.2.1 b.toNat, ?_⟩, fun ⟨v, hv⟩ => ?_⟩
  · rw [readField_of hf, fieldValue_of_fits h20 h (bitsN_setBits_same ..)]
  · rw [readField_of hf] at hv
    obtain rfl := Option.some.inj hv
    exact fieldFits_fieldValue v f.1 hw h20

/-- The field that a write names reads as what was written (R129). -/
theorem readField_written {b : Word} (hfits : fieldFits b f.2.1 f.2.2 = true) (v : Nat) :
    readField (shapeMask (setBits v f.1 f.2.1 b.toNat)) k = some b := by
  obtain ⟨-, -, h20⟩ := shapeField_place_of hk hf
  have hbits := (bitsN_shapeMask hk hf (setBits v f.1 f.2.1 b.toNat)).trans (bitsN_setBits_same ..)
  generalize shapeMask (setBits v f.1 f.2.1 b.toNat) = u at hbits ⊢
  rw [readField_of hf, fieldValue_of_fits h20 hfits hbits]

/-- Every other field reads as before (R129). -/
theorem readField_written_other (v n : Nat) {j : Nat} (hj : j < 32) (hjk : j ≠ k) :
    readField (shapeMask (setBits v f.1 f.2.1 n)) j = readField v j := by
  cases hg : shapeField j with
  | none => simp only [readField, hg, Option.map_none]
  | some g =>
    have hapart := shapeField_apart j hj k hk hjk
    rw [hg, hf] at hapart
    have hbits := (bitsN_shapeMask hj hg (setBits v f.1 f.2.1 n)).trans (bitsN_setBits_apart v n (of_decide_eq_true hapart))
    generalize shapeMask (setBits v f.1 f.2.1 n) = u at hbits ⊢
    rw [readField_of hg, readField_of hg, fieldValue_congr hbits]

end

/-! ## A context cycle and the shape registers -/

/-- A context with other shape registers. -/
def Ctx.withShapes (x : Ctx) (m : Kv Nat) : Ctx := { x with h := m }

section
variable (x : Ctx) (m : Kv Nat)

theorem Ctx.noteCorrupt_withShapes (p : Option Nat) : (x.withShapes m).noteCorrupt p = (x.noteCorrupt p).withShapes m := by
  cases p with
  | none => rfl
  | some a => change (if x.struck.isNone then _ else _) = (if x.struck.isNone then _ else _ : Ctx).withShapes m; split <;> rfl

theorem Ctx.setReg_withShapes (r : Reg) (v : Word) : (x.withShapes m).setReg r v = (x.setReg r v).withShapes m := by
  unfold Ctx.setReg; split <;> rfl

theorem Ctx.land_withShapes (f : Flight) : (x.withShapes m).land f = (x.land f).withShapes m := by
  unfold Ctx.land
  cases f.dst with
  | s r => simp only [Ctx.setReg_withShapes, Ctx.noteCorrupt_withShapes]
  | l n id =>
    simp only [← Ctx.noteCorrupt_withShapes]
    refine congrArg (Ctx.noteCorrupt · f.poison) ?_
    change (if (x.landing n).pending && (x.landing n).acc == id then _ else _) = _
    split <;> rfl

theorem Ctx.landDue_withShapes (c : Nat) : (x.withShapes m).landDue c = (x.landDue c).withShapes m :=
  congrArg (Ctx.withFlight · (x.flight.filter fun f => decide (c < f.due)))
    (List.foldl_hom (Ctx.withShapes · m) fun y f => y.land_withShapes m f)

theorem Ctx.landReplay_withShapes (c : Nat) (y : Replay) : Ctx.landReplay c (x.withShapes m) y = (Ctx.landReplay c x y).withShapes m := by
  unfold Ctx.landReplay
  split
  · rw [Ctx.setReg_withShapes, Ctx.noteCorrupt_withShapes]
  · rfl

theorem Ctx.landReplays_withShapes (c : Nat) : (x.withShapes m).landReplays c = (x.landReplays c).withShapes m := by
  have hfold : x.replayOrder.foldl (Ctx.landReplay c) (x.withShapes m) = (x.replayOrder.foldl (Ctx.landReplay c) x).withShapes m :=
    List.foldl_hom (Ctx.withShapes · m) fun z y => z.landReplay_withShapes m c y
  unfold Ctx.landReplays
  rw [show (x.withShapes m).replayOrder = x.replayOrder from rfl, hfold]
  rfl

theorem Ctx.strike_withShapes : (x.withShapes m).strike = x.strike.withShapes m := by
  unfold Ctx.strike
  change (match x.struck with | some _ => _ | none => _) = _
  cases x.struck <;> rfl

theorem Ctx.count_withShapes (k : Spent) : (x.withShapes m).count k = (x.count k).withShapes m := by
  unfold Ctx.count
  change (if x.occ = 0 then _ else _) = _
  cases k <;> dsimp only <;> split <;> rfl

theorem Ctx.ticked_withShapes (k : Spent) : (x.withShapes m).ticked k = (x.ticked k).withShapes m := by
  unfold Ctx.ticked
  rw [← Ctx.count_withShapes, ← Ctx.strike_withShapes]; rfl

theorem Ctx.endCycle_withShapes (k : Spent) : (x.withShapes m).endCycle k = (x.endCycle k).withShapes m := by
  rw [Ctx.endCycle_eq, Ctx.endCycle_eq, Ctx.ticked_withShapes, Ctx.landReplays_withShapes, Ctx.landDue_withShapes]; rfl

/-- A result of latency 1 of an instruction that changes the shape registers. -/
theorem Ctx.passed_withShapes_write (r : Reg) (v : Word) :
    ((x.withShapes m).write r v 1).passed = (x.passed.withShapes m).setReg r v := by
  have hlast := Ctx.endCycle_last ({ (x.withShapes m).goNext x.next with hold := none }) .issue
    ⟨.s r, v, x.cyc + 1, decide (1 < 1), none, x.cyc⟩ (Nat.le_refl _)
  exact hlast.trans (congrArg (Ctx.setReg · r v) (Ctx.endCycle_withShapes { x.goNext x.next with hold := none } m .issue))

end

/-! ## HGET and HSET -/

/-- The shape register and the selector that the first operand of HGET and HSET names (R129). -/
def shapeRegOf (a : Word) : HReg := a.extractLsb' 0 4
def selectorOf (a : Word) : Nat := (a.extractLsb' 8 5).toNat

theorem selectorOf_lt (a : Word) : selectorOf a < 32 := (a.extractLsb' 8 5).isLt

section
variable {s : State} {rd ra rb : Reg}

theorem exec_hget_pending (h : s.self.shapePending (shapeRegOf (s.reg ra)) = true) :
    exec (.hget rd ra) s = s.trap 0x07 (shapeRegOf (s.reg ra)).toNat := if_pos h

theorem exec_hset_pending (h : s.self.shapePending (shapeRegOf (s.reg ra)) = true) :
    exec (.hset rd ra rb) s = s.trap 0x07 (shapeRegOf (s.reg ra)).toNat := if_pos h

section
variable (h : s.self.shapePending (shapeRegOf (s.reg ra)) = false)
include h

theorem exec_hget : exec (.hget rd ra) s = match shapeField (selectorOf (s.reg ra)) with
    | none => s.trap 0x0B (s.reg ra).toNat
    | some (lo, w, sgn) => s.result rd (fieldValue (s.self.shape (shapeRegOf (s.reg ra))) lo w sgn) 1 :=
  if_neg (Bool.eq_false_iff.mp h)

theorem exec_hset : exec (.hset rd ra rb) s = match shapeField (selectorOf (s.reg ra)) with
    | none => s.trap 0x0B (s.reg ra).toNat
    | some (lo, w, sgn) =>
      if fieldFits (s.reg rb) w sgn then
        s.done ((s.self.setShape (shapeRegOf (s.reg ra)) (setBits (s.self.shape (shapeRegOf (s.reg ra))) lo w (s.reg rb).toNat)).write rd
          (fieldValue (s.self.shape (shapeRegOf (s.reg ra))) lo w sgn) 1)
      else s.trap 0x0B (s.reg rb).toNat :=
  if_neg (Bool.eq_false_iff.mp h)

theorem exec_hget_noField (hf : shapeField (selectorOf (s.reg ra)) = none) : exec (.hget rd ra) s = s.trap 0x0B (s.reg ra).toNat := by
  rw [exec_hget h, hf]

theorem exec_hset_noField (hf : shapeField (selectorOf (s.reg ra)) = none) : exec (.hset rd ra rb) s = s.trap 0x0B (s.reg ra).toNat := by
  rw [exec_hset h, hf]

variable {f : Nat × Nat × Bool} (hf : shapeField (selectorOf (s.reg ra)) = some f)
include hf

theorem exec_hget_reads : exec (.hget rd ra) s = .next (s.setSelf (s.self.passed.setReg rd
    (fieldValue (s.self.shape (shapeRegOf (s.reg ra))) f.1 f.2.1 f.2.2))) := by
  rw [exec_hget h, hf]
  exact s.result_one ..

theorem exec_hset_unfit (hb : fieldFits (s.reg rb) f.2.1 f.2.2 = false) : exec (.hset rd ra rb) s = s.trap 0x0B (s.reg rb).toNat := by
  rw [exec_hset h, hf]
  exact if_neg (by rw [hb]; exact Bool.false_ne_true)

theorem exec_hset_writes (hb : fieldFits (s.reg rb) f.2.1 f.2.2 = true) : exec (.hset rd ra rb) s = .next (s.setSelf
    ((s.self.passed.withShapes (Kv.set 0 s.self.h (shapeRegOf (s.reg ra)).toNat
      (shapeMask (setBits (s.self.shape (shapeRegOf (s.reg ra))) f.1 f.2.1 (s.reg rb).toNat)))).setReg rd
      (fieldValue (s.self.shape (shapeRegOf (s.reg ra))) f.1 f.2.1 f.2.2))) := by
  rw [exec_hset h, hf, ← Ctx.passed_withShapes_write]
  exact if_pos hb

end

end

/-- Settles O28: the fields of a shape register have no bit in common, and a value fits one exactly when the field can read as it. -/
theorem shapeFieldsReadAndWrite : Obligations.ShapeFieldsReadAndWrite := by
  unfold Obligations.ShapeFieldsReadAndWrite
  intro s rd ra rb h sel x read
  have hsel : sel < 32 := selectorOf_lt (s.reg ra)
  refine ⟨fun hp => ⟨exec_hget_pending hp, exec_hset_pending hp⟩, fun hp h7 => ?_, fun hp h7 => ?_⟩
  · have hnone := (shapeField_none sel hsel).mpr h7
    exact ⟨exec_hget_noField hp hnone, exec_hset_noField hp hnone⟩
  · obtain ⟨f, hf⟩ := Option.ne_none_iff_exists'.mp (mt (shapeField_none sel hsel).mp h7)
    refine ⟨_, _, rfl, readField_of hf (x.shape h), exec_hget_reads hp hf, fun hno => ?_, fun hyes hwf => ?_⟩
    · refine exec_hset_unfit hp hf (Bool.eq_false_iff.mpr fun hfits => ?_)
      obtain ⟨v, hv⟩ := (fieldFits_iff hsel hf _).mp hfits
      exact hno v hv
    · have hfits := (fieldFits_iff hsel hf _).mpr hyes
      refine ⟨_, exec_hset_writes hp hf hfits, fun g hg => ?_, fun k hk _ => ?_⟩
      · exact Kv.get_set_of_ne 0 (fun he => hg (BitVec.eq_of_toNat_eq he)) _ hwf
      · have hget := Kv.get_set_self 0 h.toNat (shapeMask (setBits (x.shape h) f.1 f.2.1 (s.reg rb).toNat)) hwf
        refine (congrArg (readField · k) hget).trans ?_
        split
        · next hks => subst hks; exact readField_written hsel hf hfits _
        · next hks => exact readField_written_other hsel hf _ _ hk hks

end Sys2Proof.Machine
end

/-! # MSG and its delivery (O35)

O35 has no premise that the table of poison marks is in canonical form. In a table that is not, a mark can stand behind one of a higher address,
where no lookup meets it; the write that removes the mark before it brings it to light. -/

section
namespace Sys2Proof.Machine
open Sys2Proof.Claims

/-- The sender's object, at address 0. -/
def strayCpl : Loc := ⟨0, 0, false, 0⟩

/-- A task with an inbox of no slots, whose header lies at address 65536. -/
def strayTask : Task := { pid := 127, inbox := [⟨0, 1, 65536, 0, 0, false, 0⟩] }

/-- A message to that task, which context 0 has sent. -/
def strayMsg : Acc :=
  { id := 1, ctx := 0, kind := .msg 5 strayCpl, addr := 131072, n := 64, virt := true, loc := ⟨0, 131072, false, 0⟩, stream := 0, acq := false,
    rel := true, ln := none, deps := [], ready := 0, locked := [], committed := false, bytes := [], got := [], bad := false }

/-- A state whose object has 2 pending, and a poison mark at address 0 that stands behind the one at the refusal count of the inbox. -/
def strayState : State :=
  { mem := [(0, 2)], poison := [(65556, true), (0, true)], accs := [strayMsg], tasks := [(taskKey ⟨127, 5⟩, strayTask)] }

theorem strayState_inv : Inv strayState := rfl

theorem strayState_whole : whole strayState 0 32 := by unfold whole; decide

theorem strayState_plainWrites (pid : Nat) : plainWrites strayState pid := by
  refine ⟨rfl, rfl, fun a ha => ?_, fun e he => absurd he List.not_mem_nil⟩
  obtain rfl := List.mem_singleton.mp ha
  rfl

/-- The refusal is counted in the inbox header, and the update of the sender's object then finds poison and writes nothing. -/
theorem strayState_delivered : Out.mem (exec (.msgDelivery 1) strayState) = [(0, 2), (65556, 1)] := by decide +kernel

theorem objectAt_congr {s t : State} (h : t.mem = s.mem) (p : Nat) : objectAt t p = objectAt s p := by
  have hread : t.readByte = s.readByte := funext fun a => by rw [State.readByte, State.readByte, h]
  rw [objectAt, objectAt, bytesAt, bytesAt, hread]

/-- Refutes O35: in a state whose poison marks are out of order the delivery to a full inbox leaves the sender's object at 2 pending. -/
theorem not_messagesAreArmedAndDelivered : ¬ Obligations.MessagesAreArmedAndDelivered := by
  unfold Obligations.MessagesAreArmedAndDelivered
  intro h
  obtain ⟨-, hdelivery⟩ := h strayState strayState_inv
  obtain ⟨t, ht, -, -, -, hinbox⟩ := hdelivery strayMsg 5 strayCpl rfl rfl rfl ⟨rfl, rfl⟩ ⟨rfl, rfl⟩ strayState_whole
    (strayState_plainWrites _)
  obtain ⟨-, hfull⟩ := hinbox strayTask rfl (by decide) ⟨rfl, rfl⟩ (strayState_plainWrites _) (.inl (by decide))
  obtain ⟨hobject, -⟩ := hfull (by decide)
  have hmem : t.mem = [(0, 2), (65556, 1)] := by rw [← strayState_delivered, show exec (.msgDelivery 1) strayState = .next t from ht]; rfl
  have hleft : (objectAt t 0).pend = 2 := by
    rw [objectAt_congr (s := { mem := [(0, 2), (65556, 1)] }) hmem]
    decide
  have hright : (objectAt t 0).pend = 1 := (congrArg Obj.pend hobject).trans (by decide)
  exact absurd (hleft.symm.trans hright) (by decide)

end Sys2Proof.Machine
end

/-! # What the memory side leaves as it was (for O34 and O37)

Writes, reads, logs and flits change neither a context nor an access under way, neither a task nor a partition, and tell firmware nothing:
one lemma `f_core` for each of them. With no commit under way the same holds of what first ends the commits that it meets. -/

section
namespace Sys2Proof.Machine
open Sys2Proof.Claims

/-- The part of the state that the memory side does not touch. -/
structure Core where
  ctxs : Kv Ctx
  cur : Nat
  accs : List Acc
  tasks : Kv Task
  parts : Kv Part
  fw : List FwEvent

def State.core (s : State) : Core := ⟨s.ctxs, s.cur, s.accs, s.tasks, s.parts, s.fw⟩

section
variable {s t : State} (h : t.core = s.core)
include h

theorem State.ctxs_of_core : t.ctxs = s.ctxs := congrArg Core.ctxs h
theorem State.cur_of_core : t.cur = s.cur := congrArg Core.cur h
theorem State.tasks_of_core : t.tasks = s.tasks := congrArg Core.tasks h
theorem State.parts_of_core : t.parts = s.parts := congrArg Core.parts h
theorem State.fw_of_core : t.fw = s.fw := congrArg Core.fw h

theorem State.part_of_core (pid : Nat) : t.part pid = s.part pid := by rw [State.part, State.parts_of_core h]; rfl
theorem State.task_of_core (r : TaskRef) : t.task r = s.task r := by rw [State.task, State.tasks_of_core h]; rfl
theorem State.lastTask_of_core (pid : Nat) : t.lastTask pid = s.lastTask pid := by rw [State.lastTask, State.part_of_core h]; rfl
theorem quiet_of_core (hq : quiet s) : quiet t := by
  have haccs : t.accs = s.accs := congrArg Core.accs h
  rwa [quiet, haccs]
end

theorem State.foldl_core {α : Type} {f : State → α → State} (hf : ∀ s a, (f s a).core = s.core) (l : List α) (s : State) :
    (l.foldl f s).core = s.core :=
  List.foldlRecOn (motive := fun t => t.core = s.core) l f rfl fun t ht a _ => (hf t a).trans ht

/-- The same of a function that needs a state with no commit under way. -/
theorem State.foldl_core_of_quiet {α : Type} {f : State → α → State} (hf : ∀ s a, quiet s → (f s a).core = s.core) (l : List α)
    {s : State} (hq : quiet s) : (l.foldl f s).core = s.core :=
  List.foldlRecOn (motive := fun t => t.core = s.core) l f rfl fun t ht a _ => (hf t a (quiet_of_core ht hq)).trans ht

/-! ## Bytes, marks and logs -/

@[simp] theorem State.writeByte_core (s : State) (a : Nat) (b : Byte) : (s.writeByte a b).core = s.core := rfl
@[simp] theorem State.writeBytes_core (s : State) (a : Nat) (bs : List Byte) : (s.writeBytes a bs).core = s.core := by
  induction bs generalizing s a with
  | nil => rfl
  | cons b bs ih => rw [State.writeBytes, ih, State.writeByte_core]
@[simp] theorem State.writeNat_core (s : State) (a n v : Nat) : (s.writeNat a n v).core = s.core := s.writeBytes_core a _
@[simp] theorem State.poisonBytes_core (s : State) (a n : Nat) : (s.poisonBytes a n).core = s.core := by
  induction n generalizing s a with
  | zero => rfl
  | succ n ih => rw [State.poisonBytes, ih]; rfl
@[simp] theorem State.scrubOne_core (s : State) (line : Nat) : (s.scrubOne line).core = s.core := by unfold State.scrubOne; split <;> rfl
@[simp] theorem State.scrubLines_core (s : State) (line n : Nat) : (s.scrubLines line n).core = s.core := by
  induction n generalizing s line with
  | zero => rfl
  | succ n ih => rw [State.scrubLines, ih, State.scrubOne_core]
@[simp] theorem State.scrubFor_core (s : State) (p n : Nat) : (s.scrubFor p n).core = s.core := s.scrubLines_core _ _
@[simp] theorem State.setErr_core (s : State) (n : Nat) (x : ErrArray) : (s.setErr n x).core = s.core := rfl
@[simp] theorem State.logError_core (s : State) (array die : Nat) (addr : BitVec 48) (cid : BitVec 16) (kind code : BitVec 4) (inj : Bool) :
    (s.logError array die addr cid kind code inj).core = s.core := rfl
@[simp] theorem State.logPoison_core (s : State) (p : Nat) (cid : BitVec 16) : (s.logPoison p cid).core = s.core := rfl
@[simp] theorem State.disarm_core (s : State) (array : Nat) : (s.disarm array).core = s.core := rfl
@[simp] theorem State.inject_core (s : State) (cid : BitVec 16) (p n : Nat) : (s.inject cid p n).core = s.core := by
  unfold State.inject; dsimp only; (repeat' split) <;> simp
@[simp] theorem State.injectIndex_core (s : State) (array i n : Nat) (cid : BitVec 16) (x : Nat → BitVec 16 → Struck) :
    (s.injectIndex array i n cid x).core = s.core := by
  unfold State.injectIndex; dsimp only; split <;> rfl

/-! ## Flits, counters and writes -/

@[simp] theorem State.sendFlit_core (s : State) (link : BitVec 5) (f : Flit) : (s.sendFlit link f).core = s.core := by
  unfold State.sendFlit; dsimp only; split <;> rfl
@[simp] theorem State.forward_core (s : State) (mdie dev : Nat) (tenant : BitVec 16) (payload : List Byte) :
    (s.forward mdie dev tenant payload).core = s.core := by
  unfold State.forward; split <;> simp
@[simp] theorem State.askLine_core (s : State) (mdie : Nat) (tenant : BitVec 16) (l : Loc) : (s.askLine mdie tenant l).core = s.core :=
  s.forward_core ..
@[simp] theorem State.countAccess_core (s : State) (die p n : Nat) : (s.countAccess die p n).core = s.core := by
  unfold State.countAccess; dsimp only; (repeat' split) <;> rfl
@[simp] theorem State.markDirty_core (s : State) (pid p : Nat) : (s.markDirty pid p).core = s.core := by
  unfold State.markDirty; dsimp only; (repeat' split) <;> simp <;> rfl
@[simp] theorem State.plainWrite_core (s : State) (p : Nat) (bs : List Byte) : (s.plainWrite p bs).core = s.core := by
  rw [State.plainWrite, State.writeBytes_core]; exact s.scrubFor_core ..
@[simp] theorem State.putWrite_core (s : State) (pid p : Nat) (bs : List Byte) : (s.putWrite pid p bs).core = s.core := by
  simp [State.putWrite]
@[simp] theorem State.writeLoc_core (s : State) (pid : Nat) (l : Loc) (bs : List Byte) : (s.writeLoc pid l bs).core = s.core := by
  unfold State.writeLoc
  split
  · rw [State.foldl_core fun t k => t.putWrite_core .., State.markDirty_core]
  · simp [State.memWrite]
@[simp] theorem State.touchWalks_core (s : State) (tenant : Nat) (vas : List Nat) : (s.touchWalks tenant vas).core = s.core :=
  State.foldl_core (fun t a => by dsimp only; split <;> simp) _ s
@[simp] theorem State.physWrite_core (s : State) (a : Nat) (bs : List Byte) : (s.physWrite a bs).core = s.core := by simp [State.physWrite]
@[simp] theorem State.writeTable_core (s : State) (extp : Nat) (es : List Extent) : (s.writeTable extp es).core = s.core := by
  unfold State.writeTable
  generalize List.replicate 512 (0 : Byte) = zeros
  exact List.foldlRecOn (motive := fun p : State × Nat => p.1.core = s.core) es _ (by simp) fun p hp e _ => by simpa using hp
@[simp] theorem State.tellExit_core (s : State) (r : TaskRef) : (s.tellExit r).core = s.core :=
  State.foldl_core (fun t d => by split <;> simp) _ s

/-! ## What meets no commit -/

section
variable {s : State} (h : quiet s)
include h

theorem State.writeAt_core (pid : Nat) (l : Loc) (bs : List Byte) : (s.writeAt pid l bs).core = s.core := by
  unfold State.writeAt
  split
  · rw [State.settleAt_of_quiet h, State.writeLoc_core]
  · simp

theorem State.updateObj_core (pid : Nat) (l : Loc) (f : Obj → Obj) : (s.updateObj pid l f).core = s.core := by
  unfold State.updateObj
  rw [State.settleAt_of_quiet h]
  split
  · dsimp only; split <;> simp
  · simp

theorem State.touchVirt_core (x : Ctx) (by' : Option Nat) (a n : Nat) : (s.touchVirt x by' a n).core = s.core := by
  refine State.foldl_core_of_quiet (fun t v ht => ?_) _ h
  simp only [State.settleAt_of_quiet ht]
  (repeat' split) <;> simp

theorem State.touchRecord_core (x : Ctx) (by' : Option Nat) (bs : List Byte) : (s.touchRecord x by' bs).core = s.core := by
  unfold State.touchRecord
  dsimp only
  split
  · rfl
  · exact State.touchVirt_core h ..

end

end Sys2Proof.Machine
end

/-! # LAUNCH (O34) -/

section
namespace Sys2Proof.Machine
open Sys2Proof.Claims

/-! ## The checks of an access -/

theorem State.accessFault_eq (s : State) (virt : Bool) (k : AccKind) (a n : Nat) :
    s.accessFault s.self virt (writesThere k) a n = faultOfAccess s virt k a n := by
  unfold State.accessFault faultOfAccess
  by_cases ha : a < 2 ^ 56
  · simp only [if_pos ha, if_neg (Nat.not_le.mpr ha)]
    cases s.self.extentOf a with
    | none => rfl
    | some e => simp only [Bool.and_eq_true, Bool.not_eq_true']; rfl
  · simp only [if_neg ha, if_pos (Nat.le_of_not_lt ha)]
    rfl

/-! ## What is no default of its table -/

theorem Part.ne_default {p : Part} (h : p.fset ≠ 0) : p ≠ {} := fun he => h (congrArg Part.fset he)

theorem Task.ne_default_of_exited {t : Task} (h : t.state = .exited) : t ≠ {} := fun he => by
  have hstate := h.symm.trans (congrArg Task.state he)
  cases hstate

/-! ## The end of a task -/

/-- A task that has exited. -/
def Task.ended (t : Task) : Task := { t with state := .exited, count := 0, built := [] }

section
variable (s : State) (r : TaskRef)

/-- The partition's entry without a task in its queue. -/
def Part.without (p : Part) (r : TaskRef) : Part := { p with queue := p.queue.filter fun q => q != r.id.toNat }

theorem State.endTask_core : (s.endTask r).core = { s.core with
    tasks := Kv.set {} s.tasks (taskKey r) (s.task r).ended
    parts := Kv.set {} s.parts (s.task r).pid ((s.part (s.task r).pid).without r)
    fw := s.fw ++ [.taskExit r] } := by
  have hu : (s.tellExit r).core = s.core := s.tellExit_core r
  unfold State.endTask
  generalize s.tellExit r = u at hu ⊢
  change { u.core with
    tasks := Kv.set {} u.tasks (taskKey r) (s.task r).ended
    parts := Kv.set {} u.parts (s.task r).pid ((u.part (s.task r).pid).without r)
    fw := u.fw ++ [FwEvent.taskExit r] } = _
  rw [hu, State.tasks_of_core hu, State.parts_of_core hu, State.part_of_core hu, State.fw_of_core hu]

theorem State.endTask_ctxs : (s.endTask r).ctxs = s.ctxs := congrArg Core.ctxs (s.endTask_core r)
theorem State.endTask_cur : (s.endTask r).cur = s.cur := congrArg Core.cur (s.endTask_core r)
theorem State.endTask_fw : (s.endTask r).fw = s.fw ++ [.taskExit r] := congrArg Core.fw (s.endTask_core r)

theorem State.endTask_task : (s.endTask r).task r = (s.task r).ended := by
  rw [State.task, show (s.endTask r).tasks = _ from congrArg Core.tasks (s.endTask_core r)]
  exact Kv.get_set_of_ne_default (Task.ne_default_of_exited (t := (s.task r).ended) rfl) _ _

theorem State.endTask_lastTask (h : (s.part (s.task r).pid).fset ≠ 0) : (s.endTask r).lastTask (s.task r).pid = s.lastTask (s.task r).pid := by
  rw [State.lastTask, State.part, show (s.endTask r).parts = _ from congrArg Core.parts (s.endTask_core r)]
  have hget := Kv.get_set_of_ne_default (Part.ne_default (p := (s.part (s.task r).pid).without r) h) s.parts (s.task r).pid
  exact (congrArg Part.lastTask hget).trans rfl

end

/-! ## The take of an LPB -/

section
variable (s : State) (pid : Nat) (tenant : BitVec 16) (x : Ctx) (bs : List Byte)

/-- What the take of an LPB makes of a task (R280). -/
def State.takenTask : Task :=
  { pid := pid, tenant := tenant, state := .unplaced, count := (lpbOf bs).count, lpb := bs,
    cpl := (s.granule tenant.toNat x (lpbOf bs).cpl).locAt 0 ((lpbOf bs).cpl % 65536),
    inbox := s.granules tenant.toNat x (lpbOf bs).inbox (lpbOf bs).inboxBytes, insts := [], built := [], cid := cidOf (BitVec.ofNat 8 pid) }

/-- The state in which the task stands under its identifier, its inbox header and its object written (R280, R284). -/
def State.taskStands : State :=
  let l := lpbOf bs
  let t := s.takenTask pid tenant x bs
  let u := s.touchWalks tenant.toNat (l.cpl :: t.inbox.zipIdx.map fun e => (l.inbox / 65536 + e.2) * 65536)
  let w := (u.setTask ⟨pid, s.nextTaskId pid⟩ t).setPart pid { u.part pid with lastTask := s.nextTaskId pid }
  (w.writeAt pid (t.inboxLoc 0) (natLe 16 0 ++ natLe 4 l.inslots ++ natLe 44 0)).updateObj pid t.cpl fun o => o.init l.count

theorem State.takeTask_eq : s.takeTask pid tenant x bs =
    let u := s.taskStands pid tenant x bs
    let p := u.part pid
    if (lpbOf bs).count = 0 then (u.endTask ⟨pid, s.nextTaskId pid⟩, s.nextTaskId pid)
    else ((u.setPart pid { p with queue := p.queue ++ [(s.nextTaskId pid).toNat] }).injectIndex (arrayShared .launchQueue 0)
      (256 * p.queue.length) 256 (cidOf (BitVec.ofNat 8 pid)) (.shared .launchQueue 0), s.nextTaskId pid) := rfl

variable {s pid tenant x bs}

theorem State.taskStands_core (h : quiet s) : (s.taskStands pid tenant x bs).core = { s.core with
    tasks := Kv.set {} s.tasks (taskKey ⟨pid, s.nextTaskId pid⟩) (s.takenTask pid tenant x bs)
    parts := Kv.set {} s.parts pid { s.part pid with lastTask := s.nextTaskId pid } } := by
  unfold State.taskStands
  dsimp only
  generalize hu : s.touchWalks .. = u
  replace hu : u.core = s.core := by rw [← hu, State.touchWalks_core]
  generalize hw : State.setPart .. = w
  replace hw : w.core = { s.core with
      tasks := Kv.set {} s.tasks (taskKey ⟨pid, s.nextTaskId pid⟩) (s.takenTask pid tenant x bs)
      parts := Kv.set {} s.parts pid { s.part pid with lastTask := s.nextTaskId pid } } := by
    rw [← hw]
    change { u.core with
      tasks := Kv.set {} u.tasks (taskKey ⟨pid, s.nextTaskId pid⟩) (s.takenTask pid tenant x bs)
      parts := Kv.set {} u.parts pid { u.part pid with lastTask := s.nextTaskId pid } } = _
    rw [hu, State.tasks_of_core hu, State.parts_of_core hu, State.part_of_core hu]
  have hq : quiet w := by
    have haccs : w.accs = s.accs := congrArg Core.accs hw
    rwa [quiet, haccs]
  rw [State.updateObj_core (quiet_of_core (State.writeAt_core hq ..) hq), State.writeAt_core hq, hw]

/-- What the take of an LPB leaves: the task under its identifier, which is the partition's last one. -/
structure Taken (s t : State) (pid : Nat) (tenant : BitVec 16) (bs : List Byte) (id : BitVec 32) : Prop where
  ctxs : t.ctxs = s.ctxs
  cur : t.cur = s.cur
  lastTask : t.lastTask pid = id
  queued : (lpbOf bs).count ≠ 0 → (t.task ⟨pid, id⟩).state = .unplaced ∧ (t.task ⟨pid, id⟩).count = (lpbOf bs).count ∧
    (t.task ⟨pid, id⟩).lpb = bs ∧ (t.task ⟨pid, id⟩).pid = pid ∧ (t.task ⟨pid, id⟩).tenant = tenant ∧
    (t.part pid).queue = (s.part pid).queue ++ [id.toNat] ∧ t.fw = s.fw
  exited : (lpbOf bs).count = 0 → (t.task ⟨pid, id⟩).state = .exited ∧ t.fw = s.fw ++ [.taskExit ⟨pid, id⟩]

theorem State.takeTask_taken (h : quiet s) (hfset : (s.part pid).fset ≠ 0) (hbs : bs ≠ []) :
    Taken s (s.takeTask pid tenant x bs).1 pid tenant bs (s.nextTaskId pid) ∧ (s.takeTask pid tenant x bs).2 = s.nextTaskId pid := by
  have hcore := State.taskStands_core (pid := pid) (tenant := tenant) (x := x) (bs := bs) h
  rw [State.takeTask_eq]
  extract_lets u p
  change u.core = _ at hcore
  have hctxs : u.ctxs = s.ctxs := congrArg Core.ctxs hcore
  have hcur : u.cur = s.cur := congrArg Core.cur hcore
  have hfw : u.fw = s.fw := congrArg Core.fw hcore
  have htask : u.task ⟨pid, s.nextTaskId pid⟩ = s.takenTask pid tenant x bs := by
    rw [State.task, show u.tasks = _ from congrArg Core.tasks hcore]
    exact Kv.get_set_of_ne_default (d := ({} : Task)) (x := s.takenTask pid tenant x bs) (fun he => hbs (congrArg Task.lpb he)) _ _
  have hpart : u.part pid = { s.part pid with lastTask := s.nextTaskId pid } := by
    rw [State.part, show u.parts = _ from congrArg Core.parts hcore]
    exact Kv.get_set_of_ne_default (Part.ne_default (p := { s.part pid with lastTask := s.nextTaskId pid }) hfset) _ _
  split
  · next hcount =>
    refine ⟨⟨(u.endTask_ctxs _).trans hctxs, (u.endTask_cur _).trans hcur, ?_, fun hne => absurd hcount hne, fun _ => ⟨?_, ?_⟩⟩, rfl⟩
    · have hlast := u.endTask_lastTask ⟨pid, s.nextTaskId pid⟩ (by rw [htask]; exact hpart ▸ hfset)
      rw [htask] at hlast
      exact hlast.trans (congrArg Part.lastTask hpart)
    · rw [u.endTask_task]; rfl
    · rw [u.endTask_fw, hfw]
  · next hcount =>
    have hinject := (u.setPart pid { p with queue := p.queue ++ [(s.nextTaskId pid).toNat] }).injectIndex_core (arrayShared .launchQueue 0)
      (256 * p.queue.length) 256 (cidOf (BitVec.ofNat 8 pid)) (.shared .launchQueue 0)
    have hnew : (u.setPart pid { p with queue := p.queue ++ [(s.nextTaskId pid).toNat] }).part pid =
        { s.part pid with lastTask := s.nextTaskId pid, queue := (s.part pid).queue ++ [(s.nextTaskId pid).toNat] } := by
      have hp : p = { s.part pid with lastTask := s.nextTaskId pid } := hpart
      rw [hp]
      exact Kv.get_set_of_ne_default (Part.ne_default (p := { s.part pid with
        lastTask := s.nextTaskId pid, queue := (s.part pid).queue ++ [(s.nextTaskId pid).toNat] }) hfset) _ _
    refine ⟨⟨(State.ctxs_of_core hinject).trans hctxs, (State.cur_of_core hinject).trans hcur, ?_, fun _ => ?_, fun he => absurd he hcount⟩,
      rfl⟩
    · rw [State.lastTask_of_core hinject, State.lastTask, hnew]
    · rw [State.task_of_core hinject, State.part_of_core hinject, State.fw_of_core hinject, hnew]
      change (u.task _).state = _ ∧ (u.task _).count = _ ∧ (u.task _).lpb = _ ∧ (u.task _).pid = _ ∧ (u.task _).tenant = _ ∧ _ ∧ u.fw = _
      rw [htask]
      exact ⟨rfl, rfl, rfl, rfl, rfl, rfl, hfw⟩

/-- The next identifier is the one above the last, unless that one is taken (R280). -/
theorem State.nextTaskId_of_free (h0 : s.lastTask pid + 1 ≠ 0) (hlive : s.taskLive ⟨pid, s.lastTask pid + 1⟩ = false) :
    s.nextTaskId pid = s.lastTask pid + 1 := by
  rw [State.nextTaskId, State.taskIdFrom, if_neg]
  rintro (h | h)
  · exact h0 h
  · rw [hlive] at h; cases h

end

/-! ## The checks of R279 -/

theorem lpbOf_nil_malformed : (lpbOf []).malformed = true := by decide

/-- Whatever the checks take has an LPB, and a partition with fields. -/
theorem State.of_launchCheck_take {s : State} {x : Ctx} {die pid a : Nat} {bs : List Byte} (h : s.launchCheck x die pid a bs = .take) :
    bs ≠ [] ∧ (s.part pid).fset ≠ 0 := by
  unfold State.launchCheck at h
  dsimp only at h
  split at h
  · cases h
  next hform =>
  refine ⟨fun he => hform (he ▸ lpbOf_nil_malformed), fun hfset => ?_⟩
  have hdies : (s.part pid).diesWith (lpbOf bs).fields < (lpbOf bs).dies := by
    have hnone : (s.part pid).diesWith (lpbOf bs).fields = 0 := by
      have hfields : ¬ (lpbOf bs).fields ≤ 0 := Nat.not_le.mpr (Nat.succ_pos _)
      simp [Part.diesWith, hfset, hfields]
    rw [hnone]
    exact Nat.succ_pos _
  simp only [hdies, true_or, if_true] at h
  (repeat' split at h) <;> cases h

/-! ## LAUNCH -/

theorem faultOfAccess_load_extent {s : State} {a n : Nat} (h : faultOfAccess s true (.load true) a n = none) :
    s.accessFault s.self true false a n = none := (s.accessFault_eq true (.load true) a n).trans h

section
variable {s : State} {rd ra : Reg}

theorem exec_launch_begins {h : Hold} (hh : s.holdWith (s.reg ra) 0 = h) (hst : h.stage = 0) (hl : allLanded s.self)
    (hf : s.readFree true = true) :
    exec (.launch rd ra) s = s.takeLatency.holdOn s.self { h with stage := 1, upto := s.cycle + s.nextLatency } .other := by
  change execLaunch rd ra s = _
  simp [execLaunch, hh, hst, s.self.drained_iff.mpr hl, hf]

theorem exec_launch_waits {h : Hold} (hh : s.holdWith (s.reg ra) 0 = h)
    (hst : h.stage = 0 ∧ ¬ (allLanded s.self ∧ s.readFree true = true) ∨ h.stage = 1 ∧ s.cycle < h.upto) :
    exec (.launch rd ra) s = s.holdOn s.self h .other := by
  change execLaunch rd ra s = _
  obtain ⟨hst, hl⟩ | ⟨hst, hlt⟩ := hst
  · rw [← s.self.drained_iff, ← Bool.and_eq_true] at hl
    simp only [execLaunch, hh, hst, if_true, if_neg hl]
  · simp [execLaunch, hh, hst, hlt]

/-- A LAUNCH whose read has its time. -/
def State.mayRead (s : State) (h : Hold) : Prop := s.self.hold = some h ∧ h.stage = 1 ∧ h.upto ≤ s.cycle

/-- What a LAUNCH reads and checks, its LPB at `a` (R279). -/
def State.readLaunch (s : State) (rd : Reg) (a : Nat) : Out :=
  let r := s.touchVirt s.self (some (dieOf s.pan)) a 256
  match r.readVirt s.self (dieOf s.pan) a 256 with
  | .range f => r.trap 0x09 f
  | .corrupt _ => r.trap 0x12 a
  | .bytes bs =>
    let q := r.touchRecord s.self (some (dieOf s.pan)) bs
    match q.launchCheck s.self (dieOf s.pan) s.self.pid a bs with
    | .fault k v => q.trap k v
    | .full => q.result rd 0 1
    | .take =>
      let t := q.takeTask s.self.pid s.self.tenant s.self bs
      t.1.result rd (t.2.setWidth 64) 1

section
variable {h : Hold} (hr : s.mayRead h)
include hr

theorem exec_launch_reads : exec (.launch rd ra) s = match s.accessFault s.self true false h.val.toNat 256 with
    | some k => s.trap k h.val.toNat
    | none => s.readLaunch rd h.val.toNat := by
  obtain ⟨hh, hst, hle⟩ := hr
  change execLaunch rd ra s = _
  unfold execLaunch
  simp only [State.holdWith_of_some hh, hst, if_neg Nat.one_ne_zero, if_neg (Nat.not_lt.mpr hle)]
  rfl

theorem exec_launch_faults {k : Nat} (hk : faultOfAccess s true (.load true) h.val.toNat 256 = some k) :
    exec (.launch rd ra) s = s.trap k h.val.toNat := by
  rw [exec_launch_reads hr, show s.accessFault s.self true false h.val.toNat 256 = some k from (s.accessFault_eq true (.load true) ..).trans hk]

theorem exec_launch_of_noFault (hk : faultOfAccess s true (.load true) h.val.toNat 256 = none) :
    exec (.launch rd ra) s = s.readLaunch rd h.val.toNat := by
  rw [exec_launch_reads hr, faultOfAccess_load_extent hk]

end

section
variable {a : Nat} {r : State} (hr : r = s.touchVirt s.self (some (dieOf s.pan)) a 256)
include hr

theorem State.readLaunch_corrupt {b : Nat} (hb : r.readVirt s.self (dieOf s.pan) a 256 = .corrupt b) :
    s.readLaunch rd a = r.trap 0x12 a := by
  rw [State.readLaunch, ← hr]; simp only [hb]

variable {bs : List Byte} (hbs : r.readVirt s.self (dieOf s.pan) a 256 = .bytes bs) {q : State}
  (hq : q = r.touchRecord s.self (some (dieOf s.pan)) bs)
include hbs hq

theorem State.readLaunch_fault {k v : Nat} (hc : q.launchCheck s.self (dieOf s.pan) s.self.pid a bs = .fault k v) :
    s.readLaunch rd a = q.trap k v := by
  rw [State.readLaunch, ← hr]; simp only [hbs, ← hq, hc]

theorem State.readLaunch_full (hc : q.launchCheck s.self (dieOf s.pan) s.self.pid a bs = .full) :
    s.readLaunch rd a = .next (q.setSelf (q.self.passed.setReg rd 0)) := by
  rw [← State.result_one, State.readLaunch, ← hr]; simp only [hbs, ← hq, hc]

theorem State.readLaunch_take (hc : q.launchCheck s.self (dieOf s.pan) s.self.pid a bs = .take) :
    s.readLaunch rd a = let t := q.takeTask s.self.pid s.self.tenant s.self bs
      .next (t.1.setSelf (t.1.self.passed.setReg rd (t.2.setWidth 64))) := by
  rw [← State.result_one, State.readLaunch, ← hr]; simp only [hbs, ← hq, hc]

end

end

/-- Settles O34: the hold by its stage, then what `State.readLaunch` finds, and for a launch that is taken `Taken`. -/
theorem launchTakesOrRefuses : Obligations.LaunchTakesOrRefuses := by
  unfold Obligations.LaunchTakesOrRefuses
  intro s rd ra x
  refine ⟨fun a ha => ⟨fun hl hf => ?_, fun hl => ?_⟩, fun h hh hst hlt => ?_, fun h hh hst hle => ?_⟩
  · obtain ⟨hst, rfl⟩ := State.holdWith_unsent ha
    have hlat : 40 ≤ s.nextLatency := Nat.le_max_left _ _
    obtain ⟨hhold, hframe⟩ := State.holdOn_holds (s := s.takeLatency)
      (h := { s.holdWith (s.reg ra) 0 with stage := 1, upto := s.cycle + s.nextLatency }) (k := .other) rfl
    exact ⟨_, _, exec_launch_begins rfl hst hl hf, hhold, rfl, rfl, Nat.add_le_add_left hlat _, hframe⟩
  · obtain ⟨hst, rfl⟩ := State.holdWith_unsent ha
    obtain ⟨hhold, hframe⟩ := State.holdOn_holds (s := s) (h := s.holdWith (s.reg ra) 0) (k := .other) rfl
    exact ⟨_, _, exec_launch_waits rfl (.inl ⟨hst, hl⟩), hhold, hst, rfl, hframe⟩
  · obtain ⟨hhold, hframe⟩ := State.holdOn_holds (s := s) (h := h) (k := .other) rfl
    exact ⟨_, exec_launch_waits (State.holdWith_of_some hh _ _) (.inr ⟨hst, hlt⟩), hhold, hframe⟩
  · intro a
    have hread : s.mayRead h := ⟨hh, hst, hle⟩
    refine ⟨fun k hk => exec_launch_faults hread hk, fun hnone => ?_⟩
    intro r
    rw [exec_launch_of_noFault hread hnone]
    refine ⟨fun b hb => State.readLaunch_corrupt rfl hb, fun bs hbs => ?_⟩
    intro q
    have hcore : quiet s → q.core = s.core := fun hq => by
      have hr : r.core = s.core := State.touchVirt_core hq ..
      exact (State.touchRecord_core (quiet_of_core hr hq) ..).trans hr
    refine ⟨fun k v hc => State.readLaunch_fault rfl hbs rfl hc, fun hc => ⟨_, rfl, State.readLaunch_full rfl hbs rfl hc⟩,
      fun hq => ⟨State.ctxs_of_core (hcore hq), State.tasks_of_core (hcore hq), State.parts_of_core (hcore hq)⟩, fun hc hq => ?_⟩
    have hcore := hcore hq
    obtain ⟨hne, hfset⟩ := State.of_launchCheck_take hc
    obtain ⟨htaken, hid⟩ := State.takeTask_taken (pid := x.pid) (tenant := x.tenant) (x := x) (quiet_of_core hcore hq) hfset hne
    refine ⟨_, s.self.passed, State.readLaunch_take rfl hbs rfl hc, rfl, ?_⟩
    rw [hid]
    have hself : (q.takeTask x.pid x.tenant x bs).1.self = s.self := by
      rw [State.self, State.ctx, htaken.ctxs, htaken.cur, State.ctxs_of_core hcore, State.cur_of_core hcore]; rfl
    intro id y
    have hlast : id = q.nextTaskId x.pid := htaken.lastTask
    refine ⟨?_, fun h0 hlive => ?_, fun hcount => ?_, fun hcount => ?_⟩
    · rw [hlast, hself, State.setSelf, State.setCtx_ctxs, htaken.ctxs, htaken.cur, State.ctxs_of_core hcore, State.cur_of_core hcore]; rfl
    · rw [hlast, State.nextTaskId_of_free] <;> rw [State.lastTask_of_core hcore]
      · exact h0
      · rwa [State.taskLive, State.task?, State.tasks_of_core hcore]
    · have hqueued := htaken.queued hcount
      rw [← hlast, State.part_of_core hcore, State.fw_of_core hcore] at hqueued
      exact hqueued
    · have hexited := htaken.exited hcount
      rw [← hlast, State.fw_of_core hcore] at hexited
      exact hexited

end Sys2Proof.Machine
end

/-! # What leaves the runs of the contexts as they are (for O37)

An access that lands, a commit that ends, a command that fails and a block that is released change contexts, but none of them starts or
stops one, and none of them changes a task or tells firmware. -/

section
namespace Sys2Proof.Machine
open Sys2Proof.Claims

/-- Every context runs as it did, the tasks are the same, and firmware was told nothing. -/
structure RunsKept (s t : State) : Prop where
  tasks : t.tasks = s.tasks
  fw : t.fw = s.fw
  ctxs : Kv.wf ({} : Ctx) s.ctxs = true → Kv.wf ({} : Ctx) t.ctxs = true ∧ ∀ q, (t.ctx q).run = (s.ctx q).run

theorem RunsKept.of_ctxs {s t : State} (htasks : t.tasks = s.tasks) (hfw : t.fw = s.fw) (hctxs : t.ctxs = s.ctxs) : RunsKept s t :=
  ⟨htasks, hfw, fun h => ⟨hctxs ▸ h, fun q => by rw [State.ctx, hctxs]; rfl⟩⟩

theorem RunsKept.of_core {s t : State} (h : t.core = s.core) : RunsKept s t :=
  .of_ctxs (State.tasks_of_core h) (State.fw_of_core h) (State.ctxs_of_core h)

theorem RunsKept.refl (s : State) : RunsKept s s := .of_core rfl

theorem RunsKept.trans {s t u : State} (h : RunsKept s t) (h' : RunsKept t u) : RunsKept s u :=
  ⟨h'.tasks.trans h.tasks, h'.fw.trans h.fw, fun hs =>
    have ht := h.ctxs hs
    have hu := h'.ctxs ht.1
    ⟨hu.1, fun q => (hu.2 q).trans (ht.2 q)⟩⟩

theorem State.foldl_runsKept {α : Type} {f : State → α → State} (hf : ∀ s a, RunsKept s (f s a)) (l : List α) (s : State) :
    RunsKept s (l.foldl f s) :=
  List.foldlRecOn (motive := RunsKept s) l f (.refl s) fun t ht a _ => ht.trans (hf t a)

theorem State.setCtx_runsKept {s : State} {c : Nat} {x : Ctx} (h : x.run = (s.ctx c).run) : RunsKept s (s.setCtx c x) :=
  ⟨rfl, rfl, fun hs => ⟨Kv.wf_set _ c x hs, fun q => by
    by_cases hq : q = c
    · subst hq; exact (congrArg Ctx.run (Kv.get_set_self _ q x hs)).trans h
    · exact congrArg Ctx.run (Kv.get_set_of_ne _ hq x hs)⟩⟩

/-! ## Landing -/

theorem State.landIn_runsKept (s : State) (c : Nat) (ln : Option LReg) (id : Nat) (v : Word) (poison : Option Word) :
    RunsKept s (s.landIn c ln id v poison) := by
  unfold State.landIn
  split
  · exact .refl s
  · dsimp only
    split
    · exact State.setCtx_runsKept rfl
    · exact .refl s

theorem Ctx.setShape_run (x : Ctx) (h : HReg) (v : Nat) : (x.setShape h v).run = x.run := by
  unfold Ctx.setShape
  generalize shapeMask v = w
  rfl

theorem State.arrive_runsKept (s : State) (a : Acc) (bs : List Byte) (bad : Bool) : RunsKept s (s.arrive a bs bad) := by
  unfold State.arrive
  cases a.kind with
  | load | inv | store | amo | cas => exact s.landIn_runsKept ..
  | hload h =>
    have hrun := (s.ctx a.ctx).setShape_run h (leNat bs)
    dsimp only
    generalize (s.ctx a.ctx).setShape h (leNat bs) = y at hrun ⊢
    split
    · refine .trans ?_ (State.landIn_runsKept ..)
      exact State.setCtx_runsKept hrun
    · exact s.landIn_runsKept ..
  | mload m =>
    dsimp only
    split
    · refine .trans ?_ (State.landIn_runsKept ..)
      exact .of_core rfl
    · exact s.landIn_runsKept ..
  | msg | occ => exact .refl s

theorem State.dropAcc_runsKept (s : State) (id : Nat) : RunsKept s (s.dropAcc id) := .of_ctxs rfl rfl rfl

/-! ## Commits -/

theorem State.unlockOne_runsKept (s : State) (a : Acc) (k : Nat) : RunsKept s (s.unlockOne a k) := by
  unfold State.unlockOne
  dsimp only
  split
  · exact .refl s
  · exact .of_core (by simp)

theorem State.committedEnd_runsKept (s : State) (a : Acc) : RunsKept s (s.committedEnd a) :=
  (s.arrive_runsKept ..).trans (State.dropAcc_runsKept ..)

theorem State.finishCommit_runsKept (s : State) (a : Acc) : RunsKept s (s.finishCommit a) :=
  (State.foldl_runsKept (fun s k => s.unlockOne_runsKept a k) _ s).trans (State.committedEnd_runsKept ..)

theorem State.settleAt_runsKept (s : State) (l : Loc) (n : Nat) : RunsKept s (s.settleAt l n) :=
  State.foldl_runsKept State.finishCommit_runsKept _ s

/-! ## Writes and updates -/

theorem State.writeAt_runsKept (s : State) (pid : Nat) (l : Loc) (bs : List Byte) : RunsKept s (s.writeAt pid l bs) := by
  unfold State.writeAt
  split
  · exact (s.settleAt_runsKept l bs.length).trans (.of_core (by simp))
  · exact .of_core (by simp)

theorem State.updateObj_runsKept (s : State) (pid : Nat) (l : Loc) (f : Obj → Obj) : RunsKept s (s.updateObj pid l f) := by
  unfold State.updateObj
  split
  · refine (s.settleAt_runsKept l 32).trans (.of_core ?_)
    dsimp only
    split <;> simp
  · exact .of_core (by simp)

@[simp] theorem State.countWrite_core (s : State) (die : Nat) (l : Loc) (n : Nat) : (s.countWrite die l n).core = s.core := by
  unfold State.countWrite
  split
  · exact State.foldl_core (fun t k => t.countAccess_core ..) _ s
  · simp

@[simp] theorem State.countOthers_core (s : State) (die : Nat) (l : Loc) (n : Nat) : (s.countOthers die l n).core = s.core := by
  unfold State.countOthers
  split
  · exact State.foldl_core (fun t k => by split <;> simp) _ s
  · rfl

@[simp] theorem State.spend_core (s : State) (c sp n : Nat) : (s.spend c sp n).core = s.core := by
  unfold State.spend; split <;> rfl

@[simp] theorem State.serveAt_core (s : State) (a : Acc) (p : Nat) : (s.serveAt a p).1.core = s.core := by
  unfold State.serveAt
  dsimp only
  (repeat' split) <;> simp [State.touchMap]

theorem State.updateFor_runsKept (s : State) (die pid : Nat) (l : Loc) (f : Obj → Obj) : RunsKept s (s.updateFor die pid l f) := by
  refine .trans (.of_core ?_) (State.updateObj_runsKept ..)
  split <;> simp

/-! ## What a context has issued -/

theorem State.deliver_runsKept (s : State) (task : TaskRef) (bs : List Byte) (bad : List Nat) : RunsKept s (s.deliver task bs bad).1 := by
  unfold State.deliver
  split
  · exact .refl s
  next t _ =>
  split
  · exact .refl s
  dsimp only
  have hheader : RunsKept s ((s.settleAt (t.inboxLoc 0) 32).scrubFor (t.inboxLoc 0).owner.pa 32) :=
    (s.settleAt_runsKept (t.inboxLoc 0) 32).trans (.of_core (by simp))
  split
  · exact hheader.trans (.trans (State.writeAt_runsKept ..)
      (.trans (State.foldl_runsKept (fun u i => .of_core (u.poisonBytes_core ..)) _ _) (State.writeAt_runsKept ..)))
  · exact hheader.trans (State.writeAt_runsKept ..)

theorem State.handOver_runsKept (s : State) (a : Acc) (task : BitVec 32) (cpl : Loc) (bs : List Byte) (bad : List Nat) :
    RunsKept s (s.handOver a task cpl bs bad) :=
  (s.deliver_runsKept ..).trans (.trans (State.updateObj_runsKept ..) (State.dropAcc_runsKept ..))

theorem State.lose_runsKept (s : State) (a : Acc) : RunsKept s (s.lose a) := by
  have hlog : RunsKept s (s.logRequest (dieOf (panOf a.ctx)) a.loc.pa a.cid) := .of_core (by simp [State.logRequest])
  unfold State.lose
  dsimp only
  split
  · exact hlog.trans (State.handOver_runsKept ..)
  · exact hlog.trans (.trans (State.landIn_runsKept ..) (State.dropAcc_runsKept ..))
  · exact hlog.trans (.trans (State.arrive_runsKept ..) (State.dropAcc_runsKept ..))

theorem State.sendAcc_runsKept (s : State) (a : Acc) : RunsKept s (s.sendAcc a) := by
  unfold State.sendAcc
  dsimp only
  split
  · exact .trans (t := (s.forward ..).injectIndex ..) (.of_core (by simp)) (.of_ctxs rfl rfl rfl)
  · exact .refl s

theorem State.performNow_runsKept (s : State) (id : Nat) : RunsKept s (s.performNow id) := by
  unfold State.performNow
  split
  · exact .refl s
  next a _ =>
  dsimp only
  split
  · exact s.finishCommit_runsKept a
  split
  · split
    · exact (s.settleAt_runsKept ..).trans (.trans (.of_core (State.serveAt_core ..)) (State.handOver_runsKept ..))
    · exact s.lose_runsKept a
  · split
    · exact .of_ctxs rfl rfl rfl
    split
    · exact s.dropAcc_runsKept _
    split
    · refine .trans ?_ (State.dropAcc_runsKept ..)
      split
      · exact .refl s
      · exact s.sendAcc_runsKept a
    · refine .trans ?_ (State.dropAcc_runsKept ..)
      refine (s.settleAt_runsKept a.loc a.n).trans ?_
      generalize s.settleAt a.loc a.n = t
      refine (RunsKept.of_core (t.serveAt_core a a.loc.owner.pa)).trans ?_
      generalize (t.serveAt a a.loc.owner.pa).1 = u
      refine (RunsKept.of_core (u.countOthers_core (dieOf (panOf a.ctx)) a.loc a.n)).trans ?_
      generalize u.countOthers (dieOf (panOf a.ctx)) a.loc a.n = v
      split
      · exact .trans (.of_core (State.writeLoc_core ..)) (.of_core rfl)
      · split
        · exact .of_core (State.writeLoc_core ..)
        · exact .refl _

theorem State.performIssued_runsKept (s : State) (c : Nat) : RunsKept s (s.performIssued c) :=
  State.foldl_runsKept State.performNow_runsKept _ s

/-! ## Commands and blocks -/

theorem State.report_runsKept (s : State) (k : Cmd) (f : Obj → Obj) : RunsKept s (s.report k f) :=
  (RunsKept.of_core (s.spend_core k.ctx 3 32)).trans (State.updateFor_runsKept ..)

theorem State.failCmd_runsKept (s : State) (k : Cmd) (code eadr : Nat) : RunsKept s (s.failCmd k code eadr) := by
  refine (s.report_runsKept k fun o => (o.report code eadr).less k.left).trans ?_
  unfold State.failCmd State.endCmd
  generalize s.report k _ = t
  exact .of_ctxs rfl rfl rfl

@[simp] theorem State.closeEnd_core (s : State) (key : Nat) (recv : Bool) : (s.closeEnd key recv).core = s.core := by
  unfold State.closeEnd
  extract_lets st st'
  split <;> rfl

@[simp] theorem State.closeStreams_core (s : State) (pan : Nat) (old new : Block) : (s.closeStreams pan old new).core = s.core :=
  State.foldl_core (fun t e => by split <;> simp) _ s

@[simp] theorem State.resetBq_core (s : State) (pan : Nat) (b : Block) : (s.resetBq pan b).core = s.core := by
  refine State.foldl_core (fun t y => ?_) _ s
  rfl

theorem State.endBlock_core (m : BitVec 8) (s : State) (pan : Nat) : (s.endBlock m pan).core = s.core := by
  have hcore : ((s.closeStreams pan (s.activeBlk pan m) {}).resetBq pan (s.activeBlk pan m)).core = s.core := by simp
  unfold State.endBlock
  dsimp only
  generalize State.resetBq .. = t at hcore ⊢
  split <;> exact hcore

theorem State.releaseBlock_core (s : State) (key : Nat) : (s.releaseBlock key).core = s.core := by
  have hcore := State.endBlock_core (keyMask key) (s.discardLanes (s.activeBlk (keyPan key) (keyMask key)).twin (keyPan key)) (keyPan key)
  unfold State.releaseBlock
  dsimp only
  generalize State.endBlock .. = t at hcore ⊢
  exact hcore

theorem State.dropLoaded_core (s : State) (c : Nat) : (s.dropLoaded c).core = s.core := by
  refine State.foldl_core (fun t k => ?_) _ s
  rfl

theorem State.abandonBody_runsKept (s : State) (c : Nat) : RunsKept s (s.abandonBody c) := by
  unfold State.abandonBody
  split
  · next b _ =>
    exact .trans (t := s.dropShadow (panOf c) b.mask) (.of_ctxs rfl rfl rfl) (State.setCtx_runsKept rfl)
  · exact .refl s

theorem State.releaseAll_runsKept (s : State) (c : Nat) : RunsKept s (s.releaseAll c) :=
  .trans (.of_core ((State.dropLoaded_core ..).trans (State.foldl_core State.releaseBlock_core _ s))) (State.abandonBody_runsKept ..)

theorem State.resetCtx_runsKept (s : State) (c : Nat) : RunsKept s (s.resetCtx c) := by
  have hfail : ∀ (t : State) (k : Cmd), RunsKept t (t.takeFree.failCmd k 0x020D (t.freshNat % 2 ^ 64)) := fun t k =>
    (RunsKept.of_ctxs (s := t) (t := t.takeFree) rfl rfl rfl).trans (State.failCmd_runsKept ..)
  unfold State.resetCtx
  refine (State.foldl_runsKept hfail (s.cmds.filter fun k => k.ctx == c) s).trans ?_
  generalize List.foldl _ s _ = t
  refine (t.releaseAll_runsKept c).trans ?_
  dsimp only
  generalize t.releaseAll c = u
  exact .of_ctxs rfl rfl rfl

/-- The kill of a context resets it, but leaves it bound. -/
theorem State.killCtx_runsKept (s : State) (c : Nat) : RunsKept s (s.killCtx c) :=
  (s.performIssued_runsKept c).trans (State.resetCtx_runsKept ..)

end Sys2Proof.Machine
end

/-! # Instances that firmware ends and binds, and the translator (O37) -/

section
namespace Sys2Proof.Machine
open Sys2Proof.Claims

/-! ## Entries of a table, in whatever form it stands -/

section
variable {α : Type} {d : α} {k : Nat}

theorem Kv.find?_of_get {m : Kv α} (h : Kv.get d m k ≠ d) : m.find? (fun e => e.1 == k) = some (k, Kv.get d m k) := by
  induction m with
  | nil => exact absurd rfl h
  | cons e m ih =>
    obtain ⟨a, v⟩ := e
    by_cases ha : a = k
    · simp [Kv.get, ha]
    · by_cases hlt : k < a
      · simp [Kv.get, ha, hlt] at h
      · rw [Kv.get, if_neg ha, if_neg hlt] at h ⊢
        simpa [ha] using ih h

theorem Kv.get_erase_of_get {j : Nat} (hj : j ≠ k) {m : Kv α} (h : Kv.get d m k ≠ d) : Kv.get d (Kv.erase m j) k = Kv.get d m k := by
  induction m with
  | nil => rfl
  | cons e m ih =>
    obtain ⟨a, v⟩ := e
    by_cases ha : a = k
    · grind [Kv.get, Kv.erase]
    · have hlt : ¬ k < a := fun hlt => h (by simp [Kv.get, ha, hlt])
      grind [Kv.get, Kv.erase]

theorem Kv.get_insert_of_get {j : Nat} (hj : j ≠ k) (x : α) {m : Kv α} (h : Kv.get d m k ≠ d) :
    Kv.get d (Kv.insert m j x) k = Kv.get d m k := by
  induction m with
  | nil => exact absurd rfl h
  | cons e m ih =>
    obtain ⟨a, v⟩ := e
    by_cases ha : a = k
    · grind [Kv.get, Kv.insert]
    · have hlt : ¬ k < a := fun hlt => h (by simp [Kv.get, ha, hlt])
      grind [Kv.get, Kv.insert]

end

/-- A write of one key keeps what the table holds at another one. -/
theorem Kv.get_set_of_get {α : Type} [DecidableEq α] {d : α} {j k : Nat} (hj : j ≠ k) (x : α) {m : Kv α} (h : Kv.get d m k ≠ d) :
    Kv.get d (Kv.set d m j x) k = Kv.get d m k := by
  unfold Kv.set
  split
  · exact Kv.get_erase_of_get hj h
  · exact Kv.get_insert_of_get hj x h

/-! ## A task of some LPB -/

/-- The task has an LPB and has not exited. -/
def State.runsTask (s : State) (r : TaskRef) : Prop := (s.task r).lpb ≠ [] ∧ (s.task r).state ≠ .exited

theorem Task.ne_default_of_lpb {t : Task} (h : t.lpb ≠ []) : t ≠ {} := fun he => h (congrArg Task.lpb he)

theorem Lpb.count_nil : (lpbOf []).count = 0 := by decide

theorem State.runsTask_of_live {s : State} {r : TaskRef} {i : BitVec 24} (hlive : s.taskLive r = true)
    (hi : i.toNat < (s.task r).info.count) : s.runsTask r := by
  have hlpb : (s.task r).lpb ≠ [] := fun he => by
    rw [Task.info, he, Lpb.count_nil] at hi
    exact absurd hi (Nat.not_lt_zero _)
  refine ⟨hlpb, fun hexited => ?_⟩
  have hfind : s.tasks.find? (fun e => e.1 == taskKey r) = some (taskKey r, s.task r) := Kv.find?_of_get (Task.ne_default_of_lpb hlpb)
  rw [State.taskLive, State.task?, hfind] at hlive
  simp [hexited] at hlive

section
variable {s : State} {r : TaskRef}

theorem State.task_setTask {t : Task} (h : t.lpb ≠ []) (s : State) (r : TaskRef) : (s.setTask r t).task r = t :=
  Kv.get_set_of_ne_default (Task.ne_default_of_lpb h) _ _

theorem State.runsTask_of_tasks {t : State} (ht : t.tasks = s.tasks) (h : s.runsTask r) : t.runsTask r := by
  rwa [State.runsTask, State.task, ht]

/-- A task goes on when the instances of one change. -/
theorem State.runsTask_setTask (h : s.runsTask r) {q : TaskRef} (insts : Kv Inst) :
    (s.setTask q { s.task q with insts := insts }).runsTask r := by
  by_cases hq : taskKey q = taskKey r
  · have htask : s.task q = s.task r := by rw [State.task, hq]; rfl
    have hset : (s.setTask q { s.task q with insts := insts }).task r = { s.task r with insts := insts } := by
      rw [htask, State.task, ← hq]
      exact State.task_setTask (t := { s.task r with insts := insts }) h.1 s q
    rw [State.runsTask, hset]
    exact h
  · rwa [State.runsTask, show (s.setTask q { s.task q with insts := insts }).task r = s.task r from
      Kv.get_set_of_get hq _ (Task.ne_default_of_lpb h.1)]

/-! ## Instances that end -/

/-- The context is free, or waits for what its range runs next (R291). -/
def State.gone (s : State) (q : Nat) : Prop := (s.ctx q).run = .free ∨ (s.ctx q).run = .exited

theorem State.noteLeft_ctxs (s : State) (c : Nat) : (s.noteLeft c).ctxs = s.ctxs := by
  unfold State.noteLeft; dsimp only; split <;> rfl

theorem State.noteLeft_runsTask (h : s.runsTask r) (c : Nat) : (s.noteLeft c).runsTask r := by
  unfold State.noteLeft
  dsimp only
  split
  · exact h
  · exact State.runsTask_setTask h _

theorem State.freeCtx_eq (s : State) (c : Nat) : ∃ y : Ctx, (y.run = .free ∨ y.run = .exited) ∧ s.freeCtx c = (s.noteLeft c).setCtx c y := by
  unfold State.freeCtx
  dsimp only
  split
  · exact ⟨_, .inr rfl, rfl⟩
  · exact ⟨_, .inl rfl, rfl⟩

/-- Freeing a context. -/
theorem State.freeCtx_gone (hwf : Kv.wf ({} : Ctx) s.ctxs = true) (c : Nat) :
    Kv.wf ({} : Ctx) (s.freeCtx c).ctxs = true ∧ (s.runsTask r → (s.freeCtx c).runsTask r) ∧ (s.freeCtx c).gone c ∧
    ∀ q, s.gone q → (s.freeCtx c).gone q := by
  have hwfLeft : Kv.wf ({} : Ctx) (s.noteLeft c).ctxs = true := by rwa [State.noteLeft_ctxs]
  obtain ⟨y, hy, hfree⟩ := s.freeCtx_eq c
  have hself : ((s.noteLeft c).setCtx c y).ctx c = y := Kv.get_set_self _ c y hwfLeft
  have hgone : ((s.noteLeft c).setCtx c y).gone c := by rwa [State.gone, hself]
  rw [hfree]
  refine ⟨Kv.wf_set _ c y hwfLeft, fun h => State.runsTask_of_tasks (s := s.noteLeft c) rfl (State.noteLeft_runsTask h c), hgone,
    fun q hq => ?_⟩
  by_cases hqc : q = c
  · rwa [hqc]
  · have hother : ((s.noteLeft c).setCtx c y).ctx q = s.ctx q :=
      (Kv.get_set_of_ne _ hqc y hwfLeft).trans (by rw [State.noteLeft_ctxs]; rfl)
    rwa [State.gone, hother]

/-- A context is killed and freed (R295). -/
def State.endCtx (s : State) (c : Nat) : State := (s.killCtx c).freeCtx c

theorem State.endCtx_gone (hwf : Kv.wf ({} : Ctx) s.ctxs = true) (c : Nat) :
    Kv.wf ({} : Ctx) (s.endCtx c).ctxs = true ∧ (s.runsTask r → (s.endCtx c).runsTask r) ∧ (s.endCtx c).gone c ∧
    ∀ q, s.gone q → (s.endCtx c).gone q := by
  have hkill := s.killCtx_runsKept c
  unfold State.endCtx
  generalize s.killCtx c = t at hkill ⊢
  obtain ⟨hwfKill, hruns⟩ := hkill.ctxs hwf
  obtain ⟨hwfFree, htask, hself, hother⟩ := State.freeCtx_gone (r := r) hwfKill c
  refine ⟨hwfFree, fun h => htask (State.runsTask_of_tasks hkill.tasks h), hself, fun q hq => hother q ?_⟩
  rwa [State.gone, hruns]

theorem State.foldl_endCtx_gone (l : List Nat) (hwf : Kv.wf ({} : Ctx) s.ctxs = true) (h : s.runsTask r) :
    Kv.wf ({} : Ctx) (l.foldl State.endCtx s).ctxs = true ∧ (l.foldl State.endCtx s).runsTask r ∧
    ∀ q, s.gone q ∨ q ∈ l → (l.foldl State.endCtx s).gone q := by
  induction l generalizing s with
  | nil => exact ⟨hwf, h, fun q hq => hq.resolve_right List.not_mem_nil⟩
  | cons c l ih =>
    obtain ⟨hwfCtx, htask, hself, hother⟩ := State.endCtx_gone (r := r) hwf c
    rw [List.foldl_cons]
    generalize s.endCtx c = t at hwfCtx htask hself hother ⊢
    obtain ⟨hwfEnd, hend, hgone⟩ := ih hwfCtx (htask h)
    refine ⟨hwfEnd, hend, fun q hq => hgone q ?_⟩
    obtain hq | hq := hq
    · exact .inl (hother q hq)
    obtain rfl | hq := List.mem_cons.mp hq
    · exact .inl hself
    · exact .inr hq

theorem State.mem_ctxsOf {i : BitVec 24} {q : Nat} (h : ofInstance (s.ctx q) r i) : q ∈ s.ctxsOf r i := by
  obtain ⟨hrun, hpid, htask, hinst⟩ := h
  have hmem : (q, s.ctx q) ∈ s.ctxs := List.mem_of_find?_eq_some (Kv.find?_of_get fun he => hrun (congrArg Ctx.run he))
  refine List.mem_map.mpr ⟨_, List.mem_filter.mpr ⟨hmem, ?_⟩, rfl⟩
  simp [hrun, hinst, Ctx.ref, hpid, htask]

/-- Of a task that goes on, INSTANCE_RETIRE retires what it names, and it stops no context and starts none. -/
theorem State.retireInst_retired (h : s.runsTask r) (hwf : Kv.wf ({} : Ctx) s.ctxs = true) (i : BitVec 24) (code : Nat) :
    (((s.retireInst r i code).task r).inst i).retired = true ∧ ∀ q, ((s.retireInst r i code).ctx q).run = (s.ctx q).run := by
  obtain ⟨hlpb, hstate⟩ := h
  unfold State.retireInst
  dsimp only
  split
  · next hdone => exact ⟨by simpa [hstate] using hdone, fun _ => rfl⟩
  generalize hT : Task.setInst _ i _ = T
  have hTlpb : T.lpb ≠ [] := by rw [← hT]; exact hlpb
  have hTinst : (T.inst i).retired = true := by
    rw [← hT]
    exact congrArg Inst.retired (Kv.get_set_of_ne_default (x := { (s.task r).inst i with retired := true, code := code })
      (fun he => nomatch (congrArg Inst.retired he : true = false)) _ _)
  generalize hu : State.markDone _ r i = u
  have hutask : u.task r = T := by rw [← hu]; exact State.task_setTask hTlpb s r
  have huctxs : u.ctxs = s.ctxs := by rw [← hu]; rfl
  have hv := u.updateObj_runsKept (s.task r).pid (s.task r).cpl fun o => ({ o with code := max o.code code }).less 1
  generalize State.updateObj u _ _ _ = v at hv ⊢
  have hvtask : v.task r = T := by rw [State.task, hv.tasks]; exact hutask
  have hvruns : ∀ q, (v.ctx q).run = (s.ctx q).run := fun q => ((hv.ctxs (huctxs ▸ hwf)).2 q).trans (by rw [State.ctx, huctxs]; rfl)
  split
  · refine ⟨?_, fun q => ?_⟩
    · rw [State.endTask_task, hvtask]; exact hTinst
    · rw [State.ctx, State.endTask_ctxs]; exact hvruns q
  · unfold State.replaceTask
    split
    · exact ⟨by rw [hvtask]; exact hTinst, hvruns⟩
    · refine ⟨?_, hvruns⟩
      rw [State.task_setTask (by rw [hvtask]; exact hTlpb), hvtask]
      exact hTinst

/-- Of a task that goes on, INSTANCE_END retires what it names and frees its contexts. -/
theorem State.endInstance_ends {i : BitVec 24} (h : s.runsTask r) (hwf : Kv.wf ({} : Ctx) s.ctxs = true) :
    (((s.endInstance r i).task r).inst i).retired = true ∧ ∀ q, ofInstance (s.ctx q) r i → (s.endInstance r i).gone q := by
  obtain ⟨hwfEnd, hend, hgone⟩ := State.foldl_endCtx_gone (s.ctxsOf r i) hwf h
  have heq : s.endInstance r i = ((s.ctxsOf r i).foldl State.endCtx s).retireInst r i 0xFFFF := rfl
  rw [heq]
  generalize (s.ctxsOf r i).foldl State.endCtx s = t at hwfEnd hend hgone ⊢
  obtain ⟨hretired, hruns⟩ := State.retireInst_retired hend hwfEnd i 0xFFFF
  refine ⟨hretired, fun q hq => ?_⟩
  rw [State.gone, hruns]
  exact hgone q (.inr (State.mem_ctxsOf hq))

end

theorem exec_instanceEnd {s : State} {r : TaskRef} {i : BitVec 24} (hlive : s.taskLive r = true) (hi : i.toNat < (s.task r).info.count) :
    exec (.instanceEnd r i) s = .next (s.endInstance r i) :=
  if_pos (by rw [hlive, decide_eq_true hi]; rfl)

/-! ## Bind records -/

/-- Whether a record breaks a rule of R286. -/
def State.badRecord (s : State) (pan : Nat) (r : BindRec) : Bool :=
  (r.ifirst != r.ilast && (s.recLpb pan r).region != 1) || r.slots == 0 || decide (r.ilast.toNat < r.ifirst.toNat)
    || (r.res && r.start.toNat % 8 != 0)

theorem exec_bindRecordWrite {s : State} {pan : Nat} {idx : BitVec 4} {r : BindRec} (hv : r.v = true) :
    exec (.bindRecordWrite pan idx r) s = .next (s.setRecord pan idx.toNat { r := r, cur := r.ifirst, bad := s.badRecord pan r }) := by
  change execBindRecordWrite pan idx r s = _
  unfold execBindRecordWrite State.badRecord
  simp [hv]

theorem SlotRec.ne_default {e : SlotRec} (h : e.r.v = true) : e ≠ { r := noRec } := fun he =>
  nomatch (h.symm.trans (congrArg (fun e => e.r.v) he) : true = false)

theorem State.record_setRecord {e : SlotRec} (h : e.r.v = true) (s : State) (pan idx : Nat) : (s.setRecord pan idx e).record pan idx = e :=
  Kv.get_set_of_ne_default (SlotRec.ne_default h) _ _

theorem State.record_setRecord_of_ne {s : State} (hwf : Kv.wf ({ r := noRec } : SlotRec) s.slotTab = true) (e : SlotRec)
    {pan p idx k : Nat} (hidx : idx < 16) (hk : k < 16) (hne : p ≠ pan ∨ k ≠ idx) : (s.setRecord pan idx e).record p k = s.record p k :=
  Kv.get_set_of_ne _ (by unfold recKey; omega) e hwf

/-! ## The translator walks the tables

Its walks read memory and the roots of the tables alone, so they find the same whatever the record of a partition holds. -/

/-- The two states hold the same memory, marks and roots of page tables. -/
structure SameMemory (s t : State) : Prop where
  mem : t.mem = s.mem
  poison : t.poison = s.poison
  scrub : t.scrub = s.scrub
  root : t.tenantRoot = s.tenantRoot

section
variable {s t : State} (h : SameMemory s t)
include h

theorem SameMemory.poisoned (a n : Nat) : t.poisoned a n = s.poisoned a n := by
  induction n generalizing a with
  | zero => rfl
  | succ n ih => simp only [State.poisoned, h.poison, ih]

theorem SameMemory.peekNat (a n : Nat) : t.peekNat a n = s.peekNat a n := by
  have hpeeks : t.peeks a n = s.peeks a n := by
    induction n generalizing a with
    | zero => rfl
    | succ n ih => simp only [State.peeks, State.peek, State.readByte, h.mem, h.scrub, ih]
  rw [State.peekNat, hpeeks, State.peekNat]

theorem SameMemory.walkFrom (va : Nat) (levels : List (Nat × Nat × Bool)) (table : Nat) :
    t.walkFrom va levels table = s.walkFrom va levels table := by
  induction levels generalizing table with
  | nil => rfl
  | cons e levels ih => simp only [State.walkFrom, h.peekNat, h.poisoned, ih]

theorem SameMemory.walkPath (va : Nat) (levels : List (Nat × Nat × Bool)) (table : Nat) :
    t.walkPath va levels table = s.walkPath va levels table := by
  induction levels generalizing table with
  | nil => rfl
  | cons e levels ih => simp only [State.walkPath, h.peekNat, h.poisoned, ih]

theorem SameMemory.walk (tenant va : Nat) : t.walk tenant va = s.walk tenant va := by
  rw [State.walk, h.walkFrom, h.root, State.walk]

theorem SameMemory.buildRuns (tenant die : Nat) (d : ExtDesc) (n : Nat) : t.buildRuns tenant die d n = s.buildRuns tenant die d n := by
  induction n with
  | zero => rfl
  | succ n ih => simp only [State.buildRuns, h.walk, ih]

theorem SameMemory.buildExtents (tenant die : Nat) (ds : List ExtDesc) : t.buildExtents tenant die ds = s.buildExtents tenant die ds := by
  induction ds with
  | nil => rfl
  | cons d ds ih => simp only [State.buildExtents, h.buildRuns, ih]

theorem SameMemory.scrubOne (line : Nat) : SameMemory (s.scrubOne line) (t.scrubOne line) := by
  have hmem : (t.wipe (line * 128) 128).mem = (s.wipe (line * 128) 128).mem := by simp only [State.wipe, h.mem]
  have hpoison : (t.wipe (line * 128) 128).poison = (s.wipe (line * 128) 128).poison := by simp only [State.wipe, h.poison]
  unfold State.scrubOne
  rw [h.scrub]
  split
  · exact ⟨hmem, hpoison, rfl, h.root⟩
  · exact h

end

theorem SameMemory.scrubFor {s t : State} (h : SameMemory s t) (a n : Nat) : SameMemory (s.scrubFor a n) (t.scrubFor a n) := by
  have hlines : ∀ (n : Nat) {s t : State} (line : Nat), SameMemory s t → SameMemory (s.scrubLines line n) (t.scrubLines line n) := by
    intro n
    induction n with
    | zero => exact fun _ h => h
    | succ n ih => exact fun line h => ih _ (h.scrubOne line)
  exact hlines _ _ h

/-- The walk reads an entry of a table (R424, R428). -/
def State.touchEntry (s : State) (a : Nat) : State :=
  match (s.scrubFor a 8).poisoned a 8 with
  | some q => (s.scrubFor a 8).logPoison q (cidOf 127)
  | none => s.scrubFor a 8

theorem State.touchWalks_eq (s : State) (tenant : Nat) (vas : List Nat) : s.touchWalks tenant vas =
    (vas.flatMap fun va => if 2 ^ 56 ≤ va then [] else s.walkPath va walkLevels (Kv.get 0 s.tenantRoot tenant)).foldl State.touchEntry s := rfl

theorem SameMemory.touchEntry {s t : State} (h : SameMemory s t) (a : Nat) : SameMemory (s.touchEntry a) (t.touchEntry a) := by
  have hscrub := h.scrubFor a 8
  unfold State.touchEntry
  generalize s.scrubFor a 8 = u at hscrub ⊢
  generalize t.scrubFor a 8 = v at hscrub ⊢
  rw [hscrub.poisoned]
  split
  · exact ⟨hscrub.mem, hscrub.poison, hscrub.scrub, hscrub.root⟩
  · exact hscrub

theorem SameMemory.touchWalks {s t : State} (h : SameMemory s t) (tenant : Nat) (vas : List Nat) :
    SameMemory (s.touchWalks tenant vas) (t.touchWalks tenant vas) := by
  have hfold : ∀ (l : List Nat) {s t : State}, SameMemory s t → SameMemory (l.foldl State.touchEntry s) (l.foldl State.touchEntry t) := by
    intro l
    induction l with
    | nil => exact fun h => h
    | cons a l ih => exact fun h => ih (h.touchEntry a)
  simp only [State.touchWalks_eq, h.walkPath, h.root]
  exact hfold _ h

theorem State.touchWalks_readsFrom (s : State) (tenant : Nat) (vas : List Nat) : ReadsFrom s (s.touchWalks tenant vas) := by
  refine List.foldlRecOn (motive := ReadsFrom s) _ State.touchEntry (.refl s) fun t ht a _ => ht.trans ?_
  have hscrub : ReadsFrom t (t.scrubFor a 8) := t.scrubLines_readsFrom _ _
  unfold State.touchEntry
  split
  · exact hscrub.trans ⟨rfl, rfl, rfl, fun h => ⟨rfl, h⟩⟩
  · exact hscrub

/-- The walks for the extents of a task (R314). -/
def State.walked (s : State) (t : Task) : State :=
  s.touchWalks t.tenant.toNat (t.info.ext.flatMap fun d => (List.range ((d.stop - d.base) / 65536)).map fun k => d.base + k * 65536)

theorem State.walked_core (s : State) (t : Task) : (s.walked t).core = s.core := s.touchWalks_core ..

/-- The task has left its launch queue. -/
def State.unqueued (s : State) (r : TaskRef) : State := s.setPart (s.task r).pid ((s.part (s.task r).pid).without r)

/-- What the translator makes of the walks' outcome `x` in the state `s`, for a task that stands as `t` (R282, R316). -/
def State.tableBuilt (s : State) (r : TaskRef) (t : Task) (die extp : Nat) : Except (Nat × Nat) (List Extent) → State
  | .ok es => (s.writeTable extp es).setTask r { t with
      built := (t.built.filter fun b => !(b.1 == die && b.2.1 == extp)) ++ [(die, extp, es)] }
  | .error (slot, va) =>
    let u := s.emit (.translation r slot (BitVec.ofNat 64 va))
    if t.state = .running then u else (u.updateObj t.pid t.cpl fun o => { o.report 0x0103 0 with pend := 0 }).endTask r

theorem State.buildTable_eq (s : State) (r : TaskRef) (die extp : Nat) : (s.buildTable r die extp).1 =
    (s.walked (s.task r)).tableBuilt r (s.task r) die extp
      ((s.walked (s.task r)).buildExtents (s.task r).tenant.toNat die (s.task r).info.ext) := by
  unfold State.buildTable State.walked
  dsimp only
  generalize s.touchWalks _ _ = u
  generalize u.buildExtents _ _ _ = x
  cases x with
  | ok es => rfl
  | error e =>
    dsimp only [State.tableBuilt]
    split <;> rfl

theorem exec_translatorBuild {s : State} {r : TaskRef} (hlive : s.taskLive r = true) (die : BitVec 3) (extp : BitVec 48) :
    exec (.translatorBuild r die extp) s = .next (((s.unqueued r).walked (s.task r)).tableBuilt r (s.task r) die.toNat extp.toNat
      ((s.walked (s.task r)).buildExtents (s.task r).tenant.toNat die.toNat (s.task r).info.ext)) := by
  have hqueue : SameMemory s (s.unqueued r) := ⟨rfl, rfl, rfl, rfl⟩
  have hsame : SameMemory (s.walked (s.task r)) ((s.unqueued r).walked (s.task r)) := hqueue.touchWalks ..
  have hrun : exec (.translatorBuild r die extp) s = .next ((s.unqueued r).buildTable r die.toNat extp.toNat).1 := by
    change execTranslatorBuild r die extp s = _
    unfold execTranslatorBuild
    rw [hlive]
    rfl
  have htask : (s.unqueued r).task r = s.task r := rfl
  rw [hrun, State.buildTable_eq, htask, hsame.buildExtents]

/-- A table that is built is kept with the task. -/
theorem State.tableBuilt_ok (s : State) (r : TaskRef) (t : Task) (die extp : Nat) (es : List Extent) :
    ((die, extp, es) ∈ ((s.tableBuilt r t die extp (.ok es)).task r).built ∧ ((s.tableBuilt r t die extp (.ok es)).task r).state = t.state) ∧
    (s.tableBuilt r t die extp (.ok es)).ctxs = s.ctxs := by
  refine ⟨?_, State.ctxs_of_core (t := s.writeTable extp es) (s.writeTable_core extp es)⟩
  dsimp only [State.tableBuilt]
  generalize hbuilt : _ ++ [(die, extp, es)] = built
  have hmem : (die, extp, es) ∈ built := hbuilt ▸ List.mem_append_right _ List.mem_cons_self
  have htask : ((s.writeTable extp es).setTask r { t with built := built }).task r = { t with built := built } :=
    Kv.get_set_of_ne_default (fun he => List.ne_nil_of_mem hmem (congrArg Task.built he)) _ _
  rw [htask]
  exact ⟨hmem, rfl⟩

/-- A failure tells firmware; the task ends unless it runs. -/
theorem State.tableBuilt_error (s : State) (r : TaskRef) (die extp slot va : Nat) :
    let t := s.tableBuilt r (s.task r) die extp (.error (slot, va))
    FwEvent.translation r slot (BitVec.ofNat 64 va) ∈ t.fw ∧ ((s.task r).state ≠ .running → (t.task r).state = .exited) ∧
    ((s.task r).state = .running → (t.task r).state = .running) ∧ (quiet s → t.ctxs = s.ctxs) := by
  dsimp only [State.tableBuilt]
  generalize hu : s.emit (.translation r slot (BitVec.ofNat 64 va)) = u
  have htold : FwEvent.translation r slot (BitVec.ofNat 64 va) ∈ u.fw := hu ▸ List.mem_append_right _ List.mem_cons_self
  have hctxs : u.ctxs = s.ctxs := hu ▸ rfl
  have haccs : u.accs = s.accs := hu ▸ rfl
  have htask : u.task r = s.task r := hu ▸ rfl
  split
  · next hrunning => exact ⟨htold, fun h => absurd hrunning h, fun h => htask ▸ h, fun _ => hctxs⟩
  · next hrunning =>
    refine ⟨?_, fun _ => ?_, fun h => absurd h hrunning, fun hq => ?_⟩
    · rw [State.endTask_fw, (u.updateObj_runsKept ..).fw]
      exact List.mem_append_left _ htold
    · rw [State.endTask_task]; rfl
    · have hqu : quiet u := by rwa [quiet, haccs]
      rw [State.endTask_ctxs, State.ctxs_of_core (State.updateObj_core hqu ..), hctxs]

/-- Settles O37: INSTANCE_END by the fold over the contexts that it frees, the record by its key, and the translator by the outcome of its
walks. -/
theorem firmwareEndsAndBindsInstances : Obligations.FirmwareEndsAndBindsInstances := by
  unfold Obligations.FirmwareEndsAndBindsInstances
  intro s task inst pan idx r die extp c
  refine ⟨fun hlive hinst hwf => ?_, fun hstop hlive hinst => ?_, fun hv => ?_, fun hlive => ?_⟩
  · obtain ⟨hretired, hgone⟩ := State.endInstance_ends (State.runsTask_of_live hlive hinst) hwf
    exact ⟨_, exec_instanceEnd hlive hinst, hretired, hgone⟩
  · rw [exec_haltResume_of_stop hstop, exec_instanceEnd hlive hinst]; rfl
  · have hrecord := fun bad => State.record_setRecord (e := { r := r, cur := r.ifirst, bad := bad }) hv s pan idx.toNat
    refine ⟨_, exec_bindRecordWrite hv, rfl, ?_⟩
    rw [hrecord]
    refine ⟨rfl, rfl, rfl, ?_, fun hwf p k hk hne => State.record_setRecord_of_ne hwf _ idx.isLt hk hne⟩
    simp [State.badRecord, or_assoc]
  · intro T w
    have hw : w = s.walked T := rfl
    have hcore : ((s.unqueued task).walked T).core = (s.unqueued task).core := State.walked_core ..
    have hctxs : ((s.unqueued task).walked T).ctxs = s.ctxs := State.ctxs_of_core (s := s.unqueued task) hcore
    have htask : ((s.unqueued task).walked T).task task = T := State.task_of_core hcore task
    rw [exec_translatorBuild hlive]
    change _ ∧ _ ∧ (∀ es, (s.walked T).buildExtents _ _ _ = _ → _) ∧ (∀ slot va, (s.walked T).buildExtents _ _ _ = _ → _)
    refine ⟨State.ctxs_of_core (s.walked_core T), fun hs => ((s.touchWalks_readsFrom ..).mem hs).1, fun es hes => ?_, fun slot va hva => ?_⟩
    · rw [hes]
      obtain ⟨hbuilt, hkept⟩ := ((s.unqueued task).walked T).tableBuilt_ok task T die.toNat extp.toNat es
      exact ⟨_, rfl, hbuilt.1, hbuilt.2, hkept.trans hctxs⟩
    · rw [hva]
      have herror := ((s.unqueued task).walked T).tableBuilt_error task die.toNat extp.toNat slot va
      rw [htask] at herror
      obtain ⟨htold, hexited, hrunning, hkept⟩ := herror
      exact ⟨_, rfl, htold, hexited, hrunning, fun hq => (hkept (quiet_of_core hcore hq)).trans hctxs⟩

end Sys2Proof.Machine
end

/-! # Rows at their issue (for O43, O45 and O46)

A row reads its sources and puts at most one result in flight: what the statements call a source is what the model reads, and `enqueues` is
what `State.emitResult` does. -/

section
namespace Sys2Proof.Machine
open Sys2Proof.Claims

/-! ## Entries of a table and of the elements, in whatever form the table stands -/

/-- Listing a value under a key leaves every other key, in any table. -/
theorem Kv.get_insert_other {α : Type} {d : α} {j k : Nat} (h : j ≠ k) (x : α) (m : Kv α) :
    Kv.get d (Kv.insert m k x) j = Kv.get d m j := by
  induction m with
  | nil => simp only [Kv.insert, Kv.get]; grind
  | cons e m ih =>
    obtain ⟨a, v⟩ := e
    unfold Kv.insert
    split
    · subst_vars; simp only [Kv.get, if_neg (Ne.symm h)]
    · split
      · simp only [Kv.get]; grind
      · simp only [Kv.get, ih]

section
variable {α : Type} [DecidableEq α] {d x : α}

theorem Kv.set_of_ne_default (hx : x ≠ d) (m : Kv α) (k : Nat) : Kv.set d m k x = Kv.insert m k x := if_neg hx

theorem Kv.get_set_other_of_ne_default (hx : x ≠ d) (m : Kv α) {j k : Nat} (h : j ≠ k) : Kv.get d (Kv.set d m k x) j = Kv.get d m j := by
  rw [Kv.set_of_ne_default hx, Kv.get_insert_other h]
end

theorem Elem.ne_default_of_flight {x : Elem} (h : x.flight ≠ []) : x ≠ {} := fun he => h (congrArg Elem.flight he)

/-! ## Results -/

theorem State.issuer_setFocus {x : Elem} (hx : x ≠ {}) (s : State) : issuer (s.setFocus x) = x :=
  Kv.get_set_of_ne_default hx _ _

theorem State.emitResult_of_ne {d : Dst} (h : d ≠ .none) (s : State) (v : EVal) (lat : Nat) :
    s.emitResult d v lat = s.setFocus { issuer s with flight := (issuer s).flight ++
      [⟨s.site.mask, s.site.kc + lat, d, v, decide (1 < lat), (s.runOf s.site.pan s.site.mask).start⟩] } := by
  cases d with
  | none => exact absurd rfl h
  | _ => rfl

theorem State.emitResult_enqueues (s : State) (d : Dst) (v : EVal) (lat : Nat) : enqueues s (s.emitResult d v lat) d v lat := by
  refine ⟨fun h => by rw [h]; rfl, fun h => ?_⟩
  have hx : ∀ (x : Elem) f, { x with flight := x.flight ++ [f] } ≠ ({} : Elem) := fun x f => Elem.ne_default_of_flight (by simp)
  rw [State.emitResult_of_ne h]
  exact ⟨rfl, State.issuer_setFocus (hx _ _) s, fun k hk => Kv.get_set_other_of_ne_default (hx _ _) _ hk⟩

theorem bits32_eq_placed (signed : Bool) (d : Dst) (v : BitVec 32) : bits32 signed d v = placed signed d v := by
  cases d <;> simp only [bits32, placed, BitVec.ofNat_toNat]
  cases signed
  · simp
  · rfl

theorem State.row32_enqueues (s : State) (signed : Bool) (d : Dst) (v : BitVec 32) (lat : Nat) :
    ∃ t, s.row32 signed d v lat = .next t ∧ enqueues s t d (placed signed d v) lat :=
  ⟨_, rfl, bits32_eq_placed signed d v ▸ s.emitResult_enqueues ..⟩

/-! ## Sources -/

theorem State.src32_eq (s : State) (a : Src) (i : Imm) : s.src32 a i = source32 s i a := by
  cases a with
  | imm => simp only [State.src32, source32, immVal, BitVec.ofNat_toNat]; rfl
  | lane t => simp only [State.src32, source32, BitVec.ofNat_toNat]; rfl
  | port p => simp only [State.src32, source32, BitVec.ofNat_toNat]
  | _ => rfl

theorem State.src64_eq (s : State) (a : Src) (i : Imm) : s.src64 a i = source64 s i a := by
  cases a <;> simp only [State.src64, source64, BitVec.ofNat_toNat, State.src32_eq]
  rfl

theorem State.src128_eq (s : State) (a : Src) : s.src128 a = source128 s noImm a := by
  cases a <;> simp only [State.src128, source128, BitVec.ofNat_toNat, State.src64_eq]

end Sys2Proof.Machine
end

/-! # MOV, NLD, NST, SEND and RECV (O45)

O45 fails at rows that no word encodes: a MOV of 128 bits reads a port only (R243, `movOk`), and of one that names an immediate the model reads
0 (`State.src128` takes no immediate) where the statement reads the immediate. -/

section
namespace Sys2Proof.Machine
open Sys2Proof.Claims

/-- The MOV of 128 bits that names the immediate 5. -/
def wideMov : Instr := .mov .w128 0 (.e 0) .imm ⟨5, false⟩

/-- It has 0 in flight. -/
theorem exec_wideMov : exec wideMov {} = .next (({} : State).emitResult (.e 0) (.bits 0) 1) := rfl

/-- Refutes O45: a MOV of 128 bits with the immediate 5 as its source moves 0. -/
theorem not_moveBufferAndStreamRows : ¬ Obligations.MoveBufferAndStreamRows := by
  unfold Obligations.MoveBufferAndStreamRows
  intro h
  obtain ⟨hmov, -⟩ := h {} .w128 ⟨5, false⟩
  obtain ⟨t, ht, -, hresult⟩ := hmov 0 (.e 0) .imm
  obtain ⟨-, hissuer, -⟩ := hresult (by decide)
  obtain rfl : ({} : State).emitResult (.e 0) (.bits 0) 1 = t := Host.Outcome.next.inj (exec_wideMov.symm.trans ht)
  exact absurd hissuer (by decide +kernel)

end Sys2Proof.Machine
end

/-! # The arithmetic rows (O43)

`integerRow`, `floatRow` and `codeRow` give for each row its destination, result and latency; the model's row puts the same word in flight. -/

section
namespace Sys2Proof.Machine
open Sys2Proof.Claims

/-! ## Words and the numbers that they stand for -/

section
variable (x y z : BitVec 32)

theorem ofInt_toInt_add : BitVec.ofInt 32 (x.toInt + y.toInt) = x + y := by rw [BitVec.ofInt_add, BitVec.ofInt_toInt, BitVec.ofInt_toInt]

theorem ofInt_toInt_mul : BitVec.ofInt 32 (x.toInt * y.toInt) = x * y := by rw [BitVec.ofInt_mul, BitVec.ofInt_toInt, BitVec.ofInt_toInt]

theorem ofInt_toInt_sub : BitVec.ofInt 32 (x.toInt - y.toInt) = x - y := by
  rw [Int.sub_eq_add_neg, BitVec.ofInt_add, BitVec.ofInt_neg, BitVec.ofInt_toInt, BitVec.ofInt_toInt, BitVec.sub_eq_add_neg]

theorem ofNat_land : BitVec.ofNat 32 (Nat.land x.toNat y.toNat) = x &&& y := BitVec.eq_of_toNat_eq (by simp)
theorem ofNat_lor : BitVec.ofNat 32 (Nat.lor x.toNat y.toNat) = x ||| y := BitVec.eq_of_toNat_eq (by simp)
theorem ofNat_xor : BitVec.ofNat 32 (Nat.xor x.toNat y.toNat) = x ^^^ y := BitVec.eq_of_toNat_eq (by simp)

theorem ofInt_mul_pow (n : Nat) : BitVec.ofInt 32 (x.toNat * 2 ^ n) = x <<< n := by
  rw [show (x.toNat : Int) * 2 ^ n = (x.toNat * 2 ^ n : Nat) by push_cast; rfl, BitVec.ofInt_natCast]
  exact BitVec.eq_of_toNat_eq (by simp [Nat.shiftLeft_eq])

theorem ofNat_div_pow (n : Nat) : BitVec.ofNat 32 (x.toNat / 2 ^ n) = x >>> n :=
  BitVec.eq_of_toNat_eq (by simp [Nat.shiftRight_eq_div_pow, Nat.mod_eq_of_lt (Nat.lt_of_le_of_lt (Nat.div_le_self _ _) x.isLt)])

theorem ofInt_toInt_div_pow (n : Nat) : BitVec.ofInt 32 (x.toInt / 2 ^ n) = x.sshiftRight n := by
  rw [BitVec.sshiftRight, Int.shiftRight_eq_div_pow]; norm_cast

theorem toInt_ne_zero : x.toInt ≠ 0 ↔ (x != 0) = true := by
  rw [bne_iff_ne, ne_eq, ne_eq, ← BitVec.toInt_inj]; rfl

theorem ofInt_min (u : Bool) :
    BitVec.ofInt 32 (if u then (min x.toNat y.toNat : Nat) else min x.toInt y.toInt) = if below u x y then x else y := by
  cases u
  · simp only [below, BitVec.slt_iff_toInt_lt, Bool.false_eq_true, if_false, min_def_lt]
    split <;> exact BitVec.ofInt_toInt
  · simp only [below, BitVec.ult_iff_toNat_lt, if_true, min_def_lt]
    split <;> simp

theorem ofInt_max (u : Bool) :
    BitVec.ofInt 32 (if u then (max x.toNat y.toNat : Nat) else max x.toInt y.toInt) = if below u x y then y else x := by
  cases u
  · simp only [below, BitVec.slt_iff_toInt_lt, Bool.false_eq_true, if_false, max_def_lt]
    split <;> exact BitVec.ofInt_toInt
  · simp only [below, BitVec.ult_iff_toNat_lt, if_true, max_def_lt]
    split <;> simp

theorem ofInt_natAbs : BitVec.ofInt 32 x.toInt.natAbs = if x.slt 0 then -x else x := by
  simp only [BitVec.slt_iff_toInt_lt]
  split
  · next h => rw [Int.ofNat_natAbs_of_nonpos h.le, BitVec.ofInt_neg, BitVec.ofInt_toInt]
  · next h => rw [Int.natAbs_of_nonneg (not_lt.mp h), BitVec.ofInt_toInt]

theorem ofNat_halves : BitVec.ofNat 32 (x.toNat % 65536 + y.toNat % 65536 * 65536) = y.setWidth 16 ++ x.setWidth 16 := by
  refine BitVec.eq_of_toNat_eq ?_
  have hx : x.toNat % 65536 < 2 ^ 16 := Nat.mod_lt _ (by decide)
  have hy : y.toNat % 65536 < 2 ^ 16 := Nat.mod_lt _ (by decide)
  rw [BitVec.toNat_append, BitVec.toNat_setWidth, BitVec.toNat_setWidth, ← Nat.shiftLeft_add_eq_or_of_lt hx, Nat.shiftLeft_eq,
    BitVec.toNat_ofNat]
  omega
end

/-! ## Answers of comparisons -/

theorem ofInt_bit (p : Prop) [Decidable p] : BitVec.ofInt 32 (if p then 1 else 0) = if p then 1 else 0 := by
  split <;> rfl

theorem ofNat_bit (c : Bool) : BitVec.ofNat 32 (if c then 1 else 0) = if c then 1 else 0 := by
  cases c <;> rfl

/-- The condition of an ICMP, on the numbers that the words stand for. -/
theorem icompare_eq (c : ICond) (x y : BitVec 32) : icompare c x y = match c with
    | .eq => decide (x.toInt = y.toInt) | .ne => decide (x.toInt ≠ y.toInt) | .lt => decide (x.toInt < y.toInt)
    | .ge => decide (y.toInt ≤ x.toInt) | .ltu => decide (x.toNat < y.toNat) | .geu => decide (y.toNat ≤ x.toNat) := by
  cases c with
  | eq => simp [icompare, BitVec.toInt_inj]; rfl
  | ne => simp [icompare, BitVec.toInt_inj]; rfl
  | lt => rfl
  | ge => simp only [icompare, BitVec.slt, ← decide_not, not_lt]
  | ltu => rfl
  | geu => simp only [icompare, BitVec.ult, ← decide_not, not_lt]

theorem Val.not_lt_of_lt {a b : Val} (h : a.lt b = true) : b.lt a = false := by
  cases a with
  | nan => exact absurd h Bool.false_ne_true
  | inf x => cases b <;> simp_all [Val.lt]
  | fin x m e =>
    cases b with
    | fin y n f => simp only [Val.lt, decide_eq_true_eq] at h; simp only [Val.lt, min_comm f e, decide_eq_false_iff_not]; omega
    | _ => simp_all [Val.lt]

theorem Val.not_isNan_of_lt {a b : Val} (h : a.lt b = true) : a.isNan = false ∧ b.isNan = false := by
  cases a with
  | nan => exact absurd h Bool.false_ne_true
  | _ =>
    cases b with
    | nan => exact absurd h Bool.false_ne_true
    | _ => exact ⟨rfl, rfl⟩

/-- The condition of an FCMP: no order holds of a NaN. -/
theorem fcompare_eq (c : FCond) (a b : Val) : fcompare c a b = match c with
    | .eq => !(a.isNan || b.isNan) && !a.lt b && !b.lt a
    | .lt => !(a.isNan || b.isNan) && a.lt b
    | .le => !(a.isNan || b.isNan) && !b.lt a
    | .un => !!(a.isNan || b.isNan) := by
  cases c with
  | eq => simp [fcompare, Val.eqv]
  | un => simp [fcompare]
  | lt =>
    cases hlt : a.lt b with
    | false => simp [fcompare, hlt]
    | true => obtain ⟨ha, hb⟩ := Val.not_isNan_of_lt hlt; simp [fcompare, hlt, ha, hb]
  | le =>
    cases hlt : a.lt b with
    | false => simp [fcompare, Val.eqv, hlt]
    | true => obtain ⟨ha, hb⟩ := Val.not_isNan_of_lt hlt; simp [fcompare, hlt, ha, hb, Val.not_lt_of_lt hlt]

/-! ## Integer rows -/

theorem Block.count_eq (b : Block) (j : Nat) : b.nest.toNat / 65536 ^ j % 65536 + 1 = b.count j := by
  rw [Block.count, bitsN, Nat.pow_mul]; rfl

theorem exec_iter (s : State) (d : Dst) (sel : BitVec 3) : exec (.iter d sel) s = execIter d sel s := rfl

/-- What ITER selects: the offset, the copy, the window, or the index of a loop level (R222, R247). -/
theorem exec_iterRow {s : State} {d d' : Dst} {sel : BitVec 3} {v : BitVec 32} {lat : Nat} {signed : Bool}
    (h : integerRow s (.iter d' sel) = some (d, v, lat, signed)) : exec (.iter d' sel) s = s.row32 signed d v lat := by
  rw [exec_iter]
  simp only [integerRow, Block.count_eq] at h
  unfold execIter
  split at h <;> cases h <;> next hsel =>
    simp only [hsel, BitVec.ofInt_natCast, Block.index, Block.stride, Nat.reduceSub, Nat.div_one, Nat.one_mul]

/-- One case for each row but ITER, in the order of `integerRow`. -/
theorem exec_integerRow {s : State} {i : Instr} {d : Dst} {v : BitVec 32} {lat : Nat} {signed : Bool}
    (h : integerRow s i = some (d, v, lat, signed)) : exec i s = s.row32 signed d v lat := by
  unfold integerRow at h
  split at h
  case h_18 => exact exec_iterRow h
  case h_19 => cases h
  all_goals cases h; dsimp only; simp only [← State.src32_eq]
  · rw [ofInt_toInt_add]; rfl
  · rw [ofInt_toInt_sub]; rfl
  · rw [ofInt_toInt_mul]; rfl
  · rw [BitVec.ofInt_add, ofInt_toInt_mul, BitVec.ofInt_toInt]; rfl
  · rw [BitVec.ofInt_natCast, ofNat_land]; rfl
  · rw [BitVec.ofInt_natCast, ofNat_lor]; rfl
  · rw [BitVec.ofInt_natCast, ofNat_xor]; rfl
  · rw [ofInt_mul_pow]; rfl
  · rw [BitVec.ofInt_natCast, ofNat_div_pow]; rfl
  · rw [ofInt_toInt_div_pow]; rfl
  · rw [ofInt_min]; rfl
  · rw [ofInt_max]; rfl
  · rw [ofInt_bit]; exact congrArg (fun c : Bool => s.row32 true d (if c then 1 else 0) 1) (icompare_eq ..)
  · simp only [apply_ite (BitVec.ofInt 32), BitVec.ofInt_toInt, toInt_ne_zero]; rfl
  · rw [ofInt_natAbs]; rfl
  · rw [BitVec.ofInt_natCast]; rfl
  · rw [ofNat_halves]; rfl

/-! ## Floating-point rows, and the rows on codes -/

theorem State.fcode_eq (s : State) (f : FloatFmt) (a : Src) : s.fcode f a = (source32 s noImm a).toNat % 2 ^ f.width := by
  rw [State.fcode, State.src32_eq]

theorem State.fval_eq (s : State) (f : FloatFmt) (a : Src) : s.fval f a = Claims.operandOf s f a := by
  rw [State.fval, State.fcode_eq]; rfl

theorem State.fhalf_eq (s : State) (f : FloatFmt) (a : Src) (k : Nat) :
    s.fhalf f a k = f.decode s.site.modefp ((source32 s noImm a).toNat / 65536 ^ k % 65536) := by
  rw [State.fhalf, bitsN, Nat.pow_mul, State.src32_eq]; rfl

theorem exec_floatRow {s : State} {i : Instr} {d : Dst} {f : FloatFmt} {rm : RM} {v : Val} {lat : Nat}
    (h : floatRow s i = some (d, f, rm, v, lat)) : exec i s = s.row32 false d (BitVec.ofNat 32 (f.encode s.site.modefp rm v)) lat := by
  unfold floatRow at h
  split at h <;> cases h <;> simp only [← State.fval_eq, ← State.fhalf_eq] <;> rfl

theorem exec_codeRow {s : State} {i : Instr} {d : Dst} {c lat : Nat} (h : codeRow s i = some (d, c, lat)) :
    exec i s = s.row32 false d (BitVec.ofNat 32 c) lat := by
  unfold codeRow at h
  split at h <;> cases h
  · rw [ofNat_bit, ← State.fval_eq, ← State.fval_eq]
    exact congrArg (fun c : Bool => s.row32 false d (if c then 1 else 0) 1) (fcompare_eq ..)
  · rw [← State.fcode_eq]; rfl
  · rw [← State.fval_eq, ← State.fval_eq]; rfl
  · rw [← State.src32_eq]; rfl

/-- Settles O43: each row is a `State.row32` of the word that the statement gives. -/
theorem arithmeticRowsEmitTheirResults : Obligations.ArithmeticRowsEmitTheirResults := by
  unfold Obligations.ArithmeticRowsEmitTheirResults
  refine fun s i => ⟨fun d v lat signed h => ?_, fun d f rm v lat h => ?_, fun d c lat h => ?_⟩
  · rw [exec_integerRow h]; exact s.row32_enqueues ..
  · rw [exec_floatRow h]; exact s.row32_enqueues ..
  · rw [exec_codeRow h]; exact s.row32_enqueues ..

end Sys2Proof.Machine
end

/-! # Fused rows and lane rows (O46)

An operand is a packed array of groups (R149): the statement's `groupOf` is the model's `fuseGroup`, and the fields of the FCW are those of
R147. -/

section
namespace Sys2Proof.Machine
open Sys2Proof.Claims

/-! ## The fields of an FCW, and the groups of an operand -/

theorem fcwW_eq (f : BitVec 32) : fcwW f = 2 * (f.toNat % 8 + 1) := by simp [fcwW]
theorem fcwV_eq (f : BitVec 32) : fcwV f = 2 * (f.toNat / 8 % 8 + 1) := by simp [fcwV, Nat.shiftRight_eq_div_pow]
theorem fcwNG_eq (f : BitVec 32) : fcwNG f = f.toNat / 2 ^ 8 % 2 ^ 7 := by simp [fcwNG, Nat.shiftRight_eq_div_pow]
theorem fcwRED_eq (f : BitVec 32) : fcwRED f = f.toNat / 2 ^ 16 % 4 := by simp [fcwRED, Nat.shiftRight_eq_div_pow]

theorem fuseGroup_eq (v : BitVec 128) (w : Nat) (sgn : Bool) (g : Nat) : fuseGroup v.toNat w sgn g = Claims.groupOf v w sgn g := by
  rw [fuseGroup, intValue, packedAt, Claims.groupOf, Nat.mul_comm g w, sextN]
  cases sgn
  · simp
  · simp only [if_true, true_and]
    grind

theorem packList_map_range {w : Nat} {f : Nat → Nat} (hf : ∀ g, f g < 2 ^ w) (n : Nat) :
    packList w ((List.range n).map f) = ((List.range n).map fun g => f g * 2 ^ (g * w)).sum := by
  induction n generalizing f with
  | zero => rfl
  | succ n ih =>
    rw [List.range_succ_eq_map, List.map_cons, List.map_cons, List.map_map, List.map_map, packList, List.sum_cons, Nat.mod_eq_of_lt (hf 0),
      Nat.zero_mul, Nat.pow_zero, Nat.mul_one]
    have hrest := ih (f := fun g => f (g + 1)) fun g => hf (g + 1)
    have hparts : ∀ g, f (g + 1) * 2 ^ ((g + 1) * w) = 2 ^ w * (f (g + 1) * 2 ^ (g * w)) := fun g => by
      rw [Nat.add_mul, Nat.pow_add, Nat.one_mul]; ring
    change f 0 + 2 ^ w * packList w ((List.range n).map fun g => f (g + 1)) = _
    rw [hrest, ← List.sum_map_mul_left]
    exact congrArg (fun l => f 0 + List.sum l) (List.map_congr_left fun g _ => (hparts g).symm)

theorem wrapN_lt (x : Int) (w : Nat) : wrapN x w < 2 ^ w := by
  rw [wrapN, Int.toNat_lt_of_ne_zero (by positivity)]
  exact Int.emod_lt_of_pos x (by positivity)

theorem wrapN_eq (x : Int) (w : Nat) : wrapN x w = (x % 2 ^ w).toNat := by rw [wrapN]; norm_cast

theorem foldl_add_eq_sum (p : Nat → Int) (n : Nat) : (List.range n).foldl (fun acc g => acc + p g) 0 = ((List.range n).map p).sum := by
  rw [List.sum_eq_foldl, List.foldl_map]

/-! ## The B operand -/

/-- The free values that a row draws for its B operand: one where FCW asks for the row's own and it names none (log 22). -/
def drawnB (f : BitVec 32) (b : Option Src) : Nat := if fcwBSEL f && b.isNone then 1 else 0

theorem drawnB_of_latch {f : BitVec 32} (h : f.getLsbD 19 = false) (b : Option Src) : drawnB f b = 0 := by
  rw [drawnB, fcwBSEL, h]; rfl
theorem drawnB_some (f : BitVec 32) (c : Src) : drawnB f (some c) = 0 := by simp [drawnB]

section
variable {s : State} {f : BitVec 32}

theorem State.operandB_of_latch (h : f.getLsbD 19 = false) (b : Option Src) : s.operandB f b = (issuer s).latchActive := by
  unfold State.operandB; rw [fcwBSEL, h]; rfl

theorem State.operandB_of_named (h : f.getLsbD 19 = true) (c : Src) : s.operandB f (some c) = source128 s noImm c := by
  unfold State.operandB; rw [fcwBSEL, h, ← State.src128_eq]; rfl

theorem State.emitResult_freeCtr (s : State) (d : Dst) (v : EVal) (lat : Nat) : (s.emitResult d v lat).freeCtr = s.freeCtr := by
  cases d <;> rfl

theorem State.drewB_emitResult (s : State) (d : Dst) (v : EVal) (lat : Nat) (b : Option Src) :
    (s.emitResult d v lat).drewB f b = { s.emitResult d v lat with freeCtr := s.freeCtr + drawnB f b } := by
  rw [← s.emitResult_freeCtr d v lat, State.drewB, drawnB]
  split <;> rfl
end

/-! ## The rows -/

/-- The product of one group of the operands of a MACF. -/
def groupProduct (f : BitVec 32) (A B : BitVec 128) (g : Nat) : Int :=
  Claims.groupOf A (2 * (f.toNat % 8 + 1)) (f.getLsbD 6) g * Claims.groupOf B (2 * (f.toNat / 8 % 8 + 1)) (f.getLsbD 7) g

/-- What a MACF has in flight: the packed products, or their sum for a lane. -/
def macfResult (f : BitVec 32) (wr : Bool) (A B : BitVec 128) : EVal :=
  let w := 2 * (f.toNat % 8 + 1) + 2 * (f.toNat / 8 % 8 + 1)
  let n := f.toNat / 2 ^ 8 % 2 ^ 7
  if f.toNat / 2 ^ 16 % 4 = 1 then
    .bits (BitVec.ofNat 128 ((List.range n).map fun g => (groupProduct f A B g % 2 ^ w).toNat * 2 ^ (g * w)).sum)
  else laneVal wr ((List.range n).map (groupProduct f A B)).sum

/-- What a DMAC has in flight. -/
def dmacResult (f : BitVec 32) (wr : Bool) (A B : BitVec 128) : EVal :=
  laneVal wr ((List.range (f.toNat / 2 ^ 8 % 2 ^ 7)).map fun g =>
    Claims.groupOf A (2 * (f.toNat % 8 + 1)) (f.getLsbD 6) g * d8Value (B.toNat / 2 ^ (8 * g) % 256)).sum

section
variable (s : State) (wr : Bool) (d : Dst) (a : Src) (b : Option Src)

theorem exec_macf : exec (.macf wr d a b) s = .next { s.emitResult d
      (macfResult s.fcw wr (source128 s noImm a) (s.operandB s.fcw b)) 3 with freeCtr := s.freeCtr + drawnB s.fcw b } := by
  rw [← State.drewB_emitResult, macfResult]
  simp only [groupProduct, ← wrapN_eq, ← packList_map_range (fun g => wrapN_lt _ _), ← fuseGroup_eq, ← State.src128_eq,
    ← foldl_add_eq_sum, ← fcwW_eq, ← fcwV_eq, ← fcwNG_eq, ← fcwRED_eq]
  rfl

theorem exec_dmac : exec (.dmac wr d a b) s = .next { s.emitResult d
      (dmacResult s.fcw wr (source128 s noImm a) (s.operandB s.fcw b)) 3 with freeCtr := s.freeCtr + drawnB s.fcw b } := by
  rw [← State.drewB_emitResult, dmacResult]
  simp only [← fuseGroup_eq, ← State.src128_eq, ← foldl_add_eq_sum, ← fcwW_eq, ← fcwNG_eq, Nat.mul_comm 8]
  rfl
end

/-- The number that RQ and TACC take from a source, with the NAN of a lane (R262, R263). -/
theorem State.wide_eq (s : State) (x : Src) : s.wide x = match x with
    | .lane k => ((Kv.get {} (issuer s).t k.toNat).l.toInt, (Kv.get {} (issuer s).t k.toNat).nan)
    | .port p => ((source64 s noImm (.port p)).toInt, false)
    | x => ((source32 s noImm x).toInt, false) := by
  cases x <;> simp only [State.wide, State.src32_eq, ← State.src64_eq] <;> rfl

theorem rqWidth_eq (wd : BitVec 3) : rqWidth wd =
    if wd.toNat = 0 then 2 else if wd.toNat = 1 then 4 else if wd.toNat = 2 then 6 else if wd.toNat = 3 then 8
    else if wd.toNat = 4 then 16 else 32 := by
  unfold rqWidth; (repeat' split) <;> simp_all

theorem exec_rq (s : State) (uns rna : Bool) (sh : BitVec 6) (wd : BitVec 3) (d : Dst) (x m bias : Src) :
    exec (.rq uns rna sh wd d x m bias) s = .next (s.emitResult d (placed true d (BitVec.ofInt 32 (requantInt rna (s.wide x).1
      (source32 s noImm m).toInt (source32 s noImm bias).toInt sh.toNat (rqWidth wd) (!uns) (s.wide x).2))) 2) := by
  rw [← bits32_eq_placed, ← State.src32_eq, ← State.src32_eq]; rfl

theorem ofNat_high (l : BitVec 64) : BitVec.ofNat 32 (l.toNat / 2 ^ 32) = l.extractLsb' 32 32 :=
  BitVec.eq_of_toNat_eq (by simp [Nat.shiftRight_eq_div_pow])

/-! ## The latches -/

/-- The latches of an element may become the default ones, so that its entry goes: this is what the canonical form is for. -/
theorem State.latchesAre_setFocus {s : State} (h : Kv.wf ({} : Elem) s.elems = true) (active loading : BitVec 128) :
    latchesAre s (s.setFocus { issuer s with latchActive := active, latchLoad := loading }) active loading :=
  ⟨rfl, Kv.get_set_self _ _ _ h, fun _ hk => Kv.get_set_of_ne _ hk _ h⟩

theorem exec_setq_load (s : State) (c : Src) : exec (.setq .load (some c)) s =
    .next (s.setFocus { issuer s with latchActive := (issuer s).latchActive, latchLoad := source128 s noImm c }) := by
  rw [← State.src128_eq]; rfl

theorem exec_setq_loadSwap (s : State) (c : Src) : exec (.setq .loadSwap (some c)) s =
    .next (s.setFocus { issuer s with latchActive := source128 s noImm c, latchLoad := (issuer s).latchActive }) := by
  rw [← State.src128_eq]; rfl

/-- Settles O46: each row is one result of the issuing element, SETQ a write of its latches. -/
theorem fusedAndLaneRows : Obligations.FusedAndLaneRows := by
  unfold Obligations.FusedAndLaneRows
  intro s wr d a b f W V NG A
  refine ⟨⟨s.operandB f b, drawnB f b, fun h => ⟨s.operandB_of_latch h b, drawnB_of_latch h b⟩, ?_,
    ⟨_, exec_macf s wr d a b, s.emitResult_enqueues ..⟩, ⟨_, exec_dmac s wr d a b, s.emitResult_enqueues ..⟩⟩, ?_, ?_, fun h c => ?_, rfl⟩
  · rintro h c rfl
    exact ⟨s.operandB_of_named h c, drawnB_some f c⟩
  · intro uns rna sh wd x m bias
    refine ⟨_, _, exec_rq .., s.emitResult_enqueues .., ?_⟩
    rw [State.wide_eq, rqWidth_eq]
    exact ⟨rfl, fun n k => ⟨_, rfl, s.emitResult_enqueues ..⟩⟩
  · intro form n L
    cases form with
    | lo => rw [BitVec.ofNat_toNat]; exact s.row32_enqueues ..
    | hi => rw [ofNat_high]; exact s.row32_enqueues ..
    | st => exact s.row32_enqueues ..
    | l64 => dsimp only; rw [BitVec.ofNat_toNat]; exact ⟨_, rfl, s.emitResult_enqueues ..⟩
  · exact ⟨⟨_, exec_setq_load s c, State.latchesAre_setFocus h ..⟩, ⟨_, exec_setq_loadSwap s c, State.latchesAre_setFocus h ..⟩,
      ⟨_, rfl, State.latchesAre_setFocus h ..⟩⟩

end Sys2Proof.Machine
end

/-! # BSTAMP and BGO (O40) -/

section
namespace Sys2Proof.Machine
open Sys2Proof.Claims

/-! ## What a flip and a release change beside the blocks and their runs -/

/-- The two states differ in control entries, streams, tables and quantise units alone. -/
def BindingsDiffer (s t : State) : Prop := ∃ nodes concs streams sluice nextId tables bq,
  t = { s with nodeCtl := nodes, concCtl := concs, streams := streams, sluice := sluice, nextId := nextId, tables := tables, bq := bq }

theorem BindingsDiffer.refl (s : State) : BindingsDiffer s s := ⟨_, _, _, _, _, _, _, rfl⟩

theorem BindingsDiffer.trans {s t u : State} (h : BindingsDiffer s t) (k : BindingsDiffer t u) : BindingsDiffer s u := by
  obtain ⟨_, _, _, _, _, _, _, rfl⟩ := h
  obtain ⟨_, _, _, _, _, _, _, rfl⟩ := k
  exact ⟨_, _, _, _, _, _, _, rfl⟩

theorem BindingsDiffer.foldl {α : Type} {f : State → α → State} (hf : ∀ s a, BindingsDiffer s (f s a)) (l : List α) (s : State) :
    BindingsDiffer s (l.foldl f s) :=
  List.foldlRecOn (motive := fun t => BindingsDiffer s t) l f (.refl s) fun t ht a _ => ht.trans (hf t a)

theorem State.setNodeEntry_bindings (s : State) (k : Nat) (c : BindCtl) : BindingsDiffer s (s.setNodeEntry k c) :=
  ⟨_, _, _, _, _, _, _, rfl⟩
theorem State.setConcEntry_bindings (s : State) (k : Nat) (c : BindCtl) : BindingsDiffer s (s.setConcEntry k c) :=
  ⟨_, _, _, _, _, _, _, rfl⟩
theorem State.setStream_bindings (s : State) (k : Nat) (x : Stream) : BindingsDiffer s (s.setStream k x) := ⟨_, _, _, _, _, _, _, rfl⟩
theorem State.travel_bindings (s : State) (k : Nat) (t : Transit) : BindingsDiffer s (s.travel k t) := ⟨_, _, _, _, _, _, _, rfl⟩
theorem State.freePositions_bindings (s : State) (k : Nat) (x : Stream) : BindingsDiffer s (s.freePositions k x) :=
  ⟨_, _, _, _, _, _, _, rfl⟩
theorem State.flipTables_bindings (s : State) (pan : Nat) : BindingsDiffer s (s.flipTables pan) := ⟨_, _, _, _, _, _, _, rfl⟩

theorem State.startMove_bindings (s : State) (key : Nat) : BindingsDiffer s (s.startMove key) := by
  unfold State.startMove
  dsimp only
  split
  · exact (s.setStream_bindings ..).trans (State.travel_bindings ..)
  · exact .refl s

theorem State.openEnd_bindings (s : State) (key blk pay : Nat) : BindingsDiffer s (s.openEnd key blk pay) :=
  ((s.setStream_bindings ..).trans (State.startMove_bindings ..)).trans (State.startMove_bindings ..)

theorem State.closeEnd_bindings (s : State) (key : Nat) (recv : Bool) : BindingsDiffer s (s.closeEnd key recv) := by
  unfold State.closeEnd
  extract_lets st st'
  split
  · exact (State.freePositions_bindings ..).trans (State.setStream_bindings ..)
  · exact State.setStream_bindings ..

theorem State.flipNodes_bindings (s : State) (pan : Nat) (old new : Block) : BindingsDiffer s (s.flipNodes pan old new) :=
  BindingsDiffer.foldl (fun t _ => by dsimp only; split; exacts [.refl t, t.setNodeEntry_bindings ..]) _ s

theorem State.flipConcs_bindings (s : State) (key : Nat) (old new : Block) : BindingsDiffer s (s.flipConcs key old new) :=
  BindingsDiffer.foldl (fun t _ => by dsimp only; split; exacts [.refl t, t.setConcEntry_bindings ..]) _ s

theorem State.closeStreams_bindings (s : State) (pan : Nat) (old new : Block) : BindingsDiffer s (s.closeStreams pan old new) :=
  BindingsDiffer.foldl (fun t _ => by split; exacts [.refl t, t.closeEnd_bindings ..]) _ s

theorem State.flipStreams_bindings (s : State) (key : Nat) (old new : Block) : BindingsDiffer s (s.flipStreams key old new) :=
  (s.closeStreams_bindings ..).trans (BindingsDiffer.foldl (fun t _ => by split; exacts [.refl t, t.openEnd_bindings ..]) _ _)

theorem State.resetBq_bindings (s : State) (pan : Nat) (b : Block) : BindingsDiffer s (s.resetBq pan b) :=
  BindingsDiffer.foldl (fun _ _ => ⟨_, _, _, _, _, _, _, rfl⟩) _ s

/-! ## Blocks by pan and mask -/

theorem blkKey_inj {p q : Nat} {m : BitVec 8} : blkKey p m = blkKey q m ↔ p = q := by simp [blkKey]

theorem Block.ne_default_of_live {b : Block} (h : b.live = true) : b ≠ {} := fun he => Bool.false_ne_true ((congrArg Block.live he).symm.trans h)

theorem State.shadowBlk_setShadow_of_live {b : Block} (h : b.live = true) (s : State) (p : Nat) (m : BitVec 8) :
    (s.setShadow p m b).shadowBlk p m = b := Kv.get_set_of_ne_default (Block.ne_default_of_live h) _ _

theorem State.shadowBlk_setShadow_other {b : Block} (h : b.live = true) (s : State) {p q : Nat} (hpq : p ≠ q) (m : BitVec 8) :
    (s.setShadow q m b).shadowBlk p m = s.shadowBlk p m :=
  Kv.get_set_other_of_ne_default (Block.ne_default_of_live h) _ (by rwa [ne_eq, blkKey_inj])

/-! ## The loaded block -/

section
variable {s : State} {m : BitVec 8} {id : BitVec 12}

theorem State.loaded_of_other (h : (s.shadowBlk s.pan m).live = false ∨ (s.shadowBlk s.pan m).id ≠ id) : s.loaded m id = none := by
  rw [State.loaded]
  obtain h | h := h <;> simp [h]

theorem State.loaded_of_live (h : (s.shadowBlk s.pan m).live = true) (hid : (s.shadowBlk s.pan m).id = id) :
    s.loaded m id = some (s.shadowBlk s.pan m) := by simp [State.loaded, h, hid]

end

/-! ## Holds of a number of context cycles -/

theorem State.holding_of_none {s : State} (h : s.self.hold = none) {n : Nat} (hn : 1 < n) : s.holding n = true := by
  rw [State.holding, State.holdNow_since, h, decide_eq_true_eq]; dsimp only; omega

theorem State.holding_of_over {s : State} {h : Hold} (hh : s.self.hold = some h) {n : Nat} (hn : h.since + n ≤ s.self.cyc + 1) :
    s.holding n = false := by
  rw [State.holding, State.holdNow_since, hh, decide_eq_false_iff_not]; dsimp only; omega

theorem State.holdOn_self (s : State) (h : Hold) (k : Spent) :
    ∃ t, s.holdOn s.self h k = .next t ∧ holds s t h ∧ t = { s with ctxs := t.ctxs } :=
  ⟨_, rfl, State.holdOn_holds (h := h) (k := k) rfl⟩

/-! ## BSTAMP -/

/-- The copies of a loaded block on the pans that a stamp names (R173). -/
def State.putCopies (s : State) (m : BitVec 8) (b : Block) (ks : List Nat) (t : State) : State :=
  ks.foldl (fun t k => match s.copyPan s.cur k with
    | some pan => t.setShadow pan m { b with copy := k }
    | none => t) t

section
variable {s : State} {m : BitVec 8} {b : Block}

theorem State.putCopies_cons (k : Nat) (ks : List Nat) (t : State) : s.putCopies m b (k :: ks) t = s.putCopies m b ks
    (match s.copyPan s.cur k with | some pan => t.setShadow pan m { b with copy := k } | none => t) := rfl

theorem State.putCopies_frame (ks : List Nat) (t : State) :
    s.putCopies m b ks t = { t with shadow := (s.putCopies m b ks t).shadow } := by
  refine List.foldlRecOn (motive := fun u : State => u = { t with shadow := u.shadow }) _ _ rfl fun u hu k _ => ?_
  split
  · rw [hu]; rfl
  · exact hu

theorem State.shadowBlk_putCopies_other (hb : b.live = true) {ks : List Nat} {p : Nat} (h : ∀ j ∈ ks, s.copyPan s.cur j ≠ some p) (t : State) :
    (s.putCopies m b ks t).shadowBlk p m = t.shadowBlk p m := by
  refine List.foldlRecOn (motive := fun u : State => u.shadowBlk p m = t.shadowBlk p m) _ _ rfl fun u hu k hk => ?_
  split
  · next pan hpan =>
    have hne : p ≠ pan := fun he => h k hk (he ▸ hpan)
    exact (State.shadowBlk_setShadow_other (b := { b with copy := k }) hb u hne m).trans hu
  · exact hu

/-- The pan of one copy holds it. -/
theorem State.shadowBlk_putCopies (hb : b.live = true) {ks : List Nat} {k p : Nat} (hk : k ∈ ks) (hp : s.copyPan s.cur k = some p)
    (h : ∀ j ∈ ks, j ≠ k → s.copyPan s.cur j ≠ some p) (t : State) :
    (s.putCopies m b ks t).shadowBlk p m = { b with copy := k } := by
  induction ks generalizing t with
  | nil => cases hk
  | cons j ks ih =>
    rw [State.putCopies_cons]
    by_cases hlater : k ∈ ks
    · exact ih hlater (fun i hi => h i (List.mem_cons_of_mem _ hi)) _
    · obtain rfl : k = j := (List.mem_cons.mp hk).resolve_right hlater
      rw [State.shadowBlk_putCopies_other hb (fun i hi => h i (List.mem_cons_of_mem _ hi) (ne_of_mem_of_not_mem hi hlater)), hp]
      exact State.shadowBlk_setShadow_of_live (b := { b with copy := k }) hb _ _ _
end

theorem State.dropCopies_cur (s : State) (c : Nat) (m : BitVec 8) : (s.dropCopies c m).cur = s.cur := by rw [State.dropCopies_eq]
theorem State.dropCopies_ctxs (s : State) (c : Nat) (m : BitVec 8) : (s.dropCopies c m).ctxs = s.ctxs := by rw [State.dropCopies_eq]
theorem State.dropCopies_pan (s : State) (c : Nat) (m : BitVec 8) : (s.dropCopies c m).pan = s.pan := by rw [State.dropCopies_eq]; rfl
theorem State.dropCopies_self (s : State) (c : Nat) (m : BitVec 8) : (s.dropCopies c m).self = s.self := by rw [State.dropCopies_eq]; rfl

theorem State.copyPan_congr {s t : State} (h : t.ctxs = s.ctxs) (c k : Nat) : t.copyPan c k = s.copyPan c k := by
  have hctx : t.ctx c = s.ctx c := by rw [State.ctx, h]; rfl
  rw [State.copyPan, State.copyPan, hctx]

section
variable {s : State} {m : BitVec 8} {id : BitVec 12} {n : BitVec 6} {base step ostep : BitVec 16} {b : Block}

theorem exec_bstamp_unloaded (h : s.loaded m id = none) : exec (.bstamp m id n base step ostep) s = s.trap 0x05 (reasonOnly 0x0B) := by
  change execBstamp m id n base step ostep s = _
  rw [execBstamp, h]; rfl

theorem exec_bstamp_holds (h : s.loaded m id = some b) (hh : s.holding (128 + 2 * (n.toNat - 1)) = true) :
    exec (.bstamp m id n base step ostep) s = s.holdOn s.self s.holdNow .other := by
  change execBstamp m id n base step ostep s = _
  simp only [execBstamp, h, hh, if_true]

/-- The block as a stamp marks it (R225). -/
def Block.stamped (b : Block) (n : BitVec 6) (base step ostep : BitVec 16) : Block :=
  { b with stampN := n.toNat, stampBase := base, stampStep := step, stampOstep := ostep }

theorem exec_bstamp_refused {v : Nat} (h : s.loaded m id = some b) (hh : s.holding (128 + 2 * (n.toNat - 1)) = false)
    (hv : (s.dropCopies s.cur m).stampCheck s.cur m (b.stamped n base step ostep) n.toNat = some v) :
    exec (.bstamp m id n base step ostep) s =
      .next (((s.dropCopies s.cur m).dropShadow s.pan m).enterTrap s.cur 0x05 v b.blkPc.toNat) := by
  have hv : (s.dropCopies s.cur m).stampCheck (s.dropCopies s.cur m).cur m (b.stamped n base step ostep) n.toNat = some v := by
    rwa [State.dropCopies_cur]
  rw [Block.stamped] at hv
  change execBstamp m id n base step ostep s = _
  simp only [execBstamp, h, hh, Bool.false_eq_true, if_false, hv, State.dropCopies_pan]
  change Host.Outcome.next (((s.dropCopies s.cur m).dropShadow s.pan m).enterTrap (s.dropCopies s.cur m).cur _ _ _) = _
  rw [State.dropCopies_cur]

theorem exec_bstamp_stamps (h : s.loaded m id = some b) (hh : s.holding (128 + 2 * (n.toNat - 1)) = false)
    (hv : (s.dropCopies s.cur m).stampCheck s.cur m (b.stamped n base step ostep) n.toNat = none) :
    goesOn (.bstamp m id n base step ostep) s
      ((s.dropCopies s.cur m).putCopies m (b.stamped n base step ostep) (List.range n.toNat) (s.dropCopies s.cur m)) s.self := by
  have hv : (s.dropCopies s.cur m).stampCheck (s.dropCopies s.cur m).cur m (b.stamped n base step ostep) n.toNat = none := by
    rwa [State.dropCopies_cur]
  rw [Block.stamped] at hv
  change execBstamp m id n base step ostep s = _
  simp only [execBstamp, h, hh, Bool.false_eq_true, if_false, hv, State.dropCopies_self]
  rfl
end

/-! ## BGO -/

theorem State.stampPans_own {s : State} {b : Block} (h : b.stampN ≤ 1) : s.stampPans b = [(s.pan, 0)] := by
  rw [State.stampPans, Nat.max_eq_left h]; rfl

/-- The block of a mask that a flip on a pan replaces. -/
def State.replaced (s : State) (p : Nat) (m : BitVec 8) : Block := if (s.activeBlk p m).live then s.activeBlk p m else {}

/-- The state of a flip before the block itself changes (R221, R230, R265, R483). -/
def State.flipBindings (s : State) (p : Nat) (m : BitVec 8) : State :=
  let key := blkKey p m
  let old := s.replaced p m
  let new := s.shadowBlk p m
  (((((s.flipNodes p old new).flipConcs key old new).flipStreams key old new).flipTables p).resetBq p old).resetBq p new

theorem State.flipBindings_bindings (s : State) (p : Nat) (m : BitVec 8) : BindingsDiffer s (s.flipBindings p m) :=
  (((((s.flipNodes_bindings ..).trans (State.flipConcs_bindings ..)).trans (State.flipStreams_bindings ..)).trans
    (State.flipTables_bindings ..)).trans (State.resetBq_bindings ..)).trans (State.resetBq_bindings ..)

/-- The run of a block from its flip on (R171, R226). -/
def State.startOf (s : State) (p : Nat) (m : BitVec 8) (home k off c : Nat) : BlkRun :=
  let b := s.shadowBlk p m
  { live := true, ctx := c, home := home, copy := k, iter := b.stampBase.signExtend 32 + BitVec.ofNat 32 k * b.stampStep.signExtend 32,
    start := s.kc p m + 3 + off + k * b.stampOstep.toNat, stopped := false, flip := s.cycle }

theorem State.flipPan_eq (s : State) (p : Nat) (m : BitVec 8) (home k off c : Nat) : s.flipPan p m home k off c =
    ((((s.flipBindings p m).setActive p m (s.shadowBlk p m)).setShadow p m { s.replaced p m with live := false }).setRun p m
      (s.startOf p m home k off c)) := by
  have hstart : ∀ t, BindingsDiffer s t → t.kc p m = s.kc p m ∧ t.cycle = s.cycle := by
    rintro t ⟨_, _, _, _, _, _, _, rfl⟩; exact ⟨rfl, rfl⟩
  obtain ⟨hkc, hcycle⟩ := hstart _ (s.flipBindings_bindings p m)
  rw [State.startOf, ← hkc, ← hcycle]
  rfl

section
variable {s : State} {m : BitVec 8} {id : BitVec 12} {off : BitVec 24} {b : Block}

theorem exec_bgo_unloaded (h : s.loaded m id = none) : exec (.bgo m id off) s = s.trap 0x05 (reasonOnly 0x0B) := by
  change execBgo m id off s = _
  rw [execBgo, h]; rfl

theorem exec_bgo_holds (h : s.loaded m id = some b) (hn : b.stampN ≤ 1) (hc : s.copies s.pan m = [s.pan]) (hr : s.flipReady m s.pan = false) :
    exec (.bgo m id off) s = s.holdOn s.self s.holdNow .other := by
  change execBgo m id off s = _
  simp [execBgo, h, State.stampPans_own hn, hc, hr]

theorem exec_bgo_flips (h : s.loaded m id = some b) (hn : b.stampN ≤ 1) (hc : s.copies s.pan m = [s.pan]) (hr : s.flipReady m s.pan = true) :
    goesOn (.bgo m id off) s (s.flipPan s.pan m s.pan 0 off.toNat s.cur) s.self := by
  change execBgo m id off s = _
  simp [execBgo, h, State.stampPans_own hn, hc, hr]
  rfl
end

theorem BlkRun.ne_default_of_live {r : BlkRun} (h : r.live = true) : r ≠ {} :=
  fun he => Bool.false_ne_true ((congrArg BlkRun.live he).symm.trans h)

section
variable {s : State} {p : Nat} {m : BitVec 8} {home k off c : Nat}

theorem State.flipPan_activeBlk (h : (s.shadowBlk p m).live = true) : (s.flipPan p m home k off c).activeBlk p m = s.shadowBlk p m := by
  rw [State.flipPan_eq]
  exact Kv.get_set_of_ne_default (Block.ne_default_of_live h) _ _

theorem State.flipPan_runOf : (s.flipPan p m home k off c).runOf p m = s.startOf p m home k off c := by
  rw [State.flipPan_eq]
  exact Kv.get_set_of_ne_default (BlkRun.ne_default_of_live (r := s.startOf p m home k off c) rfl) _ _

/-- The one copy of a block that is stamped to its own pan starts at its stamp's base. -/
theorem State.startOf_own : s.startOf p m home 0 off c =
    { live := true, ctx := c, home := home, copy := 0, iter := (s.shadowBlk p m).stampBase.signExtend 32, start := s.kc p m + 3 + off,
      stopped := false, faulted := false, flip := s.cycle } := by simp [State.startOf]
end

/-- Settles O40: each instruction by what is loaded on the mask and by its hold. -/
theorem blocksStampAndStart : Obligations.BlocksStampAndStart := by
  unfold Obligations.BlocksStampAndStart
  intro s m id n base step ostep off x b stamp go
  refine ⟨fun h => ?_, fun hlive hid => ⟨fun hhold => ?_, fun h hh (hover : _ ≤ s.self.cyc) => ?_,
    fun hn hc => ⟨fun hr => ?_, fun hr => ?_⟩⟩⟩
  · have hloaded := State.loaded_of_other h
    exact ⟨exec_bstamp_unloaded hloaded, exec_bgo_unloaded hloaded⟩
  all_goals have hloaded : s.loaded m id = some b := State.loaded_of_live hlive hid
  · obtain ⟨t, ht, hholds, hframe⟩ := s.holdOn_self s.holdNow .other
    exact ⟨t, _, (exec_bstamp_holds hloaded (State.holding_of_none hhold (by omega))).trans ht, hholds,
      by rw [State.holdNow_since, hhold], hframe⟩
  · intro b' u
    have hdone : s.holding (128 + 2 * (n.toNat - 1)) = false := State.holding_of_over hh (by omega)
    refine ⟨fun v hv => exec_bstamp_refused hloaded hdone hv, fun hv => ?_⟩
    have hcopy : ∀ k, u.copyPan u.cur k = s.copyPan s.cur k := fun k => by
      rw [State.dropCopies_cur]; exact State.copyPan_congr (s.dropCopies_ctxs s.cur m) _ _
    refine ⟨_, exec_bstamp_stamps hloaded hdone hv, ?_, fun k p hk hp hother => ?_⟩
    · rw [State.putCopies_frame, State.dropCopies_eq]
    · exact State.shadowBlk_putCopies (b := b') hlive (List.mem_range.mpr hk) ((hcopy k).trans hp)
        (fun j hj hne => hcopy j ▸ hother j (List.mem_range.mp hj) hne) u
  · obtain ⟨t, ht, hholds, hframe⟩ := s.holdOn_self s.holdNow .other
    exact ⟨t, _, (exec_bgo_holds hloaded hn hc hr).trans ht, hholds, hframe⟩
  · obtain ⟨_, _, _, _, _, _, _, hflip⟩ := s.flipBindings_bindings s.pan m
    refine ⟨_, exec_bgo_flips hloaded hn hc hr, State.flipPan_activeBlk hlive, ?_, ?_, ?_, ?_, ?_, State.flipPan_runOf.trans State.startOf_own⟩
    all_goals rw [State.flipPan_eq, hflip]; rfl

end Sys2Proof.Machine
end

/-! # BDRAIN, BREL and TDISC (O41) -/

section
namespace Sys2Proof.Machine
open Sys2Proof.Claims

/-! ## Tables: the values at some of the keys rewritten -/

theorem Kv.get_mapWhere {α : Type} [DecidableEq α] {d : α} {m : Kv α} {p : Nat → Prop} [DecidablePred p] {f : α → α} (hf : f d = d)
    (h : Kv.wf d m = true) (k : Nat) :
    Kv.get d (m.filterMap fun e => if p e.1 then (if f e.2 = d then none else some (e.1, f e.2)) else some e) k =
      if p k then f (Kv.get d m k) else Kv.get d m k := by
  suffices H : ∀ lo, Kv.wfFrom d lo m = true → _ from H 0 h
  clear h
  induction m with
  | nil => intro _ _; simp [hf]
  | cons e m ih =>
    intro lo h
    obtain ⟨-, -, hm⟩ := (Kv.wfFrom_cons d lo e.1 e.2 m).mp h
    have ih := ih _ hm
    have hbelow : k ≤ e.1 → Kv.get d m k = d := fun hk => Kv.get_below d (by omega) hm
    simp only [List.filterMap_cons, Kv.get]
    by_cases hp : p e.1
    · by_cases hd : f e.2 = d
      · simp only [if_pos hp, if_pos hd, ih]
        grind
      · simp only [if_pos hp, if_neg hd, Kv.get, ih]
        grind
    · simp only [if_neg hp, Kv.get, ih]
      grind

/-! ## The lanes of an element -/

/-- The lanes of an element under some tile registers, cleared (R228, R233). -/
def Elem.discardLanes (t : BitVec 8) (x : Elem) : Elem := (laneList t).foldl (fun x k => x.setLane k (x.lane k).discard) x

theorem laneList_toNat (t : BitVec 8) : (laneList t).map BitVec.toNat = (List.range 8).filter fun k => t.getLsbD k := by
  rw [laneList, List.map_map]
  refine (List.map_congr_left fun k hk => ?_).trans (List.map_id _)
  have hlt : k < 8 := List.mem_range.mp (List.mem_filter.mp hk).1
  simp [Nat.mod_eq_of_lt hlt]

theorem Elem.discardLanes_eq (t : BitVec 8) (x : Elem) : x.discardLanes t =
    { x with t := ((laneList t).map BitVec.toNat).foldl (fun l n => Kv.set {} l n (Kv.get {} l n).discard) x.t } := by
  rw [Elem.discardLanes]
  generalize laneList t = ks
  induction ks generalizing x with
  | nil => rfl
  | cons k ks ih => rw [List.foldl_cons, ih]; rfl

theorem Elem.discardLanes_default (t : BitVec 8) : ({} : Elem).discardLanes t = {} := by
  rw [Elem.discardLanes_eq]
  generalize (laneList t).map BitVec.toNat = ks
  induction ks with
  | nil => rfl
  | cons k ks ih => exact ih

theorem Elem.discardLanes_e (t : BitVec 8) (x : Elem) : (x.discardLanes t).e = x.e := by rw [Elem.discardLanes_eq]

theorem Elem.lane_discardLanes {x : Elem} (h : Kv.wf ({} : Lane) x.t = true) (t : BitVec 8) (k : BitVec 3) :
    (x.discardLanes t).lane k = if t.getLsbD k.toNat then (x.lane k).discard else x.lane k := by
  rw [Elem.discardLanes_eq, laneList_toNat, Elem.lane, Elem.lane]
  have hget := Kv.get_foldl_set (f := Lane.discard) ((List.nodup_range (n := 8)).filter fun n => t.getLsbD n) h k.toNat
  simpa [k.isLt] using hget

/-! ## The elements of a pan -/

theorem State.elem_discardLanes {s : State} (h : Kv.wf ({} : Elem) s.elems = true) (t : BitVec 8) (pan p : Nat) {e : Nat} (he : e < 256) :
    (s.discardLanes t pan).elem p e = if p = pan then (s.elem p e).discardLanes t else s.elem p e := by
  have hget := Kv.get_mapWhere (p := fun k => k / 256 = pan) (Elem.discardLanes_default t) h (elemKey p e)
  have hpan : elemKey p e / 256 = p := by rw [elemKey]; omega
  rw [hpan] at hget
  exact hget

theorem State.discardLanes_own {s : State} (h : tidyElems s) (t : BitVec 8) (p : Nat) {e : Nat} (he : e < 256) (k : BitVec 3) :
    ((s.discardLanes t s.pan).elem p e).e = (s.elem p e).e ∧
    ((s.discardLanes t s.pan).elem p e).lane k =
      if p = s.pan ∧ t.getLsbD k.toNat = true then ((s.elem p e).lane k).discard else (s.elem p e).lane k := by
  obtain ⟨helems, hlanes⟩ := h
  rw [State.elem_discardLanes helems t _ p he]
  by_cases hp : p = s.pan
  · subst hp
    simp [Elem.discardLanes_e, Elem.lane_discardLanes (hlanes e)]
  · simp [hp]

/-! ## BDRAIN -/

/-- Whether the block of a mask on a pan has drained (R170). -/
def State.blockDrained (s : State) (m : BitVec 8) (p : Nat) : Bool :=
  !(s.runOf p m).live
    || ((s.finished (blkKey p m) || s.lastQuiet (blkKey p m)) && !s.pendingResults m p && !s.pendingWrites m p)

theorem State.blockDrained_iff (s : State) (m : BitVec 8) (p : Nat) : s.blockDrained m p = true ↔ (s.runOf p m).live = false ∨
    (s.finished (blkKey p m) = true ∨ s.lastQuiet (blkKey p m) = true) ∧ s.pendingResults m p = false ∧ s.pendingWrites m p = false := by
  simp [State.blockDrained, and_assoc]

theorem exec_bdrain (s : State) (m : BitVec 8) : exec (.bdrain m) s =
    if (s.copies s.pan m).all (s.blockDrained m) then s.done s.self else s.holdOn s.self s.holdNow .other := rfl

/-! ## BREL -/

/-- Whether the block of a mask on a pan can be released (R228). -/
def State.blockReleasable (s : State) (m : BitVec 8) (p : Nat) : Bool :=
  s.finished (blkKey p m) && !s.pendingResults m p && !s.lanesBusy p (s.activeBlk p m).twin

theorem State.blockReleasable_iff (s : State) (m : BitVec 8) (p : Nat) : s.blockReleasable m p = true ↔
    s.finished (blkKey p m) = true ∧ s.pendingResults m p = false ∧ s.lanesBusy p (s.activeBlk p m).twin = false := by
  simp [State.blockReleasable, and_assoc]

/-- The release of the block of a mask on one pan. -/
def State.freeBlock (m : BitVec 8) (t : State) (p : Nat) : State := (t.discardLanes (t.activeBlk p m).twin p).endBlock m p

theorem State.endBlock_frame (m : BitVec 8) (s : State) (p : Nat) : ∃ t active shadow, BindingsDiffer s t ∧
    s.endBlock m p = { t with active := active, shadow := shadow, runs := Kv.set {} s.runs (blkKey p m) {} } := by
  have hbind : BindingsDiffer s ((s.closeStreams p (s.activeBlk p m) {}).resetBq p (s.activeBlk p m)) :=
    (s.closeStreams_bindings ..).trans (State.resetBq_bindings ..)
  have hruns : ((s.closeStreams p (s.activeBlk p m) {}).resetBq p (s.activeBlk p m)).runs = s.runs := by
    obtain ⟨_, _, _, _, _, _, _, h⟩ := hbind; rw [h]
  rw [← hruns, State.endBlock]
  split
  · exact ⟨_, _, _, hbind, rfl⟩
  · exact ⟨_, _, _, hbind, rfl⟩

/-- A release changes neither memory nor contexts; of the elements it clears lanes, and of the runs its own goes. -/
theorem State.freeBlock_frame (m : BitVec 8) (s : State) (p : Nat) :
    (s.freeBlock m p).mem = s.mem ∧ (s.freeBlock m p).ctxs = s.ctxs ∧
    (s.freeBlock m p).elems = (s.discardLanes (s.activeBlk p m).twin p).elems ∧
    (s.freeBlock m p).runs = Kv.set {} s.runs (blkKey p m) {} := by
  obtain ⟨t, _, _, ⟨_, _, _, _, _, _, _, rfl⟩, hend⟩ := State.endBlock_frame m (s.discardLanes (s.activeBlk p m).twin p) p
  rw [State.freeBlock, hend]
  exact ⟨rfl, rfl, rfl, rfl⟩

theorem State.freeBlocks_frame (m : BitVec 8) (ps : List Nat) (s : State) :
    (ps.foldl (State.freeBlock m) s).mem = s.mem ∧ (ps.foldl (State.freeBlock m) s).ctxs = s.ctxs :=
  List.foldlRecOn (motive := fun t : State => t.mem = s.mem ∧ t.ctxs = s.ctxs) ps _ ⟨rfl, rfl⟩ fun t ⟨hmem, hctxs⟩ p _ => by
    obtain ⟨hmem', hctxs', -, -⟩ := State.freeBlock_frame m t p
    exact ⟨hmem'.trans hmem, hctxs'.trans hctxs⟩

/-- A pan whose block is released, or has none, runs none after the releases. -/
theorem State.runOf_freeBlocks {m : BitVec 8} {ps : List Nat} {s : State} (h : Kv.wf ({} : BlkRun) s.runs = true) {p : Nat}
    (hp : p ∈ ps ∨ s.runOf p m = {}) : (ps.foldl (State.freeBlock m) s).runOf p m = {} := by
  induction ps generalizing s with
  | nil => exact hp.resolve_left List.not_mem_nil
  | cons q ps ih =>
    obtain ⟨-, -, -, hruns⟩ := State.freeBlock_frame m s q
    refine ih (hruns ▸ Kv.wf_set _ _ _ h) ?_
    rw [State.runOf, hruns]
    by_cases hq : p = q
    · exact .inr (hq ▸ Kv.get_set_self _ _ _ h)
    · refine hp.imp (fun hp => (List.mem_cons.mp hp).resolve_left hq) fun hnone => ?_
      exact (Kv.get_set_of_ne _ (by rwa [ne_eq, blkKey_inj]) _ h).trans hnone

theorem exec_brel_of_live {s : State} {m : BitVec 8} (h : (s.activeBlk s.pan m).live = true) : exec (.brel m) s =
    if (s.copies s.pan m).all (s.blockReleasable m) then
      match s.dirtyFault m (s.copies s.pan m) with
      | some v => s.trap 0x0C v
      | none => ((s.copies s.pan m).foldl (State.freeBlock m) s).done s.self
    else s.holdOn s.self s.holdNow .other := by
  change execBrel m s = _
  rw [execBrel, if_neg (by simp [h])]; rfl

theorem exec_brel_of_idle {s : State} {m : BitVec 8} (h : (s.activeBlk s.pan m).live = false) : goesOn (.brel m) s s s.self := by
  change execBrel m s = _
  rw [execBrel, if_pos (by simp [h])]; rfl

/-! ## TDISC -/

theorem exec_tdisc_of_live {s : State} {m tm : BitVec 8} (h : (s.activeBlk s.pan m).live = true) : exec (.tdisc m tm) s =
    if (s.copies s.pan m).any (s.lanesBusy · (tm &&& (s.activeBlk s.pan m).twin)) then s.holdOn s.self s.holdNow .other
    else ((s.copies s.pan m).foldl (State.discardLanes · (tm &&& (s.activeBlk s.pan m).twin)) s).done s.self := by
  change execTdisc m tm s = _
  rw [execTdisc, if_neg (by simp [h])]

theorem exec_tdisc_of_idle {s : State} {m tm : BitVec 8} (h : (s.activeBlk s.pan m).live = false) : goesOn (.tdisc m tm) s s s.self := by
  change execTdisc m tm s = _
  rw [execTdisc, if_pos (by simp [h])]; rfl

theorem State.foldl_discardLanes_frame (t : BitVec 8) (ps : List Nat) (s : State) :
    ps.foldl (State.discardLanes · t) s = { s with elems := (ps.foldl (State.discardLanes · t) s).elems } :=
  List.foldlRecOn (motive := fun u : State => u = { s with elems := u.elems }) ps _ rfl fun u hu p _ => by rw [hu]; rfl

/-- Settles O41: each instruction by whether every copy is ready for it. -/
theorem blocksDrainAndAreReleased : Obligations.BlocksDrainAndAreReleased := by
  unfold Obligations.BlocksDrainAndAreReleased
  intro s m tm x b pans drained ready cleared
  have hold : ∃ t h, s.holdOn s.self s.holdNow .other = .next t ∧ holds s t h ∧ t = { s with ctxs := t.ctxs } :=
    let ⟨t, ht⟩ := s.holdOn_self s.holdNow .other
    ⟨t, _, ht⟩
  have hdrained : pans.all (s.blockDrained m) = true ↔ ∀ p ∈ pans, drained p := by
    simp only [List.all_eq_true, State.blockDrained_iff, drained]
  have hready : pans.all (s.blockReleasable m) = true ↔ ∀ p ∈ pans, ready p := by
    simp only [List.all_eq_true, State.blockReleasable_iff, ready]
  refine ⟨fun h => ?_, fun h => ?_, fun h => ⟨exec_brel_of_idle h, exec_tdisc_of_idle h⟩, fun hlive =>
    ⟨fun h => ?_, fun h => ⟨fun v hv => ?_, fun hv hruns htidy => ?_⟩, fun ⟨p, hp, hbusy⟩ => ?_, fun h htidy => ?_⟩⟩
  · exact (exec_bdrain s m).trans (if_pos (hdrained.mpr h))
  · rw [exec_bdrain, if_neg (mt hdrained.mp h)]; exact hold
  · rw [exec_brel_of_live hlive, if_neg (mt hready.mp h)]; exact hold
  · rw [exec_brel_of_live hlive, if_pos (hready.mpr h), hv]
  · obtain ⟨hmem, hctxs⟩ := State.freeBlocks_frame m pans s
    refine ⟨_, ?_, fun p hp => ?_, hmem, hctxs, fun hown e k he => ?_⟩
    · exact (exec_brel_of_live hlive).trans (by rw [if_pos (hready.mpr h), hv]; rfl)
    · rw [State.runOf_freeBlocks hruns (.inl hp)]
    · obtain ⟨-, -, helems, -⟩ := State.freeBlock_frame m s s.pan
      obtain ⟨he', hlane⟩ := State.discardLanes_own htidy b.twin s.pan he k
      have helem : (pans.foldl (State.freeBlock m) s).elem s.pan e = (s.discardLanes b.twin s.pan).elem s.pan e := by
        rw [hown, List.foldl_cons, List.foldl_nil, State.elem, helems]; rfl
      rw [helem]
      exact ⟨hlane.trans (by simp [Lane.discard, cleared]), he'⟩
  · rw [exec_tdisc_of_live hlive, if_pos (List.any_eq_true.mpr ⟨p, hp, hbusy⟩)]; exact hold
  · have hfree : pans.any (s.lanesBusy · (tm &&& b.twin)) = false := by simpa using h
    refine ⟨_, ?_, s.foldl_discardLanes_frame (tm &&& b.twin) pans, fun hown p e k he => ?_⟩
    · exact (exec_tdisc_of_live hlive).trans (by rw [hfree]; rfl)
    · obtain ⟨he', hlane⟩ := State.discardLanes_own htidy (tm &&& b.twin) p he k
      rw [hown]
      exact ⟨he', hlane.trans (by simp [Lane.discard, cleared])⟩

end Sys2Proof.Machine
end

/-! # Results land and leave (O47)

`Landed` says what a landing has made of the state so far: the element's own state, and the values that it has put into the delay lines of
others. -/

section
namespace Sys2Proof.Machine
open Sys2Proof.Claims

/-! ## What a result makes of its element -/

/-- A result in its own element; one for a port leaves the element as it is. -/
def Elem.take (x : Elem) (f : EFlight) : Elem :=
  match f.dst, f.val with
  | .e k, .bits v => { x with e := Kv.set 0 x.e k.toNat (v.setWidth 32) }
  | .lane t, .bits v => x.setLane t ((x.lane t).put (v.setWidth 64))
  | .lane t, .setLane v => x.setLane t ((x.lane t).put (BitVec.ofInt 64 v))
  | .lane t, .addLane v nan => x.setLane t ((x.lane t).plus v nan)
  | _, _ => x

/-- A contribution in its element. -/
def Elem.takeContrib (x : Elem) (c : Contrib) : Elem := x.setLane c.t ((x.lane c.t).contribute c.val c.nan c.re)

theorem Lane.ne_default_of_valid {l : Lane} (h : l.valid = true) : l ≠ {} := fun he => Bool.false_ne_true ((congrArg Lane.valid he).symm.trans h)

theorem Elem.lane_setLane_self {l : Lane} (h : l.valid = true) (x : Elem) (k : BitVec 3) : (x.setLane k l).lane k = l :=
  Kv.get_set_of_ne_default (Lane.ne_default_of_valid h) _ _

theorem Elem.lane_setLane_other {l : Lane} (h : l.valid = true) (x : Elem) {j k : BitVec 3} (hjk : k ≠ j) : (x.setLane j l).lane k = x.lane k :=
  Kv.get_set_other_of_ne_default (Lane.ne_default_of_valid h) _ (mt BitVec.eq_of_toNat_eq hjk)

/-- What neither results nor contributions change. -/
def SameQueues (x y : Elem) : Prop := y.flight = x.flight ∧ y.contrib = x.contrib ∧ y.ports = x.ports ∧ y.delay = x.delay

theorem Elem.take_sameQueues (x : Elem) (f : EFlight) : SameQueues x (x.take f) := by
  unfold Elem.take
  split <;> exact ⟨rfl, rfl, rfl, rfl⟩

theorem SameQueues.trans {x y z : Elem} (h : SameQueues x y) (k : SameQueues y z) : SameQueues x z := by
  obtain ⟨hf, hc, hp, hd⟩ := h
  obtain ⟨kf, kc, kp, kd⟩ := k
  exact ⟨kf.trans hf, kc.trans hc, kp.trans hp, kd.trans hd⟩

theorem Elem.foldl_take_sameQueues (l : List EFlight) (x : Elem) : SameQueues x (l.foldl Elem.take x) :=
  List.foldlRecOn (motive := SameQueues x) l _ ⟨rfl, rfl, rfl, rfl⟩ fun y hy f _ => hy.trans (y.take_sameQueues f)

theorem Elem.foldl_takeContrib_sameQueues (l : List Contrib) (x : Elem) :
    SameQueues x (l.foldl Elem.takeContrib x) ∧ (l.foldl Elem.takeContrib x).e = x.e :=
  List.foldlRecOn (motive := fun y => SameQueues x y ∧ y.e = x.e) l _ ⟨⟨rfl, rfl, rfl, rfl⟩, rfl⟩ fun _ hy _ _ => hy

/-! ### e registers -/

theorem Elem.take_e_wf {x : Elem} (h : Kv.wf (0 : BitVec 32) x.e = true) (f : EFlight) : Kv.wf (0 : BitVec 32) (x.take f).e = true := by
  unfold Elem.take
  split
  · exact Kv.wf_set _ _ _ h
  all_goals exact h

theorem Elem.foldl_take_e_wf {x : Elem} (h : Kv.wf (0 : BitVec 32) x.e = true) (l : List EFlight) :
    Kv.wf (0 : BitVec 32) (l.foldl Elem.take x).e = true :=
  List.foldlRecOn (motive := fun y : Elem => Kv.wf (0 : BitVec 32) y.e = true) l _ h fun _ hy f _ => Elem.take_e_wf hy f

theorem Elem.take_e_other {x : Elem} (h : Kv.wf (0 : BitVec 32) x.e = true) {f : EFlight} {k : BitVec 5} (hf : f.dst ≠ .e k) :
    Kv.get 0 (x.take f).e k.toNat = Kv.get 0 x.e k.toNat := by
  unfold Elem.take
  split
  · next j v hdst _ =>
    have hjk : k.toNat ≠ j.toNat := mt BitVec.eq_of_toNat_eq fun he => hf (he ▸ hdst)
    exact Kv.get_set_of_ne _ hjk _ h
  all_goals rfl

theorem Elem.take_e_self {x : Elem} (h : Kv.wf (0 : BitVec 32) x.e = true) {f : EFlight} {k : BitVec 5} {v : BitVec 128} (hf : f.dst = .e k)
    (hv : f.val = .bits v) : Kv.get 0 (x.take f).e k.toNat = BitVec.ofNat 32 v.toNat := by
  rw [BitVec.ofNat_toNat]
  simp only [Elem.take, hf, hv]
  exact Kv.get_set_self _ _ _ h

theorem Elem.foldl_take_e_other {x : Elem} (h : Kv.wf (0 : BitVec 32) x.e = true) {l : List EFlight} {k : BitVec 5}
    (hl : ∀ f ∈ l, f.dst ≠ .e k) :
    Kv.get 0 (l.foldl Elem.take x).e k.toNat = Kv.get 0 x.e k.toNat := by
  induction l generalizing x with
  | nil => rfl
  | cons f l ih =>
    rw [List.forall_mem_cons] at hl
    exact (ih (Elem.take_e_wf h f) hl.2).trans (Elem.take_e_other h hl.1)

/-! ### Lanes -/

theorem Elem.take_lane_other {x : Elem} {f : EFlight} {k : BitVec 3} (hf : f.dst ≠ .lane k) : (x.take f).lane k = x.lane k := by
  unfold Elem.take
  split
  · rfl
  · next j v hdst _ => exact Elem.lane_setLane_other rfl x fun he => hf (he ▸ hdst)
  · next j v hdst _ => exact Elem.lane_setLane_other rfl x fun he => hf (he ▸ hdst)
  · next j v nan hdst _ => exact Elem.lane_setLane_other rfl x fun he => hf (he ▸ hdst)
  · rfl

theorem Elem.foldl_take_lane_other {x : Elem} {l : List EFlight} {k : BitVec 3} (hl : ∀ f ∈ l, f.dst ≠ .lane k) :
    (l.foldl Elem.take x).lane k = x.lane k :=
  List.foldlRecOn (motive := fun y : Elem => y.lane k = x.lane k) l _ rfl fun _ hy f hf => (Elem.take_lane_other (hl f hf)).trans hy

theorem Elem.take_lane_bits {x : Elem} {f : EFlight} {k : BitVec 3} {v : BitVec 128} (hf : f.dst = .lane k) (hv : f.val = .bits v) :
    (x.take f).lane k = (x.lane k).put (v.setWidth 64) := by
  simp only [Elem.take, hf, hv]
  exact Elem.lane_setLane_self rfl x k

theorem Elem.take_lane_setLane {x : Elem} {f : EFlight} {k : BitVec 3} {z : Int} (hf : f.dst = .lane k) (hv : f.val = .setLane z) :
    (x.take f).lane k = (x.lane k).put (BitVec.ofInt 64 z) := by
  simp only [Elem.take, hf, hv]
  exact Elem.lane_setLane_self rfl x k

/-! ### The last of several results for one place -/

theorem Elem.foldl_take_e_last {x : Elem} (h : Kv.wf (0 : BitVec 32) x.e = true) {l r : List EFlight} {f : EFlight} {k : BitVec 5} {v : BitVec 128}
    (hf : f.dst = .e k) (hv : f.val = .bits v) (hr : ∀ g ∈ r, g.dst ≠ .e k) :
    Kv.get 0 ((l ++ f :: r).foldl Elem.take x).e k.toNat = BitVec.ofNat 32 v.toNat := by
  have hl := Elem.foldl_take_e_wf h l
  rw [List.foldl_append, List.foldl_cons, Elem.foldl_take_e_other (Elem.take_e_wf hl f) hr, Elem.take_e_self hl hf hv]

theorem Elem.foldl_take_lane_last {x : Elem} {l r : List EFlight} {f : EFlight} {k : BitVec 3} (hr : ∀ g ∈ r, g.dst ≠ .lane k) :
    ((l ++ f :: r).foldl Elem.take x).lane k = ((l.foldl Elem.take x).take f).lane k := by
  rw [List.foldl_append, List.foldl_cons, Elem.foldl_take_lane_other hr]

/-! ## What a result sends to other elements -/

/-- A value enters the delay line of an element. -/
def State.putDelay (s : State) (q : Nat × DelayStage) : State :=
  { s with elems := Kv.set {} s.elems q.1 { Kv.get {} s.elems q.1 with delay := (Kv.get {} s.elems q.1).delay ++ [q.2] } }

theorem State.send_eq (s : State) (pan e : Nat) (mask : BitVec 8) (due : Nat) (p : Port) (v : BitVec 128) (long : Bool) (blk : Nat) :
    s.send pan e mask p v = (sentBy s pan e ⟨mask, due, .port p, .bits v, long, blk⟩).foldl State.putDelay s := by
  simp only [State.send, sentBy]
  cases neighbour e p with
  | some e' =>
    cases hlive : (s.activeBlk pan mask).live with
    | false => rfl
    | true => simp only [if_true]; split <;> rfl
  | none =>
    cases adjacentPan pan p with
    | none => rfl
    | some pan' => simp only [Bool.and_eq_true, beq_iff_eq, and_assoc]; split <;> rfl

/-- A result for a port is sent and leaves its element as it is; any other stays in its element. -/
theorem State.landOne_cases (pan e : Nat) (s : State) (f : EFlight) :
    (s.landOne pan e f = s.setElem pan e ((s.elem pan e).take f) ∧ sentBy s pan e f = []) ∨
    ((s.elem pan e).take f = s.elem pan e ∧ s.landOne pan e f = (sentBy s pan e f).foldl State.putDelay s) := by
  obtain ⟨mask, due, dst, val, long, blk⟩ := f
  cases dst with
  | none => exact .inr ⟨rfl, rfl⟩
  | e k => cases val with
    | bits v => exact .inl ⟨rfl, rfl⟩
    | _ => exact .inr ⟨rfl, rfl⟩
  | lane k => cases val <;> exact .inl ⟨rfl, rfl⟩
  | port p => cases val with
    | bits v => exact .inr ⟨rfl, s.send_eq ..⟩
    | _ => exact .inr ⟨rfl, rfl⟩

theorem neighbour_ne {e e' : Nat} {p : Port} (he : e < 256) (h : neighbour e p = some e') : e' < 256 ∧ e' ≠ e := by
  cases p <;> simp only [neighbour, Option.ite_none_left_eq_some, Option.some.injEq] at h <;> simp only [elemX, elemY] at h <;> omega

theorem adjacentPan_ne {pan pan' : Nat} {p : Port} (h : adjacentPan pan p = some pan') : pan' ≠ pan := by
  cases p <;> simp only [adjacentPan, Option.ite_none_left_eq_some, Option.some.injEq] at h <;> omega

theorem facing_lt {e : Nat} (he : e < 256) (p : Port) : facing e p < 256 := by
  cases p <;> simp only [facing, elemX, elemY] <;> omega

/-- What an element sends goes to other elements. -/
theorem sentBy_other {s : State} {pan e : Nat} (he : e < 256) {f : EFlight} {q : Nat × DelayStage} (hq : q ∈ sentBy s pan e f) :
    q.1 ≠ elemKey pan e := by
  unfold sentBy at hq
  split at hq
  · next p v hdst hval =>
    dsimp only at hq
    cases hn : neighbour e p with
    | some e' =>
      obtain ⟨hlt, hne⟩ := neighbour_ne he hn
      have hkey : q.1 = 256 * pan + e' := by simp only [hn] at hq; grind
      rw [hkey, elemKey]; omega
    | none =>
      cases ha : adjacentPan pan p with
      | none => simp [hn, ha] at hq
      | some pan' =>
        have hkey : q.1 = 256 * pan' + facing e p := by simp only [hn, ha] at hq; grind
        have hpan := adjacentPan_ne ha
        have hlt := facing_lt he p
        rw [hkey, elemKey]; omega
  · cases hq

theorem sentBy_congr {s t : State} (h : t = { s with elems := t.elems }) (pan e : Nat) (f : EFlight) : sentBy t pan e f = sentBy s pan e f := by
  rw [h]; rfl

/-! ## A landing under way -/

/-- What a landing in an element has made of a state: the element is `y`, and the values `sent` stand in the delay lines of others. -/
structure Landed (s : State) (pan e : Nat) (y : Elem) (sent : List (Nat × DelayStage)) (t : State) : Prop where
  frame : t = { s with elems := t.elems }
  elemsWf : Kv.wf ({} : Elem) t.elems = true
  own : t.elem pan e = y
  others : ∀ k, k ≠ elemKey pan e → Kv.get {} t.elems k =
    { Kv.get {} s.elems k with delay := (Kv.get {} s.elems k).delay ++ (sent.filter fun q => q.1 == k).map (·.2) }

section
variable {s t : State} {pan e : Nat} {y : Elem} {sent : List (Nat × DelayStage)}

theorem Landed.start (h : Kv.wf ({} : Elem) s.elems = true) : Landed s pan e (s.elem pan e) [] s :=
  ⟨rfl, h, rfl, fun k _ => by simp⟩

theorem Landed.setElem (h : Landed s pan e y sent t) (z : Elem) : Landed s pan e z sent (t.setElem pan e z) where
  frame := by rw [h.frame]; rfl
  elemsWf := Kv.wf_set _ _ _ h.elemsWf
  own := Kv.get_set_self _ _ _ h.elemsWf
  others k hk := (Kv.get_set_of_ne _ hk _ h.elemsWf).trans (h.others k hk)

theorem Landed.putDelay (h : Landed s pan e y sent t) {q : Nat × DelayStage} (hq : q.1 ≠ elemKey pan e) :
    Landed s pan e y (sent ++ [q]) (t.putDelay q) where
  frame := by rw [h.frame]; rfl
  elemsWf := Kv.wf_set _ _ _ h.elemsWf
  own := (Kv.get_set_of_ne _ hq.symm _ h.elemsWf).trans h.own
  others k hk := by
    by_cases hkq : k = q.1
    · subst hkq
      refine (Kv.get_set_self _ _ _ h.elemsWf).trans ?_
      rw [h.others _ hk]
      simp
    · refine (Kv.get_set_of_ne _ hkq _ h.elemsWf).trans ((h.others k hk).trans ?_)
      simp [Ne.symm hkq]

theorem Landed.foldl_putDelay {qs : List (Nat × DelayStage)} (hqs : ∀ q ∈ qs, q.1 ≠ elemKey pan e) (h : Landed s pan e y sent t) :
    Landed s pan e y (sent ++ qs) (qs.foldl State.putDelay t) := by
  induction qs generalizing t sent with
  | nil => simpa using h
  | cons q qs ih =>
    rw [List.forall_mem_cons] at hqs
    simpa using ih hqs.2 (h.putDelay hqs.1)

theorem Landed.landOne (he : e < 256) (h : Landed s pan e y sent t) (f : EFlight) :
    Landed s pan e (y.take f) (sent ++ sentBy s pan e f) (t.landOne pan e f) := by
  rw [← sentBy_congr h.frame, ← h.own]
  obtain ⟨hland, hsent⟩ | ⟨htake, hland⟩ := State.landOne_cases pan e t f
  · rw [hland, hsent, List.append_nil]
    exact h.setElem _
  · rw [hland, htake, h.own]
    exact h.foldl_putDelay fun q hq => sentBy_other he hq

theorem Landed.foldl_landOne (he : e < 256) (l : List EFlight) (h : Landed s pan e y sent t) :
    Landed s pan e (l.foldl Elem.take y) (sent ++ l.flatMap (sentBy s pan e)) (l.foldl (State.landOne pan e) t) := by
  induction l generalizing t y sent with
  | nil => simpa using h
  | cons f l ih => simpa using ih (h.landOne he f)

theorem Landed.foldl_landContrib (l : List Contrib) (h : Landed s pan e y sent t) :
    Landed s pan e (l.foldl Elem.takeContrib y) sent (l.foldl (State.landContrib pan e) t) := by
  induction l generalizing t y with
  | nil => exact h
  | cons c l ih =>
    refine ih ?_
    rw [State.landContrib, h.own]
    exact h.setElem _
end

/-- An entry that is due, after which no due one names its place, is the last of the due ones for it. -/
theorem filter_split {α β : Type} {due : α → Bool} {place : α → β} {xs l r : List α} {f : α} (hx : xs = l ++ f :: r) (hf : due f = true)
    (hr : ∀ g ∈ r, due g = true → place g ≠ place f) : ∃ l' r', xs.filter due = l' ++ f :: r' ∧ ∀ g ∈ r', place g ≠ place f := by
  refine ⟨l.filter due, r.filter due, ?_, fun g hg => ?_⟩
  · rw [hx, List.filter_append, List.filter_cons_of_pos hf]
  · obtain ⟨hmem, hdue⟩ := List.mem_filter.mp hg
    exact hr g hmem hdue

/-- Whether the clock of a mask on a pan has reached a kernel cycle, and its block runs. -/
def State.clockReached (s : State) (pan : Nat) (m : BitVec 8) (d : Nat) : Bool := decide (d ≤ s.kc pan m) && !(s.runOf pan m).stopped

theorem State.clockReached_iff (s : State) (pan : Nat) (m : BitVec 8) (d : Nat) :
    s.clockReached pan m d = true ↔ d ≤ s.kc pan m ∧ (s.runOf pan m).stopped = false := by simp [State.clockReached]

theorem State.not_clockReached_iff (s : State) (pan : Nat) (m : BitVec 8) (d : Nat) :
    (!s.clockReached pan m d) = true ↔ ¬ (d ≤ s.kc pan m ∧ (s.runOf pan m).stopped = false) := by
  rw [← State.clockReached_iff, Bool.not_eq_true', Bool.not_eq_true]

/-- The results of an element that are due. -/
def State.dueResults (s : State) (pan e : Nat) : List EFlight := (s.elem pan e).flight.filter fun f => s.clockReached pan f.mask f.due

/-- An element whose due results and contributions are taken from it. -/
def State.drained (s : State) (pan e : Nat) : Elem :=
  { s.elem pan e with
    flight := (s.elem pan e).flight.filter fun f => !s.clockReached pan f.mask f.due
    contrib := (s.elem pan e).contrib.filter fun c => !s.clockReached pan c.mask c.due }

/-- An element after its due contributions. -/
def State.contributed (s : State) (pan e : Nat) : Elem :=
  ((s.elem pan e).contrib.filter fun c => s.clockReached pan c.mask c.due).foldl Elem.takeContrib (s.drained pan e)

theorem State.contributed_spec (s : State) (pan e : Nat) :
    SameQueues (s.drained pan e) (s.contributed pan e) ∧ (s.contributed pan e).e = (s.elem pan e).e :=
  Elem.foldl_takeContrib_sameQueues _ _

/-- The element after the landing. -/
def State.landed (s : State) (pan e : Nat) : Elem := (s.dueResults pan e).foldl Elem.take (s.contributed pan e)

theorem State.landElem_landed {s : State} {pan e : Nat} (he : e < 256) (h : Kv.wf ({} : Elem) s.elems = true) :
    Landed s pan e (s.landed pan e) ((s.dueResults pan e).flatMap (sentBy s pan e))
      (s.landElem (256 * pan + e)) := by
  have hkey : (256 * pan + e) / 256 = pan ∧ (256 * pan + e) % 256 = e := by omega
  rw [State.landElem, hkey.1, hkey.2]
  exact (((Landed.start h).setElem _).foldl_landContrib _).foldl_landOne he _

theorem State.landed_sameQueues (s : State) (pan e : Nat) : SameQueues (s.drained pan e) (s.landed pan e) :=
  (s.contributed_spec pan e).1.trans (Elem.foldl_take_sameQueues _ _)

theorem State.mem_dueResults {s : State} {pan e : Nat} {f : EFlight} :
    f ∈ s.dueResults pan e ↔ f ∈ (s.elem pan e).flight ∧ f.due ≤ s.kc pan f.mask ∧ (s.runOf pan f.mask).stopped = false := by
  rw [State.dueResults, List.mem_filter, State.clockReached_iff]

theorem State.dueResults_split {s : State} {pan e : Nat} {l r : List EFlight} {f : EFlight} (hx : (s.elem pan e).flight = l ++ f :: r)
    (hf : f.due ≤ s.kc pan f.mask ∧ (s.runOf pan f.mask).stopped = false)
    (hr : ∀ g ∈ r, g.due ≤ s.kc pan g.mask ∧ (s.runOf pan g.mask).stopped = false → g.dst ≠ f.dst) :
    ∃ l' r', s.dueResults pan e = l' ++ f :: r' ∧ ∀ g ∈ r', g.dst ≠ f.dst :=
  filter_split (place := EFlight.dst) hx ((s.clockReached_iff ..).mpr hf) fun g hg hdue => hr g hg ((s.clockReached_iff ..).mp hdue)

theorem State.contributed_e (s : State) (pan e : Nat) : (s.contributed pan e).e = (s.elem pan e).e := (s.contributed_spec pan e).2

theorem State.contributed_e_wf (s : State) {pan e : Nat} (h : Kv.wf (0 : BitVec 32) (s.elem pan e).e = true) :
    Kv.wf (0 : BitVec 32) (s.contributed pan e).e = true := by rwa [s.contributed_e]

theorem State.landed_e_of_last (s : State) {pan e : Nat} (h : Kv.wf (0 : BitVec 32) (s.elem pan e).e = true) {l r : List EFlight} {f : EFlight}
    {k : BitVec 5} {v : BitVec 128} (hx : (s.elem pan e).flight = l ++ f :: r)
    (hf : f.due ≤ s.kc pan f.mask ∧ (s.runOf pan f.mask).stopped = false) (hv : f.val = .bits v)
    (hr : ∀ g ∈ r, g.due ≤ s.kc pan g.mask ∧ (s.runOf pan g.mask).stopped = false → g.dst ≠ f.dst) (hdst : f.dst = .e k) :
    Kv.get 0 (s.landed pan e).e k.toNat = BitVec.ofNat 32 v.toNat := by
  obtain ⟨l', r', hdue, hlast⟩ := State.dueResults_split hx hf hr
  rw [State.landed, hdue]
  exact Elem.foldl_take_e_last (s.contributed_e_wf h) hdst hv (hdst ▸ hlast)

theorem State.landed_lane_of_last (s : State) {pan e : Nat} {l r : List EFlight} {f : EFlight} {k : BitVec 3}
    (hx : (s.elem pan e).flight = l ++ f :: r) (hf : f.due ≤ s.kc pan f.mask ∧ (s.runOf pan f.mask).stopped = false)
    (hr : ∀ g ∈ r, g.due ≤ s.kc pan g.mask ∧ (s.runOf pan g.mask).stopped = false → g.dst ≠ f.dst) (hdst : f.dst = .lane k) :
    ∃ y : Elem, (s.landed pan e).lane k = (y.take f).lane k := by
  obtain ⟨l', r', hdue, hlast⟩ := State.dueResults_split hx hf hr
  rw [State.landed, hdue]
  exact ⟨_, Elem.foldl_take_lane_last (hdst ▸ hlast)⟩

/-! ## The exit of the delay lines -/

/-- Whether a value in a delay line is due (log 35). -/
def State.leaves (s : State) (pan : Nat) (d : DelayStage) : Bool :=
  match d.fab with
  | some c => decide (c ≤ s.cycle)
  | none => s.clockReached pan d.mask d.due

/-- A port takes a value in the cycle at hand. -/
def State.portTakes (s : State) (ps : Kv PortVal) (d : DelayStage) : Kv PortVal := Kv.set {} ps (portIdx d.port) ⟨d.val, s.cycle⟩

/-- An element after the exit of its port delays. -/
def State.exited (s : State) (pan e : Nat) : Elem :=
  { s.elem pan e with
    delay := (s.elem pan e).delay.filter fun d => !s.leaves pan d
    ports := ((s.elem pan e).delay.filter (s.leaves pan)).foldl s.portTakes (s.elem pan e).ports }

theorem State.exited_of_none {s : State} {pan e : Nat} (h : (s.elem pan e).delay.any (s.leaves pan) = false) : s.exited pan e = s.elem pan e := by
  have hnone : ∀ d ∈ (s.elem pan e).delay, s.leaves pan d = false := by simpa using h
  have hstay : ((s.elem pan e).delay.filter fun d => !s.leaves pan d) = (s.elem pan e).delay :=
    List.filter_eq_self.mpr fun d hd => by simp [hnone d hd]
  have hgone : (s.elem pan e).delay.filter (s.leaves pan) = [] := List.filter_eq_nil_iff.mpr fun d hd => by simp [hnone d hd]
  rw [State.exited, hstay, hgone]; rfl

theorem State.exitElem_eq (s : State) (pan : Nat) {e : Nat} (he : e < 256) : s.exitElem (256 * pan + e) =
    if (s.elem pan e).delay.any (s.leaves pan) then s.setElem pan e (s.exited pan e) else s := by
  have hkey : (256 * pan + e) / 256 = pan ∧ (256 * pan + e) % 256 = e := by omega
  rw [State.exitElem, hkey.1, hkey.2]
  rfl

theorem portIdx_inj {p q : Port} : portIdx p = portIdx q ↔ p = q := by cases p <;> cases q <;> decide

theorem State.portTakes_wf (s : State) {ps : Kv PortVal} (h : Kv.wf ({} : PortVal) ps = true) (d : DelayStage) :
    Kv.wf ({} : PortVal) (s.portTakes ps d) = true := Kv.wf_set _ _ _ h

theorem State.foldl_portTakes_wf (s : State) (l : List DelayStage) {ps : Kv PortVal} (h : Kv.wf ({} : PortVal) ps = true) :
    Kv.wf ({} : PortVal) (l.foldl s.portTakes ps) = true :=
  List.foldlRecOn (motive := fun qs : Kv PortVal => Kv.wf ({} : PortVal) qs = true) l _ h fun _ hq d _ => s.portTakes_wf hq d

theorem State.foldl_portTakes_other (s : State) {l : List DelayStage} {ps : Kv PortVal} (h : Kv.wf ({} : PortVal) ps = true) {p : Port}
    (hl : ∀ d ∈ l, d.port ≠ p) : Kv.get {} (l.foldl s.portTakes ps) (portIdx p) = Kv.get {} ps (portIdx p) := by
  induction l generalizing ps with
  | nil => rfl
  | cons d l ih =>
    rw [List.forall_mem_cons] at hl
    refine (ih (s.portTakes_wf h d) hl.2).trans (Kv.get_set_of_ne _ ?_ _ h)
    exact fun heq => hl.1 (portIdx_inj.mp heq).symm

theorem State.foldl_portTakes_last (s : State) {l r : List DelayStage} {d : DelayStage} {ps : Kv PortVal} (h : Kv.wf ({} : PortVal) ps = true)
    (hr : ∀ g ∈ r, g.port ≠ d.port) : Kv.get {} ((l ++ d :: r).foldl s.portTakes ps) (portIdx d.port) = ⟨d.val, s.cycle⟩ := by
  have hl := s.foldl_portTakes_wf l h
  rw [List.foldl_append, List.foldl_cons, s.foldl_portTakes_other (s.portTakes_wf hl d) hr]
  exact Kv.get_set_self _ _ _ hl

/-- The exit makes the element what `State.exited` says, and changes nothing else. -/
theorem State.exitElem_spec {s : State} (pan : Nat) {e : Nat} (he : e < 256) (h : Kv.wf ({} : Elem) s.elems = true) :
    s.exitElem (256 * pan + e) = { s with elems := (s.exitElem (256 * pan + e)).elems } ∧
    (s.exitElem (256 * pan + e)).elem pan e = s.exited pan e ∧
    ∀ k, k ≠ 256 * pan + e → Kv.get {} (s.exitElem (256 * pan + e)).elems k = Kv.get {} s.elems k := by
  rw [State.exitElem_eq s pan he]
  split
  · exact ⟨rfl, Kv.get_set_self _ _ _ h, fun k hk => Kv.get_set_of_ne _ hk _ h⟩
  · next hnone => exact ⟨rfl, (State.exited_of_none (Bool.eq_false_iff.mpr hnone)).symm, fun _ _ => rfl⟩

/-! ## Edge feeds -/

theorem State.readBytes_eq (s : State) (p n : Nat) : s.readBytes p n = bytesAt s p n := by
  induction n generalizing p with
  | zero => rfl
  | succ n ih => rw [State.readBytes, ih, bytesAt_succ]

theorem State.readNat_eq (s : State) (p n : Nat) : s.readNat p n = little (bytesAt s p n) := by
  rw [State.readNat, State.readBytes_eq, leNat_eq_little]

theorem State.slotFault_of_stop {s : State} {c : BindCtl} {p n : Nat} {q : Nat × Nat × Nat × Nat} (h : slotStop s c p n = some q) :
    ∃ r, s.slotFault c p n = some r ∧ r.1 = q.1 := by
  have hread : c.readSlot = readsSlot c := rfl
  simp only [State.slotFault, BindCtl.mismatch, hread]
  unfold slotStop at h
  split at h
  · next hempty => cases h; exact ⟨_, by simp [hempty], rfl⟩
  · next hfull =>
    split at h
    · next htag => cases h; exact ⟨_, by simp [hfull, htag], rfl⟩
    · next htag =>
      split at h
      · next hpoison =>
        cases h
        obtain ⟨a, ha⟩ := Option.ne_none_iff_exists'.mp hpoison
        exact ⟨(0x12, 0, a, 0), by simpa [hfull, ha] using htag, rfl⟩
      · cases h

theorem State.slotFault_of_none {s : State} {c : BindCtl} {p n : Nat} (h : slotStop s c p n = none) : s.slotFault c p n = none := by
  have hread : c.readSlot = readsSlot c := rfl
  unfold slotStop at h
  simp only [State.slotFault, BindCtl.mismatch, hread]
  grind

/-- Whether a block feeds a port of an element in a window (R219). -/
def Block.feeds (b : Block) (e : Nat) (p : Port) (w : Nat) : Prop :=
  (b.elemCfg e).kind p = 1 ∧ b.portStage e p ≤ w ∧ w < b.portStage e p + b.total

/-- The node entry that feeds a port, and where its next 16 bytes stand. -/
def State.feedKey (s : State) (pan e : Nat) (p : Port) (key : Nat) : Nat := nodeKey pan e (((Kv.get {} s.active key).elemCfg e).buf p)
def State.feedAddr (s : State) (k : Nat) : Nat :=
  nodeSlotAddr k (s.nodeEntry k) (s.nodeEntry k).rp (16 * ((s.nodeEntry k).units % max 1 ((s.nodeEntry k).size / 16)))

theorem State.feedPort_of_not_feeds {s : State} {e key : Nat} {p : Port}
    (h : s.windowStart key = none ∨ ∃ w, s.windowStart key = some w ∧ ¬ (Kv.get {} s.active key).feeds e p w) : s.feedPort e p key = s := by
  obtain hnone | ⟨w, hw, hfeeds⟩ := h
  · simp only [State.feedPort, hnone]
  · have hidle : ((Kv.get {} s.active key).elemCfg e).kind p ≠ 1 ∨ w < (Kv.get {} s.active key).portStage e p ∨
        (Kv.get {} s.active key).portStage e p + (Kv.get {} s.active key).total ≤ w := by
      unfold Block.feeds at hfeeds
      omega
    simp only [State.feedPort, hw, if_pos hidle]

theorem State.feedPort_of_feeds {s : State} {e key w : Nat} {p : Port} (hw : s.windowStart key = some w)
    (h : (Kv.get {} s.active key).feeds e p w) :
    (∀ r, s.slotFault (s.nodeEntry (s.feedKey (keyPan key) e p key)) (s.feedAddr (s.feedKey (keyPan key) e p key)) 16 = some r →
      ∃ f, s.feedPort e p key = { s with bfaults := s.bfaults ++ [f] } ∧ f.cause = r.1) ∧
    (s.slotFault (s.nodeEntry (s.feedKey (keyPan key) e p key)) (s.feedAddr (s.feedKey (keyPan key) e p key)) 16 = none →
      ∃ c, s.feedPort e p key = (s.enterDelay (keyPan key) e p (keyMask key)
        (Kv.get 0 s.kcnt key + 1 + ((Kv.get {} s.active key).elemCfg e).delay p) none
        (BitVec.ofNat 128 (s.readNat (s.feedAddr (s.feedKey (keyPan key) e p key)) 16))).setNodeEntry (s.feedKey (keyPan key) e p key) c) := by
  have hgo : ¬ (((Kv.get {} s.active key).elemCfg e).kind p ≠ 1 ∨ w < (Kv.get {} s.active key).portStage e p ∨
      (Kv.get {} s.active key).portStage e p + (Kv.get {} s.active key).total ≤ w) := by
    unfold Block.feeds at h
    omega
  unfold State.feedAddr State.feedKey
  refine ⟨fun r hr => ?_, fun hnone => ?_⟩
  · simp only [State.feedPort, hw, if_neg hgo, hr]
    exact ⟨_, rfl, rfl⟩
  · simp only [State.feedPort, hw, if_neg hgo, hnone]
    exact ⟨_, rfl⟩

theorem execEdgeFeed_of_one {s : State} {pan e key : Nat} (he : e < 256) (p : Port)
    (h : Kv.keysWhere (fun k (r : BlkRun) => r.live && k / 256 == pan) s.runs = [key]) :
    exec (.edgeFeed (256 * pan + e) p) s = .next (s.feedPort e p key) ∧ keyPan key = pan := by
  have hkey : (256 * pan + e) / 256 = pan ∧ (256 * pan + e) % 256 = e := by omega
  have hmem : key ∈ Kv.keysWhere (fun k (r : BlkRun) => r.live && k / 256 == pan) s.runs := h ▸ List.mem_singleton_self key
  simp only [exec, execEdgeFeed, hkey.1, hkey.2, h, List.foldl]
  simp only [Kv.keysWhere, List.mem_map, List.mem_filter, Bool.and_eq_true, beq_iff_eq] at hmem
  obtain ⟨r, ⟨-, -, hpan⟩, rfl⟩ := hmem
  exact ⟨trivial, hpan⟩

/-- Settles O47: what a landing has made so far is kept as `Landed`, and the last due entry for a place decides what stands there. -/
theorem elementResultsLandAndLeave : Obligations.ElementResultsLandAndLeave := by
  unfold Obligations.ElementResultsLandAndLeave
  intro s pan e he hwf x runs
  refine ⟨fun hx => ?_, fun hports => ?_, fun key p hkey => ?_⟩
  · obtain ⟨hframe, -, hown, hothers⟩ := State.landElem_landed he hwf
    obtain ⟨hflight, hcontrib, hp, hdelay⟩ := s.landed_sameQueues pan e
    refine ⟨_, rfl, hframe, fun k hk => ⟨_, hothers k hk, rfl⟩, ?_⟩
    rw [hown]
    refine ⟨fun f => ?_, fun c => ?_, fun k hk => ?_, fun l r f k v hsplit hf hv hr hdst => ?_, fun l r f k z hsplit hf hv hr hdst => ?_,
      fun l r f k v hsplit hf hv hr hdst => ?_, hp, hdelay⟩
    · rw [hflight, State.drained, List.mem_filter, State.not_clockReached_iff]
    · rw [hcontrib, State.drained, List.mem_filter, State.not_clockReached_iff]
    · refine (Elem.foldl_take_e_other (s.contributed_e_wf hx) fun f hf => ?_).trans (congrArg (Kv.get 0 · _) (s.contributed_e pan e))
      obtain ⟨hmem, hdue⟩ := State.mem_dueResults.mp hf
      exact hk f hmem hdue
    · exact s.landed_e_of_last hx hsplit hf hv hr hdst
    · obtain ⟨y, hy⟩ := s.landed_lane_of_last hsplit hf hr hdst
      rw [hy, Elem.take_lane_setLane hdst hv]; rfl
    · obtain ⟨y, hy⟩ := s.landed_lane_of_last hsplit hf hr hdst
      rw [hy, Elem.take_lane_bits hdst hv, BitVec.ofNat_toNat]
      exact ⟨rfl, rfl, rfl, rfl, rfl⟩
  · obtain ⟨hframe, hown, hothers⟩ := State.exitElem_spec pan he hwf
    refine ⟨_, rfl, hframe, hothers, ?_⟩
    intro due
    have hdue : ∀ d, s.leaves pan d = true ↔ due d := fun d => by
      simp only [State.leaves, due]
      cases d.fab with
      | some c => exact decide_eq_true_iff
      | none => exact s.clockReached_iff ..
    rw [hown]
    refine ⟨fun d => ?_, fun l r d hsplit hd hr _ => ?_, fun p hp => ?_, rfl, rfl, rfl⟩
    · rw [State.exited, List.mem_filter, Bool.not_eq_true', ← hdue, Bool.not_eq_true]
    · obtain ⟨l', r', hgone, hlast⟩ := filter_split (place := DelayStage.port) hsplit ((hdue d).mpr hd) fun g hg hgd => hr g hg ((hdue g).mp hgd)
      rw [State.exited, hgone]
      exact s.foldl_portTakes_last hports hlast
    · refine s.foldl_portTakes_other hports fun d hd => ?_
      obtain ⟨hmem, hleaves⟩ := List.mem_filter.mp hd
      exact hp d hmem ((hdue d).mp hleaves)
  · obtain ⟨hexec, hpan⟩ := execEdgeFeed_of_one he p hkey
    rw [hexec]
    refine ⟨fun hidle => by rw [State.feedPort_of_not_feeds hidle], fun w hw hfeeds => ⟨fun hopen => ?_, fun q hq => ?_⟩⟩
    · obtain ⟨c, hfeed⟩ := (State.feedPort_of_feeds hw hfeeds).2 (hpan ▸ State.slotFault_of_none hopen)
      refine ⟨_, rfl, ?_, hfeed ▸ rfl⟩
      rw [hfeed, hpan, State.readNat_eq]
      exact congrArg Elem.delay (Kv.get_set_self _ _ _ hwf)
    · obtain ⟨r, hr, hcause⟩ := State.slotFault_of_stop hq
      obtain ⟨f, hfeed, hf⟩ := (State.feedPort_of_feeds hw hfeeds).1 r (hpan ▸ hr)
      exact ⟨_, f, rfl, hfeed, hf.trans hcause⟩

end Sys2Proof.Machine
end
